-- ==== Sys2Proof/Word.lean ====
section
/-!
DEFINITION. The word types of the SCN-4768 (spec 00 R4, R5, 09 R215, 10 R243, R247).
-/
namespace Sys2Proof

/-- A byte, the smallest unit an address names. -/
abbrev Byte := BitVec 8
/-- One lane of a vector register (R243). -/
abbrev Word := BitVec 32
/-- A scalar register, an address, a CSR or an instruction word (R215, R247). -/
abbrev DWord := BitVec 64

end Sys2Proof
end

