-- ==== Sys2Proof/Syntax.lean ====
section
/-!
DEFINITION. The abstract syntax: every row of the opcode table is one constructor of `Instr`.
Instruction words (spec 09 to 13) carry the operands their formats give, and the happenings of the
machine (commits, landings, replies, firmware work; spec 01 to 18) act on the object that the state's `cur`
names, and carry the operands that this leaves open.
-/
namespace Sys2Proof

/-- An issuer of a core, or another numbered object of a core (window, stream, block, version):
cluster, logical core, number (R151, R153: slots 0 to 15 are warps, 16 is the front thread). -/
structure Iss where
  cl : Nat
  co : Nat
  n : Nat
  deriving DecidableEq, Repr

/-- Switch marker and predicate of a word (R215, R216). -/
structure Mods where
  park : Bool
  pred : BitVec 3
  pneg : Bool
  deriving DecidableEq, Repr

/-- Format I's immediate (R217). -/
structure Imm where
  hi : Bool
  v : BitVec 24
  deriving DecidableEq, Repr

/-- Field B of a warp instruction: a vector register, or a scalar one when BSC is 1 (R225). -/
inductive BSrc where
  | vec (r : BitVec 9)
  | sca (r : BitVec 8)
  deriving DecidableEq, Repr

/-- Source lane of VBCAST (R273). -/
inductive LaneSrc where
  | const (n : BitVec 7)
  | sca (r : BitVec 8)
  deriving DecidableEq, Repr

/-- Scalar three-register form (R247). -/
structure S3 where
  m : Mods
  d : BitVec 8
  a : BitVec 8
  b : BitVec 8
  deriving DecidableEq, Repr

/-- Scalar immediate form (R247). -/
structure SI where
  m : Mods
  d : BitVec 8
  a : BitVec 8
  i : Imm
  deriving DecidableEq, Repr

/-- Scalar two-register form. -/
structure S2 where
  m : Mods
  d : BitVec 8
  a : BitVec 8
  deriving DecidableEq, Repr

/-- Vector form with two sources (R260). -/
structure V3 where
  m : Mods
  d : BitVec 9
  a : BitVec 9
  b : BSrc
  deriving DecidableEq, Repr

/-- Vector immediate form (R260). -/
structure VI where
  m : Mods
  d : BitVec 9
  a : BitVec 9
  i : Imm
  deriving DecidableEq, Repr

/-- Vector form with one source. -/
structure V2 where
  m : Mods
  d : BitVec 9
  a : BitVec 9
  deriving DecidableEq, Repr

/-- The type codes 0x0 to 0xF (R93). -/
inductive Ty where
  | f32 | bf16 | f16 | e4m3 | e5m2 | e2m3 | e3m2 | e2m1
  | mx8e4 | mx8e5 | mx6e2 | mx6e3 | mx4 | i8 | i32 | e8m0
  deriving DecidableEq, Repr

/-- The rounding modes 0 to 5 (R99). -/
inductive Rnd where
  | rne | rtz | rdn | rup | rna | sr
  deriving DecidableEq, Repr

/-- Type, rounding, saturation and stochastic index of a float instruction (R216, R245). -/
structure Fmt where
  ty : Ty
  rnd : Rnd
  sat : Bool
  idx : BitVec 8
  deriving DecidableEq, Repr

/-- Condition codes 0 to 11 (R250). -/
inductive Cond where
  | eq | ne | lt | le | gt | ge | ltu | leu | gtu | geu | un | ord
  deriving DecidableEq, Repr

/-- Operations of VREDX with the type that permits them (R276). -/
inductive RedOp where
  | add | min (u : Bool) | max (u : Bool) | and | or | xor
  | fadd (r : Rnd) | fmin | fmax
  deriving DecidableEq, Repr

/-- Fields of a format M instruction (R218). -/
structure MemF where
  m : Mods
  data : BitVec 9
  base : BitVec 9
  bss : Bool
  scope : BitVec 3
  order : BitVec 2
  off : BitVec 20
  deriving DecidableEq, Repr

/-- Functions of ATOM and RED (R291). -/
inductive AtomFn where
  | add | and | or | xor | minS | maxS | minU | maxU | xchg | cas | fadd | fmin | fmax
  deriving DecidableEq, Repr

/-- Member modes of a phaser (R306). -/
inductive PhMode where
  | sig | wait | sw
  deriving DecidableEq, Repr

/-- Fields that MMA and MMAS share (R316). -/
structure MmaF where
  park : Bool
  ta : Ty
  tb : Ty
  tacc : Ty
  acc : BitVec 7
  ha : BitVec 4
  hb : BitVec 4
  z : Bool
  deriving DecidableEq, Repr

/-- Fields of EPI (R316). -/
structure EpiF where
  park : Bool
  tacc : Ty
  tres : Ty
  acc : BitVec 7
  port : BitVec 2
  now : Bool
  aos : Bool
  tr : BitVec 6
  tc : BitVec 6
  rnd : Rnd
  sat : Bool
  deriving DecidableEq, Repr

/-- The mask of CSRS and CSRC: a register, or imm[15:0] (R371). -/
inductive CsrSrc where
  | reg (r : BitVec 9)
  | imm (v : BitVec 16)
  deriving DecidableEq, Repr

/-- The kinds of EWAIT (R342). -/
inductive StreamWait where
  | window (h : BitVec 4)
  | phaser (ph : BitVec 12)
  | ticks (n : Nat)
  | bad
  deriving DecidableEq, Repr

/-- What the error correction of a sector finds (R64, R65). -/
inductive Ecc where
  | good | corrected | bad
  deriving DecidableEq, Repr

/-- The sector of the pool that an uncorrectable error names (R38, R199): a register sector of
slot, register and lane group; a scratchpad sector by offset; an accumulator sector; the front thread's. -/
inductive PoolKind where
  | vreg (slot reg grp : Nat)
  | scratch (off : Nat)
  | acc (sector : Nat)
  | front
  deriving DecidableEq, Repr

/-- A delivery of bytes to a core's scratchpad from a producer (R49, R51). -/
structure Delivery where
  cl : Nat
  co : Nat
  off : Nat
  kind : Nat
  pid : Nat
  psn : Bool
  data : List Byte
  deriving DecidableEq, Repr

/-- A flit on an optical port (R420). -/
structure Flit where
  slot : Nat
  ok : Bool
  dwords : List DWord
  deriving DecidableEq, Repr

/-- Who issues a firmware command (R374): a mailbox function, or an issuer through SYS. -/
inductive CmdSrc where
  | mbox (fn : Nat)
  | sys (w : Iss)
  deriving DecidableEq, Repr

/-- A firmware command: its source, its code, and its argument dwords (R374). -/
structure Cmd where
  src : CmdSrc
  code : Nat
  args : List DWord
  deriving DecidableEq, Repr

/-- The instructions and happenings of the machine, one constructor a row of the opcode table. -/
inductive Instr where
  /-- SADD (R247). -/
  | sadd (o : S3)
  /-- SSUB (R247). -/
  | ssub (o : S3)
  /-- SAND (R247). -/
  | sand (o : S3)
  /-- SOR (R247). -/
  | sor (o : S3)
  /-- SXOR (R247). -/
  | sxor (o : S3)
  /-- SANDN (R247). -/
  | sandn (o : S3)
  /-- SSHL (R247). -/
  | sshl (o : S3)
  /-- SSHR (R247). -/
  | sshr (o : S3)
  /-- SSAR (R247). -/
  | ssar (o : S3)
  /-- SROT (R247). -/
  | srot (o : S3)
  /-- SMIN (R247). -/
  | smin (o : S3)
  /-- SMAX (R247). -/
  | smax (o : S3)
  /-- SMINU (R247). -/
  | sminu (o : S3)
  /-- SMAXU (R247). -/
  | smaxu (o : S3)
  /-- SADD_IMM (R247). -/
  | saddImm (o : SI)
  /-- SSUB_IMM (R247). -/
  | ssubImm (o : SI)
  /-- SAND_IMM (R247). -/
  | sandImm (o : SI)
  /-- SOR_IMM (R247). -/
  | sorImm (o : SI)
  /-- SXOR_IMM (R247). -/
  | sxorImm (o : SI)
  /-- SANDN_IMM (R247). -/
  | sandnImm (o : SI)
  /-- SSHL_IMM (R247). -/
  | sshlImm (o : SI)
  /-- SSHR_IMM (R247). -/
  | sshrImm (o : SI)
  /-- SSAR_IMM (R247). -/
  | ssarImm (o : SI)
  /-- SROT_IMM (R247). -/
  | srotImm (o : SI)
  /-- SMIN_IMM (R247). -/
  | sminImm (o : SI)
  /-- SMAX_IMM (R247). -/
  | smaxImm (o : SI)
  /-- SMINU_IMM (R247). -/
  | sminuImm (o : SI)
  /-- SMAXU_IMM (R247). -/
  | smaxuImm (o : SI)
  /-- SSEL (R247). -/
  | ssel (o : S3) (g : BitVec 3)
  /-- SMOV (R247). -/
  | smov (o : S2)
  /-- SMUL (R247). -/
  | smul (o : S3)
  /-- SMULH (R247). -/
  | smulh (o : S3) (u : Bool)
  /-- SDIV (R248). -/
  | sdiv (o : S3)
  /-- SDIVU (R248). -/
  | sdivu (o : S3)
  /-- SREM (R248). -/
  | srem (o : S3)
  /-- SREMU (R248). -/
  | sremu (o : S3)
  /-- SCLZ (R247). -/
  | sclz (o : S2)
  /-- SPOPC (R247). -/
  | spopc (o : S2)
  /-- SBFE (R249). -/
  | sbfe (o : S3) (u : Bool)
  /-- SCMP (R250). -/
  | scmp (m : Mods) (g : BitVec 3) (a b : BitVec 8) (c : Cond)
  /-- SCMP_IMM (R250). -/
  | scmpImm (m : Mods) (g : BitVec 3) (a : BitVec 8) (i : Imm) (c : Cond)
  /-- SMOVI (R252). -/
  | smovi (m : Mods) (d : BitVec 8) (i : Imm)
  /-- SMOVH (R252). -/
  | smovh (m : Mods) (d : BitVec 8) (v : BitVec 24)
  /-- BRA (R255). -/
  | bra (m : Mods) (offs : BitVec 32)
  /-- BRC (R255). -/
  | brc (m : Mods) (r : BitVec 8) (offs : BitVec 32)
  /-- CALL (R255). -/
  | call (m : Mods) (r : BitVec 8) (offs : BitVec 32)
  /-- RET (R255). -/
  | ret (m : Mods) (r : BitVec 8)
  /-- JMPI (R255). -/
  | jmpi (m : Mods) (r : BitVec 8)
  /-- LOOP (R256). -/
  | loop (m : Mods) (r : BitVec 8) (offs : BitVec 32)
  /-- BRV (R258). -/
  | brv (m : Mods) (offs : BitVec 32)
  /-- DQPUSH (R259). -/
  | dqpush (m : Mods) (r : BitVec 8)
  /-- VADD (R260). -/
  | vadd (o : V3) (u sat : Bool)
  /-- VSUB (R260). -/
  | vsub (o : V3) (u sat : Bool)
  /-- VAND (R260). -/
  | vand (o : V3)
  /-- VOR (R260). -/
  | vor (o : V3)
  /-- VXOR (R260). -/
  | vxor (o : V3)
  /-- VANDN (R260). -/
  | vandn (o : V3)
  /-- VSHL (R260). -/
  | vshl (o : V3)
  /-- VSHR (R260). -/
  | vshr (o : V3)
  /-- VSAR (R260). -/
  | vsar (o : V3)
  /-- VROT (R260). -/
  | vrot (o : V3)
  /-- VMIN (R260). -/
  | vmin (o : V3) (u : Bool)
  /-- VMAX (R260). -/
  | vmax (o : V3) (u : Bool)
  /-- VADD_IMM (R260). -/
  | vaddImm (o : VI)
  /-- VSUB_IMM (R260). -/
  | vsubImm (o : VI)
  /-- VAND_IMM (R260). -/
  | vandImm (o : VI)
  /-- VOR_IMM (R260). -/
  | vorImm (o : VI)
  /-- VXOR_IMM (R260). -/
  | vxorImm (o : VI)
  /-- VANDN_IMM (R260). -/
  | vandnImm (o : VI)
  /-- VSHL_IMM (R260). -/
  | vshlImm (o : VI)
  /-- VSHR_IMM (R260). -/
  | vshrImm (o : VI)
  /-- VSAR_IMM (R260). -/
  | vsarImm (o : VI)
  /-- VROT_IMM (R260). -/
  | vrotImm (o : VI)
  /-- VMIN_IMM (R260). -/
  | vminImm (o : VI)
  /-- VMAX_IMM (R260). -/
  | vmaxImm (o : VI)
  /-- VSEL (R251). -/
  | vsel (o : V3) (p : BitVec 3)
  /-- VMOV (R251). -/
  | vmov (o : V2)
  /-- VMUL (R261). -/
  | vmul (o : V3)
  /-- VMULH (R261). -/
  | vmulh (o : V3) (u : Bool)
  /-- VMAD (R261). -/
  | vmad (o : V3) (c : BitVec 9)
  /-- VDOT4 (R261). -/
  | vdot4 (o : V3) (c : BitVec 9) (u sat : Bool)
  /-- VABS (R260). -/
  | vabs (o : V2) (sat : Bool)
  /-- VCLZ (R260). -/
  | vclz (o : V2)
  /-- VPOPC (R260). -/
  | vpopc (o : V2)
  /-- VBREV (R260). -/
  | vbrev (o : V2)
  /-- VBFE (R249). -/
  | vbfe (o : V3) (u : Bool)
  /-- VBFI (R262). -/
  | vbfi (o : V3) (c : BitVec 9)
  /-- VPERMB (R262). -/
  | vpermb (o : V3) (c : BitVec 9)
  /-- VCMP (R250). -/
  | vcmp (m : Mods) (p : BitVec 3) (a : BitVec 9) (b : BSrc) (c : Cond)
  /-- VCMP_IMM (R250). -/
  | vcmpImm (m : Mods) (p : BitVec 3) (a : BitVec 9) (i : Imm) (c : Cond)
  /-- VMOVI (R252). -/
  | vmovi (m : Mods) (d : BitVec 9) (i : Imm)
  /-- VMOVH (R252). -/
  | vmovh (m : Mods) (d : BitVec 9) (v : BitVec 24)
  /-- VFADD (R264). -/
  | vfadd (o : V3) (f : Fmt)
  /-- VFSUB (R264). -/
  | vfsub (o : V3) (f : Fmt)
  /-- VFMUL (R264). -/
  | vfmul (o : V3) (f : Fmt)
  /-- VFMIN (R265). -/
  | vfmin (o : V3) (t : Ty)
  /-- VFMAX (R265). -/
  | vfmax (o : V3) (t : Ty)
  /-- VFABS (R264). -/
  | vfabs (o : V2) (t : Ty)
  /-- VFNEG (R264). -/
  | vfneg (o : V2) (t : Ty)
  /-- VFMA (R266). -/
  | vfma (o : V3) (c : BitVec 9) (f : Fmt)
  /-- VFMS (R266). -/
  | vfms (o : V3) (c : BitVec 9) (f : Fmt)
  /-- VFNMA (R266). -/
  | vfnma (o : V3) (c : BitVec 9) (f : Fmt)
  /-- VFCMP (R250). -/
  | vfcmp (m : Mods) (p : BitVec 3) (a : BitVec 9) (b : BSrc) (t : Ty) (c : Cond)
  /-- VFCLASS (R267). -/
  | vfclass (o : V2) (t : Ty)
  /-- VFCVT (R268). -/
  | vfcvt (o : V2) (src : Ty) (f : Fmt)
  /-- VFRND (R268). -/
  | vfrnd (o : V2) (f : Fmt)
  /-- VFTOI (R268). -/
  | vftoi (o : V2) (u : Bool) (f : Fmt)
  /-- VITOF (R268). -/
  | vitof (o : V2) (u : Bool) (f : Fmt)
  /-- VFSCL (R264). -/
  | vfscl (o : V3) (f : Fmt)
  /-- VRCP (R269). -/
  | vrcp (o : V2)
  /-- VRSQ (R269). -/
  | vrsq (o : V2)
  /-- VSQRT (R269). -/
  | vsqrt (o : V2) (f : Fmt)
  /-- VEXP2 (R269). -/
  | vexp2 (o : V2)
  /-- VLOG2 (R269). -/
  | vlog2 (o : V2)
  /-- VSIN (R269). -/
  | vsin (o : V2)
  /-- VCOS (R269). -/
  | vcos (o : V2)
  /-- VTANH (R269). -/
  | vtanh (o : V2)
  /-- VSHFL (R272). -/
  | vshfl (o : V3) (mode : BitVec 2)
  /-- VBCAST (R273). -/
  | vbcast (o : V2) (n : LaneSrc)
  /-- VBALLOT (R274). -/
  | vballot (m : Mods) (d : BitVec 9) (p : BitVec 3) (g : BitVec 2)
  /-- VVOTE (R275). -/
  | vvote (m : Mods) (d p : BitVec 3) (mode : BitVec 2)
  /-- VREDX (R276). -/
  | vredx (o : V2) (op : RedOp)
  /-- VMXQ (R277). -/
  | vmxq (o : V2) (f : Fmt)
  /-- VMXDQ (R278). -/
  | vmxdq (o : V2) (f : Fmt)
  /-- VPACK (R279). -/
  | vpack (o : V2) (t : Ty) (unp : Bool)
  /-- LD (R286). -/
  | ld (o : MemF) (sz : BitVec 2) (sx : Bool)
  /-- ST (R287). -/
  | st (o : MemF) (sz : BitVec 2)
  /-- ST_MC (R288). -/
  | stMc (o : MemF) (sz : BitVec 2)
  /-- LDH (R289). -/
  | ldh (o : MemF) (sz : BitVec 2) (sx : Bool)
  /-- WDEF (R299). -/
  | wdef (m : Mods) (h : BitVec 4) (a b : BitVec 8)
  /-- WTOUCH (R301). -/
  | wtouch (m : Mods) (h : BitVec 4)
  /-- WSTATE (R301). -/
  | wstate (m : Mods) (d : BitVec 9) (h : BitVec 4)
  /-- WDRAIN (R302). -/
  | wdrain (m : Mods) (h : BitVec 4)
  /-- WREL (R302). -/
  | wrel (m : Mods) (h : BitVec 4)
  /-- HWAIT (R303). -/
  | hwait (m : Mods) (p : BitVec 3) (h : BitVec 4)
  /-- ATOM (R293). -/
  | atom (o : MemF) (b64 : Bool) (fn : AtomFn)
  /-- RED (R295). -/
  | red (o : MemF) (b64 : Bool) (fn : AtomFn)
  /-- OALLOC (R82). -/
  | oalloc (m : Mods) (d a : BitVec 8) (mir : Bool)
  /-- OFREE (R85). -/
  | ofree (m : Mods) (d a : BitVec 8)
  /-- FENCE (R296). -/
  | fence (m : Mods) (scope : BitVec 3) (order : BitVec 2)
  /-- BAR (R304). -/
  | bar (m : Mods)
  /-- SSYNC (R305). -/
  | ssync (m : Mods)
  /-- PHREG (R306). -/
  | phreg (m : Mods) (q : BitVec 4) (a : BitVec 8) (mode : PhMode)
  /-- PHDROP (R311). -/
  | phdrop (m : Mods) (q : BitVec 4)
  /-- PHSIG (R309). -/
  | phsig (m : Mods) (q : BitVec 4)
  /-- PHWAIT (R310). -/
  | phwait (m : Mods) (p : BitVec 3) (q : BitVec 4)
  /-- PHSW (R310). -/
  | phsw (m : Mods) (p : BitVec 3) (q : BitVec 4)
  /-- PHQRY (R311). -/
  | phqry (m : Mods) (d : BitVec 9) (q : BitVec 4)
  /-- RGN (R312). -/
  | rgn (park : Bool) (mask : BitVec 32)
  /-- MEET (R313). -/
  | meet (m : Mods) (d : BitVec 9) (offs : BitVec 32)
  /-- JOIN (R313). -/
  | join (m : Mods) (a : BitVec 9)
  /-- DQPOP (R314). -/
  | dqpop (m : Mods) (d : BitVec 9)
  /-- MMA (R324). -/
  | mma (o : MmaF) (ga lsel : Bool)
  /-- MMAS (R326). -/
  | mmas (o : MmaF) (hm : BitVec 4) (sp48 : Bool)
  /-- MGATH (R328). -/
  | mgath (park : Bool) (ta : Ty) (ha : BitVec 4) (sb : BitVec 8) (lsel : Bool)
  /-- CMPRS (R329). -/
  | cmprs (park : Bool) (ta : Ty) (ha hv hm : BitVec 4) (sp48 : Bool)
  /-- ACCZ (R330). -/
  | accz (park : Bool) (acc : BitVec 7)
  /-- ACCMV (R330). -/
  | accmv (park : Bool) (acc src : BitVec 7)
  /-- ACCLD (R330). -/
  | accld (park : Bool) (tacc : Ty) (acc : BitVec 7) (ha : BitVec 4)
  /-- EPI (R333). -/
  | epi (o : EpiF)
  /-- EPSET (R332). -/
  | epset (park : Bool) (port : BitVec 2) (sa : BitVec 8)
  /-- EFORK (R339). -/
  | efork (park : Bool) (n : BitVec 2) (sa : BitVec 8)
  /-- ERDV (R339). -/
  | erdv (park : Bool) (n : BitVec 2)
  /-- COLL (R345). -/
  | coll (park : Bool) (sa : BitVec 8) (n : BitVec 4)
  /-- CWAIT (R348). -/
  | cwait (park : Bool) (sd : BitVec 8) (n : BitVec 4)
  /-- RAND (R352). -/
  | rand (m : Mods) (d : BitVec 9) (c : BitVec 8) (n : BitVec 2) (f32 : Bool)
  /-- SAMPLE (R353). -/
  | sample (m : Mods) (d a b : BitVec 9) (c : BitVec 8)
  /-- TOKAPP (R359). -/
  | tokapp (m : Mods) (a : BitVec 9) (b : BSrc)
  /-- TOKAPP_D (R359). -/
  | tokappD (m : Mods) (a : BitVec 9) (b : BSrc)
  /-- TOKCONF (R360). -/
  | tokconf (m : Mods) (a : BitVec 9) (b : BSrc)
  /-- TOKGET (R364). -/
  | tokget (m : Mods) (d : BitVec 9) (b : BSrc) (i : BitVec 3)
  /-- SLOEW (R355). -/
  | sloew (m : Mods) (a : BitVec 9) (b : BSrc) (k : BitVec 9)
  /-- SLOER (R364). -/
  | sloer (m : Mods) (d : BitVec 9) (b : BSrc) (k : BitVec 9)
  /-- SLOEQ (R364). -/
  | sloeq (m : Mods) (d : BitVec 9) (b : BSrc)
  /-- CSRR (R371). -/
  | csrr (m : Mods) (r : BitVec 9) (csr : BitVec 12)
  /-- CSRW (R371). -/
  | csrw (m : Mods) (r : BitVec 9) (csr : BitVec 12)
  /-- CSRS (R371). -/
  | csrs (m : Mods) (v : CsrSrc) (csr : BitVec 12)
  /-- CSRC (R371). -/
  | csrc (m : Mods) (v : CsrSrc) (csr : BitVec 12)
  /-- RDTICK (R371). -/
  | rdtick (m : Mods) (r : BitVec 9)
  /-- TRAPF (R368). -/
  | trapf (m : Mods)
  /-- TRAP (R369). -/
  | trap (m : Mods) (imm : BitVec 16)
  /-- SYS (R369). -/
  | sys (m : Mods) (n : BitVec 16) (r : BitVec 9)
  /-- BKPT (R369). -/
  | bkpt (m : Mods) (imm : BitVec 16)
  /-- HALT (R370). -/
  | halt (m : Mods)
  /-- IRET (R412). -/
  | iret (m : Mods)
  /-- TLBINV (R369). -/
  | tlbinv (m : Mods) (r : BitVec 9) (mode : BitVec 2) (tenant : BitVec 6)
  /-- GLAUNCH (R372). -/
  | glaunch (m : Mods) (r : BitVec 9)
  /-- NOP (R373). -/
  | nop (park : Bool)
  /-- STRIKE_REPORT (R192). -/
  | strikeReport (at_ : Nat)
  /-- POISON_UPDATE (R26). -/
  | poisonUpdate (g : Nat) (psn : Bool)
  /-- POISON_CLEAR_NOTICE (R24). -/
  | poisonClearNotice (g : Nat)
  /-- HBM_SECTOR_ACCESS (R58). -/
  | hbmSectorAccess (k : Nat) (ecc : Ecc)
  /-- SLACK_WINDOW (R65). -/
  | slackWindow (ticks : Nat)
  /-- REFRESH_OUTSIDE_SLACK (R67). -/
  | refreshOutsideSlack (bank : Nat)
  /-- SCHEDULE_FAULT (R68). -/
  | scheduleFault (cause : Nat)
  /-- RESYNC_BEACON (R398). -/
  | resyncBeacon (tick : Nat)
  /-- WINDOW_LANDING (R52). -/
  | windowLanding (d : Delivery)
  /-- ECOPY (R341). -/
  | ecopy (len : Nat) (src dst strides : DWord)
  /-- EFILL (R340). -/
  | efill (h : BitVec 4)
  /-- EDRAIN (R340). -/
  | edrain (h : BitVec 4)
  /-- EMMA (R340). -/
  | emma (word : DWord)
  /-- EWAIT (R342). -/
  | ewait (kind : StreamWait)
  /-- ESIG (R343). -/
  | esig (sub : BitVec 3) (ph : BitVec 12)
  /-- ELOOP (R340). -/
  | eloop (count : BitVec 16) (offs : BitVec 24)
  /-- COPY_SECTOR_LANDING (R341). -/
  | copySectorLanding (k : Nat)
  /-- POOL_ECC_ERROR (R38). -/
  | poolEccError (kind : PoolKind)
  /-- PAIR_SELF_TEST (R206). -/
  | pairSelfTest (aFails : Bool)
  /-- COLLECTIVE_SEND (R434). -/
  | collectiveSend (k : Nat)
  /-- COLLECTIVE_RECEIVE (R434). -/
  | collectiveReceive (src k : Nat) (data : List Byte)
  /-- FLIT_RECEIVE (R421). -/
  | flitReceive (f : Flit)
  /-- ACKNOWLEDGEMENT_WORD (R86). -/
  | acknowledgementWord (word : DWord)
  /-- NOTIFY_WRITE (R379). -/
  | notifyWrite (v : DWord)
  /-- SCHEDULE_BEACON (R453). -/
  | scheduleBeacon (tick : Nat)
  /-- PTP_TICK_LOAD (R452). -/
  | ptpTickLoad (tick : Nat)
  /-- FREEZE (R436). -/
  | freeze (tick : Nat)
  /-- REGULATOR_ALARM (R455). -/
  | regulatorAlarm (cause : Nat)
  /-- PTP_MESSAGE (R452). -/
  | ptpMessage (offset : Int)
  /-- MBCMD_WRITE_WHILE_BUSY (R450). -/
  | mbcmdWriteWhileBusy (v : DWord)
  /-- ISSUE_TURN (R155). -/
  | issueTurn
  /-- SLOE_OPERATION_COMPLETE (R358). -/
  | sloeOperationComplete
  /-- SEQUENCE_TRAP_DELIVERY (R366). -/
  | sequenceTrapDelivery
  /-- REGION_COMMIT (R182). -/
  | regionCommit
  /-- HELD_EFFECT_PRESENTATION (R120). -/
  | heldEffectPresentation
  /-- REGION_REENTRY (R187). -/
  | regionReentry
  /-- ATOMIC_RETRY (R188). -/
  | atomicRetry
  /-- LOAD_REPLY (R286). -/
  | loadReply
  /-- ATOMIC_REPLY (R293). -/
  | atomicReply
  /-- WRITE_ACK (R62). -/
  | writeAck
  /-- PAGE_TABLE_READ_RETURN (R29). -/
  | pageTableReadReturn
  /-- TLB_INVALIDATION_COMPLETE (R32). -/
  | tlbInvalidationComplete
  /-- ERROR_COUNT_DECAY (R70). -/
  | errorCountDecay
  /-- SUPERSTEP_REEXECUTION (R208). -/
  | superstepReexecution
  /-- DRAIN_SECTOR (R302). -/
  | drainSector
  /-- DRAIN_COMPLETE (R302). -/
  | drainComplete
  /-- FOLLOW_ON_ISSUE (R55). -/
  | followOnIssue
  /-- MATRIX_COMMAND_START (R318). -/
  | matrixCommandStart
  /-- OPERAND_RELEASE (R325). -/
  | operandRelease
  /-- ACC_RETIRE (R331). -/
  | accRetire
  /-- VERSION_COMMIT (R194). -/
  | versionCommit
  /-- EPILOGUE_ROW (R336). -/
  | epilogueRow
  /-- EPILOGUE_SEND (R336). -/
  | epilogueSend
  /-- ADD_ON_STORE_APPLY (R337). -/
  | addOnStoreApply
  /-- GATHER_START (R328). -/
  | gatherStart
  /-- GATHER_COMPLETE (R325). -/
  | gatherComplete
  /-- STREAM_COMMAND_START (R169). -/
  | streamCommandStart
  /-- EEND (R340). -/
  | eend
  /-- STREAM_WAIT_END (R342). -/
  | streamWaitEnd
  /-- PHASE_COMPLETE (R309). -/
  | phaseComplete
  /-- BARRIER_COMPLETE (R304). -/
  | barrierComplete
  /-- SUPERSTEP_BOUNDARY (R397). -/
  | superstepBoundary
  /-- DQ_WORD_POPPABLE (R166). -/
  | dqWordPoppable
  /-- COLLECTIVE_START (R434). -/
  | collectiveStart
  /-- COLLECTIVE_END (R434). -/
  | collectiveEnd
  /-- FLIT_SEND (R421). -/
  | flitSend
  /-- ACCESS_SLOT_SEND (R424). -/
  | accessSlotSend
  /-- SWITCH_FORWARD (R426). -/
  | switchForward
  /-- ORCHARD_ACCESS_APPLY (R77). -/
  | orchardAccessApply
  /-- MIRROR_UPDATE (R88). -/
  | mirrorUpdate
  /-- SWITCH_FAILURE (R90). -/
  | switchFailure
  /-- LOST_REPLY (R91). -/
  | lostReply
  /-- OALLOC_COMPLETE (R83). -/
  | oallocComplete
  /-- OFREE_COMPLETE (R85). -/
  | ofreeComplete
  /-- TRAP_DELIVERY (R411). -/
  | trapDelivery
  /-- FIRMWARE_FAULT_DELIVERY (R409). -/
  | firmwareFaultDelivery
  /-- PREEMPTION (R207). -/
  | preemption
  /-- AUTOMATIC_RESTORE (R392). -/
  | automaticRestore
  /-- PACKET_HEADER_READ (R385). -/
  | packetHeaderRead
  /-- WAIT_PACKET_POLL (R385). -/
  | waitPacketPoll
  /-- LAUNCH_VERDICT (R387). -/
  | launchVerdict
  /-- GRID_START (R388). -/
  | gridStart
  /-- PACKET_RETIRE (R385). -/
  | packetRetire
  /-- QUEUE_SWITCH_OUT (R382). -/
  | queueSwitchOut
  /-- QUEUE_SWITCH_IN (R382). -/
  | queueSwitchIn
  /-- FRAME_START (R395). -/
  | frameStart
  /-- DOMNEW (R375). -/
  | domnew
  /-- DOMDEL (R374). -/
  | domdel
  /-- DOMSET (R375). -/
  | domset
  /-- QNEW (R377). -/
  | qnew
  /-- QDEL (R374). -/
  | qdel
  /-- SCHLOAD (R396). -/
  | schload
  /-- PHSET (R396). -/
  | phset
  /-- GPREEMPT (R390). -/
  | gpreempt
  /-- GRESUME (R419). -/
  | gresume
  /-- GKILL (R374). -/
  | gkill
  /-- SLOENEW (R374). -/
  | sloenew
  /-- SLOEDEL (R374). -/
  | sloedel
  /-- KVBIND (R374). -/
  | kvbind
  /-- PTMAP (R485). -/
  | ptmap
  /-- PTUNMAP (R374). -/
  | ptunmap
  /-- DEFERRED_ENTRY_RESOLVE (R485). -/
  | deferredEntryResolve
  /-- UNKNOWN_COMMAND (R374). -/
  | unknownCommand
  /-- DBGATT (R438). -/
  | dbgatt
  /-- DBGDET (R438). -/
  | dbgdet
  /-- HALTREQ (R442). -/
  | haltreq
  /-- RESUME (R442). -/
  | resume
  /-- STATERD (R442). -/
  | staterd
  /-- STATEWR (R442). -/
  | statewr
  /-- WPSET (R443). -/
  | wpset
  /-- PREDLOAD (R445). -/
  | predload
  /-- CTRSET (R439). -/
  | ctrset
  /-- TRRING (R440). -/
  | trring
  /-- REPLAY (R447). -/
  | replay
  /-- EXITRD (R438). -/
  | exitrd
  /-- RLOGRD (R438). -/
  | rlogrd
  /-- COUNTER_LATCH (R440). -/
  | counterLatch
  /-- CURRANT_VERDICT (R445). -/
  | currantVerdict
  /-- FREEZE_RESUME (R436). -/
  | freezeResume
  /-- ATTEST (R459). -/
  | attest
  /-- EXTLOAD (R459). -/
  | extload
  /-- CFGRD (R459). -/
  | cfgrd
  /-- CFGWR (R459). -/
  | cfgwr
  /-- HEALTHRD (R459). -/
  | healthrd
  /-- MBSTAT_READ (R450). -/
  | mbstatRead
  /-- DEVICE_RESET (R456). -/
  | deviceReset
  /-- FUNCTION_LEVEL_RESET (R451). -/
  | functionLevelReset
  /-- THERMAL_TRIP (R455). -/
  | thermalTrip
  /-- PREEMPTION_REQUEST_WITHDRAWN (R390). -/
  | preemptionRequestWithdrawn
  /-- LAST_FRAME_END (R395). -/
  | lastFrameEnd
  /-- COLLECTIVE_PRESENTATION_DEADLINE (R434). -/
  | collectivePresentationDeadline
  /-- MIRROR_COPY_BACK_COMPLETE (R92). -/
  | mirrorCopyBackComplete
  /-- RESTORED_GRID_RESUME (R392). -/
  | restoredGridResume
  deriving DecidableEq, Repr

end Sys2Proof
end

