-- ==== Sys2Proof/WellFormed.lean ====
section
/-!
DEFINITION. When an instruction is one that its issuer may be given: the class of its clause (R153,
R226, R227), the register ranges (R224, R36), the types, roundings and orders each accepts.
-/
namespace Sys2Proof

/-- What the checks of R228 need to know of the issuer and its clause. -/
structure Env where
  front : Bool
  cls : Nat
  nreg : Nat
  tiles : Nat
  bpc : Nat
  handler : Bool
  boundary : Bool
  elastic : Bool
  targetBad : Bool
  deriving DecidableEq, Repr

/-- The clause class of an instruction (R226): 0 to 6, 7 for NOP (any class), 8 for a happening,
which stands in no clause. -/
def Instr.cls : Instr → Nat
  | .sadd .. | .ssub .. | .sand .. | .sor .. | .sxor .. | .sandn .. | .sshl .. | .sshr ..
  | .ssar .. | .srot .. | .smin .. | .smax .. | .sminu .. | .smaxu .. | .saddImm .. | .ssubImm ..
  | .sandImm .. | .sorImm .. | .sxorImm .. | .sandnImm .. | .sshlImm .. | .sshrImm ..
  | .ssarImm .. | .srotImm .. | .sminImm .. | .smaxImm .. | .sminuImm .. | .smaxuImm .. | .ssel ..
  | .smov .. | .smul .. | .smulh .. | .sdiv .. | .sdivu .. | .srem .. | .sremu .. | .sclz ..
  | .spopc .. | .sbfe .. | .scmp .. | .scmpImm .. | .smovi .. | .smovh .. | .bra .. | .brc ..
  | .call .. | .ret .. | .jmpi .. | .loop .. | .dqpush .. => 0
  | .brv .. | .vadd .. | .vsub .. | .vand .. | .vor .. | .vxor .. | .vandn .. | .vshl ..
  | .vshr .. | .vsar .. | .vrot .. | .vmin .. | .vmax .. | .vaddImm .. | .vsubImm .. | .vandImm ..
  | .vorImm .. | .vxorImm .. | .vandnImm .. | .vshlImm .. | .vshrImm .. | .vsarImm ..
  | .vrotImm .. | .vminImm .. | .vmaxImm .. | .vsel .. | .vmov .. | .vmul .. | .vmulh ..
  | .vmad .. | .vdot4 .. | .vabs .. | .vclz .. | .vpopc .. | .vbrev .. | .vbfe .. | .vbfi ..
  | .vpermb .. | .vcmp .. | .vcmpImm .. | .vmovi .. | .vmovh .. | .vfadd .. | .vfsub ..
  | .vfmul .. | .vfmin .. | .vfmax .. | .vfabs .. | .vfneg .. | .vfma .. | .vfms .. | .vfnma ..
  | .vfcmp .. | .vfclass .. | .vfcvt .. | .vfrnd .. | .vftoi .. | .vitof .. | .vfscl .. | .vrcp ..
  | .vrsq .. | .vsqrt .. | .vexp2 .. | .vlog2 .. | .vsin .. | .vcos .. | .vtanh .. | .vshfl ..
  | .vbcast .. | .vballot .. | .vvote .. | .vredx .. | .vmxq .. | .vmxdq .. | .vpack .. => 1
  | .ld .. | .st .. | .stMc .. | .ldh .. | .wdef .. | .wtouch .. | .wstate .. | .wdrain ..
  | .wrel .. | .hwait .. | .atom .. | .red .. | .oalloc .. | .ofree .. | .fence .. => 2
  | .mma .. | .mmas .. | .mgath .. | .cmprs .. | .accz .. | .accmv .. | .accld .. | .epi ..
  | .epset .. | .efork .. | .erdv .. | .coll .. | .cwait .. => 3
  | .bar .. | .ssync .. | .phreg .. | .phdrop .. | .phsig .. | .phwait .. | .phsw .. | .phqry ..
  | .rgn .. | .meet .. | .join .. | .dqpop .. => 4
  | .rand .. | .sample .. | .tokapp .. | .tokappD .. | .tokconf .. | .tokget .. | .sloew ..
  | .sloer .. | .sloeq .. => 5
  | .csrr .. | .csrw .. | .csrs .. | .csrc .. | .rdtick .. | .trapf .. | .trap .. | .sys ..
  | .bkpt .. | .halt .. | .iret .. | .tlbinv .. | .glaunch .. => 6
  | .nop .. => 7
  | .issueTurn .. | .sloeOperationComplete .. | .sequenceTrapDelivery .. | .regionCommit ..
  | .heldEffectPresentation .. | .strikeReport .. | .regionReentry .. | .atomicRetry ..
  | .loadReply .. | .atomicReply .. | .writeAck .. | .pageTableReadReturn .. | .poisonUpdate ..
  | .poisonClearNotice .. | .tlbInvalidationComplete .. | .hbmSectorAccess .. | .slackWindow ..
  | .refreshOutsideSlack .. | .errorCountDecay .. | .scheduleFault .. | .resyncBeacon ..
  | .superstepReexecution .. | .windowLanding .. | .drainSector .. | .drainComplete ..
  | .followOnIssue .. | .matrixCommandStart .. | .operandRelease .. | .accRetire ..
  | .versionCommit .. | .epilogueRow .. | .epilogueSend .. | .addOnStoreApply .. | .gatherStart ..
  | .gatherComplete .. | .streamCommandStart .. | .ecopy .. | .efill .. | .edrain .. | .emma ..
  | .ewait .. | .esig .. | .eloop .. | .eend .. | .copySectorLanding .. | .streamWaitEnd ..
  | .phaseComplete .. | .barrierComplete .. | .superstepBoundary .. | .dqWordPoppable ..
  | .poolEccError .. | .pairSelfTest .. | .collectiveStart .. | .collectiveSend ..
  | .collectiveReceive .. | .collectiveEnd .. | .flitSend .. | .flitReceive ..
  | .accessSlotSend .. | .switchForward .. | .orchardAccessApply .. | .mirrorUpdate ..
  | .acknowledgementWord .. | .switchFailure .. | .lostReply .. | .oallocComplete ..
  | .ofreeComplete .. | .trapDelivery .. | .firmwareFaultDelivery .. | .preemption ..
  | .automaticRestore .. | .notifyWrite .. | .packetHeaderRead .. | .waitPacketPoll ..
  | .launchVerdict .. | .gridStart .. | .packetRetire .. | .queueSwitchOut .. | .queueSwitchIn ..
  | .frameStart .. | .scheduleBeacon .. | .ptpTickLoad .. | .domnew .. | .domdel .. | .domset ..
  | .qnew .. | .qdel .. | .schload .. | .phset .. | .gpreempt .. | .gresume .. | .gkill ..
  | .sloenew .. | .sloedel .. | .kvbind .. | .ptmap .. | .ptunmap .. | .deferredEntryResolve ..
  | .unknownCommand .. | .dbgatt .. | .dbgdet .. | .haltreq .. | .resume .. | .staterd ..
  | .statewr .. | .wpset .. | .predload .. | .ctrset .. | .trring .. | .replay .. | .exitrd ..
  | .rlogrd .. | .counterLatch .. | .currantVerdict .. | .freeze .. | .freezeResume ..
  | .attest .. | .extload .. | .cfgrd .. | .cfgwr .. | .healthrd .. | .mbstatRead ..
  | .deviceReset .. | .functionLevelReset .. | .thermalTrip .. | .regulatorAlarm ..
  | .preemptionRequestWithdrawn .. | .lastFrameEnd .. | .collectivePresentationDeadline ..
  | .mirrorCopyBackComplete .. | .restoredGridResume .. | .ptpMessage .. | .mbcmdWriteWhileBusy .. => 8

/-- A vector register within the partition (R36). -/
def Env.vok (e : Env) (r : BitVec 9) : Bool := decide (r.toNat < e.nreg)
/-- A run of n vector registers from r within the partition. -/
def Env.vrun (e : Env) (r : BitVec 9) (n : Nat) : Bool := decide (r.toNat + n ≤ e.nreg)
/-- A register of the issuer: scalar on the front thread, vector on a warp (R280, R351); a run of
n registers on a warp. -/
def Env.rok (e : Env) (r : BitVec 9) (n : Nat) : Bool :=
  if e.front then decide (r.toNat < 256) else e.vrun r n
def Env.bok (e : Env) : BSrc → Bool
  | .vec r => e.vok r
  | .sca _ => true
def Env.v3 (e : Env) (o : V3) : Bool := e.vok o.d && e.vok o.a && e.bok o.b
def Env.v2 (e : Env) (o : V2) : Bool := e.vok o.d && e.vok o.a
def Env.vi (e : Env) (o : VI) : Bool := e.vok o.d && e.vok o.a

/-- FP32, BF16, FP16 (R263). -/
def Ty.isF : Ty → Bool
  | .f32 | .bf16 | .f16 => true
  | .e4m3 | .e5m2 | .e2m3 | .e3m2 | .e2m1 | .mx8e4 | .mx8e5 | .mx6e2 | .mx6e3 | .mx4 | .i8 | .i32
  | .e8m0 => false
/-- The MX types 0x8 to 0xC. -/
def Ty.isMx : Ty → Bool
  | .mx8e4 | .mx8e5 | .mx6e2 | .mx6e3 | .mx4 => true
  | .f32 | .bf16 | .f16 | .e4m3 | .e5m2 | .e2m3 | .e3m2 | .e2m1 | .i8 | .i32 | .e8m0 => false
/-- The narrow plain float types 0x3 to 0x7. -/
def Ty.isNarrow : Ty → Bool
  | .e4m3 | .e5m2 | .e2m3 | .e3m2 | .e2m1 => true
  | .f32 | .bf16 | .f16 | .mx8e4 | .mx8e5 | .mx6e2 | .mx6e3 | .mx4 | .i8 | .i32 | .e8m0 => false
/-- The types that VPACK accepts (R279). -/
def Ty.isPack (t : Ty) : Bool := t.isNarrow || t.isMx || t == .i8
/-- The types that an operand of a matrix product may have (R322). -/
def Ty.isOperand (t : Ty) : Bool := t.isPack || t == .bf16 || t == .f16

/-- A stochastic index is given only under .sr (R245). -/
def Fmt.idxOk (f : Fmt) : Bool := f.rnd == .sr || f.idx == 0
def Rnd.noSr (r : Rnd) : Bool := r != .sr
/-- Formats of float arithmetic that accept .sr (R263, R264). -/
def Fmt.arith (f : Fmt) : Bool := f.ty.isF && f.idxOk
/-- Formats of float arithmetic that do not. -/
def Fmt.arithNoSr (f : Fmt) : Bool := f.ty.isF && f.rnd.noSr && f.idx == 0
/-- SCMP and VCMP accept the codes 0 to 9, VFCMP 0 to 5, 10 and 11 (R250). -/
def Cond.isInt : Cond → Bool
  | .un | .ord => false
  | .eq | .ne | .lt | .le | .gt | .ge | .ltu | .leu | .gtu | .geu => true
def Cond.isFloat : Cond → Bool
  | .ltu | .leu | .gtu | .geu => false
  | .eq | .ne | .lt | .le | .gt | .ge | .un | .ord => true
def RedOp.ok : RedOp → Bool
  | .fadd r => r.noSr
  | .add | .min _ | .max _ | .and | .or | .xor | .fmin | .fmax => true
/-- The functions ATOM and RED accept, by size (R291). -/
def AtomFn.ok (red b64 : Bool) : AtomFn → Bool
  | .xchg | .cas => !red
  | .fadd | .fmin | .fmax => !b64
  | .add | .and | .or | .xor | .minS | .maxS | .minU | .maxU => true
/-- Registers that the operands of an ATOM occupy (R292), and those of a load or store (R285). -/
def AtomFn.regs (front b64 : Bool) : AtomFn → Nat
  | .cas => if front then 2 else if b64 then 4 else 2
  | .add | .and | .or | .xor | .minS | .maxS | .minU | .maxU | .xchg | .fadd | .fmin | .fmax =>
    if front then 1 else if b64 then 2 else 1
/-- The base of a format M instruction (R225, R282): a scalar register, or a vector pair (one
register for LDH, R289). -/
def Env.baseOk (e : Env) (o : MemF) (n : Nat) : Bool :=
  if o.bss then decide (o.base.toNat < 256) else !e.front && e.vrun o.base n
/-- A data run of n registers (R285, R292). -/
def Env.dataOk (e : Env) (r : BitVec 9) (n : Nat) : Bool :=
  if e.front then decide (r.toNat + n ≤ 256) else e.vrun r n
/-- The signed form is given only where it has a meaning (R284). -/
def Env.sxOk (e : Env) (sz : BitVec 2) (sx : Bool) : Bool :=
  !sx || decide (sz.toNat < (if e.front then 3 else 2))
/-- Registers that an access of size code sz occupies in the issuer (R285). -/
def Env.szRegs (e : Env) (sz : BitVec 2) : Nat := if e.front then 1 else if sz = 3 then 2 else 1
/-- The operand rows of R322: types of A and B and the accumulator type. -/
def mmaTypes (ta tb tacc : Ty) : Bool :=
  let r4 := fun t => t == Ty.e2m1 || t == .mx4
  let r8 := fun t : Ty => (t.isNarrow || t.isMx) && !r4 t
  let r16 := fun t => t == Ty.bf16 || t == .f16
  ((r4 ta && r4 tb) || (r8 ta && r8 tb) || (r16 ta && r16 tb)) && tacc == .f32 ||
    ta == .i8 && tb == .i8 && tacc == .i32
/-- The accumulator and result types of EPI (R334). -/
def epiTypes (tacc tres : Ty) (aos : Bool) : Bool :=
  ((tacc == .f32 && (tres.isF || tres.isNarrow || tres.isMx)) ||
    (tacc == .i32 && (tres == .i32 || tres == .f32 || tres == .i8))) &&
  (!aos || tres.isF || tres == .i32)
/-- An accumulator tile within the partition (R317). -/
def Env.tok (e : Env) (t : BitVec 7) : Bool := decide (t.toNat < 96) && decide (t.toNat < e.tiles)

/-- The operand checks of each instruction. A happening is well formed for every operand. -/
def Instr.operandsOk (e : Env) : Instr → Bool
  | .scmp _ _ _ _ c | .scmpImm _ _ _ _ c => c.isInt
  | .bra _ _ | .ret _ _ | .jmpi _ _ | .brv _ _ => !e.targetBad
  | .brc _ _ _ | .call _ _ _ | .loop _ _ _ => !e.targetBad
  | .vadd o _ _ | .vsub o _ _ => e.v3 o
  | .vand o | .vor o | .vxor o | .vandn o | .vshl o | .vshr o | .vsar o | .vrot o | .vmul o =>
    e.v3 o
  | .vmin o _ | .vmax o _ | .vsel o _ | .vmulh o _ | .vbfe o _ | .vshfl o _ => e.v3 o
  | .vaddImm o | .vsubImm o | .vandImm o | .vorImm o | .vxorImm o | .vandnImm o | .vshlImm o
  | .vshrImm o | .vsarImm o | .vrotImm o | .vminImm o | .vmaxImm o => e.vi o
  | .vmov o | .vclz o | .vpopc o | .vbrev o | .vrcp o | .vrsq o | .vexp2 o | .vlog2 o | .vsin o
  | .vcos o | .vtanh o => e.v2 o
  | .vmad o c | .vbfi o c | .vpermb o c => e.v3 o && e.vok c
  | .vdot4 o c _ _ => e.v3 o && e.vok c
  | .vabs o _ | .vbcast o _ => e.v2 o
  | .vcmp _ _ a b c => e.vok a && e.bok b && c.isInt
  | .vcmpImm _ _ a _ c => e.vok a && c.isInt
  | .vmovi _ d _ | .vmovh _ d _ => e.vok d
  | .vfadd o f | .vfsub o f | .vfmul o f | .vfscl o f => e.v3 o && f.arith
  | .vfmin o t | .vfmax o t => e.v3 o && t.isF
  | .vfabs o t | .vfneg o t | .vfclass o t => e.v2 o && t.isF
  | .vfma o c f | .vfms o c f | .vfnma o c f => e.v3 o && e.vok c && f.arithNoSr
  | .vfcmp _ _ a b t c => e.vok a && e.bok b && t.isF && c.isFloat
  | .vfcvt o src f => e.v2 o && (src.isF || src.isNarrow) && (f.ty.isF || f.ty.isNarrow) && f.idxOk
  | .vfrnd o f => e.v2 o && f.arith && !f.sat
  | .vftoi o _ f | .vitof o _ f => e.v2 o && f.arith && !f.sat
  | .vsqrt o f => e.v2 o && f.ty == .f32 && f.rnd.noSr && f.idx == 0
  | .vballot _ d _ _ => e.vok d
  | .vvote _ _ _ mode => decide (mode.toNat < 3)
  | .vredx o op => e.v2 o && op.ok
  | .vmxq o f => e.v2 o && f.ty.isMx && f.idxOk && !f.sat
  | .vmxdq o f => e.v2 o && (f.ty.isMx || f.ty.isNarrow) && f.idxOk
  | .vpack o t _ => e.v2 o && t.isPack
  | .ld o sz sx =>
    e.baseOk o 2 && e.dataOk o.data (e.szRegs sz) && e.sxOk sz sx && decide (o.order.toNat < 2)
  | .st o sz => e.baseOk o 2 && e.dataOk o.data (e.szRegs sz) && (o.order == 0 || o.order == 2)
  | .stMc o sz =>
    e.baseOk o 2 && e.dataOk o.data (e.szRegs sz) && (o.order == 0 || o.order == 2) && decide (o.off.toNat < 65536)
  | .ldh o sz sx =>
    e.baseOk o 1 && e.dataOk o.data (e.szRegs sz) && e.sxOk sz sx && decide (o.order.toNat < 2)
  | .wdef _ _ _ _ | .oalloc _ _ _ _ => e.front
  | .wstate _ d _ | .phqry _ d _ => e.rok d 1
  | .atom o b64 fn => e.baseOk o 2 && e.dataOk o.data (fn.regs e.front b64) && fn.ok false b64
  | .red o b64 fn =>
    e.baseOk o 2 && e.dataOk o.data (fn.regs e.front b64) && fn.ok true b64 && (o.order == 0 || o.order == 2)
  | .ofree _ _ _ => e.front
  | .fence _ _ order => order != 0
  | .bar _ => !(e.front && decide (1 < e.bpc))
  | .ssync _ => e.boundary
  | .meet _ d _ => !e.front && e.vok d && !e.targetBad
  | .join _ a => !e.front && e.vok a
  | .dqpop _ d => !e.front && e.vrun d 2
  | .mma o ga _ => e.tok o.acc && mmaTypes o.ta o.tb o.tacc && (!ga || o.ha == 0)
  | .mmas o _ _ => e.tok o.acc && mmaTypes o.ta o.tb o.tacc
  | .mgath _ ta _ _ _ => ta.isOperand
  | .cmprs _ ta _ _ _ _ => ta.isPack
  | .accz _ t => e.tok t
  | .accmv _ t s => e.tok t && e.tok s
  | .accld _ tacc t _ => e.tok t && (tacc == .f32 || tacc == .i32)
  | .epi o => e.tok o.acc && epiTypes o.tacc o.tres o.aos && (!o.aos || o.rnd.noSr)
  | .coll _ _ _ => !e.elastic
  | .rand _ d _ n _ => e.vrun d (n.toNat + 1)
  | .sample _ d a b c => e.vok d && e.vok a && e.vok b && decide (c.toNat < 255)
  | .tokapp _ a b | .tokappD _ a b | .tokconf _ a b => e.vok a && e.bok b
  | .tokget _ d b _ => e.vok d && e.bok b
  | .sloew _ d b _ | .sloer _ d b _ => e.vrun d 2 && e.bok b
  | .sloeq _ d b => e.vok d && e.bok b
  | .csrr _ r _ | .csrw _ r _ => e.rok r 2
  | .csrs _ v _ | .csrc _ v _ => match v with | .reg r => e.rok r 2 | .imm _ => true
  | .rdtick _ r => e.rok r 2
  | .sys _ _ r => e.rok r 2
  | .iret _ => e.handler
  | .tlbinv _ r mode _ => e.rok r 2 && decide (mode.toNat < 3)
  | .glaunch _ r => e.front && e.rok r 2
  | .sadd .. | .ssub .. | .sand .. | .sor .. | .sxor .. | .sandn .. | .sshl .. | .sshr ..
  | .ssar .. | .srot .. | .smin .. | .smax .. | .sminu .. | .smaxu .. | .saddImm .. | .ssubImm ..
  | .sandImm .. | .sorImm .. | .sxorImm .. | .sandnImm .. | .sshlImm .. | .sshrImm ..
  | .ssarImm .. | .srotImm .. | .sminImm .. | .smaxImm .. | .sminuImm .. | .smaxuImm .. | .ssel ..
  | .smov .. | .smul .. | .smulh .. | .sdiv .. | .sdivu .. | .srem .. | .sremu .. | .sclz ..
  | .spopc .. | .sbfe .. | .smovi .. | .smovh .. | .dqpush .. | .wtouch .. | .wdrain .. | .wrel ..
  | .hwait .. | .phreg .. | .phdrop .. | .phsig .. | .phwait .. | .phsw .. | .rgn .. | .epset ..
  | .efork .. | .erdv .. | .cwait .. | .trapf .. | .trap .. | .bkpt .. | .halt .. | .nop .. => true
  | .issueTurn .. | .sloeOperationComplete .. | .sequenceTrapDelivery .. | .regionCommit ..
  | .heldEffectPresentation .. | .strikeReport .. | .regionReentry .. | .atomicRetry ..
  | .loadReply .. | .atomicReply .. | .writeAck .. | .pageTableReadReturn .. | .poisonUpdate ..
  | .poisonClearNotice .. | .tlbInvalidationComplete .. | .hbmSectorAccess .. | .slackWindow ..
  | .refreshOutsideSlack .. | .errorCountDecay .. | .scheduleFault .. | .resyncBeacon ..
  | .superstepReexecution .. | .windowLanding .. | .drainSector .. | .drainComplete ..
  | .followOnIssue .. | .matrixCommandStart .. | .operandRelease .. | .accRetire ..
  | .versionCommit .. | .epilogueRow .. | .epilogueSend .. | .addOnStoreApply .. | .gatherStart ..
  | .gatherComplete .. | .streamCommandStart .. | .ecopy .. | .efill .. | .edrain .. | .emma ..
  | .ewait .. | .esig .. | .eloop .. | .eend .. | .copySectorLanding .. | .streamWaitEnd ..
  | .phaseComplete .. | .barrierComplete .. | .superstepBoundary .. | .dqWordPoppable ..
  | .poolEccError .. | .pairSelfTest .. | .collectiveStart .. | .collectiveSend ..
  | .collectiveReceive .. | .collectiveEnd .. | .flitSend .. | .flitReceive ..
  | .accessSlotSend .. | .switchForward .. | .orchardAccessApply .. | .mirrorUpdate ..
  | .acknowledgementWord .. | .switchFailure .. | .lostReply .. | .oallocComplete ..
  | .ofreeComplete .. | .trapDelivery .. | .firmwareFaultDelivery .. | .preemption ..
  | .automaticRestore .. | .notifyWrite .. | .packetHeaderRead .. | .waitPacketPoll ..
  | .launchVerdict .. | .gridStart .. | .packetRetire .. | .queueSwitchOut .. | .queueSwitchIn ..
  | .frameStart .. | .scheduleBeacon .. | .ptpTickLoad .. | .domnew .. | .domdel .. | .domset ..
  | .qnew .. | .qdel .. | .schload .. | .phset .. | .gpreempt .. | .gresume .. | .gkill ..
  | .sloenew .. | .sloedel .. | .kvbind .. | .ptmap .. | .ptunmap .. | .deferredEntryResolve ..
  | .unknownCommand .. | .dbgatt .. | .dbgdet .. | .haltreq .. | .resume .. | .staterd ..
  | .statewr .. | .wpset .. | .predload .. | .ctrset .. | .trring .. | .replay .. | .exitrd ..
  | .rlogrd .. | .counterLatch .. | .currantVerdict .. | .freeze .. | .freezeResume ..
  | .attest .. | .extload .. | .cfgrd .. | .cfgwr .. | .healthrd .. | .mbstatRead ..
  | .deviceReset .. | .functionLevelReset .. | .thermalTrip .. | .regulatorAlarm ..
  | .preemptionRequestWithdrawn .. | .lastFrameEnd .. | .collectivePresentationDeadline ..
  | .mirrorCopyBackComplete .. | .restoredGridResume .. | .ptpMessage .. | .mbcmdWriteWhileBusy .. => true

/-- Well-formed for an issuer in a clause: the class fits the clause, a named target is one that code may name, and the
operands are allowed. -/
def Instr.wf (e : Env) (i : Instr) : Bool :=
  (i.cls == e.cls || i.cls == 7 || i.cls == 8) && !e.targetBad && i.operandsOk e

end Sys2Proof
end

