-- ==== Sys2Proof/Decode.lean ====
section
/-!
DEFINITION. Decoding of instruction words (spec 09 R215 to R228, and the fields that spec 10 to 13
give each instruction), total, every refused word by its cause code; then the encoder, written from
the same tables.
-/
namespace Sys2Proof

/-- The n bits of a word from bit lo up, as a number. -/
def fld (w : DWord) (lo n : Nat) : Nat := w.toNat / 2 ^ lo % 2 ^ n
/-- One bit of a word. -/
def bitAt (w : DWord) (k : Nat) : Bool := fld w k 1 == 1

/-- The instruction when no check fails, else the code of the first that does (R228): the checks
stand in ascending order of code. -/
def checks : List (Nat × Bool) → Instr → Except Nat Instr
  | [], i => .ok i
  | (code, bad) :: t, i => if bad then .error code else checks t i

def Ty.ofCode : Nat → Ty
  | 0 => .f32 | 1 => .bf16 | 2 => .f16 | 3 => .e4m3 | 4 => .e5m2 | 5 => .e2m3 | 6 => .e3m2
  | 7 => .e2m1 | 8 => .mx8e4 | 9 => .mx8e5 | 10 => .mx6e2 | 11 => .mx6e3 | 12 => .mx4 | 13 => .i8
  | 14 => .i32 | _ => .e8m0
def Ty.code : Ty → Nat
  | .f32 => 0 | .bf16 => 1 | .f16 => 2 | .e4m3 => 3 | .e5m2 => 4 | .e2m3 => 5 | .e3m2 => 6
  | .e2m1 => 7 | .mx8e4 => 8 | .mx8e5 => 9 | .mx6e2 => 10 | .mx6e3 => 11 | .mx4 => 12 | .i8 => 13
  | .i32 => 14 | .e8m0 => 15
/-- Rounding codes (R99); 6 and 7 are refused by their own check. -/
def Rnd.ofCode : Nat → Rnd
  | 0 => .rne | 1 => .rtz | 2 => .rdn | 3 => .rup | 4 => .rna | _ => .sr
def Rnd.code : Rnd → Nat
  | .rne => 0 | .rtz => 1 | .rdn => 2 | .rup => 3 | .rna => 4 | .sr => 5
/-- Condition codes (R250); 12 to 15 are refused by their own check. -/
def Cond.ofCode : Nat → Cond
  | 0 => .eq | 1 => .ne | 2 => .lt | 3 => .le | 4 => .gt | 5 => .ge | 6 => .ltu | 7 => .leu
  | 8 => .gtu | 9 => .geu | 10 => .un | _ => .ord
def Cond.code : Cond → Nat
  | .eq => 0 | .ne => 1 | .lt => 2 | .le => 3 | .gt => 4 | .ge => 5 | .ltu => 6 | .leu => 7
  | .gtu => 8 | .geu => 9 | .un => 10 | .ord => 11
/-- Function codes of ATOM and RED (R291). -/
def AtomFn.ofCode : Nat → AtomFn
  | 0 => .add | 1 => .and | 2 => .or | 3 => .xor | 4 => .minS | 5 => .maxS | 6 => .minU
  | 7 => .maxU | 8 => .xchg | 9 => .cas | 10 => .fadd | 11 => .fmin | _ => .fmax
def AtomFn.code : AtomFn → Nat
  | .add => 0 | .and => 1 | .or => 2 | .xor => 3 | .minS => 4 | .maxS => 5 | .minU => 6
  | .maxU => 7 | .xchg => 8 | .cas => 9 | .fadd => 10 | .fmin => 11 | .fmax => 12
def PhMode.ofCode : Nat → PhMode
  | 0 => .sig | 1 => .wait | _ => .sw
def PhMode.code : PhMode → Nat
  | .sig => 0 | .wait => 1 | .sw => 2

/-! Fields of the formats (R215 to R221). -/
def fPark (w : DWord) : Bool := bitAt w 63
def fOp (w : DWord) : Nat := fld w 56 7
def fFn (w : DWord) : Nat := fld w 51 5
def fMods (w : DWord) : Mods := ⟨fPark w, BitVec.ofNat 3 (fld w 48 3), bitAt w 47⟩
def fD (w : DWord) : Nat := fld w 38 9
def fA (w : DWord) : Nat := fld w 29 9
def fB (w : DWord) : Nat := fld w 20 9
def fC (w : DWord) : Nat := fld w 11 9
def fTy (w : DWord) : Nat := fld w 7 4
def fRnd (w : DWord) : Nat := fld w 4 3
def fSat (w : DWord) : Bool := bitAt w 3
def fBsc (w : DWord) : Bool := bitAt w 2
def fImm (w : DWord) : Imm := ⟨bitAt w 24, BitVec.ofNat 24 (fld w 0 24)⟩
def fMem (w : DWord) : MemF :=
  ⟨fMods w, BitVec.ofNat 9 (fD w), BitVec.ofNat 9 (fA w), bitAt w 28, BitVec.ofNat 3 (fld w 25 3),
    BitVec.ofNat 2 (fld w 23 2), BitVec.ofNat 20 (fld w 0 20)⟩
def r8 (n : Nat) : BitVec 8 := BitVec.ofNat 8 n
def r9 (n : Nat) : BitVec 9 := BitVec.ofNat 9 n
def r4 (n : Nat) : BitVec 4 := BitVec.ofNat 4 n
def r3 (n : Nat) : BitVec 3 := BitVec.ofNat 3 n
/-- Field B of a warp instruction (R225). -/
def fBSrc (w : DWord) : BSrc := if fBsc w then .sca (r8 (fB w)) else .vec (r9 (fB w))
def fS3 (w : DWord) : S3 := ⟨fMods w, r8 (fD w), r8 (fA w), r8 (fB w)⟩
def fS2 (w : DWord) : S2 := ⟨fMods w, r8 (fD w), r8 (fA w)⟩
def fSI (w : DWord) : SI := ⟨fMods w, r8 (fD w), r8 (fA w), fImm w⟩
def fV3 (w : DWord) : V3 := ⟨fMods w, r9 (fD w), r9 (fA w), fBSrc w⟩
def fV2 (w : DWord) : V2 := ⟨fMods w, r9 (fD w), r9 (fA w)⟩
def fVI (w : DWord) : VI := ⟨fMods w, r9 (fD w), r9 (fA w), fImm w⟩
/-- Format fields of a float instruction whose C field is the .sr index (R245). -/
def fFmt (w : DWord) : Fmt :=
  ⟨Ty.ofCode (fTy w), Rnd.ofCode (fRnd w), fSat w, if fRnd w = 5 then r8 (fC w) else 0⟩
/-- The same where C is a register or unused and .sr is not accepted. -/
def fFmt0 (w : DWord) : Fmt := ⟨Ty.ofCode (fTy w), Rnd.ofCode (fRnd w), fSat w, 0⟩

/-! Checks on fields: over 255 is outside the scalar class, over 7 outside the predicates, over 15
outside handles and slots (R224). -/
def rsvV (w : DWord) : Bool := fld w 0 2 != 0
def notS (n : Nat) : Bool := decide (255 < n)
def notP (n : Nat) : Bool := decide (7 < n)
def notH (n : Nat) : Bool := decide (15 < n)
def Env.far (e : Env) (n : Nat) : Bool := decide (e.nreg ≤ n)
/-- A run of k registers from n leaves the partition. -/
def Env.farRun (e : Env) (n k : Nat) : Bool := decide (e.nreg < n + k)
def badB (w : DWord) : Bool := fBsc w && notS (fB w)
def Env.farB (e : Env) (w : DWord) : Bool := !fBsc w && e.far (fB w)
/-- A register of either issuer (R280, R351): its class check and its range check for a run of k. -/
def Env.rCls (e : Env) (n : Nat) : Bool := e.front && notS n
def Env.rFar (e : Env) (n k : Nat) : Bool := !e.front && e.farRun n k
/-- C under .sr names a scalar register, and is zero otherwise (R245). -/
def badIdx (w : DWord) : Bool := fRnd w != 5 && fC w != 0
def clsIdx (w : DWord) : Bool := fRnd w == 5 && notS (fC w)

/-- Scalar forms (R241, R242, R247): rsv says which of the other fields break their rule. -/
def decS (rsv : Bool) (w : DWord) (bUsed : Bool) (i : Instr) : Except Nat Instr :=
  checks [(8, rsvV w || fSat w || fBsc w || rsv || (!bUsed && fB w != 0)),
    (9, notS (fD w) || notS (fA w) || notS (fB w)), (11, fTy w != 0)] i
/-- Three-register forms without other fields. -/
def decS3 (w : DWord) (i : Instr) : Except Nat Instr := decS (fRnd w != 0 || fC w != 0) w true i
/-- Forms that read signedness (R242). -/
def decS3U (w : DWord) (i : Instr) : Except Nat Instr :=
  decS (decide (1 < fRnd w) || fC w != 0) w true i
def decS2 (w : DWord) (i : Instr) : Except Nat Instr := decS (fRnd w != 0 || fC w != 0) w false i
def decSI (w : DWord) (i : Instr) : Except Nat Instr :=
  checks [(9, notS (fD w) || notS (fA w)), (11, fld w 25 4 != 0)] i

/-- Vector integer forms (R241, R260): the type that is required, whether SAT is used, the largest
RND, whether B and C are registers. -/
def decV (e : Env) (w : DWord) (ty : Nat) (satOk : Bool) (rndMax : Nat) (bUsed cUsed : Bool)
    (i : Instr) : Except Nat Instr :=
  checks [(8, rsvV w || (fSat w && !satOk) || decide (rndMax < fRnd w) || (!cUsed && fC w != 0) ||
      (!bUsed && (fB w != 0 || fBsc w))),
    (9, bUsed && badB w),
    (10, e.far (fD w) || e.far (fA w) || (bUsed && e.farB w) || (cUsed && e.far (fC w))),
    (11, fTy w != ty)] i
def decVI (e : Env) (w : DWord) (i : Instr) : Except Nat Instr :=
  checks [(10, e.far (fD w) || e.far (fA w)), (11, fld w 25 4 != 14)] i

/-- Float forms with .sr (R245, R263): tyBad says the type is refused. -/
def decF (e : Env) (w : DWord) (tyBad satOk bUsed : Bool) (rsv : Bool) (i : Instr) : Except Nat Instr :=
  checks [(8, rsvV w || (fSat w && !satOk) || badIdx w || (!bUsed && fBsc w) || rsv),
    (9, (bUsed && badB w) || clsIdx w),
    (10, e.far (fD w) || e.far (fA w) || (bUsed && e.farB w)),
    (11, tyBad), (12, decide (5 < fRnd w))] i
/-- Float forms whose RND and SAT must be zero (R264, R265, R267). -/
def decF0 (e : Env) (w : DWord) (bUsed : Bool) (i : Instr) : Except Nat Instr :=
  checks [(8, rsvV w || fSat w || fRnd w != 0 || fC w != 0 || (!bUsed && (fB w != 0 || fBsc w))),
    (9, bUsed && badB w),
    (10, e.far (fD w) || e.far (fA w) || (bUsed && e.farB w)),
    (11, !(Ty.ofCode (fTy w)).isF)] i
/-- The fused forms (R266). -/
def decFma (e : Env) (w : DWord) (i : Instr) : Except Nat Instr :=
  checks [(8, rsvV w), (9, badB w),
    (10, e.far (fD w) || e.far (fA w) || e.farB w || e.far (fC w)),
    (11, !(Ty.ofCode (fTy w)).isF), (12, decide (4 < fRnd w))] i
/-- Transcendentals but VSQRT (R269). -/
def decT (e : Env) (w : DWord) (i : Instr) : Except Nat Instr :=
  checks [(8, rsvV w || fSat w || fRnd w != 0 || fC w != 0 || fB w != 0 || fBsc w),
    (10, e.far (fD w) || e.far (fA w)), (11, fTy w != 0)] i

/-- Loads and stores (R284, R285): FS bits 4:2 that the instruction refuses, base and data runs,
orders. -/
def decM (e : Env) (w : DWord) (fsBad : Bool) (nb nd : Nat) (ordBad : Bool) (i : Instr) :
    Except Nat Instr :=
  checks [(8, fld w 20 3 != 0 || fsBad),
    (9, (e.front && (!bitAt w 28 || decide (256 < fD w + nd))) || (bitAt w 28 && notS (fA w))),
    (10, (!e.front && e.farRun (fD w) nd) || (!bitAt w 28 && e.farRun (fA w) nb)),
    (13, ordBad)] i
/-- Reserved FS bits of LD and LDH (R284). -/
def ldFsBad (e : Env) (w : DWord) : Bool :=
  bitAt w 55 || bitAt w 54 || (bitAt w 53 && decide ((if e.front then 3 else 2) ≤ fld w 51 2))
/-- Registers of the access size (R285). -/
def szNd (e : Env) (w : DWord) : Nat := if e.front then 1 else if fld w 51 2 = 3 then 2 else 1

/-- The format V instructions of spec 11 (R280): TYPE, RND, SAT and BSC are zero. -/
def decQ (w : DWord) (rsv cls9 rng : Bool) (i : Instr) : Except Nat Instr :=
  checks [(8, fld w 0 11 != 0 || rsv), (9, cls9), (10, rng)] i

/-- Format X (R315 to R317): reserved bits, tiles outside the class, tiles outside the partition,
types, rounding. -/
def decX (e : Env) (rsv : Bool) (tiles scalars : List Nat) (tyBad rndBad : Bool) (i : Instr) :
    Except Nat Instr :=
  checks [(8, rsv), (9, tiles.any (fun t => decide (95 < t)) || scalars.any notS),
    (10, tiles.any (fun t => decide (e.tiles ≤ t))), (11, tyBad), (12, rndBad)] i
def xTy (w : DWord) (k : Nat) : Nat := fld w (52 - 4 * k) 4

/-- Format V instructions of spec 13 (R350): RND and SAT are zero. -/
def decK (w : DWord) (rsv cls9 rng tyBad : Bool) (i : Instr) : Except Nat Instr :=
  checks [(8, rsvV w || fSat w || fRnd w != 0 || rsv), (9, cls9), (10, rng), (11, tyBad)] i

/-- Format Y (R351): reserved bits, and the register with its run on a warp. -/
def decY (e : Env) (rsv : Bool) (reg run : Nat) (i : Instr) : Except Nat Instr :=
  checks [(8, rsv), (9, e.rCls reg), (10, e.rFar reg run)] i

/-- Instructions not permitted to the issuer, and instructions out of place (code 3): R280, R195,
R305, R315, R345, R350, R369, R372. -/
def ctxBad (e : Env) (w : DWord) : Bool :=
  match fOp w with
  | 0x53 => fFn w == 0 && !e.front
  | 0x62 => decide (fFn w < 2) && !e.front
  | 0x68 => (fFn w == 0 && e.front && decide (1 < e.bpc)) || (fFn w == 1 && !e.boundary)
  | 0x6B => decide (fFn w < 2) && e.front
  | 0x6C => fFn w == 0 && e.front
  | 0x70 | 0x71 | 0x72 | 0x73 | 0x74 | 0x75 => !e.front
  | 0x76 => !e.front || (fld w 37 3 == 0 && e.elastic)
  | 0x78 | 0x79 | 0x7A => e.front
  | 0x7D => fFn w == 5 && !e.handler
  | 0x7E => fFn w == 0 && !e.front
  | _ => false

/-- The class of a major opcode (R226): 0 to 6, 7 for any class; none for an unassigned one. -/
def opClass (op : Nat) : Option Nat :=
  if op ≤ 0x06 then some 0
  else if op = 0x10 then some 0
  else if op = 0x11 then some 1
  else if op = 0x12 then some 0
  else if 0x18 ≤ op ∧ op ≤ 0x1E then some 1
  else if 0x30 ≤ op ∧ op ≤ 0x34 then some 1
  else if op = 0x48 ∨ op = 0x49 then some 1
  else if 0x50 ≤ op ∧ op ≤ 0x53 then some 2
  else if 0x60 ≤ op ∧ op ≤ 0x63 then some 2
  else if 0x68 ≤ op ∧ op ≤ 0x6C then some 4
  else if 0x70 ≤ op ∧ op ≤ 0x76 then some 3
  else if 0x78 ≤ op ∧ op ≤ 0x7A then some 5
  else if 0x7C ≤ op ∧ op ≤ 0x7E then some 6
  else if op = 0x7F then some 7
  else none

/-- Opcode 0x00. -/
def dec00 (_e : Env) (w : DWord) : Except Nat Instr :=
  match fFn w with
  | 0 => decS3 w (.sadd (fS3 w))
  | 1 => decS3 w (.ssub (fS3 w))
  | 2 => decS3 w (.sand (fS3 w))
  | 3 => decS3 w (.sor (fS3 w))
  | 4 => decS3 w (.sxor (fS3 w))
  | 5 => decS3 w (.sandn (fS3 w))
  | 6 => decS3 w (.sshl (fS3 w))
  | 7 => decS3 w (.sshr (fS3 w))
  | 8 => decS3 w (.ssar (fS3 w))
  | 9 => decS3 w (.srot (fS3 w))
  | 10 => decS3 w (.smin (fS3 w))
  | 11 => decS3 w (.smax (fS3 w))
  | 12 => decS3 w (.sminu (fS3 w))
  | 13 => decS3 w (.smaxu (fS3 w))
  | 14 => checks [(8, rsvV w || fSat w || fBsc w || fRnd w != 0), (9, notS (fD w) || notS (fA w) || notS (fB w) || notP (fC w)),
      (11, fTy w != 0)] (.ssel (fS3 w) (r3 (fC w)))
  | 15 => decS2 w (.smov (fS2 w))
  | _ => .error 7

/-- Opcode 0x01. -/
def dec01 (_e : Env) (w : DWord) : Except Nat Instr :=
  match fFn w with
  | 0 => decSI w (.saddImm (fSI w))
  | 1 => decSI w (.ssubImm (fSI w))
  | 2 => decSI w (.sandImm (fSI w))
  | 3 => decSI w (.sorImm (fSI w))
  | 4 => decSI w (.sxorImm (fSI w))
  | 5 => decSI w (.sandnImm (fSI w))
  | 6 => decSI w (.sshlImm (fSI w))
  | 7 => decSI w (.sshrImm (fSI w))
  | 8 => decSI w (.ssarImm (fSI w))
  | 9 => decSI w (.srotImm (fSI w))
  | 10 => decSI w (.sminImm (fSI w))
  | 11 => decSI w (.smaxImm (fSI w))
  | 12 => decSI w (.sminuImm (fSI w))
  | 13 => decSI w (.smaxuImm (fSI w))
  | _ => .error 7

/-- Opcode 0x02. -/
def dec02 (_e : Env) (w : DWord) : Except Nat Instr :=
  match fFn w with
  | 0 => decS3 w (.smul (fS3 w))
  | 1 => decS3U w (.smulh (fS3 w) (bitAt w 4))
  | 2 => decS3 w (.sdiv (fS3 w))
  | 3 => decS3 w (.sdivu (fS3 w))
  | 4 => decS3 w (.srem (fS3 w))
  | 5 => decS3 w (.sremu (fS3 w))
  | _ => .error 7

/-- Opcode 0x03. -/
def dec03 (_e : Env) (w : DWord) : Except Nat Instr :=
  match fFn w with
  | 0 => decS2 w (.sclz (fS2 w))
  | 1 => decS2 w (.spopc (fS2 w))
  | 2 => decS3U w (.sbfe (fS3 w) (bitAt w 4))
  | _ => .error 7

/-- Opcode 0x04. -/
def dec04 (_e : Env) (w : DWord) : Except Nat Instr :=
  match fFn w with
  | 0 => checks [(7, decide (9 < fld w 11 4)), (8, rsvV w || fSat w || fBsc w || fRnd w != 0 || fld w 15 5 != 0),
      (9, notP (fD w) || notS (fA w) || notS (fB w)), (11, fTy w != 0)]
      (.scmp (fMods w) (r3 (fD w)) (r8 (fA w)) (r8 (fB w)) (Cond.ofCode (fld w 11 4)))
  | _ => .error 7

/-- Opcode 0x05. -/
def dec05 (_e : Env) (w : DWord) : Except Nat Instr :=
  match fFn w with
  | 0 => checks [(7, decide (9 < fld w 25 4)), (9, notP (fD w) || notS (fA w))]
      (.scmpImm (fMods w) (r3 (fD w)) (r8 (fA w)) (fImm w) (Cond.ofCode (fld w 25 4)))
  | _ => .error 7

/-- Opcode 0x06. -/
def dec06 (_e : Env) (w : DWord) : Except Nat Instr :=
  match fFn w with
  | 0 => checks [(8, fA w != 0), (9, notS (fD w)), (11, fld w 25 4 != 0)]
      (.smovi (fMods w) (r8 (fD w)) (fImm w))
  | 1 => checks [(8, fA w != 0 || bitAt w 24), (9, notS (fD w)), (11, fld w 25 4 != 0)]
      (.smovh (fMods w) (r8 (fD w)) (BitVec.ofNat 24 (fld w 0 24)))
  | _ => .error 7

/-- Opcode 0x10 (R254 to R256). -/
def dec10 (_e : Env) (w : DWord) : Except Nat Instr :=
  match fFn w with
  | 0 => checks [(8, fld w 32 6 != 0 || fD w != 0)] (.bra (fMods w) (BitVec.ofNat 32 (fld w 0 32)))
  | 1 => checks [(8, fld w 32 6 != 0), (9, notS (fD w))]
      (.brc (fMods w) (r8 (fD w)) (BitVec.ofNat 32 (fld w 0 32)))
  | 2 => checks [(8, fld w 32 6 != 0), (9, notS (fD w))]
      (.call (fMods w) (r8 (fD w)) (BitVec.ofNat 32 (fld w 0 32)))
  | 3 => checks [(8, fld w 32 6 != 0 || fld w 0 32 != 0), (9, notS (fD w))]
      (.ret (fMods w) (r8 (fD w)))
  | 4 => checks [(8, fld w 32 6 != 0 || fld w 0 32 != 0), (9, notS (fD w))]
      (.jmpi (fMods w) (r8 (fD w)))
  | 5 => checks [(8, fld w 32 6 != 0), (9, notS (fD w))]
      (.loop (fMods w) (r8 (fD w)) (BitVec.ofNat 32 (fld w 0 32)))
  | _ => .error 7

/-- Opcode 0x11 (R258). -/
def dec11 (_e : Env) (w : DWord) : Except Nat Instr :=
  match fFn w with
  | 0 => checks [(8, fld w 32 6 != 0 || fD w != 0)] (.brv (fMods w) (BitVec.ofNat 32 (fld w 0 32)))
  | _ => .error 7

/-- Opcode 0x12 (R259). -/
def dec12 (_e : Env) (w : DWord) : Except Nat Instr :=
  match fFn w with
  | 0 => checks [(8, rsvV w || fSat w || fBsc w || fRnd w != 0 || fTy w != 0 || fD w != 0 || fB w != 0 || fC w != 0),
      (9, notS (fA w))] (.dqpush (fMods w) (r8 (fA w)))
  | _ => .error 7

/-- Opcode 0x18. -/
def dec18 (e : Env) (w : DWord) : Except Nat Instr :=
  match fFn w with
  | 0 => decV e w 14 true 1 true false (.vadd (fV3 w) (bitAt w 4) (fSat w))
  | 1 => decV e w 14 true 1 true false (.vsub (fV3 w) (bitAt w 4) (fSat w))
  | 2 => decV e w 14 false 0 true false (.vand (fV3 w))
  | 3 => decV e w 14 false 0 true false (.vor (fV3 w))
  | 4 => decV e w 14 false 0 true false (.vxor (fV3 w))
  | 5 => decV e w 14 false 0 true false (.vandn (fV3 w))
  | 6 => decV e w 14 false 0 true false (.vshl (fV3 w))
  | 7 => decV e w 14 false 0 true false (.vshr (fV3 w))
  | 8 => decV e w 14 false 0 true false (.vsar (fV3 w))
  | 9 => decV e w 14 false 0 true false (.vrot (fV3 w))
  | 10 => decV e w 14 false 1 true false (.vmin (fV3 w) (bitAt w 4))
  | 11 => decV e w 14 false 1 true false (.vmax (fV3 w) (bitAt w 4))
  | 12 => checks [(8, rsvV w || fSat w || fRnd w != 0), (9, badB w || notP (fC w)),
      (10, e.far (fD w) || e.far (fA w) || e.farB w), (11, fTy w != 14)] (.vsel (fV3 w) (r3 (fC w)))
  | 13 => decV e w 14 false 0 false false (.vmov (fV2 w))
  | _ => .error 7

/-- Opcode 0x19. -/
def dec19 (e : Env) (w : DWord) : Except Nat Instr :=
  match fFn w with
  | 0 => decVI e w (.vaddImm (fVI w))
  | 1 => decVI e w (.vsubImm (fVI w))
  | 2 => decVI e w (.vandImm (fVI w))
  | 3 => decVI e w (.vorImm (fVI w))
  | 4 => decVI e w (.vxorImm (fVI w))
  | 5 => decVI e w (.vandnImm (fVI w))
  | 6 => decVI e w (.vshlImm (fVI w))
  | 7 => decVI e w (.vshrImm (fVI w))
  | 8 => decVI e w (.vsarImm (fVI w))
  | 9 => decVI e w (.vrotImm (fVI w))
  | 10 => decVI e w (.vminImm (fVI w))
  | 11 => decVI e w (.vmaxImm (fVI w))
  | _ => .error 7

/-- Opcode 0x1A (R261). -/
def dec1A (e : Env) (w : DWord) : Except Nat Instr :=
  match fFn w with
  | 0 => decV e w 14 false 0 true false (.vmul (fV3 w))
  | 1 => decV e w 14 false 1 true false (.vmulh (fV3 w) (bitAt w 4))
  | 2 => decV e w 14 false 0 true true (.vmad (fV3 w) (r9 (fC w)))
  | 3 => decV e w 13 true 1 true true (.vdot4 (fV3 w) (r9 (fC w)) (bitAt w 4) (fSat w))
  | _ => .error 7

/-- Opcode 0x1B. -/
def dec1B (e : Env) (w : DWord) : Except Nat Instr :=
  match fFn w with
  | 0 => decV e w 14 true 0 false false (.vabs (fV2 w) (fSat w))
  | 1 => decV e w 14 false 0 false false (.vclz (fV2 w))
  | 2 => decV e w 14 false 0 false false (.vpopc (fV2 w))
  | 3 => decV e w 14 false 0 false false (.vbrev (fV2 w))
  | 4 => decV e w 14 false 1 true false (.vbfe (fV3 w) (bitAt w 4))
  | 5 => decV e w 14 false 0 true true (.vbfi (fV3 w) (r9 (fC w)))
  | 6 => decV e w 14 false 0 true true (.vpermb (fV3 w) (r9 (fC w)))
  | _ => .error 7

/-- Opcode 0x1C (R250). -/
def dec1C (e : Env) (w : DWord) : Except Nat Instr :=
  match fFn w with
  | 0 => checks [(7, decide (9 < fld w 11 4)), (8, rsvV w || fSat w || fRnd w != 0 || fld w 15 5 != 0),
      (9, badB w || notP (fD w)), (10, e.far (fA w) || e.farB w), (11, fTy w != 14)]
      (.vcmp (fMods w) (r3 (fD w)) (r9 (fA w)) (fBSrc w) (Cond.ofCode (fld w 11 4)))
  | _ => .error 7

/-- Opcode 0x1D (R250). -/
def dec1D (e : Env) (w : DWord) : Except Nat Instr :=
  match fFn w with
  | 0 => checks [(7, decide (9 < fld w 25 4)), (9, notP (fD w)), (10, e.far (fA w))]
      (.vcmpImm (fMods w) (r3 (fD w)) (r9 (fA w)) (fImm w) (Cond.ofCode (fld w 25 4)))
  | _ => .error 7

/-- Opcode 0x1E (R252). -/
def dec1E (e : Env) (w : DWord) : Except Nat Instr :=
  match fFn w with
  | 0 => checks [(8, fA w != 0), (10, e.far (fD w)), (11, fld w 25 4 != 14)]
      (.vmovi (fMods w) (r9 (fD w)) (fImm w))
  | 1 => checks [(8, fA w != 0 || bitAt w 24), (10, e.far (fD w)), (11, fld w 25 4 != 14)]
      (.vmovh (fMods w) (r9 (fD w)) (BitVec.ofNat 24 (fld w 0 24)))
  | _ => .error 7

/-- Opcode 0x30 (R264). -/
def dec30 (e : Env) (w : DWord) : Except Nat Instr :=
  match fFn w with
  | 0 => decF e w (!(Ty.ofCode (fTy w)).isF) true true false (.vfadd (fV3 w) (fFmt w))
  | 1 => decF e w (!(Ty.ofCode (fTy w)).isF) true true false (.vfsub (fV3 w) (fFmt w))
  | 2 => decF e w (!(Ty.ofCode (fTy w)).isF) true true false (.vfmul (fV3 w) (fFmt w))
  | 3 => decF0 e w true (.vfmin (fV3 w) (Ty.ofCode (fTy w)))
  | 4 => decF0 e w true (.vfmax (fV3 w) (Ty.ofCode (fTy w)))
  | 5 => decF0 e w false (.vfabs (fV2 w) (Ty.ofCode (fTy w)))
  | 6 => decF0 e w false (.vfneg (fV2 w) (Ty.ofCode (fTy w)))
  | _ => .error 7

/-- Opcode 0x31 (R266). -/
def dec31 (e : Env) (w : DWord) : Except Nat Instr :=
  match fFn w with
  | 0 => decFma e w (.vfma (fV3 w) (r9 (fC w)) (fFmt0 w))
  | 1 => decFma e w (.vfms (fV3 w) (r9 (fC w)) (fFmt0 w))
  | 2 => decFma e w (.vfnma (fV3 w) (r9 (fC w)) (fFmt0 w))
  | _ => .error 7

/-- Opcode 0x32. -/
def dec32 (e : Env) (w : DWord) : Except Nat Instr :=
  match fFn w with
  | 0 => checks [(7, !(Cond.ofCode (fld w 11 4)).isFloat || decide (11 < fld w 11 4)),
      (8, rsvV w || fSat w || fRnd w != 0 || fld w 15 5 != 0), (9, badB w || notP (fD w)),
      (10, e.far (fA w) || e.farB w), (11, !(Ty.ofCode (fTy w)).isF)]
      (.vfcmp (fMods w) (r3 (fD w)) (r9 (fA w)) (fBSrc w) (Ty.ofCode (fTy w)) (Cond.ofCode (fld w 11 4)))
  | 1 => decF0 e w false (.vfclass (fV2 w) (Ty.ofCode (fTy w)))
  | _ => .error 7

/-- Opcode 0x33 (R268). -/
def dec33 (e : Env) (w : DWord) : Except Nat Instr :=
  match fFn w with
  | 0 => decF e w (decide (7 < fTy w) || decide (7 < fld w 20 4)) true false (fld w 24 5 != 0)
      (.vfcvt (fV2 w) (Ty.ofCode (fld w 20 4)) (fFmt w))
  | 1 => decF e w (!(Ty.ofCode (fTy w)).isF) false false (fB w != 0) (.vfrnd (fV2 w) (fFmt w))
  | 2 => decF e w (!(Ty.ofCode (fTy w)).isF) false false (decide (1 < fB w)) (.vftoi (fV2 w) (bitAt w 20) (fFmt w))
  | 3 => decF e w (!(Ty.ofCode (fTy w)).isF) false false (decide (1 < fB w)) (.vitof (fV2 w) (bitAt w 20) (fFmt w))
  | 4 => decF e w (!(Ty.ofCode (fTy w)).isF) true true false (.vfscl (fV3 w) (fFmt w))
  | _ => .error 7

/-- Opcode 0x34 (R269). -/
def dec34 (e : Env) (w : DWord) : Except Nat Instr :=
  match fFn w with
  | 0 => decT e w (.vrcp (fV2 w))
  | 1 => decT e w (.vrsq (fV2 w))
  | 2 => checks [(8, rsvV w || fC w != 0 || fB w != 0 || fBsc w),
      (10, e.far (fD w) || e.far (fA w)), (11, fTy w != 0), (12, decide (4 < fRnd w))] (.vsqrt (fV2 w) (fFmt0 w))
  | 3 => decT e w (.vexp2 (fV2 w))
  | 4 => decT e w (.vlog2 (fV2 w))
  | 5 => decT e w (.vsin (fV2 w))
  | 6 => decT e w (.vcos (fV2 w))
  | 7 => decT e w (.vtanh (fV2 w))
  | _ => .error 7

/-- The operation of VREDX (R276): its function check, whether RND breaks the reserved rule, and the
operation itself. -/
def redOp (w : DWord) : Bool × Bool × RedOp :=
  let isE := fTy w == 14
  let is0 := fTy w == 0
  match fld w 11 3 with
  | 0 => (false, isE && fRnd w != 0, if is0 then .fadd (Rnd.ofCode (fRnd w)) else .add)
  | 1 => (false, (isE && decide (1 < fRnd w)) || (is0 && fRnd w != 0),
      if is0 then .fmin else .min (bitAt w 4))
  | 2 => (false, (isE && decide (1 < fRnd w)) || (is0 && fRnd w != 0),
      if is0 then .fmax else .max (bitAt w 4))
  | 3 => (is0, isE && fRnd w != 0, .and)
  | 4 => (is0, isE && fRnd w != 0, .or)
  | 5 => (is0, isE && fRnd w != 0, .xor)
  | _ => (true, false, .add)

/-- Opcode 0x48 (R271 to R276). -/
def dec48 (e : Env) (w : DWord) : Except Nat Instr :=
  match fFn w with
  | 0 => checks [(8, rsvV w || fSat w || fRnd w != 0 || fld w 13 7 != 0), (9, badB w),
      (10, e.far (fD w) || e.far (fA w) || e.farB w), (11, fTy w != 14)]
      (.vshfl (fV3 w) (BitVec.ofNat 2 (fld w 11 2)))
  | 1 => checks [(8, rsvV w || fSat w || fRnd w != 0 || fC w != 0 || (!fBsc w && fld w 27 2 != 0)), (9, badB w),
      (10, e.far (fD w) || e.far (fA w)), (11, fTy w != 14)]
      (.vbcast (fV2 w) (if fBsc w then .sca (r8 (fB w)) else .const (BitVec.ofNat 7 (fld w 20 7))))
  | 2 => checks [(8, rsvV w || fSat w || fBsc w || fRnd w != 0 || fC w != 0 || fld w 22 7 != 0), (9, notP (fA w)),
      (10, e.far (fD w)), (11, fTy w != 14)]
      (.vballot (fMods w) (r9 (fD w)) (r3 (fA w)) (BitVec.ofNat 2 (fld w 20 2)))
  | 3 => checks [(7, fld w 11 2 == 3), (8, rsvV w || fSat w || fBsc w || fRnd w != 0 || fB w != 0 || fld w 13 7 != 0),
      (9, notP (fD w) || notP (fA w)), (11, fTy w != 14)]
      (.vvote (fMods w) (r3 (fD w)) (r3 (fA w)) (BitVec.ofNat 2 (fld w 11 2)))
  | 4 => checks [(7, (redOp w).1), (8, rsvV w || fSat w || fBsc w || fB w != 0 || fld w 14 6 != 0 || (redOp w).2.1),
      (10, e.far (fD w) || e.far (fA w)), (11, fTy w != 14 && fTy w != 0),
      (12, fTy w == 0 && fld w 11 3 == 0 && decide (4 < fRnd w))] (.vredx (fV2 w) (redOp w).2.2)
  | _ => .error 7

/-- Opcode 0x49 (R277 to R279). -/
def dec49 (e : Env) (w : DWord) : Except Nat Instr :=
  match fFn w with
  | 0 => decF e w (!(Ty.ofCode (fTy w)).isMx) false false (fB w != 0) (.vmxq (fV2 w) (fFmt w))
  | 1 => decF e w (!((Ty.ofCode (fTy w)).isMx || (Ty.ofCode (fTy w)).isNarrow)) true false (fB w != 0)
      (.vmxdq (fV2 w) (fFmt w))
  | 2 => checks [(8, rsvV w || fSat w || fBsc w || fRnd w != 0 || fB w != 0 || decide (1 < fC w)),
      (10, e.far (fD w) || e.far (fA w)), (11, !(Ty.ofCode (fTy w)).isPack)]
      (.vpack (fV2 w) (Ty.ofCode (fTy w)) (bitAt w 11))
  | _ => .error 7

/-- Opcodes 0x50 to 0x52 (R284 to R290). -/
def decLs (e : Env) (w : DWord) : Except Nat Instr :=
  let sz := BitVec.ofNat 2 (fld w 51 2)
  if fOp w = 0x50 then
    decM e w (ldFsBad e w) 2 (szNd e w) (decide (1 < fld w 23 2)) (.ld (fMem w) sz (bitAt w 53))
  else if fOp w = 0x51 then
    if bitAt w 54 then
      decM e w (bitAt w 55 || bitAt w 53 || fld w 16 4 != 0) 2 (szNd e w) (bitAt w 23)
        (.stMc (fMem w) sz)
    else decM e w (bitAt w 55 || bitAt w 53) 2 (szNd e w) (bitAt w 23) (.st (fMem w) sz)
  else decM e w (ldFsBad e w) 1 (szNd e w) (decide (1 < fld w 23 2)) (.ldh (fMem w) sz (bitAt w 53))

/-- Opcodes 0x60 and 0x61 (R291, R292). -/
def decAtom (e : Env) (w : DWord) : Except Nat Instr :=
  let red := fOp w == 0x61
  let b64 := bitAt w 51
  let fn := AtomFn.ofCode (fld w 52 4)
  if decide (12 < fld w 52 4) || !fn.ok red b64 then .error 7
  else decM e w false 2 (fn.regs e.front b64) (red && bitAt w 23)
    (if red then .red (fMem w) b64 fn else .atom (fMem w) b64 fn)

/-- Opcode 0x63 (R296); BSS is ignored. -/
def dec63 (w : DWord) : Except Nat Instr :=
  checks [(8, fld w 20 3 != 0 || fFn w != 0 || fD w != 0 || fA w != 0 || fld w 0 20 != 0),
    (13, fld w 23 2 == 0)]
    (.fence (fMods w) (BitVec.ofNat 3 (fld w 25 3)) (BitVec.ofNat 2 (fld w 23 2)))

/-- Opcode 0x53 (R298). -/
def dec53 (e : Env) (w : DWord) : Except Nat Instr :=
  match fFn w with
  | 0 => decQ w (fC w != 0) (notH (fD w) || notS (fA w) || notS (fB w)) false
      (.wdef (fMods w) (r4 (fD w)) (r8 (fA w)) (r8 (fB w)))
  | 1 => decQ w (fD w != 0 || fB w != 0 || fC w != 0) (notH (fA w)) false (.wtouch (fMods w) (r4 (fA w)))
  | 2 => decQ w (fB w != 0 || fC w != 0) (notH (fA w) || e.rCls (fD w)) (e.rFar (fD w) 1)
      (.wstate (fMods w) (r9 (fD w)) (r4 (fA w)))
  | 3 => decQ w (fD w != 0 || fB w != 0 || fC w != 0) (notH (fA w)) false (.wdrain (fMods w) (r4 (fA w)))
  | 4 => decQ w (fD w != 0 || fB w != 0 || fC w != 0) (notH (fA w)) false (.wrel (fMods w) (r4 (fA w)))
  | 5 => decQ w (fB w != 0 || fC w != 0) (notP (fD w) || notH (fA w)) false
      (.hwait (fMods w) (r3 (fD w)) (r4 (fA w)))
  | _ => .error 7

/-- Opcode 0x62 (R297). -/
def dec62 (_e : Env) (w : DWord) : Except Nat Instr :=
  match fFn w with
  | 0 => decQ w (fB w != 0 || decide (1 < fC w)) (notS (fD w) || notS (fA w)) false
      (.oalloc (fMods w) (r8 (fD w)) (r8 (fA w)) (bitAt w 11))
  | 1 => decQ w (fB w != 0 || fC w != 0) (notS (fD w) || notS (fA w)) false
      (.ofree (fMods w) (r8 (fD w)) (r8 (fA w)))
  | _ => .error 7

/-- Opcode 0x68 (R304, R305). -/
def dec68 (_e : Env) (w : DWord) : Except Nat Instr :=
  match fFn w with
  | 0 => decQ w (fD w != 0 || fA w != 0 || fB w != 0 || fC w != 0) false false (.bar (fMods w))
  | 1 => decQ w (fD w != 0 || fA w != 0 || fB w != 0 || fC w != 0) false false (.ssync (fMods w))
  | _ => .error 7

/-- Opcode 0x69 (R306). -/
def dec69 (e : Env) (w : DWord) : Except Nat Instr :=
  match fFn w with
  | 0 => checks [(7, fld w 11 2 == 3), (8, fld w 0 11 != 0 || fB w != 0 || fld w 13 7 != 0),
      (9, notH (fD w) || notS (fA w))]
      (.phreg (fMods w) (r4 (fD w)) (r8 (fA w)) (PhMode.ofCode (fld w 11 2)))
  | 1 => decQ w (fD w != 0 || fB w != 0 || fC w != 0) (notH (fA w)) false (.phdrop (fMods w) (r4 (fA w)))
  | 2 => decQ w (fD w != 0 || fB w != 0 || fC w != 0) (notH (fA w)) false (.phsig (fMods w) (r4 (fA w)))
  | 3 => decQ w (fB w != 0 || fC w != 0) (notP (fD w) || notH (fA w)) false
      (.phwait (fMods w) (r3 (fD w)) (r4 (fA w)))
  | 4 => decQ w (fB w != 0 || fC w != 0) (notP (fD w) || notH (fA w)) false
      (.phsw (fMods w) (r3 (fD w)) (r4 (fA w)))
  | 5 => decQ w (fB w != 0 || fC w != 0) (notH (fA w) || e.rCls (fD w)) (e.rFar (fD w) 1)
      (.phqry (fMods w) (r9 (fD w)) (r4 (fA w)))
  | _ => .error 7

/-- Opcode 0x6A (R312). -/
def dec6A (_e : Env) (w : DWord) : Except Nat Instr :=
  match fFn w with
  | 0 => checks [(8, fld w 32 19 != 0)] (.rgn (fPark w) (BitVec.ofNat 32 (fld w 0 32)))
  | _ => .error 7

/-- Opcode 0x6B (R313). -/
def dec6B (e : Env) (w : DWord) : Except Nat Instr :=
  match fFn w with
  | 0 => checks [(8, fld w 32 6 != 0), (10, e.far (fD w))] (.meet (fMods w) (r9 (fD w)) (BitVec.ofNat 32 (fld w 0 32)))
  | 1 => checks [(8, fld w 0 38 != 0), (10, e.far (fD w))] (.join (fMods w) (r9 (fD w)))
  | _ => .error 7

/-- Opcode 0x6C (R314). -/
def dec6C (e : Env) (w : DWord) : Except Nat Instr :=
  match fFn w with
  | 0 => decQ w (fA w != 0 || fB w != 0 || fC w != 0) false (e.farRun (fD w) 2) (.dqpop (fMods w) (r9 (fD w)))
  | _ => .error 7

/-- Opcodes 0x70 to 0x76 (R316 to R345): bits 39:37 select the function. -/
def decXs (e : Env) (w : DWord) : Except Nat Instr :=
  let p := fPark w
  let acc := fld w 30 7
  let a7 := BitVec.ofNat 7 acc
  let t := fun k => Ty.ofCode (xTy w k)
  let noTy := fun ks : List Nat => ks.any (fun k => xTy w k != 0)
  match fOp w, fld w 37 3 with
  | 0x70, 0 => decX e (fld w 0 19 != 0 || (bitAt w 20 && fld w 26 4 != 0)) [acc] []
      (!mmaTypes (t 0) (t 1) (t 2) || xTy w 3 != xTy w 2) false
      (.mma ⟨p, t 0, t 1, t 2, a7, r4 (fld w 26 4), r4 (fld w 22 4), bitAt w 21⟩ (bitAt w 20) (bitAt w 19))
  | 0x71, 0 => decX e (fld w 0 15 != 0 || bitAt w 20) [acc] []
      (!mmaTypes (t 0) (t 1) (t 2) || xTy w 3 != xTy w 2) false
      (.mmas ⟨p, t 0, t 1, t 2, a7, r4 (fld w 26 4), r4 (fld w 22 4), bitAt w 21⟩ (r4 (fld w 16 4))
        (bitAt w 15))
  | 0x72, 0 => decX e (fld w 0 23 != 0 || noTy [1, 2, 3]) [] [fld w 24 9] (!(t 0).isOperand) false
      (.mgath p (t 0) (r4 (fld w 33 4)) (r8 (fld w 24 9)) (bitAt w 23))
  | 0x72, 1 => decX e (fld w 0 24 != 0 || noTy [1, 2, 3]) [] [] (!(t 0).isPack) false
      (.cmprs p (t 0) (r4 (fld w 33 4)) (r4 (fld w 29 4)) (r4 (fld w 25 4)) (bitAt w 24))
  | 0x73, 0 => decX e (fld w 0 30 != 0 || noTy [0, 1, 2, 3]) [acc] [] false false (.accz p a7)
  | 0x73, 1 => decX e (fld w 0 23 != 0 || noTy [0, 1, 2, 3]) [acc, fld w 23 7] [] false false
      (.accmv p a7 (BitVec.ofNat 7 (fld w 23 7)))
  | 0x73, 2 => decX e (fld w 0 26 != 0 || noTy [0, 1, 3]) [acc] []
      (!(xTy w 2 == 0 || xTy w 2 == 14)) false (.accld p (t 2) a7 (r4 (fld w 26 4)))
  | 0x74, 0 => decX e (fld w 0 10 != 0 || noTy [0, 1]) [acc] [] (!epiTypes (t 2) (t 3) (bitAt w 26))
      (decide (5 < fld w 11 3) || (fld w 11 3 == 5 && bitAt w 26))
      (.epi ⟨p, t 2, t 3, a7, BitVec.ofNat 2 (fld w 28 2), bitAt w 27, bitAt w 26,
        BitVec.ofNat 6 (fld w 20 6), BitVec.ofNat 6 (fld w 14 6), Rnd.ofCode (fld w 11 3), bitAt w 10⟩)
  | 0x74, 1 => decX e (fld w 0 26 != 0 || noTy [0, 1, 2, 3]) [] [fld w 26 9] false false
      (.epset p (BitVec.ofNat 2 (fld w 35 2)) (r8 (fld w 26 9)))
  | 0x75, 0 => decX e (fld w 0 26 != 0 || noTy [0, 1, 2, 3]) [] [fld w 26 9] false false
      (.efork p (BitVec.ofNat 2 (fld w 35 2)) (r8 (fld w 26 9)))
  | 0x75, 1 => decX e (fld w 0 35 != 0 || noTy [0, 1, 2, 3]) [] [] false false
      (.erdv p (BitVec.ofNat 2 (fld w 35 2)))
  | 0x76, 0 => decX e (fld w 0 24 != 0 || noTy [0, 1, 2, 3]) [] [fld w 28 9] false false
      (.coll p (r8 (fld w 28 9)) (r4 (fld w 24 4)))
  | 0x76, 1 => decX e (fld w 0 24 != 0 || noTy [0, 1, 2, 3]) [] [fld w 28 9] false false
      (.cwait p (r8 (fld w 28 9)) (r4 (fld w 24 4)))
  | _, _ => .error 7

/-- Opcode 0x78 (R352, R353). -/
def dec78 (e : Env) (w : DWord) : Except Nat Instr :=
  match fFn w with
  | 0 => decK w (fA w != 0 || fBsc w || fld w 22 7 != 0) (notS (fC w)) (e.farRun (fD w) (fld w 20 2 + 1))
      (fTy w != 14 && fTy w != 0)
      (.rand (fMods w) (r9 (fD w)) (r8 (fC w)) (BitVec.ofNat 2 (fld w 20 2)) (fTy w == 0))
  | 1 => decK w (fBsc w) (decide (254 < fC w)) (e.far (fD w) || e.far (fA w) || e.far (fB w)) (fTy w != 0)
      (.sample (fMods w) (r9 (fD w)) (r9 (fA w)) (r9 (fB w)) (r8 (fC w)))
  | _ => .error 7

/-- Opcode 0x79 (R357). -/
def dec79 (e : Env) (w : DWord) : Except Nat Instr :=
  match fFn w with
  | 0 => decK w (fTy w != 0 || fD w != 0 || decide (1 < fC w)) (badB w) (e.far (fA w) || e.farB w) false
      (if bitAt w 11 then .tokappD (fMods w) (r9 (fA w)) (fBSrc w) else .tokapp (fMods w) (r9 (fA w)) (fBSrc w))
  | 1 => decK w (fTy w != 0 || fD w != 0 || fC w != 0) (badB w) (e.far (fA w) || e.farB w) false
      (.tokconf (fMods w) (r9 (fA w)) (fBSrc w))
  | 2 => decK w (fTy w != 0 || fA w != 0 || decide (7 < fC w)) (badB w) (e.far (fD w) || e.farB w) false
      (.tokget (fMods w) (r9 (fD w)) (fBSrc w) (r3 (fC w)))
  | _ => .error 7

/-- Opcode 0x7A (R357). -/
def dec7A (e : Env) (w : DWord) : Except Nat Instr :=
  match fFn w with
  | 0 => decK w (fTy w != 0 || fD w != 0) (badB w) (e.farRun (fA w) 2 || e.farB w) false
      (.sloew (fMods w) (r9 (fA w)) (fBSrc w) (r9 (fC w)))
  | 1 => decK w (fTy w != 0 || fA w != 0) (badB w) (e.farRun (fD w) 2 || e.farB w) false
      (.sloer (fMods w) (r9 (fD w)) (fBSrc w) (r9 (fC w)))
  | 2 => decK w (fTy w != 0 || fA w != 0 || fC w != 0) (badB w) (e.far (fD w) || e.farB w) false
      (.sloeq (fMods w) (r9 (fD w)) (fBSrc w))
  | _ => .error 7

/-- Opcode 0x7C (R371). -/
def dec7C (e : Env) (w : DWord) : Except Nat Instr :=
  match fFn w with
  | 0 => decY e (fld w 0 26 != 0) (fD w) 2 (.csrr (fMods w) (r9 (fD w)) (BitVec.ofNat 12 (fld w 26 12)))
  | 1 => decY e (fld w 0 26 != 0) (fD w) 2 (.csrw (fMods w) (r9 (fD w)) (BitVec.ofNat 12 (fld w 26 12)))
  | 2 => if bitAt w 16 then
      checks [(8, fld w 17 9 != 0 || fD w != 0)] (.csrs (fMods w) (.imm (BitVec.ofNat 16 (fld w 0 16))) (BitVec.ofNat 12 (fld w 26 12)))
    else decY e (fld w 0 26 != 0) (fD w) 2 (.csrs (fMods w) (.reg (r9 (fD w))) (BitVec.ofNat 12 (fld w 26 12)))
  | 3 => if bitAt w 16 then
      checks [(8, fld w 17 9 != 0 || fD w != 0)] (.csrc (fMods w) (.imm (BitVec.ofNat 16 (fld w 0 16))) (BitVec.ofNat 12 (fld w 26 12)))
    else decY e (fld w 0 26 != 0) (fD w) 2 (.csrc (fMods w) (.reg (r9 (fD w))) (BitVec.ofNat 12 (fld w 26 12)))
  | 4 => decY e (fld w 0 38 != 0) (fD w) 2 (.rdtick (fMods w) (r9 (fD w)))
  | _ => .error 7

/-- Opcode 0x7D (R368, R369). -/
def dec7D (e : Env) (w : DWord) : Except Nat Instr :=
  match fFn w with
  | 0 => checks [(8, fld w 0 47 != 0)] (.trapf (fMods w))
  | 1 => checks [(8, fld w 16 31 != 0)] (.trap (fMods w) (BitVec.ofNat 16 (fld w 0 16)))
  | 2 => decY e (fld w 16 22 != 0) (fD w) 2 (.sys (fMods w) (BitVec.ofNat 16 (fld w 0 16)) (r9 (fD w)))
  | 3 => checks [(8, fld w 16 31 != 0)] (.bkpt (fMods w) (BitVec.ofNat 16 (fld w 0 16)))
  | 4 => checks [(8, fld w 0 47 != 0)] (.halt (fMods w))
  | 5 => checks [(8, fld w 0 47 != 0)] (.iret (fMods w))
  | 6 => decY e (fld w 8 30 != 0 || fld w 0 2 == 3) (fD w) 2
      (.tlbinv (fMods w) (r9 (fD w)) (BitVec.ofNat 2 (fld w 0 2)) (BitVec.ofNat 6 (fld w 2 6)))
  | _ => .error 7

/-- Opcode 0x7E (R372). -/
def dec7E (e : Env) (w : DWord) : Except Nat Instr :=
  match fFn w with
  | 0 => decY e (fld w 0 38 != 0) (fD w) 2 (.glaunch (fMods w) (r9 (fD w)))
  | _ => .error 7

/-- Opcode 0x7F (R373): every other bit is zero. -/
def dec7F (_e : Env) (w : DWord) : Except Nat Instr :=
  match fFn w with
  | 0 => checks [(8, fld w 0 51 != 0)] (.nop (fPark w))
  | _ => .error 7

/-- The words of one major opcode, its class checked already: codes 7 to 13. -/
def decOp (e : Env) (w : DWord) : Except Nat Instr :=
  match fOp w with
  | 0x00 => dec00 e w
  | 0x01 => dec01 e w
  | 0x02 => dec02 e w
  | 0x03 => dec03 e w
  | 0x04 => dec04 e w
  | 0x05 => dec05 e w
  | 0x06 => dec06 e w
  | 0x10 => dec10 e w
  | 0x11 => dec11 e w
  | 0x12 => dec12 e w
  | 0x18 => dec18 e w
  | 0x19 => dec19 e w
  | 0x1A => dec1A e w
  | 0x1B => dec1B e w
  | 0x1C => dec1C e w
  | 0x1D => dec1D e w
  | 0x1E => dec1E e w
  | 0x30 => dec30 e w
  | 0x31 => dec31 e w
  | 0x32 => dec32 e w
  | 0x33 => dec33 e w
  | 0x34 => dec34 e w
  | 0x48 => dec48 e w
  | 0x49 => dec49 e w
  | 0x53 => dec53 e w
  | 0x62 => dec62 e w
  | 0x68 => dec68 e w
  | 0x69 => dec69 e w
  | 0x6A => dec6A e w
  | 0x6B => dec6B e w
  | 0x6C => dec6C e w
  | 0x78 => dec78 e w
  | 0x79 => dec79 e w
  | 0x7A => dec7A e w
  | 0x7C => dec7C e w
  | 0x7D => dec7D e w
  | 0x7E => dec7E e w
  | 0x7F => dec7F e w
  | 0x50 | 0x51 | 0x52 => decLs e w
  | 0x60 | 0x61 => decAtom e w
  | 0x63 => dec63 w
  | 0x70 | 0x71 | 0x72 | 0x73 | 0x74 | 0x75 | 0x76 => decXs e w
  | _ => .error 5

/-- Decode a word for an issuer in a clause: the instruction, or the lowest cause code of R228
among 3 to 13 (14 to 16 need the core's state, and the meanings check them). -/
def decode (e : Env) (w : DWord) : Except Nat Instr :=
  if ctxBad e w then .error 3
  else if e.targetBad then .error 4
  else match opClass (fOp w) with
    | none => .error 5
    | some k => if k ≠ 7 ∧ k ≠ e.cls then .error 6 else decOp e w

/-! The encoder. -/

def b2n (b : Bool) : Nat := if b then 1 else 0
/-- Bits 63:47: marker, opcode, function, predicate. -/
def encHead (m : Mods) (op fn : Nat) : Nat :=
  b2n m.park * 2 ^ 63 + op * 2 ^ 56 + fn * 2 ^ 51 + m.pred.toNat * 2 ^ 48 + b2n m.pneg * 2 ^ 47
/-- Format V (R216). -/
def encV (m : Mods) (op fn d a b c ty rnd : Nat) (sat bsc : Bool) : DWord :=
  BitVec.ofNat 64 (encHead m op fn + d * 2 ^ 38 + a * 2 ^ 29 + b * 2 ^ 20 + c * 2 ^ 11 + ty * 2 ^ 7 +
    rnd * 2 ^ 4 + b2n sat * 2 ^ 3 + b2n bsc * 2 ^ 2)
/-- Format I (R217). -/
def encI (m : Mods) (op fn d a ty : Nat) (hi : Bool) (v : Nat) : DWord :=
  BitVec.ofNat 64 (encHead m op fn + d * 2 ^ 38 + a * 2 ^ 29 + ty * 2 ^ 25 + b2n hi * 2 ^ 24 + v)
/-- Format M (R218). -/
def encM (o : MemF) (op fs : Nat) : DWord :=
  BitVec.ofNat 64 (encHead o.m op fs + o.data.toNat * 2 ^ 38 + o.base.toNat * 2 ^ 29 +
    b2n o.bss * 2 ^ 28 + o.scope.toNat * 2 ^ 25 + o.order.toNat * 2 ^ 23 + o.off.toNat)
/-- Formats C and Y share their places: a register in 46:38 and the low bits (R219, R221). -/
def encC (m : Mods) (op fn r low : Nat) : DWord :=
  BitVec.ofNat 64 (encHead m op fn + r * 2 ^ 38 + low)
/-- Format X (R220, R315). -/
def encX (park : Bool) (op fn t0 t1 t2 t3 low : Nat) : DWord :=
  BitVec.ofNat 64 (b2n park * 2 ^ 63 + op * 2 ^ 56 + t0 * 2 ^ 52 + t1 * 2 ^ 48 + t2 * 2 ^ 44 +
    t3 * 2 ^ 40 + fn * 2 ^ 37 + low)
def BSrc.num : BSrc → Nat
  | .vec r => r.toNat
  | .sca r => r.toNat
def BSrc.isSca : BSrc → Bool
  | .vec _ => false
  | .sca _ => true
def encS3 (o : S3) (op fn c rnd : Nat) : DWord :=
  encV o.m op fn o.d.toNat o.a.toNat o.b.toNat c 0 rnd false false
def encS2 (o : S2) (op fn : Nat) : DWord := encV o.m op fn o.d.toNat o.a.toNat 0 0 0 0 false false
def encSI (o : SI) (fn : Nat) : DWord := encI o.m 1 fn o.d.toNat o.a.toNat 0 o.i.hi o.i.v.toNat
def encV3 (o : V3) (op fn c ty rnd : Nat) (sat : Bool) : DWord :=
  encV o.m op fn o.d.toNat o.a.toNat o.b.num c ty rnd sat o.b.isSca
def encV2 (o : V2) (op fn b c ty rnd : Nat) (sat : Bool) : DWord :=
  encV o.m op fn o.d.toNat o.a.toNat b c ty rnd sat false
def encVI (o : VI) (fn : Nat) : DWord := encI o.m 0x19 fn o.d.toNat o.a.toNat 14 o.i.hi o.i.v.toNat
def encF3 (o : V3) (op fn : Nat) (f : Fmt) : DWord :=
  encV3 o op fn f.idx.toNat f.ty.code f.rnd.code f.sat
def encF2 (o : V2) (op fn b : Nat) (f : Fmt) : DWord :=
  encV2 o op fn b f.idx.toNat f.ty.code f.rnd.code f.sat
/-- Code, type and rounding fields of VREDX (R276). -/
def RedOp.enc : RedOp → Nat × Nat × Nat
  | .add => (0, 14, 0) | .min u => (1, 14, b2n u) | .max u => (2, 14, b2n u) | .and => (3, 14, 0)
  | .or => (4, 14, 0) | .xor => (5, 14, 0) | .fadd r => (0, 0, r.code) | .fmin => (1, 0, 0)
  | .fmax => (2, 0, 0)
def CsrSrc.enc : CsrSrc → Nat × Nat
  | .reg r => (r.toNat, 0)
  | .imm v => (0, 2 ^ 16 + v.toNat)

/-- The word of an instruction (R216 to R221, R226); a happening has none. -/
def encode : Instr → Option DWord
  | .sadd o => some (encS3 o 0 0 0 0)
  | .saddImm o => some (encSI o 0)
  | .ssub o => some (encS3 o 0 1 0 0)
  | .ssubImm o => some (encSI o 1)
  | .sand o => some (encS3 o 0 2 0 0)
  | .sandImm o => some (encSI o 2)
  | .sor o => some (encS3 o 0 3 0 0)
  | .sorImm o => some (encSI o 3)
  | .sxor o => some (encS3 o 0 4 0 0)
  | .sxorImm o => some (encSI o 4)
  | .sandn o => some (encS3 o 0 5 0 0)
  | .sandnImm o => some (encSI o 5)
  | .sshl o => some (encS3 o 0 6 0 0)
  | .sshlImm o => some (encSI o 6)
  | .sshr o => some (encS3 o 0 7 0 0)
  | .sshrImm o => some (encSI o 7)
  | .ssar o => some (encS3 o 0 8 0 0)
  | .ssarImm o => some (encSI o 8)
  | .srot o => some (encS3 o 0 9 0 0)
  | .srotImm o => some (encSI o 9)
  | .smin o => some (encS3 o 0 10 0 0)
  | .sminImm o => some (encSI o 10)
  | .smax o => some (encS3 o 0 11 0 0)
  | .smaxImm o => some (encSI o 11)
  | .sminu o => some (encS3 o 0 12 0 0)
  | .sminuImm o => some (encSI o 12)
  | .smaxu o => some (encS3 o 0 13 0 0)
  | .smaxuImm o => some (encSI o 13)
  | .ssel o g => some (encS3 o 0 14 g.toNat 0)
  | .smov o => some (encS2 o 0 15)
  | .smul o => some (encS3 o 2 0 0 0)
  | .smulh o u => some (encS3 o 2 1 0 (b2n u))
  | .sdiv o => some (encS3 o 2 2 0 0)
  | .sdivu o => some (encS3 o 2 3 0 0)
  | .srem o => some (encS3 o 2 4 0 0)
  | .sremu o => some (encS3 o 2 5 0 0)
  | .sclz o => some (encS2 o 3 0)
  | .spopc o => some (encS2 o 3 1)
  | .sbfe o u => some (encS3 o 3 2 0 (b2n u))
  | .scmp m g a b c => some (encV m 4 0 g.toNat a.toNat b.toNat c.code 0 0 false false)
  | .scmpImm m g a i c => some (encI m 5 0 g.toNat a.toNat c.code i.hi i.v.toNat)
  | .smovi m d i => some (encI m 6 0 d.toNat 0 0 i.hi i.v.toNat)
  | .smovh m d v => some (encI m 6 1 d.toNat 0 0 false v.toNat)
  | .bra m f => some (encC m 0x10 0 0 f.toNat)
  | .brc m r f => some (encC m 0x10 1 r.toNat f.toNat)
  | .call m r f => some (encC m 0x10 2 r.toNat f.toNat)
  | .ret m r => some (encC m 0x10 3 r.toNat 0)
  | .jmpi m r => some (encC m 0x10 4 r.toNat 0)
  | .loop m r f => some (encC m 0x10 5 r.toNat f.toNat)
  | .brv m f => some (encC m 0x11 0 0 f.toNat)
  | .dqpush m a => some (encV m 0x12 0 0 a.toNat 0 0 0 0 false false)
  | .vadd o u sat => some (encV3 o 0x18 0 0 14 (b2n u) sat)
  | .vaddImm o => some (encVI o 0)
  | .vsub o u sat => some (encV3 o 0x18 1 0 14 (b2n u) sat)
  | .vsubImm o => some (encVI o 1)
  | .vand o => some (encV3 o 0x18 2 0 14 0 false)
  | .vandImm o => some (encVI o 2)
  | .vor o => some (encV3 o 0x18 3 0 14 0 false)
  | .vorImm o => some (encVI o 3)
  | .vxor o => some (encV3 o 0x18 4 0 14 0 false)
  | .vxorImm o => some (encVI o 4)
  | .vandn o => some (encV3 o 0x18 5 0 14 0 false)
  | .vandnImm o => some (encVI o 5)
  | .vshl o => some (encV3 o 0x18 6 0 14 0 false)
  | .vshlImm o => some (encVI o 6)
  | .vshr o => some (encV3 o 0x18 7 0 14 0 false)
  | .vshrImm o => some (encVI o 7)
  | .vsar o => some (encV3 o 0x18 8 0 14 0 false)
  | .vsarImm o => some (encVI o 8)
  | .vrot o => some (encV3 o 0x18 9 0 14 0 false)
  | .vrotImm o => some (encVI o 9)
  | .vmin o u => some (encV3 o 0x18 10 0 14 (b2n u) false)
  | .vminImm o => some (encVI o 10)
  | .vmax o u => some (encV3 o 0x18 11 0 14 (b2n u) false)
  | .vmaxImm o => some (encVI o 11)
  | .vsel o p => some (encV3 o 0x18 12 p.toNat 14 0 false)
  | .vmov o => some (encV2 o 0x18 13 0 0 14 0 false)
  | .vmul o => some (encV3 o 0x1A 0 0 14 0 false)
  | .vmulh o u => some (encV3 o 0x1A 1 0 14 (b2n u) false)
  | .vmad o c => some (encV3 o 0x1A 2 c.toNat 14 0 false)
  | .vdot4 o c u sat => some (encV3 o 0x1A 3 c.toNat 13 (b2n u) sat)
  | .vabs o sat => some (encV2 o 0x1B 0 0 0 14 0 sat)
  | .vclz o => some (encV2 o 0x1B 1 0 0 14 0 false)
  | .vpopc o => some (encV2 o 0x1B 2 0 0 14 0 false)
  | .vbrev o => some (encV2 o 0x1B 3 0 0 14 0 false)
  | .vbfe o u => some (encV3 o 0x1B 4 0 14 (b2n u) false)
  | .vbfi o c => some (encV3 o 0x1B 5 c.toNat 14 0 false)
  | .vpermb o c => some (encV3 o 0x1B 6 c.toNat 14 0 false)
  | .vcmp m p a b c => some (encV m 0x1C 0 p.toNat a.toNat b.num c.code 14 0 false b.isSca)
  | .vcmpImm m p a i c => some (encI m 0x1D 0 p.toNat a.toNat c.code i.hi i.v.toNat)
  | .vmovi m d i => some (encI m 0x1E 0 d.toNat 0 14 i.hi i.v.toNat)
  | .vmovh m d v => some (encI m 0x1E 1 d.toNat 0 14 false v.toNat)
  | .vfadd o f => some (encF3 o 0x30 0 f)
  | .vfsub o f => some (encF3 o 0x30 1 f)
  | .vfmul o f => some (encF3 o 0x30 2 f)
  | .vfmin o t => some (encV3 o 0x30 3 0 t.code 0 false)
  | .vfmax o t => some (encV3 o 0x30 4 0 t.code 0 false)
  | .vfabs o t => some (encV2 o 0x30 5 0 0 t.code 0 false)
  | .vfneg o t => some (encV2 o 0x30 6 0 0 t.code 0 false)
  | .vfma o c f => some (encV3 o 0x31 0 c.toNat f.ty.code f.rnd.code f.sat)
  | .vfms o c f => some (encV3 o 0x31 1 c.toNat f.ty.code f.rnd.code f.sat)
  | .vfnma o c f => some (encV3 o 0x31 2 c.toNat f.ty.code f.rnd.code f.sat)
  | .vfcmp m p a b t c => some (encV m 0x32 0 p.toNat a.toNat b.num c.code t.code 0 false b.isSca)
  | .vfclass o t => some (encV2 o 0x32 1 0 0 t.code 0 false)
  | .vfcvt o src f => some (encF2 o 0x33 0 src.code f)
  | .vfrnd o f => some (encF2 o 0x33 1 0 f)
  | .vftoi o u f => some (encF2 o 0x33 2 (b2n u) f)
  | .vitof o u f => some (encF2 o 0x33 3 (b2n u) f)
  | .vfscl o f => some (encF3 o 0x33 4 f)
  | .vrcp o => some (encV2 o 0x34 0 0 0 0 0 false)
  | .vrsq o => some (encV2 o 0x34 1 0 0 0 0 false)
  | .vsqrt o f => some (encF2 o 0x34 2 0 f)
  | .vexp2 o => some (encV2 o 0x34 3 0 0 0 0 false)
  | .vlog2 o => some (encV2 o 0x34 4 0 0 0 0 false)
  | .vsin o => some (encV2 o 0x34 5 0 0 0 0 false)
  | .vcos o => some (encV2 o 0x34 6 0 0 0 0 false)
  | .vtanh o => some (encV2 o 0x34 7 0 0 0 0 false)
  | .vshfl o mode => some (encV3 o 0x48 0 mode.toNat 14 0 false)
  | .vbcast o n => some (match n with
    | .const k => encV2 o 0x48 1 k.toNat 0 14 0 false
    | .sca s => encV o.m 0x48 1 o.d.toNat o.a.toNat s.toNat 0 14 0 false true)
  | .vballot m d p g => some (encV m 0x48 2 d.toNat p.toNat g.toNat 0 14 0 false false)
  | .vvote m d p mode => some (encV m 0x48 3 d.toNat p.toNat 0 mode.toNat 14 0 false false)
  | .vredx o op => some (encV2 o 0x48 4 0 op.enc.1 op.enc.2.1 op.enc.2.2 false)
  | .vmxq o f => some (encF2 o 0x49 0 0 f)
  | .vmxdq o f => some (encF2 o 0x49 1 0 f)
  | .vpack o t unp => some (encV2 o 0x49 2 0 (b2n unp) t.code 0 false)
  | .ld o sz sx => some (encM o 0x50 (sz.toNat + 4 * b2n sx))
  | .st o sz => some (encM o 0x51 sz.toNat)
  | .stMc o sz => some (encM o 0x51 (sz.toNat + 8))
  | .ldh o sz sx => some (encM o 0x52 (sz.toNat + 4 * b2n sx))
  | .atom o b64 fn => some (encM o 0x60 (b2n b64 + 2 * fn.code))
  | .red o b64 fn => some (encM o 0x61 (b2n b64 + 2 * fn.code))
  | .wdef m h a b => some (encV m 0x53 0 h.toNat a.toNat b.toNat 0 0 0 false false)
  | .wtouch m h => some (encV m 0x53 1 0 h.toNat 0 0 0 0 false false)
  | .wdrain m h => some (encV m 0x53 3 0 h.toNat 0 0 0 0 false false)
  | .wrel m h => some (encV m 0x53 4 0 h.toNat 0 0 0 0 false false)
  | .wstate m d h => some (encV m 0x53 2 d.toNat h.toNat 0 0 0 0 false false)
  | .hwait m p h => some (encV m 0x53 5 p.toNat h.toNat 0 0 0 0 false false)
  | .oalloc m d a mir => some (encV m 0x62 0 d.toNat a.toNat 0 (b2n mir) 0 0 false false)
  | .ofree m d a => some (encV m 0x62 1 d.toNat a.toNat 0 0 0 0 false false)
  | .fence m sc od => some (BitVec.ofNat 64 (encHead m 0x63 0 + sc.toNat * 2 ^ 25 + od.toNat * 2 ^ 23))
  | .bar m => some (encC m 0x68 0 0 0)
  | .ssync m => some (encC m 0x68 1 0 0)
  | .phreg m q a md => some (encV m 0x69 0 q.toNat a.toNat 0 md.code 0 0 false false)
  | .phdrop m q => some (encV m 0x69 1 0 q.toNat 0 0 0 0 false false)
  | .phsig m q => some (encV m 0x69 2 0 q.toNat 0 0 0 0 false false)
  | .phwait m p q => some (encV m 0x69 3 p.toNat q.toNat 0 0 0 0 false false)
  | .phsw m p q => some (encV m 0x69 4 p.toNat q.toNat 0 0 0 0 false false)
  | .phqry m d q => some (encV m 0x69 5 d.toNat q.toNat 0 0 0 0 false false)
  | .rgn park k => some (encC ⟨park, 0, false⟩ 0x6A 0 0 k.toNat)
  | .meet m d f => some (encC m 0x6B 0 d.toNat f.toNat)
  | .join m a => some (encC m 0x6B 1 a.toNat 0)
  | .dqpop m d => some (encC m 0x6C 0 d.toNat 0)
  | .mma o ga l => some (encX o.park 0x70 0 o.ta.code o.tb.code o.tacc.code o.tacc.code (o.acc.toNat * 2 ^ 30 + o.ha.toNat * 2 ^ 26 +
      o.hb.toNat * 2 ^ 22 + b2n o.z * 2 ^ 21 + b2n ga * 2 ^ 20 + b2n l * 2 ^ 19))
  | .mmas o hm sp => some (encX o.park 0x71 0 o.ta.code o.tb.code o.tacc.code o.tacc.code (o.acc.toNat * 2 ^ 30 + o.ha.toNat * 2 ^ 26 +
      o.hb.toNat * 2 ^ 22 + b2n o.z * 2 ^ 21 + hm.toNat * 2 ^ 16 + b2n sp * 2 ^ 15))
  | .mgath p ta ha sb l => some (encX p 0x72 0 ta.code 0 0 0 (ha.toNat * 2 ^ 33 + sb.toNat * 2 ^ 24 + b2n l * 2 ^ 23))
  | .cmprs p ta ha hv hm sp => some (encX p 0x72 1 ta.code 0 0 0 (ha.toNat * 2 ^ 33 + hv.toNat * 2 ^ 29 + hm.toNat * 2 ^ 25 +
      b2n sp * 2 ^ 24))
  | .accz p t => some (encX p 0x73 0 0 0 0 0 (t.toNat * 2 ^ 30))
  | .accmv p t s => some (encX p 0x73 1 0 0 0 0 (t.toNat * 2 ^ 30 + s.toNat * 2 ^ 23))
  | .accld p ta t h => some (encX p 0x73 2 0 0 ta.code 0 (t.toNat * 2 ^ 30 + h.toNat * 2 ^ 26))
  | .epi o => some (encX o.park 0x74 0 0 0 o.tacc.code o.tres.code (o.acc.toNat * 2 ^ 30 + o.port.toNat * 2 ^ 28 + b2n o.now * 2 ^ 27 +
      b2n o.aos * 2 ^ 26 + o.tr.toNat * 2 ^ 20 + o.tc.toNat * 2 ^ 14 + o.rnd.code * 2 ^ 11 + b2n o.sat * 2 ^ 10))
  | .epset p n s => some (encX p 0x74 1 0 0 0 0 (n.toNat * 2 ^ 35 + s.toNat * 2 ^ 26))
  | .efork p n s => some (encX p 0x75 0 0 0 0 0 (n.toNat * 2 ^ 35 + s.toNat * 2 ^ 26))
  | .erdv p n => some (encX p 0x75 1 0 0 0 0 (n.toNat * 2 ^ 35))
  | .coll p s n => some (encX p 0x76 0 0 0 0 0 (s.toNat * 2 ^ 28 + n.toNat * 2 ^ 24))
  | .cwait p s n => some (encX p 0x76 1 0 0 0 0 (s.toNat * 2 ^ 28 + n.toNat * 2 ^ 24))
  | .rand m d c n f => some (encV m 0x78 0 d.toNat 0 n.toNat c.toNat (if f then 0 else 14) 0 false false)
  | .sample m d a b c => some (encV m 0x78 1 d.toNat a.toNat b.toNat c.toNat 0 0 false false)
  | .tokapp m a b => some (encV m 0x79 0 0 a.toNat b.num 0 0 0 false b.isSca)
  | .tokappD m a b => some (encV m 0x79 0 0 a.toNat b.num 1 0 0 false b.isSca)
  | .tokconf m a b => some (encV m 0x79 1 0 a.toNat b.num 0 0 0 false b.isSca)
  | .tokget m d b i => some (encV m 0x79 2 d.toNat 0 b.num i.toNat 0 0 false b.isSca)
  | .sloew m a b k => some (encV m 0x7A 0 0 a.toNat b.num k.toNat 0 0 false b.isSca)
  | .sloer m d b k => some (encV m 0x7A 1 d.toNat 0 b.num k.toNat 0 0 false b.isSca)
  | .sloeq m d b => some (encV m 0x7A 2 d.toNat 0 b.num 0 0 0 false b.isSca)
  | .csrr m r c => some (encC m 0x7C 0 r.toNat (c.toNat * 2 ^ 26))
  | .csrw m r c => some (encC m 0x7C 1 r.toNat (c.toNat * 2 ^ 26))
  | .csrs m v c => some (encC m 0x7C 2 v.enc.1 (c.toNat * 2 ^ 26 + v.enc.2))
  | .csrc m v c => some (encC m 0x7C 3 v.enc.1 (c.toNat * 2 ^ 26 + v.enc.2))
  | .rdtick m r => some (encC m 0x7C 4 r.toNat 0)
  | .trapf m => some (encC m 0x7D 0 0 0)
  | .trap m k => some (encC m 0x7D 1 0 k.toNat)
  | .sys m n r => some (encC m 0x7D 2 r.toNat n.toNat)
  | .bkpt m k => some (encC m 0x7D 3 0 k.toNat)
  | .halt m => some (encC m 0x7D 4 0 0)
  | .iret m => some (encC m 0x7D 5 0 0)
  | .tlbinv m r md t => some (encC m 0x7D 6 r.toNat (t.toNat * 4 + md.toNat))
  | .glaunch m r => some (encC m 0x7E 0 r.toNat 0)
  | .nop park => some (encC ⟨park, 0, false⟩ 0x7F 0 0 0)
  | .issueTurn .. | .sloeOperationComplete .. | .sequenceTrapDelivery .. | .regionCommit ..
  | .heldEffectPresentation .. | .strikeReport .. | .regionReentry .. | .atomicRetry ..
  | .loadReply .. | .atomicReply .. | .writeAck .. | .pageTableReadReturn .. | .poisonUpdate ..
  | .poisonClearNotice .. | .tlbInvalidationComplete .. | .hbmSectorAccess .. | .slackWindow ..
  | .refreshOutsideSlack .. | .errorCountDecay .. | .scheduleFault .. | .resyncBeacon ..
  | .superstepReexecution .. | .windowLanding .. | .drainSector .. | .drainComplete ..
  | .followOnIssue .. | .matrixCommandStart .. | .operandRelease .. | .accRetire ..
  | .versionCommit .. | .epilogueRow .. | .epilogueSend .. | .addOnStoreApply .. | .gatherStart ..
  | .gatherComplete .. | .streamCommandStart .. | .ecopy .. | .efill .. | .edrain .. | .emma ..
  | .ewait .. | .esig .. | .eloop .. | .eend .. | .copySectorLanding .. | .streamWaitEnd ..
  | .phaseComplete .. | .barrierComplete .. | .superstepBoundary .. | .dqWordPoppable ..
  | .poolEccError .. | .pairSelfTest .. | .collectiveStart .. | .collectiveSend ..
  | .collectiveReceive .. | .collectiveEnd .. | .flitSend .. | .flitReceive ..
  | .accessSlotSend .. | .switchForward .. | .orchardAccessApply .. | .mirrorUpdate ..
  | .acknowledgementWord .. | .switchFailure .. | .lostReply .. | .oallocComplete ..
  | .ofreeComplete .. | .trapDelivery .. | .firmwareFaultDelivery .. | .preemption ..
  | .automaticRestore .. | .notifyWrite .. | .packetHeaderRead .. | .waitPacketPoll ..
  | .launchVerdict .. | .gridStart .. | .packetRetire .. | .queueSwitchOut .. | .queueSwitchIn ..
  | .frameStart .. | .scheduleBeacon .. | .ptpTickLoad .. | .domnew .. | .domdel .. | .domset ..
  | .qnew .. | .qdel .. | .schload .. | .phset .. | .gpreempt .. | .gresume .. | .gkill ..
  | .sloenew .. | .sloedel .. | .kvbind .. | .ptmap .. | .ptunmap .. | .deferredEntryResolve ..
  | .unknownCommand .. | .dbgatt .. | .dbgdet .. | .haltreq .. | .resume .. | .staterd ..
  | .statewr .. | .wpset .. | .predload .. | .ctrset .. | .trring .. | .replay .. | .exitrd ..
  | .rlogrd .. | .counterLatch .. | .currantVerdict .. | .freeze .. | .freezeResume ..
  | .attest .. | .extload .. | .cfgrd .. | .cfgwr .. | .healthrd .. | .mbstatRead ..
  | .deviceReset .. | .functionLevelReset .. | .thermalTrip .. | .regulatorAlarm ..
  | .preemptionRequestWithdrawn .. | .lastFrameEnd .. | .collectivePresentationDeadline ..
  | .mirrorCopyBackComplete .. | .restoredGridResume .. | .ptpMessage .. | .mbcmdWriteWhileBusy .. => none

/-! The opcode table's numbering: a row's word is one 64-bit word. -/

/-- An issuer that may be given any instruction of a class: everything in range, and the boundary
and handler conditions met. -/
def Env.wide (front : Bool) (cls : Nat) : Env := ⟨front, cls, 512, 96, 1, true, true, false, false⟩

/-- The instruction that the decoder reads from a word, on the issuer that its opcode belongs to: the
front thread for the classes that only it runs and for the words that only it may issue, else a
warp (R153, R280). -/
def decodeAny (w : DWord) : Option Instr :=
  let cls := (opClass (fOp w)).getD 6
  match decode (Env.wide (cls == 0 || cls == 3) cls) w with
  | .ok i => some i
  | .error _ => match decode (Env.wide true cls) w with
    | .ok i => some i
    | .error _ => none

/-- The host's question: the instruction of a word given as a number, bit 0 the least significant
bit of the word's first byte; the bits above nbits are zero. -/
def decodeTableWord (nbits w : Nat) : Option Instr := decodeAny (BitVec.ofNat 64 (w % 2 ^ nbits))

end Sys2Proof
end

