-- ==== Sys2Proof/Config.lean ====
section
/-!
DEFINITION. What the device or its makers fix and the spec leaves open: free values without a body,
and the constants of this machine.
-/
namespace Sys2Proof.Config

/-- The n-th free value of a run: any 64-bit value (assumption log 4). -/
opaque freeValue : Nat → DWord

/-- The pod chip number of this chip, 0 to 1,023 (R151; log 5). -/
opaque chipNo : BitVec 10

/-- The ROM revision word that a quote carries and the measurement begins with (R458, R459; log 8). -/
opaque romWord : BitVec 32

/-- The chips of the pod, by pod chip number (R21, R151; log 5). -/
opaque podHas : Nat → Bool

/-- The choice among the results that a transcendental's error bound allows, a fixed function of the
function code and the operand's bits (R269; log 6). -/
opaque ulpChoice : Nat → Word → Nat

/-- Which candidate SAMPLE keeps when a running sum is NaN, as it is when the greatest logit is infinite: R353 states no
outcome (log 26). -/
opaque samplePick : List (Word × Word) → Nat

/-- The place that firmware prefers where the spec leaves the choice of a place open: from what is used and
the size asked for. A place that does not fit gives way to the lowest that does (R82, R83, R386; log 13). -/
opaque place : List (Nat × Nat) → Nat → Nat

/-- The 56-bit signature of an effect's kind and address in the Rind log (R198; log 7). -/
opaque signature : List Nat → BitVec 56

/-- Whether a signature over a digest holds under ML-DSA-87, and the device's own signature over one. The keys, which the
die's PUF, the maker and the owner hold, are in neither the spec nor the machine (R456 to R459; log 8). -/
opaque mldsaVerify : List Byte → List Byte → Bool
opaque mldsaSign : List Byte → List Byte

end Sys2Proof.Config
end

