-- ==== Sys2Proof/Machine/State.lean ====
section
/-!
DEFINITION. The state of one SCN-4768: plain data, every piece of state the spec names. Structures of
its parts come first, the machine `State` and the state after reset last.
-/
namespace Sys2Proof.Machine

/-- A map from keys to values in canonical form: keys strictly rising, no entry equal to what an
unlisted key reads as. -/
abbrev Sparse (α : Type) := List (Nat × α)

/-- Keys strictly rise and none is at or below the bound, and no value is the default. -/
def Sparse.wfFrom {α : Type} [DecidableEq α] (dflt : α) : Nat → Sparse α → Bool
  | _, [] => true
  | lo, (k, v) :: t => decide (lo ≤ k) && !decide (v = dflt) && Sparse.wfFrom dflt (k + 1) t
/-- The canonical form. -/
def Sparse.wf {α : Type} [DecidableEq α] (dflt : α) (m : Sparse α) : Bool := Sparse.wfFrom dflt 0 m

/-- What a byte of memory that nothing has written reads as: 0 (log 1). -/
def unlistedByte : Byte := 0
/-- Memory is in its canonical form. -/
def Memory.wf (m : Sparse Byte) : Bool := Sparse.wf unlistedByte m
/-- What the stamp of a sector that nothing has written reads as: unstamped (R61; log 1). -/
def unlistedStamp : BitVec 16 := 0xC000

/-- A destination of a register result: vector register, predicate, scalar register, uniform
predicate, the FLAGS bits, or FMASK. -/
inductive Tgt where
  | v (r : Nat) | p (r : Nat) | s (r : Nat) | g (r : Nat) | flags
  deriving DecidableEq, Repr

/-- No home: what a result of an instruction that reads none names. -/
def noHome : Nat := 9
/-- A result in flight (R160): it becomes visible at tick vis in the lanes listed. home: the space of the home
that it comes from (R296); itick: the tick at which its instruction issued (R161). -/
structure Pend where
  vis : Nat
  tgt : Tgt
  vals : List (Nat × DWord)
  rnum : Nat
  home : Nat
  itick : Nat
  deriving DecidableEq, Repr

/-- One lane of an access: its address as written, its space code, the physical place (a physical
address in spaces 0 to 3; core, then offset, in spaces 4 and 5) and its operands. -/
structure LaneAcc where
  lane : Nat
  va : DWord
  space : Nat
  pa : Nat
  ops : List DWord
  deriving DecidableEq, Repr

/-- A held effect (R177): the instruction with the operands captured at issue, its lanes, other
captured values, resolved window indices, its PC, issue tick and region. -/
structure Held where
  i : Instr
  lanes : List LaneAcc
  vals : List DWord
  wins : List Nat
  pc : Nat
  itick : Nat
  rnum : Nat
  deriving DecidableEq, Repr

/-- How a region was opened (R175, R184, R187): at the start, by an RGN, by a blocking point that has
completed, or by one that is performed again on re-entry. -/
inductive Opener where
  | start | rgn | block | again
  deriving DecidableEq, Repr

/-- An uncommitted region (R175 to R183), with what a discard restores (R167, R187, R257, R306, R370). -/
structure Region where
  num : Nat := 1
  opened : Nat := 0
  lastVis : Nat := 0
  closed : Option Nat := none
  mask : BitVec 32 := 0
  held : List Held := []
  filter : List Nat := []
  filterOv : Bool := false
  sbuf : List Nat := []
  atomic : Bool := false
  seqop : Bool := false
  wdefs : List Nat := []
  opener : Opener := .start
  pcs : List Nat := []
  dqpos : Nat := 0
  lc : DWord := 0
  phs : List (Nat × Nat × PhMode) := []
  ended : List Nat := []
  lastPcs : List Nat := []
  crcA : DWord := 0
  fenced : Bool := false
  deriving DecidableEq, Repr

/-- What happens before a point (R123): of each issuer named, the accesses that it issued before a tick. Only those
that are not performed yet matter. -/
abbrev Clock := List (Iss × Nat)

/-- Stage of a blocking point (R184): waiting for the commits, then in its own wait. -/
inductive Stage where
  | commit | wait
  deriving DecidableEq, Repr

/-- What an issuer waits for. -/
inductive Wait where
  /-- It runs. -/
  | run
  /-- The instruction at its PC issues again when it can (R157, R179, R183, R290, R309, R318, R339). -/
  | retry
  /-- A switch marker (R162). -/
  | marker
  /-- DQPOP for a word: destination and lanes (R166, R314). -/
  | dqpop (d : Nat) (lanes : List Nat)
  /-- A blocking point: the instruction, its stage, its active lanes, captured values, issue tick,
  and its PC. -/
  | block (i : Instr) (st : Stage) (lanes : List Nat) (vals : List DWord) (itick pc : Nat)
  /-- Until a tick. -/
  | until_ (t : Nat)
  /-- Elastic loads: until the request's reply (R31). -/
  | reply (req : Nat)
  /-- The acquire half, or in lean mode the release half, of a fence (R296). -/
  | fence (scope : Nat) (acq rel : Bool)
  /-- TRAPF until every result is visible (R368): tested lanes' PC has not advanced. -/
  | trapf
  /-- TLBINV until the invalidation completes (R32, R369). -/
  | inv (id : Nat)
  /-- A fault is in delivery, or firmware must resolve it (R33, R402). -/
  | fault
  /-- Stopped: pre-empted, halted by debug, or terminated. -/
  | stopped
  /-- It has no live thread, and its slot is empty. -/
  | ended
  deriving DecidableEq, Repr

/-- A trap record (R403): eight dwords. -/
abbrev Rec := List DWord

/-- The retry record of a returning atomic (R188). -/
structure Retry where
  h : Held
  req : Nat
  again : Bool
  deriving DecidableEq, Repr

/-- One issuer of a core (R153). mark: a switch marker holds after the wait that stands (R162). hb: the accesses of others that
happen before what it does next; domAt: the tick of its last scratchpad access or load result, which
comes after everything that its cluster presented before (R119, R123); late: from its bound on, and up to what tick, an
elastic issuer lacks a load's reply (R31). -/
structure Issuer where
  slot : Nat := 0
  block : Nat := 0
  bidx : Nat := 0
  pcs : List Nat := []
  meets : List (BitVec 32) := []
  ended : List Nat := []
  preds : Sparse Bool := []
  vregs : Sparse Word := []
  pend : List Pend := []
  flags : DWord := 0
  flagen : DWord := 0
  seed : DWord := 0
  fmask : DWord := 0
  trapvec : DWord := 0
  rcount : Nat := 0
  rlimit : Nat := 3
  rnum : Nat := 1
  regions : List Region := []
  presq : List Held := []
  presBusy : Bool := false
  redo : Option Region := none
  dqpos : Nat := 0
  phs : List (Nat × Nat × PhMode) := []
  wait : Wait := .run
  mark : Bool := false
  defAt : Option (Nat × Nat) := none
  nextAt : Nat := 0
  entered : Bool := false
  delay : Nat := 0
  hidden : List Nat := []
  retPc : List Nat := []
  trapRec : Rec := []
  trapSel : List Nat := []
  retry : Option Retry := none
  fenced : Bool := false
  lastCommit : Nat := 0
  presented : Nat := 0
  suppress : List (Bool × Nat × List (Nat × DWord)) := []
  erdvs : List Nat := []
  flushed : Bool := false
  hb : Clock := []
  domAt : Nat := 0
  late : Option (Nat × Nat) := none
  deriving DecidableEq, Repr

/-- Window states (R48). -/
inductive WState where
  | absent | filling | full | draining | free | faulted
  deriving DecidableEq, Repr

/-- A producer word (R49). -/
structure Prod where
  kind : Nat := 0
  valid : Bool := false
  pid : Nat := 0
  share : Nat := 0
  count : Nat := 0
  deriving DecidableEq, Repr

/-- A window entry (R48). -/
structure Win where
  v : Bool := false
  state : WState := .absent
  psn : Bool := false
  arm : Bool := false
  hfs : Bool := false
  ty : Nat := 0
  sbase : Nat := 0
  rows : Nat := 0
  home : DWord := 0
  hstride : Int := 0
  rbytes : Nat := 0
  sstride : Nat := 0
  sclhome : DWord := 0
  scloff : Nat := 0
  scllen : Nat := 0
  follow : DWord := 0
  ftick : Nat := 0
  prods : List Prod := []
  followWins : List Nat := []
  armAt : Nat := 0
  armIss : Option Held := none
  fault : Option Rec := none
  seq : Nat := 0
  toucher : Option (Iss × Nat × Nat) := none
  deriving DecidableEq, Repr

/-- What a handle is bound to (R48, R281, R299). -/
inductive Handle where
  | unbound
  | idx (n : Nat)
  | refused (reason : Nat) (image : Rec)
  deriving DecidableEq, Repr

/-- A command that the window engine holds for a window (R302, R320). -/
structure WCmd where
  h : Held
  win : Nat
  slot : Nat
  deriving DecidableEq, Repr

/-- A drain or home fill under way: window, next sector, sectors in flight, by whom (R302, R54). -/
structure Xfer where
  win : Nat
  next : Nat
  total : Nat
  done : Nat
  slot : Nat
  h : Option Held
  stm : Option Nat
  deriving DecidableEq, Repr

/-- A pending version of an accumulator tile in the retire buffer (R37, R331). stale: that of a later-started command on
the tile has committed, so this one's words are no longer the tile's. -/
structure Ver where
  id : Nat
  tile : Nat
  presented : Nat
  start : Nat
  retireAt : Nat
  retired : Bool
  data : List (Nat × Word)
  stale : Bool
  h : Held
  deriving DecidableEq, Repr

/-- A matrix command in the queue: its captured instruction, sequence number, stream if any. -/
structure MCmd where
  h : Held
  seq : Nat
  at_ : Nat
  stm : Option Nat
  deriving DecidableEq, Repr

/-- An operand lock: a window's scratchpad bytes, as ranges from a byte up, until the release tick (R53, R320); none
while the command has not started. -/
structure Lock where
  id : Nat
  win : Nat
  until_ : Option Nat
  spans : List (Nat × Nat)
  deriving DecidableEq, Repr

/-- A gather latch (R328). -/
structure Latch where
  ty : Option Ty := none
  rows : List (List Byte) := []
  scales : List (List Byte) := []
  fault : Option Rec := none
  deriving DecidableEq, Repr

/-- An epilogue port (R332). -/
structure Port where
  base : DWord := 0
  rstride : Int := 0
  alpha : Word := 0
  sclbase : DWord := 0
  srowb : Nat := 0
  idx : Word := 0
  seq : Nat := 0
  deriving DecidableEq, Repr

/-- An armed epilogue (R333). -/
structure Arming where
  tile : Nat
  e : EpiF
  port : Port
  at_ : Nat
  h : Held
  seq : Nat
  deriving DecidableEq, Repr

/-- An epilogue under way (R336). -/
structure EpJob where
  id : Nat
  e : EpiF
  port : Port
  data : List (Nat × Word)
  row : Nat
  firstRow : Nat
  verId : Option Nat
  sends : List (DWord × List Byte)
  sent : Nat
  sendBase : Nat
  flags : BitVec 5
  stopped : Bool
  h : Held
  seq : Nat
  deriving DecidableEq, Repr

/-- A copy of a stream under way (R341). -/
structure Copy where
  id : Nat
  len : Nat
  src : DWord
  dst : DWord
  done : Nat
  psn : Bool
  deriving DecidableEq, Repr

/-- Why a stream stands (R339, R342). -/
inductive SWait where
  | ready | until_ (t : Nat) | window (n : Nat) | phaser (ph : Nat) | sig | end_
  deriving DecidableEq, Repr

/-- An engine-program stream (R339, R340). -/
structure Stream where
  running : Bool := false
  pos : Nat := 0
  lc : Nat := 0
  iter : Nat := 0
  wait : SWait := .ready
  copies : List Copy := []
  psn : Bool := false
  fault : Option Rec := none
  h : Option Held := none
  seq : Nat := 0
  pc0 : Nat := 0
  hb : Clock := []
  deriving DecidableEq, Repr

/-- A collective slot of a core (R345, R348). -/
structure CSlot where
  cid : Option Nat := none
  status : Nat := 3
  reason : Nat := 0
  queue : List Held := []
  fault : Option Rec := none
  seq : Nat := 0
  deriving DecidableEq, Repr

/-- What a Rind log slot saves (R196, R197). -/
inductive LogSlot where
  | scratch (sector : Nat) (bytes : List Byte) (init psn : Bool)
  | vreg (slot reg grp : Nat) (vals : List Word)
  | acc (tile : Nat) (vals : List (Nat × Word))
  deriving DecidableEq, Repr

/-- What is written to a Rind slot (R196, R198): a sector's old contents, the record of an issuer's effect of some ordinal, or
such an effect's results. -/
inductive RindItem where
  | old (l : LogSlot)
  | effect (issuer ord : Nat) (sig : BitVec 56)
  | results (issuer ord : Nat) (vals : List DWord)
  deriving DecidableEq, Repr

/-- A Rind interval of a block (R195 to R201): the snapshot, the log newest first, the effects of each issuer in order (issuer,
whether it is a blocking point's outcome, signature, results by lane), whether it overflowed or is the superstep interval, its
part of the area, its next free slot, the slots of its effect records (issuer, ordinal / 8, slot), and what it has to write to
HBM, by slot. -/
structure Ival where
  opened : Nat := 0
  estAt : Nat := 0
  superstep : Bool := false
  issuers : List Issuer := []
  log : List LogSlot := []
  overflow : Bool := false
  effects : List (Nat × Bool × BitVec 56 × List (Nat × DWord)) := []
  sregs : Sparse DWord := []
  gpreds : List Bool := []
  lc : DWord := 0
  wins : List (Nat × Win) := []
  handles : List Handle := []
  dq : List (Nat × DWord) := []
  dqBase : Nat := 0
  rolls : Nat := 0
  poison : Nat := 0
  part : Nat := 0
  used : Nat := 0
  effSlots : List (Nat × Nat × Nat) := []
  sent : List (Nat × RindItem) := []
  deriving DecidableEq, Repr

/-- A block of a core, with the place of its Rind area in HBM (R149, R195, R196, R304, R414). -/
structure Block where
  num : Nat := 0
  idx : Nat := 0
  arrived : List (Nat × Nat) := []
  doneAt : Option Nat := none
  ivals : List Ival := []
  rolls : Nat := 0
  sloss : Bool := false
  fchip : BitVec 16 := 0
  fsw : BitVec 2 := 0
  spsn : Bool := false
  slost : Bool := false
  status : Nat := 0
  ended : Bool := false
  exitRec : Option Rec := none
  hb : Clock := []
  area : Option Nat := none
  deriving DecidableEq, Repr

/-- One bank that an access uses in one pass (R41): the pass's tick, core * 32 + slot of its issuer, whether it is a
cluster access, the bank, the tick of its result, and whether its issuer goes on after its passes. -/
structure BankUse where
  tick : Nat
  src : Nat
  cross : Bool
  bank : Nat
  vis : Nat
  turn : Bool
  deriving DecidableEq, Repr

/-- One logical core (R149 to R169). priv: a service core, whose accesses are privileged (R4, R19). -/
structure Core where
  cl : Nat := 0
  co : Nat := 0
  priv : Bool := false
  active : Bool := false
  partw : DWord := 0
  ptbase : DWord := 0
  dcbptr : DWord := 0
  modew : DWord := 0x100
  launch : Nat := 0
  grid : Option Nat := none
  imgBase : Nat := 0
  imgSize : Nat := 0
  bpc : Nat := 1
  wpb : Nat := 1
  fv : Bool := false
  fill : Nat := 1
  boundary : Bool := false
  phBase : Nat := 0
  phCnt : Nat := 0
  halt : Bool := false
  sregs : Sparse DWord := []
  gpreds : List Bool := []
  lc : DWord := 0
  issuers : List Issuer := []
  rotSlot : Nat := 0
  rotAt : Nat := 0
  inTurn : Bool := false
  wins : List (Nat × Win) := []
  handles : List Handle := []
  wcmds : List WCmd := []
  drains : List Xfer := []
  fills : List Xfer := []
  dq : List (Nat × DWord) := []
  dqBase : Nat := 0
  scInit : Sparse Bool := []
  scPsn : Sparse Bool := []
  banks : List BankUse := []
  accC : Sparse Word := []
  vers : List Ver := []
  matq : List MCmd := []
  matBusy : Nat := 0
  matSeq : Nat := 0
  tileFault : List (Nat × Rec) := []
  locks : List Lock := []
  lockId : Nat := 0
  latches : List Latch := []
  gatq : List MCmd := []
  gatBusy : Nat := 0
  gatSeq : Nat := 0
  gatRun : Option MCmd := none
  ports : List Port := []
  arms : List Arming := []
  jobs : List EpJob := []
  jobId : Nat := 0
  epiRowEnd : Nat := 0
  streams : List Stream := []
  efq : List (Nat × Held) := []
  copyId : Nat := 0
  strAt : Nat := 0
  cslots : List CSlot := []
  blocks : List Block := []
  parked : List Nat := []
  deriving DecidableEq, Repr

/-- A TLB entry (R25, R28): tenant, level, virtual page, the entry word, its poison bits, and whether
it is a whole page marked clean. -/
structure TlbE where
  tenant : Nat
  level : Nat
  vpn : Nat
  pte : DWord
  ptePa : Nat
  psn : BitVec 8
  whole : Bool
  deriving DecidableEq, Repr

/-- Where a walk stands: in the lookup of the shared TLB, waiting for a walk slot, or reading (R29, R30). -/
inductive WalkStage where
  | lookup | waits | reads
  deriving DecidableEq, Repr

/-- A TLB miss under way (R28 to R30): the clusters that have missed, the entry it ends with, whether that is
installed or an invalidation caught it, the tick of the miss and its place among those of one tick, where it
stands, and whether the shared TLB had the entry. -/
structure Walk where
  id : Nat
  cls : List Nat
  e : TlbE
  install : Bool
  missed : Nat
  key : Nat
  stage : WalkStage
  shared : Bool
  deriving DecidableEq, Repr

/-- A TLB invalidation in flight (R32): the walks it waits for, and what goes on after it: an issuer, and happenings
that firmware holds back until then. -/
structure Inv where
  id : Nat
  walks : List Nat
  w : Option Iss
  next : List (Iss × Instr)
  deriving DecidableEq, Repr

/-- A member of a phaser (R308): an issuer's slot or a stream, its cluster, mode, positions, whether
it is in effect or leaving, and the signals kept until it is in effect: each one's tick and poison. -/
structure Member where
  who : Iss
  q : Nat
  stm : Bool
  mode : PhMode
  s : Nat
  v : Nat
  inEffect : Bool
  drop : Bool
  kept : List (Nat × Bool)
  deriving DecidableEq, Repr

/-- A phaser entry (R307); hb, hb1 and hbh: the accesses that happen before the end of the phase, of the next one, and
of the last four (R125); lastSig, lastSig1: the ticks of the newest signals counted for PHASE and for PHASE + 1; due: the
tick at which the phase completes, once every member has signalled (R309); tickSig: the tick of the newest signal, and the signals of that tick that count for PHASE and for
PHASE + 1 (R308). -/
structure Phaser where
  hb : Clock := []
  hb1 : Clock := []
  hbh : List Clock := []
  phase : Nat := 0
  nsig : Nat := 0
  arr : Nat := 0
  arr1 : Nat := 0
  psn : Bool := false
  psn1 : Bool := false
  phist : BitVec 4 := 0
  mcl : DWord := 0
  mclh : List DWord := []
  members : List Member := []
  lastSig : Nat := 0
  lastSig1 : Nat := 0
  lastDone : Nat := 0
  due : Option Nat := none
  tickSig : Nat × Nat × Nat := (0, 0, 0)
  deriving DecidableEq, Repr

/-- A sequence slot (R355, R356): 272 dwords, the staged forced tokens, and the KV ranges bound
to it (R374). -/
structure Slot where
  dw : Sparse DWord := []
  staged : List Word := []
  dom : Nat := 0
  kv : List (DWord × Nat) := []
  deriving DecidableEq, Repr

/-- Kinds of access in flight to memory outside the cores. -/
inductive ReqKind where
  | load | store | red | atom | fill | drain | send | aos | copyRd | copyWr | ring | notify | coll | stamp
  deriving DecidableEq, Repr

/-- An access in flight (R58, R62, R76, R286 to R295): who made it, the captured instruction, its
lanes, the results so far by lane, the tick at which it becomes visible or its bound, the sectors
still to be applied, how the reply stands, whether it has been reported as late (R68), the sector stamps that came back by lane (R145; an engine's write has
its own address first), whether the
allocation is mirrored (R88), whether the access is an acquire (R129), an engine write's offset in its sector, the
first sector it was sent for, the walks that it waits for (R29), the acknowledgements or sectors still to come back, the
poisoned sectors (R24), the accesses that happen before it, the tick up to which those of its cluster do (R125), whether it is a
synchronising access (R144), and whether it carries Relaxed Ordering (R141). -/
structure Req where
  id : Nat
  kind : ReqKind
  w : Iss
  h : Held
  space : Nat
  dest : List (Nat × Nat)
  lanes : List LaneAcc
  results : List (Nat × List DWord)
  issued : Nat
  bound : Nat
  sectors : List Nat
  psn : Bool
  stat : Nat
  rnum : Nat
  tenant : Nat
  chk : Bool
  arrived : Bool
  data : List Byte
  aux : Nat
  stamps : List (Nat × Nat) := []
  mir : Bool := false
  acq : Bool := false
  off : Nat := 0
  fsw : Nat := 0
  fchip : Nat := 0
  home : Nat := 0
  walks : List Nat := []
  acks : Nat := 1
  badSecs : List Nat := []
  hb : Clock := []
  domAt : Nat := 0
  sync : Bool := false
  ro : Bool := false
  deriving DecidableEq, Repr

/-- Controller state of one stack (R65 to R73): row counters, remap entries, refresh backlogs by bank, transfers to be
repeated (access, sector, failures), sectors to be written back, copies under way (entry, next column), the
patrol's next row, whether spares are exhausted, the tick of the patrol's last row, the tick up to which refresh
intervals are counted. -/
structure Stack where
  errs : List (Nat × Nat) := []
  remap : List (Nat × DWord) := []
  backlog : List (Nat × Nat) := []
  repeats : List (Nat × Nat × Nat) := []
  writebacks : List Nat := []
  copies : List (Nat × Nat) := []
  patrol : Nat := 0
  exhausted : Bool := false
  patrolAt : Nat := 0
  refreshAt : Nat := 0
  deriving DecidableEq, Repr

/-- An island's operating point and its skipped ticks (R158, R394, R454). -/
structure Island where
  point : Nat := 0
  skip : Nat := 0
  deriving DecidableEq, Repr

/-- The core map of a cluster, and the core and cluster that its COREMAP register selects (R171, R172). -/
structure CoreMap where
  phys : List (Nat × Nat) := []
  fenced : List Nat := []
  lsel : Nat := 0
  clsel : Nat := 0
  deriving DecidableEq, Repr

/-- A cluster's part of the chip: pair mode (R206), synced-with state (R146), TLB (R28), core map, the ticks of strikes
reported to it (R192), and the accesses that happen before what its cores do next (R125). -/
structure Cluster where
  cl : Nat := 0
  pairst : DWord := 0
  mask : DWord := 0
  ranges : List (DWord × DWord) := []
  allcov : Bool := false
  tlb : List TlbE := []
  cmap : CoreMap := {}
  mism : List (Nat × Nat) := []
  strikes : List Nat := []
  hb : Clock := []
  deriving DecidableEq, Repr

/-- A collective under way at this chip (R429 to R434). outs: the transfers made, by hop and chunk; hb: the accesses that
happen before it; phase: the phase of its completion phaser that its end signals (R349). -/
structure Coll where
  id : Nat
  owner : Option Iss
  slot : Nat
  h : Option Held
  block : List DWord
  ranks : Nat
  rank : Nat
  started : Bool
  outs : List Nat
  acc : List (Nat × Word)
  got : List (Nat × Nat)
  status : Nat
  reason : Nat
  ended : Bool
  phaser : Option Nat
  rx : List DWord := []
  txAt : Nat := 0
  psn : Bool := false
  hb : Clock := []
  phase : Nat := 0
  deriving DecidableEq, Repr

/-- The loaded schedule table as firmware installed it (R394 to R398): its words and place, whether it
runs, the frame in force with its start and length, the first frame of the superstep in force with its
start, the start of the newest phase, a resynchronisation due, how many have followed each other, the table that takes over at a tick,
and whether a schedule fault of the superstep is reported and counts towards the limit. -/
structure Sched where
  words : List DWord := []
  pa : Nat := 0
  loaded : Bool := false
  running : Bool := false
  frame : Nat := 0
  frameStart : Nat := 0
  frameLen : Nat := 0
  ssFirst : Nat := 0
  ssStart : Nat := 0
  phbStart : Nat := 0
  resync : Option Nat := none
  resyncs : Nat := 0
  next : Option (Nat × Nat × List DWord) := none
  faulted : Bool := false
  nocount : Bool := false
  deriving DecidableEq, Repr

/-- The chip's shared units. -/
structure Chip where
  sstep : DWord := 0
  orchst : DWord := 0
  psnbase : DWord := 0
  clusters : List Cluster := []
  shTlb : List TlbE := []
  walks : List Walk := []
  invs : List Inv := []
  ids : Nat := 0
  phasers : List (Nat × Phaser) := []
  slots : List (Nat × Slot) := []
  reqs : List Req := []
  colls : List Coll := []
  hbm : List (Nat × Stack) := []
  islands : List (Nat × Island) := []
  sched : Sched := {}
  replog : Bool := false
  deriving DecidableEq, Repr

/-- Fabric and Orchard state (R74 to R92, R420 to R428): among it the accesses queued for and in each switch (access and
sector), the sectors on each switch's mirror link (access, sector, bytes), the replay filter (issuer, region number, old
values by lane), and the controllers of the switches' DRAM (R79). -/
structure Net where
  portq : List (Nat × List (Nat × Nat)) := []
  swq : List (Nat × List (Nat × Nat)) := []
  mirq : List (Nat × List (Nat × Nat × List Byte)) := []
  sendq : List (Nat × List Flit) := []
  sent : List (Nat × Flit) := []
  filter : List (Nat × Nat × List (Nat × DWord)) := []
  opsn : List Nat := []
  rpsn : List Nat := []
  circuits : List Nat := []
  failed : List Nat := []
  copyback : List Nat := []
  dram : List (Nat × Stack) := []
  isolated : Bool := false
  deriving DecidableEq, Repr

/-- A domain control block (R375, R376): its number, parent, fields as dwords, and use counters. -/
structure Dom where
  id : Nat
  parent : Option Nat
  dw : List DWord
  used : List (Nat × Nat)
  dbg : Bool
  halted : Bool
  deriving DecidableEq, Repr

/-- A user queue (R377 to R382): its number is function * 64 + queue; next is the index of the next header
to read, offered the end that NOTIFY has offered, shadow the offered end while it is switched out (2^32
marks an error). -/
structure UQueue where
  id : Nat
  dom : Nat
  ring : DWord
  rlog2 : Nat
  ridx : Nat
  offered : Nat
  lstat : Nat
  qstate : Nat
  progress : DWord
  resident : Bool
  shadow : Option Nat
  next : Nat
  deriving DecidableEq, Repr

/-- An Orchard allocation (R82 to R85): its virtual base, rounded size, physical base, domain, the level of its leaves, and
whether it is lost (R92). -/
structure Alloc where
  va : Nat
  size : Nat
  pa : Nat
  mir : Bool
  dom : Nat
  level : Nat
  lost : Bool
  deriving DecidableEq, Repr

/-- A packet that firmware has accepted, and its grid (R383 to R390): state 0 checking, 1 waiting, 2 running,
3 pre-empted, 4 ended, 5 terminated, 6 refused, 7 to be resumed; the packet's ring index, the map's header and
entries, the acceptance tick, the image's place in the code store of each cluster; preq is the launch or command that asked for
pre-emption; areas are the Rind areas of its blocks here, by index in the pool (R196); remote holds while parts on other chips run. -/
structure Grid where
  id : Nat
  launch : Nat
  dom : Nat
  queue : Option Nat
  packet : List DWord
  cores : List (Nat × Nat)
  start : Nat
  state : Nat
  rstat : Nat
  reason : Nat
  origin : Option Iss
  exits : List Rec
  sdwords : List DWord
  preq : Option Nat
  halted : Bool
  idx : Nat := 0
  map : List DWord := []
  ents : List Nat := []
  at_ : Nat := 0
  imgs : List (Nat × Nat) := []
  remote : Bool := false
  retired : Bool := false
  preqAt : Nat := 0
  areas : List Nat := []
  deriving DecidableEq, Repr

/-- A saved context (R417, R418): the grid, its cores as they stood with their scratchpads' bytes and the
happenings that were theirs, the phasers of its range, the capacity vectors, the save tick, and whether a
launch asked for it, so that it is restored without a command. -/
structure SavedCtx where
  grid : Nat
  cores : List Core
  caps : List DWord
  auto_ : Bool
  mem : List (Nat × Byte) := []
  agenda : List (Nat × Iss × Instr) := []
  phasers : List (Nat × Phaser) := []
  at_ : Nat := 0
  deriving DecidableEq, Repr

/-- One function's mailbox (R449, R450). -/
structure MBox where
  fn : Nat
  args : List DWord := []
  res : List DWord := []
  busy : Bool := false
  ovr : Bool := false
  cmd : Nat := 0
  deriving DecidableEq, Repr

/-- Firmware's state: among it the fenced cores of the health record (cluster, position), the time and thermal
alarms (kind, value), degraded stacks, and the tick since which every beacon was within 4 ticks. -/
structure Fw where
  boot : Nat := 0
  meas : BitVec 512 := 0
  cfg : List (Nat × List Byte) := []
  health : List (Nat × Nat) := []
  extVer : Nat := 0
  doms : List Dom := []
  queues : List UQueue := []
  roots : List (Nat × Nat) := []
  grids : List Grid := []
  ctxs : List SavedCtx := []
  cmds : List (Nat × Cmd) := []
  nextCmd : Nat := 0
  mbox : List MBox := []
  msix : List (Nat × Nat) := []
  allocs : List Alloc := []
  orchq : List Iss := []
  cmdRes : Option DWord := none
  tblNext : Nat := 0
  logs : List Rec := []
  faults : List (Nat × Rec × Option Iss) := []
  ptpLocked : Bool := false
  offset : Int := 0
  nextDom : Nat := 1
  nextQ : Nat := 0
  nextGrid : Nat := 0
  nextFault : Nat := 0
  deferred : List (Nat × Nat) := []
  alarms : List (Nat × Int) := []
  degraded : List Nat := []
  locked : Option Nat := none
  deriving DecidableEq, Repr

/-- A watch hit under evaluation (R444, R445). -/
structure Eval where
  id : Nat
  range : Nat
  w : Iss
  eng : Bool
  rnum : Nat
  verdict : Bool
  flags : Nat
  task : Nat
  addr : DWord
  pc : Nat
  ret : Bool
  hit : Nat
  ctx : Bool
  deriving DecidableEq, Repr

/-- Debug state (R439 to R447). -/
structure Dbg where
  counters : List (Nat × DWord) := []
  sels : List (Nat × Nat) := []
  k : Nat := 0
  ringBase : Nat := 0
  ringSize : Nat := 0
  ringMode : Nat := 0
  ringTenant : Nat := 0
  ringCl : Nat := 0
  widx : Nat := 64
  lost : Nat := 0
  watches : List (Nat × List DWord) := []
  currant : List (Nat × List DWord) := []
  /-- Hits under evaluation: number, range, who, engine (0 for a thread), region, verdict with its flags, record. -/
  evals : List Eval := []
  nextEval : Nat := 0
  /-- Engine commands that have fired a range: range, core, task. -/
  fired : List (Nat × Iss × Nat) := []
  halted : List Nat := []
  stopped : List Iss := []
  snapTick : Nat := 0
  snap : List SavedCtx := []
  rlogOn : Bool := false
  rlogBase : Nat := 0
  rlogIdx : Nat := 0
  rlog : List (List DWord) := []
  replaying : Bool := false
  /-- Replies and acknowledgements that a replay has still to present, and the function that started it (R447). -/
  replies : List (List DWord) := []
  replayFn : Option Nat := none
  snapIds : Nat := 0
  deriving DecidableEq, Repr

/-- The machine. -/
structure State where
  /-- TICK, the 64-bit counter (R4). -/
  tick : Nat := 0
  /-- The issuer whose instruction runs, or the object that a happening acts on: a numbered object of
  a core, or of the chip (the number alone); the model's own field. -/
  cur : Iss := ⟨0, 0, 16⟩
  /-- Happenings that the machine has set itself, each with its tick. -/
  agenda : List (Nat × Iss × Instr) := []
  /-- Happenings of outside parties, in the order they arrive. -/
  inbox : List (Nat × Iss × Instr) := []
  /-- Every byte of memory (the layout of its keys is in Machine/Mem.lean). -/
  mem : Sparse Byte := []
  /-- The stamps of HBM sectors (R60). -/
  stamps : Sparse (BitVec 16) := []
  cores : List Core := []
  chip : Chip := {}
  net : Net := {}
  fw : Fw := {}
  dbg : Dbg := {}
  /-- Counter of free values (the model's own field, log 4). -/
  freeCnt : Nat := 0
  /-- Module power (R455). -/
  powered : Bool := true
  /-- The tick at which a freeze took hold (R436). -/
  frozen : Option Nat := none
  deriving DecidableEq, Repr

/-- Reasons for which a step stops. -/
inductive Fault where
  /-- The module has no power after a thermal trip (R455): raised by `step`. Safe: nothing runs. -/
  | poweredOff
  deriving DecidableEq, Repr

/-- Reasons for which an instruction is not carried out. -/
inductive Refusal where
  /-- The instruction has no meaning in the model yet: raised by its arm of `exec`. Safe. -/
  | notModelled (mnemonic : String)
  deriving DecidableEq, Repr

/-- The machine right after a device reset: the ROM's boot is the first happening (R456; log 2). -/
def State.reset : State := { agenda := [(0, ⟨0, 0, 0⟩, .deviceReset)] }

end Sys2Proof.Machine
end

