-- ==== Sys2Proof/Machine/Mem.lean ====
section
/-!
DEFINITION. Sparse maps, bytes of memory, and numbers in little-endian order (R109).
-/
namespace Sys2Proof.Machine

/-- What key n reads as. -/
def Sparse.get {α : Type} (d : α) : Sparse α → Nat → α
  | [], _ => d
  | (k, v) :: t, n => if n = k then v else if n < k then d else Sparse.get d t n

/-- Write x at key n and keep the canonical form. -/
def Sparse.set {α : Type} [DecidableEq α] (d : α) : Sparse α → Nat → α → Sparse α
  | [], n, x => if x = d then [] else [(n, x)]
  | (k, v) :: t, n, x =>
    if n < k then (if x = d then (k, v) :: t else (n, x) :: (k, v) :: t)
    else if n = k then (if x = d then t else (n, x) :: t)
    else (k, v) :: Sparse.set d t n x

/-! Keys of memory: HBM by 52-bit physical address, then Orchard, host memory, scratchpads by cluster,
core and offset, and code stores by cluster and offset (R9, R14, R37, R39). -/
def keyHbm (pa : Nat) : Nat := pa
def keyOrch (pa : Nat) : Nat := 2 ^ 60 + pa
def keyHost (a : Nat) : Nat := 2 * 2 ^ 60 + a
def keySp (cl co off : Nat) : Nat := 3 * 2 ^ 60 + ((cl * 64 + co) * 2 ^ 24 + off)
def keyCode (cl off : Nat) : Nat := 4 * 2 ^ 60 + (cl * 2 ^ 22 + off)

/-- One byte of memory. -/
def State.byte (s : State) (k : Nat) : Byte := Sparse.get unlistedByte s.mem k
/-- Write one byte of memory. -/
def State.setByte (s : State) (k : Nat) (b : Byte) : State :=
  { s with mem := Sparse.set unlistedByte s.mem k b }
/-- n bytes from key k up. -/
def State.bytes (s : State) (k : Nat) : Nat → List Byte
  | 0 => []
  | n + 1 => s.byte k :: State.bytes s (k + 1) n
/-- Write bytes from key k up. -/
def State.setBytes (s : State) (k : Nat) : List Byte → State
  | [] => s
  | b :: t => State.setBytes (s.setByte k b) (k + 1) t

/-- Insert an element before the first that it may precede. -/
def insertBy {α : Type} (le : α → α → Bool) (x : α) : List α → List α
  | [] => [x]
  | y :: t => if le x y then x :: y :: t else y :: insertBy le x t
/-- A list in order; elements that may precede each other keep theirs. -/
def sortBy {α : Type} (le : α → α → Bool) : List α → List α
  | [] => []
  | x :: t => insertBy le x (sortBy le t)

/-- Little-endian value of bytes (R109). -/
def leNat : List Byte → Nat
  | [] => 0
  | b :: t => b.toNat + 256 * leNat t
/-- The n low bytes of a number, little-endian. -/
def toBytes : Nat → Nat → List Byte
  | 0, _ => []
  | n + 1, v => BitVec.ofNat 8 (v % 256) :: toBytes n (v / 256)
/-- The 8 bytes at key k as a dword. -/
def State.dword (s : State) (k : Nat) : DWord := BitVec.ofNat 64 (leNat (s.bytes k 8))
/-- n dwords from key k up. -/
def State.dwords (s : State) (k : Nat) : Nat → List DWord
  | 0 => []
  | n + 1 => s.dword k :: State.dwords s (k + 8) n

/-- The n bits of a dword from bit lo up. -/
def bits (d : DWord) (lo n : Nat) : Nat := d.toNat / 2 ^ lo % 2 ^ n
/-- One bit of a dword. -/
def bit (d : DWord) (k : Nat) : Bool := d.toNat / 2 ^ k % 2 == 1
/-- d with the n bits from lo up replaced by v. -/
def setBits (d : DWord) (lo n v : Nat) : DWord :=
  BitVec.ofNat 64 (d.toNat - bits d lo n * 2 ^ lo + v % 2 ^ n * 2 ^ lo)
/-- Two's complement value of the n low bits of v. -/
def sext (n v : Nat) : Int := if v % 2 ^ n < 2 ^ (n - 1) then (v % 2 ^ n : Nat) else (v % 2 ^ n : Nat) - (2 ^ n : Nat)
/-- A whole number as a dword, modulo 2^64. -/
def dw (n : Int) : DWord := BitVec.ofInt 64 n

/-- Element i of a list. -/
def nth {α : Type} (l : List α) (i : Nat) (d : α) : α := (l[i]?).getD d
/-- l with element i replaced; l is first filled up with d. -/
def setNth {α : Type} (d : α) : List α → Nat → α → List α
  | [], 0, x => [x]
  | [], n + 1, x => d :: setNth d [] n x
  | _ :: t, 0, x => x :: t
  | h :: t, n + 1, x => h :: setNth d t n x
/-- A key's value in an unordered table. -/
def assoc {α : Type} (l : List (Nat × α)) (k : Nat) : Option α :=
  match l with
  | [] => none
  | (a, x) :: t => if a = k then some x else assoc t k
/-- The table with key k set to x. -/
def assocSet {α : Type} : List (Nat × α) → Nat → α → List (Nat × α)
  | [], k, x => [(k, x)]
  | (a, y) :: t, k, x => if a = k then (k, x) :: t else (a, y) :: assocSet t k x
/-- The table without key k. -/
def assocDel {α : Type} (l : List (Nat × α)) (k : Nat) : List (Nat × α) := l.filter (fun e => e.1 ≠ k)

end Sys2Proof.Machine
end

