-- ==== Sys2Proof/Machine/Ops.lean ====
section
/-!
DEFINITION. The operations that the meanings share: finding cores and issuers, reading registers as
they are visible at a tick, results in flight, regions and their discard, traps, and the end of an
instruction (PC, turn, park).
-/
namespace Sys2Proof.Machine

abbrev Out := Host.Outcome State Fault Refusal

/-! ### Time, happenings and free values -/

/-- Set a happening for a tick. -/
def State.sched (s : State) (t : Nat) (o : Iss) (i : Instr) : State :=
  { s with agenda := s.agenda ++ [(t, o, i)] }
/-- A numbered object of the chip. -/
def obj (n : Nat) : Iss := ⟨0, 0, n⟩
/-- A free value from 0 to n (log 4), and the state with the counter advanced. -/
def State.free (s : State) (n : Nat) : Nat × State :=
  ((Config.freeValue s.freeCnt).toNat % (n + 1), { s with freeCnt := s.freeCnt + 1 })
/-- A free value of 64 bits. -/
def State.freeD (s : State) : DWord × State :=
  (Config.freeValue s.freeCnt, { s with freeCnt := s.freeCnt + 1 })
/-- A fresh number for a request, walk, collective or the like. -/
def State.fresh (s : State) : Nat × State :=
  (s.chip.ids, { s with chip := { s.chip with ids := s.chip.ids + 1 } })

/-! ### Cores and issuers -/

/-- Replace the first core with the key of c, or append it. -/
def coresSet : List Core → Core → List Core
  | [], c => [c]
  | d :: t, c => if d.cl = c.cl ∧ d.co = c.co then c :: t else d :: coresSet t c
/-- The core with a cluster and number; one that holds nothing when none is listed. -/
def coresGet : List Core → Nat → Nat → Core
  | [], cl, co => { cl := cl, co := co }
  | d :: t, cl, co => if d.cl = cl ∧ d.co = co then d else coresGet t cl co
def State.core (s : State) (cl co : Nat) : Core := coresGet s.cores cl co
def State.setCore (s : State) (c : Core) : State := { s with cores := coresSet s.cores c }
def State.updCore (s : State) (cl co : Nat) (f : Core → Core) : State := s.setCore (f (s.core cl co))

def issSet : List Issuer → Issuer → List Issuer
  | [], c => [c]
  | d :: t, c => if d.slot = c.slot then c :: t else d :: issSet t c
/-- An issuer of a core; an ended one when the slot is not in use. -/
def issGet : List Issuer → Nat → Issuer
  | [], n => { slot := n, wait := .ended }
  | d :: t, n => if d.slot = n then d else issGet t n
def Core.iss (c : Core) (n : Nat) : Issuer := issGet c.issuers n
def Core.setIss (c : Core) (i : Issuer) : Core := { c with issuers := issSet c.issuers i }
def State.iss (s : State) (w : Iss) : Issuer := (s.core w.cl w.co).iss w.n
def State.updIss (s : State) (w : Iss) (f : Issuer → Issuer) : State :=
  s.updCore w.cl w.co fun c => c.setIss (f (c.iss w.n))
def State.coreOf (s : State) (w : Iss) : Core := s.core w.cl w.co

/-! Fields of PARTW (R34) and MODE (R393). -/
def Core.acc (c : Core) : Nat := bits c.partw 0 5
def Core.scb (c : Core) : Nat := bits c.partw 16 8
def Core.nreg (c : Core) : Nat := 16 * bits c.partw 24 6
def Core.width (c : Core) : Nat := 32 * 2 ^ bits c.partw 30 2
def Core.scSize (c : Core) : Nat := 16384 * c.scb
def Core.elastic (c : Core) : Bool := bit c.modew 0
def Core.lean (c : Core) : Bool := bit c.modew 1
def Core.tenant (c : Core) : Nat := bits c.ptbase 0 6

/-- Lanes of an issuer, and the passes of one of its instructions (R159, R160). -/
def Core.lanes (c : Core) (n : Nat) : Nat := if n = 16 then 1 else c.width
def Core.passes (c : Core) (n : Nat) : Nat := if n = 16 then 1 else c.width / 32

def Chip.cluster (h : Chip) (cl : Nat) : Cluster :=
  match h.clusters.find? (fun c => c.cl == cl) with
  | some c => c
  | none => { cl := cl }
def clusterSet : List Cluster → Cluster → List Cluster
  | [], c => [c]
  | d :: t, c => if d.cl = c.cl then c :: t else d :: clusterSet t c
def State.updChip (s : State) (f : Chip → Chip) : State := { s with chip := f s.chip }
def State.updCluster (s : State) (cl : Nat) (f : Cluster → Cluster) : State :=
  s.updChip fun h => { h with clusters := clusterSet h.clusters (f (h.cluster cl)) }

/-- Island of an issuer's core (R454). -/
def islandOf (w : Iss) : Nat := w.cl * 16 + w.co / 4
/-- Whether the tick is skipped for an island (R158, R395). -/
def State.skipped (s : State) (w : Iss) : Bool :=
  match assoc s.chip.islands (islandOf w) with
  | some i => s.chip.sched.running && decide ((s.tick - s.chip.sched.phbStart) % 32 < i.skip)
  | none => false
/-- Count n events of a code of R439 for a cluster, in the counters that select it. -/
def State.count (s : State) (ev : Nat) (w : Iss) (n : Nat) : State :=
  if s.dbg.sels.isEmpty || s.skipped w then s
  else
    let hit := s.dbg.sels.filter fun e =>
      e.2 % 256 == ev && (e.2 / 2 ^ 15 % 2 == 1 || e.2 / 2 ^ 8 % 64 == w.cl)
    let ctrs := hit.foldl (fun l e => assocSet l e.1 ((assoc l e.1).getD 0 + BitVec.ofNat 64 n)) s.dbg.counters
    { s with dbg := { s.dbg with counters := ctrs } }

/-! ### Registers (R160, R161, R223, R225) -/

/-- Value of a lane in a result. -/
def pendVal (p : Pend) (lane : Nat) : Option DWord := assoc p.vals lane
/-- Whether a result comes after a point in the order of R161: its visible tick, then its instruction's issue tick. -/
def Pend.after (p : Pend) (k : Nat × Nat) : Bool :=
  decide (k.1 < p.vis) || (k.1 == p.vis && decide (k.2 ≤ p.itick))
/-- The newest result of a register lane that is visible at tick t: the one with the latest visible
tick, the later-issued one on a tie (R161). -/
def pendBest (tgt : Tgt) (lane t : Nat) : List Pend → Option ((Nat × Nat) × DWord) → Option ((Nat × Nat) × DWord)
  | [], b => b
  | p :: ps, b =>
    if p.tgt = tgt ∧ p.vis ≤ t then
      match pendVal p lane, b with
      | some v, some (k, w) => pendBest tgt lane t ps (if p.after k then some ((p.vis, p.itick), v) else some (k, w))
      | some v, none => pendBest tgt lane t ps (some ((p.vis, p.itick), v))
      | none, b => pendBest tgt lane t ps b
    else pendBest tgt lane t ps b
/-- What a register lane reads as at tick t, over what the register file holds. -/
def pendRead (ps : List Pend) (tgt : Tgt) (lane t : Nat) (base : DWord) : DWord :=
  match pendBest tgt lane t ps none with
  | some (_, v) => v
  | none => base

/-- Key of a vector register lane in the register file. -/
def vkey (r lane : Nat) : Nat := r * 128 + lane
/-- Vector register v(r) of a lane at tick t (R160). -/
def Issuer.v (me : Issuer) (t r lane : Nat) : Word :=
  (pendRead me.pend (.v r) lane t ((Sparse.get (0 : Word) me.vregs (vkey r lane)).setWidth 64)).setWidth 32
/-- The pair vr, vr+1 as 64 bits (R282, R351). -/
def Issuer.vpair (me : Issuer) (t r lane : Nat) : DWord :=
  me.v t (r + 1) lane ++ me.v t r lane
/-- Scalar register s(r) at tick t: the front thread's results in flight over the core's file (R225). -/
def Core.sreg (c : Core) (t r : Nat) : DWord :=
  pendRead (c.iss 16).pend (.s r) 0 t (Sparse.get (0 : DWord) c.sregs r)
def boolD (b : Bool) : DWord := if b then 1 else 0
/-- Predicate p(r) of a lane; p0 reads true (R223). -/
def Issuer.p (me : Issuer) (t r lane : Nat) : Bool :=
  r == 0 || pendRead me.pend (.p r) lane t (boolD (Sparse.get false me.preds (lane * 8 + r))) != 0
/-- Uniform predicate g(r); g0 reads true (R223). -/
def Core.g (c : Core) (t r : Nat) : Bool :=
  r == 0 || pendRead (c.iss 16).pend (.g r) 0 t (boolD (nth c.gpreds r false)) != 0

/-- Write one result lane into the register file (R161). Predicate 0 is not written (R223). -/
def writeLane (c : Core) (n : Nat) (tgt : Tgt) (lane : Nat) (v : DWord) : Core :=
  match tgt with
  | .v r => c.setIss { c.iss n with
      vregs := Sparse.set (0 : Word) (c.iss n).vregs (vkey r lane) (v.setWidth 32) }
  | .p r => if r = 0 then c else c.setIss { c.iss n with
      preds := Sparse.set false (c.iss n).preds (lane * 8 + r) (v != 0) }
  | .s r => { c with sregs := Sparse.set (0 : DWord) c.sregs r v }
  | .g r => if r = 0 then c else { c with gpreds := setNth false c.gpreds r (v != 0) }
  | .flags => c.setIss { c.iss n with flags := (c.iss n).flags ||| v }

/-! ### The Rind log (R195 to R201) -/

def LogSlot.key : LogSlot → Nat × Nat
  | .scratch n _ _ _ => (0, n)
  | .vreg sl r g _ => (1, (sl * 512 + r) * 8 + g)
  | .acc t _ => (2, t)
/-- Take the next n slots of an interval for an item; a slot too many overflows it, and logging stops (R201). -/
def Ival.take (iv : Ival) (n : Nat) (w : RindItem) : Ival :=
  if iv.overflow then iv
  else if 2048 < iv.used + n then { iv with overflow := true }
  else { iv with used := iv.used + n, sent := iv.sent ++ [(iv.used, w)] }
/-- Add an effect of an issuer to an interval (R198): eight records of an issuer share a slot, and the results take further
slots, eight to a slot. -/
def Ival.record (iv : Ival) (n : Nat) (out : Bool) (sig : BitVec 56) (res : List (Nat × DWord)) : Ival :=
  let ord := (iv.effects.filter fun e => e.1 == n).length
  let iv1 : Ival := match iv.effSlots.find? fun e => e.1 == n && e.2.1 == ord / 8 with
    | some e => { iv with sent := iv.sent ++ [(e.2.2, .effect n ord sig)] }
    | none => { iv.take 1 (.effect n ord sig) with effSlots := iv.effSlots ++ [(n, ord / 8, iv.used)] }
  let iv2 : Ival := if res.isEmpty then iv1 else iv1.take ((res.length + 7) / 8) (.results n ord (res.map (·.2)))
  { iv2 with effects := iv.effects ++ [(n, out, sig, res)] }
/-- Add a slot to an interval unless its sector is there already; a slot too many overflows it (R201).
An accumulator slot stands for the 256 sectors of its tile. -/
def Ival.add (iv : Ival) (t : Nat) (sl : LogSlot) : Ival :=
  let n := match sl with | .acc _ _ => 256 | _ => 1
  if iv.overflow || iv.log.any (fun l => l.key == sl.key) then iv
  else
    let iv' := iv.take n (.old sl)
    if iv'.overflow then iv' else { iv' with log := sl :: iv.log, estAt := max iv.estAt (t + 2400) }
/-- Log a slot in a block's newest interval, and in its superstep interval, which goes on to the next boundary (R197). -/
def Block.addLog (b : Block) (t : Nat) (sl : LogSlot) : Block :=
  match b.ivals with
  | [] => b
  | iv :: rest => { b with ivals := iv.add t sl :: rest.map fun o => if o.superstep then o.add t sl else o }
/-- The log slot of a vector register sector before its write (R197). -/
def vregSlot (me : Issuer) (r lane : Nat) : LogSlot :=
  let g := lane / 16
  .vreg me.slot r g ((List.range 16).map fun k => Sparse.get (0 : Word) me.vregs (vkey r (16 * g + k)))
/-- Log what a result is about to overwrite. -/
def logLane (c : Core) (t n : Nat) (tgt : Tgt) (lane : Nat) : Core :=
  match tgt with
  | .v r => { c with blocks := c.blocks.map fun b =>
      if b.idx = (c.iss n).bidx ∧ !b.ended then b.addLog t (vregSlot (c.iss n) r lane) else b }
  | .p _ | .s _ | .g _ | .flags => c
/-- Make one result visible. -/
def settleOne (c : Core) (t n : Nat) (p : Pend) : Core :=
  p.vals.foldl (fun c lv => writeLane (logLane c t n p.tgt lv.1) n p.tgt lv.1 lv.2) c
/-- Make every result due by tick t visible, in the order of R161. -/
def settleIss (t : Nat) (c : Core) (n : Nat) : Core :=
  let due := sortBy (fun a b => b.after (a.vis, a.itick)) ((c.iss n).pend.filter fun p => p.vis ≤ t)
  if due.isEmpty then c
  else
    let c := due.foldl (fun c p => settleOne c t n p) c
    c.setIss { c.iss n with pend := (c.iss n).pend.filter fun p => t < p.vis }
def settleCore (t : Nat) (c : Core) : Core :=
  (c.issuers.map (·.slot)).foldl (settleIss t) c
/-- The next tick begins: results due become visible. -/
def State.settle (s : State) (t : Nat) : State :=
  { s with tick := t, cores := s.cores.map (settleCore t) }

/-! ### The code store, the PC and divergence (R163, R164, R210 to R214) -/

/-- A word of a cluster's code store. -/
def State.code (s : State) (cl off : Nat) : DWord := s.dword (keyCode cl off)
/-- Code-store offset of the header of a PC's clause (R163). -/
def pcHeader (pc : Nat) : Nat := pc / 16 * 8
/-- The header of a PC's clause. -/
def State.header (s : State) (cl pc : Nat) : DWord := s.code cl (pcHeader pc)
/-- The word of a PC's instruction (R210). -/
def State.instWord (s : State) (cl pc : Nat) : DWord := s.code cl (pcHeader pc + 8 * (pc % 16 + 1))
/-- Index of the last instruction of a clause (R211). -/
def hdrCnt (h : DWord) : Nat := bits h 0 4
def hdrCls (h : DWord) : Nat := bits h 4 4
/-- The PC at which issue continues without a transfer (R210). -/
def State.nextPc (s : State) (cl pc : Nat) : Nat :=
  let n := hdrCnt (s.header cl pc)
  if pc % 16 < n then pc + 1 else (pc / 16 + n + 2) * 16
/-- Target of an OFFS field: a PC with index 0 (R219). -/
def offsPc (pc : Nat) (offs : BitVec 32) : Int := ((pc / 16 : Nat) + offs.toInt) * 16
/-- Whether an index-0 PC stands at a clause header of the kernel image (R214). A header is found by
walking the image from its first clause. -/
def clauseAt (s : State) (c : Core) : Nat → Nat → Nat → Bool
  | 0, _, _ => false
  | f + 1, off, target =>
    if c.imgBase + c.imgSize ≤ off then false
    else if off = target then decide (off + 8 ≤ c.imgBase + c.imgSize)
    else if target < off then false
    else clauseAt s c f (off + 8 * (hdrCnt (s.code c.cl off) + 2)) target
/-- A PC that a transfer may name: index 0 of a clause of the image, or with any index also a later
one below the clause's count. -/
def State.pcOk (s : State) (c : Core) (pc : Int) (anyIdx : Bool) : Bool :=
  decide (0 ≤ pc) && decide (pc < 2 ^ 23) &&
    (let p := pc.toNat
     clauseAt s c (c.imgSize / 16 + 1) c.imgBase (pcHeader p) &&
      (p % 16 == 0 || anyIdx && decide (p % 16 ≤ hdrCnt (s.header c.cl p))))

/-- The live threads of an issuer that may be selected; those that wait for IRET may not (R411). -/
def Issuer.live (me : Issuer) (W : Nat) : List Nat :=
  (List.range W).filter fun t => !(me.ended.contains t || me.hidden.contains t)
def Issuer.pcOf (me : Issuer) (t : Nat) : Nat := nth me.pcs t 0
def Issuer.meetOf (me : Issuer) (t : Nat) : BitVec 32 := nth me.meets t 0
/-- The PC of a meeting register, and its VALID bit (R163). -/
def meetPc (m : BitVec 32) : Nat := m.toNat % 2 ^ 23
def meetValid (m : BitVec 32) : Bool := m.getLsbD 31
/-- A live thread held at its meeting point (R164). -/
def Issuer.held (me : Issuer) (live : List Nat) (t : Nat) : Bool :=
  let m := me.meetOf t
  meetValid m && me.pcOf t == meetPc m &&
    live.any fun u => u != t && me.meetOf u == m && me.pcOf u != meetPc m
/-- The selected set (R164). -/
def Issuer.selected (me : Issuer) (W : Nat) : List Nat :=
  let live := me.live W
  let cand := live.filter fun t => !me.held live t
  match cand with
  | [] => []
  | c :: _ =>
    let low := cand.foldl (fun a t => min a (me.pcOf t)) (me.pcOf c)
    cand.filter fun t => me.pcOf t == low

/-! ### The context of an instruction -/

/-- An instruction's surroundings: who issues it, the selected and the active lanes, the tick and PC. -/
structure Ctx where
  s : State
  w : Iss
  c : Core
  me : Issuer
  sel : List Nat
  act : List Nat
  t : Nat
  pc : Nat
  m : Mods

/-! ### The schedule table's frames (R394) -/

/-- The 64 bits at a byte offset of the loaded table. -/
def tblDw (ws : List DWord) (off : Nat) : DWord :=
  let a := nth ws (off / 8) 0
  let b := nth ws (off / 8 + 1) 0
  let k := off % 8
  if k = 0 then a else a >>> (8 * k) ||| b <<< (64 - 8 * k)
/-- Dword k of frame header n. -/
def frameW (ws : List DWord) (n k : Nat) : DWord := nth ws (8 + 8 * n + k) 0
def nFrames (ws : List DWord) : Nat := (nth ws 0 0).toNat
def frameFlag (ws : List DWord) (n k : Nat) : Bool := bit (frameW ws n 1) k
def fSsb (ws : List DWord) (n : Nat) : Bool := frameFlag ws n 32
def fPhb (ws : List DWord) (n : Nat) : Bool := frameFlag ws n 33
def fLast (ws : List DWord) (n : Nat) : Bool := frameFlag ws n 34
def frameLen (ws : List DWord) (n : Nat) : Nat := bits (frameW ws n 1) 0 32

/-- Skipped ticks of an issuer's island and the start of their phase, at a tick of this frame or the next (R158, R394). -/
def State.phaseAt (s : State) (w : Iss) (u : Nat) : Nat × Nat :=
  let q := s.chip.sched
  let e := q.frameStart + q.frameLen
  if !q.running then (0, 0)
  else if e ≤ u ∧ fLast q.words q.frame then (0, e)
  else if e ≤ u ∧ fPhb q.words (q.frame + 1) then
    (bits (tblDw q.words (bits (frameW q.words (q.frame + 1) 6) 0 32 + islandOf w)) 3 5, e)
  else ((match assoc s.chip.islands (islandOf w) with | some i => i.skip | none => 0), q.phbStart)
/-- The first tick from u on that the issuer's island does not skip (R158), over at most one start of a phase. -/
def State.unskip (s : State) (w : Iss) (u : Nat) : Nat :=
  let (n, p) := s.phaseAt w u
  let k := (u - p) % 32
  if k < n then
    let v := u + (n - k)
    let (n', p') := s.phaseAt w v
    if p' = p then v else p' + n'
  else u
/-- Tick of the k-th pass after the first of an instruction that issues at t: a turn pauses across skipped
ticks (R158, R159). -/
def State.passAt (s : State) (w : Iss) (t : Nat) : Nat → Nat
  | 0 => t
  | k + 1 => s.unskip w (s.passAt w t k + 1)
/-- Tick of the pass that serves a lane (R159). -/
def State.passTick (s : State) (w : Iss) (t lane : Nat) : Nat := if w.n = 16 then t else s.passAt w t (lane / 32)
def Ctx.tl (x : Ctx) (lane : Nat) : Nat := x.s.passTick x.w x.t lane
def Ctx.front (x : Ctx) : Bool := x.w.n == 16
/-- The context of the running issuer (R223, R244). -/
def State.ctx (s : State) (m : Mods) : Ctx :=
  let w := s.cur
  let c := s.coreOf w
  let me := c.iss w.n
  let sel := me.selected (c.lanes w.n)
  let on := fun l =>
    let p := if w.n = 16 then c.g s.tick m.pred.toNat else me.p (s.passTick w s.tick l) m.pred.toNat l
    p != m.pneg
  ⟨s, w, c, me, sel, sel.filter on, s.tick, me.pcOf (nth sel 0 0), m⟩
/-- Source registers of a lane, each as visible at the lane's pass tick (R160, R225). -/
def Ctx.v (x : Ctx) (r : BitVec 9) (lane : Nat) : Word := x.me.v (x.tl lane) r.toNat lane
def Ctx.sc (x : Ctx) (r : BitVec 8) (lane : Nat) : DWord := x.c.sreg (x.tl lane) r.toNat
def Ctx.b (x : Ctx) (b : BSrc) (lane : Nat) : Word :=
  match b with
  | .vec r => x.v r lane
  | .sca r => (x.sc r lane).setWidth 32
/-- The register of either issuer: 64 bits on the front thread, a pair on a warp (R351). -/
def Ctx.reg64 (x : Ctx) (r : BitVec 9) (lane : Nat) : DWord :=
  if x.front then x.c.sreg x.t r.toNat else x.me.vpair (x.tl lane) r.toNat lane

/-! ### Regions (R175 to R183) -/

/-- The open region: the newest one, when it is not closed. -/
def Issuer.openRegion (me : Issuer) : Option Region :=
  match me.regions.reverse with
  | r :: _ => if r.closed.isNone then some r else none
  | [] => none
/-- Number of the region that the issuer is in: the open one, or the newest. -/
def Issuer.regionNo (me : Issuer) : Nat :=
  match me.openRegion with
  | some r => r.num
  | none => me.rnum
/-- Change the open region. -/
def Issuer.mapOpen (me : Issuer) (f : Region → Region) : Issuer :=
  { me with regions := me.regions.map fun r => if r.closed.isNone then f r else r }
/-- Open a region (R175): what a discard of it restores is recorded here. -/
def openRegion (s : State) (w : Iss) (num : Nat) (mask : BitVec 32) (opener : Opener)
    (pcs : List Nat) : State :=
  let c := s.coreOf w
  let me := c.iss w.n
  let r : Region := {
    num := num % 2 ^ 32, opened := s.tick, lastVis := s.tick, mask := mask
    opener := opener, pcs := pcs, dqpos := me.dqpos, lc := c.lc, phs := me.phs, ended := me.ended, fenced := me.fenced }
  s.updIss w fun me => { me with regions := me.regions ++ [r], rnum := num % 2 ^ 32 }
/-- The tick at which a region's window ends and its own part of the commit tick (R182). -/
def Region.due (r : Region) : Nat := max (r.closed.getD 0) r.lastVis + 320
/-- Close the open region and set its commit (R182). -/
def closeRegion (s : State) (w : Iss) : State :=
  match (s.iss w).openRegion with
  | none => s
  | some r =>
    (s.updIss w fun me => me.mapOpen fun r => { r with closed := some s.tick }).sched
      (max s.tick r.lastVis + 320) w .regionCommit
/-- Regions of the issuer that have not committed. -/
def Issuer.uncommitted (me : Issuer) : Nat := me.regions.length

/-- Whether a register result would land in a protected register (R176). -/
def protects (mask : BitVec 32) : Tgt → Bool
  | .v r => mask.getLsbD (r / 16)
  | .s r => mask.getLsbD (r / 8)
  | .p _ | .g _ | .flags => false

/-! ### CSR words (R230, R231, R371) -/

/-- Every effect that the issuer holds or has waiting for presentation. -/
def Issuer.allHeld (me : Issuer) : List Held := me.presq ++ (me.regions.map (·.held)).flatten
/-- Bits of a CSR that a write by its U or its P number changes (R6, R12, R23, R34, R46, R90, R172, R189, R367, R393, R410);
0 for a register that the number's view only reads. -/
def csrMask (n : Nat) : DWord :=
  match n with
  | 2 => 0x1F
  | 3 | 0x803 => 0x11F
  | 4 | 0x804 => 0xFFFFFFFFFFFFFFFF
  | 0xC | 0x80C => 0x7FFFFFFFF1F
  | 0xF => 0xFFFFFFFFFFFF
  | 0x802 => 0xFFFFFFFF000F001F
  | 0x80D => 0xFFFFFFFF000000FF
  | 0x80E => 0x1FFFFFFF1F
  | 0x80F => 0x1FFFFFFFFFFFF
  | 0x810 => 0x7
  | 0x900 => 0xFFFFFFFFFFFC0
  | 0x901 => 0xFFFFFFFFF803F
  | 0x902 => 0xFF3F
  | 0x903 => 0x3F7F3F
  | 0x904 => 0xFFFFFFFFF8000
  | _ => 0
/-- The register that a number names in either view: P number = U number + 0x800 (R230). -/
def csrIdx (n : Nat) : Nat := if 0x800 ≤ n ∧ n < 0x900 then n - 0x800 else n
/-- The stored word of a CSR that the U view writes. -/
def csrWord (me : Issuer) (n : Nat) : DWord :=
  match n with
  | 2 => me.flags
  | 3 => me.flagen
  | 4 => me.seed
  | 0xC => me.fmask
  | _ => me.trapvec
/-- What a write gives a word: plain, set or clear, on the bits that the U view writes (R371). -/
def csrNew (i : Instr) (n : Nat) (old v : DWord) : DWord :=
  let w := match i with
    | .csrs .. => old ||| v
    | .csrc .. => old &&& ~~~v
    | _ => v
  (old &&& ~~~(csrMask n)) ||| (w &&& csrMask n)
/-- CSR number of a held write. -/
def csrOf (i : Instr) : Option Nat :=
  match i with
  | .csrw _ _ n | .csrs _ _ n | .csrc _ _ n => some n.toNat
  | _ => none
/-- The word as the issuer itself sees it: its held writes are applied (R177). -/
def csrSeen (me : Issuer) (n : Nat) : DWord :=
  me.allHeld.foldl (fun v h => match csrOf h.i with
    | some k => if csrIdx k = csrIdx n then csrNew h.i k v (nth h.vals 0 0) else v
    | none => v) (csrWord me n)

/-! ### Trap records and delivery (R399 to R413) -/

/-- A record's fields beside those of the issuer (R403). -/
structure TrapInfo where
  cls : Nat
  sub : Nat := 0
  tt : Bool := false
  ret : Bool := false
  lane : Option Nat := none
  addr : DWord := 0
  engine : Nat := 0
  queue : Nat := 0
  seq : Nat := 0
  d0 : DWord := 0
  d1 : DWord := 0
  deriving DecidableEq, Repr

/-- The eight dwords of a record (R403): issuer, PC, issue tick, region, detection tick, delivery PC. -/
def mkRec (w : Iss) (pc itick rnum dtick dpc : Nat) (i : TrapInfo) : Rec :=
  [BitVec.ofNat 64 (i.cls + i.sub * 2 ^ 8 + b2n i.tt * 2 ^ 16 + b2n i.ret * 2 ^ 17 +
      b2n i.lane.isSome * 2 ^ 18 + i.lane.getD 0 * 2 ^ 19 + w.n * 2 ^ 26 + rnum % 2 ^ 32 * 2 ^ 32),
    BitVec.ofNat 64 (pc % 2 ^ 23 + w.co * 2 ^ 32 + w.cl * 2 ^ 38 + Config.chipNo.toNat * 2 ^ 44),
    BitVec.ofNat 64 itick, BitVec.ofNat 64 dtick, i.addr,
    BitVec.ofNat 64 (i.engine + i.queue * 2 ^ 3 + i.seq % 2 ^ 32 * 2 ^ 9 + dpc % 2 ^ 23 * 2 ^ 41), i.d0, i.d1]

/-- Drop the results in flight that belong to regions from number n on (R186). -/
def dropPend (me : Issuer) (regs : List Region) : Issuer :=
  { me with pend := me.pend.filter fun p => !(regs.any fun r => r.num == p.rnum) }

/-- Discard the issuer's uncommitted regions from the k-th on (R186, R187): held effects, results in
flight, loads in flight, store buffer and filter go; read position, loop counter, slot bindings and
ended threads return; the issuer is set to re-enter at the opener of the oldest one. The count
advances when the oldest uncommitted region is among them and the cause advances it (R189). -/
def discardFrom (s : State) (w : Iss) (k : Nat) (advances : Bool) : State :=
  let me := s.iss w
  match me.regions.drop k with
  | [] => s
  | r :: rest =>
    let gone := r :: rest
    let s := s.updChip fun h => { h with
      reqs := h.reqs.filter fun q =>
        !(q.w == w && (q.kind == .load || q.kind == .stamp) && gone.any fun g => g.num == q.rnum) }
    let s := s.count 7 w gone.length
    let s := s.updIss w fun me => dropPend { me with
      regions := me.regions.take k
      rnum := (r.num + 2 ^ 32 - 1) % 2 ^ 32
      rcount := if k = 0 ∧ advances then me.rcount + 1 else me.rcount
      dqpos := r.dqpos, phs := r.phs, ended := r.ended, fenced := r.fenced
      wait := .run, redo := some r, entered := false, delay := 0 } gone
    if w.n = 16 then s.updCore w.cl w.co fun c => { c with lc := r.lc } else s
def discardAll (s : State) (w : Iss) (advances : Bool) : State := discardFrom s w 0 advances

/-- Hand a record to firmware, which receives it within 400 ticks (R409). -/
def toFirmware (s : State) (r : Rec) (w : Option Iss) : State :=
  let k := s.fw.nextFault
  let s := { s with fw := { s.fw with nextFault := k + 1, faults := s.fw.faults ++ [(k, r, w)] } }
  let (d, s) := s.free 400
  s.sched (s.tick + d) (obj k) .firmwareFaultDelivery
/-- A report that stops nothing (R400, R401): firmware logs it. -/
def reportFw (s : State) (r : Rec) : State := toFirmware s r none

/-- Whether an ENTRY and RECOFF are usable at delivery (R410, R413). -/
def trapvecOk (s : State) (c : Core) (tv : DWord) : Bool :=
  let off := bits tv 24 24
  bit tv 23 && !bit tv 48 && bits tv 0 4 == 0 && s.pcOk c (bits tv 0 23 : Nat) false &&
    off % 64 == 0 && decide (off + 64 ≤ c.scSize) &&
    !(c.wins.any fun (_, e) => e.v &&
      ((decide (0 < e.rows) && (List.range e.rows).any fun i =>
          decide (off < e.sbase + i * e.sstride + e.rbytes) && decide (e.sbase + i * e.sstride < off + 64)) ||
        (decide (off < e.scloff + e.scllen) && decide (e.scloff < off + 64))))

/-- The classes whose records go to the entry that TRAPVEC names (R400). -/
def toVec (cls : Nat) : Bool := cls == 0x09 || cls == 0x10 || cls == 0x11 || cls == 0x12

/-- Deliver a record of an issuer (R409, R411, R413): to the handler when TRAPVEC is usable, else as
a double trap; every other class to firmware. at_ is the delivery tick, sel the trapping set, ret the
return PCs. -/
def deliver (s : State) (w : Iss) (r : Rec) (at_ : Nat) (sel : List Nat) (ret : List Nat) : State :=
  let cls := bits (nth r 0 0) 0 8
  let s := s.updIss w fun me => { me with wait := .fault }
  if toVec cls then
    if trapvecOk s (s.coreOf w) (csrSeen (s.iss w) 0xF) then
      (s.updIss w fun me => { me with trapRec := r, trapSel := sel, retPc := ret }).sched at_
        w .trapDelivery
    else
      let r' := setNth 0 (setNth 0 r 0 (setBits (nth r 0 0) 0 16 0x14)) 6
        (BitVec.ofNat 64 (bits (nth r 0 0) 0 16))
      toFirmware (discardAll s w false) (setNth 0 r' 7 0) (some w)
  else toFirmware s r (some w)

/-- Give the turn to the next slot at tick t (R154). -/
def Core.endTurn (c : Core) (t : Nat) : Core :=
  { c with rotSlot := (c.rotSlot + 1) % 16, rotAt := t, inTurn := false }
/-- The running issuer's turn is over, one tick after the instruction. -/
def turnOver (x : Ctx) (s : State) : State :=
  if x.front then s.updIss x.w fun me => { me with nextAt := x.t + 1 }
  else s.updCore x.w.cl x.w.co fun c => c.endTurn (x.t + 1)
/-- TAKING AN EXCEPTION: the running instruction takes a precise fault (R400). The issuer's
uncommitted regions are discarded, the record is formed and delivered, and the turn ends. In lean
mode the fault is delivered in the same way (R191: it is not a recovery). -/
def raiseAs (x : Ctx) (i : TrapInfo) : State :=
  let rnum := x.me.regionNo
  let r := mkRec x.w x.pc x.t rnum x.t x.pc i
  let s := discardAll x.s x.w false
  let back := match (s.iss x.w).redo with | some g => g.pcs | none => x.me.pcs
  turnOver x (deliver s x.w r x.t x.sel back)
/-- The same, with the instruction's word in the record of an illegal instruction or region (R405). -/
def raise (x : Ctx) (i : TrapInfo) : State :=
  raiseAs x (if i.cls = 0x01 ∨ i.cls = 0x0A then { i with d0 := x.s.instWord x.w.cl x.pc } else i)
def trap (x : Ctx) (i : TrapInfo) : Out := .next (raise x i)
/-- An illegal-instruction trap with a cause of R228, and an illegal-region trap of R181. -/
def illegal (x : Ctx) (cause : Nat) : Out := trap x { cls := 0x01, sub := cause }
def illegalRegion (x : Ctx) (cause : Nat) : Out := trap x { cls := 0x0A, sub := cause }

/-! ### The end of an instruction (R155, R157, R162) -/

/-- How an instruction leaves its issuer. -/
structure Fin where
  /-- New PC of a selected thread, or the next PC. -/
  pcs : Nat → Option Nat := fun _ => none
  /-- Bank additions E (R41). -/
  e : Nat := 0
  /-- A transfer was taken: on the front thread the target issues at T + 3 (R254). -/
  taken : Bool := false
  /-- The issuer waits. -/
  wait : Wait := .run

/-- Whether a held effect is a returning atomic, whose old value is still to come (R292, R294). -/
def isReturning (i : Instr) : Bool :=
  match i with
  | .atom .. => true
  | _ => false
/-- Registers whose results the issuer still waits for: none are in flight, and no load, pop or
atomic of its own is outstanding (R162). -/
def quiet (s : State) (w : Iss) : Bool :=
  (s.iss w).pend.all (fun p => p.vis ≤ s.tick) &&
    !(s.chip.reqs.any fun q => q.w == w && (q.kind == .load || q.kind == .atom)) &&
    !((s.iss w).allHeld.any fun h => isReturning h.i)

/-- Advance the selected threads, and end or continue the turn (R155, R157, R164, R254). -/
def finish (x : Ctx) (s : State) (f : Fin) : State :=
  let nxt := s.nextPc x.w.cl x.pc
  let me := s.iss x.w
  let last := x.pc % 16 == hdrCnt (s.header x.w.cl x.pc)
  let bub := if last then me.delay else 0
  let pcs := x.sel.foldl (fun l t => setNth 0 l t ((f.pcs t).getD nxt)) me.pcs
  let wait : Wait := match f.wait with | .run => if x.m.park then .marker else .run | w => w
  let me := { me with pcs := pcs, wait := wait, mark := x.m.park && wait != Wait.marker && wait != Wait.run }
  let s := if bub = 0 then s else s.count 2 x.w bub
  let sel := me.selected (x.c.lanes x.w.n)
  let pc := me.pcOf (nth sel 0 0)
  let leaves := pc / 16 != x.pc / 16 || pc % 16 == 0 || f.taken
  let changed := leaves || sel != x.sel
  let me := { me with entered := me.entered && !changed, delay := if changed then 0 else me.delay }
  if x.front then
    s.updIss x.w fun _ => { me with nextAt := x.t + 1 + (if f.taken then 2 else 0) + f.e + bub }
  else
    let t' := x.t + x.c.passes x.w.n + f.e
    let s := s.updIss x.w fun _ => me
    s.updCore x.w.cl x.w.co fun c =>
      if changed || wait != .run then c.endTurn (t' + bub) else { c with rotAt := t' }

/-- The issuer cannot go on at this instruction: it stays at its PC, spends one tick and tries again
(R156, R157). -/
def parkHere (x : Ctx) (s : State) (wait : Wait) : State :=
  let s := s.updIss x.w fun me => { me with wait := wait, nextAt := x.t + 1 }
  if x.front then s else s.updCore x.w.cl x.w.co fun c => c.endTurn (x.t + 1)
def retryHere (x : Ctx) : Out := .next (parkHere x x.s .retry)

/-! ### Checks that every instruction passes, and results -/

/-- Instructions that may follow a returning atomic: only RGN (R178), which does not come here. -/
def afterAtomic (x : Ctx) : Bool :=
  match x.me.openRegion with | some r => r.atomic | none => false
/-- A token operation stands before this instruction in its region (R366). -/
def afterSeq (x : Ctx) : Bool :=
  match x.me.openRegion with | some r => r.seqop | none => false
/-- The lowest illegal-region cause of a register-writing instruction (R176, R178, R366). -/
def regionCause (x : Ctx) (tgts : List Tgt) : Option Nat :=
  match x.me.openRegion with
  | none => none
  | some r =>
    if !x.act.isEmpty && tgts.any (protects r.mask) then some 1
    else if r.atomic then some 2
    else if r.seqop then some 7
    else none

/-- A result of the running instruction: destination and the lanes written. -/
abbrev Wr := Tgt × List (Nat × DWord)

/-! The check of pair mode (R204): CRC-64 of ECMA-182, high bit first, over dwords. -/
def crcStep (c : DWord) : Nat → DWord
  | 0 => c
  | n + 1 => crcStep (if c.msb then (c <<< 1) ^^^ (0x42F0E1EBA9EA3693 : DWord) else c <<< 1) n
def crcDwords (c : DWord) (ds : List DWord) : DWord := ds.foldl (fun c d => crcStep (c ^^^ d) 64) c
/-- Whether a core runs in pair mode (R203). -/
def Core.pair (c : Core) : Bool := bit c.modew 3
/-- Fold words into the CRC of the open region, on a core in pair mode. -/
def foldCrc (s : State) (w : Iss) (ds : List DWord) : State :=
  if (s.coreOf w).pair then s.updIss w fun me => me.mapOpen fun r => { r with crcA := crcDwords r.crcA ds } else s

/-- Put results in flight: visible for every lane at tick vis, within the open region's window
(R160, R182), from the homes of a space (R296). -/
def addPendFrom (home : Nat) (s : State) (w : Iss) (vis : Nat) (ws : List Wr) : State :=
  (foldCrc s w ((ws.map fun e => e.2.map (·.2)).flatten)).updIss w fun me =>
    let rn := me.regionNo
    let ps := (ws.filter fun e => !e.2.isEmpty).map fun e => (⟨vis, e.1, e.2, rn, home, s.tick⟩ : Pend)
    { me.mapOpen (fun r => if ps.isEmpty then r else { r with lastVis := max r.lastVis vis }) with
      pend := me.pend ++ ps }
/-- Results of an instruction that reads no home. -/
def addPend (s : State) (w : Iss) (vis : Nat) (ws : List Wr) : State := addPendFrom noHome s w vis ws

/-- The tick at which a result of latency L issued now becomes visible (R160, R41). -/
def Ctx.vis (x : Ctx) (L e : Nat) : Nat := x.t + (x.c.passes x.w.n - 1) + L + e

/-- Flags raised by the active lanes, ORed in when the result becomes visible (R244). -/
def flagWr (f : BitVec 5) : List Wr := if f = 0 then [] else [(.flags, [(0, f.setWidth 64)])]

/-- A register instruction: checks of its region, results at latency L, flags, then the end. -/
def alu (x : Ctx) (L : Nat) (tgts : List Tgt) (ws : List Wr) (fl : BitVec 5) : Out :=
  match regionCause x tgts with
  | some k => illegalRegion x k
  | none => .next (finish x (addPend x.s x.w (x.vis L 0) (ws ++ flagWr fl)) {})

/-- One vector result computed lane by lane. -/
def vop (s : State) (m : Mods) (d : BitVec 9) (L : Nat) (f : Ctx → Nat → Word) : Out :=
  let x := s.ctx m
  alu x L [.v d.toNat] [(.v d.toNat, x.act.map fun l => (l, (f x l).setWidth 64))] 0
/-- One scalar result (R247). -/
def sop (s : State) (m : Mods) (d : BitVec 8) (L : Nat) (f : Ctx → DWord) : Out :=
  let x := s.ctx m
  alu x L [.s d.toNat] [(.s d.toNat, x.act.map fun l => (l, f x))] 0

/-! ### Held effects (R177, R120) -/

/-- Let the next held effect be presented at tick t, one an instruction a tick (R120). -/
def kickPres (s : State) (w : Iss) (t : Nat) : State :=
  if (s.iss w).presBusy then s
  else (s.updIss w fun me => { me with presBusy := true }).sched t w .heldEffectPresentation
/-- Hold an effect in the open region, or in lean mode present it at issue. -/
def emit (s : State) (w : Iss) (h : Held) : State :=
  let s := foldCrc s w ((h.lanes.map fun l => l.va :: l.ops).flatten ++ h.vals)
  if (s.coreOf w).lean || (s.iss w).openRegion.isNone then
    kickPres (s.updIss w fun me => { me with presq := me.presq ++ [h] }) w s.tick
  else s.updIss w fun me => me.mapOpen fun r => { r with held := r.held ++ [h] }
/-- A held effect of the running instruction. -/
def Ctx.hold (x : Ctx) (i : Instr) (lanes : List LaneAcc) (vals : List DWord) (wins : List Nat) : Held :=
  let rn := x.me.regionNo
  ⟨i, lanes, vals, wins, x.pc, x.t, rn⟩

/-- An instruction with no active lane has no effect beyond its ticks (R281). -/
def passOver (x : Ctx) : Out :=
  match regionCause x [] with
  | some k => illegalRegion x k
  | none => .next (finish x x.s {})

/-! ### Blocking points (R184) -/

/-- Reach a blocking point: close the open region and wait for the commits; the PC stays until the
point completes. The turn ends here (R155). -/
def blockAt (x : Ctx) (i : Instr) (vals : List DWord) : State :=
  let s := closeRegion x.s x.w
  let s := s.updIss x.w fun me => { me with
    wait := .block i .commit x.act vals x.t x.pc, nextAt := x.t + 1 }
  if x.front then s
  else s.updCore x.w.cl x.w.co fun c => c.endTurn (x.t + x.c.passes x.w.n)
/-- A blocking point has completed: its selected threads go on after it, in a new implicit region
with an empty mask. -/
def unblock (s : State) (w : Iss) (pc : Nat) : State :=
  let nxt := s.nextPc w.cl pc
  let s := s.updIss w fun me =>
    let sel := (me.selected ((s.coreOf w).lanes w.n)).filter fun t => me.pcOf t == pc
    let last := pc % 16 == hdrCnt (s.header w.cl pc)
    { me with
      pcs := sel.foldl (fun l t => setNth 0 l t nxt) me.pcs
      wait := if bit (s.instWord w.cl pc) 63 then .marker else .run, nextAt := s.tick
      entered := me.entered && !last, delay := 0 }
  openRegion s w ((s.iss w).rnum + 1) 0 .block (s.iss w).pcs
/-- A blocking load has completed: a discard of the region that it opens performs it again (R187). -/
def unblockAgain (s : State) (w : Iss) (pc : Nat) : State :=
  let old := (s.iss w).pcs
  (unblock s w pc).updIss w fun me => me.mapOpen fun r => { r with opener := .again, pcs := old }
/-- Instruction checks of a blocking point: it may follow a token operation, and not a returning
atomic (R178, R366). -/
def blockingOp (x : Ctx) (i : Instr) (vals : List DWord) : Out :=
  if afterAtomic x then illegalRegion x 2 else .next (blockAt x i vals)

/-- IRET's effect after the commit of the handler's regions (R412): ACT is cleared, the trapping
set's threads return to the kept PCs, the hidden threads may be selected again. -/
def irets (s : State) (w : Iss) : State :=
  let s := s.updIss w fun me => { me with
    pcs := me.trapSel.foldl (fun l t => setNth 0 l t (nth me.retPc t 0)) me.pcs
    trapvec := setBits me.trapvec 48 1 0
    hidden := [], trapSel := [], wait := .run, nextAt := s.tick, entered := false, delay := 0 }
  match (s.iss w).redo with
  | some _ => s
  | none => openRegion s w ((s.iss w).rnum + 1) 0 .block (s.iss w).pcs

end Sys2Proof.Machine
end

