-- ==== Sys2Proof/Machine/Flags.lean ====
section
/-!
DEFINITION. The sticky flags (R102, R367) and the conditions of the compares (R250).
-/
namespace Sys2Proof

/-- An integer condition on two words of one width (R250); the float-only codes do not come here. -/
def Cond.int {n : Nat} (c : Cond) (a b : BitVec n) : Bool :=
  match c with
  | .eq => a == b | .ne => a != b
  | .lt => a.slt b | .le => a.sle b | .gt => b.slt a | .ge => b.sle a
  | .ltu => a.ult b | .leu => a.ule b | .gtu => b.ult a | .geu => b.ule a
  | .un => false | .ord => true

end Sys2Proof
namespace Sys2Proof.Machine

/-! Bits of FLAGS (R367). -/
def fNV : BitVec 5 := 1
def fDZ : BitVec 5 := 2
def fOF : BitVec 5 := 4
def fUF : BitVec 5 := 8
def fNX : BitVec 5 := 16
/-- f when c holds. -/
def flagIf (c : Bool) (f : BitVec 5) : BitVec 5 := if c then f else 0

/-- Bits of FMASK by the cause code of a switch-off (R44, R46): the flag bit of causes 1 to 5. -/
def fmaskBit (cause : Nat) : Nat :=
  match cause with
  | 1 => 1 | 2 => 2 | 3 => 4 | 4 => 8 | 5 => 16 | _ => 0
/-- Record the switch-offs of one instruction (R46): the flags are sticky, and the first event is
kept while FVALID is set. -/
def recordOff (fm : DWord) (offs : List (Nat × Nat)) (pc : Nat) : DWord :=
  match offs with
  | [] => fm
  | (lane, cause) :: _ =>
    let fl := offs.foldl (fun a e => a ||| BitVec.ofNat 64 (fmaskBit e.2)) fm
    if bit fm 15 then fl
    else setBits fl 8 35 (lane + 2 ^ 7 + cause * 2 ^ 8 + pc % 16 * 2 ^ 12 + pc / 16 % 2 ^ 19 * 2 ^ 16)

end Sys2Proof.Machine
end

