-- ==== Sys2Proof/Machine/Operands.lean ====
section
/-!
DEFINITION. Operand forms: immediates (R217), packed element strings (R110), random words (R104 to
R107).
-/
namespace Sys2Proof

/-- The immediate's value (R217). -/
def Imm.val (i : Imm) : DWord :=
  let v := i.v.signExtend 64
  if i.hi then v <<< 8 else v

end Sys2Proof
namespace Sys2Proof.Machine

/-- Element i of a packed string of w-bit elements (R110), from bytes. -/
def unpackElem (w : Nat) (bs : List Byte) (i : Nat) : Nat := leNat bs / 2 ^ (w * i) % 2 ^ w
/-- The string of w-bit elements, low element in the low bits (R110), as a number. -/
def packNat (w : Nat) : List Nat → Nat
  | [] => 0
  | x :: t => x % 2 ^ w + 2 ^ w * packNat w t

/-- One round of Philox4x32 (R105). -/
def philoxRound (c : Word × Word × Word × Word) (k : Word × Word) : Word × Word × Word × Word :=
  let pa : DWord := (0xD2511F53 : DWord) * c.1.setWidth 64
  let pb : DWord := (0xCD9E8D57 : DWord) * c.2.2.1.setWidth 64
  ((pb >>> 32).setWidth 32 ^^^ c.2.1 ^^^ k.1, pb.setWidth 32,
    (pa >>> 32).setWidth 32 ^^^ c.2.2.2 ^^^ k.2, pa.setWidth 32)
def philoxGo : Nat → Word × Word × Word × Word → Word × Word → Word × Word × Word × Word
  | 0, c, _ => c
  | n + 1, c, k => philoxGo n (philoxRound c k) (k.1 + 0x9E3779B9, k.2 + 0xBB67AE85)
/-- Word e mod 4 of Philox4x32x10 (R105). -/
def philox (c0 c1 c2 c3 : Word) (seed : DWord) (e : Nat) : Word :=
  let r := philoxGo 10 (c0, c1, c2, c3) (seed.setWidth 32, (seed >>> 32).setWidth 32)
  match e % 4 with
  | 0 => r.1 | 1 => r.2.1 | 2 => r.2.2.1 | _ => r.2.2.2

/-- The random word of an instruction's element (R106): index, block, warp, lane, element, launch. -/
def drawWord (idx : Word) (block warp lane e launch : Nat) (seed : DWord) : Word :=
  philox idx (BitVec.ofNat 32 (block % 2 ^ 24 * 2 ^ 8 + e / 4 % 2 ^ 8))
    (BitVec.ofNat 32 (warp % 16 * 2 ^ 28 + lane % 128 * 2 ^ 21)) (BitVec.ofNat 32 (launch % 2 ^ 31)) seed e
/-- SEED of the running issuer as it stands. -/
def Ctx.draw (x : Ctx) (idx : Word) (lane e : Nat) : Word :=
  drawWord idx x.me.block x.w.n lane e x.c.launch x.me.seed
/-- The word of an .sr instruction: the index register at the first pass (R245), element 0. -/
def Ctx.srWord (x : Ctx) (f : Fmt) (lane : Nat) : Word :=
  x.draw ((x.c.sreg x.t f.idx.toNat).setWidth 32) lane 0

end Sys2Proof.Machine
end

