-- ==== Sys2Proof/Machine/Translate.lean ====
section
/-!
DEFINITION. Address spaces and translation: the walk of the page table, the TLBs, the ordered checks of a
translated access, and the poison state (R9 to R33, R485).
-/
namespace Sys2Proof.Machine

/-- Space code of an address (R9). -/
def spaceOf (a : DWord) : Nat := bits a 60 4
/-- Bytes of HBM behind one chip (R14). -/
def hbmTop : Nat := 0xC000000000
/-- The chip's own number. -/
def chipNo : Nat := Config.chipNo.toNat
/-- Physical address of a place in this chip's HBM (R14). -/
def ownHbm (k : Nat) : Nat := chipNo * 2 ^ 42 + k
theorem ownHbm_eq (k : Nat) : ownHbm k = chipNo * 2 ^ 42 + k := rfl
/-- Layout of an HBM physical address of some chip (R14). -/
def hbmPart (pa : Nat) : Bool := pa / 2 ^ 40 % 4 == 0 && decide (pa % 2 ^ 40 < hbmTop)
/-- A physical address in this chip's populated HBM (R14). -/
def localHbm (pa : Nat) : Bool := pa / 2 ^ 42 == chipNo && hbmPart pa
/-- Target of a leaf: its space code (R13). -/
def leafSpace (p : DWord) : Nat := (if bit p 6 then 1 else 0) + (if bit p 7 then 2 else 0)
/-- Physical address layout of a target (R14). -/
def layoutOk (space pa : Nat) : Bool :=
  match space with
  | 0 => localHbm pa
  | 1 => pa / 2 ^ 42 != chipNo && hbmPart pa
  | 2 => pa / 2 ^ 43 == 0
  | _ => true
/-- The formed address: the layout, and a bank below 63 on Orchard (R17, R74). -/
def formedOk (space pa : Nat) : Bool := layoutOk space pa && !(space == 2 && pa / 2 ^ 36 % 64 == 63)
/-- Bits of the virtual address below a leaf's level (R15). -/
def levelShift (level : Nat) : Nat := match level with | 0 => 39 | 1 => 27 | _ => 15
/-- Bits 51:15 of an entry, in place. -/
def frame (p : DWord) : Nat := bits p 15 37 * 2 ^ 15
/-- Entry format of a pointer and of a leaf (R14, R16, R17). -/
def ptrOk (p : DWord) : Bool := bits p 2 13 == 0 && bits p 52 12 == 0 && localHbm (frame p)
def leafOk (level : Nat) (p : DWord) : Bool :=
  let sp := leafSpace p
  bits p 52 12 == 0 && !(bit p 5 && bit p 7) && !(bit p 8 && sp != 2) &&
    frame p % 2 ^ levelShift level == 0 && layoutOk sp (frame p)

/-- Where a walk stops: at a leaf, at an entry with V = 0, or at a malformed one (R20 checks 3, 4). -/
inductive WalkEnd where
  | leaf (level : Nat) (p : DWord) (pa : Nat)
  | page (level : Nat) (p : DWord)
  | table (level : Nat) (p : DWord)
  deriving DecidableEq, Repr

/-- The walk from a table at a level (R15, R18). -/
def walkFrom (s : State) (va : Nat) : Nat → Nat → Nat → WalkEnd
  | 0, level, _ => .table level 0
  | f + 1, level, base =>
    let pa := base + 8 * (va / 2 ^ levelShift level % 4096)
    let p := s.dword (keyHbm pa)
    if !bit p 0 then .page level p
    else if bit p 1 then (if leafOk level p then .leaf level p pa else .table level p)
    else if level = 2 then .table level p
    else if ptrOk p then walkFrom s va f (level + 1) (frame p)
    else .table level p
/-- A walk from PTBASE (R12, R15): a root outside this chip's HBM is a table fault. -/
def walk (s : State) (ptbase : DWord) (va : Nat) : WalkEnd :=
  if localHbm (frame ptbase) then walkFrom s va 3 0 (frame ptbase) else .table 0 0

/-- Whether PSNBASE names a region of this chip's HBM (R23). -/
def psnBaseOk (s : State) : Bool :=
  localHbm (frame s.chip.psnbase) && decide (frame s.chip.psnbase % 2 ^ 40 + 0x1810000 ≤ hbmTop)
/-- The eight granule bits of the 32 KiB span that holds an HBM address of this chip (R23). -/
def spanBits (s : State) (pa : Nat) : BitVec 8 :=
  s.byte (keyHbm (frame s.chip.psnbase + pa % 2 ^ 40 / 2 ^ 15))
/-- The summary bit of a 128 MiB block (R23). -/
def summaryBit (s : State) (m : Nat) : Bool :=
  (s.byte (keyHbm (frame s.chip.psnbase + 0x1800000 + m / 8))).getLsbD (m % 8)
/-- Entries of a remote poison table bucket (R24). -/
def bucketKey (s : State) (pa : Nat) : Nat := keyHbm (frame s.chip.psnbase + 0x1808000 + pa / 2 ^ 15 % 512 * 64)
def bucket (s : State) (pa : Nat) : List DWord := s.dwords (bucketKey s pa) 8
/-- Poison bits of a peer or Orchard span, from its bucket (R25). -/
def remoteBits (s : State) (pa : Nat) : BitVec 8 :=
  (bucket s pa).foldl (fun b e =>
    if bit e 0 && bits e 15 37 == pa / 2 ^ 15 then b ||| (1 <<< bits e 12 3) else b) 0
/-- The TLB entry of a leaf that an access met (R25). A host leaf has no poison bits; R25 names no form for it, and the model
enters one of any size as the one 32 KiB span (DESIGN CHOICE, log 35). -/
def mkTlbE (s : State) (tenant level va : Nat) (p : DWord) (ptePa : Nat) : TlbE :=
  let sp := leafSpace p
  let pa := frame p + va % 2 ^ levelShift level
  let blocks := if level = 0 then 4096 else 1
  let clean := level < 2 && (List.range blocks).all fun k => !summaryBit s (frame p % 2 ^ 40 / 2 ^ 27 + k)
  if sp = 0 && clean then ⟨tenant, level, va / 2 ^ levelShift level, p, ptePa, 0, true⟩
  else
    let b := if sp = 0 then spanBits s pa else if sp = 3 then 0 else remoteBits s pa
    ⟨tenant, level, va / 2 ^ 15, p, ptePa, b, false⟩
/-- Whether a TLB entry serves an address of a tenant (R28). -/
def TlbE.hits (e : TlbE) (tenant va : Nat) : Bool :=
  e.tenant == tenant && e.vpn == va / 2 ^ (if e.whole then levelShift e.level else 15)
/-- Set of the shared TLB (R28). -/
def TlbE.set (e : TlbE) : Nat := (e.vpn % 4096) ^^^ e.tenant
/-- First in, first out within a capacity (R28). -/
def fifo {α : Type} (cap : Nat) (l : List α) (x : α) : List α :=
  if l.length < cap then l ++ [x] else l.drop 1 ++ [x]
def tlbFillCluster (s : State) (cl : Nat) (e : TlbE) : State :=
  s.updCluster cl fun c => { c with tlb := if c.tlb.contains e then c.tlb else fifo 2048 c.tlb e }
def tlbFillShared (s : State) (e : TlbE) : State :=
  s.updChip fun h =>
    if h.shTlb.contains e then h
    else
      let same := h.shTlb.filter fun x => x.set == e.set
      { h with shTlb :=
          (if same.length < 16 then h.shTlb
            else match same with | o :: _ => h.shTlb.erase o | [] => h.shTlb) ++ [e] }

/-- Operations that the permissions of R21 name. -/
inductive Acc where
  | load | store | atom | red | fill | write | aos | code
  deriving DecidableEq, Repr

/-- The group of a chip (R428). -/
def groupOf (chip : Nat) : Nat := chip / 16
/-- A chip that an access may name: of the pod, and of a connected group (R21, R427). -/
def State.reachable (s : State) (chip : Nat) : Bool :=
  Config.podHas chip && (groupOf chip == groupOf chipNo || s.net.circuits.contains (groupOf chip))
/-- Check 8 of R20 (R21, R424). -/
def opAllowed (s : State) (space : Nat) (a : Acc) (pa : Nat) : Bool :=
  match space with
  | 0 => true
  | 1 => (a != .atom && a != .code) && s.reachable (pa / 2 ^ 42) && bit s.chip.sstep 32
  | 2 => a != .code && bit s.chip.sstep 32
  | _ => a != .atom && a != .red && a != .aos && a != .code
/-- Check 9 of R20 (R21). -/
def permOk (a : Acc) (p : DWord) : Bool :=
  let rd := bit p 2
  let wr := bit p 3
  match a with
  | .load | .fill => rd
  | .store | .red | .write | .aos => wr
  | .atom => rd && wr
  | .code => rd && !bit p 4
/-- The physical address on Orchard after a failover (R91); none when the allocation is lost: it stays lost until it is
freed (R92). -/
def orchPa (s : State) (p : DWord) (pa : Nat) : Option Nat :=
  let sw := pa / 2 ^ 42 % 2
  if s.fw.allocs.any fun x => x.lost && decide (x.pa ≤ pa) && decide (pa < x.pa + x.size) then none
  else if !bit s.chip.orchst sw then some pa
  else if bit p 8 && !bit s.chip.orchst (1 - sw) then some (if sw = 0 then pa + 2 ^ 42 else pa - 2 ^ 42)
  else none

/-- The leaf's checks 4 (formed address) to 9 of R20. -/
def targetChecks (s : State) (tenant va space : Nat) (a : Acc) (e : TlbE) : Except TrapInfo Nat :=
  let p := e.pte
  let sp := leafSpace p
  let pa := frame p + va % 2 ^ levelShift e.level
  if !formedOk sp pa then .error { cls := 5, sub := e.level, d0 := p }
  else if bits p 9 6 ≠ tenant then .error { cls := 6, sub := 1, d0 := p, d1 := BitVec.ofNat 64 pa }
  else if sp ≠ space then .error { cls := 3, sub := 3, d0 := p, d1 := BitVec.ofNat 64 pa }
  else
    match if sp = 2 then orchPa s p pa else some pa with
    | none => .error { cls := 7, d0 := p, d1 := BitVec.ofNat 64 pa }
    | some pa =>
      if !opAllowed s sp a pa then .error { cls := 3, sub := 4, d0 := p, d1 := BitVec.ofNat 64 pa }
      else if !permOk a p then .error { cls := 6, sub := 2, d0 := p, d1 := BitVec.ofNat 64 pa }
      else .ok pa
/-- The leaf's checks 4 to 10 of R20: the granule is clean, but for a fill, which carries poison along (R27). -/
def leafChecks (s : State) (tenant va space : Nat) (a : Acc) (e : TlbE) : Except TrapInfo Nat :=
  match targetChecks s tenant va space a e with
  | .error i => .error i
  | .ok pa =>
    if a != .fill && e.psn.getLsbD (pa / 4096 % 8) then
      .error { cls := 8, sub := 1, d0 := BitVec.ofNat 64 (pa / 4096 * 4096) }
    else .ok pa

/-- Place of a miss among those of its tick (R29): cluster, core, then warp slot; the front thread and the engines come
after the warps of their core. -/
def missKey (s : State) (cl : Nat) (a : Acc) : Nat :=
  (cl * 64 + s.cur.co % 64) * 32 + (match a with | .fill | .write | .aos => 31 | _ => min s.cur.n 31)
/-- A miss of a cluster TLB begins (R30): 40 ticks later the shared TLB has been looked up. -/
def startWalk (s : State) (cl key : Nat) (e : TlbE) (shared : Bool) : State :=
  let (k, s) := s.fresh
  (s.updChip fun h => { h with walks := h.walks ++ [⟨k, [cl], e, true, s.tick, key, .lookup, shared⟩] }).sched
    (s.tick + 40) (obj k) .pageTableReadReturn
/-- An entry that serves an address: in the cluster TLB, of a miss under way for the same page, in the shared TLB, or
of a new walk (R28, R29). The cluster joins a miss under way: every cluster that has missed takes the entry when it
ends (DEDUCED, log 35). A walk made while PSNBASE is bad takes a table fault (R23). -/
def lookupTlb (s : State) (cl : Nat) (ptbase : DWord) (va : Nat) (a : Acc) : Except TrapInfo TlbE × State :=
  let tenant := bits ptbase 0 6
  match (s.chip.cluster cl).tlb.find? fun e => e.hits tenant va with
  | some e => (.ok e, s)
  | none =>
    match s.chip.walks.find? fun k => k.install && k.e.hits tenant va with
    | some k => (.ok k.e, s.updChip fun h => { h with
        walks := h.walks.map fun j => if j.id = k.id then { j with cls := (j.cls ++ [cl]).eraseDups } else j })
    | none =>
      match s.chip.shTlb.find? fun e => e.hits tenant va with
      | some e => (.ok e, startWalk s cl (missKey s cl a) e true)
      | none =>
        match walk s ptbase va with
        | .page l p => (.error { cls := 4, sub := l, d0 := p }, s)
        | .table l p => (.error { cls := 5, sub := l, d0 := p }, s)
        | .leaf l p pa =>
          if !psnBaseOk s then (.error { cls := 5, sub := 3, d0 := p }, s)
          else
            let e := mkTlbE s tenant l va p pa
            (.ok e, startWalk s cl (missKey s cl a) e false)
/-- The translation word of a core: its PTBASE, with bit 63 set for a service core, which translates nothing (R19). -/
def Core.ptw (c : Core) : DWord := if c.priv then c.ptbase ||| 1 <<< 63 else c.ptbase

/-- Translate one address for an operation (R20): the physical address and the leaf, or the cause. A service core's
space-0 address carries a physical address of this chip's HBM, and no check of poison applies (R19). -/
def translate (s : State) (cl : Nat) (ptbase : DWord) (a : Acc) (addr : DWord) :
    Except TrapInfo (Nat × DWord) × State :=
  let sp := spaceOf addr
  let err := fun i : TrapInfo => { i with addr := addr }
  if 3 < sp then (.error (err { cls := 3, sub := 1 }), s)
  else if bit ptbase 63 && sp == 0 then
    if localHbm (bits addr 0 52) then (.ok (bits addr 0 52, 0xF), s) else (.error (err { cls := 3, sub := 2 }), s)
  else if bits addr 51 9 ≠ 0 then (.error (err { cls := 3, sub := 2 }), s)
  else
    let va := bits addr 0 51
    match lookupTlb s cl ptbase va a with
    | (.error i, s) => (.error (err i), s)
    | (.ok e, s) =>
      match leafChecks s (bits ptbase 0 6) va sp a e with
      | .error i => (.error (err i), s)
      | .ok pa => (.ok (pa, e.pte), s)
/-- The misses under way that an access to an address waits for (R29). -/
def walksFor (s : State) (cl : Nat) (tenant : Nat) (addr : DWord) : List Nat :=
  if 3 < spaceOf addr then []
  else (s.chip.walks.filter fun k => k.cls.contains cl && k.e.hits tenant (bits addr 0 51)).map (·.id)

/-- Give a free walk slot to the earliest miss that waits for one: its reads return within 960 ticks (R29). -/
def grantWalk (s : State) : State :=
  let wait := s.chip.walks.filter fun k => k.stage == .waits
  let first := sortBy (fun a b => decide (a.missed < b.missed) || (a.missed == b.missed && decide (a.key ≤ b.key))) wait
  match first with
  | [] => s
  | k :: _ =>
    if 64 ≤ (s.chip.walks.filter fun j => j.stage == .reads).length then s
    else
      let s := s.updChip fun h => { h with
        walks := h.walks.map fun j => if j.id = k.id then { j with stage := .reads } else j }
      let (d, s) := s.free 960
      s.sched (s.tick + d) (obj k.id) .pageTableReadReturn
/-- A miss ends (R28, R29, R32): its entry is installed unless an invalidation caught it, and invalidations that waited
for it may complete. -/
def endWalk (s : State) (k : Walk) : State :=
  let s := if k.install then k.cls.foldl (fun s cl => tlbFillCluster s cl k.e) (if k.shared then s else tlbFillShared s k.e) else s
  let s := s.updChip fun h => { h with
    walks := h.walks.filter fun j => j.id != k.id
    invs := h.invs.map fun i => { i with walks := i.walks.filter (· != k.id) } }
  (s.chip.invs.filter fun i => i.walks.isEmpty).foldl
    (fun s i => s.sched s.tick (obj i.id) .tlbInvalidationComplete) s

/-- Drop the TLB entries that a predicate names, on the whole chip, and keep walks in flight from being
installed (R32). What goes on once it completes is named: an issuer that waits, happenings of firmware. -/
def invalidateThen (s : State) (w : Option Iss) (next : List (Iss × Instr)) (f : TlbE → Bool) : State :=
  let s := s.updChip fun h => { h with
    shTlb := h.shTlb.filter fun e => !f e
    clusters := h.clusters.map fun c => { c with tlb := c.tlb.filter fun e => !f e }
    walks := h.walks.map fun k => { k with install := false } }
  let (k, s) := s.fresh
  let s := s.updChip fun h => { h with invs := h.invs ++ [⟨k, h.walks.map (·.id), w, next⟩] }
  if s.chip.walks.isEmpty then s.sched s.tick (obj k) .tlbInvalidationComplete else s
def invalidate (s : State) (w : Option Iss) (f : TlbE → Bool) : State := invalidateThen s w [] f
/-- TLB_INVALIDATION_COMPLETE (R32, R369): the issuer that waits for it goes on, and firmware too. -/
def execTlbInvalidationComplete (s : State) : Out :=
  let k := s.cur.n
  match s.chip.invs.find? fun i => i.id == k with
  | none => .next s
  | some i =>
    let s := s.updChip fun h => { h with invs := h.invs.filter fun j => j.id != k }
    let s := i.next.foldl (fun s e => s.sched s.tick e.1 e.2) s
    match i.w with
    | none => .next s
    | some w => .next (s.updIss w fun me =>
        if me.wait = .inv k then { me with wait := .run, nextAt := max me.nextAt s.tick } else me)

/-! ### Poison (R23 to R27) -/

/-- Set or clear the granule and summary bits of an HBM granule of this chip (R26). -/
def setGranule (s : State) (pa : Nat) (on : Bool) : State :=
  let g := pa % 2 ^ 40 / 4096
  let base := frame s.chip.psnbase
  let k := keyHbm (base + g / 8)
  let b := s.byte k
  let m : Byte := 1 <<< (g % 8)
  let s := s.setByte k (if on then b ||| m else b &&& ~~~m)
  if on then
    let k := keyHbm (base + 0x1800000 + g / 2 ^ 15 / 8)
    s.setByte k (s.byte k ||| (1 <<< (g / 2 ^ 15 % 8)))
  else s
/-- Mark a granule of this chip's HBM poisoned, and update the TLBs within 64 ticks (R26, R59). -/
def poisonGranule (s : State) (pa : Nat) : State :=
  let s := if psnBaseOk s then setGranule s pa true else s
  let (d, s) := s.free 64
  s.sched (s.tick + d) (obj 0) (.poisonUpdate (pa / 4096) true)
/-- The granule an entry's page offset range covers: whether the entry maps granule g (52-bit physical
address over 4,096). -/
def TlbE.covers (e : TlbE) (g : Nat) : Bool :=
  let sh := levelShift e.level
  let base := if e.whole then frame e.pte else frame e.pte + e.vpn * 2 ^ 15 % 2 ^ sh
  let size := if e.whole then 2 ^ sh else 2 ^ 15
  decide (base / 4096 ≤ g) && decide (g < (base + size) / 4096)
/-- The entry with a granule's poison bit set or clear, when it covers the granule. -/
def TlbE.mark (e : TlbE) (g : Nat) (psn : Bool) : TlbE :=
  if e.covers g then
    { e with psn := if psn then e.psn ||| ((1 : Byte) <<< (g % 8)) else e.psn &&& ~~~((1 : Byte) <<< (g % 8)) }
  else e
/-- Every TLB entry that covers a granule sets or clears its bit, and a whole one goes; the entries of walks under way
too: a whole one is not installed (R26; DEDUCED, log 35). -/
def markTlbs (s : State) (g : Nat) (psn : Bool) : State :=
  let upd := fun l : List TlbE => (l.filter fun e => !(e.whole && e.covers g)).map fun e => e.mark g psn
  s.updChip fun h => { h with
    shTlb := upd h.shTlb, clusters := h.clusters.map fun c => { c with tlb := upd c.tlb }
    walks := h.walks.map fun k =>
      if k.e.whole && k.e.covers g then { k with install := false } else { k with e := k.e.mark g psn } }
/-- POISON_UPDATE (R26). -/
def execPoisonUpdate (g : Nat) (psn : Bool) (s : State) : Out := .next (markTlbs s g psn)
/-- Remove a granule from the remote poison table (R24). -/
def remoteClear (s : State) (pa : Nat) : State :=
  (List.range 8).foldl (fun s k =>
    let key := bucketKey s pa + 8 * k
    let e := s.dword key
    if bit e 0 && bits e 12 40 == pa / 4096 then s.setBytes key (toBytes 8 0) else s) s
/-- Enter a granule in the remote poison table; none when its bucket is full (R24). -/
def remoteEnter (s : State) (pa : Nat) : Option State :=
  let e := BitVec.ofNat 64 (pa / 4096 * 4096 + 1)
  let b := bucket s pa
  if b.contains e then some s
  else match (List.range 8).find? fun k => !bit (nth b k 0) 0 with
    | some k => some (s.setBytes (bucketKey s pa + 8 * k) (toBytes 8 e.toNat))
    | none => none
/-- Firmware has rewritten whole granules of this chip's HBM, from one up (R26): their bits go, the summary bit of a
block left clean too, and the TLB entries that cover them are invalidated. The notices to the other chips' firmware
leave the chip. -/
def clearGranules (s : State) (pa n : Nat) : State :=
  if !psnBaseOk s then s
  else
    let gs := (List.range n).map fun k => pa / 4096 + k
    let bad := gs.filter fun g => (spanBits s (g * 4096)).getLsbD (g % 8)
    if bad.isEmpty then s
    else
      let s := bad.foldl (fun s g => setGranule s (g * 4096) false) s
      let clean := ((bad.map fun g => g % 2 ^ 28 / 2 ^ 15).eraseDups).filter fun m =>
        (s.bytes (keyHbm (frame s.chip.psnbase + m * 4096)) 4096).all (· == 0)
      let s := clean.foldl (fun s m =>
        let k := keyHbm (frame s.chip.psnbase + 0x1800000 + m / 8)
        s.setByte k (s.byte k &&& ~~~((1 : Byte) <<< (m % 8)))) s
      invalidate s none fun e => bad.any e.covers
/-- POISON_CLEAR_NOTICE (R24): the entry goes, and every TLB entry that covers the granule. -/
def execPoisonClearNotice (g : Nat) (s : State) : Out :=
  .next (invalidate (remoteClear s (g * 4096)) none fun e => e.covers g)

/-! ### Firmware's writes of HBM (R26, R61) -/

/-- What firmware's write of n bytes of HBM leaves beside them: the sectors are unstamped, and granules of this chip that it
has rewritten whole are clean again (R26, R61). -/
def fwWrote (s : State) (pa n : Nat) : State :=
  let s := { s with stamps := s.stamps.filter fun e => !(decide (pa / 64 ≤ e.1) && decide (e.1 * 64 < pa + n)) }
  let g := (pa + 4095) / 4096
  if localHbm pa then clearGranules s (g * 4096) ((pa + n) / 4096 - g) else s
/-- The bytes of dwords. -/
def dwBytes (ds : List DWord) : List Byte := (ds.map fun d => toBytes 8 d.toNat).flatten
/-- Firmware writes bytes of HBM. -/
def fwStore (s : State) (pa : Nat) (bs : List Byte) : State := fwWrote (s.setBytes (keyHbm pa) bs) pa bs.length

end Sys2Proof.Machine
end

