-- ==== Sys2Proof/Machine/Pool.lean ====
section
/-!
DEFINITION. The scratchpad: addresses, the lane checks and the fault mask, banks, and reads and writes with
their initialised and poison bits (R9, R11, R39 to R46).
-/
namespace Sys2Proof.Machine

/-- The core and offset that a space-4 or space-5 address names; none when bits that must be zero are
not (R9, R11). -/
def poolAddr (co : Nat) (a : DWord) : Option (Nat × Nat) :=
  if spaceOf a = 4 then (if bits a 24 36 = 0 then some (co, bits a 0 24) else none)
  else if bits a 30 30 = 0 then some (bits a 24 6, bits a 0 24) else none

/-- Whether an entry's rows or scales hold a byte (R48). -/
def Win.holds (e : Win) (off : Nat) : Bool :=
  e.v && ((decide (e.sbase ≤ off) && decide (0 < e.sstride) && decide ((off - e.sbase) / e.sstride < e.rows) &&
      decide ((off - e.sbase) % e.sstride < e.rbytes)) ||
    (decide (e.scloff ≤ off) && decide (off < e.scloff + e.scllen)))
/-- The valid entries that hold a byte, by index. -/
def Core.winsAt (c : Core) (off : Nat) : List (Nat × Win) := c.wins.filter fun w => w.2.holds off
def Core.win (c : Core) (n : Nat) : Win := (assoc c.wins n).getD {}
def Core.setWin (c : Core) (n : Nat) (e : Win) : Core := { c with wins := assocSet c.wins n e }
/-- The ranges of scratchpad bytes that an entry's rows and scales take: first byte and length (R48). -/
def Win.spans (e : Win) : List (Nat × Nat) :=
  ((List.range e.rows).map fun i => (e.sbase + i * e.sstride, e.rbytes)) ++ [(e.scloff, e.scllen)]
/-- Whether a byte is operand-locked at tick t, whatever has become of the window since (R53, R320). -/
def Core.locked (c : Core) (t off : Nat) : Bool :=
  c.locks.any fun l => (match l.until_ with | none => true | some u => decide (t < u)) &&
    l.spans.any fun r => decide (r.1 ≤ off) && decide (off < r.1 + r.2)

/-- The first check of R44 that an access of n bytes fails, and its cause; LDH makes only some of them. -/
def spCheck (c : Core) (t : Nat) (a : Option (Nat × Nat)) (n : Nat) (write ldh : Bool) : Option Nat :=
  match a with
  | none => some 1
  | some (_, off) =>
    if c.scSize < off + n then some 1
    else if write && (List.range n).any fun k => c.locked t (off + k) then some 5
    else if !write && !ldh && (c.winsAt off).any fun w => w.2.state != .full && w.2.state != .draining then some 3
    else if write && (c.winsAt off).any fun w => w.2.state != .free then some 4
    else if !write && !Sparse.get false c.scInit (off / 64) then some 2
    else none

/-- The bytes of a scratchpad; an uninitialised sector reads zero. -/
def spRead (s : State) (cl co off n : Nat) : List Byte := s.bytes (keySp cl co off) n
/-- The whole sector that holds an offset. -/
def spSector (s : State) (cl co off : Nat) : List Byte := spRead s cl co (off / 64 * 64) 64

/-- Log a scratchpad sector for every block of the core before it is written (R197). -/
def logSector (s : State) (cl co sec : Nat) : State :=
  s.updCore cl co fun c =>
    let slot := LogSlot.scratch sec (spRead s cl co (sec * 64) 64)
      (Sparse.get false c.scInit sec) (Sparse.get false c.scPsn sec)
    { c with blocks := c.blocks.map fun b => if b.ended then b else b.addLog s.tick slot }
/-- Write bytes that lie in one sector (R43). -/
def spWrite (s : State) (cl co off : Nat) (bs : List Byte) : State :=
  let sec := off / 64
  let s := logSector s cl co sec
  let s := if Sparse.get false (s.core cl co).scInit sec then s
    else s.setBytes (keySp cl co (sec * 64)) (List.replicate 64 0)
  let s := s.setBytes (keySp cl co off) bs
  s.updCore cl co fun c => { c with
    scInit := Sparse.set false c.scInit sec true
    scPsn := if bs.length = 64 then Sparse.set false c.scPsn sec false else c.scPsn }
/-- Clear the poison bits of the sectors that one write has covered whole, by its lanes' offsets and size (R43). -/
def spCover (s : State) (cl co n : Nat) (offs : List Nat) : State :=
  let secs := (offs.map (· / 64)).eraseDups
  let whole := secs.filter fun k => decide (64 ≤ ((offs.filter fun o => o / 64 == k).eraseDups).length * n)
  s.updCore cl co fun c => { c with scPsn := whole.foldl (fun m k => Sparse.set false m k false) c.scPsn }
/-- Set a sector's poison bit. -/
def spPoison (s : State) (cl co sec : Nat) : State :=
  s.updCore cl co fun c => { c with scPsn := Sparse.set false c.scPsn sec true }
def Core.psnAt (c : Core) (off : Nat) : Bool := Sparse.get false c.scPsn (off / 64)

/-- Switch-offs in the order of their lanes: the lowest is recorded (R46). -/
def laneOrder (offs : List (Nat × Nat)) : List (Nat × Nat) := sortBy (fun a b => decide (a.1 ≤ b.1)) offs
/-- Record switch-offs of an instruction in the issuer's FMASK (R46). -/
def switchOff (s : State) (w : Iss) (offs : List (Nat × Nat)) (pc : Nat) : State :=
  if offs.isEmpty then s else (s.count 9 w offs.length).updIss w fun me => { me with fmask := recordOff me.fmask offs pc }

/-! ### Banks (R40, R41) -/

/-- An 8-byte word of a scratchpad of the cluster as one number, and the bank that holds it (R40). -/
def spWord (tc off : Nat) : Nat := tc * 2 ^ 21 + off / 8
def wordBank (w : Nat) : Nat := w / 2 ^ 21 * 32 + w % 32
/-- Bank passes of the words that one pass asks for: the most in any one bank (R40). -/
def bankPasses (words : List Nat) : Nat :=
  words.eraseDups.foldl (fun m w => max m (words.eraseDups.filter fun v => wordBank v == wordBank w).length) 1
/-- Whether access b comes before the cluster access a of the same tick and bank: a local one does, and a cluster
access of a lower core or slot (R41). -/
def BankUse.before (b a : BankUse) : Bool :=
  a.cross && b.tick == a.tick && b.bank == a.bank && b.src != a.src && (!b.cross || decide (b.src < a.src))

end Sys2Proof.Machine
end

