-- ==== Sys2Proof/Machine/Recovery.lean ====
section
/-!
DEFINITION. The units of recovery above the region: Rind intervals and block rollback (R195 to R202), the
end of a block and its exit record (R150, R414), and the termination of grids (R152, R409).
-/
namespace Sys2Proof.Machine

/-! ### Blocks and grids -/

def Core.block (c : Core) (bi : Nat) : Block :=
  match c.blocks.find? fun b => b.idx == bi with
  | some b => b
  | none => { idx := bi, ended := true }
def Core.setBlock (c : Core) (b : Block) : Core :=
  { c with blocks := c.blocks.map fun o => if o.idx = b.idx then b else o }
/-- The issuers of a block, and the front thread when the core holds one block (R195). -/
def Core.parties (c : Core) (bi : Nat) : List Nat :=
  ((c.issuers.filter fun i => i.slot < 16 ∧ i.bidx = bi).map (·.slot)) ++
    (if c.bpc = 1 ∧ c.fv then [16] else [])
/-- A party is live while its slot is not empty (R150). -/
def Core.liveParties (c : Core) (bi : Nat) : List Nat :=
  (c.parties bi).filter fun n => (c.iss n).wait != .ended
/-- The block that an issuer's rollback concerns (R190, R199). -/
def Core.blockOf (c : Core) (n : Nat) : Option Nat :=
  if n = 16 then (if c.bpc = 1 then some 0 else none) else some (c.iss n).bidx

/-- The exit record of a block (R414, R47). -/
def exitRecord (c : Core) (b : Block) : Rec :=
  let ws := c.issuers.filter fun i => i.slot < 16 ∧ i.bidx = b.idx
  let fm := ws.foldl (fun a i => a ||| bits i.fmask 0 5) 0
  let fl := ws.foldl (fun a i => a ||| bits i.flags 0 5) 0
  let first := ws.find? fun i => bit i.fmask 15
  let fe := match first with | some i => i.fmask | none => 0
  let fw := match first with | some i => i.slot | none => 0
  [BitVec.ofNat 64 (b.num % 2 ^ 24 + b.status * 2 ^ 24 + fm * 2 ^ 32 + b2n first.isSome * 2 ^ 37 + fw * 2 ^ 38 +
      bits fe 8 7 * 2 ^ 42 + bits fe 16 4 * 2 ^ 49 + bits fe 20 4 * 2 ^ 53 + b2n b.sloss * 2 ^ 57),
    BitVec.ofNat 64 (bits fe 24 19 + b.rolls % 2 ^ 32 * 2 ^ 32),
    BitVec.ofNat 64 (b.fchip.toNat + b.fsw.toNat * 2 ^ 16 + b2n b.spsn * 2 ^ 18 + b2n b.slost * 2 ^ 19),
    BitVec.ofNat 64 fl, 0, 0]

def State.grid (s : State) (g : Nat) : Option Grid := s.fw.grids.find? fun x => x.id == g
def State.updGrid (s : State) (g : Nat) (f : Grid → Grid) : State :=
  { s with fw := { s.fw with grids := s.fw.grids.map fun x => if x.id = g then f x else x } }
def State.dom (s : State) (d : Nat) : Option Dom := s.fw.doms.find? fun x => x.id == d
def State.updDom (s : State) (d : Nat) (f : Dom → Dom) : State :=
  { s with fw := { s.fw with doms := s.fw.doms.map fun x => if x.id = d then f x else x } }
/-- A domain and its ancestors, nearest first. -/
def State.chain (s : State) : Nat → Nat → List Dom
  | 0, _ => []
  | f + 1, d =>
    match s.dom d with
    | none => []
    | some x => x :: (match x.parent with | some p => s.chain f p | none => [])
def State.ancestors (s : State) (d : Nat) : List Dom := s.chain (s.fw.doms.length + 1) d
/-- Whether domain d lies in the subtree of domain r. -/
def State.inSubtree (s : State) (r d : Nat) : Bool := (s.ancestors d).any fun x => x.id == r
/-- FD of a domain (R375). -/
def Dom.fd (d : Dom) : Bool := bit (nth d.dw 0 0) 1
/-- The grids that end with grid g (R152): those of the nearest enclosing fault domain. -/
def State.companions (s : State) (g : Nat) : List Nat :=
  match s.grid g with
  | none => [g]
  | some x =>
    match (s.ancestors x.dom).find? Dom.fd with
    | none => [g]
    | some d => (s.fw.grids.filter fun y =>
        (y.state == 0 || y.state == 1 || y.state == 2 || y.state == 3 || y.state == 7) && s.inSubtree d.id y.dom).map (·.id)

/-- Stop a core's issuers and engines for good (R409): held effects are dropped, what was presented
stands, and open blocks report status 5 (R414). -/
def stopCore (c : Core) (status : Nat) : Core :=
  let c : Core := { c with blocks := c.blocks.map fun b =>
    if b.ended then b
    else
      let b : Block := { b with ended := true, status := if b.status = 0 then status else b.status }
      { b with exitRec := some (exitRecord c b) } }
  { c with
    active := false, inTurn := false
    issuers := c.issuers.map fun i => { i with
      wait := .ended, regions := [], presq := [], pend := [], redo := none, retry := none }
    matq := [], gatq := [], arms := [], efq := [], wcmds := [], drains := [], fills := [], jobs := []
    streams := c.streams.map fun st => { st with running := false } }
/-- End one grid by firmware (R409): its slot takes the record's dwords when it retires. -/
def endGrid (s : State) (g rstat : Nat) (r : Rec) : State :=
  match s.grid g with
  | none => s
  | some x =>
    if x.state = 4 ∨ x.state = 5 ∨ x.state = 6 ∨ (x.state = 0 ∧ x.rstat ≠ 0) then s
    else
      let s := if x.state = 2 then x.cores.foldl (fun s k => s.updCore k.1 k.2 fun c => stopCore c 5) s
        else { s with fw := { s.fw with ctxs := s.fw.ctxs.filter fun c => c.grid != g } }
      let s := s.updGrid g fun x => { x with state := 5, rstat := rstat, sdwords := r.take 7 }
      s.sched s.tick (obj g) .packetRetire
/-- Terminate a grid and its companions (R152). -/
def terminateGrid (s : State) (g : Nat) (r : Rec) : State :=
  (s.companions g).foldl (fun s k => endGrid s k 10 r) s
/-- Terminate the grid that runs on a core. -/
def terminateAt (s : State) (cl co : Nat) (r : Rec) : State :=
  match (s.core cl co).grid with
  | some g => terminateGrid s g r
  | none => s.updCore cl co fun c => stopCore c 5

/-- A recovery event's record (R401, R405). -/
def recoveryRec (s : State) (w : Iss) (sub num tick : Nat) : Rec :=
  mkRec w 0 0 0 s.tick 0 { cls := 0x15, sub := sub, d0 := BitVec.ofNat 64 (sub + num * 2 ^ 8), d1 := BitVec.ofNat 64 tick }
/-- A recovery event, which firmware logs (R401). -/
def recovery (s : State) (w : Iss) (sub num : Nat) (tick : Nat) : State := reportFw s (recoveryRec s w sub num tick)

/-! ### Rind intervals -/

/-- Kind of a held effect or blocking point in an effect record (R198; log 7). -/
def effKind (i : Instr) : Nat :=
  match i with
  | .st .. => 1 | .red .. => 2 | .atom .. => 3 | .stMc .. => 4
  | .wdef .. => 5 | .wdrain .. => 6 | .wrel .. => 7
  | .phreg .. => 8 | .phsig .. => 9 | .phdrop .. => 10 | .phsw .. => 11 | .phwait .. => 12
  | .dqpush .. => 13 | .mma .. => 14 | .mmas .. => 15 | .mgath .. => 16 | .cmprs .. => 17
  | .accz .. => 18 | .accmv .. => 19 | .accld .. => 20 | .epi .. => 21 | .epset .. => 22
  | .efork .. => 23 | .coll .. => 24 | .tokapp .. => 25 | .tokappD .. => 26 | .tokconf .. => 27
  | .sloew .. => 28 | .csrw .. => 29 | .csrs .. => 30 | .csrc .. => 31 | .halt .. => 32
  | .fence .. => 33 | .bar .. => 34 | .ssync .. => 35 | .sys .. => 36 | .oalloc .. => 37
  | .ofree .. => 38 | .ld .. => 39 | .ldh .. => 40 | .wtouch .. => 41 | .hwait .. => 42
  | .cwait .. => 43 | .glaunch .. => 44 | .trap .. => 45 | .trapf .. => 46 | .iret .. => 47
  | .bkpt .. => 48 | .dqpop .. => 49
  | _ => 0
/-- The 56-bit signature of an effect's kind and address (R198; log 7). -/
def effSig (h : Held) : BitVec 56 :=
  Config.signature (effKind h.i :: h.wins ++ (h.lanes.map fun l => [l.lane, l.va.toNat]).flatten)
/-- Append a record of a party to its block's newest interval (R198): of a held effect, or of the outcome of a
blocking point. -/
def logEffect (s : State) (w : Iss) (out : Bool) (sig : BitVec 56) (res : List (Nat × DWord)) : State :=
  match (s.coreOf w).blockOf w.n with
  | none => s
  | some bi => s.updCore w.cl w.co fun c =>
    let b := c.block bi
    match b.ivals with
    | [] => c
    | iv :: t => c.setBlock { b with ivals := iv.record w.n out sig res :: t }
/-- Put the results of a returning atomic into its effect record (R198). -/
def noteResult (s : State) (w : Iss) (h : Held) (res : List (Nat × DWord)) : State :=
  match (s.coreOf w).blockOf w.n with
  | none => s
  | some bi => s.updCore w.cl w.co fun c =>
    let b := c.block bi
    c.setBlock { b with
      ivals := b.ivals.map fun (iv : Ival) =>
      let mine := fun e : Nat × Bool × BitVec 56 × List (Nat × DWord) =>
        e.1 == w.n && !e.2.1 && e.2.2.1 == effSig h && e.2.2.2.isEmpty
      if iv.effects.any mine then
        { iv.take ((res.length + 7) / 8) (.results w.n (iv.effects.filter fun e => e.1 == w.n).length (res.map (·.2))) with
          effects := iv.effects.map fun e => if mine e then (e.1, false, e.2.2.1, res) else e }
      else iv
    }

/-- The sectors that a log slot saves, each with its tag (R196). A tile's first accumulator sector follows the register file
and the scratchpad in the pool (R34). -/
def LogSlot.sectors (c : Core) : LogSlot → List (Nat × List Byte)
  | .scratch sec bs _ _ => [(sec % 2 ^ 18 * 4, bs)]
  | .vreg sl r g vals => [(1 + (g * 2 ^ 4 + r * 2 ^ 7 + sl * 2 ^ 16), (vals.map fun v => toBytes 4 v.toNat).flatten)]
  | .acc t vals => (List.range 256).map fun k =>
      (2 + (256 * (bits c.partw 8 8 + c.scb) + 256 * t + k) * 4,
        ((List.range 16).map fun j => toBytes 4 (Sparse.get (0 : Word) vals (16 * k + j)).toNat).flatten)
/-- Write one item of an interval to its slots (R196, R198): the sectors or the record, and their tags. The records' eighth
byte, which R198 does not give, is a free value (log 40). -/
def putRind (s : State) (c : Core) (part : Nat) (e : Nat × RindItem) : State :=
  let tagAt := fun (s : State) (slot v : Nat) => fwStore s (part + 0x20000 + 4 * slot) (toBytes 4 v)
  match e.2 with
  | .old l => ((l.sectors c).zip (List.range 256)).foldl (fun s x =>
      tagAt (fwStore s (part + 64 * (e.1 + x.2)) x.1.2) (e.1 + x.2) x.1.1) s
  | .effect w ord sig =>
    let (f, s) := s.free 255
    let s := fwStore s (part + 64 * e.1 + 8 * (ord % 8)) (toBytes 8 (sig.toNat + f * 2 ^ 56))
    tagAt s e.1 (3 + w * 2 ^ 2 + ord / 8 * 8 * 2 ^ 7)
  | .results w ord vals =>
    let s := fwStore s (part + 64 * e.1) (dwBytes vals)
    (List.range ((vals.length + 7) / 8)).foldl (fun s k => tagAt s (e.1 + k) (3 + w * 2 ^ 2 + ord * 2 ^ 7)) s
/-- What the blocks of a core have logged travels to their Rind areas (R197). -/
def flushRind (s : State) (cl co : Nat) : State :=
  let c := s.core cl co
  if c.blocks.all fun b => b.ivals.all fun iv => iv.sent.isEmpty then s
  else
    let s := c.blocks.foldl (fun s b => b.ivals.foldl (fun s iv =>
      match b.area with
      | some a => iv.sent.foldl (fun s e => putRind s c (a + iv.part * 0x2A000) e) s
      | none => s) s) s
    s.updCore cl co fun c => { c with blocks := c.blocks.map fun b => { b with
      ivals := b.ivals.map fun iv => { iv with sent := [] } } }
/-- Open an interval of a block (R197): the snapshot is taken. Barrier parts A and B, used in turn, and the superstep
part, each keep one interval (R196), the newest first. -/
def openInterval (s : State) (cl co bi : Nat) (sup : Bool) : State :=
  (flushRind s cl co).updCore cl co fun c =>
    let b := c.block bi
    let iv : Ival := {
      part := if sup then 2 else match b.ivals.find? fun o => !o.superstep with | some o => 1 - o.part | none => 0
      opened := s.tick, estAt := s.tick + 2400, superstep := sup
      issuers := (c.parties bi).map c.iss
      sregs := c.sregs, gpreds := c.gpreds, lc := c.lc, wins := c.wins, handles := c.handles
      dq := c.dq, dqBase := c.dqBase }
    let olds := (b.ivals.filter fun o => !o.superstep).take (if sup then 2 else 1)
    c.setBlock { b with ivals := iv :: b.ivals.filter fun o => if o.superstep then !sup else olds.contains o }

/-- Undo one log slot (R200). -/
def restoreSlot (s : State) (cl co : Nat) (l : LogSlot) : State :=
  match l with
  | .scratch sec bs init psn =>
    (s.setBytes (keySp cl co (sec * 64)) bs).updCore cl co fun c => { c with
      scInit := Sparse.set false c.scInit sec init, scPsn := Sparse.set false c.scPsn sec psn }
  | .vreg sl r g vals =>
    s.updCore cl co fun c => c.setIss { c.iss sl with
      vregs := (List.range 16).foldl (fun m k =>
        Sparse.set (0 : Word) m (vkey r (16 * g + k)) (nth vals k 0)) (c.iss sl).vregs }
  | .acc t vals =>
    s.updCore cl co fun c => { c with
      accC := (vals.foldl (fun m v => Sparse.set (0 : Word) m (t * 4096 + v.1) v.2)
        (c.accC.filter fun e => e.1 / 4096 != t)), vers := c.vers.filter fun v => v.tile != t }
/-- Kill a block (R399): its parties end, and its exit record names the cause. What ends with them is judged at the next
happening of the tick. -/
def killBlock (s : State) (cl co bi status : Nat) : State :=
  let s := s.updCore cl co fun c =>
    let c : Core := { c with issuers := c.issuers.map fun i =>
      if (c.parties bi).contains i.slot then
        { i with wait := .ended, regions := [], presq := [], pend := [], redo := none, retry := none } else i }
    let b : Block := { c.block bi with ended := true, status := status }
    c.setBlock { b with exitRec := some (exitRecord c b) }
  recovery (s.sched s.tick ⟨cl, co, 0⟩ .dqWordPoppable) ⟨cl, co, 16⟩ 6 0 0
/-- A party as a rollback leaves it (R200): the snapshot of R196 (FLAGEN and TRAPVEC are none of it, and
slot bindings only when the core holds one block), registers as the log restored them, no
region, and its effects of the intervals undone to be compared with their records. -/
def restoreParty (me snap : Issuer) (one : Bool) (t : Nat) (effs : List (Nat × Bool × BitVec 56 × List (Nat × DWord))) : Issuer :=
  { snap with
    flagen := me.flagen, trapvec := me.trapvec, phs := if one then snap.phs else me.phs
    vregs := me.vregs, pend := [], regions := [], presq := [], presBusy := false, redo := none, retry := none, flushed := false
    rcount := snap.rcount, wait := if snap.wait = .ended then .ended else .run
    nextAt := t + 1, entered := false, delay := 0
    suppress := (effs.filter fun e => e.1 == snap.slot).map fun e => (e.2.1, e.2.2.1.toNat, e.2.2.2) }

/-- Move a fenced core's work to the lowest-numbered free spare (R171, R202); false when none is free. -/
def fenceCore (s : State) (cl co : Nat) : Bool × State :=
  let cm := (s.chip.cluster cl).cmap
  let phys := (assoc cm.phys co).getD co
  let used := (List.range 64).map fun k => (assoc cm.phys k).getD k
  let spare := [64, 65].find? fun p => !(cm.fenced.contains p) && !(used.contains p)
  let s := s.updCluster cl fun c => { c with cmap := { c.cmap with
    phys := assocSet c.cmap.phys co (spare.getD 0x7F), fenced := c.cmap.fenced ++ [phys] } }
  let s := { s with fw := { s.fw with health := s.fw.health ++ [(cl, phys)] } }
  (spare.isSome, recovery s ⟨cl, co, 16⟩ 5 0 0)

/-- Put a party of a block back, in a region of its own that the snapshot's state starts (R200). -/
def reopen (s : State) (w : Iss) (p : Issuer) : State :=
  if p.wait = .ended then s else openRegion s w ((s.iss w).rnum + 1) 0 .start (s.iss w).pcs
/-- Roll a block back to its newest established interval (R199 to R202); poison counts poison faults. A second rollback
to one interval moves the core to a spare; a sector of the pool that the copy cannot read, a free value, kills the
block. -/
def rollback (s : State) (cl co bi : Nat) (poison : Bool) : State :=
  let b := (s.core cl co).block bi
  if b.ended then s
  else
    let n := match b.ivals with
      | iv :: _ :: _ => if iv.estAt ≤ s.tick then 1 else 2
      | _ => 1
    let undo := b.ivals.take n
    match undo.reverse with
    | [] => killBlock s cl co bi 1
    | tgt :: _ =>
      if undo.any (·.overflow) then killBlock s cl co bi 1
      else if poison ∧ 0 < tgt.poison then killBlock s cl co bi 3
      else
        let s := s.count 8 ⟨cl, co, 16⟩ 1
        let (ok, s) := if tgt.rolls = 0 then (true, s) else fenceCore s cl co
        let (bad, s) := if tgt.rolls = 0 then (0, s) else s.free 1
        if !ok then terminateAt s cl co (recoveryRec s ⟨cl, co, 16⟩ 5 0 0)
        else if bad = 1 then killBlock s cl co bi 4
        else
          let s := undo.foldl (fun s iv => iv.log.foldl (fun s l => restoreSlot s cl co l) s) s
          let effs := (undo.reverse.map (·.effects)).flatten
          let s := s.updCore cl co fun c =>
            let c := tgt.issuers.foldl (fun c p => c.setIss (restoreParty (c.iss p.slot) p (c.bpc == 1) s.tick effs)) c
            let c := if c.bpc = 1 then { c with
              sregs := tgt.sregs, gpreds := tgt.gpreds, lc := tgt.lc, wins := tgt.wins
              handles := tgt.handles } else c
            let c : Core := { c with dq := tgt.dq, dqBase := tgt.dqBase }
            let iv := effs.foldl (fun (iv : Ival) e => iv.record e.1 e.2.1 e.2.2.1 e.2.2.2) { tgt with
              log := [], rolls := tgt.rolls + 1, poison := tgt.poison + b2n poison
              effects := [], effSlots := [], sent := [], used := 0 }
            c.setBlock { b with
              ivals := iv :: b.ivals.drop n, rolls := b.rolls + 1, arrived := [], doneAt := none }
          let s := s.updChip fun h => { h with reqs := h.reqs.filter fun q =>
            !(q.w.cl == cl && q.w.co == co && tgt.issuers.any (fun p => p.slot == q.w.n) &&
              (q.kind == .load || q.kind == .stamp)) }
          let s := tgt.issuers.foldl (fun s p => reopen s ⟨cl, co, p.slot⟩ p) s
          recovery s ⟨cl, co, 16⟩ 4 0 0
/-- Roll back the block of an issuer; on a front thread that has none, the grid ends with the record (R190, R191). -/
def rollIssuer (s : State) (w : Iss) (poison : Bool) (r : Rec) : State :=
  match (s.coreOf w).blockOf w.n with
  | some bi => rollback s w.cl w.co bi poison
  | none => terminateAt s w.cl w.co r

/-- An escalation (R190): the issuer's block rolls back, or the grid ends as unrecoverable. -/
def escalate (s : State) (w : Iss) (cause : Nat) : State :=
  let rn := match (s.iss w).regions with | r :: _ => r.num | [] => (s.iss w).rnum
  let fl := fun me : Issuer => { me with
    flags := setBits (setBits me.flags 16 4 (1 + cause * 2)) 32 32 rn }
  (rollIssuer (s.updIss w fl) w false (recoveryRec s w 4 0 0)).updIss w fl

/-- A discard by a recovery cause (R186, R189 to R191): in lean mode the block rolls back; a re-entry
beyond the limit escalates. -/
def discardBy (s : State) (w : Iss) (k cause : Nat) (strike : Nat := 0) : State :=
  let c := s.coreOf w
  let me := c.iss w.n
  if me.regions.drop k == [] then s
  else if c.lean then rollIssuer s w false (recoveryRec s w 4 0 strike)
  else if k = 0 ∧ me.rlimit < me.rcount + 1 then escalate s w cause
  else
    let s := recovery (discardFrom s w k true) w (if cause = 1 then 1 else if cause = 3 then 3 else 2) 0 strike
    s.updIss w fun me => if me.wait = .run then { me with nextAt := max me.nextAt s.tick } else me

/-- The faults of translation, whose discard is a block rollback in lean mode (R186, R191). -/
def leanRolls (cls : Nat) : Bool := cls == 3 || cls == 4 || cls == 5 || cls == 6 || cls == 7
/-- A fault's record reaches who takes it once the issuer's regions are gone: in lean mode the block rolls back for a
translation fault, and a race ends the grid; a poison fault rolls the block back in every mode (R33, R45, R191). sel is
the trapping set, back the PCs from which it goes on. -/
def takeFault (s : State) (w : Iss) (r : Rec) (sel back : List Nat) : State :=
  let cls := bits (nth r 0 0) 0 8
  if cls = 8 then rollIssuer (reportFw s r) w true r
  else if (s.coreOf w).lean && cls == 9 then terminateAt s w.cl w.co r
  else if (s.coreOf w).lean && leanRolls cls then
    let s := rollIssuer s w false r
    if (s.iss w).wait = .ended then reportFw s r else deliver s w r s.tick sel (s.iss w).pcs
  else
    let s := discardAll s w false
    deliver s w r s.tick sel (match (s.iss w).redo with | some g => g.pcs | none => back)
/-- A fault of an issuer that an engine or a reply finds later than the instruction (R406). -/
def raiseLate (s : State) (w : Iss) (pc itick rnum : Nat) (i : TrapInfo) : State :=
  takeFault s w (mkRec w pc itick rnum s.tick pc i) ((s.iss w).selected ((s.coreOf w).lanes w.n)) (s.iss w).pcs

/-- A translation, scratchpad or race fault of an instruction, by its class and mode (R33, R45, R191). -/
def memFault (x : Ctx) (i : TrapInfo) : State :=
  let s := takeFault x.s x.w (mkRec x.w x.pc x.t x.me.regionNo x.t x.pc i) x.sel x.me.pcs
  if x.front && i.cls == 8 then s else turnOver x s
def memTrap (x : Ctx) (i : TrapInfo) : Out := .next (memFault x i)
/-- Deliver a faulted object's record at the instruction that names it (R407). -/
def raiseRec (x : Ctx) (s : State) (r : Rec) : State :=
  let r := setNth 0 r 5 (setBits (nth r 5 0) 41 23 x.pc)
  let s := discardAll s x.w false
  let back := match (s.iss x.w).redo with | some g => g.pcs | none => x.me.pcs
  turnOver x (deliver s x.w r x.t x.sel back)

end Sys2Proof.Machine
end

