-- ==== Sys2Proof/Machine/Num.lean ====
section
/-!
DEFINITION. Numbers and their formats (spec 05): decoding, exact arithmetic, the one rounding step,
and the bounds of the transcendentals (R269, R270).
-/
namespace Sys2Proof.Machine

/-- An exact value: a NaN (signalling or not), an infinity, or (-1)^neg × m × 2^e. -/
inductive Num where
  | nan (sig : Bool)
  | inf (neg : Bool)
  | fin (neg : Bool) (m : Nat) (e : Int)
  deriving DecidableEq, Repr

end Sys2Proof.Machine
namespace Sys2Proof

/-- Exponent bits, mantissa bits and bias of a float type (R93); an MX type has its element's. -/
def Ty.ebits : Ty → Nat
  | .f32 | .bf16 => 8
  | .f16 | .e5m2 | .mx8e5 => 5
  | .e4m3 | .mx8e4 => 4
  | .e3m2 | .mx6e3 => 3
  | .e2m3 | .mx6e2 | .e2m1 | .mx4 => 2
  | .i8 | .i32 | .e8m0 => 0
def Ty.mbits : Ty → Nat
  | .f32 => 23
  | .bf16 => 7
  | .f16 => 10
  | .e4m3 | .mx8e4 | .e2m3 | .mx6e2 => 3
  | .e5m2 | .mx8e5 | .e3m2 | .mx6e3 => 2
  | .e2m1 | .mx4 => 1
  | .i8 | .i32 | .e8m0 => 0
def Ty.bias : Ty → Nat
  | .f32 | .bf16 => 127
  | .f16 | .e5m2 | .mx8e5 => 15
  | .e4m3 | .mx8e4 => 7
  | .e3m2 | .mx6e3 => 3
  | .e2m3 | .mx6e2 | .e2m1 | .mx4 => 1
  | .i8 | .i32 | .e8m0 => 0
/-- Width of an element in bits (R93). -/
def Ty.bits : Ty → Nat
  | .f32 | .i32 => 32
  | .bf16 | .f16 => 16
  | .e4m3 | .e5m2 | .mx8e4 | .mx8e5 | .i8 | .e8m0 => 8
  | .e2m3 | .e3m2 | .mx6e2 | .mx6e3 => 6
  | .e2m1 | .mx4 => 4
/-- The largest finite encoding, sign clear (R94). -/
def Ty.maxCode : Ty → Nat
  | .f32 => 0x7F7FFFFF
  | .bf16 => 0x7F7F
  | .f16 => 0x7BFF
  | .e4m3 | .mx8e4 => 0x7E
  | .e5m2 | .mx8e5 => 0x7B
  | .e2m3 | .mx6e2 | .e3m2 | .mx6e3 => 0x1F
  | .e2m1 | .mx4 => 7
  | .i8 | .i32 | .e8m0 => 0
/-- The canonical NaN (R95). -/
def Ty.nan : Ty → Nat
  | .f32 => 0x7FC00000
  | .bf16 => 0x7FC0
  | .f16 => 0x7E00
  | .e4m3 | .mx8e4 => 0x7F
  | .e5m2 | .mx8e5 => 0x7E
  | .e2m3 | .mx6e2 | .e3m2 | .mx6e3 | .e2m1 | .mx4 | .i8 | .i32 | .e8m0 => 0
/-- Types with infinities (R95): FP32, BF16, FP16, E5M2. -/
def Ty.hasInf : Ty → Bool
  | .f32 | .bf16 | .f16 | .e5m2 | .mx8e5 => true
  | .e4m3 | .mx8e4 | .e2m3 | .mx6e2 | .e3m2 | .mx6e3 | .e2m1 | .mx4 | .i8 | .i32 | .e8m0 => false
/-- E4M3, which has a NaN and no infinity. -/
def Ty.isE4m3 : Ty → Bool
  | .e4m3 | .mx8e4 => true
  | .f32 | .bf16 | .f16 | .e5m2 | .mx8e5 | .e2m3 | .mx6e2 | .e3m2 | .mx6e3 | .e2m1 | .mx4 | .i8
  | .i32 | .e8m0 => false

end Sys2Proof
namespace Sys2Proof.Machine

/-- The value of an encoding (R94, R95); an integer type's two's complement value. -/
def tyNum (t : Ty) (v : Nat) : Num :=
  match t with
  | .i8 => let n := sext 8 v; .fin (n < 0) n.natAbs 0
  | .i32 => let n := sext 32 v; .fin (n < 0) n.natAbs 0
  | .e8m0 => if v % 256 = 255 then .nan false else .fin false 1 ((v % 256 : Nat) - 127)
  | _ =>
    let mb := t.mbits
    let mag := v % 2 ^ (t.bits - 1)
    let neg := v / 2 ^ (t.bits - 1) % 2 == 1
    let e := mag / 2 ^ mb
    let m := mag % 2 ^ mb
    if t.hasInf && e == 2 ^ t.ebits - 1 then
      if m = 0 then .inf neg else .nan (m / 2 ^ (mb - 1) == 0)
    else if t.isE4m3 && mag == 0x7F then .nan false
    else if e = 0 then .fin neg m (1 - (t.bias : Int) - mb)
    else .fin neg (2 ^ mb + m) ((e : Int) - t.bias - mb)

def Num.isNan : Num → Bool
  | .nan _ => true
  | .inf _ | .fin _ _ _ => false
def Num.sig : Num → Bool
  | .nan s => s
  | .inf _ | .fin _ _ _ => false
def Num.neg : Num → Num
  | .nan s => .nan s
  | .inf n => .inf (!n)
  | .fin n m e => .fin (!n) m e

/-- Whether the magnitude k + r/2^d (with a further part below when sticky) rounds up (R99, R104). -/
def roundsUp (r : Rnd) (neg : Bool) (k rem d : Nat) (sticky : Bool) (u : Word) : Bool :=
  let inexact := rem != 0 || sticky
  match r with
  | .rne => decide (2 ^ d < 2 * rem) || (2 * rem == 2 ^ d && (sticky || k % 2 == 1) && d != 0)
  | .rtz => false
  | .rdn => neg && inexact
  | .rup => !neg && inexact
  | .rna => d != 0 && decide (2 ^ d ≤ 2 * rem)
  | .sr => decide (u.toNat < rem * 2 ^ 32 / 2 ^ d)

/-- m × 2^e (and a further part when sticky) in units of 2^q: the rounded count and whether it is
inexact. A shift far below the lowest bit is cut short, which changes no outcome. -/
def roundUnits (r : Rnd) (neg : Bool) (m : Nat) (e q : Int) (sticky : Bool) (u : Word) : Nat × Bool :=
  if q ≤ e then (m * 2 ^ (e - q).toNat, sticky)
  else
    let d := min (q - e).toNat (Nat.log2 m + 40)
    let k := m / 2 ^ d
    let rem := m % 2 ^ d
    (if roundsUp r neg k rem d sticky u then k + 1 else k, rem != 0 || sticky)

/-- Round a finite non-zero magnitude to a float type under R100 and R101: encoding and flags. -/
def roundMag (t : Ty) (r : Rnd) (sat neg : Bool) (m : Nat) (e : Int) (sticky : Bool) (u : Word) :
    Nat × BitVec 5 :=
  let mb := t.mbits
  let sgn := if neg then 2 ^ (t.bits - 1) else 0
  let emin : Int := 1 - (t.bias : Int) - mb
  let e := min e 600
  let q := max emin ((Nat.log2 m : Int) + e - mb)
  let (k, inexact) := roundUnits r neg m e q sticky u
  let code := (q - emin).toNat * 2 ^ mb + k
  if t.maxCode < code then
    let toInf := match r with
      | .rne | .rna | .sr => true
      | .rtz => false
      | .rdn => neg
      | .rup => !neg
    let v :=
      if sat || t.isMx then sgn + t.maxCode
      else if t.hasInf then sgn + (if toInf then (2 ^ t.ebits - 1) * 2 ^ mb else t.maxCode)
      else if t.isE4m3 then 0x7F
      else sgn + t.maxCode
    (v, fOF ||| fNX)
  else
    (sgn + code, flagIf inexact fNX ||| flagIf (inexact && decide (code < 2 ^ mb)) fUF)

/-- Round a value to a float type (R100 to R102): encoding and flags. An infinity is not met by an MX
type here (R113). -/
def tyRound (t : Ty) (r : Rnd) (sat : Bool) (x : Num) (u : Word) : Nat × BitVec 5 :=
  match x with
  | .nan s => if t.nan = 0 then (0, fNV) else (t.nan, flagIf s fNV)
  | .inf n =>
    let sgn := if n then 2 ^ (t.bits - 1) else 0
    if t.hasInf then
      if sat then (sgn + t.maxCode, fNX) else (sgn + (2 ^ t.ebits - 1) * 2 ^ t.mbits, 0)
    else if t.isE4m3 && !sat then (0x7F, fNV)
    else (sgn + t.maxCode, fNV ||| fNX)
  | .fin n m e =>
    if m = 0 then ((if n then 2 ^ (t.bits - 1) else 0), 0) else roundMag t r sat n m e false u

/-- Round to an integer: the value and whether it is inexact (R99). -/
def roundInt (r : Rnd) (neg : Bool) (m : Nat) (e : Int) (u : Word) : Int × Bool :=
  let (k, inexact) := roundUnits r neg m (min e 200) 0 false u
  (if neg then -(k : Int) else k, inexact)
/-- Convert to an integer range with limits (R103): value and flags. -/
def toIntRange (r : Rnd) (lo hi : Int) (x : Num) (u : Word) : Int × BitVec 5 :=
  match x with
  | .nan _ => (0, fNV)
  | .inf n => (if n then lo else hi, fNV)
  | .fin n m e =>
    let (v, inexact) := roundInt r n m e u
    if v < lo then (lo, fNV) else if hi < v then (hi, fNV) else (v, flagIf inexact fNX)

/-- The exact sum of two finite values (R264 gives the sign of a zero). -/
def addFin (down : Bool) (n1 : Bool) (m1 : Nat) (e1 : Int) (n2 : Bool) (m2 : Nat) (e2 : Int) : Num :=
  let e := min e1 e2
  let a : Int := (m1 * 2 ^ (e1 - e).toNat : Nat)
  let b : Int := (m2 * 2 ^ (e2 - e).toNat : Nat)
  let v := (if n1 then -a else a) + (if n2 then -b else b)
  if v = 0 then .fin (if n1 = n2 then n1 else down) 0 0 else .fin (v < 0) v.natAbs e
/-- The exact sum, and whether it is an invalid operation (R102). -/
def Num.add (x y : Num) (down : Bool) : Num × Bool :=
  match x, y with
  | .nan _, _ => (.nan false, false)
  | _, .nan _ => (.nan false, false)
  | .inf a, .inf b => if a = b then (.inf a, false) else (.nan false, true)
  | .inf a, .fin _ _ _ => (.inf a, false)
  | .fin _ _ _, .inf b => (.inf b, false)
  | .fin a m e, .fin b n f => (addFin down a m e b n f, false)
/-- The exact product, and whether it is invalid. -/
def Num.mul (x y : Num) : Num × Bool :=
  match x, y with
  | .nan _, _ => (.nan false, false)
  | _, .nan _ => (.nan false, false)
  | .inf a, .inf b => (.inf (a != b), false)
  | .inf a, .fin b m _ => if m = 0 then (.nan false, true) else (.inf (a != b), false)
  | .fin a m _, .inf b => if m = 0 then (.nan false, true) else (.inf (a != b), false)
  | .fin a m e, .fin b n f => (.fin (a != b) (m * n) (e + f), false)
/-- x × 2^k. -/
def Num.scale (x : Num) (k : Int) : Num :=
  match x with
  | .nan s => .nan s
  | .inf n => .inf n
  | .fin n m e => .fin n m (e + k)

/-- Round the outcome of an exact operation: a NaN operand that signals, or an invalid operation,
sets NV (R96, R102). -/
def finishArith (t : Ty) (r : Rnd) (sat : Bool) (sig : Bool) (o : Num × Bool) (u : Word) :
    Nat × BitVec 5 :=
  match o.1 with
  | .nan _ => (t.nan, flagIf (sig || o.2 || t.nan == 0) fNV)
  | .inf _ | .fin _ _ _ => let (v, f) := tyRound t r sat o.1 u; (v, f ||| flagIf (sig || o.2) fNV)

/-- FADD, FMUL and the fused forms on encodings of one type (R263, R264, R266). -/
def fAdd (t : Ty) (r : Rnd) (sat : Bool) (a b : Nat) (u : Word) : Nat × BitVec 5 :=
  let x := tyNum t a
  let y := tyNum t b
  finishArith t r sat (x.sig || y.sig) (x.add y (r == .rdn)) u
def fSub (t : Ty) (r : Rnd) (sat : Bool) (a b : Nat) (u : Word) : Nat × BitVec 5 :=
  let x := tyNum t a
  let y := tyNum t b
  finishArith t r sat (x.sig || y.sig) (x.add y.neg (r == .rdn)) u
def fMul (t : Ty) (r : Rnd) (sat : Bool) (a b : Nat) (u : Word) : Nat × BitVec 5 :=
  let x := tyNum t a
  let y := tyNum t b
  finishArith t r sat (x.sig || y.sig) (x.mul y) u
/-- ±(a × b) ± c: negP negates the product, negC the addend. An invalid product gives NaN whatever c
holds. -/
def fFma (t : Ty) (r : Rnd) (sat negP negC : Bool) (a b c : Nat) (u : Word) : Nat × BitVec 5 :=
  let x := tyNum t a
  let y := tyNum t b
  let z := tyNum t c
  let p := x.mul y
  let q := if negP then p.1.neg else p.1
  let z' := if negC then z.neg else z
  let o := q.add z' (r == .rdn)
  finishArith t r sat (x.sig || y.sig || z.sig) (o.1, p.2 || o.2) u

/-- The order key of a number that is not a NaN: -0 below +0 when zeros are told apart. -/
def Num.lt (x y : Num) (zsign : Bool) : Bool :=
  match x, y with
  | .nan _, _ => false
  | _, .nan _ => false
  | .inf a, .inf b => a && !b
  | .inf a, .fin _ _ _ => a
  | .fin _ _ _, .inf b => !b
  | .fin a m e, .fin b n f =>
    let k := min e f
    let u : Int := (m * 2 ^ (e - k).toNat : Nat)
    let v : Int := (n * 2 ^ (f - k).toNat : Nat)
    let u := if a then -u else u
    let v := if b then -v else v
    decide (u < v) || (zsign && u == v && m == 0 && a && !b)
/-- Smaller or larger operand (R265): encoding and flags. -/
def fMinMax (t : Ty) (max : Bool) (a b : Nat) : Nat × BitVec 5 :=
  let x := tyNum t a
  let y := tyNum t b
  let fl := flagIf (x.sig || y.sig) fNV
  let v :=
    if x.isNan then (if y.isNan then t.nan else b)
    else if y.isNan then a
    else if max then (if x.lt y true then b else a)
    else if y.lt x true then b else a
  (v % 2 ^ t.bits, fl)
/-- A float condition (R250): value and flags. -/
def fCmp (t : Ty) (c : Cond) (a b : Nat) : Bool × BitVec 5 :=
  let x := tyNum t a
  let y := tyNum t b
  let un := x.isNan || y.isNan
  let lt := x.lt y false
  let gt := y.lt x false
  let eq := !un && !lt && !gt
  let v := match c with
    | .eq => eq | .ne => !eq
    | .lt => lt | .le => lt || eq | .gt => gt | .ge => gt || eq
    | .un => un | .ord => !un
    | .ltu | .leu | .gtu | .geu => false
  (v, flagIf (x.sig || y.sig) fNV)
/-- The class mask of a value (R267). -/
def fClass (t : Ty) (a : Nat) : Nat :=
  match tyNum t a with
  | .nan true => 256
  | .nan false => 512
  | .inf true => 1
  | .inf false => 128
  | .fin n m e =>
    if m = 0 then (if n then 8 else 16)
    else if m < 2 ^ t.mbits ∧ e = 1 - (t.bias : Int) - t.mbits then (if n then 4 else 32)
    else if n then 2 else 64

/-! ### Square root and the bounds of the transcendentals -/

/-- Integer square root by bits, from bit n down. -/
def isqrtGo : Nat → Nat → Nat → Nat
  | 0, _, r => r
  | n + 1, x, r => let c := r + 2 ^ n; isqrtGo n x (if c * c ≤ x then c else r)
/-- floor (sqrt x) for x below 2^(2n). -/
def isqrt (n x : Nat) : Nat := isqrtGo n x 0
/-- Bits of the fixed point of the bounds below. -/
def fixP : Nat := 248
/-- Σ (-1)^k y^(2k+1)/((2k+1) d^(2k+1)) for y = 1: the arctangent of 1/d, n terms. -/
def atanInv (d : Nat) : Nat → Nat → Nat → Bool → Int → Int
  | 0, _, _, _, acc => acc
  | n + 1, pw, k, sub, acc =>
    let term : Int := (pw / k : Nat)
    atanInv d n (pw / (d * d)) (k + 2) (!sub) (if sub then acc - term else acc + term)
/-- Half of pi (Machin's formula) and the natural logarithm of 2, in fixed point. -/
def fixHalfPi : Nat :=
  ((8 * atanInv 5 60 (2 ^ fixP / 5) 1 false 0 - 2 * atanInv 239 20 (2 ^ fixP / 239) 1 false 0)).toNat
def ln2Go : Nat → Nat → Nat → Nat → Nat
  | 0, _, _, acc => acc
  | n + 1, pw, k, acc => ln2Go n (pw / 9) (k + 2) (acc + pw / k)
def fixLn2 : Nat := 2 * ln2Go 80 (2 ^ fixP / 3) 1 0
/-- Σ y^k / k! from term k on, n terms. -/
def expGo (y : Nat) : Nat → Nat → Nat → Nat → Nat
  | 0, _, _, acc => acc
  | n + 1, term, k, acc => expGo y n (term * y / 2 ^ fixP / (k + 1)) (k + 1) (acc + term)
/-- exp y - 1 in fixed point, for y below 2. -/
def fixExpm1 (y : Nat) : Nat := expGo y 70 y 1 0
/-- The alternating series of sine (from y) or cosine (from 1) in fixed point. -/
def trigGo (y2 : Nat) : Nat → Nat → Nat → Bool → Int → Int
  | 0, _, _, _, acc => acc
  | n + 1, term, k, sub, acc =>
    trigGo y2 n (term * y2 / 2 ^ fixP / ((k + 1) * (k + 2))) (k + 2) (!sub)
      (if sub then acc - (term : Int) else acc + term)
def fixSin (y : Nat) : Nat := (trigGo (y * y / 2 ^ fixP) 36 y 1 false 0).toNat
def fixCos (y : Nat) : Nat := (trigGo (y * y / 2 ^ fixP) 36 (2 ^ fixP) 0 false 0).toNat
/-- Fraction bits of log2 of a value in [1, 2), by repeated squaring. -/
def log2Go : Nat → Nat → Nat → Nat
  | 0, _, acc => acc
  | n + 1, x, acc =>
    let y := x * x / 2 ^ fixP
    if 2 ^ (fixP + 1) ≤ y then log2Go n (y / 2) (2 * acc + 1) else log2Go n y (2 * acc)

/-- An FP32 magnitude in units of 2^-149, from its code; past the largest number the next power of two. -/
def fp32Units (c : Nat) : Nat := if c < 2 ^ 23 then c else (2 ^ 23 + c % 2 ^ 23) * 2 ^ (c / 2 ^ 23 - 1)
/-- The codes of the FP32 magnitudes within a bound, in ulp of the exact magnitude's binade, of an exact magnitude above
m × 2^e and below the next unit; lo is the largest FP32 number not above it (R269). -/
def ulpCands (bound lo m : Nat) (e : Int) : List Nat :=
  let sc := 2 ^ (-149 - e).toNat
  let xs := 2 ^ (e + 149).toNat
  let reach := bound * 2 ^ (lo / 2 ^ 23 - 1) * sc
  (((List.range 6).filter fun k => decide (3 ≤ lo + k)).map fun k => lo + k - 3).filter fun c =>
    if c ≤ lo then decide ((m + 1) * xs ≤ fp32Units c * sc + reach) else decide (fp32Units c * sc ≤ m * xs + reach)
/-- A result that its bound leaves open (R269): the exact magnitude lies above m × 2^e and below the
next unit. Of the FP32 numbers of its sign within the bound, the configuration's fixed function of operation and operand
picks one (log 6). -/
def ulpPick (fn : Nat) (bound : Nat) (a : Word) (neg : Bool) (m : Nat) (e : Int) : Nat × BitVec 5 :=
  let lo := if m = 0 then 0 else
    let q := max (-149 : Int) ((Nat.log2 m : Int) + e - 23)
    ((q + 149).toNat * 2 ^ 23 + (roundUnits .rtz false m e q true 0).1)
  let c := Config.ulpChoice fn a
  let l := ulpCands bound lo m e
  let code := nth l (c % l.length) lo
  let sgn := if neg then 2 ^ 31 else 0
  if 0x7F800000 ≤ lo ∨ 0x7F800000 ≤ code then (sgn + 0x7F800000, fOF ||| fNX)
  else (sgn + code, fNX ||| flagIf (decide (code < 2 ^ 23)) fUF)

/-- Whether m × 2^e is a power of two. -/
def isPow2 (m : Nat) : Bool := m != 0 && m == 2 ^ Nat.log2 m
/-- An exact FP32 result. -/
def exact32 (neg : Bool) (m : Nat) (e : Int) : Nat × BitVec 5 :=
  let (v, f) := roundMag .f32 .rne false neg m e false 0
  (v, f &&& (fOF ||| fNX))

/-- 1/a (R270). -/
def fRcp (a : Word) : Nat × BitVec 5 :=
  match tyNum .f32 a.toNat with
  | .nan s => (0x7FC00000, flagIf s fNV)
  | .inf n => (if n then 2 ^ 31 else 0, 0)
  | .fin n m e =>
    if m = 0 then ((if n then 2 ^ 31 else 0) + 0x7F800000, fDZ)
    else if isPow2 m then exact32 n 1 (-(e + Nat.log2 m))
    else ulpPick 0 1 a n (2 ^ 100 / m) (-(e + 100))
/-- 1/√a (R270). -/
def fRsq (a : Word) : Nat × BitVec 5 :=
  match tyNum .f32 a.toNat with
  | .nan s => (0x7FC00000, flagIf s fNV)
  | .inf n => if n then (0x7FC00000, fNV) else (0, 0)
  | .fin n m e =>
    if m = 0 then ((if n then 2 ^ 31 else 0) + 0x7F800000, fDZ)
    else if n then (0x7FC00000, fNV)
    else
      let odd := e % 2 != 0
      let m' := if odd then 2 * m else m
      let e' := if odd then e - 1 else e
      let r := isqrt 20 m'
      if r * r = m' ∧ isPow2 r then exact32 false 1 (-(e' / 2 + Nat.log2 r))
      else ulpPick 1 1 a false (isqrt 101 (2 ^ 200 / m')) (-(e' / 2 + 100))
/-- √a, correctly rounded (R269, R270). -/
def fSqrt (r : Rnd) (a : Word) : Nat × BitVec 5 :=
  match tyNum .f32 a.toNat with
  | .nan s => (0x7FC00000, flagIf s fNV)
  | .inf n => if n then (0x7FC00000, fNV) else (0x7F800000, 0)
  | .fin n m e =>
    if m = 0 then (if n then 2 ^ 31 else 0, 0)
    else if n then (0x7FC00000, fNV)
    else
      let odd := e % 2 != 0
      let m' := if odd then 2 * m else m
      let e' := if odd then e - 1 else e
      let big := m' * 2 ^ 60
      let q := isqrt 45 big
      roundMag .f32 r false false q (e' / 2 - 30) (q * q != big) 0
/-- 2^a (R270). -/
def fExp2 (a : Word) : Nat × BitVec 5 :=
  match tyNum .f32 a.toNat with
  | .nan s => (0x7FC00000, flagIf s fNV)
  | .inf n => if n then (0, 0) else (0x7F800000, 0)
  | .fin n m e =>
    if m = 0 then (0x3F800000, 0)
    else if (Nat.log2 m : Int) + e ≥ 20 then
      if n then ulpPick 3 2 a false 1 (-400) else (0x7F800000, fOF ||| fNX)
    else
      let fx : Int := if 0 ≤ e + fixP then (m * 2 ^ (e + fixP).toNat : Nat) else 0
      let fx := if n then -fx else fx
      let k := fx / (2 ^ fixP : Nat)
      let f := (fx % (2 ^ fixP : Nat)).toNat
      if f = 0 then
        if 128 ≤ k then (0x7F800000, fOF ||| fNX)
        else if -149 ≤ k then exact32 false 1 k
        else ulpPick 3 2 a false 1 k
      else ulpPick 3 2 a false (2 ^ fixP + fixExpm1 (f * fixLn2 / 2 ^ fixP)) (k - fixP)
/-- log2 a (R270). -/
def fLog2 (a : Word) : Nat × BitVec 5 :=
  match tyNum .f32 a.toNat with
  | .nan s => (0x7FC00000, flagIf s fNV)
  | .inf n => if n then (0x7FC00000, fNV) else (0x7F800000, 0)
  | .fin n m e =>
    if m = 0 then (0xFF800000, fDZ)
    else if n then (0x7FC00000, fNV)
    else
      let k : Int := Nat.log2 m + e
      if k = 0 ∧ isPow2 m then (0, 0)
      else if isPow2 m then exact32 (k < 0) k.natAbs 0
      else
        let fr := log2Go 120 (m * 2 ^ (fixP - Nat.log2 m)) 0
        let v : Int := k * (2 ^ 120 : Nat) + fr
        if v < 0 then ulpPick 4 2 a true (v.natAbs - 1) (-120) else ulpPick 4 2 a false v.natAbs (-120)
/-- Sine or cosine of a finite argument in radians with exact reduction (R269). -/
def fTrig (fn : Nat) (a : Word) : Nat × BitVec 5 :=
  match tyNum .f32 a.toNat with
  | .nan s => (0x7FC00000, flagIf s fNV)
  | .inf _ => (0x7FC00000, fNV)
  | .fin n m e =>
    if m = 0 then (if fn = 5 then (if n then 2 ^ 31 else 0) else 0x3F800000, 0)
    else
      let x := m * 2 ^ (e + fixP).toNat
      let q := x / fixHalfPi
      let r := x % fixHalfPi
      let k := (if fn = 5 then q else q + 1) % 4
      let v := if k % 2 = 0 then fixSin r else fixCos r
      ulpPick fn 2 a ((k / 2 == 1) != (n && fn == 5)) (v - 1) (-(fixP : Int))
/-- Hyperbolic tangent (R270). -/
def fTanh (a : Word) : Nat × BitVec 5 :=
  match tyNum .f32 a.toNat with
  | .nan s => (0x7FC00000, flagIf s fNV)
  | .inf n => ((if n then 2 ^ 31 else 0) + 0x3F800000, 0)
  | .fin n m e =>
    if m = 0 then (if n then 2 ^ 31 else 0, 0)
    else
      let one := 2 ^ fixP
      if 6 ≤ (Nat.log2 m : Int) + e then ulpPick 7 2 a n (one - 1) (-(fixP : Int))
      else
        let x := m * 2 ^ (e + fixP).toNat
        let v :=
          if x < one then let y := fixExpm1 (2 * x); y * one / (y + 2 * one)
          else
            let y := 2 * x * one / fixLn2
            let k := y / one
            let g := (one + fixExpm1 (y % one * fixLn2 / one)) * 2 ^ k
            (g - one) * one / (g + one)
        ulpPick 7 2 a n (v - 1) (-(fixP : Int))

/-! ### MX blocks (R112, R113) -/

/-- Unbiased exponent of the largest element (R113). -/
def mxEmax : Ty → Int
  | .mx8e4 => 8
  | .mx8e5 => 15
  | .mx6e3 => 4
  | .mx6e2 | .mx4 | .f32 | .bf16 | .f16 | .e4m3 | .e5m2 | .e2m3 | .e3m2 | .e2m1 | .i8 | .i32 | .e8m0 => 2
/-- The exponent of a finite non-zero value: floor of log2 of its magnitude. -/
def Num.log2 : Num → Int
  | .nan _ | .inf _ => 0
  | .fin _ m e => Nat.log2 m + e
/-- Quantise values to an MX block: scale, elements, flags (R113). -/
def mxQuantise (t : Ty) (r : Rnd) (xs : List (Num × Word)) : Nat × List Nat × BitVec 5 :=
  if xs.any fun x => match x.1 with | .fin _ _ _ => false | .nan _ | .inf _ => true then
    (0xFF, xs.map fun _ => 0, fNV)
  else
    let nz := xs.filter fun x => match x.1 with | .fin _ m _ => m != 0 | .nan _ | .inf _ => false
    let scale : Int := match nz with
      | [] => 0x7F
      | h :: tl =>
        let e := tl.foldl (fun a x => max a x.1.log2) h.1.log2 - mxEmax t
        max (-127) (min 127 e) + 127
    let els := xs.map fun x => tyRound t r true (x.1.scale (127 - scale)) x.2
    (scale.toNat, els.map (·.1), els.foldl (fun a e => a ||| e.2) 0)
/-- The value of an element of type t with scale byte X (R112). -/
def mxValue (t : Ty) (v scale : Nat) : Num :=
  if scale % 256 = 255 then .nan false else (tyNum t v).scale ((scale % 256 : Nat) - 127)

/-- Round to FP32, nearest even, no saturation. -/
def rne32 (x : Num) : Nat := (tyRound .f32 .rne false x 0).1
def w32 (n : Nat) : Word := BitVec.ofNat 32 n

end Sys2Proof.Machine
end

