-- ==== Sys2Proof/Machine/Scalar.lean ====
section
/-!
DEFINITION. Scalar integer and uniform control instructions of the front thread (R247 to R259).
-/
namespace Sys2Proof.Machine

/-! Operations on 64-bit words (R247, R248). -/
def shl {n : Nat} (a b : BitVec n) : BitVec n := if n ≤ b.toNat then 0 else a <<< b.toNat
def shr {n : Nat} (a b : BitVec n) : BitVec n := if n ≤ b.toNat then 0 else a >>> b.toNat
def sar {n : Nat} (a b : BitVec n) : BitVec n := a.sshiftRight (min b.toNat (n - 1))
/-- Left rotation by the low bits of b, for a width n that is a power of two. -/
def rot {n : Nat} (a b : BitVec n) : BitVec n := a.rotateLeft (b.toNat % n)
def minS {n : Nat} (a b : BitVec n) : BitVec n := if a.sle b then a else b
def maxS {n : Nat} (a b : BitVec n) : BitVec n := if b.sle a then a else b
def minU {n : Nat} (a b : BitVec n) : BitVec n := if a.ule b then a else b
def maxU {n : Nat} (a b : BitVec n) : BitVec n := if b.ule a then a else b
/-- High half of the product. -/
def mulh {n : Nat} (u : Bool) (a b : BitVec n) : BitVec n :=
  if u then BitVec.ofNat n (a.toNat * b.toNat / 2 ^ n) else BitVec.ofInt n (a.toInt * b.toInt / 2 ^ n)
/-- Leading zero bits, counted down from bit k - 1. -/
def clzGo {n : Nat} (a : BitVec n) : Nat → Nat
  | 0 => 0
  | k + 1 => if a.getLsbD k then 0 else 1 + clzGo a k
def clz {n : Nat} (a : BitVec n) : BitVec n := BitVec.ofNat n (clzGo a n)
def popcGo {n : Nat} (a : BitVec n) : Nat → Nat
  | 0 => 0
  | k + 1 => (if a.getLsbD k then 1 else 0) + popcGo a k
def popc {n : Nat} (a : BitVec n) : BitVec n := BitVec.ofNat n (popcGo a n)
/-- Field extraction (R249) at position pos, length len, for width n. -/
def bfe {n : Nat} (u : Bool) (a : BitVec n) (pos len : Nat) : BitVec n :=
  let len := min len n
  let x := if u then a >>> pos else a.sshiftRight pos
  let k := n - len
  if len = 0 then 0 else if u then (x <<< k) >>> k else (x <<< k).sshiftRight k

/-- A scalar operation on sA and sB. -/
def s3 (o : S3) (L : Nat) (f : DWord → DWord → DWord) (s : State) : Out :=
  sop s o.m o.d L fun x => f (x.sc o.a 0) (x.sc o.b 0)
/-- The same with an immediate (R217). -/
def sI (o : SI) (f : DWord → DWord → DWord) (s : State) : Out :=
  sop s o.m o.d 4 fun x => f (x.sc o.a 0) o.i.val
/-- An operation on sA alone. -/
def s2 (o : S2) (L : Nat) (f : DWord → DWord) (s : State) : Out :=
  sop s o.m o.d L fun x => f (x.sc o.a 0)

/-- SADD (R247). -/
def execSadd (o : S3) (s : State) : Out := s3 o 4 (fun a b => a + b) s
/-- SADD with an immediate (R247). -/
def execSaddImm (o : SI) (s : State) : Out := sI o (fun a b => a + b) s
/-- SSUB (R247). -/
def execSsub (o : S3) (s : State) : Out := s3 o 4 (fun a b => a - b) s
/-- SSUB with an immediate (R247). -/
def execSsubImm (o : SI) (s : State) : Out := sI o (fun a b => a - b) s
/-- SAND (R247). -/
def execSand (o : S3) (s : State) : Out := s3 o 4 (fun a b => a &&& b) s
/-- SAND with an immediate (R247). -/
def execSandImm (o : SI) (s : State) : Out := sI o (fun a b => a &&& b) s
/-- SOR (R247). -/
def execSor (o : S3) (s : State) : Out := s3 o 4 (fun a b => a ||| b) s
/-- SOR with an immediate (R247). -/
def execSorImm (o : SI) (s : State) : Out := sI o (fun a b => a ||| b) s
/-- SXOR (R247). -/
def execSxor (o : S3) (s : State) : Out := s3 o 4 (fun a b => a ^^^ b) s
/-- SXOR with an immediate (R247). -/
def execSxorImm (o : SI) (s : State) : Out := sI o (fun a b => a ^^^ b) s
/-- SANDN (R247). -/
def execSandn (o : S3) (s : State) : Out := s3 o 4 (fun a b => a &&& ~~~b) s
/-- SANDN with an immediate (R247). -/
def execSandnImm (o : SI) (s : State) : Out := sI o (fun a b => a &&& ~~~b) s
/-- SSHL (R247). -/
def execSshl (o : S3) (s : State) : Out := s3 o 4 (fun a b => shl a b) s
/-- SSHL with an immediate (R247). -/
def execSshlImm (o : SI) (s : State) : Out := sI o (fun a b => shl a b) s
/-- SSHR (R247). -/
def execSshr (o : S3) (s : State) : Out := s3 o 4 (fun a b => shr a b) s
/-- SSHR with an immediate (R247). -/
def execSshrImm (o : SI) (s : State) : Out := sI o (fun a b => shr a b) s
/-- SSAR (R247). -/
def execSsar (o : S3) (s : State) : Out := s3 o 4 (fun a b => sar a b) s
/-- SSAR with an immediate (R247). -/
def execSsarImm (o : SI) (s : State) : Out := sI o (fun a b => sar a b) s
/-- SROT (R247). -/
def execSrot (o : S3) (s : State) : Out := s3 o 4 (fun a b => rot a b) s
/-- SROT with an immediate (R247). -/
def execSrotImm (o : SI) (s : State) : Out := sI o (fun a b => rot a b) s
/-- SMIN (R247). -/
def execSmin (o : S3) (s : State) : Out := s3 o 4 (fun a b => minS a b) s
/-- SMIN with an immediate (R247). -/
def execSminImm (o : SI) (s : State) : Out := sI o (fun a b => minS a b) s
/-- SMAX (R247). -/
def execSmax (o : S3) (s : State) : Out := s3 o 4 (fun a b => maxS a b) s
/-- SMAX with an immediate (R247). -/
def execSmaxImm (o : SI) (s : State) : Out := sI o (fun a b => maxS a b) s
/-- SMINU (R247). -/
def execSminu (o : S3) (s : State) : Out := s3 o 4 (fun a b => minU a b) s
/-- SMINU with an immediate (R247). -/
def execSminuImm (o : SI) (s : State) : Out := sI o (fun a b => minU a b) s
/-- SMAXU (R247). -/
def execSmaxu (o : S3) (s : State) : Out := s3 o 4 (fun a b => maxU a b) s
/-- SMAXU with an immediate (R247). -/
def execSmaxuImm (o : SI) (s : State) : Out := sI o (fun a b => maxU a b) s
/-- SSEL (R247). -/
def execSsel (o : S3) (g : BitVec 3) (s : State) : Out :=
  sop s o.m o.d 4 fun x => if x.c.g x.t g.toNat then x.sc o.a 0 else x.sc o.b 0
/-- SMOV (R247). -/
def execSmov (o : S2) (s : State) : Out := s2 o 4 id s
/-- SMUL (R247). -/
def execSmul (o : S3) (s : State) : Out := s3 o 6 (fun a b => a * b) s
/-- SMULH (R247). -/
def execSmulh (o : S3) (u : Bool) (s : State) : Out := s3 o 6 (mulh u) s

/-- The divide group (R248): a zero divisor sets DZ. -/
def sDivOp (o : S3) (f : DWord → DWord → DWord) (s : State) : Out :=
  let x := s.ctx o.m
  let a := x.sc o.a 0
  let b := x.sc o.b 0
  alu x 20 [.s o.d.toNat] [(.s o.d.toNat, x.act.map fun l => (l, f a b))]
    (flagIf (!x.act.isEmpty && b == 0) fDZ)
/-- SDIV (R248): truncated; all ones for a zero divisor. -/
def execSdiv (o : S3) (s : State) : Out :=
  sDivOp o (fun a b => if b = 0 then BitVec.allOnes 64 else BitVec.ofInt 64 (a.toInt.tdiv b.toInt)) s
def execSdivu (o : S3) (s : State) : Out :=
  sDivOp o (fun a b => if b = 0 then BitVec.allOnes 64 else a / b) s
/-- SREM (R248): the sign of the dividend. -/
def execSrem (o : S3) (s : State) : Out :=
  sDivOp o (fun a b => if b = 0 then a else BitVec.ofInt 64 (a.toInt.tmod b.toInt)) s
def execSremu (o : S3) (s : State) : Out := sDivOp o (fun a b => if b = 0 then a else a % b) s
/-- SCLZ, SPOPC, SBFE (R247, R249). -/
def execSclz (o : S2) (s : State) : Out := s2 o 4 clz s
def execSpopc (o : S2) (s : State) : Out := s2 o 4 popc s
def execSbfe (o : S3) (u : Bool) (s : State) : Out :=
  s3 o 4 (fun a b => bfe u a (bits b 0 6) (bits b 8 7)) s

/-- Write a uniform predicate (R250). -/
def gop (m : Mods) (g : BitVec 3) (f : Ctx → Bool) (s : State) : Out :=
  let x := s.ctx m
  alu x 4 [.g g.toNat] [(.g g.toNat, x.act.map fun l => (l, boolD (f x)))] 0
/-- SCMP (R250). -/
def execScmp (m : Mods) (g : BitVec 3) (a b : BitVec 8) (c : Cond) (s : State) : Out :=
  gop m g (fun x => c.int (x.sc a 0) (x.sc b 0)) s
def execScmpImm (m : Mods) (g : BitVec 3) (a : BitVec 8) (i : Imm) (c : Cond) (s : State) : Out :=
  gop m g (fun x => c.int (x.sc a 0) i.val) s
/-- SMOVI (R252). -/
def execSmovi (m : Mods) (d : BitVec 8) (i : Imm) (s : State) : Out := sop s m d 4 fun _ => i.val
/-- SMOVH (R252): reads its destination as visible at its tick. -/
def execSmovh (m : Mods) (d : BitVec 8) (v : BitVec 24) (s : State) : Out :=
  sop s m d 4 fun x => (x.sc d 0 <<< 24) ||| v.setWidth 64

/-! ### Control (R254 to R258) -/

/-- A control instruction of the front thread: the target when the transfer is taken. -/
def ctl (x : Ctx) (tgts : List Tgt) (s : State) (target : Option Nat) : Out :=
  match regionCause x tgts with
  | some k => illegalRegion x k
  | none => .next (finish x s {
      pcs := fun _ => if x.act.isEmpty then none else target
      taken := !x.act.isEmpty && target.isSome })
/-- BRA (R255). -/
def execBra (m : Mods) (offs : BitVec 32) (s : State) : Out :=
  let x := s.ctx m
  ctl x [] s (some (offsPc x.pc offs).toNat)
/-- BRC (R255). -/
def execBrc (m : Mods) (r : BitVec 8) (offs : BitVec 32) (s : State) : Out :=
  let x := s.ctx m
  ctl x [] s (if x.sc r 0 = 0 then none else some (offsPc x.pc offs).toNat)
/-- CALL (R255): the link is visible at T + 4. -/
def execCall (m : Mods) (r : BitVec 8) (offs : BitVec 32) (s : State) : Out :=
  let x := s.ctx m
  let link := BitVec.ofNat 64 (s.nextPc x.w.cl x.pc)
  ctl x [.s r.toNat] (addPend s x.w (x.vis 4 0) [(.s r.toNat, x.act.map fun l => (l, link))])
    (some (offsPc x.pc offs).toNat)
/-- RET (R255): any index below the clause's count. -/
def execRet (m : Mods) (r : BitVec 8) (s : State) : Out :=
  let x := s.ctx m
  ctl x [] s (some (bits (x.sc r 0) 0 23))
/-- JMPI (R255). -/
def execJmpi (m : Mods) (r : BitVec 8) (s : State) : Out :=
  let x := s.ctx m
  ctl x [] s (some (bits (x.sc r 0) 0 23))
/-- The loop counter's step (R256): its new value, and whether the loop goes on. -/
def loopStep (lc n : DWord) : DWord × Bool :=
  let c := if lc = 0 then n else lc
  if (1 : DWord).ult c then (c - 1, true) else (0, false)
/-- LOOP (R256). -/
def execLoop (m : Mods) (r : BitVec 8) (offs : BitVec 32) (s : State) : Out :=
  let x := s.ctx m
  let (lc, more) := loopStep x.c.lc (x.sc r 0)
  let s' := if x.act.isEmpty then s else s.updCore x.w.cl x.w.co fun c => { c with lc := lc }
  ctl x [] s' (if more then some (offsPc x.pc offs).toNat else none)
/-- BRV (R258): each active thread goes to the target, the other selected ones advance. -/
def execBrv (m : Mods) (offs : BitVec 32) (s : State) : Out :=
  let x := s.ctx m
  match regionCause x [] with
  | some k => illegalRegion x k
  | none => .next (finish x s {
      pcs := fun t => if x.act.contains t then some (offsPc x.pc offs).toNat else none })

/-- An instruction with a held effect and no register result: checks of its region, the effect when a
lane is active (R281), then the end. -/
def holdOp (x : Ctx) (h : Held) : Out :=
  match regionCause x [] with
  | some k => illegalRegion x k
  | none => .next (finish x (if x.act.isEmpty then x.s else emit x.s x.w h) {})
/-- Issued DQPUSHes of the front thread that are not presented (R259). -/
def heldPushes (me : Issuer) : Nat :=
  (me.allHeld.filter fun h => match h.i with | .dqpush .. => true | _ => false).length
/-- DQPUSH (R259). -/
def execDqpush (m : Mods) (r : BitVec 8) (s : State) : Out :=
  let x := s.ctx m
  if !x.act.isEmpty && regionCause x [] == none && decide (32 ≤ x.c.dq.length + heldPushes x.me) then
    retryHere x
  else holdOp x (x.hold (.dqpush m r) [] [x.sc r 0] [])

end Sys2Proof.Machine
end

