-- ==== Sys2Proof/Machine/Watch.lean ====
section
/-!
DEFINITION. The trace ring, event records, and data watchpoints with their predicate programs (R440, R441, R443
to R445).
-/
namespace Sys2Proof.Machine

/-! ### The trace ring (R440) -/

/-- Key of a byte of the ring, when it translates for its tenant. -/
def ringKey (s : State) (off : Nat) : Option Nat × State :=
  let pt := BitVec.ofNat 64 ((assoc s.fw.roots s.dbg.ringTenant).getD 0 / 2 ^ 15 * 2 ^ 15 + s.dbg.ringTenant)
  match translate s s.dbg.ringCl pt .write (BitVec.ofNat 64 (s.dbg.ringBase + off)) with
  | (.ok (pa, _), s) => (some (keyHbm pa), s)
  | (.error _, s) => (none, s)
/-- Write dwords into the ring at an offset. -/
def ringWords (s : State) (off : Nat) : List DWord → State
  | [] => s
  | d :: t =>
    match ringKey s off with
    | (some k, s) => ringWords (s.setBytes k (toBytes 8 d.toNat)) (off + 8) t
    | (none, s) => ringWords s (off + 8) t
/-- Append a record: one that does not fit starts again at 64; in stop mode one that would reach or pass
RIDX is dropped and counted. -/
def ringPut (s : State) (rec : List DWord) : State :=
  if s.dbg.ringSize = 0 then s
  else
    let n := 8 * rec.length
    let w := s.dbg.widx
    let wraps := decide (s.dbg.ringSize < w + n)
    let off := if wraps then 64 else w
    let (k, s) := ringKey s 8
    let ridx := match k with | some k => (s.dword k).toNat | none => 64
    let hits := if w < ridx then wraps || decide (ridx ≤ off + n) else wraps && decide (ridx ≤ off + n)
    if s.dbg.ringMode = 0 ∧ hits then { s with dbg := { s.dbg with lost := s.dbg.lost + 1 } }
    else
      let s := ringWords s off rec
      ringWords { s with dbg := { s.dbg with widx := off + n } } 0 [BitVec.ofNat 64 (off + n)]

/-- Whether the domain of a core's grid has a debug session (R375). -/
def dbgOn (s : State) (cl co : Nat) : Bool :=
  match ((s.core cl co).grid.bind s.grid).bind fun g => s.dom g.dom with
  | some d => d.dbg
  | none => false
/-- An event record of R441: type, EV, dword-0 bits above it, issuer, tick, task, region, address, PC. -/
def eventRec (w : Iss) (typ ev high tick task rnum : Nat) (addr : DWord) (pc : Nat) : List DWord :=
  [BitVec.ofNat 64 (typ + ev * 2 ^ 8 + high + chipNo * 2 ^ 26 + w.cl * 2 ^ 36 + w.co * 2 ^ 42 + w.n % 32 * 2 ^ 48),
    BitVec.ofNat 64 tick, BitVec.ofNat 64 task, BitVec.ofNat 64 (rnum % 2 ^ 32 * 2 ^ 32), addr, BitVec.ofNat 64 (pc % 2 ^ 23)]
/-- TASK of a command (R441, R404). -/
def taskOf (engine queue seq : Nat) : Nat := engine + queue * 2 ^ 3 + seq % 2 ^ 32 * 2 ^ 9
/-- Record a command event: 1 start, 2 end, 3 fault, 4 stop. -/
def cmdEvent (s : State) (w : Iss) (ev engine queue seq : Nat) (h : Held) : State :=
  if dbgOn s w.cl w.co then
    let ret := b2n ((s.iss w).wait == .ended) * 2 ^ 16
    ringPut s (eventRec w 2 ev ret s.tick (taskOf engine queue seq) h.rnum 0 h.pc)
  else s

/-! ### Predicate programs (R445) -/

/-- The opcodes that a predicate program uses. -/
def currantExec (i : Instr) (s : State) : Option Out :=
  match i with
  | .sadd o => some (execSadd o s) | .ssub o => some (execSsub o s) | .sand o => some (execSand o s)
  | .sor o => some (execSor o s) | .sxor o => some (execSxor o s) | .sandn o => some (execSandn o s)
  | .sshl o => some (execSshl o s) | .sshr o => some (execSshr o s) | .ssar o => some (execSsar o s)
  | .srot o => some (execSrot o s) | .smin o => some (execSmin o s) | .smax o => some (execSmax o s)
  | .sminu o => some (execSminu o s) | .smaxu o => some (execSmaxu o s)
  | .saddImm o => some (execSaddImm o s) | .ssubImm o => some (execSsubImm o s)
  | .sandImm o => some (execSandImm o s) | .sorImm o => some (execSorImm o s)
  | .sxorImm o => some (execSxorImm o s) | .sandnImm o => some (execSandnImm o s)
  | .sshlImm o => some (execSshlImm o s) | .sshrImm o => some (execSshrImm o s)
  | .ssarImm o => some (execSsarImm o s) | .srotImm o => some (execSrotImm o s)
  | .sminImm o => some (execSminImm o s) | .smaxImm o => some (execSmaxImm o s)
  | .sminuImm o => some (execSminuImm o s) | .smaxuImm o => some (execSmaxuImm o s)
  | .ssel o g => some (execSsel o g s) | .smov o => some (execSmov o s)
  | .smul o => some (execSmul o s) | .smulh o u => some (execSmulh o u s)
  | .sdiv o => some (execSdiv o s) | .sdivu o => some (execSdivu o s)
  | .srem o => some (execSrem o s) | .sremu o => some (execSremu o s)
  | .sclz o => some (execSclz o s) | .spopc o => some (execSpopc o s) | .sbfe o u => some (execSbfe o u s)
  | .scmp m g a b c => some (execScmp m g a b c s) | .scmpImm m g a i c => some (execScmpImm m g a i c s)
  | .smovi m d i => some (execSmovi m d i s) | .smovh m d v => some (execSmovh m d v s)
  | .bra m o => some (execBra m o s) | .brc m r o => some (execBrc m r o s)
  | _ => none
/-- A predicate program's core: it stands outside the chip's cores. -/
def currantIss : Iss := ⟨64, 0, 16⟩
/-- A program with its inputs, at a tick. -/
def currantStart (img : List DWord) (ins : List DWord) (t : Nat) : State :=
  let c : Core := {
    cl := 64, active := true, imgSize := 8 * img.length, fv := true
    sregs := ((ins.zip (List.range 5)).filter fun e => e.1 ≠ 0).map fun e => (e.2, e.1)
    issuers := [{ slot := 16, pcs := [0], nextAt := t, regions := [{}] }] }
  ({ cores := [c], tick := t, cur := currantIss } : State).setBytes (keyCode 64 0)
    ((img.map fun d => toBytes 8 d.toNat).flatten)
/-- Run to HALT within the ticks left: the verdict and the record's flags (bit 0 TMO, bit 1 ERR), with the
tick. -/
def currantRun : Nat → State → Bool × Nat × Nat
  | 0, s => (true, 1, s.tick)
  | f + 1, s =>
    let me := s.iss currantIss
    if s.tick < me.nextAt ∨ me.wait = .marker ∧ !(quiet s currantIss) then currantRun f (s.settle (s.tick + 1))
    else
      let pc := me.pcOf 0
      let hd := s.header 64 pc
      let cls := hdrCls hd
      let env : Env := ⟨true, cls, 512, 0, 1, false, false, false, false⟩
      let s := if me.entered then s else s.updIss currantIss fun me => { me with
        entered := true, wait := .run, delay := if pc % 16 = 0 then bits hd 40 8 else me.delay }
      match decode env (s.instWord 64 pc) with
      | .ok (.halt m) =>
        let c := s.core 64 0
        if c.g s.tick m.pred.toNat != m.pneg then (c.g s.tick 1, 0, s.tick)
        else currantRun f ((finish (s.ctx m) s {}).settle (s.tick + 1))
      | .ok i =>
        (match currantExec i s with
         | some (.next s') =>
           if (s'.iss currantIss).wait = .fault then (true, 2, s.tick) else currantRun f (s'.settle (s.tick + 1))
         | _ => (true, 2, s.tick))
      | .error _ => (true, 2, s.tick)
/-- Whether an image is one that PREDLOAD accepts: whole clauses of class 0 with the opcodes allowed, and of
class 6 with only HALT; at most 64 instructions. -/
def predImageOk : Nat → Nat → List DWord → Bool
  | 0, _, l => l.isEmpty
  | _ + 1, _, [] => true
  | f + 1, n, h :: rest =>
    let k := hdrCnt h + 1
    let is := rest.take k
    let cls := hdrCls h
    bits h 56 8 == 0xC5 && bits h 48 8 == 0 && decide (is.length = k) && decide (n + k ≤ 64) &&
      (is.all fun w =>
        let op := bits w 56 7
        if cls = 0 then decide (op ≤ 6) || (op == 0x10 && decide (bits w 51 5 < 2))
        else cls == 6 && op == 0x7D && bits w 51 5 == 4) &&
      predImageOk f (n + k) (rest.drop k)

/-! ### Watch ranges (R443, R444) -/

/-- The ranges that a first access of a kind hits: valid, of the tenant, kind enabled, and overlapping. Kind:
0 read, 1 write, 2 engine. -/
def watchHits (s : State) (tenant kind : Nat) (va : DWord) (n : Nat) : List Nat :=
  (s.dbg.watches.filter fun r =>
    let d := nth r.2 0 0
    bit d 0 && bit d (1 + kind) && bits d 4 6 == tenant &&
      decide ((nth r.2 1 0).toNat < va.toNat + n) && decide (va.toNat < (nth r.2 1 0).toNat + (nth r.2 2 0).toNat)).map (·.1)
/-- A hit of a range: it takes one of 16 contexts, and its verdict comes when its program halts. -/
def watchFire (s : State) (r : Nat) (w : Iss) (kind n task rnum pc : Nat) (va data : DWord) : State :=
  let d := nth ((assoc s.dbg.watches r).getD []) 0 0
  let img := (assoc s.dbg.currant (bits d 10 6)).getD []
  let busy := (s.dbg.evals.filter fun e => e.ctx).length
  let ctx := decide (busy < 16)
  let (v, fl, t) := if ctx then
      currantRun 257 (currantStart img
        [va, data, BitVec.ofNat 64 (kind + 1 + n * 2 ^ 8), BitVec.ofNat 64 r, BitVec.ofNat 64 s.tick] s.tick)
    else (true, 4, s.tick)
  let t := min t (s.tick + 256)
  let id := s.dbg.nextEval
  let e : Eval := ⟨id, r, w, kind == 2, rnum, v, fl, task, va, pc, (s.iss w).wait == .ended, s.tick, ctx⟩
  ({ s with dbg := { s.dbg with nextEval := id + 1, evals := s.dbg.evals ++ [e] } } : State).sched t (obj id) .currantVerdict
/-- A thread access is compared at its effect: each range fires at most once for the instruction. -/
def watchThread (s : State) (h : Held) (w : Iss) (kind n : Nat) (as : List (DWord × DWord)) : State :=
  if s.dbg.watches.isEmpty || s.frozen.isSome || (s.coreOf w).halt then s
  else
    let tn := (s.coreOf w).tenant
    let hits := (as.map fun a => (watchHits s tn kind a.1 n).map fun r => (r, a)).flatten
    let firsts := (hits.map (·.1)).eraseDups.filterMap fun r => hits.find? fun h => h.1 == r
    firsts.foldl (fun s x => watchFire s x.1 w kind n 0 h.rnum h.pc x.2.1 x.2.2) s
/-- An engine sector is compared at its translation: each range fires at most once for the command. Fill
reads count as reads (R443). A range does not fire on a frozen chip or in a halted part (R444). -/
def watchEngine (s : State) (h : Held) (w : Iss) (rd : Bool) (task : Nat) (va : DWord) (n : Nat) (data : DWord) : State :=
  if s.dbg.watches.isEmpty || s.frozen.isSome || (s.coreOf w).halt then s
  else
    let tn := (s.coreOf w).tenant
    let kind := if rd then 0 else 2
    ((watchHits s tn kind va n).filter fun r => !(s.dbg.fired.contains (r, w, task))).foldl (fun s r =>
      watchFire { s with dbg := { s.dbg with fired := s.dbg.fired ++ [(r, w, task)] } } r w 2 n task h.rnum h.pc va data) s

end Sys2Proof.Machine
end

