-- ==== Sys2Proof/Machine/Access.lean ====
section
/-!
DEFINITION. Accesses in flight outside the cores: how one reaches its home, is applied to a sector as one
step, and is answered (R58 to R62, R76 to R81, R127, R128, R144 to R147, R291 to R295, R424 to R426).
-/
namespace Sys2Proof.Machine

/-- Key of a byte behind a translated address. -/
def memKey (space pa : Nat) : Nat :=
  match space with
  | 2 => keyOrch pa
  | 3 => keyHost pa
  | _ => keyHbm pa
/-- Bytes that one lane of an access covers. -/
def accSize : Instr → Nat
  | .ld _ sz _ | .st _ sz | .stMc _ sz | .ldh _ sz _ => 2 ^ sz.toNat
  | .atom _ b64 _ | .red _ b64 _ => if b64 then 8 else 4
  | _ => 64

/-- The new value of an atomic (R291). -/
def newValue (fn : AtomFn) (b64 : Bool) (old a b : DWord) : DWord :=
  let int := fun (f64 : DWord → DWord → DWord) (f32 : Word → Word → Word) =>
    if b64 then f64 old a else (f32 (old.setWidth 32) (a.setWidth 32)).setWidth 64
  let lo := fun d : DWord => d.toNat % 2 ^ 32
  match fn with
  | .add => int (· + ·) (· + ·)
  | .and => int (· &&& ·) (· &&& ·)
  | .or => int (· ||| ·) (· ||| ·)
  | .xor => int (· ^^^ ·) (· ^^^ ·)
  | .minS => int minS minS
  | .maxS => int maxS maxS
  | .minU => int minU minU
  | .maxU => int maxU maxU
  | .xchg => a
  | .cas => if (if b64 then old == a else lo old == lo a) then b else old
  | .fadd => BitVec.ofNat 64 (fAdd .f32 .rne false (lo old) (lo a) 0).1
  | .fmin => BitVec.ofNat 64 (fMinMax .f32 false (lo old) (lo a)).1
  | .fmax => BitVec.ofNat 64 (fMinMax .f32 true (lo old) (lo a)).1
/-- Apply one lane of an access to its bytes: the new memory, and the value read. -/
def applyLane (s : State) (key : Nat) (i : Instr) (ops : List DWord) : State × DWord :=
  let n := accSize i
  let old := BitVec.ofNat 64 (leNat (s.bytes key n))
  match i with
  | .st _ _ | .stMc _ _ => (s.setBytes key (toBytes n (nth ops 0 0).toNat), old)
  | .atom _ b64 fn | .red _ b64 fn =>
    (s.setBytes key (toBytes n (newValue fn b64 old (nth ops 0 0) (nth ops 1 0)).toNat), old)
  | _ => (s, old)

def State.req (s : State) (id : Nat) : Option Req := s.chip.reqs.find? fun q => q.id == id
def State.updReq (s : State) (id : Nat) (f : Req → Req) : State :=
  s.updChip fun h => { h with reqs := h.reqs.map fun q => if q.id = id then f q else q }
def State.delReq (s : State) (id : Nat) : State :=
  s.updChip fun h => { h with reqs := h.reqs.filter fun q => q.id != id }

/-! ### Stamps (R60, R61, R144 to R147) -/

/-- Superstep number (R393). -/
def State.sstep (s : State) : Nat := bits s.chip.sstep 0 32
def State.stamp (s : State) (sec : Nat) : BitVec 16 := Sparse.get unlistedStamp s.stamps sec
/-- Stamp a written HBM sector (R61). -/
def State.setStamp (s : State) (sec : Nat) (chk : Bool) (cl kind : Nat) : State :=
  { s with
    stamps := Sparse.set unlistedStamp s.stamps sec
      (if chk then BitVec.ofNat 16 (s.sstep % 256 + cl % 64 * 2 ^ 8 + kind * 2 ^ 14) else 0xC000) }
/-- The stamp that an access leaves on a sector it has written (R61, R144): the write's own on a checked page, but none by
a synchronising access or an add-on-store; KIND 3 on any other page. -/
def stampWrite (s : State) (q : Req) (sec : Nat) : State :=
  if q.space ≠ 0 ∧ q.space ≠ 1 then s
  else if !q.chk then s.setStamp sec false q.w.cl 0
  else if q.sync || q.kind == .red || q.kind == .atom || q.kind == .aos then s
  else s.setStamp sec true q.w.cl (if q.kind = .coll then 2 else if q.space = 0 then 0 else 1)
/-- Whether a sector lies in a cluster's collective range set (R146). -/
def inRanges (c : Cluster) (va : DWord) : Bool :=
  c.allcov || c.ranges.any fun r =>
    decide (r.1.toNat ≤ va.toNat / 64 * 64) && decide (va.toNat / 64 * 64 < r.1.toNat + r.2.toNat)
/-- The comparison of R147: whether a stamp raises for an access of a cluster. -/
def raceAt (s : State) (cl : Nat) (va : DWord) (peer : Bool) (st : BitVec 16) : Bool :=
  let c := s.chip.cluster cl
  let kind := st.toNat / 2 ^ 14
  let clus := st.toNat / 2 ^ 8 % 64
  if st.toNat % 256 ≠ s.sstep % 256 then false
  else match kind with
    | 0 => peer || !(bit c.mask clus || inRanges c va)
    | 1 => true
    | 2 => !(inRanges c va)
    | _ => false
/-- Details of a race record (R405). -/
def raceInfo (s : State) (cl : Nat) (va : DWord) (st : BitVec 16) (write : Bool) (lane : Option Nat) (sub : Nat) : TrapInfo :=
  let c := s.chip.cluster cl
  { cls := 0x09, sub := sub, lane := lane, addr := va, tt := sub == 1, d0 := c.mask
    d1 := BitVec.ofNat 64 (st.toNat + b2n c.allcov * 2 ^ 16 + b2n write * 2 ^ 17) }

/-! ### The replay log and a replay (R425, R446, R447) -/

/-- An entry of the replay log (R446): arrival tick, port and slot, two zero dwords, and 32 dwords of content. The
model keeps beside it whether the flit's check held, and what a reply carries outside the flit's dwords. -/
def logEntry (s : State) (port slot : Nat) (ds : List DWord) (ok : Bool) (extra : DWord := 0) : State :=
  if s.dbg.rlogOn then
    let e := [BitVec.ofNat 64 s.tick, BitVec.ofNat 64 (port + slot * 16), 0, 0] ++ (List.range 32).map fun k => nth ds k 0
    let s := s.setBytes (keyHbm (s.dbg.rlogBase + s.dbg.rlogIdx)) (dwBytes e)
    { s with dbg := { s.dbg with rlog := s.dbg.rlog ++ [e ++ [boolD ok, extra]], rlogIdx := s.dbg.rlogIdx + 288 } }
  else s
/-- The access slot of the frame in which a flit of this tick arrives (R421). -/
def slotNow (s : State) : Nat := (s.tick - s.chip.sched.frameStart) / 40 % 512 * 8 + 7
/-- Whether an access is answered by old values, and not by an acknowledgement (R425). -/
def Req.reads (q : Req) : Bool := q.kind == .load || q.kind == .atom || q.kind == .fill || q.kind == .copyRd
/-- The sectors that an access covers, each of which is one access of the fabric (R424). -/
def Req.covers (q : Req) : List Nat :=
  if q.lanes.isEmpty then [q.home] else (q.lanes.map fun l => l.pa / 64).eraseDups
/-- Dwords 0 and 2 of the answer to an access: OP 7 or 8 with the region number, and the issuer (R425). -/
def Req.word0 (q : Req) : DWord := BitVec.ofNat 64 ((if q.reads then 7 else 8) + q.rnum % 2 ^ 32 * 2 ^ 32)
def Req.word2 (q : Req) : DWord :=
  let thread := q.kind == .load || q.kind == .store || q.kind == .red || q.kind == .atom
  BitVec.ofNat 64 (chipNo + q.w.cl * 2 ^ 10 + q.w.co * 2 ^ 16 + (if thread then q.w.n else 16) * 2 ^ 22)
/-- The bytes of a sector that the answer carries: a lane's old value at its place (R425). -/
def Req.oldBytes (q : Req) (sec : Nat) : List Byte :=
  let put := fun (bs : List Byte) (l : LaneAcc) =>
    let n := accSize q.h.i
    let v := match q.results.find? fun r => r.1 == l.lane with | some r => (nth r.2 0 0).toNat | none => 0
    bs.take (l.pa % 64) ++ toBytes n v ++ bs.drop (l.pa % 64 + n)
  if q.lanes.isEmpty then q.data
  else (q.lanes.filter fun l => l.pa / 64 == sec).foldl put (List.replicate 64 0)
/-- The sectors that the next answer to an access speaks for: all of them to a read, one to a write (R86, R424). -/
def Req.answers (q : Req) : List Nat :=
  if q.reads || q.acks ≤ 1 then q.covers.drop (if q.reads then 0 else q.covers.length - 1)
  else (q.covers.drop (q.covers.length - q.acks)).take 1
/-- Log an answer to an access through the fabric, one flit for each sector (R446). -/
def logAnswer (s : State) (q : Req) (word : DWord) : State :=
  if s.dbg.rlogOn && (q.space == 1 || q.space == 2) then
    q.answers.foldl (fun s sec =>
      let mine := q.lanes.filter fun l => l.pa / 64 == sec
      let mask := if q.lanes.isEmpty then 2 ^ 64 - 1 else
        mine.foldl (fun m l => m ||| (2 ^ accSize q.h.i - 1) * 2 ^ (l.pa % 64)) 0
      let stamp := match q.stamps.find? fun p => mine.any fun l => l.lane == p.1 with | some p => p.2 | none => 0
      logEntry s (sec * 64 / 2 ^ 42 % 2 * 8) (slotNow s)
        ([q.word0, if q.reads then BitVec.ofNat 64 (sec * 64) else word, q.word2, BitVec.ofNat 64 mask] ++
          (if q.reads then (List.range 8).map fun k => BitVec.ofNat 64 (leNat (((q.oldBytes sec).drop (8 * k)).take 8))
            else []))
        true (BitVec.ofNat 64 (b2n q.psn + q.stat * 2 + stamp * 2 ^ 8))) s
  else s
/-- A replay stops: status 2, reason divergence, which is reason 1 in this model (R447). -/
def replayStop (s : State) : State :=
  { s with
    cores := [], inbox := []
    fw := { s.fw with mbox := s.fw.mbox.map fun m => if some m.fn = s.dbg.replayFn then { m with res := [0x102] } else m }
    dbg := { s.dbg with replaying := false, replies := [] } }
/-- In a replay an access of the chip is not sent: the answer that the log holds for it comes at its logged tick, and
where the log holds none the replay stops (R447). -/
def replayAccess (s : State) (q : Req) (sec : Nat) : State :=
  match s.dbg.replies.find? fun e => decide (s.tick ≤ (nth e 0 0).toNat) && nth e 4 0 == q.word0 && nth e 6 0 == q.word2 &&
      (!q.reads || (nth e 5 0).toNat == sec * 64) with
  | none => replayStop s
  | some e =>
    let s := { s with dbg := { s.dbg with replies := s.dbg.replies.erase e } }
    let t := (nth e 0 0).toNat
    let bs := dwBytes ((e.drop 8).take 8)
    let x := (nth e 37 0).toNat
    let mine := q.lanes.filter fun l => l.pa / 64 == sec
    let q' : Req := { q with
      results := q.results ++ mine.map fun l =>
        (l.lane, [BitVec.ofNat 64 (leNat ((bs.drop (l.pa % 64)).take (accSize q.h.i)))])
      stamps := q.stamps ++ (if q.chk then mine.map fun l => (l.lane, x / 2 ^ 8) else [])
      psn := q.psn || x % 2 == 1, stat := x / 2 % 2 ^ 7, data := if q.reads then bs else q.data
      sectors := q.sectors.erase sec }
    let s := s.updReq q.id fun _ => q'
    if !q'.sectors.isEmpty then s
    else match q.kind with
      | .load => s.sched t (obj q.id) .loadReply
      | .atom => s.sched t (obj q.id) .atomicReply
      | .fill => s.sched t (obj q.id) (.windowLanding ⟨q.w.cl, q.w.co, q.aux, 0, 0, q'.psn, bs⟩)
      | .copyRd => s.sched t q.w (.copySectorLanding q.id)
      | _ => s.sched t (obj q.id) (.acknowledgementWord (nth e 5 0))

/-! ### The way to a home -/

/-- The next access slot of a port at or after a tick (R395, R421). -/
def accessSlot (s : State) (t : Nat) : Nat :=
  let r := (t + 40 - (s.chip.sched.frameStart + 35) % 40) % 40
  if r = 0 then t else t + (40 - r)
/-- What the error correction of an access finds: a free value (R59, log 4). -/
def State.ecc (s : State) : Ecc × State :=
  let (n, s) := s.free 2
  (if n = 0 then .good else if n = 1 then .corrected else .bad, s)
/-! ### What happens before an access (R119, R123, R125) -/

/-- Accesses of threads. -/
def isThread (k : ReqKind) : Bool := k == .load || k == .store || k == .red || k == .atom
/-- Whether an entry of a clock still names an access that is not performed. -/
def clockLive (s : State) (e : Iss × Nat) : Bool :=
  (s.chip.reqs.any fun p => p.w == e.1 && decide (p.h.itick < e.2) && !p.sectors.isEmpty) ||
    (s.iss e.1).presq.any fun h => decide (h.itick < e.2)
/-- Two clocks together. -/
def joinClock (s : State) (a b : Clock) : Clock := ((a ++ b).eraseDups).filter (clockLive s)
/-- What happens before a point that follows all that an issuer issued before a tick. -/
def clockOf (s : State) (w : Iss) (t : Nat) : Clock := joinClock s (s.iss w).hb [(w, t)]
/-- An issuer acquires what a clock names. -/
def acquire (s : State) (w : Iss) (k : Clock) : State := s.updIss w fun me => { me with hb := joinClock s me.hb k }
/-- A scratchpad access or a load's result of an issuer takes place at a tick: all that its cluster has presented before
comes before it (R119). -/
def domJoin (s : State) (w : Iss) (t : Nat) : State :=
  (acquire s w (s.chip.cluster w.cl).hb).updIss w fun me => { me with domAt := max me.domAt t }
/-- An access of an issuer is presented in its cluster: what happens before it also comes before the cluster's later
scratchpad accesses and load results (R123). -/
def domPublish (s : State) (w : Iss) : State :=
  if (s.iss w).hb.isEmpty then s
  else s.updCluster w.cl fun k => { k with hb := joinClock s k.hb (s.iss w).hb }

/-! ### The way to a home -/

/-- Put one sector of an access on its way (R58, R62, R76, R424): to this chip's HBM it comes within the 560 ticks of the
first attempt. -/
def sendSector (s : State) (q : Req) (sec : Nat) : State :=
  match q.space with
  | 1 | 2 =>
    let sw := sec * 64 / 2 ^ 42 % 2
    let l := (assoc s.net.portq sw).getD []
    let t := accessSlot s s.tick + 40 * l.length
    ({ s with net := { s.net with portq := assocSet s.net.portq sw (l ++ [(q.id, sec)]) } } : State).sched t (obj sw) .accessSlotSend
  | 0 =>
    let (d, s) := s.free 560
    let (e, s) := s.ecc
    s.sched (s.tick + d) (obj q.id) (.hbmSectorAccess sec e)
  | _ =>
    let (d, s) := s.free 1000
    s.sched (s.tick + d) (obj q.id) (.hbmSectorAccess sec .good)
/-- Whether the answers of a kind of access are acknowledgements (R62, R76, R86). -/
def writes (k : ReqKind) : Bool := !(k == .load || k == .atom || k == .fill || k == .copyRd || k == .stamp)
/-- Whether a sector carries a check code whose failure poisons it where it lands (R193). -/
def checkCoded (k : ReqKind) : Bool := k == .drain || k == .send || k == .aos || k == .copyWr || k == .coll
/-- Whether the check code of a sector fails: a free value (R193, log 4). -/
def landCheck (s : State) : Bool × State :=
  let (n, s) := s.free 1
  (n == 1, s)
/-- Start an access to an address: it waits for the misses that its translation met, and then its sectors go out in order
(R29, R58, R76). A write through the fabric has one acknowledgement for each sector (R86). -/
def startReqAt (s : State) (q : Req) (vas : List DWord) : State :=
  let ws := (vas.map (walksFor s q.w.cl q.tenant)).flatten.eraseDups
  let fabric := (q.space == 1 || q.space == 2) && writes q.kind && (match q.h.i with | .stMc .. => false | _ => true)
  let (bad, s) := if checkCoded q.kind then landCheck s else (false, s)
  let me := s.iss q.w
  let q := { q with
    home := q.sectors.headD 0, walks := ws, acks := if fabric then q.sectors.length else 1, psn := q.psn || bad
    hb := if isThread q.kind then me.hb else me.hb ++ [(q.w, q.h.itick)], domAt := me.domAt
    ro := q.space == 3 && writes q.kind && !q.sync }
  let s := domPublish (s.updChip fun h => { h with reqs := h.reqs ++ [q] }) q.w
  if ws.isEmpty then q.sectors.foldl (fun s sec => sendSector s q sec) s else s
def startReq (s : State) (q : Req) : State := startReqAt s q (q.lanes.map (·.va))
/-- The accesses that waited for a miss which has ended go out, when they wait for no other (R29). -/
def releaseWalk (s : State) (k : Nat) : State :=
  let go := s.chip.reqs.filter fun q => q.walks == [k]
  let s := s.updChip fun h => { h with reqs := h.reqs.map fun q => { q with walks := q.walks.filter (· != k) } }
  go.foldl (fun s q => q.sectors.foldl (fun s sec => sendSector s q sec) s) s
/-- PAGE_TABLE_READ_RETURN (R29, R30, R32): the shared TLB has been looked up for a miss, or its walk's reads have
returned. What it held back goes on when it ends, and the slots are given out again. -/
def execPageTableReadReturn (s : State) : Out :=
  match s.chip.walks.find? fun k => k.id == s.cur.n with
  | none => .next s
  | some k =>
    match k.stage, k.shared with
    | .waits, _ => .next s
    | .lookup, false =>
      .next (grantWalk (s.updChip fun h => { h with
        walks := h.walks.map fun j => if j.id = k.id then { j with stage := .waits } else j }))
    | _, _ => .next (grantWalk (releaseWalk (endWalk s k) k.id))

/-- Whether an effect orders what comes after it: an acquire atomic on a home outside the scratchpads, or a FENCE with both
halves (R118, R129). -/
def acquires (h : Held) : Bool :=
  match h.i with
  | .atom o _ _ => o.order.getLsbD 0 && h.lanes.any fun a => decide (a.space < 4)
  | .fence _ sc od => od == 3 && decide (4 ≤ sc.toNat)
  | _ => false
/-- Whether an issuer has such an effect, issued before a tick in another region than rnum, still to present. -/
def acquiresHeld (me : Issuer) (rnum t : Nat) : Bool :=
  me.allHeld.any fun h => acquires h && decide (h.itick < t) && h.rnum != rnum
/-- Whether an access must wait at a sector: for an earlier access of its issuer to that sector (R58, R77), an earlier
load of a strict issuer to the same home, or an earlier acquire (R129); or for another issuer's access to the sector that
happens before it, in flight or still to be presented (R125, R126; DEDUCED, log 39). -/
def mustWait (s : State) (q : Req) (sec : Nat) : Bool :=
  let before := fun (w : Iss) (it : Nat) => decide (it < q.h.itick) && q.hb.any fun e => e.1 == w && decide (it < e.2)
  (s.chip.reqs.any fun p => p.id != q.id && !p.sectors.isEmpty &&
    let same := p.space == q.space && p.sectors.contains sec
    if p.w = q.w then
      decide (p.id < q.id) && (same || p.acq ||
        (p.kind == .load && q.kind == .load && p.space == q.space && !(s.coreOf q.w).elastic))
    else same && isThread p.kind && (before p.w p.h.itick ||
      (p.w.cl == q.w.cl && decide (p.issued < q.domAt) && decide (p.h.itick < q.h.itick)))) ||
  (isThread q.kind && acquiresHeld (s.iss q.w) q.rnum q.h.itick) ||
  q.hb.any fun e => (s.iss e.1).presq.any fun h => before e.1 h.itick &&
    h.lanes.any fun a => a.space == q.space && a.pa / 64 == sec

/-- Ticks before a result becomes visible in which its reply is taken in: an instruction under way then sees it in each of
its passes, across skipped ticks too (R159). -/
def replyLead : Nat := 40
/-- Answer an access whose last sector has been applied: the reply or acknowledgement reaches the issuer
within its bound (R62, R76), or at its landing tick (R54, R341). -/
def answer (s : State) (q : Req) : State :=
  match q.kind with
  | .load =>
    if (q.space = 0 ∨ q.space = 2) ∧ !(s.coreOf q.w).elastic then
      s.sched (max s.tick (q.bound - replyLead)) (obj q.id) .loadReply
    else
      let (d, s) := s.free 4000
      s.sched (s.tick + d) (obj q.id) .loadReply
  | .atom => s.sched (max s.tick (q.bound - replyLead)) (obj q.id) .atomicReply
  | .fill =>
    -- In strict mode data that arrives early is held until its tick; in elastic mode, and from a peer or the
    -- host, a sector lands as it arrives (R54).
    let t := if (s.coreOf q.w).elastic ∨ q.space = 1 ∨ q.space = 3 then s.tick else max s.tick q.bound
    s.sched t (obj q.id) (.windowLanding ⟨q.w.cl, q.w.co, q.aux, 0, 0, q.psn, q.data⟩)
  | .copyRd =>
    let t := if (s.coreOf q.w).elastic ∨ q.space = 1 ∨ q.space = 3 then s.tick else max s.tick q.bound
    s.sched t q.w (.copySectorLanding q.id)
  | .stamp =>
    let (d, s) := s.free (q.bound - s.tick)
    s.sched (s.tick + d) (obj q.id) .loadReply
  | _ =>
    let (d, s) := s.free (q.bound - s.tick)
    let s := if q.kind = .coll then s.sched s.tick (obj q.aux) .collectiveEnd else s
    if q.space = 1 ∨ q.space = 2 then
      s.sched (s.tick + d) (obj q.id) (.acknowledgementWord (BitVec.ofNat 64 (q.fchip + q.fsw * 2 ^ 16 + q.stat * 2 ^ 18)))
    else s.sched (s.tick + d) (obj q.id) .writeAck
/-- Answer an access as far as it stands after a sector: a read, and a multicast store, when it has no sector left; a
write through the fabric for each sector (R86). -/
def answerSector (s : State) (id : Nat) : State :=
  match s.req id with
  | none => s
  | some q =>
    let each := (q.space == 1 || q.space == 2) && writes q.kind && (match q.h.i with | .stMc .. => false | _ => true)
    if each || q.sectors.isEmpty then answer s q else s

/-- Whether a granule of this chip is poisoned now. -/
def granulePsn (s : State) (pa : Nat) : Bool :=
  psnBaseOk s && (spanBits s pa).getLsbD (pa / 4096 % 8)
/-- One reduction step: 0 sum, 1 minimum, 2 maximum (R337, R347). -/
def combineEl (t : Ty) (k a b : Nat) : Nat :=
  match k with
  | 0 => if t == .i32 then (a + b) % 2 ^ 32 else (fAdd t .rne false a b 0).1
  | k =>
    if t == .i32 then
      let lt := decide ((BitVec.ofNat 32 a).toInt < (BitVec.ofNat 32 b).toInt)
      if (k = 1) = (lt = true) then a else b
    else (fMinMax t (k == 2) a b).1
/-- Bytes of an engine sector that an access writes: combined with the old ones in an add-on-store or a direct
contribution, of a type by a function (R337, R432). -/
def engineBytes (old new : List Byte) (comb : Option (Ty × Nat)) : List Byte :=
  match comb with
  | none => new
  | some (t, k) =>
    let n := t.bits / 8
    ((List.range (new.length / n)).map fun j =>
      toBytes n (combineEl t k (leNat ((old.drop (n * j)).take n)) (leNat ((new.drop (n * j)).take n)))).flatten
/-- Whether an engine's write of a checked sector of this chip finds a race (R144, R145): the sector is compared where it is
written, and is not written then. -/
def engineRace (s : State) (q : Req) (sec : Nat) : Bool :=
  (q.kind == .drain || q.kind == .send || q.kind == .copyWr) && q.space == 0 && q.chk &&
    (match q.stamps with | (_, va) :: _ => raceAt s q.w.cl (BitVec.ofNat 64 va) false (s.stamp sec) | [] => false)
/-- The type and function of an add-on-store request, whose aux holds the type's code, and of a direct contribution, whose
destination list does. -/
def Req.comb (q : Req) : Option (Ty × Nat) :=
  match q.kind, q.dest with
  | .aos, _ => some (Ty.ofCode q.aux, 0)
  | .coll, (t, k) :: _ => some (Ty.ofCode t, k)
  | _, _ => none

/-- Apply an access to one sector as one indivisible step (R58, R77, R293). -/
def applySector (s : State) (q : Req) (sec : Nat) (ecc : Ecc) : State :=
  let key := memKey q.space (sec * 64)
  let bad := ecc == .bad || (q.space == 0 && granulePsn s (sec * 64))
  let s := if ecc == .bad && q.space == 0 then poisonGranule s (sec * 64) else s
  let st := s.stamp sec
  let mine : List LaneAcc := q.lanes.filter fun l => l.pa / 64 == sec
  let note := fun q : Req => { q with
    sectors := q.sectors.erase sec, badSecs := if bad && q.reads then q.badSecs ++ [sec] else q.badSecs }
  match q.kind with
  | .load =>
    let res := mine.map fun l => (l.lane, [(applyLane s (memKey q.space l.pa) q.h.i []).2])
    s.updReq q.id fun q => { note q with
      results := q.results ++ res, psn := q.psn || bad
      stamps := q.stamps ++ (if q.chk then mine.map fun l => (l.lane, st.toNat) else []) }
  | .stamp => s.updReq q.id fun q => { note q with stamps := q.stamps ++ mine.map fun l => (l.lane, st.toNat) }
  | .store | .red | .atom =>
    if (q.kind == .atom || q.kind == .red) && bad && q.space == 2 then
      s.updReq q.id fun q => { note q with stat := 1, psn := q.psn || q.kind == .atom }
    else
      let r := mine.foldl (fun (a : State × List (Nat × List DWord)) l =>
        let (s, v) := applyLane a.1 (memKey q.space l.pa) q.h.i l.ops
        (s, a.2 ++ [(l.lane, [v])])) (s, [])
      (stampWrite r.1 q sec).updReq q.id fun q => { note q with
        results := q.results ++ r.2, psn := q.psn || (bad && q.kind == .atom)
        stat := if q.kind == .atom then q.stat else 0 }
  | .fill | .copyRd =>
    let bs := s.bytes key 64
    s.updReq q.id fun q => { note q with
      data := bs, psn := bad, sectors := []
      stamps := q.stamps ++ (if q.chk then [(64, st.toNat)] else []) }
  | _ =>
    if engineRace s q sec then s.updReq q.id fun q => { note q with sectors := [], stat := 3, stamps := q.stamps ++ [(64, st.toNat)] }
    else
      let s := s.setBytes (key + q.off) (engineBytes (s.bytes (key + q.off) q.data.length) q.data q.comb)
      let s := stampWrite s q sec
      let s := if q.psn && q.space == 0 then poisonGranule s (sec * 64) else s
      let s := if q.psn && q.space == 2 then { s with net := { s.net with opsn := (s.net.opsn ++ [sec / 64]).eraseDups } } else s
      s.updReq q.id fun q => { note q with sectors := [], stat := 0 }

/-! ### Orchard (R77 to R81, R88 to R91) -/

/-- Switch of a sector, and the sector of the other copy (R74, R75). -/
def swOf (sec : Nat) : Nat := sec * 64 / 2 ^ 42 % 2
def otherSec (sec : Nat) : Nat := if swOf sec = 0 then sec + 2 ^ 36 else sec - 2 ^ 36
/-- The place of one sector of an access as what a happening acts on. -/
def secObj (id sec : Nat) : Iss := ⟨0, sec, id⟩
/-- The key of an issuer in a replay filter: this chip's cores (R89). -/
def filterKey (w : Iss) : Nat := (w.cl * 64 + w.co) * 32 + min w.n 16
/-- A sector of an access that a failed switch has not done (R87, R91): a load or returning atomic gets a reply made at its
tick, a write is dropped and reported. A window fill's or copy's read lands poisoned, as it arrives; R91 does not name
these (DESIGN CHOICE, log 38). -/
def loseSector (s : State) (id sec : Nat) (stat : Nat) : State :=
  match s.req id with
  | none => s
  | some q =>
    let s := s.updReq id fun q => { q with sectors := if q.kind = .load ∨ q.kind = .atom then [] else q.sectors.erase sec }
    match q.kind with
    | .load | .atom => s.sched (max s.tick q.bound) (obj id) .lostReply
    | .fill | .copyRd => answer (s.updReq id fun q => { q with psn := true, data := List.replicate 64 0 })
        { q with psn := true, data := List.replicate 64 0 }
    | _ => s.sched (max s.tick q.bound) (obj id)
        (.acknowledgementWord (BitVec.ofNat 64 (2 ^ (16 + swOf sec) + stat * 2 ^ 18)))
/-- The bank applies a sector of an access; a mirrored one is forwarded, and answered when the other switch has it (R88).
The time that this takes is a free value: the spec gives no bound of its own (DESIGN CHOICE, log 38). -/
def orchApply (s : State) (q : Req) (sec : Nat) (ecc : Ecc) (mir : Bool) : State :=
  let s := applySector s q sec ecc
  if mir then
    let sw := 1 - swOf sec
    let l := (assoc s.net.mirq sw).getD []
    let s := { s with net := { s.net with
      mirq := assocSet s.net.mirq sw (l ++ [(q.id, sec, s.bytes (keyOrch (sec * 64)) 64)]) } }
    let (d, s) := s.free 400
    s.sched (s.tick + d) ⟨0, sw, q.id⟩ .mirrorUpdate
  else answerSector s q.id
/-- The lanes of an atomic that the survivor's filter entry answers, with their old values (R89): only after a failover,
of the entry with the issuer's key and the region number. -/
def replayed (s : State) (q : Req) : List (Nat × DWord) :=
  if q.kind != .atom || !q.mir || s.net.failed.isEmpty then []
  else match s.net.filter.find? fun e => e.1 == filterKey q.w && e.2.1 == q.rnum with
    | some e => e.2.2
    | none => []
/-- ORCHARD_ACCESS_APPLY (R77, R88, R89): the bank applies sector cur.co of access cur.n. A retried atomic that the
filter knows is not performed again. An uncorrectable sector poisons its granule, unless the other copy serves it
(R79, R80); which is met is a free value. What reaches a failed switch is lost (R91). -/
def execOrchardAccessApply (s : State) : Out :=
  let sec := s.cur.co
  match s.req s.cur.n with
  | none => .next s
  | some q =>
    if !(q.sectors.contains sec) then .next s
    else if s.net.failed.contains (swOf sec) then .next (loseSector s q.id sec 2)
    else if mustWait s q sec then .next (s.sched (s.tick + 1) s.cur .orchardAccessApply)
    else
      let olds := replayed s q
      let mine := q.lanes.filter fun l => l.pa / 64 == sec && olds.any fun o => o.1 == l.lane
      if !mine.isEmpty then
        let s := { s with net := { s.net with filter := s.net.filter.filter fun x => x.1 != filterKey q.w } }
        .next (answerSector (s.updReq q.id fun q => { q with
          sectors := q.sectors.erase sec
          results := q.results ++ mine.map fun l => (l.lane, [(assoc olds l.lane).getD 0]) }) q.id)
      else
        let mir := q.mir && s.net.failed.isEmpty && bits s.chip.orchst 0 2 == 0
        let g := sec / 64
        let o := otherSec sec / 64
        let (e1, s) := s.ecc
        let (e2, s) := s.ecc
        let here := s.net.opsn.contains g || e1 == .bad
        let poisoned := here && !(mir && !(s.net.opsn.contains o || e2 == .bad))
        let s := if poisoned then { s with net := { s.net with
          opsn := (s.net.opsn ++ (if mir then [g, o] else [g])).eraseDups } } else s
        .next (orchApply s q sec (if poisoned then .bad else .good) mir)
/-- A switch applies a sector from its mirror link, and keeps the old values of a returning atomic (R88, R89). -/
def mirrorApply (s : State) (e : Nat × Nat × List Byte) : State :=
  let sec := e.2.1
  let s := s.setBytes (keyOrch (otherSec sec * 64)) e.2.2
  match s.req e.1 with
  | none => s
  | some q =>
    let olds := (q.lanes.filter fun l => l.pa / 64 == sec).filterMap fun l =>
      (q.results.find? fun r => r.1 == l.lane).map fun r => (l.lane, nth r.2 0 0)
    let k := filterKey q.w
    let prev := match s.net.filter.find? fun e => e.1 == k && e.2.1 == q.rnum with | some e => e.2.2 | none => []
    if q.kind = .atom then
      { s with net := { s.net with filter := (s.net.filter.filter fun x => x.1 != k) ++ [(k, q.rnum, prev ++ olds)] } }
    else s
/-- MIRROR_UPDATE (R88): switch cur.co applies the oldest sector on its mirror link; then the primary answers. -/
def execMirrorUpdate (s : State) : Out :=
  let sw := s.cur.co
  match (assoc s.net.mirq sw).getD [] with
  | [] => .next s
  | e :: rest => .next (answerSector (mirrorApply { s with net := { s.net with mirq := assocSet s.net.mirq sw rest } } e) e.1)

/-! ### Access slots and switches (R424, R426, R447) -/

/-- ACCESS_SLOT_SEND (R424, R447): the head of a switch's queue goes out in this slot, unless the chip replays a log. It
reaches the switch's bank 160 ticks later, the time that R76's path takes from chip to chip (DEDUCED, log 38). -/
def execAccessSlotSend (s : State) : Out :=
  let sw := s.cur.n
  match if s.net.isolated then [] else (assoc s.net.portq sw).getD [] with
  | [] => .next s
  | (id, sec) :: rest =>
    let s : State := { s with net := { s.net with portq := assocSet s.net.portq sw rest } }
    let s := s.count 12 s.cur 1
    match s.req id with
    | none => .next s
    | some q =>
      if s.dbg.replaying then .next (replayAccess s q sec)
      else if q.space = 2 then .next (s.sched (s.tick + 160) (secObj id sec) .orchardAccessApply)
      else
        let l := (assoc s.net.swq sw).getD []
        .next (({ s with net := { s.net with swq := assocSet s.net.swq sw (l ++ [(id, sec)]) } } : State).sched
          (s.tick + 160) (obj sw) .switchForward)
/-- SWITCH_FORWARD (R426): the switch forwards its oldest waiting access to the destination chip. -/
def execSwitchForward (s : State) : Out :=
  let sw := s.cur.n
  match (assoc s.net.swq sw).getD [] with
  | [] => .next s
  | (id, sec) :: rest =>
    let s := { s with net := { s.net with swq := assocSet s.net.swq sw rest } }
    match s.req id with
    | none => .next s
    | some _ =>
      let (d, s) := s.free 640
      let (e, s) := s.ecc
      .next (s.sched (s.tick + d) (obj id) (.hbmSectorAccess sec e))

/-- The poisoned granules of a reply from another chip or a switch enter the remote poison table, and the TLB entries that
cover them take their bits (DEDUCED, log 35); a full bucket is an uncontained error, and every grid of the domain of the
issuing access ends (R24). -/
def enterRemote (s : State) (q : Req) : State :=
  if (q.space ≠ 1 ∧ q.space ≠ 2) ∨ !psnBaseOk s then s
  else ((q.badSecs.map (· / 64)).eraseDups).foldl (fun s g =>
    match remoteEnter s (g * 4096) with
    | some s => markTlbs s g true
    | none =>
      let r := mkRec q.w q.h.pc q.h.itick q.rnum s.tick q.h.pc { cls := 0x15, sub := 2 }
      match (s.coreOf q.w).grid.bind s.grid with
      | some x => ((s.fw.grids.filter fun y => y.dom == x.dom).map (·.id)).foldl (fun s k => terminateGrid s k r) (reportFw s r)
      | none => terminateAt (reportFw s r) q.w.cl q.w.co r) s

/-! ### Acknowledgements (R62, R86, R87) -/

/-- OR a failed thread write into its block's exit record, and report a store loss (R87). -/
def storeLoss (s : State) (q : Req) (word : DWord) : State :=
  let s := match (s.coreOf q.w).blockOf q.w.n with
    | none => s
    | some bi => s.updCore q.w.cl q.w.co fun c =>
      let b := c.block bi
      c.setBlock { b with
        sloss := true, fchip := b.fchip ||| BitVec.ofNat 16 (bits word 0 16)
        fsw := b.fsw ||| BitVec.ofNat 2 (bits word 16 2)
        spsn := b.spsn || bits word 18 2 == 1, slost := b.slost || bits word 18 2 == 2 }
  reportFw s (mkRec q.w q.h.pc q.h.itick q.rnum s.tick q.h.pc { cls := 0x13, d0 := word })

/-- The tile task's record of an engine's command (R403, R407). -/
def tileRec (s : State) (w : Iss) (h : Held) (engine queue seq : Nat) (i : TrapInfo) : Rec :=
  mkRec w h.pc h.itick h.rnum s.tick h.pc
    { i with tt := true, ret := (s.iss w).wait == .ended, engine := engine, queue := queue, seq := seq }

/-- The tile task's record of an epilogue's command; its number stands first among its values (R404). -/
def epiRec (s : State) (w : Iss) (h : Held) (i : TrapInfo) : Rec :=
  let port := match h.i with | .epi e => e.port.toNat | _ => 0
  tileRec s w h 3 port (nth h.vals 0 0).toNat i
/-- A fault that an engine meets belongs to the issuer of its command while that region is uncommitted, as it can be in lean
mode; a race, and every fault after the commit, to the tile task (R406, R407). -/
def engineFault (s : State) (w : Iss) (h : Held) (i : TrapInfo) (task : State → State) : State :=
  if i.cls ≠ 9 ∧ (s.iss w).regions.any (fun r => r.num == h.rnum) then raiseLate s w h.pc h.itick h.rnum { i with tt := false }
  else task s
/-- An epilogue's write fails: its tile is faulted, and a failed send stops the later ones (R336, R338). -/
def epiFail (s : State) (cl co job : Nat) (send : Bool) (i : TrapInfo) : State :=
  match (s.core cl co).jobs.find? fun j => j.id == job with
  | none => s
  | some j =>
    let s := s.updCore cl co fun c => { c with
      jobs := c.jobs.map fun k => if k.id = job then { k with stopped := k.stopped || send } else k }
    engineFault s ⟨cl, co, 16⟩ j.h i fun s =>
      let r := epiRec s ⟨cl, co, 16⟩ j.h i
      s.updCore cl co fun c => { c with tileFault := assocSet c.tileFault j.e.acc.toNat r }

/-- The record of a stream's command (R403, R404): its EFORK issued it. -/
def streamRec (s : State) (cl co sn : Nat) (h : Held) (i : TrapInfo) : Rec :=
  tileRec s ⟨cl, co, 16⟩ h 5 sn (nth (s.core cl co).streams sn {}).seq i
/-- A stream stops and enters its faulted state (R344). -/
def streamStop (s : State) (cl co sn : Nat) (r : Rec) : State :=
  s.updCore cl co fun c => { c with streams := setNth {} c.streams sn { nth c.streams sn {} with
    running := false, fault := some r } }
/-- One sector of a stream's copy is done; the copy ends with its last (R341). -/
def copyDone (s : State) (cl co sn id : Nat) : State :=
  let s := s.updCore cl co fun c =>
    let st := nth c.streams sn {}
    let cs := (st.copies.map fun k => if k.id = id then { k with done := k.done + 1 } else k).filter
      fun k => decide (k.done < k.len)
    { c with streams := setNth {} c.streams sn { st with copies := cs } }
  s.sched (max s.tick (s.core cl co).strAt) ⟨cl, co, 0⟩ .streamCommandStart

/-- A collective's slot becomes faulted with a record of the collective unit (R321, R348). -/
def collFault (s : State) (c : Coll) (i : TrapInfo) : State :=
  match c.owner, c.h with
  | some w, some h =>
    let r := tileRec s ⟨w.cl, w.co, 16⟩ h 6 c.slot (nth (s.coreOf w).cslots c.slot {}).seq i
    let s := s.updChip fun x => { x with colls := x.colls.map fun d => if d.id = c.id then { d with status := 1 } else d }
    (s.updCore w.cl w.co fun k => { k with
      cslots := setNth {} k.cslots c.slot { nth k.cslots c.slot {} with fault := some r } }).sched
      s.tick (obj c.id) .collectiveEnd
  | _, _ => s
/-- An access has been acknowledged: thread writes are done, a drain, an epilogue or a copy goes on, and
a Sloe ring write or notify is done (R87, R302, R338, R341, R363). -/
def acked (s : State) (q : Req) (word : DWord) : State :=
  let fail := bits word 0 20 != 0
  let s := if q.acks ≤ 1 then s.delReq q.id else s.updReq q.id fun q => { q with acks := q.acks - 1 }
  let raced := bits word 18 2 == 3
  let va : DWord := match q.stamps with | (_, va) :: _ => BitVec.ofNat 64 va | [] => 0
  -- A write that was lost carries its acknowledgement word; one that raced, its stamp (R148).
  let info : TrapInfo := if raced then raceInfo s q.w.cl va (BitVec.ofNat 16 ((q.stamps.getLast?.map (·.2)).getD 0)) true none 1
    else { cls := 0x13, addr := va, d0 := word }
  match q.kind with
  | .store | .red => if fail then storeLoss s q word else s
  | .drain =>
    let win := nth (q.dest.map (·.1)) 0 0
    let r := tileRec s ⟨q.w.cl, q.w.co, q.w.n⟩ q.h 4 win q.aux info
    let s := s.updCore q.w.cl q.w.co fun c =>
      let c := { c with drains := c.drains.map fun d => if d.win = win then { d with done := d.done + 1 } else d }
      if fail then { c.setWin win { c.win win with
        state := .faulted, fault := some r, ftick := s.tick } with
        drains := c.drains.filter fun d => d.win != win } else c
    match (s.coreOf q.w).drains.find? fun d => d.win == win with
    | some d => if d.done = d.total then s.sched s.tick ⟨q.w.cl, q.w.co, win⟩ .drainComplete else s
    | none => s
  | .send | .aos =>
    if fail then epiFail s q.w.cl q.w.co (nth (q.dest.map (·.1)) 0 0) true info else s
  | .copyWr =>
    let sn := nth (q.dest.map (·.1)) 0 0
    let s := copyDone s q.w.cl q.w.co sn (nth (q.dest.map (·.2)) 0 0)
    if fail then streamStop s q.w.cl q.w.co sn (streamRec s q.w.cl q.w.co sn q.h info) else s
  | .coll =>
    match s.chip.colls.find? fun c => c.id == q.aux with
    | some c => if fail && !c.ended then collFault s c info else s.sched s.tick (obj q.aux) .collectiveEnd
    | none => s
  | .notify => if fail then s.updChip fun h => { h with
      slots := match assoc h.slots q.aux with
        | some x => assocSet h.slots q.aux { x with
            dw := Sparse.set (0 : DWord) x.dw 13 (setBits (Sparse.get (0 : DWord) x.dw 13) 26 1 1) }
        | none => h.slots } else s
  | _ => s
/-- WRITE_ACK (R62). -/
def execWriteAck (s : State) : Out :=
  match s.req s.cur.n with
  | some q =>
    let word := BitVec.ofNat 64 (q.fchip + q.fsw * 2 ^ 16 + q.stat * 2 ^ 18)
    .next (acked (logAnswer s q word) q word)
  | none => .next s
/-- ACKNOWLEDGEMENT_WORD (R86): the word reaches the issuing chip. -/
def execAcknowledgementWord (word : DWord) (s : State) : Out :=
  match s.req s.cur.n with
  | some q => .next (acked (logAnswer s q word) q word)
  | none => .next s

end Sys2Proof.Machine
end

