-- ==== Sys2Proof/Machine/Window.lean ====
section
/-!
DEFINITION. The window table: touches, home fills, counted deliveries, drains, definitions and handles, and
the window instructions (R48 to R55, R298 to R303).
-/
namespace Sys2Proof.Machine

/-! ### The tile (R48, R50) -/

def Win.rowSectors (e : Win) : Nat := e.rbytes / 64
/-- Sectors of the tile: rows, then scales. -/
def Win.sectors (e : Win) : Nat := e.rows * e.rowSectors + e.scllen / 64
/-- Home address and scratchpad offset of sector k. -/
def Win.sector (e : Win) (k : Nat) : DWord × Nat :=
  let n := e.rows * e.rowSectors
  if k < n then
    let i := k / e.rowSectors
    let c := k % e.rowSectors * 64
    (e.home + dw (i * e.hstride + c), e.sbase + i * e.sstride + c)
  else (e.sclhome + BitVec.ofNat 64 ((k - n) * 64), e.scloff + (k - n) * 64)
/-- The number of the sector at a scratchpad offset. -/
def Win.sectorAt (e : Win) (off : Nat) : Nat :=
  if e.scloff ≤ off ∧ off < e.scloff + e.scllen then e.rows * e.rowSectors + (off - e.scloff) / 64
  else (off - e.sbase) / e.sstride * e.rowSectors + (off - e.sbase) % e.sstride / 64
def WState.code : WState → Nat
  | .absent => 0 | .filling => 1 | .full => 2 | .draining => 3 | .free => 4 | .faulted => 5
/-- Bits 6:0 of dword 0 (R301). -/
def Win.status (e : Win) : Nat :=
  b2n e.v + e.state.code * 2 + b2n e.psn * 16 + b2n e.arm * 32 + b2n e.hfs * 64
def Win.valid (e : Win) : List Prod := e.prods.filter (·.valid)
/-- The home fill's producer (R49). -/
def Win.homeProd (e : Win) : Option Prod := e.valid.find? fun p => p.kind == 0
/-- Space of the home that fills a window, for fences (R296). -/
def Win.homeSpace (e : Win) : Nat := if e.homeProd.isSome then spaceOf e.home else noHome
/-- A producer word (R49). -/
def Prod.word (p : Prod) : DWord :=
  BitVec.ofNat 64 (p.kind + b2n p.valid * 4 + p.pid * 2 ^ 4 + p.share * 2 ^ 16 + p.count * 2 ^ 40)

/-- Change an entry and record the tick of a change of state (R52). -/
def setWinState (s : State) (cl co n : Nat) (f : Win → Win) : State :=
  s.updCore cl co fun c =>
    let e := c.win n
    let e' := f e
    c.setWin n (if e'.state = e.state then e' else { e' with ftick := s.tick })
def State.win (s : State) (cl co n : Nat) : Win := (s.core cl co).win n

/-- Let the matrix engine, the gather unit and the follow-on commands be looked at (R55, R318). -/
def kickEngines (s : State) (cl co : Nat) : State :=
  (s.sched s.tick ⟨cl, co, 0⟩ .matrixCommandStart).sched s.tick ⟨cl, co, 0⟩ .gatherStart
/-- Let the core's streams be looked at (R169). -/
def kickStreams (s : State) (cl co : Nat) : State :=
  s.sched (max s.tick (s.core cl co).strAt) ⟨cl, co, 0⟩ .streamCommandStart

/-- The fault record of a window's tile task (R407): the work started at the touch. -/
def winRec (s : State) (cl co n : Nat) (i : TrapInfo) : Rec :=
  let e := s.win cl co n
  let (w, rn, pc) := e.toucher.getD (⟨cl, co, 16⟩, 0, 0)
  mkRec w pc e.ftick rn s.tick pc
    { i with tt := true, ret := (s.iss w).wait == .ended, engine := 4, queue := n, seq := e.seq }
/-- A window enters state faulted, with a record (R52, R407). -/
def faultWinRec (s : State) (cl co n : Nat) (r : Rec) : State :=
  let s := setWinState s cl co n fun e => { e with state := .faulted, fault := some r }
  kickStreams (kickEngines (s.updCore cl co fun c => { c with fills := c.fills.filter fun f => f.win != n }) cl co) cl co
/-- A fault of the window engine's tile task (R52). -/
def faultWin (s : State) (cl co n : Nat) (i : TrapInfo) : State := faultWinRec s cl co n (winRec s cl co n i)

/-! ### Touches and home fills (R52, R54) -/

/-- The reset of a home fill that stops (R406): it starts again at the next touch. -/
def Win.resetFill (e : Win) : Win :=
  let ps : List Prod := e.prods.map fun p => if p.kind = 0 then { p with count := 0 } else p
  { e with hfs := false, prods := ps, state := if ps.all (fun p => p.count == 0) then .absent else .filling }

/-- L of a home space (R54). -/
def fillL (space : Nat) : Nat := match space with | 4 => 6 | 5 => 28 | 0 => 2400 | _ => 4000
/-- A home fill meets a fault (R406): it is the touching issuer's while its region is uncommitted, and the fill starts
again at the next touch; else the tile task's, and the window is faulted. -/
def fillFault (s : State) (cl co n itick : Nat) (i : TrapInfo) : State :=
  match (s.win cl co n).toucher with
  | none => faultWin s cl co n i
  | some (tw, rn, pc) =>
    if (s.iss tw).regions.any fun r => r.num == rn then
      let s := setWinState s cl co n Win.resetFill
      raiseLate (s.updCore cl co fun c => { c with fills := c.fills.filter fun f => f.win != n }) tw pc itick rn i
    else faultWin s cl co n i
/-- The request of a fill's next sector: it is read, and lands at its tick. It follows what happened before the touch
(R132). -/
def fillSector (s : State) (cl co n : Nat) (x : Xfer) (k : Nat) : State :=
  let e := s.win cl co n
  let c := s.core cl co
  let (addr, off) := e.sector k
  let sp := spaceOf addr
  let p := if sp = 4 ∨ sp = 5 then 1 else c.fill
  let land := x.next + fillL sp + k * p
  let h := x.h.getD ⟨.wtouch ⟨false, 0, false⟩ 0, [], [], [n], 0, s.tick, 0⟩
  let w : Iss := ⟨cl, co, x.slot⟩
  let mk := fun (id space pa : Nat) (chk mir : Bool) (aux : Nat) => ({
    id := id, kind := .fill, w := w, h := h, space := space, dest := [(n, k)]
    lanes := [], results := [], issued := s.tick, bound := land, sectors := [pa / 64], psn := false
    stat := 0, rnum := h.rnum, tenant := c.tenant, chk := chk, arrived := false, data := [], aux := aux, mir := mir } : Req)
  if 3 < sp then
    match poolAddr co addr with
    | some (tc, o) =>
      if o + 64 ≤ (s.core cl tc).scSize then
        let (id, s) := s.fresh
        s.sched land ⟨cl, co, n⟩ (.windowLanding ⟨cl, co, off, 0, 0, (s.core cl tc).psnAt o,
          spSector s cl tc o⟩) |>.updChip fun h => { h with ids := id + 1 }
      else fillFault s cl co n h.itick { cls := 3, sub := 7, addr := addr }
    | none => fillFault s cl co n h.itick { cls := 3, sub := 7, addr := addr }
  else
    match translate (watchEngine s h w true (taskOf 4 n e.seq) addr 64 0) cl c.ptw .fill addr with
    | (.ok (pa, pte), s) =>
      let (id, s) := s.fresh
      let s := startReqAt s (mk id sp pa (bit pte 5) (bit pte 8) off) [addr]
      match e.toucher with
      | some (tw, _, _) => s.updReq id fun q => { q with hb := clockOf s tw h.itick }
      | none => s
    | (.error i, s) => fillFault s cl co n h.itick i
/-- Start the home fill of a window (R52, R54): sectors are translated and read in order. -/
def startFill (s : State) (w : Iss) (n : Nat) (h : Option (Iss × Held)) : State :=
  let e := s.win w.cl w.co n
  let total := match e.homeProd with | some p => p.share / 64 | none => 0
  let x : Xfer := ⟨n, s.tick, total, 0, w.n, h.map (·.2), none⟩
  let s := setWinState s w.cl w.co n fun e => { e with
    hfs := true, state := .filling
    toucher := h.map fun h => (h.1, h.2.rnum, h.2.pc) }
  let s := s.updCore w.cl w.co fun c => { c with fills := (c.fills.filter fun f => f.win != n) ++ [x] }
  (List.range total).foldl (fun s k =>
    if (s.win w.cl w.co n).state = .filling ∧ (s.win w.cl w.co n).hfs then fillSector s w.cl w.co n x k else s) s
/-- The touch event (R52) of a window of w's core; h names who touches it by which instruction. -/
def touch (s : State) (w : Iss) (n : Nat) (h : Option (Iss × Held)) : State :=
  let e := s.win w.cl w.co n
  match e.state with
  | .absent => startFill s w n h
  | .filling => if e.hfs then s else startFill s w n h
  | .free =>
    if e.valid.isEmpty then s
    else startFill (setWinState s w.cl w.co n fun e => { e with
      prods := e.prods.map fun p => { p with count := 0 } }) w n h
  | _ => s
/-- Whether a touch would start a fill from space 1 or 3, which is a blocking point (R184, R301). -/
def touchBlocks (e : Win) : Bool :=
  let sp := spaceOf e.home
  (sp == 1 || sp == 3) && e.homeProd.isSome &&
    (match e.state with
     | .absent => true
     | .filling => !e.hfs
     | .free => true
     | _ => false)

/-! ### Commands that wait for a window (R52, R302, R320) -/

/-- The plain stream that carries the drains of a window (R423), as sending chip's clusters and cores. -/
def streamOf (s : State) (cl co n : Nat) : Option (Nat × Nat) :=
  let ws := s.chip.sched.words
  if !s.chip.sched.running then none
  else
    let off := bits (nth ws 3 0) 0 32 / 8
    ((List.range (bits (nth ws 4 0) 0 32)).findSome? fun k =>
      let e := nth ws (off + k) 0
      if bits e 12 10 = chipNo ∧ bits e 22 6 = cl ∧ bits e 28 6 = co ∧ bits e 34 6 = n then
        some (bits e 0 12, bits e 40 10) else none)
/-- A drain starts (R133, R302). -/
def startDrain (s : State) (cl co n : Nat) (h : Held) (slot : Nat) (stm : Option Nat) : State :=
  let e := s.win cl co n
  let x : Xfer := ⟨n, 0, e.sectors, 0, slot, some h, stm⟩
  let s := setWinState s cl co n fun e => { e with state := .draining, seq := e.seq + 1 }
  let s := s.updCore cl co fun c => { c with drains := (c.drains.filter fun d => d.win != n) ++ [x] }
  if e.sectors = 0 then s.sched s.tick ⟨cl, co, n⟩ .drainComplete
  else s.sched s.tick ⟨cl, co, n⟩ .drainSector
/-- Whether an operand lock stands on a window (R320). -/
def winLocked (c : Core) (t n : Nat) : Bool :=
  c.locks.any fun l => l.win == n && (match l.until_ with | none => true | some u => decide (t < u))

/-- Fields of a WDEF image (R48). -/
def parseProd (d : DWord) : Prod := ⟨bits d 0 2, bit d 2, bits d 4 12, bits d 16 24, 0⟩
def parseWin (im : List DWord) (t : Nat) : Win :=
  let d := fun k => nth im k 0
  let ps := (List.range 4).map fun k => parseProd (d (8 + k))
  { v := true
    state := if ps.any (·.valid) then .absent else .free
    arm := d 5 != 0
    ty := bits (d 0) 8 4, sbase := bits (d 0) 16 24, rows := bits (d 0) 40 12
    home := d 1, hstride := sext 32 (bits (d 2) 0 32), rbytes := bits (d 2) 32 16, sstride := bits (d 2) 48 16
    sclhome := d 3, scloff := bits (d 4) 0 24, scllen := bits (d 4) 24 12, follow := d 5
    ftick := t, prods := ps }
/-- Handle fields of a matrix word: MMA reads HA unless GA, MMAS also HM (R316). -/
def followHandles (w : DWord) : List Nat :=
  if bits w 56 7 = 0x70 then (if bit w 20 then [bits w 22 4] else [bits w 26 4, bits w 22 4])
  else [bits w 26 4, bits w 22 4, bits w 16 4]
/-- The window that a handle names now, when it is valid. -/
def Core.handleWin (c : Core) (h : Nat) : Option Nat :=
  match nth c.handles h .unbound with
  | .idx n => if (c.win n).v then some n else none
  | _ => none
/-- Two entries that share a scratchpad byte: a sector of one lies in the other (R50). -/
def winsOverlap (a b : Win) : Bool := (List.range a.sectors).any fun k => b.holds (a.sector k).2
/-- Refusal reasons of a definition (R300): the lowest that applies, 0 for none. -/
def wdefReason (s : State) (cl co idx : Nat) (ok : Bool) (im : List DWord) (hd : Nat) : Nat :=
  let c := s.core cl co
  let d := fun k => nth im k 0
  let e := parseWin im s.tick
  let st := (c.win idx).state
  let busy := (c.win idx).v && (st == .filling || st == .draining)
  let c1 := bits (d 0) 12 4 != 0 || bits (d 0) 52 12 != 0 || bits (d 4) 36 28 != 0 ||
    (List.range 4).any fun k => bit (d (8 + k)) 3
  let tot := e.valid.foldl (fun a p => a + p.share) 0
  let fh := followHandles e.follow
  let named := fun h => (if h = hd then some idx else c.handleWin h).isSome
  let cs : List (Nat × Bool) := [(1, c1),
    (2, e.sbase % 64 != 0 || decide (c.scSize + e.sstride < e.sbase + e.rows * e.sstride + e.rbytes)),
    (3, e.rows == 0),
    (4, e.rbytes % 64 != 0 || decide (e.rbytes < 64) || decide (16384 < e.rbytes)),
    (5, e.sstride % 64 != 0 || decide (e.sstride < e.rbytes)),
    (6, decide (5 < spaceOf e.home) || (e.sclhome != 0 && decide (5 < spaceOf e.sclhome))),
    (7, e.scloff % 64 != 0 || decide (c.scSize < e.scloff + e.scllen)),
    (8, e.follow != 0 && (!(bits e.follow 56 7 == 0x70 || bits e.follow 56 7 == 0x71) || !(fh.all named))),
    (9, e.valid.any fun p => (p.kind == 0 && p.pid != 0) || p.share == 0 || p.share % 64 != 0),
    (10, !e.valid.isEmpty && tot != e.rows * e.rbytes + e.scllen),
    (11, decide (1 < (e.valid.filter fun p => p.kind == 0).length)),
    (12, c.wins.any fun w => w.1 != idx && w.2.v && (winsOverlap e w.2 || winsOverlap w.2 e))]
  let late : List (Nat × Bool) := [(13, busy), (14, decide (63 < idx)), (15, !ok)]
  match ((if ok then cs else []) ++ late).find? fun x => x.2 with
  | some x => x.1
  | none => 0
/-- WDEF at its presentation (R299): vals are the index, whether the image was readable, and the image. -/
def presentWdef (s : State) (w : Iss) (h : Held) (hd : Nat) : State :=
  let idx := (nth h.vals 0 0).toNat
  let ok := nth h.vals 1 0 == 1
  let im := h.vals.drop 2
  let r := wdefReason s w.cl w.co idx ok im hd
  (s.updIss w fun me => { me with defAt := some (hd, s.tick) }).updCore w.cl w.co fun c =>
    if r = 0 then
      let e := parseWin im s.tick
      let c := { c with handles := setNth .unbound c.handles hd (.idx idx) }
      let fw := if e.follow = 0 then [] else (followHandles e.follow).map fun k => (c.handleWin k).getD idx
      c.setWin idx { e with armAt := s.tick, followWins := fw, armIss := some h }
    else { c with handles := setNth .unbound c.handles hd (.refused r im) }

/-- A held WDRAIN, WREL or WDEF, or a stream's drain, acts on a window that lets it act (R52, R302). -/
def actWcmd (s : State) (cl co : Nat) (x : WCmd) : State :=
  let w : Iss := ⟨cl, co, x.slot⟩
  match x.h.i with
  | .wdrain _ _ => if (s.win cl co x.win).state = .faulted then s else startDrain s cl co x.win x.h x.slot none
  | .edrain _ => if (s.win cl co x.win).state = .faulted then s else startDrain s cl co x.win x.h 16 (some x.slot)
  | .wrel _ _ =>
    setWinState s cl co x.win fun e => { e with
      seq := e.seq + 1, state := match e.state with | .faulted => .faulted | _ => .free }
  | .wdef _ hd _ _ => presentWdef s w x.h hd.toNat
  | _ => s
/-- Whether a held command may act now. A window that becomes faulted keeps none waiting: a WDRAIN or WREL does nothing
to it (DEDUCED, log 36). -/
def wcmdReady (s : State) (cl co : Nat) (x : WCmd) : Bool :=
  let e := s.win cl co x.win
  match x.h.i with
  | .wdef .. => !winLocked (s.core cl co) s.tick x.win
  | _ => match e.state with
    | .full | .free => true
    | .absent => match x.h.i with | .wrel .. => true | _ => false
    | .faulted => true
    | _ => false
/-- Perform the held commands of a window that may act, in the order of their presentation (R302). -/
def runWcmds (s : State) (cl co n : Nat) : Nat → State
  | 0 => s
  | f + 1 =>
    match (s.core cl co).wcmds.find? fun x => x.win == n with
    | none => s
    | some x =>
      if wcmdReady s cl co x then
        runWcmds (actWcmd (s.updCore cl co fun c => { c with wcmds := c.wcmds.erase x }) cl co x) cl co n f
      else s
def flushWcmds (s : State) (cl co n : Nat) : State := runWcmds s cl co n ((s.core cl co).wcmds.length + 1)
/-- A command for a window acts or is held (R302): a WDRAIN of an absent window touches it first. -/
def submitWcmd (s : State) (cl co : Nat) (x : WCmd) : State :=
  let s := match x.h.i, (s.win cl co x.win).state with
    | .wdrain .., .absent | .edrain .., .absent => touch s ⟨cl, co, 16⟩ x.win none
    | _, _ => s
  flushWcmds (s.updCore cl co fun c => { c with wcmds := c.wcmds ++ [x] }) cl co x.win
/-- WDRAIN and WREL at their presentation (R298, R301): a faulted window delivers its fault here. -/
def presentWcmd (s : State) (w : Iss) (h : Held) : State :=
  let n := nth h.wins 0 0
  let e := s.win w.cl w.co n
  match e.state, e.fault with
  | .faulted, some r =>
    let s := s.updCore w.cl w.co fun c => { c.setWin n { e with v := false, state := .absent, fault := none } with
      handles := c.handles.map fun k => if k = .idx n then .unbound else k }
    let s := discardAll s w false
    deliver s w (setNth 0 r 5 (setBits (nth r 5 0) 41 23 h.pc)) s.tick []
      (match (s.iss w).redo with | some g => g.pcs | none => (s.iss w).pcs)
  | _, _ => submitWcmd s w.cl w.co ⟨h, n, w.n⟩

/-! ### Deliveries (R51, R52, R423) -/

/-- A window has become full (R52): waiting commands, engines and streams are looked at. -/
def winFull (s : State) (cl co n : Nat) : State :=
  let s := setWinState s cl co n fun e => { e with state := .full }
  let s := s.updCore cl co fun c => { c with fills := c.fills.filter fun f => f.win != n }
  kickStreams (kickEngines (flushWcmds s cl co n) cl co) cl co
/-- A counted delivery of a sector into a window (R51, R52). R50 allows two valid producers of one KIND and PID, and R51 does
not say which of them a delivery counts against: it counts against both (DESIGN CHOICE, log 36). -/
def deliverTo (s : State) (d : Delivery) (n : Nat) : State :=
  let e := s.win d.cl d.co n
  let info := fun (sub : Nat) (w : DWord) => ({
    cls := 0x0D, sub := sub, addr := BitVec.ofNat 64 (4 * 2 ^ 60 + d.off), d0 := w
    d1 := BitVec.ofNat 64 (n + d.kind * 2 ^ 6 + d.pid * 2 ^ 8) } : TrapInfo)
  match e.valid.find? fun p => p.kind == d.kind && p.pid == d.pid with
  | none => faultWin s d.cl d.co n (info 2 0)
  | some p =>
    if e.state != .absent && e.state != .filling then faultWin s d.cl d.co n (info 3 p.word)
    else if p.share < p.count + d.data.length then faultWin s d.cl d.co n (info 1 p.word)
    else
      let s := spWrite s d.cl d.co d.off d.data
      let s := if d.psn then spPoison s d.cl d.co (d.off / 64) else s
      let s := setWinState s d.cl d.co n fun e => { e with
        state := .filling, psn := e.psn || d.psn
        prods := e.prods.map fun q => if q.valid && q.kind == d.kind && q.pid == d.pid then
          { q with count := q.count + d.data.length } else q }
      if (s.win d.cl d.co n).valid.all (fun q => q.count == q.share) then winFull s d.cl d.co n else s
/-- Deliver a sector by its offset, to the window that holds it; outside every window an engine write
passes the checks 1 and 2 of R44 (R336). Which check failed: 7 or 8. -/
def deliverAt (s : State) (d : Delivery) : Option Nat × State :=
  let c := s.core d.cl d.co
  match c.winsAt d.off with
  | (n, _) :: _ => (none, deliverTo s d n)
  | [] =>
    if c.scSize < d.off + d.data.length then (some 7, s)
    else if (List.range d.data.length).any fun k => c.locked s.tick (d.off + k) then (some 8, s)
    else
      let s := spWrite s d.cl d.co d.off d.data
      (none, if d.psn then spPoison s d.cl d.co (d.off / 64) else s)
/-- Offset at which a stream's next sector lands: after the shares of the words before its own (R423). -/
def streamOffset (e : Win) (kind pid : Nat) : Nat :=
  let before := (e.valid.takeWhile fun p => !(p.kind == kind && p.pid == pid)).foldl (fun a p => a + p.share) 0
  let own := match e.valid.find? fun p => p.kind == kind && p.pid == pid with | some p => p.count | none => 0
  (e.sector ((before + own) / 64)).2
/-- A drain stops at a fault (R302): its window is faulted, with the record of the drain's command. -/
def drainStop (s : State) (cl co n : Nat) (i : TrapInfo) : State :=
  match (s.core cl co).drains.find? fun d => d.win == n with
  | none => s
  | some d =>
    let h := d.h.getD ⟨.wdrain ⟨false, 0, false⟩ 0, [], [], [n], 0, 0, 0⟩
    let r := tileRec s ⟨cl, co, d.slot⟩ h 4 n (s.win cl co n).seq i
    let s := setWinState s cl co n fun e => { e with state := .faulted, fault := some r }
    let s := s.updCore cl co fun c => { c with drains := c.drains.filter fun x => x.win != n }
    kickStreams (kickEngines (flushWcmds s cl co n) cl co) cl co
/-- WINDOW_LANDING (R42, R52, R193, R423): a sector lands, poisoned when its check code fails. A home fill's landing names
its request, and is compared with its stamp (R144, R145); a drain's names its window, above 2^32. -/
def execWindowLanding (d : Delivery) (s : State) : Out :=
  let (bad, s) := landCheck s
  let d := { d with psn := d.psn || bad }
  match d.kind, s.req s.cur.n with
  | 0, some q =>
    if q.kind == .fill then
      let n := nth (q.dest.map (·.1)) 0 0
      let s := enterRemote ((logAnswer s q 0).delReq q.id) q
      let va := ((s.win d.cl d.co n).sector (nth (q.dest.map (·.2)) 0 0)).1
      let st := BitVec.ofNat 16 (((q.stamps.head?).map (·.2)).getD 0xC000)
      if !((s.core d.cl d.co).fills.any fun f => f.win == n) then .next s
      else if q.chk && raceAt s d.cl va (q.space == 1) st then
        .next (faultWin s d.cl d.co n (raceInfo s d.cl va st false none 1))
      else .next (deliverTo s d n)
    else .next (deliverAt s d).2
  | 2, _ =>
    match (s.core d.cl d.co).wins.find? fun w => w.2.v && w.2.valid.any fun p => p.kind == 2 && p.pid == d.pid with
    | some (n, e) => .next (deliverTo s { d with off := streamOffset e 2 d.pid } n)
    | none => .next (reportFw s (mkRec ⟨d.cl, d.co, 16⟩ 0 0 0 s.tick 0 { cls := 0x13, d0 := 1 }))
  | _, _ =>
    match deliverAt s d with
    | (none, s) => .next s
    | (some k, s) =>
      let i : TrapInfo := { cls := 3, sub := k, addr := BitVec.ofNat 64 (5 * 2 ^ 60 + d.co * 2 ^ 24 + d.off) }
      .next (if 2 ^ 32 ≤ s.cur.n then drainStop s d.cl s.cur.co (s.cur.n - 2 ^ 32) i
        else epiFail s d.cl s.cur.co s.cur.n true i)

/-! ### Drains (R302, R423) -/

/-- DRAIN_SECTOR (R302): the next sector of a drain goes out; the one after it a fill period later. -/
def execDrainSector (s : State) : Out :=
  let w := s.cur
  let c := s.coreOf w
  let e := c.win w.n
  match c.drains.find? fun d => d.win == w.n with
  | none => .next s
  | some d =>
    let h := d.h.getD ⟨.wdrain ⟨false, 0, false⟩ 0, [], [], [w.n], 0, 0, 0⟩
    let (addr, off) := e.sector d.next
    let sp := spaceOf addr
    let bs := spSector s w.cl w.co off
    let psn := c.psnAt off
    let more := fun s : State =>
      if d.next + 1 < d.total then s.sched (s.tick + c.fill) w .drainSector else s
    let s := s.updCore w.cl w.co fun c => { c with drains := c.drains.map fun x =>
      if x.win = w.n then { x with next := x.next + 1 } else x }
    let stop := fun (s : State) (i : TrapInfo) => drainStop s w.cl w.co w.n { i with addr := addr }
    match streamOf s w.cl w.co w.n with
    | some (st, _) =>
      let s := { s with net := { s.net with
        sendq := assocSet s.net.sendq st (((assoc s.net.sendq st).getD []) ++
          [⟨d.next, !psn, (List.range 8).map fun k => BitVec.ofNat 64 (leNat ((bs.drop (8 * k)).take 8))⟩]) } }
      let s := if d.next % 4 = 3 ∨ d.next + 1 = d.total then
        s.sched (s.tick + 5) (obj st) .flitSend else s
      if d.next + 1 < d.total then .next (s.sched s.tick w .drainSector) else .next s
    | none =>
      if 3 < sp then
        match poolAddr w.co addr with
        | some (tc, o) =>
          if o + 64 ≤ (s.core w.cl tc).scSize then
            let s := s.sched (s.tick + 28) ⟨w.cl, w.co, 2 ^ 32 + w.n⟩ (.windowLanding ⟨w.cl, tc, o, 1, w.co, psn, bs⟩)
            let s := s.updCore w.cl w.co fun c => { c with drains := c.drains.map fun x =>
              if x.win = w.n then { x with done := x.done + 1 } else x }
            .next (if d.next + 1 = d.total then s.sched (s.tick + 28) w .drainComplete else more s)
          else .next (stop s { cls := 3, sub := 7 })
        | none => .next (stop s { cls := 3, sub := 7 })
      else
        let s := watchEngine s h ⟨w.cl, w.co, d.slot⟩ false (taskOf 4 w.n e.seq) addr 64 (BitVec.ofNat 64 (leNat (bs.take 8)))
        match translate s w.cl c.ptw .write addr with
        | (.error i, s) => .next (stop s i)
        | (.ok (pa, pte), s) =>
          let (id, s) := s.fresh
          let s := startReqAt s {
            id := id, kind := .drain, w := ⟨w.cl, w.co, d.slot⟩, h := h, space := sp, dest := [(w.n, d.next)]
            lanes := [], results := [], issued := s.tick, bound := s.tick + (if sp = 2 then 4000 else 2400)
            sectors := [pa / 64], psn := psn, stat := 0, rnum := h.rnum, tenant := c.tenant, chk := bit pte 5
            arrived := false, data := bs, aux := e.seq, mir := bit pte 8, stamps := [(64, addr.toNat)] } [addr]
          .next (more s)
/-- DRAIN_COMPLETE (R52, R302): the window becomes free. -/
def execDrainComplete (s : State) : Out :=
  let w := s.cur
  let dh := ((s.coreOf w).drains.find? fun d => d.win == w.n).bind (·.h)
  let s : State := match dh with
    | some h => cmdEvent s ⟨w.cl, w.co, 16⟩ 2 4 w.n (s.win w.cl w.co w.n).seq h
    | none => s
  let s := s.updCore w.cl w.co fun c => { c with drains := c.drains.filter fun x => x.win != w.n }
  if (s.win w.cl w.co w.n).state = .draining then
    let s := setWinState s w.cl w.co w.n fun e => { e with state := .free }
    .next (kickStreams (kickEngines (flushWcmds s w.cl w.co w.n) w.cl w.co) w.cl w.co)
  else .next s

/-! ### Naming a handle (R52, R298, R299, R317) -/

/-- Deliver a faulted window's fault at the instruction that names it: V and the bindings clear (R52). -/
def winFault (x : Ctx) (n : Nat) (r : Rec) : State :=
  raiseRec x (x.s.updCore x.w.cl x.w.co fun c => { c.setWin n { c.win n with
    v := false, state := .absent, fault := none } with
    handles := c.handles.map fun k => if k = .idx n then .unbound else k }) r
/-- Whether a definition of a handle that the front thread issued is not presented before tick t: it
names the handle no earlier than the tick after (R299). -/
def defPending (me : Issuer) (h t : Nat) : Bool :=
  me.defAt == some (h, t) ||
    me.allHeld.any fun k => match k.i with | .wdef _ hd _ _ => hd.toNat == h | _ => false
/-- Go on with the window that a handle names, or stop as R52, R298 and R299 say. A warp sees the binding
as it stands. chk says that a faulted window is delivered here. With no active lane nothing but the checks of R228 is done
(R222, R281). -/
def withHandle (x : Ctx) (h : BitVec 4) (chk : Bool) (k : Nat → Win → Out) : Out :=
  let inRegion := match x.me.openRegion with | some r => r.wdefs.contains h.toNat | none => false
  if inRegion then illegalRegion x 6
  else if x.front && defPending x.me h.toNat x.t then (if x.act.isEmpty then passOver x else retryHere x)
  else match nth x.c.handles h.toNat .unbound with
    | .unbound => illegal x 14
    | .refused r im =>
      if x.act.isEmpty then passOver x
      else trap x { cls := 0x0B, sub := r, d0 := BitVec.ofNat 64 r, d1 := nth im 0 0 }
    | .idx n =>
      let e := x.c.win n
      if !e.v then illegal x 14
      else if x.act.isEmpty then passOver x
      else match chk, e.state, e.fault with
        | true, .faulted, some r => .next (winFault x n r)
        | _, _, _ => k n e

/-! ### The instructions -/

/-- WDEF (R299): the image is read at issue and judged at presentation. -/
def execWdef (m : Mods) (h : BitVec 4) (a b : BitVec 8) (s : State) : Out :=
  let x := s.ctx m
  let ad := x.sc a 0
  match regionCause x [] with
  | some k => illegalRegion x k
  | none =>
    if x.act.isEmpty then .next (finish x s {})
    else if ad.toNat % 64 ≠ 0 then trap x { cls := 3, sub := 5, addr := ad }
    else if spaceOf ad ≠ 4 then trap x { cls := 3, sub := 3, addr := ad }
    else
      let off := bits ad 0 24
      let ok := bits ad 24 36 == 0 && decide (off + 128 ≤ x.c.scSize) &&
        [0, 1].all fun k => Sparse.get false x.c.scInit (off / 64 + k)
      let im := s.dwords (keySp x.w.cl x.w.co off) 16
      let s := emit s x.w (x.hold (.wdef m h a b) [] ([x.sc b 0, boolD ok] ++ im) [])
      .next (finish x (s.updIss x.w fun me => me.mapOpen fun r => { r with wdefs := r.wdefs ++ [h.toNat] }) {})
/-- The running instruction as what touches a window. -/
def Ctx.toucher (x : Ctx) (i : Instr) (n : Nat) : Option (Iss × Held) := some (x.w, x.hold i [] [] [n])
/-- Whether what the instruction has done so far has not stopped its own issuer (R406). -/
def Ctx.stands (x : Ctx) (s : State) : Bool :=
  (s.iss x.w).wait == (x.s.iss x.w).wait && (s.iss x.w).rnum == (x.s.iss x.w).rnum
/-- Go on with the instruction, unless its own issuer has been stopped: then its turn is over. -/
def Ctx.ifStands (x : Ctx) (s : State) (k : State → State) : State := if x.stands s then k s else turnOver x s
/-- WTOUCH (R301). -/
def execWtouch (m : Mods) (h : BitVec 4) (s : State) : Out :=
  let x := s.ctx m
  withHandle x h true fun n e =>
    if touchBlocks e then blockingOp x (.wtouch m h) [BitVec.ofNat 64 n]
    else match regionCause x [] with
      | some k => illegalRegion x k
      | none => .next (x.ifStands (touch s x.w n (x.toucher (.wtouch m h) n)) fun s => finish x s {})
/-- WSTATE (R301): dword 0 bits 6:0, visible 4 ticks later. -/
def execWstate (m : Mods) (d : BitVec 9) (h : BitVec 4) (s : State) : Out :=
  let x := s.ctx m
  withHandle x h true fun _ e =>
    let tgt := if x.front then Tgt.s d.toNat else Tgt.v d.toNat
    alu x 4 [tgt] [(tgt, x.act.map fun l => (l, BitVec.ofNat 64 e.status))] 0
/-- WDRAIN and WREL (R302): held. -/
def execWdrain (m : Mods) (h : BitVec 4) (s : State) : Out :=
  let x := s.ctx m
  withHandle x h false fun n _ => holdOp x (x.hold (.wdrain m h) [] [] [n])
def execWrel (m : Mods) (h : BitVec 4) (s : State) : Out :=
  let x := s.ctx m
  withHandle x h false fun n _ => holdOp x (x.hold (.wrel m h) [] [] [n])
/-- The predicate that a wait writes: thread predicate or uniform predicate (R303, R310). -/
def predTgt (front : Bool) (p : BitVec 3) : Tgt := if front then .g p.toNat else .p p.toNat
/-- HWAIT (R303): it waits unless the window is full, draining, or free without a producer. -/
def execHwait (m : Mods) (p : BitVec 3) (h : BitVec 4) (s : State) : Out :=
  let x := s.ctx m
  withHandle x h true fun n e =>
    let go := e.state == .full || e.state == .draining || (e.state == .free && e.valid.isEmpty)
    if go then
      let tgt := predTgt x.front p
      alu x 4 [tgt] [(tgt, x.act.map fun l => (l, boolD e.psn))] 0
    else blockingOp x (.hwait m p h) [BitVec.ofNat 64 n]

end Sys2Proof.Machine
end

