-- ==== Sys2Proof/Machine/Memory.lean ====
section
/-!
DEFINITION. Loads, stores, atomics and reductions of threads, from issue to presentation and reply (R282 to
R295, R121, R148, R179, R180, R188).
-/
namespace Sys2Proof.Machine

/-! ### Addresses and registers (R282, R283, R285, R292) -/

/-- Address of a lane (R282). -/
def laneAddr (x : Ctx) (o : MemF) (off : Int) (l : Nat) : DWord :=
  (if o.bss then x.c.sreg (x.tl l) o.base.toNat else x.me.vpair (x.tl l) o.base.toNat l) + dw off
/-- The checks of R283: the fault, or the common space code. -/
def laneChecks (n : Nat) (as : List (Nat × DWord)) : Except TrapInfo Nat :=
  match as with
  | [] => .ok 0
  | (_, a0) :: _ =>
    match as.find? fun a => a.2.toNat % n != 0 with
    | some a => .error { cls := 3, sub := 5, lane := some a.1, addr := a.2 }
    | none =>
      match as.find? fun a => spaceOf a.2 != spaceOf a0 with
      | some a => .error { cls := 3, sub := 6, lane := some a.1, addr := a.2 }
      | none => .ok (spaceOf a0)
/-- Translate every lane in order (R20, R22): the first that fails gives the fault. -/
def transLanes (s : State) (cl : Nat) (ptbase : DWord) (a : Acc) :
    List (Nat × DWord) → Except TrapInfo (List (Nat × DWord × Nat × DWord)) × State
  | [] => (.ok [], s)
  | (l, ad) :: t =>
    match translate s cl ptbase a ad with
    | (.error i, s) => (.error { i with lane := some l }, s)
    | (.ok (pa, pte), s) =>
      match transLanes s cl ptbase a t with
      | (.error i, s) => (.error i, s)
      | (.ok r, s) => (.ok ((l, ad, pa, pte) :: r), s)
/-- A register of the data operand: the k-th of a run. -/
def dataReg (x : Ctx) (d : BitVec 9) (k l : Nat) : DWord :=
  if x.front then x.c.sreg x.t (d.toNat + k) else (x.me.v (x.tl l) (d.toNat + k) l).setWidth 64
/-- The value that an access of size 2^sz bytes takes from its data register (R285). -/
def dataVal (x : Ctx) (d : BitVec 9) (b64 : Bool) (k l : Nat) : DWord :=
  if !b64 then dataReg x d k l
  else if x.front then dataReg x d k l
  else x.me.vpair (x.tl l) (d.toNat + 2 * k) l
/-- Sign or zero extension of a loaded value (R284, R285). -/
def extend (n : Nat) (sx : Bool) (v : DWord) : DWord := if sx then dw (sext (8 * n) v.toNat) else v
/-- Register results of loaded values (R285). -/
def loadWrites (front : Bool) (d n : Nat) (sx : Bool) (vs : List (Nat × DWord)) : List Wr :=
  let vs := vs.map fun v => (v.1, extend n sx v.2)
  if front then [(.s d, vs)]
  else if n = 8 then
    [(.v d, vs.map fun v => (v.1, BitVec.ofNat 64 (v.2.toNat % 2 ^ 32))), (.v (d + 1), vs.map fun v => (v.1, BitVec.ofNat 64 (v.2.toNat / 2 ^ 32)))]
  else [(.v d, vs.map fun v => (v.1, BitVec.ofNat 64 (v.2.toNat % 2 ^ 32)))]
/-- The destinations of a load or of an atomic's result. -/
def loadTgts (front : Bool) (d n : Nat) : List Tgt :=
  if front then [.s d] else if n = 8 then [.v d, .v (d + 1)] else [.v d]

/-! ### Held stores: forwarding, the store buffer and the load filter (R121, R179, R180) -/

/-- Key of a lane's first byte: a place in memory, whatever the space. -/
def LaneAcc.key (cl : Nat) (a : LaneAcc) : Nat :=
  if 3 < a.space then keySp cl (a.pa / 2 ^ 24) (a.pa % 2 ^ 24) else memKey a.space a.pa
/-- Stores and reductions, which take entries of the store buffer. -/
def isWrite (i : Instr) : Bool := match i with | .st .. | .stMc .. | .red .. => true | _ => false
/-- The places that a lane of a held effect writes: those of its members, for a multicast store (R288). -/
def LaneAcc.keys (cl : Nat) (i : Instr) (a : LaneAcc) : List Nat :=
  match i with
  | .stMc o _ => ((List.range 16).filter fun k => o.off.toNat / 2 ^ k % 2 == 1).map fun k =>
      memKey 1 ((groupOf chipNo * 16 + k) * 2 ^ 42 + a.pa % 2 ^ 42)
  | _ => [a.key cl]
/-- Sectors of the issuer's held stores and reductions, by region: its store buffer's entries. -/
def bufKeys (cl : Nat) (me : Issuer) : List (Nat × Nat) :=
  ((me.allHeld.filter fun h => isWrite h.i).map fun h =>
    h.lanes.map fun a => (h.rnum, a.key cl / 64)).flatten.eraseDups
/-- Bytes that the issuer's held stores give a lane (R121): a mask of bytes and their values. -/
def forwarded (cl : Nat) (me : Issuer) (key n : Nat) : Nat × Nat :=
  let sts := me.allHeld.filter fun h => match h.i with | .st .. | .stMc .. => true | _ => false
  (List.range n).foldl (fun (r : Nat × Nat) k =>
    let b := sts.foldl (fun (b : Option Nat) h =>
      let sz := accSize h.i
      h.lanes.foldl (fun b a =>
        match (a.keys cl h.i).find? fun p => decide (p ≤ key + k) && decide (key + k < p + sz) with
        | some p => some (bits (nth a.ops 0 0) (8 * (key + k - p)) 8)
        | none => b) b) none
    match b with
    | some v => (r.1 + 2 ^ k, r.2 + v * 256 ^ k)
    | none => r) (0, 0)
/-- A value with the forwarded bytes put over it. -/
def overlay (n : Nat) (f : Nat × Nat) (v : DWord) : DWord :=
  BitVec.ofNat 64 ((List.range n).foldl (fun a k =>
    a + (if f.1 / 2 ^ k % 2 = 1 then f.2 / 256 ^ k % 256 else v.toNat / 256 ^ k % 256) * 256 ^ k) 0)
/-- Enter loaded sectors in the open region's filter (R180). -/
def filterAdd (s : State) (w : Iss) (keys : List Nat) : State :=
  s.updIss w fun me => me.mapOpen fun r =>
    let l := (r.filter ++ keys).eraseDups
    { r with filter := l.take 256, filterOv := r.filterOv || decide (256 < l.length) }
/-- Causes of the illegal-region trap that a held write meets (R179, R180), with the others of R181; buf: it takes entries
of the store buffer, as an ATOM does not; keys: the sectors of its lanes, wkeys: those that it writes. -/
def storeCause (x : Ctx) (tgts : List Tgt) (buf : Bool) (keys wkeys : List Nat) : Option Nat :=
  match x.me.openRegion with
  | none => none
  | some r =>
    let mine := (bufKeys x.w.cl x.me).filter fun k => k.1 == r.num
    let new := keys.eraseDups.filter fun k => !(mine.contains (r.num, k))
    match regionCause x tgts with
    | some 1 => some 1
    | some 2 => some 2
    | rc =>
      if buf && !x.c.lean && decide (64 < mine.length + new.length) then some 3
      else if wkeys.any r.filter.contains then some 4
      else if r.filterOv && !wkeys.isEmpty then some 5
      else rc
/-- Whether a held write must park for a store-buffer entry (R179). -/
def bufFull (x : Ctx) (keys : List Nat) : Bool :=
  match x.me.openRegion with
  | none => false
  | some r =>
    let all := bufKeys x.w.cl x.me
    let new := keys.eraseDups.filter fun k => !(all.contains (r.num, k))
    !x.c.lean && !new.isEmpty && decide (64 < all.length + new.length)

/-- The region's window reaches to a result's tick (R182). -/
def bumpVis (s : State) (w : Iss) (vis : Nat) : State :=
  s.updIss w fun me => me.mapOpen fun r => { r with lastVis := max r.lastVis vis }

/-! ### Banks (R40, R41) -/

/-- The words of an access's lanes: pass, core and word of the cluster's scratchpads. -/
def bankWords (co : Nat) (as : List (Nat × DWord)) : List (Nat × Nat × Nat) :=
  as.filterMap fun a => (poolAddr co a.2).map fun p => (a.1 / 32, p.1, spWord p.1 p.2)
/-- The bank passes beyond the first of an access's own passes (R40, R41). -/
def bankOwn (co passes : Nat) (as : List (Nat × DWord)) : Nat :=
  (List.range passes).foldl (fun e k =>
    e + (bankPasses (((bankWords co as).filter fun x => x.1 == k).map (·.2.2)) - 1)) 0
/-- The issuer's next instruction comes n ticks later (R41). -/
def delayTurn (s : State) (w : Iss) (n : Nat) : State :=
  if w.n = 16 then s.updIss w fun me => { me with nextAt := me.nextAt + n }
  else s.updCore w.cl w.co fun c => { c with rotAt := c.rotAt + n }
/-- The additions of an earlier access of the cluster grow by one: its result comes a tick later, and so does its
issuer's next instruction (R41). -/
def bankLater (s : State) (cl : Nat) (a : BankUse) : State :=
  let w : Iss := ⟨cl, a.src / 32, a.src % 32⟩
  let s := s.updIss w fun me =>
    let me := me.mapOpen fun r => { r with lastVis := max r.lastVis (a.vis + 1) }
    { me with pend := me.pend.map fun p => if p.vis = a.vis then { p with vis := p.vis + 1 } else p }
  let s := if a.turn then delayTurn s w 1 else s
  { s with cores := s.cores.map fun c =>
      if c.cl = cl then { c with banks := c.banks.map fun b =>
        if b.src = a.src && b.vis = a.vis then { b with vis := b.vis + 1 } else b } else c }
/-- E of an access: over its passes, the bank passes beyond the first, and for a cluster access one more for each
access that comes before it at a bank; the cluster accesses of the tick that come after it wait in turn (R40, R41). -/
def bankPass (s : State) (w : Iss) (t passes : Nat) (turn : Bool) (as : List (Nat × DWord)) : Nat × State :=
  let cross := as.any fun a => spaceOf a.2 == 5
  let words := bankWords w.co as
  let tcs := (words.map (·.2.1)).eraseDups
  let uses := (words.map fun x => (⟨t + x.1, w.co * 32 + w.n, cross, wordBank x.2.2, 0, turn⟩ : BankUse)).eraseDups
  let others := (tcs.map fun tc => (s.core w.cl tc).banks).flatten
  let perPass := fun (f : List BankUse → List BankUse) => (List.range passes).map fun k =>
    (f (uses.filter fun u => u.tick == t + k)).foldl (fun l b => if l.any fun a => a.src == b.src then l else l ++ [b]) []
  let met := perPass fun us => others.filter fun b => us.any fun u => b.before u
  let e := bankOwn w.co passes as + (met.map (·.length)).foldl (· + ·) 0
  let vis := t + (passes - 1) + (if cross then 28 else 6) + e
  let later := (perPass fun us => others.filter fun b => us.any fun u => u.before b).flatten
  let s := later.foldl (fun s a => bankLater s w.cl { a with
    vis := a.vis + (later.takeWhile fun b => b != a).countP fun b => b.src == a.src && b.vis == a.vis }) s
  (e, tcs.foldl (fun s tc => s.updCore w.cl tc fun c => { c with
    banks := (c.banks.filter fun b => t ≤ b.tick) ++
      (uses.filter fun u => u.bank / 32 == tc).map fun u => { u with vis := vis } }) s)
/-- The passes of an access that its presentation makes: those of its own have delayed the next instruction at its issue,
and in lean mode, where the two ticks are one, the accesses that it meets delay it too (R41, R120; DEDUCED, log 36). -/
def bankPresent (s : State) (w : Iss) (as : List (Nat × DWord)) : Nat × State :=
  let c := s.coreOf w
  let (e, s) := bankPass s w s.tick (c.passes w.n) c.lean as
  (e, if c.lean then delayTurn s w (e - bankOwn w.co (c.passes w.n) as) else s)

/-! ### Loads (R286, R289, R290) -/

/-- What a scratchpad read does for its lanes: values, switch-offs, windows to touch, a poisoned sector. -/
structure PoolRead where
  vals : List (Nat × DWord) := []
  offs : List (Nat × Nat) := []
  touched : List (Nat × Nat) := []
  psn : Option (Nat × Nat) := none
  keys : List Nat := []
/-- Read lanes of the scratchpads at the issue tick (R44, R119, R121). A lane whose bytes the issuer's own held stores cover
whole takes their value and no cause 2, though the sector is uninitialised: R44 and R121 leave open which of them
prevails (DESIGN CHOICE, log 36). -/
def poolRead (s : State) (cl co : Nat) (me : Issuer) (t n : Nat) (ldh : Bool) (as : List (Nat × DWord)) : PoolRead :=
  as.foldl (fun r a =>
    let p := poolAddr co a.2
    let (tc, off) := p.getD (co, 0)
    let c := s.core cl tc
    let tr := if p.isSome then ((c.winsAt off).map fun w => (tc, w.1)) else []
    let r := { r with touched := (r.touched ++ tr).eraseDups }
    let key := keySp cl tc off
    match spCheck c t p n false ldh with
    | none =>
      if c.psnAt off then { r with psn := r.psn.or (some (a.1, off)), keys := r.keys ++ [key / 64] }
      else
        let v := BitVec.ofNat 64 (leNat (spRead s cl tc off n))
        { r with
          vals := r.vals ++ [(a.1, overlay n (forwarded cl me key n) v)], keys := r.keys ++ [key / 64] }
    | some 2 =>
      let f := forwarded cl me key n
      { r with
        vals := r.vals ++ [(a.1, overlay n f 0)]
        offs := if f.1 = 2 ^ n - 1 then r.offs else r.offs ++ [(a.1, 2)], keys := r.keys ++ [key / 64] }
    | some k => { r with offs := r.offs ++ [(a.1, k)] }) {}
/-- Touch windows of the cluster's cores, in order, until a touch stops the issuer (R52, R406). -/
def touchAll (x : Ctx) (i : Instr) (s : State) (ks : List (Nat × Nat)) : State :=
  ks.foldl (fun s k => if x.stands s then touch s ⟨x.w.cl, k.1, x.w.n⟩ k.2 (x.toucher i k.2) else s) s
/-- A thread's scratchpad accesses at a tick: what happens before them also comes before its cluster's later ones, and all
that the cluster has presented comes before them (R119, R123). -/
def poolOrder (s : State) (w : Iss) : State := domJoin (domPublish s w) w s.tick
/-- A scratchpad load that issues now (R286, R289): touch, results, FMASK with the lanes that are out already, poison. -/
def loadPool (x : Ctx) (i : Instr) (d n : Nat) (sx ldh : Bool) (space home : Nat) (out : List (Nat × Nat))
    (as : List (Nat × DWord)) : Out :=
  let s := x.s
  let r := poolRead s x.w.cl x.w.co x.me x.t n ldh as
  match r.psn with
  | some (l, off) => memTrap x { cls := 8, sub := 0, lane := some l, d0 := BitVec.ofNat 64 off }
  | none =>
    .next (x.ifStands (touchAll x i s r.touched) fun s =>
      let (e, s) := bankPass s x.w x.t (x.c.passes x.w.n) true as
      let s := poolOrder (filterAdd (switchOff s x.w (laneOrder (out ++ r.offs)) x.pc) x.w r.keys) x.w
      let s := addPendFrom home s x.w (x.vis (if space = 5 then 28 else 6) e) (loadWrites x.front d n sx r.vals)
      finish x s { e := e })

/-- Lanes of a request, with the bytes that the issuer's held stores forward (R121). -/
def reqLanes (cl : Nat) (me : Issuer) (n space : Nat) (ls : List (Nat × DWord × Nat × DWord)) : List LaneAcc :=
  ls.map fun l =>
    let f := forwarded cl me (memKey space l.2.2.1) n
    ⟨l.1, l.2.1, space, l.2.2.1, [BitVec.ofNat 64 f.1, BitVec.ofNat 64 f.2]⟩
/-- A load's request (R286). -/
def loadReq (s : State) (w : Iss) (id : Nat) (h : Held) (space bound : Nat) (chk acq mir : Bool) : Req := {
  id := id, kind := .load, w := w, h := h, space := space, dest := [], lanes := h.lanes
  results := [], issued := s.tick, bound := bound, sectors := (h.lanes.map fun l => l.pa / 64).eraseDups
  psn := false, stat := 0, rnum := h.rnum, tenant := (s.coreOf w).tenant, chk := chk, arrived := false, data := [], aux := 0
  acq := acq, sync := !chk, mir := mir }
/-- Four dwords a lane, for a blocking load's captured lanes. -/
def packLanes (ls : List (Nat × DWord × Nat × DWord)) : List DWord :=
  (ls.map fun l => [BitVec.ofNat 64 l.1, l.2.1, BitVec.ofNat 64 l.2.2.1, l.2.2.2]).flatten
def unpackLanes : List DWord → List (Nat × DWord × Nat × DWord)
  | l :: va :: pa :: pte :: t => (l.toNat, va, pa.toNat, pte) :: unpackLanes t
  | _ => []
/-- Whether the memory instruction that follows in program order is a FENCE with an acquire half: a plain load before it
is an acquire at the fence's scope (R118). Instructions of no memory and no transfer may stand between. -/
def fenceAhead (s : State) (cl : Nat) : Nat → Nat → Bool
  | 0, _ => false
  | f + 1, pc =>
    let nxt := s.nextPc cl pc
    let w := (s.instWord cl nxt).toNat
    let op := w / 2 ^ 56 % 2 ^ 7
    if op = 0x63 then w / 2 ^ 23 % 2 == 1 && decide (2 ≤ w / 2 ^ 25 % 2 ^ 3)
    else if (0x10 ≤ op && op ≤ 0x12) || 0x50 ≤ op then false
    else fenceAhead s cl f nxt
/-- Whether an issuer's next load must wait for an acquire of its own (R129): an atomic that is not performed, a FENCE with
both halves of an earlier region that is not presented, or a load whose bound lies behind the new one's. It parks meanwhile
(DEDUCED, log 39). -/
def acquirePending (s : State) (w : Iss) (bound : Nat) : Bool :=
  acquiresHeld (s.iss w) (s.iss w).regionNo s.tick || s.chip.reqs.any fun q => q.w == w && q.acq && !q.sectors.isEmpty &&
    (q.kind == .atom || decide (bound < q.bound))

/-- LD (R286). -/
def execLd (o : MemF) (sz : BitVec 2) (sx : Bool) (s : State) : Out :=
  let x := s.ctx o.m
  let n := 2 ^ sz.toNat
  let d := o.data.toNat
  let as := x.act.map fun l => (l, laneAddr x o o.off.toInt l)
  match regionCause x (loadTgts x.front d n), laneChecks n as with
  | some 1, _ => illegalRegion x 1
  | some 2, _ => illegalRegion x 2
  | rc, .error i => match rc with | some k => illegalRegion x k | none => trap x i
  | rc, .ok sp =>
    if x.act.isEmpty then (match rc with | some k => illegalRegion x k | none => .next (finish x s {}))
    else if 5 < sp then
      match rc with
      | some k => illegalRegion x k
      | none => trap x { cls := 3, sub := 1, lane := x.act.head?, addr := (as.map (·.2)).headD 0 }
    else if 3 < sp then
      let r := poolRead s x.w.cl x.w.co x.me x.t n false as
      if r.touched.any fun k => touchBlocks ((s.core x.w.cl k.1).win k.2) then
        .next (blockAt x (.ld o sz sx) (as.map fun a => [BitVec.ofNat 64 a.1, a.2, 0, 0]).flatten)
      else match rc with
        | some k => illegalRegion x k
        | none => loadPool x (.ld o sz sx) d n sx false sp noHome [] as
    else
      let (r, s') := transLanes s x.w.cl x.c.ptw .load as
      match r with
      | .error i => (match rc with | some k => illegalRegion x k | none => memTrap { x with s := s' } i)
      | .ok ls =>
        if sp = 1 ∨ sp = 3 then .next (blockAt { x with s := s' } (.ld o sz sx) (packLanes ls))
        else match rc with
          | some k => illegalRegion x k
          | none =>
            let vis := x.vis (if sp = 0 then 2400 else 4000) 0
            if acquirePending s' x.w vis then .next (parkHere x s' .retry)
            else
              let s' := watchThread s' (x.hold (.ld o sz sx) [] [] []) x.w 0 n
                (ls.map fun l => (l.2.1, s'.dword (memKey sp (l.2.2.1 / 8 * 8))))
              let (id, s') := s'.fresh
              let acq := o.order == 1 || fenceAhead s' x.w.cl 16 x.pc
              let h := x.hold (.ld o sz sx) (reqLanes x.w.cl x.me n sp ls) [] []
              let q := loadReq s' x.w id h sp vis (ls.any (fun l => bit l.2.2.2 5) && !acq) acq (ls.any fun l => bit l.2.2.2 8)
              let s' := startReq (bumpVis (filterAdd s' x.w (ls.map fun l => memKey sp l.2.2.1 / 64)) x.w vis) q
              .next (finish x s' {})
/-- LDH (R289, R290). -/
def execLdh (o : MemF) (sz : BitVec 2) (sx : Bool) (s : State) : Out :=
  let x := s.ctx o.m
  let n := 2 ^ sz.toNat
  let d := o.data.toNat
  let h := BitVec.ofNat 4 (o.off.toNat / 2 ^ 16)
  withHandle x h true fun k e =>
    let as := x.act.map fun l =>
      let b := if o.bss then (x.c.sreg (x.tl l) o.base.toNat).setWidth 32 else x.me.v (x.tl l) o.base.toNat l
      (l, BitVec.ofNat 64 (e.sbase + b.toNat + o.off.toNat % 2 ^ 16))
    match regionCause x (loadTgts x.front d n) with
    | some k => illegalRegion x k
    | none =>
      match as.find? fun a => a.2.toNat % n != 0 with
        | some a => trap x { cls := 3, sub := 5, lane := some a.1, addr := a.2 + 4 <<< 60 }
        | none =>
          match e.state with
          | .full | .draining =>
            let inWin := as.filter fun a => e.holds a.2.toNat
            let out := (as.filter fun a => !e.holds a.2.toNat).map fun a => (a.1, 1)
            loadPool x (.ldh o sz sx) d n sx true 4 e.homeSpace out (inWin.map fun a => (a.1, a.2 + (4 : DWord) <<< 60))
          | .free =>
            if e.valid.isEmpty then
              .next (finish x (switchOff s x.w (as.map fun a => (a.1, 3)) x.pc) {})
            else if touchBlocks e then .next (blockAt x (.ldh o sz sx) [BitVec.ofNat 64 k])
            else .next (x.ifStands (touch s x.w k (x.toucher (.ldh o sz sx) k)) fun s => parkHere x s .retry)
          | _ =>
            if touchBlocks e then .next (blockAt x (.ldh o sz sx) [BitVec.ofNat 64 k])
            else .next (x.ifStands (touch s x.w k (x.toucher (.ldh o sz sx) k)) fun s => parkHere x s .retry)

/-! ### Stores, reductions and atomics: issue (R287, R288, R293 to R295) -/

/-- Order and scope fields of an access. -/
def memOrder : Instr → BitVec 2 × Nat
  | .st o _ | .stMc o _ | .red o _ _ | .atom o _ _ => (o.order, o.scope.toNat)
  | _ => (0, 0)
/-- A plain store: no release, and no FENCE with a release half before it (R118, R144). -/
def plainStore (x : Ctx) (o : MemF) : Bool := o.order == 0 && !x.me.fenced
/-- The stamp that a plain store of a checked page reads at its issue (R145): its region does not commit before the
comparison. -/
def stampReq (s : State) (x : Ctx) (i : Instr) (lanes : List LaneAcc) : State :=
  let mine := lanes.filter fun l => bit (l.ops.getLastD 0) 5
  if mine.isEmpty then s
  else
    let (id, s) := s.fresh
    let h := x.hold i mine [] []
    startReq s { loadReq s x.w id h 0 (s.tick + 2400) true false false with kind := .stamp }
/-- Issue of a held access to memory: checks of R283 and R20, of the region, and the held effect. Its values say whether it
is plain. A release at .sys is a blocking point first (R142). -/
def issueHeld (x : Ctx) (i : Instr) (n : Nat) (a : Acc) (tgts : List Tgt) (plain atomic : Bool)
    (as : List (Nat × DWord)) (ops : Nat → List DWord) : Out :=
  let s := x.s
  let rcOf := storeCause x tgts (!atomic)
  match laneChecks n as with
  | .error t => (match rcOf [] [] with | some k => illegalRegion x k | none => trap x t)
  | .ok sp =>
    if x.act.isEmpty then (match rcOf [] [] with | some k => illegalRegion x k | none => .next (finish x s {}))
    else if 5 < sp then
      (match rcOf [] [] with
       | some k => illegalRegion x k
       | none => trap x { cls := 3, sub := 1, lane := x.act.head?, addr := (as.map (·.2)).headD 0 })
    else
      let (r, s') := if 3 < sp then
          ((.ok (as.map fun l => (l.1, l.2, (match poolAddr x.w.co l.2 with
            | some p => p.1 * 2 ^ 24 + p.2 | none => 2 ^ 32), (0 : DWord))) :
              Except TrapInfo (List (Nat × DWord × Nat × DWord))), s)
        else transLanes s x.w.cl x.c.ptw a as
      match r with
      | .error t => (match rcOf [] [] with | some k => illegalRegion x k | none => memTrap { x with s := s' } t)
      | .ok ls =>
        let lanes : List LaneAcc := ls.map fun l => ⟨l.1, l.2.1, sp, l.2.2.1, ops l.1 ++ [l.2.2.2]⟩
        let keys := lanes.map fun l => l.key x.w.cl / 64
        let od := memOrder i
        match rcOf keys ((lanes.map fun l => l.keys x.w.cl i).flatten.map (· / 64)) with
        | some k => illegalRegion { x with s := s' } k
        | none =>
          if od.1.getLsbD 1 && od.2 == 7 && !x.me.flushed then .next (blockAt { x with s := s' } i [])
          else if !atomic && bufFull x keys then .next (parkHere x s' .retry)
          else
            let s' := if plain && sp == 0 then stampReq s' x i lanes else s'
            let s' := emit s' x.w (x.hold i lanes [boolD plain] [])
            let s' := s'.updIss x.w fun me => { me with fenced := me.fenced && a != .store, flushed := false }
            let s' := if atomic then s'.updIss x.w fun me => me.mapOpen fun r => { r with atomic := true } else s'
            .next (finish x s' { e := if 3 < sp then bankOwn x.w.co (x.c.passes x.w.n) as else 0 })
/-- ST (R287). -/
def execSt (o : MemF) (sz : BitVec 2) (s : State) : Out :=
  let x := s.ctx o.m
  issueHeld x (.st o sz) (2 ^ sz.toNat) .store [] (plainStore x o) false
    (x.act.map fun l => (l, laneAddr x o o.off.toInt l)) fun l => [dataVal x o.data (sz == 3) 0 l]
/-- ST.mc (R288): the member mask is OFF[15:0]; the leaf names a chip of the group. An address outside space 1 is a space
mismatch (DEDUCED, log 14). -/
def execStMc (o : MemF) (sz : BitVec 2) (s : State) : Out :=
  let x := s.ctx o.m
  let as := x.act.map fun l => (l, laneAddr x o 0 l)
  let go := issueHeld x (.stMc o sz) (2 ^ sz.toNat) .store [] (plainStore x o) false as fun l => [dataVal x o.data (sz == 3) 0 l]
  let bad := fun (s : State) (i : TrapInfo) =>
    match storeCause x [] true [] [] with | some k => illegalRegion x k | none => trap { x with s := s } i
  match laneChecks (2 ^ sz.toNat) as with
  | .error _ => go
  | .ok sp =>
    if x.act.isEmpty then go
    else if sp ≠ 1 then bad s { cls := 3, sub := 3, lane := x.act.head?, addr := (as.map (·.2)).headD 0 }
    else match transLanes s x.w.cl x.c.ptw .store as with
      | (.error _, _) => go
      | (.ok ls, s') =>
        match ls.find? fun l => groupOf (l.2.2.1 / 2 ^ 42) != groupOf chipNo with
        | some l => bad s' { cls := 3, sub := 4, lane := some l.1, addr := l.2.1 }
        | none => go
/-- Operands of an atomic (R292). -/
def atomOps (x : Ctx) (o : MemF) (b64 : Bool) (fn : AtomFn) (l : Nat) : List DWord :=
  [dataVal x o.data b64 0 l] ++ (if fn = .cas then [dataVal x o.data b64 1 l] else [])
/-- RED (R295). -/
def execRed (o : MemF) (b64 : Bool) (fn : AtomFn) (s : State) : Out :=
  let x := s.ctx o.m
  issueHeld x (.red o b64 fn) (if b64 then 8 else 4) .red [] false false
    (x.act.map fun l => (l, laneAddr x o o.off.toInt l)) (atomOps x o b64 fn)
/-- ATOM (R293, R294): it ends its region; the switch marker on it is cause 2. -/
def execAtom (o : MemF) (b64 : Bool) (fn : AtomFn) (s : State) : Out :=
  let x := s.ctx o.m
  let n := if b64 then 8 else 4
  let tgts := loadTgts x.front o.data.toNat n
  if o.m.park ∧ regionCause x tgts ≠ some 1 then illegalRegion x 2
  else issueHeld x (.atom o b64 fn) n .atom tgts false true
    (x.act.map fun l => (l, laneAddr x o o.off.toInt l)) (atomOps x o b64 fn)

/-! ### Presentation (R120, R287, R293, R295) -/

/-- The target core and offset of a presented lane of the scratchpads. -/
def LaneAcc.place (l : LaneAcc) : Option (Nat × Nat) :=
  if l.pa < 2 ^ 32 then some (l.pa / 2 ^ 24, l.pa % 2 ^ 24) else none
/-- The cause for which a presented lane is switched off (R44): an ATOM or RED reads and writes. -/
def writeCause (c : Core) (t n : Nat) (rmw : Bool) (p : Option (Nat × Nat)) : Option Nat :=
  match spCheck c t p n true false with
  | some 1 => some 1
  | some 5 => some 5
  | k => if rmw then
      (match spCheck c t p n false false, k with
       | some 3, _ => some 3 | _, some k => some k | some k, none => some k | none, none => none) else k
/-- A scratchpad store, reduction or atomic at its presentation: lanes in order, each under R44. The old
values of the lanes performed, the switch-offs, and the poisoned sector that a lane would read (R45). -/
def poolWrite (s : State) (w : Iss) (h : Held) :
    State × List (Nat × DWord) × List (Nat × Nat) × Option (Nat × Nat) :=
  let n := accSize h.i
  let rmw := match h.i with | .st .. => false | _ => true
  let cause := fun (s : State) (l : LaneAcc) => writeCause (s.core w.cl ((l.place.map (·.1)).getD w.co)) s.tick n rmw l.place
  let psn := if rmw then (h.lanes.find? fun l => (cause s l).isNone && (match l.place with
      | some (tc, off) => (s.core w.cl tc).psnAt off | none => false)).map fun l => (l.lane, l.pa % 2 ^ 24) else none
  let r := h.lanes.foldl (fun (r : State × List (Nat × DWord) × List (Nat × Nat) × List (Nat × Nat)) l =>
    match cause r.1 l, l.place with
    | some k, _ => (r.1, r.2.1, r.2.2.1 ++ [(l.lane, k)], r.2.2.2)
    | none, none => r
    | none, some (tc, off) =>
      let old := BitVec.ofNat 64 (leNat (spRead r.1 w.cl tc off n))
      let new := match h.i with
        | .st _ _ => nth l.ops 0 0
        | .atom _ b64 fn | .red _ b64 fn => newValue fn b64 old (nth l.ops 0 0) (nth l.ops 1 0)
        | _ => old
      (spWrite r.1 w.cl tc off (toBytes n new.toNat), r.2.1 ++ [(l.lane, old)], r.2.2.1, r.2.2.2 ++ [(tc, off)])) (s, [], [], [])
  let tcs := (r.2.2.2.map (·.1)).eraseDups
  (tcs.foldl (fun s tc => spCover s w.cl tc n ((r.2.2.2.filter fun p => p.1 == tc).map (·.2))) r.1, r.2.1, r.2.2.1, psn)
/-- A scratchpad effect that is presented now: its banks, its windows (R52), its lanes, FMASK, and the fault of a poisoned
sector, which rolls its block back (R45). The old values, and E. -/
def presentPool (s : State) (w : Iss) (h : Held) : Option (Nat × List (Nat × DWord)) × State :=
  let rmw := match h.i with | .st .. => false | _ => true
  let (s', vs, offs, psn) := poolWrite s w h
  match psn with
  | some (l, off) =>
    let i : TrapInfo := { cls := 8, lane := some l, d0 := BitVec.ofNat 64 off }
    (none, takeFault s w (mkRec w h.pc h.itick h.rnum s.tick h.pc i) [] (s.iss w).pcs)
  | none =>
    let (e, s') := bankPresent s' w (h.lanes.map fun l => (l.lane, l.va))
    let s' := poolOrder (switchOff s' w (laneOrder offs) h.pc) w
    let ks := if rmw then (h.lanes.filterMap fun l => l.place.map fun p =>
        ((s.core w.cl p.1).winsAt p.2).map fun e => (p.1, e.1)).flatten.eraseDups else []
    (some (e, vs), ks.foldl (fun s k => touch s ⟨w.cl, k.1, w.n⟩ k.2 (some (w, h))) s')
/-- The request of a presented access to memory. -/
def heldReq (s : State) (w : Iss) (h : Held) (id : Nat) (kind : ReqKind) (space bound : Nat)
    (lanes : List LaneAcc) : Req := {
  id := id, kind := kind, w := w, h := h, space := space, dest := [], lanes := lanes, results := []
  issued := s.tick, bound := bound, sectors := (lanes.map fun l => l.pa / 64).eraseDups
  psn := false, stat := 0, rnum := h.rnum, tenant := (s.coreOf w).tenant
  chk := h.lanes.any (fun l => bit (l.ops.getLastD 0) 5)
  arrived := false, data := [], aux := 0, mir := h.lanes.any (fun l => bit (l.ops.getLastD 0) 8)
  acq := kind == .atom && (memOrder h.i).1.getLsbD 0, sync := nth h.vals 0 0 != 1 }
/-- Bound of a write's acknowledgement or an atomic's reply (R62, R76). -/
def homeBound (s : State) (space : Nat) : Nat := s.tick + (if space = 0 then 2400 else 4000)
/-- One lane of an ST.mc at presentation (R86, R288): the switch writes it at the members of the mask and answers with one
word. Which members fail is a free value (log 4); they are not written. -/
def presentMc (s : State) (w : Iss) (h : Held) (mask : Nat) (l : LaneAcc) : State :=
  let (f, s) := s.free (2 ^ 16 - 1)
  let mem := (List.range 16).filter fun k => mask / 2 ^ k % 2 == 1
  let bad := (mem.filter fun k => f / 2 ^ k % 2 == 1).foldl (fun a k => a + 2 ^ k) 0
  let lanes := (mem.filter fun k => f / 2 ^ k % 2 == 0).map fun k =>
    { l with pa := (groupOf chipNo * 16 + k) * 2 ^ 42 + l.pa % 2 ^ 42 }
  let (id, s) := s.fresh
  let s := startReqAt s { heldReq s w h id .store 1 (s.tick + 4000) lanes with fchip := bad } [l.va]
  if lanes.isEmpty then answerSector s id else s
/-- ST, RED and ST.mc at presentation. -/
def presentStore (s : State) (w : Iss) (h : Held) : State :=
  let sp := (h.lanes.map (·.space)).headD 0
  if 3 < sp then (presentPool s w h).2
  else
    let s := watchThread s h w 1 (accSize h.i) (h.lanes.map fun l => (l.va, BitVec.ofNat 64 ((nth l.ops 0 0).toNat * 256 ^ (l.va.toNat % 8))))
    match h.i with
    | .stMc o _ =>
      let mask := o.off.toNat % 2 ^ 16
      if mask = 0 then s else h.lanes.foldl (fun s l => presentMc s w h mask l) s
    | _ =>
      let (id, s) := s.fresh
      startReq s (heldReq s w h id (match h.i with | .red .. => ReqKind.red | _ => .store) sp (homeBound s sp) h.lanes)
/-- Results of an atomic go in flight; they belong to no region window (R294). -/
def atomResult (s : State) (w : Iss) (h : Held) (vis : Nat) (vs : List (Nat × DWord)) : State :=
  match h.i with
  | .atom o b64 _ =>
    let ws := loadWrites (w.n == 16) o.data.toNat (if b64 then 8 else 4) false vs
    (domJoin (noteResult s w h vs) w s.tick).updIss w fun me => { me with
      pend := me.pend ++ (ws.filter fun e => !e.2.isEmpty).map fun e =>
        (⟨vis, e.1, e.2, 2 ^ 32, (h.lanes.map (·.space)).headD noHome, h.itick⟩ : Pend) }
  | _ => s
/-- ATOM at presentation (R293, R188). -/
def presentAtom (s : State) (w : Iss) (h : Held) : State :=
  let sp := (h.lanes.map (·.space)).headD 0
  let passes := (s.coreOf w).passes w.n
  if 3 < sp then
    match presentPool s w h with
    | (none, s) => s
    | (some (e, vs), s) => atomResult s w h (s.tick + (passes - 1) + (if sp = 5 then 28 else 6) + e) vs
  else
    let s := watchThread s h w 1 (accSize h.i) (h.lanes.map fun l => (l.va, BitVec.ofNat 64 ((nth l.ops 0 0).toNat * 256 ^ (l.va.toNat % 8))))
    let (id, s) := s.fresh
    let q := heldReq s w h id .atom sp (homeBound s sp + (passes - 1)) h.lanes
    startReq (s.updIss w fun me => { me with retry := some ⟨h, id, false⟩ }) q

/-! ### Accesses that are not done (R122, R296) -/

/-- Whether a home lies within a scope (R296). -/
def homeIn (scope space : Nat) : Bool :=
  match space with
  | 0 => decide (4 ≤ scope)
  | 2 => decide (5 ≤ scope)
  | 1 => decide (6 ≤ scope)
  | 3 => decide (7 ≤ scope)
  | _ => false
/-- Accesses of an issuer to homes within a scope that are not done: loads and atomics, or writes. -/
def openAccesses (s : State) (w : Iss) (scope : Nat) (loads : Bool) : Bool :=
  s.chip.reqs.any fun q => q.w == w && isThread q.kind && homeIn scope q.space &&
    (if loads then q.kind == .load || q.kind == .atom else q.kind != .load)
/-- Accesses of an issuer to homes within a scope that are not presented: atomics, and with writes stores and
reductions too. -/
def unpresented (s : State) (w : Iss) (scope : Nat) (writes : Bool) : Bool :=
  let me := s.iss w
  me.allHeld.any fun h => (match h.i with | .atom .. => true | _ => writes && isWrite h.i) &&
    h.lanes.any fun a => homeIn scope a.space
/-- Engine effects that an issuer issued before a tick and that have writes to homes within a scope still to perform
(R122): drains, epilogues and collectives. A stream orders its own commands, and is not waited for. -/
def engineOpen (s : State) (w : Iss) (scope it : Nat) : Bool :=
  let c := s.coreOf w
  let mine := fun h : Held => decide (h.itick < it)
  let winHome := fun n => homeIn scope (spaceOf (c.win n).home) || homeIn scope (spaceOf (c.win n).sclhome)
  (s.chip.reqs.any fun q => q.w.cl == w.cl && q.w.co == w.co && (q.kind == .drain || q.kind == .send || q.kind == .aos) &&
      mine q.h && homeIn scope q.space) ||
    (c.wcmds.any fun x => x.slot == w.n && (match x.h.i with | .wdrain .. => true | _ => false) && mine x.h && winHome x.win) ||
    (c.drains.any fun d => d.slot == w.n && d.stm.isNone && (match d.h with | some h => mine h | none => false) && winHome d.win) ||
    (w.n == 16 && ((c.arms.any fun a => mine a.h && homeIn scope (spaceOf a.port.base)) ||
      c.jobs.any fun j => mine j.h && homeIn scope (spaceOf j.port.base))) ||
    (decide (6 ≤ scope) && s.chip.colls.any fun k => k.owner == some w && !k.ended && (match k.h with | some h => mine h | none => false))
/-- Accesses of others to homes within a scope that happen before what an issuer does next, and are not performed: a
release is cumulative (R130). -/
def hbOpen (s : State) (w : Iss) (scope : Nat) : Bool :=
  (s.iss w).hb.any fun e =>
    (s.chip.reqs.any fun p => p.w == e.1 && decide (p.h.itick < e.2) && !p.sectors.isEmpty && homeIn scope p.space) ||
      (s.iss e.1).presq.any fun h => decide (h.itick < e.2) && h.lanes.any fun a => homeIn scope a.space
/-- Results of loads and atomics from homes within a scope are all visible (R296). -/
def loadsVisible (s : State) (w : Iss) (scope : Nat) : Bool :=
  let me := s.iss w
  !(openAccesses s w scope true) && !(unpresented s w scope false) &&
    !(me.retry.any fun r => r.h.lanes.any fun a => homeIn scope a.space) &&
    me.pend.all fun p => p.vis ≤ s.tick || !(homeIn scope p.home)
/-- Writes to homes within a scope are all performed (R122, R142, R296). -/
def writesDone (s : State) (w : Iss) (scope : Nat) : Bool :=
  !(openAccesses s w scope false) && !(unpresented s w scope true) && !(engineOpen s w scope s.tick) && !(hbOpen s w scope)
/-- The zero-length read of a release at .sys (R142): its reply comes after a free number of ticks (log 4). It
counts as an access to the host that is not done until then. -/
def startFlush (s : State) (w : Iss) (h : Held) : State :=
  let (id, s) := s.fresh
  let (d, s) := s.free 4000
  let q := { heldReq s w h id .store 3 s.tick [] with chk := false }
  ((s.updIss w fun me => { me with flushed := true }).updChip fun c => { c with reqs := c.reqs ++ [q] }).sched
    (s.tick + d) (obj id) .loadReply

/-! ### Replies (R24, R186, R188, R286, R293) -/

/-- Fold a load's results into the check of its region, on a core in pair mode (R204). -/
def foldLoad (s : State) (w : Iss) (rnum : Nat) (ws : List Wr) : State :=
  if (s.coreOf w).pair then s.updIss w fun me => { me with
    regions := me.regions.map fun r => if r.num = rnum then
      { r with crcA := crcDwords r.crcA ((ws.map fun e => e.2.map (·.2)).flatten) } else r }
  else s
/-- The race that a reply finds: the lane and its stamp (R145, R147). -/
def replyRace (s : State) (q : Req) : Option (Nat × Nat) :=
  if !q.chk then none else q.stamps.find? fun p =>
    match q.lanes.find? fun l => l.lane == p.1 with
    | some l => raceAt s q.w.cl l.va (q.space == 1) (BitVec.ofNat 16 p.2)
    | none => false
/-- Results of a load's reply become visible at a tick (R161, R286): they belong to its region, and follow what its
cluster has presented. -/
def loadResult (s : State) (q : Req) (rnum vis : Nat) (ws : List Wr) : State :=
  (domJoin (foldLoad s q.w rnum ws) q.w vis).updIss q.w fun me => { me with
    regions := me.regions.map fun r => if r.num = rnum then { r with lastVis := max r.lastVis vis } else r
    pend := me.pend ++ (ws.filter fun e => !e.2.isEmpty).map fun e => (⟨vis, e.1, e.2, rnum, q.space, q.h.itick⟩ : Pend) }
/-- LOAD_REPLY (R286): poison or a lost switch discards; a race is a precise exception; else the result
becomes visible at its tick: in strict mode at its bound, in elastic mode when it has arrived too. A blocking load ends. A
plain store's stamp comes back (R145). The zero-length read of a release at .sys ends (R142): that of a fence with an
acquire half, once its loads are visible. -/
def execLoadReply (s : State) : Out :=
  match s.req s.cur.n with
  | none => .next s
  | some q =>
    let waiting := s
    let s := (if q.kind = .stamp then s else logAnswer s q 0).delReq q.id
    let w := q.w
    if q.kind == .load && (q.psn || q.stat == 2) then
      .next (discardBy (enterRemote s q) w 0 (if q.stat = 2 then 4 else 2))
    else
      match replyRace s q with
      | some p =>
        let va := match q.lanes.find? fun l => l.lane == p.1 with | some l => l.va | none => 0
        .next (raiseLate s w q.h.pc q.h.itick q.rnum
          (raceInfo s w.cl va (BitVec.ofNat 16 p.2) (q.kind == .stamp) (some p.1) 0))
      | none =>
        match q.kind, q.h.i with
        | .load, .ld o sz sx =>
          let n := 2 ^ sz.toNat
          let vs := q.results.map fun r =>
            let f := match q.lanes.find? fun l => l.lane == r.1 with
              | some l => ((nth l.ops 0 0).toNat, (nth l.ops 1 0).toNat) | none => (0, 0)
            (r.1, overlay n f (nth r.2 0 0))
          let ws := loadWrites (w.n == 16) o.data.toNat n sx vs
          if q.space = 1 ∨ q.space = 3 then
            let s := logEffect s w true (effSig ⟨q.h.i, [], [], [], 0, 0, 0⟩) []
            let s := filterAdd (unblockAgain s w q.h.pc) w (q.lanes.map fun l => memKey q.space l.pa / 64)
            .next (loadResult s q (s.iss w).rnum s.tick ws)
          else
            let vis := if (s.coreOf w).elastic then max q.bound (s.tick + replyLead) else max q.bound s.tick
            .next ((loadResult s q q.rnum vis ws).updIss w fun me => { me with
              wait := if me.wait = .reply q.id then .until_ vis else me.wait
              late := if q.bound < vis then
                  some (match me.late with
                    | some l => if s.tick < l.2 then (min l.1 q.bound, max l.2 vis) else (q.bound, vis)
                    | none => (q.bound, vis))
                else me.late })
        | _, .fence _ sc od =>
          if od.getLsbD 0 && !(loadsVisible waiting w sc.toNat) then
            .next (waiting.sched (s.tick + 1) s.cur .loadReply)
          else .next s
        | _, _ => .next s
/-- Whether an issuer is to send a returning atomic again, in its next turn (R188). -/
def retryDue (s : State) (w : Iss) : Bool :=
  match (s.iss w).retry with
  | some r => r.again && (s.iss w).wait != .fault && (s.iss w).wait != .stopped && !(s.chip.reqs.any fun q => q.id == r.req)
  | none => false
/-- ATOMIC_REPLY (R188, R293): a reply that is poisoned, not performed or lost discards the later regions, and the issuer
sends the atomic again in its next turn; in lean mode its block rolls back (R191). Any other becomes visible; regions
discarded for it are entered again then. -/
def execAtomicReply (s : State) : Out :=
  match s.req s.cur.n with
  | none => .next s
  | some q =>
    let s := (logAnswer s q 0).delReq q.id
    let w := q.w
    if q.psn || q.stat == 1 || q.stat == 2 then
      let s := enterRemote s q
      let me := s.iss w
      if (s.coreOf w).lean then .next (rollIssuer s w false (recoveryRec s w 4 0 0))
      else if me.rlimit < me.rcount + 1 then .next (escalate s w (if q.stat = 2 then 4 else 2))
      else
        let s := recovery (discardAll s w false) w 2 0 0
        .next (s.updIss w fun me => { me with rcount := me.rcount + 1, retry := some ⟨q.h, q.id, true⟩ })
    else
      let s := atomResult s w q.h q.bound (q.results.map fun r => (r.1, nth r.2 0 0))
      .next (s.updIss w fun me => { me with
        retry := none, wait := if me.redo.isSome && me.wait == .run then .until_ q.bound else me.wait })
/-- ATOMIC_RETRY (R188): the atomic is translated and checked again and presented at once, under its
recorded region number; its result becomes visible as R293 says of a presentation tick. The turn is over. -/
def execAtomicRetry (s : State) : Out :=
  let w := s.cur
  let c := s.coreOf w
  let done := fun s : State => if w.n = 16 then s.updIss w fun me => { me with nextAt := s.tick + 1 }
    else s.updCore w.cl w.co fun k => k.endTurn (s.tick + c.passes w.n)
  match (s.iss w).retry with
  | none => .next (done s)
  | some r =>
    let h := r.h
    match transLanes s w.cl c.ptw .atom (h.lanes.map fun l => (l.lane, l.va)) with
    | (.error i, s) => .next (done (raiseLate s w h.pc h.itick h.rnum i))
    | (.ok ls, s) =>
      let sp := (h.lanes.map (·.space)).headD 0
      let (id, s) := s.fresh
      let lanes := (h.lanes.zip ls).map fun p => { p.1 with pa := p.2.2.2.1 }
      let q := { heldReq s w h id .atom sp (homeBound s sp + (c.passes w.n - 1)) lanes with stat := 9 }
      .next (done (startReq (s.updIss w fun me => { me with retry := some ⟨h, id, true⟩ }) q))

end Sys2Proof.Machine
end

