-- ==== Sys2Proof/Machine/Sync.lean ====
section
/-!
DEFINITION. Fences, barriers, phasers, regions, meeting points and the decision queue (R296, R304 to R314,
R166 to R168).
-/
namespace Sys2Proof.Machine

/-! ### Fences (R122, R129, R296) -/

/-- FENCE (R296): the acquire half parks; the release half is a held effect, or parks in lean mode; at
.sys the release is a blocking point (R142). -/
def execFence (m : Mods) (scope : BitVec 3) (order : BitVec 2) (s : State) : Out :=
  let x := s.ctx m
  let acq := order.getLsbD 0
  let rel := order.getLsbD 1
  if x.act.isEmpty ∨ scope.toNat < 2 then
    match regionCause x [] with
    | some k => illegalRegion x k
    | none => .next (finish x s {})
  else
    let s := if acq then
        match (s.chip.reqs.filter fun q => q.w == x.w && q.kind == .load).reverse with
        | q :: _ => s.updReq q.id fun q => { q with chk := false }
        | [] => s
      else s
    let s := if rel then s.updIss x.w fun me => { me with fenced := true } else s
    if rel ∧ scope = 7 then blockingOp { x with s := s } (.fence m scope order) []
    else match regionCause x [] with
      | some k => illegalRegion x k
      | none =>
        let s := if rel ∧ !x.c.lean then emit s x.w (x.hold (.fence m scope order) [] [] []) else s
        let w := if acq ∨ x.c.lean then Wait.fence scope.toNat acq (rel && x.c.lean) else .run
        .next (finish x s { wait := w })
/-- Whether an issuer's fence still waits. In lean mode an earlier write may still queue for presentation. -/
def fenceWaits (s : State) (w : Iss) (scope : Nat) (acq rel : Bool) : Bool :=
  (acq && !loadsVisible s w scope) || (rel && !writesDone s w scope)
/-- The release that an effect carries, with its scope (R122). -/
def releaseScope (i : Instr) : Option Nat :=
  match i with
  | .st o _ | .stMc o _ | .red o _ _ => if o.order.getLsbD 1 then some o.scope.toNat else none
  | .atom o _ _ => if o.order.getLsbD 1 then some o.scope.toNat else none
  | .fence _ sc od => if od.getLsbD 1 then some sc.toNat else none
  | _ => none
/-- Whether a presentation waits: a release for what comes before it at homes within its scope, that of others whom its issuer
has acquired included (R122, R129, R130); and an access for an acquire before it whose bound lies behind its own. -/
def releaseWaits (s : State) (w : Iss) (h : Held) : Bool :=
  (match releaseScope h.i with
   | some sc => decide (4 ≤ sc) && (openAccesses s w sc false || engineOpen s w sc h.itick || hbOpen s w sc ||
      s.chip.reqs.any fun q => q.w == w && q.kind == .load && decide (q.h.itick < h.itick) && homeIn sc q.space)
   | none => false) ||
  (h.lanes.any fun a => decide (a.space < 4)) && s.chip.reqs.any fun q => q.w == w && q.acq && !q.sectors.isEmpty &&
    decide (q.h.itick < h.itick) && decide (homeBound s ((h.lanes.map (·.space)).headD 0) < q.bound)
/-- Whether an issuer has a release at .chp or wider still to present. -/
def releasesQueued (me : Issuer) : Bool :=
  me.presq.any fun h => match releaseScope h.i with | some sc => decide (4 ≤ sc) | none => false

/-! ### Barriers (R304, R305) -/

/-- Judge a barrier (R304): it completes 4 ticks after every live party has arrived, and no party has a release left to
present, which keeps back the accesses before the BAR (R122, R123; DEDUCED, log 39). -/
def barJudge (s : State) (cl co bi : Nat) : State :=
  let c := s.core cl co
  let b := c.block bi
  let live := c.liveParties bi
  if b.doneAt.isNone && !live.isEmpty && live.all (fun n => decide (0 < (assoc b.arrived n).getD 0)) then
    (s.updCore cl co fun c => c.setBlock { c.block bi with doneAt := some (s.tick + 4) }).sched
      (s.tick + 4) ⟨cl, co, bi⟩ .barrierComplete
  else s
/-- A party arrives: its regions before the BAR have committed. What it issued before comes before what the parties do after
the barrier (R123). -/
def barArrive (s : State) (w : Iss) : State :=
  match (s.coreOf w).blockOf w.n with
  | none => s
  | some bi =>
    let s := s.updCore w.cl w.co fun c =>
      let b := c.block bi
      c.setBlock { b with
        arrived := assocSet b.arrived w.n ((assoc b.arrived w.n).getD 0 + 1), hb := joinClock s b.hb (clockOf s w s.tick) }
    barJudge s w.cl w.co bi
/-- Whether an issuer waits at a BAR, or at an SSYNC, with its regions committed. -/
def waitsBar (me : Issuer) : Option Nat :=
  match me.wait with | .block (.bar _) .wait _ _ _ pc => some pc | _ => none
def waitsSsync (me : Issuer) : Option Nat :=
  match me.wait with | .block (.ssync _) .wait _ _ _ pc => some pc | _ => none
/-- BARRIER_COMPLETE (R304, R146, R195): the parties go on, and a Rind interval opens. -/
def execBarrierComplete (s : State) : Out :=
  let cl := s.cur.cl
  let co := s.cur.co
  let bi := s.cur.n
  let c := s.core cl co
  let b := c.block bi
  let live := c.liveParties bi
  if b.doneAt ≠ some s.tick then .next s
  else if live.any fun n => releasesQueued (c.iss n) then
    .next ((s.updCore cl co fun c => c.setBlock { c.block bi with doneAt := some (s.tick + 1) }).sched
      (s.tick + 1) s.cur .barrierComplete)
  else
    let more := b.arrived.any fun a => decide (1 < a.2)
    let s := s.updCore cl co fun c => c.setBlock { c.block bi with
      doneAt := none, arrived := b.arrived.map fun a => (a.1, a.2 - 1), hb := if more then b.hb else [] }
    let s := s.updCluster cl fun k => { k with mask := k.mask ||| (1 : DWord) <<< cl }
    let s := live.foldl (fun s n =>
      match waitsBar (s.iss ⟨cl, co, n⟩) with
      | some pc => logEffect (unblock (acquire s ⟨cl, co, n⟩ b.hb) ⟨cl, co, n⟩ pc) ⟨cl, co, n⟩ true
          (effSig ⟨.bar ⟨false, 0, false⟩, [], [], [], 0, 0, 0⟩) []
      | none => s) s
    .next (openInterval s cl co bi false)
/-- BAR (R195, R304). -/
def execBar (m : Mods) (s : State) : Out :=
  let x := s.ctx m
  if x.front ∧ 1 < x.c.bpc then illegal x 3
  else if x.act.isEmpty then passOver x
  else blockingOp x (.bar m) []
/-- SSYNC (R305): legal in a grid that takes part in supersteps. -/
def execSsync (m : Mods) (s : State) : Out :=
  let x := s.ctx m
  if !bit x.c.modew 2 then illegal x 3
  else if x.act.isEmpty then passOver x
  else blockingOp x (.ssync m) []

/-! ### Phasers (R306 to R311) -/

def State.phaser (s : State) (n : Nat) : Phaser := (assoc s.chip.phasers n).getD {}
def State.setPhaser (s : State) (n : Nat) (p : Phaser) : State :=
  s.updChip fun h => { h with phasers := assocSet h.phasers n p }
def Member.is (m : Member) (w : Iss) (q : Nat) (stm : Bool) : Bool := m.who == w && m.q == q && m.stm == stm
def Phaser.member (p : Phaser) (w : Iss) (q : Nat) (stm : Bool) : Option Member :=
  p.members.find? fun m => m.is w q stm
def Phaser.setMember (p : Phaser) (m : Member) : Phaser :=
  { p with members := p.members.map fun k => if k.is m.who m.q m.stm then m else k }
def signals (m : PhMode) : Bool := m != .wait
/-- MCL: the clusters of the members in effect (R307, R311). -/
def Phaser.refreshMcl (p : Phaser) : Phaser :=
  { p with mcl := (p.members.filter (·.inEffect)).foldl (fun (a : DWord) m => a ||| (1 : DWord) <<< m.who.cl) 0 }
/-- How many signals are kept until a member is in effect (R308). -/
def Member.early (m : Member) : Nat := m.kept.length
/-- The signals that a tick has brought for PHASE and for PHASE + 1. -/
def Phaser.signalsAt (p : Phaser) (t : Nat) : Nat × Nat := if p.tickSig.1 = t then p.tickSig.2 else (0, 0)
/-- Whether the phase has completed in this tick. -/
def Phaser.doneAt (p : Phaser) (t : Nat) : Bool := p.lastDone == t && p.phase != 0
/-- The tick at which the phase completes once every member has signalled (R309). -/
def Phaser.dueAt (p : Phaser) : Nat := max (p.lastSig + 40) (p.lastDone + 1)
/-- Count one signal of a member in effect (R309); k: the accesses that happen before it (R123). -/
def Phaser.count (p : Phaser) (m : Member) (psn : Bool) (t : Nat) (k : Clock) : Phaser :=
  let now := decide (m.s = p.phase)
  let n := p.signalsAt t
  let p : Phaser := if now then
      { p with arr := p.arr + 1, psn := p.psn || psn, hb := (p.hb ++ k).eraseDups, lastSig := max p.lastSig t }
    else { p with arr1 := p.arr1 + 1, psn1 := p.psn1 || psn, hb1 := (p.hb1 ++ k).eraseDups, lastSig1 := max p.lastSig1 t }
  { p.setMember { m with s := m.s + 1 } with
    tickSig := if t < p.tickSig.1 then p.tickSig else (t, n.1 + b2n now, n.2 + b2n !now) }
/-- Count a member's kept early signals, by the ticks of their presentation (R308, R309). -/
def Phaser.countEarly (p : Phaser) (w : Iss) (q : Nat) (stm : Bool) : Nat → Phaser
  | 0 => p
  | f + 1 =>
    match p.member w q stm with
    | some m => (match m.kept with
      | [] => p
      | e :: rest => Phaser.countEarly (p.count { m with kept := rest } e.2 e.1 []) w q stm f)
    | none => p
/-- Apply a registration (R308). -/
def Phaser.enter (p : Phaser) (m : Member) : Phaser :=
  let p := (p.setMember { m with inEffect := true, s := p.phase, v := p.phase }).refreshMcl
  let p := if signals m.mode then { p with nsig := p.nsig + 1 } else p
  p.countEarly m.who m.q m.stm 2
/-- Completion is due 40 ticks after the last counted signal (R309). -/
def phaserJudge (s : State) (n : Nat) : State :=
  let p := s.phaser n
  if 0 < p.nsig ∧ p.arr = p.nsig then
    if p.due.isSome then s
    else
      let t := max s.tick p.dueAt
      (s.setPhaser n { p with due := some t }).sched t (obj n) .phaseComplete
  else s.setPhaser n { p with due := none }
/-- A registration is presented (R308). Registrations and drops of a tick come before its signals, and those before its
completions: signals of this very tick do not keep it back, nor does a phase that has completed in this tick. -/
def phRegister (s : State) (n : Nat) (w : Iss) (q : Nat) (stm : Bool) (mode : PhMode) : State :=
  let p := s.phaser n
  let m : Member := ⟨w, q, stm, mode, p.phase, p.phase, false, false, []⟩
  let p := { p with members := p.members ++ [m] }
  phaserJudge (s.setPhaser n (if (p.arr, p.arr1) = p.signalsAt s.tick ∨ p.doneAt s.tick then p.enter m else p)) n
/-- A signal is presented (R308, R309). A member whose drop has been presented gives none. k: the accesses that happen
before the signal; those of an early one come before the phase that it will count for (R123). -/
def phSignal (s : State) (n : Nat) (w : Iss) (q : Nat) (stm psn : Bool) (k : Clock) : State :=
  let p := s.phaser n
  match p.member w q stm with
  | none => s
  | some m =>
    if m.drop then s
    else if !m.inEffect then s.setPhaser n { p.setMember { m with kept := m.kept ++ [(s.tick, psn)] } with hb1 := joinClock s p.hb1 k }
    else phaserJudge (s.setPhaser n (p.count m psn s.tick (joinClock s k []))) n
/-- A member with a drop leaves, and the signals that it has counted for the new phases are withdrawn (R311). -/
def Phaser.depart (p : Phaser) (m : Member) : Phaser := { p with
  nsig := p.nsig - 1
  arr := p.arr - b2n (decide (p.phase < m.s)), arr1 := p.arr1 - b2n (decide (p.phase + 1 < m.s))
  members := p.members.filter fun k => !k.is m.who m.q m.stm }
/-- A drop is presented (R311); in the tick in which a phase completes it comes before that completion (R308). -/
def phDrop (s : State) (n : Nat) (w : Iss) (q : Nat) (stm : Bool) : State :=
  let p := s.phaser n
  match p.member w q stm with
  | none => s
  | some m =>
    if !signals m.mode ∨ !m.inEffect then
      s.setPhaser n ({ p with members := p.members.filter fun k => !k.is w q stm } : Phaser).refreshMcl
    else if p.doneAt s.tick then phaserJudge (s.setPhaser n (p.depart m).refreshMcl) n
    else
      let p := p.setMember { m with drop := true }
      phaserJudge (s.setPhaser n (if m.s = p.phase then p.count { m with drop := true } false s.tick [] else p)) n
/-- The procedure of a phase's end at a tick (R309); k: the accesses that happen before it. -/
def Phaser.complete (p : Phaser) (t : Nat) (k : Clock) : Phaser :=
  let p := { p with
    due := none, lastDone := t, lastSig := p.lastSig1, lastSig1 := 0, mclh := (p.mcl :: p.mclh).take 4
    hb := p.hb1, hb1 := [], hbh := (k :: p.hbh).take 4
    phist := BitVec.ofNat 4 (p.phist.toNat * 2 + b2n p.psn)
    phase := (p.phase + 1) % 2 ^ 32, arr := p.arr1, psn := p.psn1, arr1 := 0, psn1 := false }
  let p := ((p.members.filter fun m => m.drop && m.inEffect).foldl Phaser.depart p).refreshMcl
  (p.members.filter fun m => !m.inEffect).foldl Phaser.enter p
/-- PHASE at a tick to come: the phases that will have completed by then (R311). -/
def Phaser.phaseAt (p : Phaser) (t : Nat) : Nat → Nat
  | 0 => p.phase
  | f + 1 =>
    match p.due with
    | some d => if d ≤ t then
        let q := p.complete d []
        Phaser.phaseAt { q with due := if 0 < q.nsig ∧ q.arr = q.nsig then some q.dueAt else none } t f
      else p.phase
    | none => p.phase
/-- PHASE_COMPLETE (R309). One that a registration has put off comes to nothing. -/
def execPhaseComplete (s : State) : Out :=
  let n := s.cur.n
  let p := s.phaser n
  if (match p.due with | some d => decide (s.tick < d) | none => true) then .next s
  else
    let s := phaserJudge (s.setPhaser n (p.complete s.tick (joinClock s p.hb []))) n
    .next ((s.cores.filter (·.active)).foldl (fun s c => kickStreams s c.cl c.co) s)

/-- An issuer's binding of a slot (R281, R306). -/
def Issuer.slotOf (me : Issuer) (q : Nat) : Option (Nat × PhMode) :=
  (me.phs.find? fun b => b.1 == q).map (·.2)
/-- Go on with a bound slot whose mode is allowed, else cause 15 (R306). -/
def withSlot (x : Ctx) (q : BitVec 4) (ok : PhMode → Bool) (k : Nat → PhMode → Out) : Out :=
  match x.me.slotOf q.toNat with
  | some (n, mode) => if ok mode then k n mode else illegal x 15
  | none => illegal x 15
/-- Whether a phaser number lies in the grid's range (R384). -/
def Core.phOk (c : Core) (n : Nat) : Bool := decide (c.phBase ≤ n) && decide (n < c.phBase + c.phCnt)
/-- PHREG (R306): binding at issue, membership held. -/
def execPhreg (m : Mods) (q : BitVec 4) (a : BitVec 8) (mode : PhMode) (s : State) : Out :=
  let x := s.ctx m
  let n := (x.sc a 0).toNat
  if decide (4095 < n) || !x.c.phOk n || (x.me.slotOf q.toNat).isSome then illegal x 15
  else match regionCause x [] with
    | some k => illegalRegion x k
    | none =>
      if x.act.isEmpty then .next (finish x s {})
      else
        let s := s.updIss x.w fun me => { me with phs := me.phs ++ [(q.toNat, n, mode)] }
        .next (finish x (emit s x.w (x.hold (.phreg m q a mode) [] [BitVec.ofNat 64 n] [])) {})
/-- PHDROP (R311): unbinding at issue, drop held. -/
def execPhdrop (m : Mods) (q : BitVec 4) (s : State) : Out :=
  let x := s.ctx m
  withSlot x q (fun _ => true) fun n _ =>
    match regionCause x [] with
    | some k => illegalRegion x k
    | none =>
      if x.act.isEmpty then .next (finish x s {})
      else
        let s := s.updIss x.w fun me => { me with phs := me.phs.filter fun b => b.1 != q.toNat }
        .next (finish x (emit s x.w (x.hold (.phdrop m q) [] [BitVec.ofNat 64 n] [])) {})
/-- Signals of a slot that the issuer has issued and not presented (R309). -/
def heldSignals (me : Issuer) (q : Nat) : Nat :=
  (me.allHeld.filter fun h => match h.i with
    | .phsig _ k | .phsw _ _ k => k.toNat == q
    | _ => false).length
/-- Whether two signals of a slot are ahead of the phase (R309). -/
def signalsAhead (s : State) (x : Ctx) (q n : Nat) : Bool :=
  let p := s.phaser n
  let sp := match p.member x.w q false with
    | some k => (if k.inEffect then k.s else p.phase) + k.early
    | none => p.phase
  decide (p.phase + 2 ≤ sp + heldSignals x.me q)
/-- PHSIG (R309): it parks while two signals are ahead of the phase. -/
def execPhsig (m : Mods) (q : BitVec 4) (s : State) : Out :=
  let x := s.ctx m
  withSlot x q signals fun n _ =>
    if !x.act.isEmpty && regionCause x [] == none && signalsAhead s x q.toNat n then retryHere x
    else holdOp x (x.hold (.phsig m q) [] [BitVec.ofNat 64 n] [])
/-- Whether the phase that a member waits for is too old to be told (R310). -/
def waitTooOld (s : State) (w : Iss) (q n : Nat) (stm : Bool) : Bool :=
  let p := s.phaser n
  match p.member w q stm with
  | some k => k.inEffect && decide (k.v + 4 < p.phase)
  | none => false
/-- PHWAIT (R310). -/
def execPhwait (m : Mods) (p : BitVec 3) (q : BitVec 4) (s : State) : Out :=
  let x := s.ctx m
  withSlot x q (fun k => k != .sig) fun n _ =>
    if x.act.isEmpty then passOver x
    else if waitTooOld s x.w q.toNat n false then illegal x 15
    else blockingOp x (.phwait m p q) [BitVec.ofNat 64 n]
/-- PHSW (R184, R310): its signal is presented at the commit that begins its wait. It parks at issue as PHSIG does
(DEDUCED, log 24). -/
def execPhsw (m : Mods) (p : BitVec 3) (q : BitVec 4) (s : State) : Out :=
  let x := s.ctx m
  withSlot x q (fun k => k == .sw) fun n _ =>
    if x.act.isEmpty then passOver x
    else if waitTooOld s x.w q.toNat n false then illegal x 15
    else if afterAtomic x then illegalRegion x 2
    else if signalsAhead s x q.toNat n then retryHere x
    else
      let s := emit s x.w (x.hold (.phsw m p q) [] [BitVec.ofNat 64 n] [])
      .next (blockAt { x with s := s } (.phsw m p q) [BitVec.ofNat 64 n])
/-- PHQRY (R311): the phase as it is at each pass's tick. -/
def execPhqry (m : Mods) (d : BitVec 9) (q : BitVec 4) (s : State) : Out :=
  let x := s.ctx m
  withSlot x q (fun _ => true) fun n mode =>
    let p := s.phaser n
    let v := match p.member x.w q.toNat false with | some k => k.v | none => 0
    let tgt := if x.front then Tgt.s d.toNat else Tgt.v d.toNat
    let hi := if x.front ∧ mode ≠ .sig then v % 2 ^ 32 * 2 ^ 32 else 0
    alu x 4 [tgt] [(tgt, x.act.map fun l => (l, BitVec.ofNat 64 (p.phaseAt (x.tl l) 4 + hi)))] 0
/-! Fields of a collective's parameter block (R346), and the cover that its completion gives (R146). -/

def blkF (b : List DWord) (k lo n : Nat) : Nat := bits (nth b k 0) lo n
def Coll.op (c : Coll) : Nat := blkF c.block 0 0 4
def Coll.dty (c : Coll) : Ty := Ty.ofCode (blkF c.block 0 8 4)
def Coll.count (c : Coll) : Nat := blkF c.block 4 0 40
/-- The buffers that the block names: SRC and DST. -/
def Coll.buffers (c : Coll) : List (DWord × Nat) :=
  let one := c.count * (c.dty.bits / 8)
  [(nth c.block 2 0, if c.op = 1 ∨ c.op = 5 then c.ranks * one else one),
    (nth c.block 3 0, if c.op = 2 ∨ c.op = 5 then c.ranks * one else one)]
/-- Add a buffer to a cluster's range set (R146). -/
def addRange (s : State) (cl : Nat) (r : DWord × Nat) : State :=
  let e := (r.1, BitVec.ofNat 64 r.2)
  s.updCluster cl fun k =>
    if k.ranges.contains e then k
    else if k.ranges.length < 16 then { k with ranges := k.ranges ++ [e] }
    else { k with allcov := true }
/-- A party of a cluster observes the completion of collectives (R137, R146). -/
def observe (s : State) (cl : Nat) (cs : List Coll) : State :=
  ((cs.filter fun c => c.ended && c.status == 0).map Coll.buffers).flatten.foldl (fun s r => addRange s cl r) s

/-- The accesses that happen before a wait's completion of phase v: it is one of the last four (R123). -/
def Phaser.before (p : Phaser) (v : Nat) : Clock := nth p.hbh (p.phase - 1 - v) []
/-- A wait on a slot (R310): none while it goes on; else the poison flag and the state after it. A wait on a collective's
completion phaser observes its completion (R137, R146). -/
def phWaitDone (s : State) (w : Iss) (q n : Nat) (stm : Bool) : Option (Bool × State) :=
  let p := s.phaser n
  match p.member w q stm with
  | none => none
  | some m =>
    if !m.inEffect then none
    else if p.nsig = 0 ∧ m.v = p.phase then some (false, s)
    else if m.v < p.phase then
      let i := p.phase - 1 - m.v
      let s := s.setPhaser n (p.setMember { m with v := m.v + 1 })
      if stm then some (p.phist.getLsbD i, s)
      else
        let s := s.updCluster w.cl fun k => { k with mask := k.mask ||| nth p.mclh i 0 }
        let s := observe s w.cl (s.chip.colls.filter fun c => c.phaser == some n && decide (c.phase ≤ m.v))
        some (p.phist.getLsbD i, acquire s w (p.before m.v))
    else none
/-- Whether the phase that a header wait awaits has completed (R213, R310). -/
def phHeaderReady (s : State) (w : Iss) (q n : Nat) : Bool :=
  let p := s.phaser n
  match p.member w q false with
  | none => false
  | some m => m.inEffect && (decide (m.v < p.phase) || (p.nsig == 0 && m.v == p.phase))

/-! ### Regions and meeting points (R312, R313) -/

/-- RGN (R175, R183, R312): it parks while two regions are uncommitted. -/
def execRgn (park : Bool) (mask : BitVec 32) (s : State) : Out :=
  let x := s.ctx ⟨park, 0, false⟩
  if 2 ≤ x.me.uncommitted then retryHere x
  else
    let s := openRegion (closeRegion s x.w) x.w (x.me.rnum + 1) mask .rgn x.me.pcs
    .next (finish x s {})
/-- MEET (R313): vD takes the old m, m the target. -/
def execMeet (m : Mods) (d : BitVec 9) (offs : BitVec 32) (s : State) : Out :=
  let x := s.ctx m
  match regionCause x [.v d.toNat] with
  | some k => illegalRegion x k
  | none =>
    let s := addPend s x.w (x.vis 4 0) [(.v d.toNat, x.act.map fun l => (l, (x.me.meetOf l).setWidth 64))]
    let new : BitVec 32 := 0x80000000 ||| BitVec.ofNat 32 ((offsPc x.pc offs).toNat % 2 ^ 23)
    let s := s.updIss x.w fun me => { me with meets := x.act.foldl (fun l t => setNth 0 l t new) me.meets }
    .next (finish x s {})
/-- JOIN (R313). -/
def execJoin (m : Mods) (a : BitVec 9) (s : State) : Out :=
  let x := s.ctx m
  match regionCause x [] with
  | some k => illegalRegion x k
  | none =>
    let s := s.updIss x.w fun me => { me with
      meets := x.act.foldl (fun l t => setNth 0 l t (x.v a t &&& 0x807FFFFF)) me.meets }
    .next (finish x s {})

/-! ### The decision queue (R166 to R168, R314) -/

/-- The committed read position of a warp. -/
def Issuer.dqCommitted (me : Issuer) : Nat := match me.regions with | r :: _ => r.dqpos | [] => me.dqpos
/-- Free the entries that every warp in use has popped (R166). -/
def freeDq (c : Core) : Core :=
  let live := c.issuers.filter fun i => i.slot < 16 ∧ i.wait ≠ .ended
  let low := live.foldl (fun a i => min a i.dqCommitted) (c.dqBase + c.dq.length)
  let k := low - c.dqBase
  { c with dq := c.dq.drop k, dqBase := c.dqBase + min k c.dq.length }
/-- The next word of a warp, when it is poppable (R166). -/
def dqNext (c : Core) (me : Issuer) (t : Nat) : Option DWord :=
  match c.dq[me.dqpos - c.dqBase]? with
  | some (at_, w) => if at_ ≤ t then some w else none
  | none => none
/-- Pop the next word into a pair of registers at a tick (R314). -/
def dqPop (s : State) (w : Iss) (d : Nat) (lanes : List Nat) (word : DWord) (vis : Nat) : State :=
  let s := addPend s w vis [(.v d, lanes.map fun l => (l, BitVec.ofNat 64 (bits word 0 32))),
    (.v (d + 1), lanes.map fun l => (l, BitVec.ofNat 64 (bits word 32 32)))]
  s.updIss w fun me => { me with dqpos := me.dqpos + 1 }
/-- DQPOP (R314). -/
def execDqpop (m : Mods) (d : BitVec 9) (s : State) : Out :=
  let x := s.ctx m
  match regionCause x [.v d.toNat, .v (d.toNat + 1)] with
  | some k => illegalRegion x k
  | none =>
    if x.act.isEmpty then .next (finish x s {})
    else match dqNext x.c x.me x.t with
      | some word => .next (finish x (dqPop s x.w d.toNat x.act word (x.t + 4)) {})
      | none =>
        if (x.c.iss 16).wait = .ended ∧ x.c.dq.length ≤ x.me.dqpos - x.c.dqBase then trap x { cls := 0x0F }
        else .next (parkHere x s (.dqpop d.toNat x.act))
/-- DQPUSH at presentation (R166). Every open Rind interval keeps the word, so that a DQPOP performed again
receives what it received before (R198, R200). -/
def presentDqpush (s : State) (w : Iss) (h : Held) : State :=
  let e := (s.tick + 4, nth h.vals 0 0)
  (s.updCore w.cl w.co fun c => { c with
    dq := c.dq ++ [e]
    blocks := c.blocks.map fun b => { b with ivals := b.ivals.map fun iv => { iv with dq := iv.dq ++ [e] } } }).sched
    (s.tick + 4) ⟨w.cl, w.co, 0⟩ .dqWordPoppable
/-- The DQPOPs that a region's commit makes final: one record each, with its word (R167, R198). -/
def logPops (s : State) (w : Iss) (r : Region) : State :=
  let me := s.iss w
  let c := s.coreOf w
  let until_ := match me.regions with | _ :: q :: _ => q.dqpos | _ => me.dqpos
  (List.range (until_ - r.dqpos)).foldl (fun s k =>
    let sg := effSig ⟨.dqpop ⟨false, 0, false⟩ 0, [], [], [], 0, 0, 0⟩
    let word := match c.dq[r.dqpos + k - c.dqBase]? with | some (_, v) => v | none => 0
    match (s.iss w).suppress.find? fun e => !e.1 && e.2.1 == sg.toNat with
    | some e => s.updIss w fun me => { me with suppress := me.suppress.erase e }
    | none => logEffect s w false sg [(0, word)]) s
/-- DQ_WORD_POPPABLE (R166, R314): parked warps pop the word; its marker holds as on issue. -/
def execDqWordPoppable (s : State) : Out :=
  let cl := s.cur.cl
  let co := s.cur.co
  .next (((s.core cl co).issuers.map (·.slot)).foldl (fun s n =>
    let w : Iss := ⟨cl, co, n⟩
    let me := s.iss w
    match me.wait, dqNext (s.core cl co) me s.tick with
    | .dqpop d lanes, some word =>
      let sel := me.selected ((s.core cl co).lanes n)
      let pc := me.pcOf (nth sel 0 0)
      let nxt := s.nextPc cl pc
      let s := dqPop s w d lanes word (s.tick + 4)
      s.updIss w fun me => { me with
        pcs := sel.foldl (fun l t => setNth 0 l t nxt) me.pcs
        wait := if bit (s.instWord cl pc) 63 then .marker else .run
        entered := me.entered && pc % 16 != hdrCnt (s.header cl pc) }
    | _, _ => s) s)

end Sys2Proof.Machine
end

