-- ==== Sys2Proof/Machine/Matrix.lean ====
section
/-!
DEFINITION. The matrix engine and the gather unit: products, accumulator tiles and their versions, gather and
compression (R111 to R115, R315 to R331, R194).
-/
namespace Sys2Proof.Machine

/-! ### Operands (R322, R323, R327) -/

/-- K of an MMA by operand type (R322). -/
def kOf (t : Ty) : Nat :=
  match t with
  | .e2m1 | .mx4 => 128
  | .bf16 | .f16 => 32
  | _ => 64
/-- A matrix operand: its 64 rows and their scales. -/
structure Mat where
  ty : Ty
  rows : List (List Byte)
  scales : List (List Byte)
/-- Read a window as an operand of k elements a row, with scb scale bytes a row (R323). -/
def readMat (s : State) (cl co : Nat) (e : Win) (t : Ty) (k scb : Nat) : Mat :=
  ⟨t, (List.range 64).map fun i => spRead s cl co (e.sbase + i * e.sstride) (k * t.bits / 8),
    (List.range 64).map fun i => if t.isMx then spRead s cl co (e.scloff + i * scb) scb else []⟩
/-- The value of element k of a row, under the scale of block b (R112). -/
def Mat.val (m : Mat) (row : List Byte) (scl : List Byte) (k b : Nat) : Num :=
  let v := unpackElem m.ty.bits row k
  if m.ty.isMx then mxValue m.ty v (nth scl b 0).toNat else tyNum m.ty v
/-- Kept positions of a metadata row (R327): keep values of each group of g, p bits each. -/
def keptPos (sp48 : Bool) (row : List Byte) (i : Nat) : Nat :=
  let keep := if sp48 then 4 else 2
  let w := if sp48 then 3 else 2
  i / keep * (2 * keep) + unpackElem w row i
/-- The terms of row i, block j: values of A and logical positions (R114, R326). -/
def aTerms (a : Mat) (meta_ : Option (Bool × List (List Byte))) (i j : Nat) : List (Num × Nat) :=
  let row := nth a.rows i []
  let scl := nth a.scales i []
  match meta_ with
  | none => (List.range 32).map fun x => (a.val row scl (32 * j + x) j, 32 * j + x)
  | some (sp48, ms) => (List.range 16).map fun x =>
      (a.val row scl (16 * j + x) j, keptPos sp48 (nth ms i []) (16 * j + x))
/-- The exact sum of exact products (R114, R115). -/
def exactSum : List Num → Num
  | [] => .fin false 0 0
  | x :: t => t.foldl (fun a y => (a.add y false).1) x
/-- A whole number that an exact value is. -/
def Num.toInt : Num → Int
  | .fin n m e => (if n then -1 else 1) * ((m * 2 ^ e.toNat : Nat) : Int)
  | .nan _ | .inf _ => 0
/-- One element of the product added to its accumulator (R114, R324). -/
def mmaElem (a b : Mat) (meta_ : Option (Bool × List (List Byte))) (blocks : Nat) (int : Bool) (i n : Nat)
    (acc : Nat) : Nat :=
  let col := nth b.rows n []
  let scl := nth b.scales n []
  (List.range blocks).foldl (fun acc j =>
    let sum := exactSum ((aTerms a meta_ i j).map fun t => (t.1.mul (b.val col scl t.2 (t.2 / 32))).1)
    if int then (((acc : Int) + sum.toInt) % 2 ^ 32).toNat
    else (tyRound .f32 .rne false ((tyNum .f32 acc).add sum false).1 0).1) acc

/-! ### Tiles and versions (R330, R331) -/

/-- The committed words of a tile. -/
def Core.tileC (c : Core) (t : Nat) : Sparse Word :=
  (c.accC.filter fun e => e.1 / 4096 == t).map fun e => (e.1 % 4096, e.2)
/-- The tile as every command started so far leaves it (R324). -/
def Core.tileNow (c : Core) (t : Nat) : Sparse Word :=
  match (c.vers.filter fun v => v.tile == t && !v.stale).reverse with
  | v :: _ => v.data
  | [] => c.tileC t
/-- The version that an epilogue triggered now reads (R331): its words, and its number when pending. -/
def Core.tileRetired (c : Core) (t : Nat) : Sparse Word × Option Nat :=
  match (c.vers.filter fun v => v.tile == t && v.retired && !v.stale).reverse with
  | v :: _ => (v.data, some v.id)
  | [] => (c.tileC t, none)
/-- All 4,096 words of a tile as a function of the place, in canonical form. -/
def mkTile (f : Nat → Nat → Word) : Sparse Word :=
  (List.range 4096).filterMap fun k => let w := f (k / 64) (k % 64); if w = 0 then none else some (k, w)

/-- Sizes and type that a window must have: the code of R321 that it fails. -/
def winNeeds (e : Win) (ty : Option Ty) (rows bytes scl : Nat) : Option Nat :=
  if (match ty with | some t => e.ty != t.code | none => false) then some 1
  else if e.rows < rows ∨ e.rbytes < bytes ∨ e.scllen < scl then some 2
  else none
/-- What a matrix command needs of each window it names (R323, R326 to R329). -/
def windowNeeds (i : Instr) (wins : List Nat) : List (Nat × Option Ty × Nat × Nat × Nat) :=
  let opnd := fun (n : Nat) (t : Ty) (k : Nat) => (n, some t, 64, k * t.bits / 8, if t.isMx then 64 * k / 32 else 0)
  let w := fun k => nth wins k 0
  match i with
  | .mma o ga _ =>
    if ga then [opnd (w 0) o.tb (kOf o.tb)] else [opnd (w 0) o.ta (kOf o.ta), opnd (w 1) o.tb (kOf o.tb)]
  | .mmas o _ sp48 =>
    let k := kOf o.ta
    [(w 0, some o.ta, 64, k * o.ta.bits / 8, if o.ta.isMx then 64 * (2 * k) / 32 else 0),
      opnd (w 1) o.tb (2 * k), (w 2, none, 64, if sp48 then 3 * 2 * k / 16 else 2 * k / 8, 0)]
  | .accld _ t _ _ => [(w 0, some t, 64, 256, 0)]
  | .mgath _ t _ _ _ => [(w 0, some t, 1, kOf t * t.bits / 8, 0)]
  | .cmprs _ t _ _ _ sp48 =>
    let k := kOf t
    [(w 0, some t, 64, 2 * k * t.bits / 8, if t.isMx then 64 * (2 * k) / 32 else 0),
      (w 1, some t, 64, k * t.bits / 8, if t.isMx then 64 * (2 * k) / 32 else 0),
      (w 2, none, 64, if sp48 then 3 * 2 * k / 16 else 2 * k / 8, 0)]
  | _ => []
/-- The first matrix operand fault of a command: code and window index (R321). -/
def operandFault (c : Core) (i : Instr) (wins : List Nat) : Option (Nat × Nat) :=
  (windowNeeds i wins).findSome? fun q =>
    (winNeeds (c.win q.1) q.2.1 q.2.2.1 q.2.2.2.1 q.2.2.2.2).map fun k => (k, q.1)
/-- Windows whose bytes a command reads (R319, R320). -/
def sourceWins (i : Instr) (wins : List Nat) : List Nat :=
  match i with
  | .cmprs .. => wins.take 1
  | _ => wins
/-- Whether an operand window is ready (R319). -/
def winReady (e : Win) : Bool :=
  e.state == .full || e.state == .draining || (e.state == .free && e.valid.isEmpty)
/-- The tile that a command writes. -/
def destTile (i : Instr) : Option Nat :=
  match i with
  | .mma o _ _ | .mmas o _ _ => some o.acc.toNat
  | .accz _ a | .accld _ _ a _ => some a.toNat
  | .accmv _ a b => if a = b then none else some a.toNat
  | _ => none

/-! ### Presentation and start (R318 to R321, R325) -/

/-- The tile of a queued command: the one that it writes, or an epilogue's (R321). -/
def onTile (i : Instr) : Option Nat :=
  match i with
  | .epi e => some e.acc.toNat
  | _ => destTile i
/-- The record of a faulted window that a queued command names (R319). -/
def faultedWin (c : Core) (q : MCmd) : Option Rec :=
  q.h.wins.findSome? fun n => if (c.win n).state = .faulted then some ((c.win n).fault.getD []) else none
/-- Why a command of the matrix queue is dropped: its tile is faulted (R321), or a window that it names (R319). -/
def doomed (c : Core) (q : MCmd) : Option Rec :=
  (((onTile q.h.i).bind fun t => assoc c.tileFault t) <|> faultedWin c q)

/-- Lock the bytes of a command's source windows from its presentation (R320). -/
def lockWins (c : Core) (wins : List Nat) : Core :=
  { c with
    locks := c.locks ++ wins.map fun n => ⟨c.lockId, n, none, (c.win n).spans⟩
    lockId := c.lockId + 1 }
/-- Locks go: those that a predicate names; definitions that they held act (R320). -/
def unlock (s : State) (cl co : Nat) (f : Lock → Bool) : State :=
  let wins := ((s.core cl co).locks.filter f).map (·.win)
  wins.foldl (fun s n => flushWcmds s cl co n) (s.updCore cl co fun c => { c with locks := c.locks.filter fun l => !f l })
/-- Whether a lock is of a command of the matrix queue, which names it first among its values. -/
def Lock.of (l : Lock) (h : Held) : Bool := BitVec.ofNat 64 l.id == nth h.vals 0 0
/-- At a command's presentation its source windows are touched that are absent, or free with a producer (R319). -/
def touchOperands (s : State) (cl co : Nat) (h : Held) (wins : List Nat) : State :=
  wins.foldl (fun s n =>
    if (s.win cl co n).state = .filling then s else touch s ⟨cl, co, 16⟩ n (some (⟨cl, co, 16⟩, h))) s
/-- A command enters the matrix queue (R318, R319). -/
def presentMatrix (s : State) (cl co : Nat) (h : Held) (stm : Option Nat) : State :=
  let s := touchOperands s cl co h h.wins
  let s := s.updCore cl co fun c =>
    let c := { c with
      matSeq := c.matSeq + 1
      matq := c.matq ++ [⟨{ h with vals := BitVec.ofNat 64 c.lockId :: h.vals }, c.matSeq + 1, s.tick, stm⟩] }
    lockWins c (sourceWins h.i h.wins)
  s.sched s.tick ⟨cl, co, 0⟩ .matrixCommandStart
/-- Drop the commands of the matrix queue that a predicate names, with their locks. -/
def dropCmds (s : State) (cl co : Nat) (f : MCmd → Bool) : State :=
  let gone := (s.core cl co).matq.filter f
  unlock (s.updCore cl co fun c => { c with matq := c.matq.filter fun p => !f p }) cl co fun l => gone.any fun q => l.of q.h
def dropCmd (s : State) (cl co : Nat) (q : MCmd) : State := dropCmds s cl co fun p => p.seq == q.seq
/-- A tile enters its faulted state; commands queued on it are dropped (R321). -/
def faultTile (s : State) (cl co t : Nat) (r : Rec) : State :=
  dropCmds (s.updCore cl co fun c => { c with tileFault := assocSet c.tileFault t r }) cl co fun q => onTile q.h.i == some t
/-- Occupancy, operand release and retirement, counted from the start (R325). -/
def cmdTimes (i : Instr) : Nat × Nat × Nat :=
  match i with
  | .accz .. => (16, 0, 16)
  | .accmv .. | .accld .. => (64, 64, 64)
  | _ => (256, 256, 288)
/-- The new words of a tile (R324, R326, R330). -/
def tileResult (s : State) (cl co : Nat) (h : Held) : Sparse Word :=
  let c := s.core cl co
  let win := fun k => c.win (nth h.wins k 0)
  let prod := fun (o : MmaF) (a b : Mat) (me : Option (Bool × List (List Byte))) (blocks : Nat) =>
    let old := if o.z then [] else c.tileNow o.acc.toNat
    mkTile fun i n => w32 (mmaElem a b me blocks (o.tacc == .i32) i n (Sparse.get (0 : Word) old (64 * i + n)).toNat)
  match h.i with
  | .mma o ga lsel =>
    let k := kOf o.ta
    let a : Mat := if ga then
        let l := nth c.latches (b2n lsel) {}
        ⟨o.ta, l.rows, l.scales⟩
      else readMat s cl co (win 0) o.ta k (k / 32)
    let b := readMat s cl co (win (if ga then 0 else 1)) o.tb k (k / 32)
    prod o a b none (k / 32)
  | .mmas o _ sp48 =>
    let k := kOf o.ta
    let a := readMat s cl co (win 0) o.ta k (2 * k / 32)
    let b := readMat s cl co (win 1) o.tb (2 * k) (2 * k / 32)
    let m := win 2
    let ms := (List.range 64).map fun i => spRead s cl co (m.sbase + i * m.sstride) m.rbytes
    prod o a b (some (sp48, ms)) (2 * k / 32)
  | .accmv _ _ src => c.tileNow src.toNat
  | .accld _ _ _ _ =>
    let e := win 0
    mkTile fun i n => w32 (leNat (spRead s cl co (e.sbase + i * e.sstride + 4 * n) 4))
  | _ => []
/-- Start a tile-writing command at the current tick (R318, R325, R331). Behind its lock and stream its values hold the word
of a stream's command or a follow-on, and its place in the stream (R405). -/
def startCmd (s : State) (cl co : Nat) (h : Held) (seq at_ : Nat) : State :=
  let c := s.core cl co
  let (occ, rel, ret) := cmdTimes h.i
  let info := fun i : TrapInfo => tileRec s ⟨cl, co, 16⟩ h 1 0 seq i
  let latchBad := match h.i with
    | .mma o true lsel => match (nth c.latches (b2n lsel) {}).ty with
      | none => some ({ cls := 0x0E, sub := 5, d0 := (h.vals[2]?).getD (s.instWord cl h.pc), d1 := nth h.vals 3 0 } : TrapInfo)
      | some t => if t = o.ta then none else some { cls := 0x0C, sub := 1, d0 := 1 }
    | _ => none
  let bad := match operandFault c h.i h.wins with
    | some (k, n) => some ({ cls := 0x0C, sub := k, d0 := BitVec.ofNat 64 k, d1 := BitVec.ofNat 64 n } : TrapInfo)
    | none => latchBad
  match bad, destTile h.i with
  | some i, t =>
    let s := unlock (cmdEvent s ⟨cl, co, 16⟩ 3 1 0 seq h) cl co fun l => l.of h
    (faultTile s cl co (t.getD 0) (info i)).sched s.tick ⟨cl, co, 0⟩ .matrixCommandStart
  | none, t =>
    let lid := nth h.vals 0 0
    let data := tileResult s cl co h
    let s := cmdEvent s ⟨cl, co, 16⟩ 1 1 0 seq h
    let s : State := match h.i with
      | .mma .. | .mmas .. => s.count 3 ⟨cl, co, 16⟩ 1
      | _ => s
    let s := s.updCore cl co fun c => { c with
      matBusy := s.tick + occ
      locks := (c.locks.map fun l => if BitVec.ofNat 64 l.id = lid then { l with until_ := some (s.tick + rel) } else l) ++
        (match h.i with
         | .mma _ true lsel => [⟨c.lockId, 1000 + b2n lsel, some (s.tick + rel), [(lid.toNat, 0)]⟩]
         | _ => []) }
    let s := if rel = 0 then s else s.sched (s.tick + rel) ⟨cl, co, lid.toNat⟩ .operandRelease
    let s := s.sched (s.tick + occ) ⟨cl, co, 0⟩ .matrixCommandStart
    match t with
    | none => s
    | some t =>
      let (id, s) := s.fresh
      let v : Ver := ⟨id, t, at_, s.tick, s.tick + ret, false, data, false, h⟩
      (s.updCore cl co fun c => { c with vers := c.vers ++ [v] }).sched (s.tick + ret) ⟨cl, co, id⟩ .accRetire

/-- An epilogue port from its descriptor (R332). -/
def parsePort (im : List DWord) : Port := {
  base := nth im 0 0, rstride := sext 32 (bits (nth im 1 0) 0 32), alpha := (nth im 1 0 >>> 32).setWidth 32
  sclbase := nth im 2 0, srowb := bits (nth im 3 0) 0 16, idx := w32 (bits (nth im 3 0) 16 32) }
/-- Start an epilogue on a tile (R336): its rows form from T + 64, or after those of the one before it. -/
def startEpi (s : State) (cl co : Nat) (e : EpiF) (p : Port) (t : Nat) (data : Sparse Word) (ver : Option Nat)
    (h : Held) (seq : Nat) : State :=
  let c := s.core cl co
  let first := max (t + 64) c.epiRowEnd
  let job : EpJob := ⟨c.jobId, e, p, data, 0, first, ver, [], 0, first + 64, 0, false, h, seq⟩
  (s.updCore cl co fun c => { c with
    jobId := c.jobId + 1, epiRowEnd := first + 64
    jobs := (c.jobs.filter fun j => !(j.row == 64 && (j.stopped || j.sent == j.sends.length) &&
      decide (j.sendBase + 4000 < s.tick))) ++ [job] }).sched first ⟨cl, co, job.id⟩ .epilogueRow

/-- Whether the version that a command writes has room (R331). -/
def retireRoom (c : Core) (i : Instr) : Bool :=
  match destTile i with | some _ => decide (c.vers.length < 8) | none => true
/-- Whether a window's follow-on command may issue, the engine apart: its windows are full, the region of its WDEF has
committed, and its version has room (R55, R331). -/
def followReady (c : Core) (e : Win) : Bool :=
  e.v && decide (c.vers.length < 8) && e.arm && (e.followWins.all fun n => (c.win n).state == .full) &&
    !(e.armIss.any fun h => (c.iss 16).regions.any fun r => r.num == h.rnum)
/-- Follow-on commands that could issue now, in ascending order of window (R55). -/
def readyFollow (c : Core) : Option Nat :=
  let ws := (c.wins.filter fun w => followReady c w.2).map (·.1)
  match ws with
  | [] => none
  | w :: t => some (t.foldl min w)
/-- FOLLOW_ON_ISSUE (R55): the window's follow-on command starts, and ARM clears. R48 and R300 judge FOLLOW's opcode and
handles alone: a tile at or above 4 x ACC is taken as the word names it, and a word that decodes to no instruction
issues nothing (DESIGN CHOICE, log 36). A command on a faulted tile is dropped (R321). -/
def execFollowOnIssue (s : State) : Out :=
  let w := s.cur
  let c := s.coreOf w
  let e := c.win w.n
  if !(followReady c e && decide (c.matBusy ≤ s.tick)) then .next s
  else
    let disarmed := .next ((s.updCore w.cl w.co fun c => c.setWin w.n { e with arm := false }).sched s.tick
      ⟨w.cl, w.co, 0⟩ .matrixCommandStart)
    match decode (Env.wide true 3) e.follow with
    | .error _ => disarmed
    | .ok i =>
      if ((destTile i).any fun t => (assoc c.tileFault t).isSome) then disarmed
      else
        let h0 := e.armIss.getD ⟨i, [], [], [], 0, s.tick, 0⟩
        let s := s.updCore w.cl w.co fun c =>
          lockWins (c.setWin w.n { e with arm := false }) e.followWins
        let h : Held := { h0 with i := i, wins := e.followWins, vals := [BitVec.ofNat 64 c.lockId, 0, e.follow] }
        let s := s.updCore w.cl w.co fun c => { c with matSeq := c.matSeq + 1 }
        .next (startCmd s w.cl w.co h (c.matSeq + 1) s.tick)
/-- MATRIX_COMMAND_START (R318): queued commands that cannot run are dropped (R319, R321); with the engine free, a ready
follow-on starts first, else the head of the queue. An epilogue with NOW reads the tile as the commands before it left
it (R333), whatever a later command on the tile retires by its trigger (DEDUCED, log 23). -/
def execMatrixCommandStart (s : State) : Out :=
  let cl := s.cur.cl
  let co := s.cur.co
  let c := s.core cl co
  if c.halt then .next s
  else match c.matq.findSome? fun q => (doomed c q).map fun r => (q, r) with
  | some (q, r) =>
    let s := dropCmd s cl co q
    let s := match destTile q.h.i with | some t => faultTile s cl co t r | none => s
    .next (s.sched s.tick ⟨cl, co, 0⟩ .matrixCommandStart)
  | none =>
    if s.tick < c.matBusy then .next s
    else match readyFollow c with
    | some n => .next (s.sched s.tick ⟨cl, co, n⟩ .followOnIssue)
    | none =>
      match c.matq with
      | [] => .next s
      | q :: _ =>
        match q.h.i with
        | .epi e =>
          let t := e.acc.toNat
          let s := dropCmd s cl co q
          let last := (c.vers.filter fun v => v.tile == t && !v.stale).reverse.head?
          let trig := match last with | some v => max s.tick v.retireAt | none => s.tick
          let im := q.h.vals.drop 1
          let s := startEpi s cl co e (parsePort im) trig (c.tileNow t) (last.map (·.id))
            { q.h with vals := im.drop 4 } (nth im 4 0).toNat
          .next (s.sched s.tick ⟨cl, co, 0⟩ .matrixCommandStart)
        | _ =>
          if retireRoom c q.h.i ∧ q.h.wins.all (fun n => winReady (c.win n)) then
            let s := s.updCore cl co fun c => { c with matq := c.matq.drop 1 }
            .next (kickStreams (startCmd s cl co q.h q.seq q.at_) cl co)
          else .next s
/-- OPERAND_RELEASE (R53, R320): the locks end, and definitions held by them act. -/
def execOperandRelease (s : State) : Out :=
  let cl := s.cur.cl
  let co := s.cur.co
  let ends := fun l : Lock => match l.until_ with | some u => decide (u ≤ s.tick) | none => false
  .next ((unlock s cl co ends).sched s.tick ⟨cl, co, 0⟩ .gatherStart)
/-- The arming that a version triggers at its retirement (R333): the version is the first of those on the tile that
started at or after the arming. -/
def triggers (c : Core) (v : Ver) : Option Arming :=
  c.arms.find? fun a => a.tile == v.tile &&
    ((c.vers.find? fun o => o.tile == v.tile && decide (a.at_ ≤ o.start)).map (·.id)) == some v.id
/-- ACC_RETIRE (R331, R333, R336): the version is retired, and an armed epilogue triggers. -/
def execAccRetire (s : State) : Out :=
  let cl := s.cur.cl
  let co := s.cur.co
  let c := s.core cl co
  match c.vers.find? fun v => v.id == s.cur.n with
  | none => .next s
  | some v =>
    let s := s.updCore cl co fun c => { c with vers := c.vers.map fun o => if o.id = v.id then { o with retired := true } else o }
    let s := cmdEvent (s.sched (s.tick + 320) s.cur .versionCommit) ⟨cl, co, 16⟩ 2 1 0 0 v.h
    match triggers c v with
    | none => .next (kickStreams s cl co)
    | some a =>
      let s := s.updCore cl co fun c => { c with arms := c.arms.filter fun o => o.tile != v.tile }
      let (data, ver) := (s.core cl co).tileRetired v.tile
      .next (kickStreams (startEpi s cl co a.e a.port s.tick data ver a.h a.seq) cl co)
/-- Log a tile's old words for the core's block (R197). -/
def logTile (c : Core) (t n : Nat) : Core :=
  if c.bpc = 1 then { c with blocks := c.blocks.map fun b =>
    if b.ended then b else b.addLog t (.acc n (c.tileC n)) } else c
/-- The versions that stay pending when one commits: those of its tile that started before it are stale from then on. -/
def leftVers (v : Ver) : List Ver → List Ver
  | [] => []
  | o :: t => if o.id = v.id then t else (if o.tile = v.tile then { o with stale := true } else o) :: leftVers v t
/-- VERSION_COMMIT (R194, R331): the version becomes the committed tile, unless a later command's has become it; sends that
wait for it begin. -/
def execVersionCommit (s : State) : Out :=
  let cl := s.cur.cl
  let co := s.cur.co
  match (s.core cl co).vers.find? fun v => v.id == s.cur.n with
  | none => .next s
  | some v =>
    let s := s.updCore cl co fun c =>
      if v.stale then { c with vers := c.vers.filter fun o => o.id != v.id } else
      let c := logTile c s.tick v.tile
      { c with
        vers := leftVers v c.vers
        accC := v.data.foldl (fun m e => Sparse.set (0 : Word) m (v.tile * 4096 + e.1) e.2)
          (c.accC.filter fun e => e.1 / 4096 != v.tile) }
    let s := s.sched s.tick ⟨cl, co, 0⟩ .matrixCommandStart
    .next (((s.core cl co).jobs.filter fun j => j.verId == some v.id).foldl (fun s j =>
      let s := s.updCore cl co fun c => { c with jobs := c.jobs.map fun o => if o.id = j.id then { o with verId := none } else o }
      if 0 < j.row then s.sched s.tick ⟨cl, co, j.id⟩ .epilogueSend else s) s)

/-! ### Gather and compression (R328, R329) -/

/-- The number of a gather command's lock, which numbers presentations in their order. -/
def MCmd.lock (q : MCmd) : Nat := (q.h.vals.getLastD 0).toNat
/-- Whether an MGATH must wait for MMAs presented before it that read its latch (R328). -/
def latchBusy (c : Core) (t lid : Nat) (lsel : Bool) : Bool :=
  (c.matq.any fun q => decide ((nth q.h.vals 0 0).toNat < lid) &&
      (match q.h.i with | .mma _ true l => l == lsel | _ => false)) ||
    c.locks.any fun l => l.win == 1000 + b2n lsel && l.spans.any (fun p => decide (p.1 < lid)) &&
      (match l.until_ with | some u => decide (t < u) | none => true)
/-- A command of the gather unit faults (R321, R407): its latch, or the windows that it writes, take the record. -/
def gatherFault (s : State) (cl co : Nat) (q : MCmd) (r : Rec) : State :=
  let s := unlock s cl co fun k => k.id == q.lock
  match q.h.i with
  | .mgath _ _ _ _ lsel => s.updCore cl co fun c =>
    { c with latches := setNth {} c.latches (b2n lsel) { nth c.latches (b2n lsel) {} with fault := some r } }
  | _ => (q.h.wins.drop 1).foldl (fun s n =>
    if (s.win cl co n).state = .faulted then s else faultWinRec s cl co n r) s
/-- GATHER_START (R328): the unit's next command starts when its source is ready. -/
def execGatherStart (s : State) : Out :=
  let cl := s.cur.cl
  let co := s.cur.co
  let c := s.core cl co
  if c.halt then .next s
  else match c.gatq.findSome? fun q => (faultedWin c q).map fun r => (q, r) with
  | some (q, r) =>
    let s := s.updCore cl co fun c => { c with gatq := c.gatq.filter fun p => p.seq != q.seq }
    .next ((gatherFault s cl co q r).sched s.tick s.cur .gatherStart)
  | none =>
    match c.gatRun, c.gatq with
    | some _, _ | none, [] => .next s
    | none, q :: rest =>
      let src := c.win (nth q.h.wins 0 0)
      let busy : Bool := match q.h.i with | .mgath _ _ _ _ lsel => latchBusy c s.tick q.lock lsel | _ => false
      let len := match q.h.i with | .cmprs .. => 128 | _ => 64
      if busy ∨ !winReady src then .next s
      else match operandFault c q.h.i q.h.wins with
        | some (k, n) =>
          let s := s.updCore cl co fun c => { c with gatq := rest }
          .next ((gatherFault s cl co q (tileRec s ⟨cl, co, 16⟩ q.h 2 0 q.seq
            { cls := 0x0C, sub := k, d0 := BitVec.ofNat 64 k, d1 := BitVec.ofNat 64 n })).sched s.tick s.cur .gatherStart)
        | none =>
          .next ((s.updCore cl co fun c => { c with
            gatq := rest, gatRun := some q, gatBusy := s.tick + len
            locks := c.locks.map fun l => if l.id = q.lock then
              { l with until_ := some (s.tick + len) } else l }).sched (s.tick + len) s.cur .gatherComplete)
/-- Rank of an element in CMPRS: NaN above all, then magnitude (R329). -/
def magLe (a b : Num) : Bool :=
  match a, b with
  | _, .nan _ => true
  | .nan _, _ => false
  | _, .inf _ => true
  | .inf _, _ => false
  | .fin _ m e, .fin _ n f => decide (m * 2 ^ (e - min e f).toNat ≤ n * 2 ^ (f - min e f).toNat)
/-- Positions kept of one group: the largest magnitudes, the lower position on ties, ascending. -/
def keepOf (vals : List Num) (keep : Nat) : List Nat :=
  (List.range vals.length).filter fun i =>
    let v := nth vals i (.fin false 0 0)
    let better := (List.range vals.length).filter fun j =>
      let u := nth vals j (.fin false 0 0)
      j != i && (if magLe u v then (magLe v u && decide (j < i)) else true)
    decide (better.length < keep)
/-- The compressed row and its metadata (R327, R329). -/
def compressRow (t : Ty) (k : Nat) (sp48 : Bool) (row : List Byte) : List Byte × List Byte :=
  let keep := if sp48 then 4 else 2
  let g := 2 * keep
  let picks := (List.range (2 * k / g)).map fun n =>
    (keepOf ((List.range g).map fun i => tyNum t (unpackElem t.bits row (g * n + i))) keep).map fun p => (g * n + p, p)
  let flat := picks.flatten
  (toBytes (k * t.bits / 8) (packNat t.bits (flat.map fun p => unpackElem t.bits row p.1)),
    toBytes (if sp48 then 3 * 2 * k / 16 else 2 * k / 8) (packNat (if sp48 then 3 else 2) (flat.map (·.2))))
/-- Deliver a row, zero beyond the data, sector by sector (R329). -/
def deliverRow (s : State) (cl co n : Nat) (off len : Nat) (bs : List Byte) : State :=
  (List.range (len / 64)).foldl (fun s k =>
    let d := ((bs.drop (64 * k)).take 64)
    if (s.win cl co n).state = .faulted then s
    else deliverTo s ⟨cl, co, off + 64 * k, 1, co, false, d ++ List.replicate (64 - d.length) 0⟩ n) s
/-- GATHER_COMPLETE (R325, R328, R329). -/
def execGatherComplete (s : State) : Out :=
  let cl := s.cur.cl
  let co := s.cur.co
  let c := s.core cl co
  match c.gatRun with
  | none => .next s
  | some q =>
    let e := c.win (nth q.h.wins 0 0)
    let s' := unlock (s.updCore cl co fun c => { c with gatRun := none }) cl co fun l => l.id == q.lock
    let s' := match q.h.i with
      | .mgath _ t _ _ lsel =>
        let scb := kOf t / 32
        let idx := (List.range 64).map fun k => (nth q.h.vals k 0).toNat
        let rows := idx.map fun k => if k < e.rows then
            spRead s cl co (e.sbase + k * e.sstride) (kOf t * t.bits / 8) else List.replicate (kOf t * t.bits / 8) 0
        let scls := idx.map fun k => if k < e.rows then spRead s cl co (e.scloff + k * scb) scb else List.replicate scb 0x7F
        s'.updCore cl co fun c => { c with latches := setNth {} c.latches (b2n lsel) ⟨some t, rows, scls, none⟩ }
      | .cmprs _ t _ _ _ sp48 =>
        let k := kOf t
        let nv := nth q.h.wins 1 0
        let nm := nth q.h.wins 2 0
        let rs := (List.range 64).map fun i => compressRow t k sp48 (spRead s cl co (e.sbase + i * e.sstride) (2 * k * t.bits / 8))
        let ev := c.win nv
        let em := c.win nm
        let s' := (List.range 64).foldl (fun s i =>
          let (v, m) := nth rs i ([], [])
          let s := deliverRow s cl co nv (ev.sbase + i * ev.sstride) ev.rbytes v
          deliverRow s cl co nm (em.sbase + i * em.sstride) em.rbytes m) s'
        deliverRow s' cl co nv ev.scloff ev.scllen (if t.isMx then spRead s cl co e.scloff (64 * (2 * k) / 32) else [])
      | _ => s'
    .next (kickEngines s' cl co)
/-- MGATH and CMPRS at presentation. -/
def presentGather (s : State) (cl co : Nat) (h : Held) : State :=
  let s := touchOperands s cl co h (h.wins.take 1)
  let s := s.updCore cl co fun c =>
    let c := { c with
      gatSeq := c.gatSeq + 1
      gatq := c.gatq ++ [⟨{ h with vals := h.vals ++ [BitVec.ofNat 64 c.lockId] }, c.gatSeq + 1, s.tick, none⟩] }
    lockWins c (h.wins.take 1)
  s.sched s.tick ⟨cl, co, 0⟩ .gatherStart

/-! ### Issue (R315 to R318, R321) -/

/-- The commands of the front thread that the matrix queue counts (R318). -/
def isMatrix (i : Instr) : Bool :=
  match i with
  | .mma .. | .mmas .. | .accz .. | .accmv .. | .accld .. => true
  | .epi e => e.now
  | _ => false
def matrixFull (x : Ctx) : Bool :=
  decide (8 ≤ x.c.matq.length + (x.me.allHeld.filter fun h => isMatrix h.i).length)
/-- Take the fault of a faulted tile that the instruction names (R321). -/
def withTiles (x : Ctx) (ts : List (BitVec 7)) (k : Out) : Out :=
  match ts.findSome? fun t => (assoc x.c.tileFault t.toNat).map fun r => (t.toNat, r) with
  | some (t, r) => .next (raiseRec x (x.s.updCore x.w.cl x.w.co fun c => { c with tileFault := assocDel c.tileFault t }) r)
  | none => k
/-- Resolve handles to windows, in order (R317). -/
def withHandles (x : Ctx) : List (BitVec 4) → List Nat → (List Nat → Out) → Out
  | [], ns, k => k ns
  | h :: t, ns, k => withHandle x h true fun n _ => withHandles x t (ns ++ [n]) k
/-- Issue a command of an engine: operand checks, region, queue room, then held. -/
def issueCmd (x : Ctx) (i : Instr) (wins : List Nat) (vals : List DWord) : Out :=
  match operandFault x.c i wins with
  | some (k, n) => trap x { cls := 0x0C, sub := k, d0 := BitVec.ofNat 64 k, d1 := BitVec.ofNat 64 n }
  | none =>
    match regionCause x [] with
    | some k => illegalRegion x k
    | none =>
      if isMatrix i ∧ matrixFull x then retryHere x
      else .next (finish x (emit x.s x.w (x.hold i [] vals wins)) {})
def xctx (s : State) (park : Bool) : Ctx := s.ctx ⟨park, 0, false⟩
/-- MMA (R324). -/
def execMma (o : MmaF) (ga lsel : Bool) (s : State) : Out :=
  let x := xctx s o.park
  withTiles x [o.acc] <|
    match ga, (nth x.c.latches (b2n lsel) {}).fault with
    | true, some r => .next (raiseRec x (s.updCore x.w.cl x.w.co fun c => { c with
        latches := setNth {} c.latches (b2n lsel) { nth c.latches (b2n lsel) {} with fault := none } }) r)
    | _, _ => withHandles x (if ga then [o.hb] else [o.ha, o.hb]) [] fun ws => issueCmd x (.mma o ga lsel) ws []
/-- MMAS (R326). -/
def execMmas (o : MmaF) (hm : BitVec 4) (sp48 : Bool) (s : State) : Out :=
  let x := xctx s o.park
  withTiles x [o.acc] (withHandles x [o.ha, o.hb, hm] [] fun ws => issueCmd x (.mmas o hm sp48) ws [])
/-- A scratchpad image that an instruction reads at issue (R321 code 3): its offset, or none. -/
def imageAt (x : Ctx) (a : DWord) (align n : Nat) : Option Nat :=
  let off := bits a 0 24
  if bits a 24 40 = 0 ∧ off % align = 0 ∧ off + n ≤ x.c.scSize ∧
      (List.range ((off % 64 + n + 63) / 64)).all (fun k => Sparse.get false x.c.scInit (off / 64 + k)) then some off
  else none
def badImage (x : Ctx) (a : DWord) : Out :=
  trap x { cls := 0x0C, sub := 3, d0 := 3, d1 := BitVec.ofNat 64 (bits a 0 24) }
/-- MGATH (R328). -/
def execMgath (park : Bool) (ta : Ty) (ha : BitVec 4) (sb : BitVec 8) (lsel : Bool) (s : State) : Out :=
  let x := xctx s park
  let a := x.sc sb 0
  match (nth x.c.latches (b2n lsel) {}).fault with
  | some r => .next (raiseRec x (s.updCore x.w.cl x.w.co fun c => { c with
      latches := setNth {} c.latches (b2n lsel) { nth c.latches (b2n lsel) {} with fault := none } }) r)
  | none =>
    withHandles x [ha] [] fun ws =>
      match imageAt x a 128 128 with
      | none => badImage x a
      | some off => issueCmd x (.mgath park ta ha sb lsel) ws
          ((List.range 64).map fun k => BitVec.ofNat 64 (leNat (spRead s x.w.cl x.w.co (off + 2 * k) 2)))
/-- CMPRS (R329). -/
def execCmprs (park : Bool) (ta : Ty) (ha hv hm : BitVec 4) (sp48 : Bool) (s : State) : Out :=
  let x := xctx s park
  withHandles x [ha, hv, hm] [] fun ws => issueCmd x (.cmprs park ta ha hv hm sp48) ws []
/-- ACCZ, ACCMV, ACCLD (R330). -/
def execAccz (park : Bool) (acc : BitVec 7) (s : State) : Out :=
  let x := xctx s park
  withTiles x [acc] (issueCmd x (.accz park acc) [] [])
def execAccmv (park : Bool) (acc src : BitVec 7) (s : State) : Out :=
  let x := xctx s park
  withTiles x [acc, src] (issueCmd x (.accmv park acc src) [] [])
def execAccld (park : Bool) (tacc : Ty) (acc : BitVec 7) (ha : BitVec 4) (s : State) : Out :=
  let x := xctx s park
  withTiles x [acc] (withHandles x [ha] [] fun ws => issueCmd x (.accld park tacc acc ha) ws [])

end Sys2Proof.Machine
end

