-- ==== Sys2Proof/Machine/Epilogue.lean ====
section
/-!
DEFINITION. The epilogue unit: ports, arming, conversion of rows, local writes, sends and add-on-stores (R332
to R338).
-/
namespace Sys2Proof.Machine

/-! ### Conversion of a row (R334, R335) -/

/-- A 32-bit whole number as an exact value. -/
def intNum (a : Word) : Num := .fin (a.toInt < 0) a.toInt.natAbs 0
/-- An element that is not part of an MX block, with its flags. -/
def epiElem (e : EpiF) (alpha a u : Word) : Nat × BitVec 5 :=
  let al := tyNum .f32 alpha.toNat
  match e.tacc, e.tres with
  | .i32, .i32 => (a.toNat, 0)
  | .i32, .i8 =>
    let r := toIntRange e.rnd (-128) 127 (al.mul (intNum a)).1 u
    ((BitVec.ofInt 8 r.1).toNat, r.2)
  | .i32, t => finishArith t e.rnd e.sat al.sig (al.mul (intNum a)) u
  | _, t =>
    let v := tyNum .f32 a.toNat
    finishArith t e.rnd e.sat (al.sig || v.sig) (al.mul v) u
/-- The random word of element (i, n). -/
def epiDraw (c : Core) (j : EpJob) (i n : Nat) : Word :=
  philox (j.port.idx + BitVec.ofNat 32 (64 * j.e.tr.toNat + j.e.tc.toNat))
    (BitVec.ofNat 32 ((c.iss 16).block % 2 ^ 24 * 2 ^ 8 + n / 4))
    (BitVec.ofNat 32 (0xF * 2 ^ 28 + i % 64 * 2 ^ 21)) (BitVec.ofNat 32 (c.launch % 2 ^ 31)) (c.iss 16).seed n
/-- One MX block of a row: its scale, its elements, and the flags. -/
def epiBlock (c : Core) (j : EpJob) (i b : Nat) (a : Nat → Word) : Nat × List Nat × BitVec 5 :=
  let al := tyNum .f32 j.port.alpha.toNat
  let xs := (List.range 32).map fun k =>
    let n := 32 * b + k
    let v := tyNum .f32 (a n).toNat
    let r := finishArith .f32 .rne false (al.sig || v.sig) (al.mul v) 0
    (r, epiDraw c j i n)
  let q := mxQuantise j.e.tres j.e.rnd (xs.map fun x => (tyNum .f32 x.1.1, x.2))
  (q.1, q.2.1, xs.foldl (fun f x => f ||| x.1.2) q.2.2)
/-- Row i of the tile: its elements' bytes, its scale bytes, and its flags. -/
def epiRow (c : Core) (j : EpJob) (i : Nat) : List Byte × List Byte × BitVec 5 :=
  let a := fun n => Sparse.get (0 : Word) j.data (64 * i + n)
  let w := j.e.tres.bits
  if j.e.tres.isMx then
    let b0 := epiBlock c j i 0 a
    let b1 := epiBlock c j i 1 a
    (toBytes (8 * w) (packNat w (b0.2.1 ++ b1.2.1)), [BitVec.ofNat 8 b0.1, BitVec.ofNat 8 b1.1], b0.2.2 ||| b1.2.2)
  else
    let es := (List.range 64).map fun n => epiElem j.e j.port.alpha (a n) (epiDraw c j i n)
    (toBytes (8 * w) (packNat w (es.map (·.1))), [], es.foldl (fun f e => f ||| e.2) 0)
/-- Cut bytes at sector boundaries. -/
def cutSectors : Nat → DWord → List Byte → List (DWord × List Byte)
  | 0, _, _ => []
  | f + 1, a, bs =>
    if bs.isEmpty then []
    else
      let n := 64 - a.toNat % 64
      (a, bs.take n) :: cutSectors f (a + BitVec.ofNat 64 n) (bs.drop n)
/-- The sectors of row i in address order of formation: elements, then scales (R335, R336). -/
def epiSectors (j : EpJob) (i : Nat) (els scls : List Byte) : List (DWord × List Byte) :=
  let r : Int := ((64 * j.e.tr.toNat + i : Nat) : Int)
  cutSectors 8 (j.port.base + dw (r * j.port.rstride + (8 * j.e.tres.bits * j.e.tc.toNat : Nat))) els ++
    cutSectors 8 (j.port.sclbase + dw (r * (j.port.srowb : Int) + (2 * j.e.tc.toNat : Nat))) scls
/-- Space 4, or space 5 naming the issuing core (R336). -/
def epiLocal (co : Nat) (a : DWord) : Bool := spaceOf a == 4 || (spaceOf a == 5 && bits a 24 6 == co)

/-- An add-on-store into a scratchpad (R337): one in a valid window is rejected; else checks 1 and 2 of
R44, and the sums are written. -/
def poolAos (s : State) (cl tc off : Nat) (t : Ty) (data : List Byte) (psn : Bool) : Option Nat × State :=
  let c := s.core cl tc
  if !(c.winsAt off).isEmpty then (none, s)
  else if c.scSize < off + data.length then (some 7, s)
  else if (List.range data.length).any fun k => c.locked s.tick (off + k) then (some 8, s)
  else
    let s := spWrite s cl tc off (engineBytes (spRead s cl tc off data.length) data (some (t, 0)))
    (none, if psn then spPoison s cl tc (off / 64) else s)
/-- One local sector of a row (R336): a landing, poisoned when its check code fails (R193). -/
def epiLocalWrite (s : State) (w : Iss) (j : EpJob) (a : DWord) (bs : List Byte) : State :=
  match poolAddr w.co a with
  | none => epiFail s w.cl w.co j.id false { cls := 3, sub := 7, addr := a }
  | some (tc, off) =>
    let (bad, s) := landCheck s
    let r := if j.e.aos then poolAos s w.cl tc off j.e.tres bs bad
      else deliverAt s ⟨w.cl, tc, off, 1, w.co, bad, bs⟩
    match r with
    | (none, s) => s
    | (some k, s) => epiFail s w.cl w.co j.id false { cls := 3, sub := k, addr := a }

def State.mapJob (s : State) (w : Iss) (f : EpJob → EpJob) : State :=
  s.updCore w.cl w.co fun c => { c with jobs := c.jobs.map fun j => if j.id = w.n then f j else j }

/-- EPILOGUE_ROW (R336): the next row forms; its local sectors are written, the others wait to be sent. At
the last row the flags go to the front thread (R334). -/
def execEpilogueRow (s : State) : Out :=
  let w := s.cur
  let c := s.coreOf w
  match c.jobs.find? fun j => j.id == w.n with
  | none => .next s
  | some j =>
    if 64 ≤ j.row then .next s
    else
      let (els, scls, fl) := epiRow c j j.row
      let secs := epiSectors j j.row els scls
      let (here, away) := secs.partition fun x => epiLocal w.co x.1
      let s := here.foldl (fun s x => epiLocalWrite s w j x.1 x.2) s
      let s := s.mapJob w fun j => { j with row := j.row + 1, sends := j.sends ++ away, flags := j.flags ||| fl }
      let s := if j.row = 0 ∧ j.verId = none then s.sched s.tick w .epilogueSend else s
      if j.row = 63 then
        .next (s.updIss ⟨w.cl, w.co, 16⟩ fun me => { me with
          flags := me.flags ||| (j.flags ||| fl).setWidth 64 })
      else .next (s.sched (s.tick + 1) w .epilogueRow)
/-- Present one send sector (R336, R338); on a checked page it is compared where it is written (R144, R145). -/
def epiSend (s : State) (w : Iss) (j : EpJob) (a : DWord) (bs : List Byte) : State :=
  let c := s.coreOf w
  let sp := spaceOf a
  let iss : Iss := ⟨w.cl, w.co, 16⟩
  let fail := fun (s : State) (i : TrapInfo) => epiFail s w.cl w.co j.id true { i with addr := a }
  let req := fun (id space bound sec off : Nat) (chk mir : Bool) => ({
    id := id, kind := if j.e.aos then .aos else .send, w := iss, h := j.h, space := space
    dest := [(j.id, j.e.acc.toNat)], lanes := [], results := [], issued := s.tick, bound := bound
    sectors := [sec], psn := false, stat := 0, rnum := j.h.rnum, tenant := c.tenant, chk := chk, arrived := false
    data := bs, aux := if j.e.aos then j.e.tres.code else sec, mir := mir, off := off, stamps := [(64, a.toNat)] } : Req)
  if sp = 5 then
    match poolAddr w.co a with
    | none => fail s { cls := 3, sub := 7 }
    | some (tc, off) =>
      if j.e.aos then
        let (id, s) := s.fresh
        let q := req id 5 (s.tick + 28) (tc * 2 ^ 24 + off) 0 false false
        (s.updChip fun h => { h with reqs := h.reqs ++ [q] }).sched (s.tick + 28) (obj id) .addOnStoreApply
      else s.sched (s.tick + 28) ⟨w.cl, w.co, j.id⟩ (.windowLanding ⟨w.cl, tc, off, 1, w.co, false, bs⟩)
  else if 3 < sp then fail s { cls := 3, sub := 1 }
  else
    let s := watchEngine s j.h iss false (taskOf 3 j.e.port.toNat j.seq) a bs.length (BitVec.ofNat 64 (leNat (bs.take 8)))
    match translate s w.cl c.ptw (if j.e.aos then .aos else .write) a with
    | (.error i, s) => fail s i
    | (.ok (pa, pte), s) =>
      let (id, s) := s.fresh
      startReqAt s (req id sp (s.tick + (if sp = 0 then 2400 else 4000)) (pa / 64) (pa % 64) (bit pte 5) (bit pte 8)) [a]
/-- EPILOGUE_SEND (R336): the next send sector is presented; the one after it a fill period later. -/
def execEpilogueSend (s : State) : Out :=
  let w := s.cur
  let c := s.coreOf w
  match c.jobs.find? fun j => j.id == w.n with
  | none => .next s
  | some j =>
    if j.stopped then .next s
    else match j.sends[j.sent]? with
      | none =>
        -- A sector that has not formed at its tick goes out when it has.
        if j.row < 64 then .next (s.sched (s.tick + 1) w .epilogueSend)
        else .next (cmdEvent s ⟨w.cl, w.co, 16⟩ 2 3 j.e.port.toNat j.seq j.h)
      | some (a, bs) =>
        let s := epiSend s w j a bs
        let s := s.mapJob w fun k => { k with sent := k.sent + 1, sendBase := s.tick }
        if j.sent + 1 < j.sends.length ∨ j.row < 64 then
          .next (s.sched (s.tick + (if spaceOf a = 5 then 1 else c.fill)) w .epilogueSend)
        else .next (cmdEvent s ⟨w.cl, w.co, 16⟩ 2 3 j.e.port.toNat j.seq j.h)
/-- ADD_ON_STORE_APPLY (R337, R127): a contribution is added to its sector as one step. -/
def execAddOnStoreApply (s : State) : Out :=
  match s.req s.cur.n with
  | none => .next s
  | some q =>
    match q.sectors with
    | [] => .next s
    | sec :: _ =>
      if q.space < 4 then .next (answerSector (applySector s q sec .good) q.id)
      else
        let (bad, s) := landCheck s
        match poolAos (s.delReq q.id) q.w.cl (sec / 2 ^ 24) (sec % 2 ^ 24) (Ty.ofCode q.aux) q.data bad with
        | (none, s) => .next s
        | (some k, s) => .next (epiFail s q.w.cl q.w.co (nth (q.dest.map (·.1)) 0 0) true
            { cls := 3, sub := k, addr := BitVec.ofNat 64 (5 * 2 ^ 60 + sec) })

/-! ### EPSET and EPI (R332, R333) -/

/-- EPSET (R332): the descriptor is read and checked at issue. -/
def execEpset (park : Bool) (port : BitVec 2) (sa : BitVec 8) (s : State) : Out :=
  let x := xctx s park
  let a := x.sc sa 0
  match imageAt x a 32 32 with
  | none => badImage x a
  | some off =>
    let im := s.dwords (keySp x.w.cl x.w.co off) 4
    let base := nth im 0 0
    if 5 < spaceOf base || bits base 0 6 != 0 || bits (nth im 1 0) 0 6 != 0 || 5 < spaceOf (nth im 2 0) ||
        bits (nth im 3 0) 48 16 != 0 then
      trap x { cls := 0x0C, sub := 4, d0 := 4, d1 := BitVec.ofNat 64 off }
    else issueCmd x (.epset park port sa) [] im
/-- EPSET at presentation: the port takes the value, and the port's command number advances (R404). -/
def presentEpset (s : State) (cl co : Nat) (port : BitVec 2) (h : Held) : State :=
  s.updCore cl co fun c =>
    let seq := (nth c.ports port.toNat {}).seq + 1
    { c with ports := setNth {} c.ports port.toNat { parsePort h.vals with seq := seq } }
/-- EPI (R333). -/
def execEpi (o : EpiF) (s : State) : Out :=
  let x := xctx s o.park
  withTiles x [o.acc] (issueCmd x (.epi o) [] [])
/-- EPI at presentation: it captures its port, and is armed or enters the queue. -/
def presentEpi (s : State) (cl co : Nat) (o : EpiF) (h : Held) : State :=
  let n := o.port.toNat
  let s := s.updCore cl co fun c => { c with
    ports := setNth {} c.ports n { nth c.ports n {} with seq := (nth c.ports n {}).seq + 1 } }
  let p := nth (s.core cl co).ports n {}
  let im := [p.base, dw p.rstride &&& 0xFFFFFFFF ||| p.alpha.setWidth 64 <<< 32, p.sclbase,
    BitVec.ofNat 64 (p.srowb + p.idx.toNat * 2 ^ 16), BitVec.ofNat 64 p.seq]
  if o.now then presentMatrix s cl co { h with vals := im } none
  else s.updCore cl co fun c => { c with
    arms := (c.arms.filter fun a => a.tile != o.acc.toNat) ++
      [⟨o.acc.toNat, o, p, s.tick, { h with vals := [BitVec.ofNat 64 p.seq] }, p.seq⟩] }

end Sys2Proof.Machine
end

