-- ==== Sys2Proof/Machine/Engine.lean ====
section
/-!
DEFINITION. Engine-program streams: EFORK and ERDV, command fetch and start, copies, waits, signals, loops and
the end of a stream (R169, R339 to R344).
-/
namespace Sys2Proof.Machine

/-- Stream number sn of a core. -/
def State.stream (s : State) (w : Iss) : Stream := nth (s.coreOf w).streams w.n {}
def State.updStream (s : State) (w : Iss) (f : Stream → Stream) : State :=
  s.updCore w.cl w.co fun c => { c with streams := setNth {} c.streams w.n (f (nth c.streams w.n {})) }
/-- What a stream's command carries of the EFORK that started it. -/
def Stream.held (st : Stream) : Held := st.h.getD ⟨.eend, [], [], [], 0, 0, 0⟩
/-- What happens before a stream's commands: what its EFORK's issuer did before it, and what its waits have acquired. -/
def streamClock (s : State) (w : Iss) : Clock :=
  joinClock s (s.stream w).hb (clockOf s ⟨w.cl, w.co, 16⟩ (s.stream w).held.itick)
/-- A fault of a stream's command stops the stream; it is its issuer's or the tile task's (R344, R406, R407). A faulted
stream keeps its first record. -/
def streamErr (s : State) (w : Iss) (h : Held) (i : TrapInfo) : State :=
  if (s.stream w).fault.isSome then s
  else engineFault (s.updStream w fun st => { st with running := false }) ⟨w.cl, w.co, 16⟩ h i fun s =>
    streamStop s w.cl w.co w.n (streamRec s w.cl w.co w.n h i)
/-- An engine program fault and the like: the command stands back words before the read position, and a
fault of class 0x0E carries its word and offset (R344, R405). -/
def streamFault (s : State) (w : Iss) (back : Nat) (i : TrapInfo) : State :=
  let st := s.stream w
  let at_ := st.pos - 8 * back
  let i := if i.cls = 0x0E then { i with d0 := s.dword (keySp w.cl w.co at_), d1 := BitVec.ofNat 64 at_ } else i
  streamErr s w st.held i

/-! ### EFORK, ERDV and the end of a stream (R339) -/

/-- Start a stream at its command address. -/
def startStream (s : State) (w : Iss) (h : Held) : State :=
  kickStreams (s.updStream w fun st => { st with
    running := true, pos := bits (nth h.vals 0 0) 0 24, lc := 0, iter := 0, wait := .ready, psn := false
    hb := clockOf s ⟨w.cl, w.co, 16⟩ h.itick, h := some { h with vals := [] } }) w.cl w.co
/-- EFORK at presentation: held while the stream runs or an earlier one is held. -/
def presentEfork (s : State) (cl co : Nat) (n : BitVec 2) (h : Held) : State :=
  let w : Iss := ⟨cl, co, n.toNat⟩
  if (s.stream w).running || (s.stream w).fault.isSome || (s.core cl co).efq.any fun e => e.1 == w.n then
    s.updCore cl co fun c => { c with efq := c.efq ++ [(w.n, h)] }
  else startStream s w h
/-- A stream has ended: the oldest EFORK held for it starts. -/
def nextFork (s : State) (w : Iss) : State :=
  match (s.coreOf w).efq.find? fun e => e.1 == w.n with
  | none => s
  | some e => startStream (s.updCore w.cl w.co fun c => { c with efq := c.efq.erase e }) w e.2
/-- Deliver a faulted stream's record at the instruction that names it (R321). The stream has ended: an EFORK held for it
starts (DEDUCED, log 24). -/
def streamRaise (x : Ctx) (n : BitVec 2) (r : Rec) : Out :=
  let w : Iss := ⟨x.w.cl, x.w.co, n.toNat⟩
  .next (raiseRec x (nextFork (x.s.updStream w fun st => { st with fault := none }) w) r)
/-- EFORK (R339). -/
def execEfork (park : Bool) (n : BitVec 2) (sa : BitVec 8) (s : State) : Out :=
  let x := xctx s park
  let a := x.sc sa 0
  match (s.stream ⟨x.w.cl, x.w.co, n.toNat⟩).fault with
  | some r => streamRaise x n r
  | none =>
    match imageAt x a 8 8 with
    | none => badImage x a
    | some _ => issueCmd x (.efork park n sa) [] [a]
/-- ERDV (R339): it parks until every earlier EFORK of the stream has been presented and has ended. -/
def execErdv (park : Bool) (n : BitVec 2) (s : State) : Out :=
  let x := xctx s park
  let st := s.stream ⟨x.w.cl, x.w.co, n.toNat⟩
  match st.fault with
  | some r => streamRaise x n r
  | none =>
    match regionCause x [] with
    | some k => illegalRegion x k
    | none =>
      let held := x.me.allHeld.any fun h => match h.i with | .efork _ k _ => k == n | _ => false
      if st.running || held || x.c.efq.any fun e => e.1 == n.toNat then retryHere x
      else .next (finish x s {})

/-! ### Fetch and start of commands (R169, R340) -/

/-- Whether every copy and drain of a stream has completed and every EMMA has retired (R340, R343). -/
def streamQuiet (s : State) (w : Iss) : Bool :=
  let c := s.coreOf w
  (s.stream w).copies.isEmpty && !(c.drains.any fun d => d.stm == some w.n) &&
    !(c.wcmds.any fun k => match k.h.i with | .edrain _ => k.slot == w.n | _ => false) &&
    !(c.matq.any fun q => q.stm == some w.n) &&
    !(c.vers.any fun v => !v.retired && nth v.h.vals 1 0 == BitVec.ofNat 64 (w.n + 1))
/-- A word of the command string, when its fetch passes R44 checks 1 and 5. -/
def streamWord (s : State) (w : Iss) (off : Nat) : Option DWord :=
  let c := s.coreOf w
  if off + 8 ≤ c.scSize ∧ Sparse.get false c.scInit (off / 64) then some (s.dword (keySp w.cl w.co off)) else none
/-- A command from its word: the command and how many words it takes; none when a bit or its code is
unassigned (R340). -/
def streamDecode (word : DWord) (ops : List DWord) : Option (Instr × Nat) :=
  let code := bits word 56 7
  let types := bits word 40 16
  let low := fun n => bits word 0 n == 0
  let plain := !bit word 63 && types == 0
  let h := BitVec.ofNat 4 (bits word 36 4)
  match code with
  | 0 => if plain && low 20 && bits word 20 20 != 0 then
      some (.ecopy (bits word 20 20) (nth ops 0 0) (nth ops 1 0) (nth ops 2 0), 4) else none
  | 1 => if plain && low 36 then some (.efill h, 1) else none
  | 2 => if plain && low 36 then some (.edrain h, 1) else none
  | 3 => if !bit word 63 && bits word 37 3 < 2 then some (.emma word, 1) else none
  | 4 =>
    if !plain then none
    else match bits word 38 2 with
      | 0 => if low 34 then some (.ewait (.window (BitVec.ofNat 4 (bits word 34 4))), 1) else none
      | 1 => if low 26 then some (.ewait (.phaser (BitVec.ofNat 12 (bits word 26 12))), 1) else none
      | 2 => if bits word 32 6 = 0 then some (.ewait (.ticks (bits word 0 32)), 1) else none
      | _ => some (.ewait .bad, 1)
  | 5 => if plain && low 25 && bits word 37 3 < 5 then
      some (.esig (BitVec.ofNat 3 (bits word 37 3)) (BitVec.ofNat 12 (bits word 25 12)), 1) else none
  | 6 => if plain then some (.eloop (BitVec.ofNat 16 (bits word 24 16)) (BitVec.ofNat 24 (bits word 0 24)), 1) else none
  | 7 => if plain && low 40 then some (.eend, 1) else none
  | _ => none
/-- The command at a stream's read position: none when its fetch fails; a fault's SUB when it is
unassigned. -/
def streamNext (s : State) (w : Iss) : Option (Option (Instr × Nat)) :=
  let p := (s.stream w).pos
  match streamWord s w p with
  | none => none
  | some word =>
    if bits word 56 7 = 0 then
      let ops := [1, 2, 3].map fun k => streamWord s w (p + 8 * k)
      if ops.all (·.isSome) then some (streamDecode word (ops.map (·.getD 0))) else none
    else some (streamDecode word [])
/-- Whether a stream's wait is over (R342). -/
def streamWaitOver (s : State) (w : Iss) : Bool :=
  match (s.stream w).wait with
  | .ready | .sig | .end_ => true
  | .until_ t => decide (t ≤ s.tick)
  | .window n => let st := (s.win w.cl w.co n).state; st == .full || st == .faulted
  | .phaser ph => (phWaitDone s w 0 ph true).isSome
/-- Whether a stream is no member of a phaser, or one whose mode is not the one asked for (R306, R343). -/
def memberBad (s : State) (w : Iss) (ph : Nat) (ok : PhMode → Bool) : Bool :=
  !(s.coreOf w).phOk ph || (match (s.phaser ph).member w 0 true with | some m => !ok m.mode | none => true)
/-- Whether a signal of a stream has room (R309). -/
def sigRoom (s : State) (w : Iss) (ph : Nat) : Bool :=
  let p := s.phaser ph
  match p.member w 0 true with
  | some m => decide ((if m.inEffect then m.s else p.phase) + m.early < p.phase + 2)
  | none => true
/-- Whether a stream's next command can start (R169, R318, R340, R343). -/
def streamReady (s : State) (w : Iss) : Bool :=
  (s.stream w).running && streamWaitOver s w &&
    (match streamNext s w with
     | some (some (.emma _, _)) => decide ((s.coreOf w).matq.length < 8)
     | some (some (.eend, _)) => streamQuiet s w
     | some (some (.esig sub ph, _)) => sub != 0 || (streamQuiet s w && sigRoom s w ph.toNat)
     | _ => true)
/-- Finish a stream's wait: a phaser wait advances V; a faulted window faults the stream (R342). -/
def endWait (s : State) (w : Iss) : State :=
  let s := match (s.stream w).wait with
    | .phaser ph =>
      (match phWaitDone s w 0 ph true, (s.phaser ph).member w 0 true with
       | some (_, s'), some m => s'.updStream w fun st => { st with hb := joinClock s' st.hb ((s.phaser ph).before m.v) }
       | _, _ => s)
    | .window n =>
      (match (s.win w.cl w.co n).state, (s.win w.cl w.co n).fault with
       | .faulted, some r => streamStop s w.cl w.co w.n r
       | _, _ => s)
    | _ => s
  s.updStream w fun st => { st with wait := .ready }
/-- STREAM_COMMAND_START (R169): one start a tick, offered from stream (tick mod 4) on. -/
def execStreamCommandStart (s : State) : Out :=
  let cl := s.cur.cl
  let co := s.cur.co
  if (s.core cl co).halt || (s.core cl co).parked.contains 17 then .next s
  else if s.tick < (s.core cl co).strAt then .next (s.sched (s.core cl co).strAt s.cur .streamCommandStart)
  else
    match ((List.range 4).map fun k => (⟨cl, co, (s.tick + k) % 4⟩ : Iss)).find? (streamReady s) with
    | none => .next s
    | some w =>
      let s := endWait (s.updCore cl co fun c => { c with strAt := s.tick + 1 }) w
      let s := s.sched (s.tick + 1) ⟨cl, co, 0⟩ .streamCommandStart
      if !(s.stream w).running then .next s
      else
        let s := s.updStream w fun st => { st with seq := st.seq + 1 }
        match streamNext s w with
        | none => .next (streamFault s w 0 { cls := 0x0E, sub := 1 })
        | some none => .next (streamFault s w 0 { cls := 0x0E, sub := 2 })
        | some (some (i, n)) =>
          .next ((s.updStream w fun st => { st with pos := st.pos + 8 * n }).sched s.tick w i)

/-! ### The commands (R340 to R343) -/

/-- The window that a stream's handle names now: none when it is unbound or faulted (then the stream
stops, with the window's record if it has one). -/
def streamWin (s : State) (w : Iss) (h : BitVec 4) : Except State Nat :=
  match (s.coreOf w).handleWin h.toNat with
  | none => .error (streamFault s w 1 { cls := 0x0E, sub := 2 })
  | some n =>
    match (s.win w.cl w.co n).state, (s.win w.cl w.co n).fault with
    | .faulted, some r => .error (streamStop s w.cl w.co w.n r)
    | _, _ => .ok n
/-- EFILL (R340): a touch. -/
def execEfill (h : BitVec 4) (s : State) : Out :=
  match streamWin s s.cur h with
  | .error s => .next s
  | .ok n => .next (touch s ⟨s.cur.cl, s.cur.co, 16⟩ n none)
/-- EDRAIN (R340): WDRAIN at the start. -/
def execEdrain (h : BitVec 4) (s : State) : Out :=
  match streamWin s s.cur h with
  | .error s => .next s
  | .ok n =>
    let hd := { (s.stream s.cur).held with i := .edrain h, wins := [n] }
    .next (submitWcmd s s.cur.cl s.cur.co ⟨hd, n, s.cur.n⟩)
/-- EMMA (R340): decoded as MMA or MMAS, its handles resolved now, into the matrix queue. -/
def execEmma (word : DWord) (s : State) : Out :=
  let w := s.cur
  let c := s.coreOf w
  let iw := BitVec.ofNat 64 ((0x70 + bits word 37 3) * 2 ^ 56 + bits word 40 16 * 2 ^ 40 + bits word 0 37)
  match decode { Env.wide true 3 with tiles := 4 * c.acc } iw with
  | .error _ => .next (streamFault s w 1 { cls := 0x0E, sub := 2 })
  | .ok i =>
    let hs := match i with
      | .mma o ga _ => if ga then [o.hb] else [o.ha, o.hb]
      | .mmas o hm _ => [o.ha, o.hb, hm]
      | _ => []
    let ws := hs.map fun h => streamWin s w h
    match ws.findSome? fun r => match r with | .error s => some s | .ok _ => none with
    | some s => .next s
    | none =>
      let ns := ws.filterMap fun r => match r with | .ok n => some n | .error _ => none
      match (destTile i).bind fun t => assoc c.tileFault t with
      | some r => .next (streamStop s w.cl w.co w.n r)
      | none =>
        let h := { (s.stream w).held with
          i := i, wins := ns, vals := [BitVec.ofNat 64 (w.n + 1), word, BitVec.ofNat 64 ((s.stream w).pos - 8)] }
        .next (presentMatrix s w.cl w.co h (some w.n))
/-- EWAIT (R342): the stream waits before its next command. -/
def execEwait (kind : StreamWait) (s : State) : Out :=
  let w := s.cur
  let wait := fun (s : State) (k : SWait) => s.updStream w fun st => { st with wait := k }
  match kind with
  | .window h =>
    match streamWin s w h with
    | .error s => .next s
    | .ok n => .next (kickStreams (wait s (.window n)) w.cl w.co)
  | .phaser ph =>
    if memberBad s w ph.toNat (· != .sig) ∨ waitTooOld s w 0 ph.toNat true then
      .next (streamFault s w 1 { cls := 0x0E, sub := 4 })
    else .next (kickStreams (wait s (.phaser ph.toNat)) w.cl w.co)
  | .ticks n => .next ((wait s (.until_ (s.tick + n))).sched (s.tick + n) w .streamWaitEnd)
  | .bad => .next (streamFault s w 1 { cls := 0x0E, sub := 3 })
/-- STREAM_WAIT_END (R342): a wait of ticks is over. -/
def execStreamWaitEnd (s : State) : Out := .next (kickStreams s s.cur.cl s.cur.co)
/-- ESIG (R343): signal, register or drop the stream as a member. A mode that forbids the signal or the wait, and a phase
too old to be told, are bad phasers too, as they are for a thread (R306, R310; DEDUCED, log 24). -/
def execEsig (sub : BitVec 3) (ph : BitVec 12) (s : State) : Out :=
  let w := s.cur
  let n := ph.toNat
  let mem := ((s.phaser n).member w 0 true).isSome
  let bad := match sub.toNat with
    | 0 => memberBad s w n signals
    | 1 | 2 | 3 => !(s.coreOf w).phOk n || mem
    | _ => memberBad s w n fun _ => true
  if bad then .next (streamFault s w 1 { cls := 0x0E, sub := 4 })
  else match sub.toNat with
    | 0 => .next (phSignal (s.updStream w fun st => { st with psn := false }) n w 0 true (s.stream w).psn (streamClock s w))
    | 1 => .next (phRegister s n w 0 true .sig)
    | 2 => .next (phRegister s n w 0 true .wait)
    | 3 => .next (phRegister s n w 0 true .sw)
    | _ => .next (phDrop s n w 0 true)
/-- ELOOP (R340, R256): LOOP with the stream's counter; ITER counts the turns. A place below the scratchpad fails its fetch
as one past it does. -/
def execEloop (count : BitVec 16) (offs : BitVec 24) (s : State) : Out :=
  .next (kickStreams (s.updStream s.cur fun st =>
    let lc := if st.lc = 0 then count.toNat else st.lc
    if 1 < lc then
      let place : Int := (st.pos : Int) - 8 + 8 * offs.toInt
      { st with lc := lc - 1, iter := st.iter + 1, pos := if place < 0 then 2 ^ 24 else place.toNat }
    else { st with lc := 0, iter := 0 }) s.cur.cl s.cur.co)
/-- EEND (R339, R340): memberships are dropped and the stream ends; a held EFORK starts. -/
def execEend (s : State) : Out :=
  let w := s.cur
  let mine := (s.chip.phasers.filter fun p => (p.2.member w 0 true).isSome).map (·.1)
  let s := mine.foldl (fun s n => phDrop s n w 0 true) s
  .next (nextFork (s.updStream w fun st => { st with running := false }) w)

/-! ### Copies (R341) -/

/-- Read one sector of a copy: its request, which lands at its tick. One that cannot be read faults the stream; the copy's
other sectors go on (R344). -/
def copySector (s : State) (w : Iss) (cp : Copy) (t0 k : Nat) : State :=
  let c := s.coreOf w
  let a := cp.src + BitVec.ofNat 64 (64 * k)
  let sp := spaceOf a
  let land := t0 + fillL sp + k * (if sp = 4 ∨ sp = 5 then 1 else c.fill)
  let st := s.stream w
  let mk := fun (id space pa : Nat) (chk mir : Bool) (data : List Byte) (psn : Bool) => ({
    id := id, kind := .copyRd, w := w, h := st.held, space := space, dest := [(w.n, cp.id)], lanes := []
    results := [], issued := s.tick, bound := land, sectors := [pa / 64], psn := psn, stat := 0
    rnum := st.held.rnum, tenant := c.tenant, chk := chk, arrived := false, data := data, aux := k, mir := mir } : Req)
  let bad := fun (s : State) (i : TrapInfo) =>
    let s := copyDone s w.cl w.co w.n cp.id
    if (s.stream w).running then streamFault s w 4 { i with addr := a } else s
  if 3 < sp then
    match poolAddr w.co a with
    | some (tc, o) =>
      if o + 64 ≤ (s.core w.cl tc).scSize then
        let (id, s) := s.fresh
        let q := mk id sp 0 false false (spSector s w.cl tc o) ((s.core w.cl tc).psnAt o)
        (s.updChip fun h => { h with reqs := h.reqs ++ [q] }).sched land w (.copySectorLanding id)
      else bad s { cls := 3, sub := 7 }
    | none => bad s { cls := 3, sub := 7 }
  else
    match translate (watchEngine s st.held w true (taskOf 5 w.n st.seq) a 64 0) w.cl c.ptw .fill a with
    | (.error i, s) => bad s i
    | (.ok (pa, pte), s) =>
      let (id, s) := s.fresh
      (startReqAt s (mk id sp pa (bit pte 5) (bit pte 8) [] false) [a]).updReq id fun q => { q with hb := streamClock s w }
/-- ECOPY (R341): the stream goes on at once; the sectors land at their ticks. -/
def execEcopy (len : Nat) (src dst strides : DWord) (s : State) : Out :=
  let w := s.cur
  let it : Int := (s.stream w).iter
  let sa := src + dw (it * sext 32 (bits strides 0 32))
  let da := dst + dw (it * sext 32 (bits strides 32 32))
  match [sa, da].find? fun a => a.toNat % 64 != 0 || decide (5 < spaceOf a) with
  | some a => .next (streamFault s w 4 { cls := 3, sub := if a.toNat % 64 ≠ 0 then 5 else 1, addr := a })
  | none =>
    let cp : Copy := ⟨(s.coreOf w).copyId, len, sa, da, 0, false⟩
    let s := s.updCore w.cl w.co fun c => { c with copyId := c.copyId + 1 }
    let s := s.updStream w fun st => { st with copies := st.copies ++ [cp] }
    let t0 := s.tick
    .next ((List.range len).foldl (fun s k => copySector s w cp t0 k) s)
/-- Destination of a copy's sector. -/
def copyDest (s : State) (q : Req) : Option DWord :=
  ((s.stream q.w).copies.find? fun k => k.id == nth (q.dest.map (·.2)) 0 0).map fun k =>
    k.dst + BitVec.ofNat 64 (64 * q.aux)
/-- COPY_SECTOR_LANDING (R341): request k's sector is compared with its stamp (R134, R145) and lands at its destination,
poisoned when its check code fails (R193); a sector of an earlier copy of the stream for the same place lands first. -/
def execCopySectorLanding (k : Nat) (s : State) : Out :=
  match s.req k with
  | none => .next s
  | some q =>
    let w := q.w
    let id := nth (q.dest.map (·.2)) 0 0
    let da := (copyDest s q).getD 0
    if s.chip.reqs.any fun p => p.kind == .copyRd && p.w == w && decide (nth (p.dest.map (·.2)) 0 0 < id) &&
        copyDest s p == some da then .next (s.sched (s.tick + 1) s.cur (.copySectorLanding k))
    else
      let s := enterRemote ((logAnswer s q 0).delReq q.id) q
      let s := if q.psn then s.updStream w fun st => { st with psn := true } else s
      let c := s.coreOf w
      let sa := (((s.stream w).copies.find? fun c => c.id == id).map (·.src)).getD 0 + BitVec.ofNat 64 (64 * q.aux)
      let st := BitVec.ofNat 16 (((q.stamps.head?).map (·.2)).getD 0xC000)
      let stop := fun (s : State) (i : TrapInfo) => streamErr (copyDone s w.cl w.co w.n id) w q.h { i with addr := da }
      if q.chk && raceAt s w.cl sa (q.space == 1) st then
        .next (streamErr (copyDone s w.cl w.co w.n id) w q.h (raceInfo s w.cl sa st false none 1))
      else if 3 < spaceOf da then
        match poolAddr w.co da with
        | none => .next (stop s { cls := 3, sub := 7 })
        | some (tc, off) =>
          let (bad, s) := landCheck s
          match deliverAt s ⟨w.cl, tc, off, 1, w.co, q.psn || bad, q.data⟩ with
          | (none, s) => .next (copyDone s w.cl w.co w.n id)
          | (some e, s) => .next (stop s { cls := 3, sub := e })
      else
        match translate s w.cl c.ptw .write da with
        | (.error i, s) => .next (stop s i)
        | (.ok (pa, pte), s) =>
          let sp := spaceOf da
          let (nid, s) := s.fresh
          .next ((startReqAt s { q with
            id := nid, kind := .copyWr, space := sp, sectors := [pa / 64], issued := s.tick
            bound := s.tick + (if sp = 0 then 2400 else 4000), chk := bit pte 5, aux := pa / 64
            mir := bit pte 8, arrived := false, stamps := [(64, da.toNat)], badSecs := [] } [da]).updReq nid fun k =>
              { k with hb := streamClock s w })

end Sys2Proof.Machine
end

