-- ==== Sys2Proof/Machine/Fabric.lean ====
section
/-!
DEFINITION. The schedule table as the fabric reads it, flits, and collectives (R345 to R349, R394, R395, R420
to R435).
-/
namespace Sys2Proof.Machine

/-! ### The schedule table (R394, R395) -/

/-- The 8-byte, 4-byte and 32-byte records of a frame. -/
def segsOf (ws : List DWord) (n : Nat) : List DWord :=
  let d := frameW ws n 4
  (List.range (bits d 32 16)).map fun k => tblDw ws (bits d 0 32 + 8 * k)
def fillsOf (ws : List DWord) (n : Nat) : List DWord :=
  let d := frameW ws n 5
  (List.range (bits d 32 16)).map fun k => tblDw ws (bits d 0 32 + 4 * k) &&& 0xFFFFFFFF
def declsOf (ws : List DWord) (n : Nat) : List (List DWord) :=
  let d := frameW ws n 7
  (List.range (bits d 32 16)).map fun k => (List.range 4).map fun j => tblDw ws (bits d 0 32 + 32 * k + 8 * j)
/-- Fields of a segment. -/
def segPort (g : DWord) : Nat := bits g 0 4
def segFirst (g : DWord) : Nat := bits g 4 12
def segCnt (g : DWord) : Nat := bits g 16 12
def segStream (g : DWord) : Nat := bits g 28 16
def segRecv (g : DWord) : Bool := bit g 44
/-- Ranks of a group: its chips in rank order; none when it is not declared. -/
def groupRanks (ws : List DWord) (g : Nat) : Option (List Nat) :=
  let off := (nth ws 1 0).toNat
  ((List.range (nth ws 2 0).toNat).map fun k => tblDw ws (off + 8 * k)).findSome? fun e =>
    if bits e 0 16 = g then
      some ((List.range (bits e 16 16)).map fun r => bits (tblDw ws (bits e 32 32 + 2 * r)) 0 16)
    else none
/-- The collective that a declaration declares: its COLLID, group and grid slot. -/
def declColl (d : List DWord) : Option (Nat × Nat × Nat) :=
  if bits (nth d 0 0) 0 2 = 2 then some (bits (nth d 1 0) 0 12, bits (nth d 1 0) 12 16, bits (nth d 1 0) 28 12) else none
/-- Declarations of the superstep in force. -/
def State.decls (s : State) : List (List DWord) :=
  if s.chip.sched.running then declsOf s.chip.sched.words s.chip.sched.ssFirst else []
/-- Start of frame n by the frame in force: later frames follow it, whatever moved it (R395, R398). -/
def frameAt (q : Sched) (n : Nat) : Nat :=
  ((List.range (n - q.frame)).map fun k => frameLen q.words (q.frame + k)).foldl (· + ·) q.frameStart
/-- The next send slots of a stream from a slot place on: places are tick * 16 + port (R421). -/
def nextSlots (s : State) (stream frm n : Nat) : List Nat :=
  let q := s.chip.sched
  let all := ((List.range (nFrames q.words - q.frame)).map fun k =>
    let f := q.frame + k
    ((segsOf q.words f).filter fun g => segStream g == stream && !segRecv g).map (fun g =>
      (List.range (segCnt g)).map fun i => (frameAt q f + 5 * (segFirst g + i)) * 16 + segPort g) |>.flatten).flatten
  (sortBy (· ≤ ·) (all.filter fun p => decide (frm ≤ p))).take n
/-- The stream of a receive slot of a port in the frame in force. -/
def slotStream (s : State) (port slot : Nat) : Option Nat :=
  ((segsOf s.chip.sched.words s.chip.sched.frame).find? fun g => segRecv g && segPort g == port &&
    decide (segFirst g ≤ slot) && decide (slot < segFirst g + segCnt g)).map segStream
/-- Report a schedule fault by its stack and cause: 0 late reply, 1 repeat overflow, 2 refresh backlog (R68). -/
def reportFaultOf (s : State) (stack cause : Nat) : State := s.sched s.tick (obj stack) (.scheduleFault cause)
/-- Report a schedule fault that is of no stack: 3 late superstep, 4 peer halted, 5 loss of a switch (R91, R434, R437). -/
def reportFault (s : State) (cause : Nat) : State := reportFaultOf s 0 cause

/-! ### Flits of plain streams (R421 to R423) -/

/-- FLIT_SEND (R421, R423): a stream sends a flit of up to four waiting sectors in this slot. -/
def execFlitSend (s : State) : Out :=
  let st := s.cur.n
  let q := (assoc s.net.sendq st).getD []
  let here := nextSlots s st (s.tick * 16) 1
  match here with
  | [] => .next s
  | p :: _ =>
    if s.net.isolated then .next s
    else if s.tick < p / 16 then .next (s.sched (p / 16) s.cur .flitSend)
    else match q with
      | [] => .next s
      | f :: _ =>
        let four := q.take 4
        let fl : Flit := ⟨f.slot, four.all (·.ok), (four.map (·.dwords)).flatten⟩
        let s := { s with net := { s.net with
          sendq := assocSet s.net.sendq st (q.drop 4), sent := if s.dbg.replaying then s.net.sent else s.net.sent ++ [(st, fl)] } }.count 10 s.cur 1
        let s := if q.drop 4 = [] then s else s.sched (s.tick + 5) s.cur .flitSend
        match s.cores.findSome? fun c => (c.drains.find? fun d =>
            (streamOf s c.cl c.co d.win).map (·.1) == some st).map fun d => (c.cl, c.co, d) with
        | none => .next s
        | some (cl, co, d) =>
          let s := s.updCore cl co fun c => { c with drains := c.drains.map fun x =>
            if x.win = d.win then { x with done := x.done + four.length } else x }
          if d.done + four.length < d.total then .next s
          else
            let hop := match streamOf s cl co d.win with
              | some (_, r) => if groupOf r = groupOf chipNo then 160 else 640
              | none => 160
            .next (s.sched (s.tick + hop) ⟨cl, co, d.win⟩ .drainComplete)
/-- The binding of a plain stream that this chip receives: cluster and core (R423). -/
def recvBinding (s : State) (stream : Nat) : Option (Nat × Nat) :=
  let ws := s.chip.sched.words
  ((List.range (nth ws 4 0).toNat).map fun k => tblDw ws ((nth ws 3 0).toNat + 8 * k)).findSome? fun e =>
    if bits e 0 12 = stream ∧ bits e 40 10 = chipNo then some (bits e 50 6, bits e 56 6) else none
/-- Cut bytes into pieces of 64. -/
def sectorsOf (bs : List Byte) : List (List Byte) :=
  (List.range ((bs.length + 63) / 64)).map fun k => (bs.drop (64 * k)).take 64

/-! ### Parts and chunks (R429 to R431) -/

def ceilDiv (a b : Nat) : Nat := (a + b - 1) / b
/-! Fields of the parameter block (R346). -/

def Coll.redop (c : Coll) : Nat := blkF c.block 0 4 4
def Coll.wty (c : Coll) : Ty := Ty.ofCode (blkF c.block 0 12 4)
def Coll.alg (c : Coll) : Nat := blkF c.block 0 20 2
def Coll.collid (c : Coll) : Nat := blkF c.block 0 24 12
def Coll.root (c : Coll) : Nat := if c.op = 0 then 0 else blkF c.block 1 16 16
def Coll.chunk (c : Coll) : Nat := blkF c.block 5 0 32
def Coll.reduces (c : Coll) : Bool := c.op == 0 || c.op == 1 || c.op == 4
/-- First element and length of part p in the logical vector (R429). Broadcast and reduce have one part. -/
def Coll.part (c : Coll) (p : Nat) : Nat × Nat :=
  match c.op with
  | 0 =>
    let q := ceilDiv c.count c.ranks
    (p * q, min ((p + 1) * q) c.count - p * q)
  | 3 | 4 => (0, c.count)
  | _ => (p * c.count, c.count)
/-- Chunk numbers of one part. -/
def Coll.perPart (c : Coll) : Nat :=
  ceilDiv (if c.op = 0 then ceilDiv c.count c.ranks else c.count) c.chunk
/-- Chunks of part p: number, first element, length. -/
def Coll.chunks (c : Coll) (p : Nat) : List (Nat × Nat × Nat) :=
  let (e0, n) := c.part p
  (List.range (ceilDiv n c.chunk)).map fun i =>
    (p * c.perPart + i, e0 + i * c.chunk, min c.chunk (n - i * c.chunk))
/-- Chunk number of an element of the logical vector, and its index in the chunk (R429). -/
def Coll.chunkOf (c : Coll) (e : Nat) : Nat × Nat :=
  let q := if c.op = 0 then ceilDiv c.count c.ranks else c.count
  (e / q * c.perPart + e % q / c.chunk, e % q % c.chunk)
/-- How a chunk is sent: narrowed from what the rank holds; the same, and the rank writes the narrowed value
to its own DST; or wire bits forwarded as they came. -/
inductive Mode where
  | red | first | forward
  deriving DecidableEq, Repr
/-- One transfer of a chunk: its hop, chunk number, first element, length, mode, and peer rank. -/
structure Hop where
  hop : Nat
  chunk : Nat
  e0 : Nat
  n : Nat
  mode : Mode
  peer : Nat
  deriving DecidableEq, Repr
/-- Transfers of ring-fixed that a rank sends, in order (R430). -/
def ringSends (c : Coll) (r : Nat) : List Hop :=
  let n := c.ranks
  let peer := (r + 1) % n
  let red := if c.op = 2 then [] else (List.range (n - 1)).map fun h =>
    (c.chunks ((r + 2 * n - h - 1) % n)).map fun k => (⟨h, k.1, k.2.1, k.2.2, .red, peer⟩ : Hop)
  let gat := if c.op = 1 then [] else (List.range (n - 1)).map fun i =>
    let h := n - 1 + i
    let p := (r + 2 * n - i) % n
    (c.chunks p).map fun k => (⟨h, k.1, k.2.1, k.2.2, if i = 0 then .first else .forward, peer⟩ : Hop)
  (red ++ gat).flatten
/-- Levels of the tree. -/
def treeLevels (n : Nat) : Nat := if n ≤ 1 then 0 else Nat.log2 (n - 1) + 1
/-- Transfers of tree-fixed that a rank sends, in order (R431). -/
def treeSends (c : Coll) (r : Nat) : List Hop :=
  let n := c.ranks
  let rho := (r + n - c.root % n) % n
  let lv := treeLevels n
  let abs := fun q => (q + c.root) % n
  let ks := (List.range (if c.op = 0 then n else 1)).map c.chunks |>.flatten
  let red := if c.op = 3 then [] else ((List.range lv).filter fun h => rho % 2 ^ (h + 1) == 2 ^ h).map fun h =>
    ks.map fun k => (⟨h, k.1, k.2.1, k.2.2, .red, abs (rho - 2 ^ h)⟩ : Hop)
  let base := if c.op = 0 then lv else 0
  let downs := ((List.range lv).map fun i => lv - 1 - i).filter fun h => rho % 2 ^ (h + 1) == 0 && decide (rho + 2 ^ h < n)
  let bro := if c.op = 4 then [] else downs.map fun h =>
    ks.map fun k => (⟨base + (lv - 1 - h), k.1, k.2.1, k.2.2,
      if rho = 0 ∧ h = lv - 1 then .first else .forward, abs (rho + 2 ^ h)⟩ : Hop)
  (red ++ bro).flatten
def Coll.sends (c : Coll) (r : Nat) : List Hop :=
  if c.alg = 0 then ringSends c r else if c.alg = 1 then treeSends c r else []
/-- Transfers that this rank receives: what the others send to it, in order of hop and chunk. -/
def Coll.recvs (c : Coll) : List Hop :=
  sortBy (fun a b => decide (a.hop * 2 ^ 40 + a.chunk ≤ b.hop * 2 ^ 40 + b.chunk))
    ((List.range c.ranks).map fun r => (c.sends r).filter fun h => h.peer == c.rank && r != c.rank).flatten
def Hop.key (h : Hop) : Nat := h.hop * 2 ^ 40 + h.chunk
/-- Whether a rank may send a transfer now: the chunk's reductions that come before it have been received,
and a forwarded chunk's bits are here (R430, R431). -/
def Coll.ready (c : Coll) (h : Hop) : Bool :=
  match h.mode with
  | .forward => (assoc c.acc (2 ^ 40 + h.e0)).isSome
  | _ => (c.recvs.filter fun k => k.chunk == h.chunk && decide (k.hop < h.hop)).all fun k => c.got.any fun g => g.1 == k.key

/-- The transfers that this rank has still to make, and the first of them that it may make now (R434). -/
def Coll.unsent (c : Coll) : List Hop := (c.sends c.rank).filter fun h => !c.outs.contains h.key
def Coll.nextSend (c : Coll) : Option Hop := c.unsent.find? c.ready

/-! ### Elements (R347, R112) -/

/-- Narrow one element to the wire type; the random word is that of R107. -/
def narrow (c : Coll) (hop chunk e : Nat) (v : Nat) : Nat :=
  if c.wty = c.dty then v
  else
    let u := philox (BitVec.ofNat 32 (e / 4)) (BitVec.ofNat 32 chunk) (BitVec.ofNat 32 (hop % 2 ^ 16)) 0x80000000
      (nth c.block 6 0) e
    (tyRound c.wty (Rnd.ofCode (blkF c.block 0 16 3)) (bit (nth c.block 0 0) 19) (tyNum c.dty v) u).1
/-- Widen a wire element exactly. -/
def widen (c : Coll) (v : Nat) : Nat := if c.wty = c.dty then v else (tyRound c.dty .rne false (tyNum c.wty v) 0).1
/-- One reduction step in DTYPE. -/
def reduceEl (c : Coll) (a b : Nat) : Nat := combineEl c.dty c.redop a b

/-! ### Source and destination buffers -/

/-- Read n elements of a buffer from an element on: their codes, and whether a granule was poisoned. -/
def readElems (s : State) (c : Coll) (base : DWord) (e0 : Nat) : Nat → Except TrapInfo (List Nat × Bool) × State
  | 0 => (.ok ([], false), s)
  | n + 1 =>
    let w := c.owner.getD ⟨0, 0, 16⟩
    let b := c.dty.bits / 8
    let a := base + BitVec.ofNat 64 (e0 * b)
    let (r, s) := if 3 < spaceOf a then
        (match poolAddr w.co a with
         | some (tc, off) =>
           if off + b ≤ (s.core w.cl tc).scSize then
             ((.ok (leNat (spRead s w.cl tc off b), (s.core w.cl tc).psnAt off) : Except TrapInfo (Nat × Bool)), s)
           else (.error { cls := 3, sub := 7, addr := a }, s)
         | none => (.error { cls := 3, sub := 7, addr := a }, s))
      else
        match translate s w.cl (s.coreOf w).ptw .fill a with
        | (.ok (pa, _), s) => (.ok (leNat (s.bytes (memKey (spaceOf a) pa) b),
          (spaceOf a == 0 && granulePsn s pa) || (spaceOf a == 2 && s.net.opsn.contains (pa / 4096))), s)
        | (.error i, s) => (.error i, s)
    match r with
    | .error i => (.error i, s)
    | .ok (v, p) =>
      match readElems s c base (e0 + 1) n with
      | (.ok (vs, q), s) => (.ok (v :: vs, p || q), s)
      | (.error i, s) => (.error i, s)
/-- Write elements to DST from an element on, as collective deliveries (R434), which carry check codes (R193); or combine
them with what DST holds, each sector as one step at its home (R135, R432). -/
def writeDst (s : State) (c : Coll) (e0 : Nat) (vs : List Nat) (comb : Bool) : State :=
  let w := c.owner.getD ⟨0, 0, 16⟩
  let h := c.h.getD ⟨.eend, [], [], [], 0, 0, 0⟩
  let b := c.dty.bits / 8
  let cuts := cutSectors (vs.length + 1) (nth c.block 3 0 + BitVec.ofNat 64 (e0 * b)) ((vs.map (toBytes b)).flatten)
  cuts.foldl (fun s x =>
    let a := x.1
    if 3 < spaceOf a then
      match poolAddr w.co a with
      | none => collFault s c { cls := 3, sub := 7, addr := a }
      | some (tc, off) =>
        let old := spRead s w.cl tc off x.2.length
        let psn := c.psn || (comb && (s.core w.cl tc).psnAt off)
        let (bad, s) := landCheck s
        match deliverAt s ⟨w.cl, tc, off, 3, c.collid, psn || bad,
            engineBytes old x.2 (if comb then some (c.dty, c.redop) else none)⟩ with
        | (none, s) => s
        | (some k, s) => collFault s c { cls := 3, sub := k, addr := a }
    else
      let s := watchEngine s h ⟨w.cl, w.co, 16⟩ false
        (taskOf 6 c.slot (nth (s.coreOf w).cslots c.slot {}).seq) a x.2.length (BitVec.ofNat 64 (leNat (x.2.take 8)))
      match translate s w.cl (s.coreOf w).ptw (if comb then .aos else .write) a with
      | (.error i, s) => collFault s c i
      | (.ok (pa, pte), s) =>
        let (id, s) := s.fresh
        (startReqAt s {
          id := id, kind := .coll, w := w, h := h, space := spaceOf a
          dest := if comb then [(c.dty.code, c.redop)] else [], lanes := [], results := [], issued := s.tick
          bound := s.tick + (if spaceOf a = 0 then 2400 else 4000), sectors := [pa / 64], psn := c.psn, stat := 0
          rnum := 0, tenant := (s.coreOf w).tenant, chk := bit pte 5, arrived := false, data := x.2, aux := c.id
          mir := bit pte 8, off := pa % 64 } [a]).updReq id fun q => { q with hb := c.hb }) s
def State.coll (s : State) (id : Nat) : Option Coll := s.chip.colls.find? fun c => c.id == id
def State.updColl (s : State) (id : Nat) (f : Coll → Coll) : State :=
  s.updChip fun h => { h with colls := h.colls.map fun c => if c.id = id then f c else c }
/-- Values of a transfer at this rank: what it holds, or SRC where nothing was combined yet (R430). -/
def hopValues (s : State) (c : Coll) (h : Hop) : Except TrapInfo (List Nat) × State :=
  let held := (List.range h.n).map fun k => assoc c.acc (h.e0 + k)
  if held.all (·.isSome) then (.ok (held.map fun v => (v.getD 0).toNat), s)
  else
    match readElems s c (nth c.block 2 0) (if c.op = 2 then h.e0 - c.rank * c.count else h.e0) h.n with
    | (.ok (vs, p), s) => (.ok vs, s.updColl c.id fun c => { c with psn := c.psn || p })
    | (.error i, s) => (.error i, s)
/-- DST element of a logical element (R429). -/
def Coll.dstEl (c : Coll) (e : Nat) : Nat := if c.op = 1 then e - c.rank * c.count else e
/-- The wire bits of a chunk as flits (R434). -/
def chunkFlits (c : Coll) (ok : Bool) (vs : List Nat) : List Flit :=
  let w := c.wty.bits
  let n := max 1 (ceilDiv (c.chunk * w) 2048)
  let x := packNat w vs
  (List.range n).map fun k => ⟨k, ok, (List.range 32).map fun i => BitVec.ofNat 64 (x / 2 ^ (2048 * k + 64 * i))⟩
/-- Let a collective's next ready chunk go in the next slot of its stream (R434). -/
def kickColl (s : State) (id : Nat) : State :=
  match s.coll id with
  | none => s
  | some c =>
    match c.unsent, c.nextSend with
    | [], _ => s.sched s.tick (obj id) .collectiveEnd
    | _, none => s
    | _, some h =>
      match nextSlots s (0x8000 + c.collid) (max c.txAt (s.tick * 16)) 1 with
      | p :: _ => s.sched (p / 16) (obj id) (.collectiveSend h.key)
      | [] => s
/-- COLLECTIVE_SEND (R430, R431, R434): the ready chunk with key k goes out in this slot and those after
it; a first send of the gather or of the broadcast writes the rank's own DST. -/
def execCollectiveSend (k : Nat) (s : State) : Out :=
  match s.coll s.cur.n with
  | none => .next s
  | some c =>
    match c.nextSend with
    | none => .next s
    | some h =>
      let slots := nextSlots s (0x8000 + c.collid) (max c.txAt (s.tick * 16)) (chunkFlits c true []).length
      if h.key ≠ k ∨ c.ended then .next s
      else if s.tick < nth slots 0 0 / 16 then .next (kickColl s c.id)
      else
        let r : Except TrapInfo (List Nat) × State := match h.mode with
          | .forward => (.ok ((List.range h.n).map fun j => ((assoc c.acc (2 ^ 40 + h.e0 + j)).getD 0).toNat), s)
          | _ => hopValues s c h
        match r with
        | (.error i, s) => .next (collFault s c i)
        | (.ok vs, s) =>
          let wire := if h.mode = .forward then vs else
            (vs.zip (List.range h.n)).map fun v => narrow c h.hop h.chunk v.2 v.1
          let psn := match s.coll c.id with | some d => d.psn | none => false
          let fl := chunkFlits c (!psn) wire
          let s := if s.dbg.replaying then s else
            { s with net := { s.net with sent := s.net.sent ++ fl.map fun f => (0x8000 + c.collid, f) } }
          let s := s.updColl c.id fun c => { c with
            outs := h.key :: c.outs, txAt := (slots.getLastD 0) + 1
            acc := if h.mode = .first then c.acc ++ (wire.zip (List.range h.n)).map fun v => (2 ^ 40 + h.e0 + v.2, w32 v.1)
              else c.acc }
          let s := if h.mode = .first then writeDst s c (c.dstEl h.e0) (wire.map (widen c)) false else s
          .next (kickColl s c.id)
/-- The access flit of a direct send: operation word, place in the receiver's DST, issuer, mask and bytes (R425, R432). -/
def directFlit (c : Coll) (place issuer : DWord) (off : Nat) (bs : List Byte) : List DWord :=
  let sec := List.replicate off 0 ++ bs
  [BitVec.ofNat 64 ((if c.reduces then 6 else 2) + c.dty.code * 2 ^ 9 + c.collid * 2 ^ 13 + 2 ^ 29), place, issuer,
    BitVec.ofNat 64 ((2 ^ bs.length - 1) * 2 ^ off)] ++
  (List.range 8).map fun k => BitVec.ofNat 64 (leNat ((sec.drop (8 * k)).take 8))
/-- Log a direct contribution (R446). The model keeps beside it the collective and the rank it comes from. -/
def logDirect (s : State) (c : Coll) (src k : Nat) (data : List Byte) : State :=
  if s.dbg.rlogOn then
    let ranks := (groupRanks s.chip.sched.words (blkF c.block 1 0 16)).getD []
    logEntry s (nth ranks src 0 % 2 * 8) (slotNow s)
      (directFlit c (BitVec.ofNat 64 (ownHbm (k * 64))) (BitVec.ofNat 64 (nth ranks src 0 + 16 * 2 ^ 22)) 0 data) true
      (BitVec.ofNat 64 (c.id + src * 2 ^ 32))
  else s
/-- COLLECTIVE_RECEIVE (R430 to R434): forty ticks after it lands, a chunk is combined or written to DST, and
may be forwarded. Under direct, k is a sector of DST and the contribution is applied to it at its home (R432), and logged. -/
def execCollectiveReceive (src k : Nat) (data : List Byte) (s : State) : Out :=
  match s.coll s.cur.n with
  | none => .next s
  | some c =>
    if c.ended then .next s
    else if c.alg = 2 then
      let b := c.dty.bits / 8
      let n := data.length / b
      let vals := (List.range n).map fun j => leNat ((data.drop (b * j)).take b)
      if !c.started then .next (s.sched (s.tick + 1) s.cur (.collectiveReceive src k data))
      else
        let s := logDirect s c src k data
        let e0 := k * 64 / b
        let s := s.updColl c.id fun c => { c with got := c.got ++ [(src * 2 ^ 40 + k, s.tick)] }
        .next ((writeDst s c e0 vals c.reduces).sched s.tick (obj c.id) .collectiveEnd)
    else match c.recvs.find? fun h => h.key == k with
      | none => .next s
      | some h =>
        let x := leNat data
        let w := c.wty.bits
        let wire := (List.range h.n).map fun j => x / 2 ^ (w * j) % 2 ^ w
        let s := s.updColl c.id fun c => { c with got := c.got ++ [(k, s.tick)] }
        match h.mode with
        | .red =>
          match hopValues s c h with
          | (.error i, s) => .next (collFault s c i)
          | (.ok own, s) =>
            let new := (own.zip wire).map fun p => reduceEl c (widen c p.2) p.1
            let s := s.updColl c.id fun c => { c with
              acc := (new.zip (List.range h.n)).foldl (fun l v => assocSet l (h.e0 + v.2) (w32 v.1)) c.acc }
            let last := (c.recvs.filter fun q => q.chunk == h.chunk && q.mode == .red).all fun q => decide (q.hop ≤ h.hop)
            let ends := last && (c.op == 1 || (c.op == 4 && c.rank == c.root % c.ranks))
            .next (kickColl (if ends then writeDst s c (c.dstEl h.e0) new false else s) c.id)
        | _ =>
          let s := s.updColl c.id fun c => { c with
            acc := c.acc ++ (wire.zip (List.range h.n)).map fun v => (2 ^ 40 + h.e0 + v.2, w32 v.1) }
          .next (kickColl (writeDst s c (c.dstEl h.e0) (wire.map (widen c)) false) c.id)
/-- FLIT_RECEIVE (R421, R423, R434, R446): the slot names the stream. Plain sectors land at their window;
a collective's flits gather to a chunk; an idle flit in a collective's slot is a peer halted (R437). -/
def execFlitReceive (f : Flit) (s : State) : Out :=
  let s := if f.dwords.isEmpty then s else s.count 11 ⟨0, 0, 16⟩ 1
  let s := if f.dwords.isEmpty then s else logEntry s s.cur.n f.slot f.dwords f.ok
  match slotStream s s.cur.n f.slot with
  | none => .next s
  | some st =>
    if st < 0x8000 then
      match recvBinding s st with
      | none => .next s
      | some (cl, co) =>
        .next ((sectorsOf (dwBytes f.dwords)).foldl (fun s bs =>
          s.sched s.tick ⟨cl, co, 2 ^ 32⟩ (.windowLanding ⟨cl, co, 0, 2, st, !f.ok, bs⟩)) s)
    else
      match s.chip.colls.find? fun c => 0x8000 + c.collid == st && c.started && !c.ended with
      | none => .next s
      | some c =>
        if f.dwords.isEmpty then
          if c.recvs.length ≤ c.got.length then .next s else .next (reportFault s 4)
        else
          let rx := c.rx ++ f.dwords
          let need := 32 * max 1 (ceilDiv (c.chunk * c.wty.bits) 2048)
          let s := s.updColl c.id fun c => { c with rx := if need ≤ rx.length then [] else rx, psn := c.psn || !f.ok }
          let pend := (s.agenda.filter fun e => match e.2.2 with
            | .collectiveReceive .. => e.2.1 == obj c.id | _ => false).length
          match c.recvs[c.got.length + pend]? with
          | some h =>
            if need ≤ rx.length then
              let src := match (List.range c.ranks).find? fun r => (c.sends r).any fun q =>
                  q.key == h.key && q.peer == c.rank with | some r => r | none => 0
              .next (s.sched (s.tick + 40) (obj c.id) (.collectiveReceive src h.key (dwBytes rx)))
            else .next s
          | none => .next s

/-! ### Start and end (R345 to R349, R432, R434) -/

/-- The reasons of R346 and R347: the lowest that applies, 0 for none. -/
def collReason (s : State) (c : Core) (b : List DWord) : Nat :=
  let f := blkF b
  let op := f 0 0 4
  let red := op == 0 || op == 1 || op == 4
  let dt := f 0 8 4
  let wt := f 0 12 4
  let alg := f 0 20 2
  let algOk := (alg == 0 && decide (op < 3)) || (alg == 1 && (op == 0 || op == 3 || op == 4)) || alg == 2
  let wOk := wt == dt || (decide (1 ≤ wt) && decide (wt ≤ 4) && decide (dt ≤ 4) &&
    decide ((Ty.ofCode wt).bits ≤ (Ty.ofCode dt).bits))
  let grp := groupRanks s.chip.sched.words (f 1 0 16)
  let decl := s.decls.any fun d => match declColl d with | some (id, g, _) => id == f 0 24 12 && g == f 1 0 16 | none => false
  let ph := bit (nth b 0 0) 48
  let badA := fun a : DWord => decide (5 < spaceOf a) || spaceOf a == 3 || bits a 0 6 != 0
  let cs : List (Nat × Bool) := [
    (1, f 0 22 2 != 0 || f 0 49 15 != 0 || f 1 32 32 != 0 || f 4 40 24 != 0 || f 5 32 32 != 0 ||
      (List.range 9).any fun k => nth b (7 + k) 0 != 0),
    (2, decide (5 < op) || (red && decide (2 < f 0 4 4)) || decide (2 < alg) || !algOk ||
      !(if red then dt == 0 || dt == 1 || dt == 2 || dt == 14 else decide (dt ≤ 4) || dt == 13 || dt == 14)),
    (3, decide (5 < f 0 16 3) || !wOk),
    (4, grp.isNone || !decl),
    (5, (op == 3 || op == 4) && decide ((grp.getD []).length ≤ f 1 16 16)),
    (6, f 4 0 40 == 0 || f 5 0 32 == 0),
    (7, badA (nth b 2 0) || badA (nth b 3 0)),
    (8, ph && !c.phOk (f 0 36 12)),
    (9, !(grp.getD []).contains chipNo)]
  match cs.find? fun x => x.2 with
  | some x => x.1
  | none => 0
/-- The COLLID identity of a slot in the phaser engine: a member beyond the issuers' slots. -/
def collMember (w : Iss) (slot : Nat) : Iss := ⟨w.cl, w.co, 64 + slot⟩
/-- End a collective: status, phaser, and the next COLL of its slot (R345, R348, R349). -/
def endColl (s : State) (c : Coll) (status reason : Nat) : State :=
  let s := s.updColl c.id fun c => { c with ended := true, status := status, reason := reason }
  match c.owner with
  | none => s
  | some w =>
    let m := collMember w c.slot
    let s := match c.phaser with
      | some ph =>
        let p := s.phaser ph
        let v := match p.member m 0 true with | some k => if k.inEffect then k.s else p.phase + 1 | none => p.phase
        -- It releases the named buffers and no other data (R137).
        phDrop (phSignal (s.updColl c.id fun c => { c with phase := v }) ph m 0 true (status != 0) []) ph m 0 true
      | none => s
    s.updCore w.cl w.co fun k =>
      let sl := nth k.cslots c.slot {}
      { k with cslots := setNth {} k.cslots c.slot { sl with cid := none, status := status, reason := reason } }
/-- COLL at its presentation (R345, R347, R349). -/
def startColl (s : State) (w : Iss) (slot : Nat) (h : Held) : State :=
  let b := h.vals
  let k := s.coreOf w
  let r := collReason s k b
  let (id, s) := s.fresh
  let ranks := (groupRanks s.chip.sched.words (blkF b 1 0 16)).getD []
  let ph := if bit (nth b 0 0) 48 ∧ k.phOk (blkF b 0 36 12) then some (blkF b 0 36 12) else none
  let c : Coll := {
    id := id, owner := some w, slot := slot, h := some { h with vals := [] }, block := b, ranks := ranks.length
    rank := (ranks.findIdx? fun x => x == chipNo).getD 0, started := false, outs := [], acc := [], got := []
    status := 0, reason := 0, ended := false, phaser := ph, hb := clockOf s w h.itick }
  let s := s.updChip fun x => { x with colls := x.colls ++ [c] }
  let s := s.updCore w.cl w.co fun k =>
    let sl := nth k.cslots slot {}
    { k with cslots := setNth {} k.cslots slot { sl with cid := some id, seq := sl.seq + 1 } }
  let s := match ph with | some n => phRegister s n (collMember w slot) 0 true .sig | none => s
  if r = 0 then s else endColl s c 1 r
/-- The next COLL that a slot holds starts when the one before it has ended. -/
def nextCollOf (s : State) (w : Iss) (slot : Nat) : State :=
  let sl := nth (s.coreOf w).cslots slot {}
  match sl.cid, sl.queue with
  | none, h :: rest =>
    startColl (s.updCore w.cl w.co fun k => { k with
      cslots := setNth {} k.cslots slot { nth k.cslots slot {} with queue := rest } }) w slot h
  | _, _ => s
def presentColl (s : State) (w : Iss) (slot : BitVec 4) (h : Held) : State :=
  let w : Iss := ⟨w.cl, w.co, 16⟩
  nextCollOf (s.updCore w.cl w.co fun k =>
    let sl := nth k.cslots slot.toNat {}
    { k with cslots := setNth {} k.cslots slot.toNat { sl with queue := sl.queue ++ [h] } }) w slot.toNat
/-- Sectors of DST that a direct contribution to a rank covers: element range of the receiver's DST and of
the sender's SRC (R429, R432). -/
def directRange (c : Coll) (src dst : Nat) : Option (Nat × Nat × Nat) :=
  let n := c.count
  let root := blkF c.block 1 16 16
  match c.op with
  | 0 => some (0, 0, n)
  | 1 => some (0, dst * n, n)
  | 2 => some (src * n, 0, n)
  | 3 => if src = root then some (0, 0, n) else none
  | 4 => if dst = root then some (0, 0, n) else none
  | _ => some (src * n, dst * n, n)
/-- DST sectors of a range of elements. -/
def rangeSectors (c : Coll) (e0 n : Nat) : List Nat :=
  let b := c.dty.bits / 8
  (List.range ((e0 * b + n * b + 63) / 64 - e0 * b / 64)).map fun k => e0 * b / 64 + k
/-- Contributions that a rank awaits under direct: source and sector. -/
def directAwaits (c : Coll) : List (Nat × Nat) :=
  (((List.range c.ranks).filter fun r => r != c.rank).map fun r =>
    match directRange c r c.rank with
    | some (d0, _, n) => (rangeSectors c d0 n).map fun k => (r, k)
    | none => []).flatten
/-- A rank's start under direct (R432): its own contribution into DST, then its sends to the others; each
is recorded as an access flit, and acknowledged within the bound. -/
def directStart (s : State) (c : Coll) : State :=
  let own := directRange c c.rank c.rank
  let s := match own with
    | some (d0, s0, n) =>
      (match readElems s c (nth c.block 2 0) s0 n with
       | (.ok (vs, p), s) => writeDst s { c with psn := p } d0 vs false
       | (.error i, s) => collFault s c i)
    | none => s
  let ranks := (groupRanks s.chip.sched.words (blkF c.block 1 0 16)).getD []
  ((List.range c.ranks).filter fun r => r != c.rank).foldl (fun s r =>
    match directRange c c.rank r with
    | none => s
    | some (d0, s0, n) =>
      match readElems s c (nth c.block 2 0) s0 n with
      | (.error i, s) => collFault s c i
      | (.ok (vs, _), s) =>
        let b := c.dty.bits / 8
        let bs := ((vs.zip (List.range n)).map fun v =>
          let k := c.chunkOf (if c.op = 1 ∨ c.op = 5 then s0 + v.2 else d0 + v.2)
          toBytes b (widen c (narrow c 0 k.1 k.2 v.1))).flatten
        (cutSectors (n + 1) (BitVec.ofNat 64 (d0 * b)) bs).foldl (fun s x =>
          let (id, s) := s.fresh
          let w := c.owner.getD ⟨0, 0, 16⟩
          let chip := nth ranks r 0
          let fl : Flit := ⟨7, true, directFlit c (BitVec.ofNat 64 (chip * 2 ^ 42 + x.1.toNat / 64 * 64))
            (BitVec.ofNat 64 (chipNo + w.cl * 2 ^ 10 + w.co * 2 ^ 16 + 16 * 2 ^ 22)) (x.1.toNat % 64) x.2⟩
          let s := if s.dbg.replaying then s else { s with net := { s.net with sent := s.net.sent ++ [(0x10000 + chip, fl)] } }
          let q : Req := {
            id := id, kind := .coll, w := w, h := c.h.getD ⟨.eend, [], [], [], 0, 0, 0⟩, space := 1, dest := []
            lanes := [], results := [], issued := s.tick, bound := s.tick + 4000, sectors := [], psn := false
            stat := 0, rnum := 0, tenant := 0, chk := false, arrived := false, data := [], aux := c.id }
          let s := s.updChip fun h => { h with reqs := h.reqs ++ [q] }
          if s.dbg.replaying then replayAccess s q 0
          else
            let (d, s) := s.free 4000
            s.sched (s.tick + d) (obj id) .writeAck) s) s
/-- COLLECTIVE_START (R430, R432, R434): the ranks of COLLID cur.n begin. A single rank copies SRC to DST. -/
def execCollectiveStart (s : State) : Out :=
  match s.chip.colls.find? fun c => c.collid == s.cur.n && !c.started && !c.ended with
  | none => .next s
  | some c =>
    let c : Coll := { c with started := true }
    let s := s.updColl c.id fun _ => c
    if c.ranks ≤ 1 then
      match readElems s c (nth c.block 2 0) 0 c.count with
      | (.ok (vs, p), s) =>
        let s := s.updColl c.id fun c => { c with psn := p }
        .next ((writeDst s { c with psn := p } 0 vs false).sched s.tick (obj c.id) .collectiveEnd)
      | (.error i, s) => .next (collFault s c i)
    else if c.alg = 2 then .next ((directStart s c).sched s.tick (obj c.id) .collectiveEnd)
    else .next (kickColl s c.id)
/-- COLLECTIVE_PRESENTATION_DEADLINE (R434): a rank whose COLL is not presented makes a schedule fault. -/
def execCollectivePresentationDeadline (s : State) : Out :=
  if s.chip.colls.any fun c => c.collid == s.cur.n && !c.started then .next s
  else .next (reportFault s 3)
/-- COLLECTIVE_END (R432, R434): a rank ends when its sends are made, what it awaits has come, and its DST writes
are acknowledged; under direct, when its sends are acknowledged and what it awaits has been applied at its home. -/
def execCollectiveEnd (s : State) : Out :=
  match s.coll s.cur.n with
  | none => .next s
  | some c =>
    let pending := s.chip.reqs.any fun q => q.kind == .coll && q.aux == c.id &&
      (c.alg != 2 || !q.sectors.isEmpty || q.data.isEmpty)
    let faulted := match c.owner with
      | some w => (nth (s.coreOf w).cslots c.slot {}).fault.isSome
      | none => false
    let done := if c.ranks ≤ 1 then true
      else if c.alg = 2 then (directAwaits c).all fun a => c.got.any fun g => g.1 == a.1 * 2 ^ 40 + a.2
      else c.unsent.isEmpty && decide (c.recvs.length ≤ c.got.length)
    if c.ended ∨ !c.started then .next s
    else if faulted then
      match c.owner with
      | some w => .next (nextCollOf (endColl s c 1 0) w c.slot)
      | none => .next s
    else if done ∧ !pending then
      let s := endColl s c 0 0
      match c.owner with
      | some w => .next (nextCollOf s w c.slot)
      | none => .next s
    else .next s

/-! ### COLL and CWAIT (R345, R348) -/

/-- COLL (R345): the block is read at issue. -/
def execColl (park : Bool) (sa : BitVec 8) (n : BitVec 4) (s : State) : Out :=
  let x := xctx s park
  match (nth x.c.cslots n.toNat {}).fault with
  | some r => .next (raiseRec x (s.updCore x.w.cl x.w.co fun c => { c with
      cslots := setNth {} c.cslots n.toNat { nth c.cslots n.toNat {} with fault := none } }) r)
  | none =>
    let a := x.sc sa 0
    if x.c.elastic then illegal x 3
    else match imageAt x a 128 128 with
      | none => badImage x a
      | some off => issueCmd x (.coll park sa n) [] (s.dwords (keySp x.w.cl x.w.co off) 16)
/-- CWAIT (R348): a blocking point; a faulted slot delivers at issue. -/
def execCwait (park : Bool) (sd : BitVec 8) (n : BitVec 4) (s : State) : Out :=
  let x := xctx s park
  match (nth x.c.cslots n.toNat {}).fault with
  | some r => .next (raiseRec x (s.updCore x.w.cl x.w.co fun c => { c with
      cslots := setNth {} c.cslots n.toNat { nth c.cslots n.toNat {} with fault := none } }) r)
  | none => blockingOp x (.cwait park sd n) []
/-- The end of a CWAIT's wait, when every COLL of the slot issued before it has been presented and has ended
(R348): the status word is written, visible 4 ticks later, and the named buffers are covered. none while the
wait goes on. -/
def cwaitDone (s : State) (w : Iss) (sd : BitVec 8) (n : Nat) (pc : Nat) : Option State :=
  let sl := nth (s.coreOf w).cslots n {}
  let held := (s.iss w).allHeld.any fun h => match h.i with | .coll _ _ m => m.toNat == n | _ => false
  if held || sl.cid.isSome || !sl.queue.isEmpty then none
  else
    let s := unblock (addPend s w (s.tick + 4) [(.s sd.toNat, [(0, BitVec.ofNat 64 (sl.status + sl.reason * 2 ^ 8))])]) w pc
    some (observe s w.cl (s.chip.colls.filter fun c => c.slot == n &&
      (match c.owner with | some o => o.cl == w.cl && o.co == w.co | none => false)))

end Sys2Proof.Machine
end

