-- ==== Sys2Proof/Machine/Domain.lean ====
section
/-!
DEFINITION. Domains: their control blocks, inherited fields, and charges against their limits (R375, R376).
-/
namespace Sys2Proof.Machine

/-- Base of the HBM that firmware keeps for itself on this chip, and the places in it (log 9). -/
def fwBase : Nat := ownHbm 0xBE00000000
/-- Address of a domain's control block. -/
def dcbAddr (id : Nat) : Nat := fwBase + 128 * id
/-- A limit's dword, and the width of its LIM and USE fields: cores, pool KiB, Orchard units, Sloe slots and
queues (R375). -/
inductive Lim where
  | cores | pool | orch | sloe | queues
  deriving DecidableEq, Repr
def Lim.dword : Lim → Nat
  | .cores => 2 | .pool => 3 | .orch => 4 | .sloe => 5 | .queues => 6
def Lim.w : Lim → Nat
  | .queues => 16
  | .cores | .pool | .orch | .sloe => 32
def Dom.lim (d : Dom) (l : Lim) : Nat := bits (nth d.dw l.dword 0) 0 l.w
def Dom.use (d : Dom) (l : Lim) : Nat := bits (nth d.dw l.dword 0) l.w l.w
def Dom.setUse (d : Dom) (l : Lim) (v : Nat) : Dom :=
  { d with dw := setNth 0 d.dw l.dword (setBits (nth d.dw l.dword 0) l.w l.w v) }
/-- Write a domain's control block to memory, as firmware does (R375). -/
def writeDcb (s : State) (id : Nat) : State :=
  match s.dom id with
  | none => s
  | some d => fwStore s (dcbAddr id) (dwBytes ((List.range 16).map fun k => nth d.dw k 0))
/-- Whether a charge of n passes at a domain (R376). -/
def Dom.room (d : Dom) (l : Lim) (n : Nat) : Bool := d.lim l == 2 ^ l.w - 1 || decide (d.use l + n ≤ d.lim l)
/-- Charge n at a domain and every ancestor; none when one has no room (R376). -/
def charge (s : State) (dom : Nat) (l : Lim) (n : Nat) : Option State :=
  let ds := s.ancestors dom
  if ds.all fun d => d.room l n then
    some (ds.foldl (fun s d => writeDcb (s.updDom d.id fun d => d.setUse l (d.use l + n)) d.id) s)
  else none
/-- Give a charge back. -/
def refund (s : State) (dom : Nat) (l : Lim) (n : Nat) : State :=
  (s.ancestors dom).foldl (fun s d => writeDcb (s.updDom d.id fun d => d.setUse l (d.use l - n)) d.id) s
/-- A field that holds its inherit value takes the nearest ancestor's (R376). -/
def inherited (s : State) (dom lo n inh : Nat) : Nat :=
  match (s.ancestors dom).find? fun d => bits (nth d.dw 0 0) lo n != inh with
  | some d => bits (nth d.dw 0 0) lo n
  | none => 0
def effHalt (s : State) (dom : Nat) : Nat := inherited s dom 2 2 0
def effPrio (s : State) (dom : Nat) : Nat := inherited s dom 4 5 0x1F
def effRlim (s : State) (dom : Nat) : Nat := let r := inherited s dom 9 4 0; if r = 0 then 3 else r
def Dom.tenant (d : Dom) : Nat := bits (nth d.dw 0 0) 13 6
def domTenant (s : State) (dom : Nat) : Nat := match s.dom dom with | some d => d.tenant | none => 0
/-- The domain of the grid that runs on a core. -/
def domOfCore (s : State) (cl co : Nat) : Option Nat := ((s.core cl co).grid.bind s.grid).map (·.dom)
/-- PTBASE of a tenant: its root and number (R12). -/
def tenantPt (s : State) (tenant : Nat) : DWord :=
  BitVec.ofNat 64 ((assoc s.fw.roots tenant).getD 0 / 2 ^ 15 * 2 ^ 15 + tenant)

end Sys2Proof.Machine
end

