-- ==== Sys2Proof/Machine/Sequence.lean ====
section
/-!
DEFINITION. Random draws and sampling, sequence slots, token operations and the sequence trap (R350 to R366).
-/
namespace Sys2Proof.Machine

/-! ### RAND and SAMPLE (R352, R353) -/

/-- RAND (R352): words 0 to n of the draw, each to its register. -/
def execRand (m : Mods) (d : BitVec 9) (c : BitVec 8) (n : BitVec 2) (f32 : Bool) (s : State) : Out :=
  let x := s.ctx m
  let idx := (x.c.sreg x.t c.toNat).setWidth 32
  let ks := List.range (n.toNat + 1)
  let val := fun l k =>
    let u := x.draw idx l k
    if f32 then (tyRound .f32 .rne false (.fin false (u.toNat / 256) (-24)) 0).1 else u.toNat
  alu x 12 (ks.map fun k => .v (d.toNat + k))
    (ks.map fun k => (.v (d.toNat + k), x.act.map fun l => (l, BitVec.ofNat 64 (val l k)))) 0

/-- A non-NaN FP32 value as a number that orders it, −0 with +0. -/
def f32Key (a : Word) : Int := if a.msb then -((a.toNat % 2 ^ 31 : Nat) : Int) else (a.toNat : Int)
def isNan32 (a : Word) : Bool := (tyNum .f32 a.toNat).isNan
/-- An FP32 operation, nearest even. -/
def rAdd (a b : Word) : Word := w32 (fAdd .f32 .rne false a.toNat b.toNat 0).1
def rSub (a b : Word) : Word := w32 (fSub .f32 .rne false a.toNat b.toNat 0).1
def rMul (a b : Word) : Word := w32 (fMul .f32 .rne false a.toNat b.toNat 0).1
/-- Running sums of the candidates' weights. -/
def sampleSums (ls : List Word) (l0 it : Word) (c : Word) : List Word :=
  match ls with
  | [] => []
  | l :: t =>
    let c' := rAdd c (w32 (fExp2 (rMul (rSub l l0) it)).1)
    c' :: sampleSums t l0 it c'
/-- The token that SAMPLE chooses, and its flags (R353). -/
def sampleTok (cands : List (Word × Word)) (k : Nat) (pp it u : Word) : Word × BitVec 5 :=
  let cs := sortBy (fun a b => decide (f32Key b.1 ≤ f32Key a.1)) (cands.filter fun c => !isNan32 c.1)
  match cs with
  | [] => (0xFFFFFFFF, fNV)
  | c0 :: _ =>
    let fin := match tyNum .f32 it.toNat with | .fin n m _ => !n && m != 0 | .nan _ | .inf _ => false
    if !fin then (c0.2, 0)
    else
      let cs := if k = 0 then cs else cs.take k
      let sums := sampleSums (cs.map (·.1)) c0.1 it 0
      let one : Word := 0x3F800000
      let pp := if isNan32 pp || decide (f32Key one < f32Key pp) then one else pp
      let last := sums.length - 1
      let bar := rMul pp (nth sums last 0)
      let kept := if f32Key pp ≤ 0 then 0
        else if isNan32 bar then Config.samplePick cs % (last + 1)
        else ((List.range sums.length).find? fun j => decide (f32Key bar ≤ f32Key (nth sums j 0))).getD last
      let t := w32 (tyRound .f32 .rne false
        ((Num.fin false (u.toNat / 256) (-24)).mul (tyNum .f32 (nth sums kept 0).toNat)).1 0).1
      let j := ((List.range (kept + 1)).find? fun j => decide (f32Key t < f32Key (nth sums j 0))).getD kept
      ((nth cs j c0).2, 0)
/-- SAMPLE (R353): sources of every lane as at the first pass. -/
def execSample (m : Mods) (d a b : BitVec 9) (c : BitVec 8) (s : State) : Out :=
  let x := s.ctx m
  let c0 := x.c.sreg x.t c.toNat
  let c1 := x.c.sreg x.t (c.toNat + 1)
  let cands := x.act.map fun l => (x.me.v x.t a.toNat l, x.me.v x.t b.toNat l)
  let (tok, fl) := sampleTok cands (bits c0 32 8) (c1.setWidth 32) (BitVec.ofNat 32 (bits c1 32 32))
    (x.draw (c0.setWidth 32) 0 0)
  alu x 48 [.v d.toNat] [(.v d.toNat, x.act.map fun l => (l, tok.setWidth 64))] (if x.act.isEmpty then 0 else fl)

/-! ### Slots (R354 to R356) -/

def State.slot (s : State) (n : Nat) : Slot := (assoc s.chip.slots n).getD {}
def State.setSlot (s : State) (n : Nat) (x : Slot) : State :=
  s.updChip fun h => { h with slots := assocSet h.slots n x }
def Slot.d (x : Slot) (k : Nat) : DWord := Sparse.get (0 : DWord) x.dw k
def Slot.f (x : Slot) (k lo n : Nat) : Nat := bits (x.d k) lo n
def Slot.setD (x : Slot) (k : Nat) (v : DWord) : Slot := { x with dw := Sparse.set (0 : DWord) x.dw k v }
def Slot.setF (x : Slot) (k lo n v : Nat) : Slot := x.setD k (setBits (x.d k) lo n v)
def Slot.widx (x : Slot) : Nat := x.f 2 0 32
def Slot.cidx (x : Slot) : Nat := x.f 2 32 32
def Slot.drafts (x : Slot) : Nat := (x.widx + 2 ^ 32 - x.cidx) % 2 ^ 32
def Slot.frz (x : Slot) : Bool := bit (x.d 0) 1
/-- Word i of a packed run from dword k on. -/
def Slot.packed (x : Slot) (k i : Nat) : Word := BitVec.ofNat 32 (x.f (k + i / 2) (32 * (i % 2)) 32)
def Slot.setPacked (x : Slot) (k i : Nat) (v : Word) : Slot := x.setF (k + i / 2) (32 * (i % 2)) 32 v.toNat
/-- Shift a confirmed token into HIST (R355). -/
def Slot.shiftHist (x : Slot) (v : Word) : Slot :=
  let old := (List.range 6).map fun i => x.packed 9 i
  (((v :: old).zip (List.range 7)).foldl (fun x e => x.setPacked 9 e.2 e.1) x)
/-- Flags of a token word. -/
def tokD : Word := 0x10000000
def tokF : Word := 0x20000000
def tokI : Word := 0x40000000
def tokE : Word := 0x80000000
def tokId (t : Word) : Word := t &&& 0x0FFFFFFF
def wildTok : Word := 0x0FFFFFFF
/-- Base dword of a watch entry. -/
def ent (e : Nat) : Nat := 16 + 16 * e

/-- A sequence operation as it runs: state, slot number, its slot, the translation base of its tenant,
and whether a ring write has failed. -/
structure Seq where
  s : State
  cl : Nat
  n : Nat
  x : Slot
  pt : DWord
  fail : Bool := false
/-- Address of a ring entry (R354). -/
def Slot.ringAt (x : Slot) (i : Nat) : DWord := x.d 1 + BitVec.ofNat 64 (4 * (i % 2 ^ x.f 0 8 5))
/-- Write a ring entry as an engine write (R358): it takes effect as the operation completes. -/
def Seq.ringWrite (q : Seq) (addr : DWord) (v : Word) : Seq :=
  match translate q.s q.cl q.pt .write addr with
  | (.error _, s) => { q with s := s, fail := true }
  | (.ok (pa, pte), s) =>
    let key := memKey (spaceOf addr) pa
    { q with s := (s.setBytes key (toBytes 4 v.toNat)).setStamp (pa / 64) (bit pte 5) q.cl 0 }
def Seq.ringRead (q : Seq) (addr : DWord) : Word × Seq :=
  match translate q.s q.cl q.pt .load addr with
  | (.error _, s) => (0, { q with s := s, fail := true })
  | (.ok (pa, _), s) => (BitVec.ofNat 32 (leNat (s.bytes (memKey (spaceOf addr) pa) 4)), { q with s := s })
/-- The token words at n indices from i on. -/
def Seq.tokens (q : Seq) (i : Nat) : Nat → List Word × Seq
  | 0 => ([], q)
  | n + 1 =>
    let (v, q) := q.ringRead (q.x.ringAt i)
    let (vs, q) := Seq.tokens q (i + 1) n
    (v :: vs, q)
/-- Match(e, j) with j the k-th of the candidates (R361). -/
def matchAt (x : Slot) (cand : List Word) (e k : Nat) : Bool :=
  let len := x.f (ent e) 5 4
  bit (x.d (ent e)) 0 && (List.range len).all fun i =>
    let back := len - 1 - i
    let pat := tokId (x.packed (ent e + 1) i)
    if back ≤ k then
      pat == wildTok || tokId (nth cand (k - back) 0) == pat
    else
      let h := back - k - 1
      decide (h < x.cidx) && (pat == wildTok || tokId (x.packed 9 h) == pat)
def Slot.cls (x : Slot) (e : Nat) : Nat := x.f (ent e) 2 3
/-- Advance CIDX and WIDX over words written as one unit, with a flag set: injected or forced tokens (R362,
R363). -/
def Seq.unit (q : Seq) (ts : List Word) (flag : Word) : Seq :=
  let q := (ts.zip (List.range ts.length)).foldl (fun (q : Seq) t =>
    q.ringWrite (q.x.ringAt (q.x.cidx + t.2)) (tokId t.1 ||| flag)) q
  let x := ts.foldl (fun (x : Slot) t => x.shiftHist (tokId t ||| flag)) q.x
  let x := (ts.zip (List.range ts.length)).foldl (fun (x : Slot) t => x.setPacked 5 t.2 (tokId t.1 ||| flag)) x
  let c := (q.x.cidx + ts.length) % 2 ^ 32
  { q with x := ((x.setF 2 0 32 c).setF 2 32 32 c).setF 3 48 4 ts.length }
/-- STOP (R362): the slot freezes, and the last token's word takes E. -/
def Seq.stop (q : Seq) (aent : Nat) : Seq :=
  let x := (q.x.setF 0 1 1 1).setF 13 0 9 (1 + aent * 16)
  if x.cidx = 0 then { q with x := x }
  else
    let t := x.packed 9 0 ||| tokE
    { q with x := x } |>.ringWrite (x.ringAt (x.cidx + 2 ^ 32 - 1)) t
/-- FORK (R362): the lowest-numbered free slot within the domain's budget. -/
def Seq.fork (q : Seq) (e : Nat) : Seq :=
  let free := (List.range 65536).find? fun n => match assoc q.s.chip.slots n with
    | some y => !bit (y.d 0) 0
    | none => true
  match free, charge q.s q.x.dom .sloe 1 with
  | some n, some s =>
    let ring := q.x.d (ent e + 5)
    let y : Slot := { (((q.x.setD 1 ring).setF 3 48 4 0).setD 14 0).setF 13 0 4 0 with staged := [] }
    let q := (List.range (2 ^ q.x.f 0 8 5)).foldl (fun (q : Seq) i =>
      let (v, q) := q.ringRead (q.x.ringAt i)
      q.ringWrite (y.ringAt i) v) { q with s := s }
    { q with s := q.s.setSlot n y, x := q.x.setF 13 9 16 n }
  | _, _ => { q with x := q.x.setF 13 25 1 1 }
/-- NOTIFY (R362): one 8-byte store; a failure sets NFAIL. -/
def Seq.notify (q : Seq) (w : Iss) (h : Held) (e : Nat) : Seq :=
  let a := q.x.d (ent e + 5)
  let q := { q with x := q.x.setF 13 (32 + e) 1 1 }
  let no := fun q : Seq => { q with x := q.x.setF 13 26 1 1 }
  if a.toNat % 8 ≠ 0 then no q
  else match translate q.s q.cl q.pt .store a with
    | (.error _, s) => no { q with s := s }
    | (.ok (pa, pte), s) =>
      let sp := spaceOf a
      let (id, s) := s.fresh
      { q with s := startReqAt s {
          id := id, kind := .notify, w := w, h := h, space := sp, dest := [], lanes := [], results := []
          issued := s.tick, bound := s.tick + (if sp = 0 then 2400 else 4000), sectors := [pa / 64], psn := false
          stat := 0, rnum := h.rnum, tenant := bits q.pt 0 6, chk := bit pte 5, arrived := false
          data := toBytes 8 (q.x.d (ent e + 6)).toNat, aux := q.n, off := pa % 64, mir := bit pte 8 } [a] }

/-- Confirm n of the candidates (R360), presented at tick p: the cause of a trap, if one is raised. -/
def Seq.confirm (q : Seq) (w : Iss) (h : Held) (cand : List Word) (n p : Nat) : Option Nat × Seq :=
  let x := (q.x.setF 3 48 4 0).setD 14 0
  let dl := (x.d 4).toNat
  let late := dl != 0 && decide (dl ≤ p)
  let m := if late then 0 else min n (x.f 3 0 32)
  let cand := cand.take m
  let ks := List.range m
  let es := List.range 16
  let hits := (es.map fun e => (ks.filter fun k => matchAt x cand e k).map fun k => (e, k)).flatten
  let act := [0, 1, 2].findSome? fun c => hits.find? fun t => x.cls t.1 == c
  let cnt := match act with
    | some (e, k) => if x.cls e < 2 then k + 1 else m
    | none => m
  let q := { q with s := q.s.count 13 w cnt }
  let q := { q with x := x }
  let q := ((cand.take cnt).zip (List.range cnt)).foldl (fun (q : Seq) t =>
    q.ringWrite (q.x.ringAt (q.x.cidx + t.2)) (t.1 &&& ~~~tokD)) q
  let x := (cand.take cnt).foldl (fun (x : Slot) t => x.shiftHist (t &&& ~~~tokD)) q.x
  let rem := x.f 3 0 32 - cnt
  let c := (x.cidx + cnt) % 2 ^ 32
  let x := ((x.setF 3 0 32 rem).setF 2 32 32 c).setF 2 0 32 c
  let x := (x.setF 13 0 9 0).setF 13 32 16 0
  let q := { q with x := x }
  let isStop := match act with | some (e, _) => x.cls e == 0 | none => false
  let (cause, q) : Option Nat × Seq :=
    if late then (some 3, q.stop 17)
    else if rem = 0 ∧ !isStop then (some 2, q.stop 16)
    else match act with
      | some (e, _) =>
        (match x.cls e with
         | 0 => (some 1, q.stop e)
         | 1 => (none, (let q := q.unit ((List.range (x.f (ent e) 9 4)).map fun i => x.packed (ent e + 5) i) tokI
             { q with x := q.x.setF 13 0 9 (2 + e * 16) }))
         | _ => (none, (let q := q.fork e
             { q with x := q.x.setF 13 0 9 (3 + e * 16) })))
      | none => (none, q)
  let notes := hits.filter fun t => x.cls t.1 == 3 && decide (t.2 < cnt)
  let q := notes.foldl (fun (q : Seq) t => q.notify w h t.1) q
  let q := if q.x.f 13 0 4 = 0 ∧ !notes.isEmpty then { q with x := q.x.setF 13 0 4 4 } else q
  (cause, q)
/-- TOKAPP (R359): the cause, if any. -/
def Seq.append (q : Seq) (w : Iss) (h : Held) (draft : Bool) (t : Word) (p : Nat) : Option Nat × Seq :=
  if tokId t ≠ t ∨ tokId t = wildTok then (some 10, q)
  else if (if draft then decide (16 ≤ q.x.drafts) else q.x.drafts != 0) then (some 11, q)
  else
    let i := q.x.widx
    let q := q.ringWrite (q.x.ringAt i) (if draft then t ||| tokD else t)
    let q := { q with x := q.x.setF 2 0 32 (i + 1) }
    if draft then
      let (cand, q) := q.tokens q.x.cidx q.x.drafts
      let x := (List.range 16).foldl (fun (x : Slot) e =>
        if bit (x.d (ent e)) 1 && matchAt x cand e (cand.length - 1) then x.setF 14 e 1 1 else x) q.x
      (none, { q with x := x })
    else q.confirm w h [t] 1 p
/-- Whether a value breaks the limits of a dword (R355, R356). -/
def slotLimit (k : Nat) (v : DWord) : Bool :=
  let f := bits v
  if k < 16 then
    match k with
    | 0 => f 13 51 != 0 || decide (f 8 5 < 6) || decide (24 < f 8 5)
    | 1 => spaceOf v != 0 || f 0 6 != 0
    | 3 => f 52 12 != 0
    | 15 => f 28 35 != 0
    | _ => false
  else
    match (k - 16) % 16 with
    | 0 => f 16 48 != 0 || decide (3 < f 2 3) ||
        (bit v 0 && (f 5 4 == 0 || decide (8 < f 5 4))) || (f 2 3 == 1 && (f 9 4 == 0 || decide (8 < f 9 4)))
    | 1 | 2 | 3 | 4 => f 28 4 != 0 || f 60 4 != 0
    | 5 | 6 | 7 | 8 => false
    | _ => v != 0
/-- The dword after a U write (R355): only U fields change. -/
def slotWrite (x : Slot) (k : Nat) (v : DWord) : Slot :=
  match k with
  | 0 => (x.setF 0 1 1 (if bit v 1 then x.f 0 1 1 else 0)).setF 0 8 5 (bits v 8 5)
  | 2 | 5 | 6 | 7 | 8 | 9 | 10 | 11 | 12 | 13 | 14 => x
  | 3 => x.setF 3 0 48 (bits v 0 48)
  | _ => x.setD k v
/-- SLOEW at its completion (R355, R357, R363): the cause, if any. -/
def Seq.write (q : Seq) (k : Nat) (v : DWord) : Option Nat × Seq :=
  if q.x.frz ∧ !(k == 0 && !bit v 1 && bits v 8 5 == q.x.f 0 8 5) then (some 9, q)
  else if 271 < k ∨ slotLimit k v then (some 12, q)
  else if k ≠ 15 then (none, { q with x := slotWrite q.x k v })
  else
    let st := q.x.staged ++ [BitVec.ofNat 32 (bits v 0 28)]
    if 8 < st.length then (some 13, { q with x := { q.x with staged := [] } })
    else if !bit v 63 then (none, { q with x := { q.x with staged := st } })
    else if q.x.drafts ≠ 0 then (some 11, q)
    else if q.x.f 3 32 16 < st.length then (some 13, { q with x := { q.x with staged := [] } })
    else
      let x := q.x.setF 3 32 16 (q.x.f 3 32 16 - st.length)
      (none, { q with x := { x with staged := [] } }.unit st tokF)

/-! ### Presentation and completion (R357, R358, R366) -/

/-- Slot number of a lane's operand; none when a higher bit is set (R357). -/
def slotNo (v : DWord) : Option Nat := if v.toNat < 65536 then some v.toNat else none
/-- The checks of a slot that every operation makes: the cause. -/
def slotCause (s : State) (tenant : Nat) (o : Option Nat) : Option Nat :=
  match o with
  | none => some 12
  | some n =>
    let x := s.slot n
    if bit (x.d 0) 0 && x.f 0 2 6 == tenant then none else some 8
/-- A token operation at its presentation tick P: it completes at P + 48, after those
presented before it (R358). -/
def presentSeq (s : State) (w : Iss) (h : Held) : State :=
  let (id, s) := s.fresh
  let q := { heldReq s w h id .ring 0 (s.tick + 48) h.lanes with sectors := [] }
  (s.updChip fun c => { c with reqs := c.reqs ++ [q] }).sched (s.tick + 48) (obj id) .sloeOperationComplete
/-- One lane's operation: the cause of its trap, and the state after it. -/
def sloeLane (s : State) (w : Iss) (h : Held) (l : LaneAcc) (p : Nat) : Option Nat × State :=
  let c := s.coreOf w
  let o := slotNo (nth l.ops 1 0)
  match slotCause s c.tenant o, o with
  | some k, _ => (some k, s)
  | none, none => (some 12, s)
  | none, some n =>
    let q : Seq := ⟨s, w.cl, n, s.slot n, c.ptbase, false⟩
    let v := nth l.ops 0 0
    let frz := q.x.frz
    let (cause, q) : Option Nat × Seq := match h.i with
      | .tokapp .. => if frz then (some 9, q) else q.append w h false (v.setWidth 32) p
      | .tokappD .. => if frz then (some 9, q) else q.append w h true (v.setWidth 32) p
      | .tokconf .. =>
        if frz then (some 9, q)
        else if 16 < v.toNat ∨ q.x.drafts < v.toNat then (some 12, q)
        else
          let (cand, q) := q.tokens q.x.cidx v.toNat
          q.confirm w h cand v.toNat p
      | .sloew _ _ _ k => q.write k.toNat v
      | _ => (none, q)
    let (cause, q) := if q.fail then (some 4, { q with x := (q.x.setF 0 1 1 1).setF 13 27 1 1 }) else (cause, q)
    (cause, q.s.setSlot n q.x)
/-- Lanes in order, each after the one before it; a trap ends them. -/
def sloeLanes (s : State) (w : Iss) (h : Held) (p : Nat) : List LaneAcc → Option (Nat × LaneAcc) × State
  | [] => (none, s)
  | l :: t =>
    match sloeLane s w h l p with
    | (some k, s) => (some (k, l), s)
    | (none, s) => sloeLanes s w h p t
/-- SLOE_OPERATION_COMPLETE (R358, R366): the operation takes effect; its trap is delivered at once. -/
def execSloeOperationComplete (s : State) : Out :=
  match s.req s.cur.n with
  | none => .next s
  | some q =>
    match sloeLanes s q.w q.h q.issued q.lanes with
    | (none, s) => .next (s.delReq q.id)
    | (some (k, l), s) =>
      .next ((s.updReq q.id fun q => { q with stat := k, aux := l.lane, rnum := q.h.rnum, data := toBytes 8 (nth l.ops 1 0).toNat }).sched
        s.tick (obj q.id) .sequenceTrapDelivery)
/-- Details of a sequence trap's record (R405). -/
def seqInfo (s : State) (cause : Nat) (slot : DWord) (lane : Nat) : TrapInfo :=
  let x := s.slot (slot.toNat % 65536)
  { cls := 0x10, sub := cause, lane := some lane
    d0 := BitVec.ofNat 64 (slot.toNat % 65536 + x.f 13 4 5 * 2 ^ 16 + (x.cidx + 2 ^ 32 - 1) % 2 ^ 32 * 2 ^ 32)
    d1 := (if cause = 1 ∨ cause = 2 ∨ cause = 3 then x.packed 9 0 ||| tokE else x.packed 9 0).setWidth 64 }
def isTokOp (i : Instr) : Bool :=
  match i with | .tokapp .. | .tokappD .. | .tokconf .. | .sloew .. => true | _ => false
/-- SEQUENCE_TRAP_DELIVERY (R365, R366): later operations of the region are dropped, the warp's younger
regions go, and the record is delivered. -/
def execSequenceTrapDelivery (s : State) : Out :=
  match s.req s.cur.n with
  | none => .next s
  | some q =>
    let w := q.w
    let s := s.updChip fun c => { c with
      reqs := c.reqs.filter fun p => !(p.kind == .ring && p.w == w && (p.id == q.id || p.h.rnum == q.h.rnum)) }
    let s := s.updIss w fun me => { me with
      presq := me.presq.filter fun h => !(isTokOp h.i && h.rnum == q.h.rnum) }
    let slot := BitVec.ofNat 64 (leNat q.data)
    let dt := if 8 ≤ q.stat then q.issued else s.tick
    let r := mkRec w q.h.pc q.h.itick q.h.rnum dt q.h.pc (seqInfo s q.stat slot q.aux)
    let s := discardAll s w false
    let back := match (s.iss w).redo with | some g => g.pcs | none => (s.iss w).pcs
    .next (deliver s w r s.tick ((s.iss w).selected ((s.coreOf w).lanes w.n)) back)

/-! ### The token instructions (R357, R364, R366) -/

/-- Slot operand of a lane: a vector register, or a scalar one's whole value. -/
def Ctx.slotOp (x : Ctx) (b : BSrc) (l : Nat) : DWord :=
  match b with
  | .vec r => (x.v r l).setWidth 64
  | .sca r => x.sc r l
/-- Issue of a held token operation: cause 2 alone may stop it; in lean mode the warp parks (R366). -/
def tokOp (s : State) (m : Mods) (i : Instr) (b : BSrc) (val : Ctx → Nat → DWord) : Out :=
  let x := s.ctx m
  if afterAtomic x then illegalRegion x 2
  else if x.act.isEmpty then .next (finish x s {})
  else
    let lanes : List LaneAcc := x.act.map fun l => ⟨l, 0, 0, 0, [val x l, x.slotOp b l]⟩
    let s := emit s x.w (x.hold i lanes [] [])
    let s := s.updIss x.w fun me => me.mapOpen fun r => { r with seqop := true }
    .next (finish x s { wait := if x.c.lean then .until_ (s.tick + 48) else .run })
/-- TOKAPP and TOKAPP.d (R359). -/
def execTokapp (m : Mods) (a : BitVec 9) (b : BSrc) (s : State) : Out :=
  tokOp s m (.tokapp m a b) b fun x l => (x.v a l).setWidth 64
def execTokappD (m : Mods) (a : BitVec 9) (b : BSrc) (s : State) : Out :=
  tokOp s m (.tokappD m a b) b fun x l => (x.v a l).setWidth 64
/-- TOKCONF (R360). -/
def execTokconf (m : Mods) (a : BitVec 9) (b : BSrc) (s : State) : Out :=
  tokOp s m (.tokconf m a b) b fun x l => (x.v a l).setWidth 64
/-- SLOEW (R355): the value is a pair. -/
def execSloew (m : Mods) (a : BitVec 9) (b : BSrc) (k : BitVec 9) (s : State) : Out :=
  tokOp s m (.sloew m a b k) b fun x l => x.me.vpair (x.tl l) a.toNat l
/-- A read of slots (R364, R366): every lane's checks at the first pass, then the results at 40. -/
def sloeRead (s : State) (m : Mods) (d : BitVec 9) (b : BSrc) (bad : Bool) (pair : Bool) (f : Slot → DWord) : Out :=
  let x := s.ctx m
  let tgts : List Tgt := if pair then [.v d.toNat, .v (d.toNat + 1)] else [.v d.toNat]
  let region := match x.me.openRegion with
    | some r => if !x.act.isEmpty && tgts.any (protects r.mask) then some 1 else if r.atomic then some 2 else none
    | none => none
  match region with
  | some k => illegalRegion x k
  | none =>
    match x.act.findSome? fun l =>
        (match slotCause s x.c.tenant (slotNo (x.slotOp b l)) with
         | some k => some (k, l)
         | none => if bad then some (12, l) else none) with
    | some (k, l) => trap x (seqInfo s k (x.slotOp b l) l)
    | none =>
      let v := fun l => f (s.slot ((x.slotOp b l).toNat))
      let lo : Wr := (.v d.toNat, x.act.map fun l => (l, v l &&& 0xFFFFFFFF))
      let hi : Wr := (.v (d.toNat + 1), x.act.map fun l => (l, v l >>> 32))
      .next (finish x (addPend s x.w (x.vis 40 0) (if pair then [lo, hi] else [lo])) {})
/-- TOKGET (R364). -/
def execTokget (m : Mods) (d : BitVec 9) (b : BSrc) (i : BitVec 3) (s : State) : Out :=
  sloeRead s m d b false false fun x =>
    if i.toNat < x.f 3 48 4 then (x.packed 5 i.toNat).setWidth 64 else 0
/-- SLOER (R364). -/
def execSloer (m : Mods) (d : BitVec 9) (b : BSrc) (k : BitVec 9) (s : State) : Out :=
  sloeRead s m d b (decide (271 < k.toNat)) true fun x => if k = 15 then 0 else x.d k.toNat
/-- SLOEQ (R364). -/
def execSloeq (m : Mods) (d : BitVec 9) (b : BSrc) (s : State) : Out :=
  sloeRead s m d b false false fun x => BitVec.ofNat 64 (x.f 14 0 16 + x.f 3 48 4 * 2 ^ 16 +
    x.drafts % 32 * 2 ^ 20 + b2n x.frz * 2 ^ 25 + x.f 13 0 4 * 2 ^ 26)

end Sys2Proof.Machine
end

