-- ==== Sys2Proof/Machine/System.lean ====
section
/-!
DEFINITION. System instructions: CSR access, the tick, traps, calls, ends, and launches by a program (R151,
R189, R230, R231, R367 to R373, R410 to R412). Their waits end in Machine/Issue.lean.
-/
namespace Sys2Proof.Machine

/-! ### CSRs (R230, R231, R371) -/

/-- COREMAP as a core of a cluster reads it: the selected entry, and the free spares and degraded state of its cluster
(R172). -/
def coreMapWord (s : State) (cl : Nat) : DWord :=
  let r := (s.chip.cluster cl).cmap
  let m := (s.chip.cluster r.clsel).cmap
  let phys := fun k => (assoc m.phys k).getD k
  let used := (List.range 64).map phys
  let spares := (List.range 66).filter fun p => !m.fenced.contains p && !used.contains p
  BitVec.ofNat 64 (r.lsel + phys r.lsel * 2 ^ 8 + r.clsel * 2 ^ 16 + spares.length % 4 * 2 ^ 24 + b2n (used.contains 0x7F) * 2 ^ 26)
/-- A write of COREMAP: it selects an entry and sets its position (DEDUCED, log 41). One that names a fenced or taken position,
none, or that would move a core which holds a block, is ignored whole (R172). -/
def coreMapWrite (s : State) (cl : Nat) (v : DWord) : State :=
  let lsel := bits v 0 6
  let phys := bits v 8 7
  let clsel := bits v 16 6
  let m := (s.chip.cluster clsel).cmap
  let taken := (List.range 64).any fun k => k != lsel && (assoc m.phys k).getD k == phys
  let bad := phys != 0x7F && (decide (65 < phys) || m.fenced.contains phys || taken)
  let moves := phys != (assoc m.phys lsel).getD lsel
  if bad || (moves && ((s.core clsel lsel).blocks.any fun b => !b.ended)) then s
  else
    let s := s.updCluster clsel fun k => { k with cmap := { k.cmap with phys := assocSet k.cmap.phys lsel phys } }
    s.updCluster cl fun k => { k with cmap := { k.cmap with lsel := lsel, clsel := clsel } }
/-- The word of a CSR with every field that the privileged view shows (R7, R231). -/
def csrStored (s : State) (w : Iss) (n : Nat) : DWord :=
  let c := s.coreOf w
  let me := c.iss w.n
  match csrIdx n with
  | 0xD => BitVec.ofNat 64 (me.rcount % 16 + me.rlimit % 16 * 16 + me.rnum % 2 ^ 32 * 2 ^ 32)
  | 0xE => c.partw
  | 0x10 => BitVec.ofNat 64 (bits s.chip.orchst 0 3)
  | 0x900 => c.dcbptr
  | 0x901 => c.ptbase
  | 0x902 => c.modew
  | 0x903 => coreMapWord s w.cl
  | 0x904 => s.chip.psnbase
  | k => csrWord me k
/-- Store a CSR's word (R189, R393: a LIMIT or a FILLP of 0 is not written). -/
def csrStore (s : State) (w : Iss) (n : Nat) (v : DWord) : State :=
  match csrIdx n with
  | 2 => s.updIss w fun me => { me with flags := v }
  | 3 => s.updIss w fun me => { me with flagen := v }
  | 4 => s.updIss w fun me => { me with seed := v }
  | 0xC => s.updIss w fun me => { me with fmask := v }
  | 0xD => s.updIss w fun me => { me with
      rcount := bits v 0 4, rlimit := if bits v 4 4 = 0 then me.rlimit else bits v 4 4, rnum := bits v 32 32 }
  | 0xE => s.updCore w.cl w.co fun c => { c with partw := v }
  | 0xF => s.updIss w fun me => { me with trapvec := v }
  | 0x10 => s.updChip fun h => { h with orchst := v }
  | 0x900 => s.updCore w.cl w.co fun c => { c with dcbptr := v }
  | 0x901 => s.updCore w.cl w.co fun c => { c with ptbase := v }
  | 0x902 => s.updCore w.cl w.co fun c => { c with
      modew := if bits v 8 8 = 0 then setBits v 8 8 (bits c.modew 8 8) else v }
  | 0x903 => coreMapWrite s w.cl v
  | 0x904 => s.updChip fun h => { h with psnbase := v }
  | _ => s
/-- A held CSR write at its presentation (R371): it changes the fields that the number's view writes; a register that the
view only reads stays (R230). -/
def presentCsr (s : State) (w : Iss) (h : Held) : State :=
  match csrOf h.i with
  | none => s
  | some n => if csrMask n = 0 then s else csrStore s w n (csrNew h.i n (csrStored s w n) (nth h.vals 0 0))
/-- The U view of an assigned CSR for a lane of the running issuer (R151, R189, R231). -/
def csrRead (x : Ctx) (n lane : Nat) : DWord :=
  let me := x.me
  match n with
  | 0x0 => BitVec.ofNat 64 x.t
  | 0x1 => BitVec.ofNat 64 (bits x.s.chip.sstep 0 33)
  | 0x2 => csrSeen me 2 &&& 0x1F
  | 0x3 | 0x4 | 0xC | 0xF => csrSeen me n
  | 0x5 => BitVec.ofNat 64 (if x.front then 0 else lane)
  | 0x6 => BitVec.ofNat 64 x.w.n
  | 0x7 =>
    let b := if x.front then (match x.c.blocks.find? fun b => b.idx == 0 with | some b => b.num | none => 0) else me.block
    BitVec.ofNat 64 (b % 2 ^ 24 + (if x.front then 0 else me.bidx % 4) * 2 ^ 24 + (x.c.bpc - 1) % 4 * 2 ^ 26)
  | 0x8 => BitVec.ofNat 64 x.w.co
  | 0x9 => BitVec.ofNat 64 x.w.cl
  | 0xA => BitVec.ofNat 64 chipNo
  | 0xB => BitVec.ofNat 64 (x.c.launch % 2 ^ 31)
  | 0xD => BitVec.ofNat 64 (me.rcount % 16 + me.rnum % 2 ^ 32 * 2 ^ 32)
  | 0xE => x.c.partw
  | 0x10 => BitVec.ofNat 64 (bits x.s.chip.orchst 0 3)
  | 0x11 => BitVec.ofNat 64 (bits (x.s.chip.cluster x.w.cl).pairst 0 33)
  | _ => 0
/-- An assigned CSR as the view of its number shows it; the privileged view shows all fields, with the issuer's own held
writes (R7, R177, R231). -/
def csrShow (x : Ctx) (n lane : Nat) : DWord :=
  if n < 0x800 then csrRead x n lane
  else if csrMask n = 0 then csrRead x (csrIdx n) lane
  else csrStored (x.me.allHeld.foldl (fun s h => presentCsr s x.w h) x.s) x.w n
/-- Privilege, then the number (R230, R231): only a service core is privileged (R7). -/
def withCsr (x : Ctx) (csr : BitVec 12) (k : Out) : Out :=
  let n := csr.toNat
  if 0x800 ≤ n ∧ !x.c.priv then trap x { cls := 0x02 }
  else if 0x11 < csrIdx n ∧ (n < 0x900 ∨ 0x904 < n) then illegal x 16
  else k
/-- Targets of a 64-bit result, and its writes by lane (R351). -/
def tgts64 (x : Ctx) (r : Nat) : List Tgt := if x.front then [.s r] else [.v r, .v (r + 1)]
def wr64 (x : Ctx) (r : Nat) (vs : List (Nat × DWord)) : List Wr :=
  if x.front then [(.s r, vs)]
  else [(.v r, vs.map fun v => (v.1, BitVec.ofNat 64 (bits v.2 0 32))), (.v (r + 1), vs.map fun v => (v.1, BitVec.ofNat 64 (bits v.2 32 32)))]
/-- A 64-bit result of 4 ticks' latency, the value by lane. -/
def op64 (x : Ctx) (r : BitVec 9) (f : Nat → DWord) : Out :=
  alu x 4 (tgts64 x r.toNat) (wr64 x r.toNat (x.act.map fun l => (l, f l))) 0
/-- The 64-bit operand: on a warp the pair of the lowest active lane (R351). -/
def Ctx.low64 (x : Ctx) (r : BitVec 9) : DWord := x.reg64 r (x.act.headD 0)

/-- CSRR (R371). -/
def execCsrr (m : Mods) (r : BitVec 9) (csr : BitVec 12) (s : State) : Out :=
  let x := s.ctx m
  withCsr x csr (op64 x r (csrShow x csr.toNat))
/-- CSRW (R371): held. -/
def execCsrw (m : Mods) (r : BitVec 9) (csr : BitVec 12) (s : State) : Out :=
  let x := s.ctx m
  withCsr x csr (holdOp x (x.hold (.csrw m r csr) [] [x.low64 r] []))
/-- The mask of CSRS and CSRC. -/
def Ctx.csrSrc (x : Ctx) (v : CsrSrc) : DWord :=
  match v with
  | .reg r => x.low64 r
  | .imm v => v.setWidth 64
/-- CSRS (R371): held. -/
def execCsrs (m : Mods) (v : CsrSrc) (csr : BitVec 12) (s : State) : Out :=
  let x := s.ctx m
  withCsr x csr (holdOp x (x.hold (.csrs m v csr) [] [x.csrSrc v] []))
/-- CSRC (R371): held. -/
def execCsrc (m : Mods) (v : CsrSrc) (csr : BitVec 12) (s : State) : Out :=
  let x := s.ctx m
  withCsr x csr (holdOp x (x.hold (.csrc m v csr) [] [x.csrSrc v] []))
/-- RDTICK (R371): TICK at the first pass tick. -/
def execRdtick (m : Mods) (r : BitVec 9) (s : State) : Out :=
  let x := s.ctx m
  op64 x r fun _ => BitVec.ofNat 64 x.t

/-! ### Traps, calls and ends (R368 to R370, R412) -/

/-- The tested bits of TRAPF: FLAGS in 4:0, and on a warp with SPF, FMASK in 12:8 (R368, R405). -/
def trapfBits (x : Ctx) : Nat :=
  bits (x.me.flags &&& x.me.flagen) 0 5 +
    (if !x.front && bit x.me.flagen 8 then bits x.me.fmask 0 5 * 2 ^ 8 else 0)
/-- TRAPF (R368): it parks until its issuer's results are visible, then tests. -/
def execTrapf (m : Mods) (s : State) : Out :=
  let x := s.ctx m
  if afterAtomic x then illegalRegion x 2
  else if !x.act.isEmpty && !(quiet s x.w) then .next (parkHere x s .trapf)
  else if x.act.isEmpty || trapfBits x == 0 then
    match regionCause x [] with
    | some k => illegalRegion x k
    | none => .next (finish x s {})
  else .next (blockAt x (.trapf m) [BitVec.ofNat 64 (trapfBits x)])
/-- TRAP (R369). -/
def execTrap (m : Mods) (imm : BitVec 16) (s : State) : Out :=
  let x := s.ctx m
  if x.act.isEmpty then passOver x
  else blockingOp x (.trap m imm) [imm.setWidth 64]
/-- SYS (R369): the number and the register's value go to firmware after the commit. -/
def execSys (m : Mods) (n : BitVec 16) (r : BitVec 9) (s : State) : Out :=
  let x := s.ctx m
  if x.act.isEmpty then passOver x
  else blockingOp x (.sys m n r) [x.low64 r]
/-- Whether a debug session is on the domain of the issuer's grid (R375, R438). -/
def dbgSession (s : State) (w : Iss) : Bool :=
  match (domOfCore s w.cl w.co).bind s.dom with
  | some d => d.dbg
  | none => false
/-- BKPT (R369, R442). -/
def execBkpt (m : Mods) (imm : BitVec 16) (s : State) : Out :=
  let x := s.ctx m
  if !x.act.isEmpty && dbgSession s x.w then blockingOp x (.bkpt m imm) [imm.setWidth 64]
  else match regionCause x [] with
    | some k => illegalRegion x k
    | none => .next (finish x s {})
/-- HALT (R370): on a warp the active threads end, a held effect; after the last one the slot waits for its
commits. On the front thread it is a blocking point. -/
def execHalt (m : Mods) (s : State) : Out :=
  let x := s.ctx m
  if x.act.isEmpty then
    match regionCause x [] with
    | some k => illegalRegion x k
    | none => .next (finish x s {})
  else if x.front then blockingOp x (.halt m) []
  else match regionCause x [] with
    | some k => illegalRegion x k
    | none =>
      let s := s.updIss x.w fun me => { me with ended := me.ended ++ x.act }
      let s := emit s x.w (x.hold (.halt m) [] [] [])
      if ((s.iss x.w).live (x.c.lanes x.w.n)).isEmpty then .next (blockAt { x with s := s } (.halt m) [])
      else .next (finish x s {})
/-- IRET (R412): a blocking point of a handler. -/
def execIret (m : Mods) (s : State) : Out :=
  let x := s.ctx m
  if !bit x.me.trapvec 48 then illegal x 3
  else if x.act.isEmpty then passOver x
  else blockingOp x (.iret m) []
/-- TLBINV (R369): privileged (R7, R230). MODE 3 does not decode; the issuer parks until the invalidation completes. -/
def execTlbinv (m : Mods) (r : BitVec 9) (mode : BitVec 2) (tenant : BitVec 6) (s : State) : Out :=
  let x := s.ctx m
  if !x.c.priv then trap x { cls := 0x02 }
  else match regionCause x [] with
    | some k => illegalRegion x k
    | none =>
      if x.act.isEmpty then .next (finish x s {})
      else
        let id := s.fresh.1
        let s := invalidate s (some x.w) fun e => match mode.toNat with
          | 0 => e.hits tenant.toNat (bits (x.low64 r) 0 51)
          | 1 => e.tenant == tenant.toNat
          | _ => true
        .next (finish x s { wait := .inv id })
/-- GLAUNCH (R372): the packet is read at issue; a bad place gives no packet. -/
def execGlaunch (m : Mods) (r : BitVec 9) (s : State) : Out :=
  let x := s.ctx m
  if !x.front then illegal x 3
  else if x.act.isEmpty then passOver x
  else
    let a := x.low64 r
    let off := bits a 0 24
    let ok := bits a 24 40 == 0 && off % 64 == 0 && decide (off + 64 ≤ x.c.scSize) &&
      Sparse.get false x.c.scInit (off / 64)
    blockingOp x (.glaunch m r) (if ok then s.dwords (keySp x.w.cl x.w.co off) 8 else [])
/-- NOP (R373). -/
def execNop (park : Bool) (s : State) : Out := alu (s.ctx ⟨park, 0, false⟩) 0 [] [] 0

/-! ### Firmware's command queue (R374) -/

/-- The command that a code names (R374, R438, R459). -/
def cmdInstr (code : Nat) : Instr :=
  match code with
  | 0x01 => .domnew | 0x02 => .domdel | 0x03 => .domset
  | 0x10 => .qnew | 0x11 => .qdel
  | 0x20 => .schload | 0x21 => .phset
  | 0x30 => .gpreempt | 0x31 => .gresume | 0x32 => .gkill
  | 0x40 => .sloenew | 0x41 => .sloedel | 0x42 => .kvbind
  | 0x50 => .ptmap | 0x51 => .ptunmap
  | 0x60 => .dbgatt | 0x61 => .dbgdet | 0x62 => .haltreq | 0x63 => .resume
  | 0x64 => .staterd | 0x65 => .statewr | 0x66 => .wpset | 0x67 => .predload
  | 0x68 => .ctrset | 0x69 => .trring | 0x6A => .replay | 0x6B => .exitrd | 0x6C => .rlogrd
  | 0x70 => .attest | 0x71 => .extload | 0x72 => .cfgrd | 0x73 => .cfgwr | 0x74 => .healthrd
  | _ => .unknownCommand
/-- A command joins the queue; firmware performs one at a time, in order of arrival (R374). -/
def submitCmd (s : State) (c : Cmd) : State :=
  let id := s.fw.nextCmd
  let first := s.fw.cmds.isEmpty
  let s := { s with fw := { s.fw with nextCmd := id + 1, cmds := s.fw.cmds ++ [(id, c)] } }
  if first then
    let (d, s) := s.free 4000
    s.sched (s.tick + d) (obj id) (cmdInstr c.code)
  else s
/-- SYS reaches firmware: the register's value is the offset of a 64-byte argument block. A block that is
misaligned, out of range or uninitialised gives no arguments (log 10). -/
def submitSys (s : State) (w : Iss) (n : Nat) (v : DWord) : State :=
  let c := s.coreOf w
  let off := bits v 0 24
  let ok := bits v 24 40 == 0 && off % 64 == 0 && decide (off + 64 ≤ c.scSize) && Sparse.get false c.scInit (off / 64)
  submitCmd s ⟨.sys w, n, if ok then s.dwords (keySp w.cl w.co off) 8 else []⟩

end Sys2Proof.Machine
end

