-- ==== Sys2Proof/Machine/Region.lean ====
section
/-!
DEFINITION. Regions as they commit, present their effects and are re-entered; the waits of blocking points; the
ends of issuers, blocks and grid parts; strikes, pool errors, pairs and superstep re-execution; deliveries to
handlers and to firmware (R120, R150, R175 to R209, R399 to R416).
-/
namespace Sys2Proof.Machine

/-! ### Ends (R150, R304, R311, R370, R408) -/

/-- The record of a faulted object of a core that no instruction has named (R408). -/
def unnamedFault (c : Core) : Option Rec :=
  (c.wins.findSome? fun w => if w.2.v then w.2.fault else none).or
    ((c.tileFault.map (·.2)).head?.or ((c.latches.findSome? (·.fault)).or
      ((c.streams.findSome? (·.fault)).or (c.cslots.findSome? (·.fault)))))
/-- A core's part of its grid has ended (R150): a faulted object ends the grid (R408); else, when every part on
this chip has ended, the grid retires. -/
def partEnd (s : State) (cl co : Nat) : State :=
  let s := s.updCore cl co fun c => { c with active := false, inTurn := false }
  match unnamedFault (s.core cl co) with
  | some r => toFirmware s (setNth 0 r 0 (setBits (nth r 0 0) 17 1 1)) (some ⟨cl, co, 16⟩)
  | none =>
    match (s.core cl co).grid.bind s.grid with
    | none => s
    | some g =>
      if g.cores.all fun k => !(s.core k.1 k.2).active then
        (s.updGrid g.id fun g => { g with state := 4 }).sched s.tick (obj g.id) .packetRetire
      else s
/-- An issuer ends: its memberships drop, its queue entries are released, its barrier is judged again, and its
block, or the part, may end with it. -/
def endIssuer (s : State) (w : Iss) : State :=
  let phs := (s.iss w).phs
  let s := s.updIss w fun me => { me with
    wait := .ended, regions := [], redo := none, hidden := [], phs := [], pend := [] }
  let s := phs.foldl (fun s b => phDrop s b.2.1 w b.1 false) s
  let s := s.updCore w.cl w.co freeDq
  let c := s.coreOf w
  let s := match c.blockOf w.n with
    | some bi =>
      let b := c.block bi
      let done := !b.ended && (c.issuers.filter fun i => i.slot < 16 ∧ i.bidx = bi).all fun i => i.wait == .ended
      if done then s.updCore w.cl w.co fun c =>
        let b : Block := { c.block bi with ended := true }
        c.setBlock { b with exitRec := some (exitRecord c b) }
      else barJudge s w.cl w.co bi
    | none => s
  let c := s.coreOf w
  if c.active && c.issuers.all (fun i => i.wait == .ended) then partEnd s w.cl w.co else s

/-! ### Waits of blocking points (R184) -/

/-- The record of a blocking point in a Rind interval (R198). -/
def blockSig (i : Instr) : BitVec 56 := effSig ⟨i, [], [], [], 0, 0, 0⟩
/-- The results of a blocking point with outcome v, and the ticks until they are visible. -/
def outcome (front : Bool) (i : Instr) (lanes : List Nat) (v : DWord) : Nat × List Wr :=
  let all := fun x : DWord => lanes.map fun l => (l, x)
  match i with
  | .sys _ _ r => (4, if front then [(.s r.toNat, all v)]
      else [(.v r.toNat, all (BitVec.ofNat 64 (bits v 0 32))), (.v (r.toNat + 1), all (BitVec.ofNat 64 (bits v 32 32)))])
  | .phwait _ p _ | .phsw _ p _ => (0, [(predTgt front p, all v)])
  | .hwait _ p _ => (4, [(predTgt front p, all v)])
  | .oalloc _ d _ _ | .ofree _ d _ => (4, [(.s d.toNat, all v)])
  | .glaunch _ r => (4, [(.s r.toNat, all v)])
  | .cwait _ d _ => (4, [(.s d.toNat, all v)])
  | _ => (4, [])
/-- A blocking point completes with an outcome: its issuer goes on. -/
def passBlock (s : State) (w : Iss) (i : Instr) (lanes : List Nat) (pc : Nat) (v : DWord) : State :=
  let (l, ws) := outcome (w.n == 16) i lanes v
  unblock (addPend s w (s.tick + l) ws) w pc
/-- The same, and the outcome is recorded (R198). -/
def completeBlock (s : State) (w : Iss) (i : Instr) (lanes : List Nat) (pc : Nat) (v : DWord) : State :=
  logEffect (passBlock s w i lanes pc v) w true (blockSig i) [(0, v)]
/-- The blocking points that a replay of an interval performs again, once their record has been compared (R198, R200): loads,
which return current values, and those whose effect is a transfer of control. The others complete at once. -/
def performsAgain (i : Instr) : Bool :=
  match i with
  | .ld .. | .ldh .. | .trap .. | .trapf .. | .iret .. | .halt .. | .st .. | .stMc .. | .red .. | .atom .. => true
  | _ => false
/-- A blocking point without results goes on, and its completion is recorded (R198). -/
def logBlock (s : State) (w : Iss) (i : Instr) : State := logEffect s w true (blockSig i) []
/-- A fault that a blocking point's wait ends with: the record names it as the place of delivery. -/
def faultBlock (s : State) (w : Iss) (pc : Nat) (r : Rec) : State :=
  deliver s w (setNth 0 r 5 (setBits (nth r 5 0) 41 23 pc)) s.tick
    ((s.iss w).selected ((s.coreOf w).lanes w.n)) (s.iss w).pcs
/-- A faulted window's fault is taken by the waiting instruction (R52). -/
def faultBlockWin (s : State) (w : Iss) (pc n : Nat) (r : Rec) : State :=
  faultBlock (s.updCore w.cl w.co fun c => { c.setWin n { c.win n with v := false, state := .absent, fault := none } with
    handles := c.handles.map fun k => if k = .idx n then .unbound else k }) w pc r
/-- The windows that a blocked scratchpad load waits for. -/
def blockedTouches (s : State) (w : Iss) (vals : List DWord) : List (Nat × Nat) :=
  ((unpackLanes vals).map fun l => match poolAddr w.co l.2.1 with
    | some (tc, off) => (((s.core w.cl tc).winsAt off).map fun e => (tc, e.1))
    | none => []).flatten.eraseDups
/-- A blocked scratchpad load at the beginning of its wait (R44, R52, R184, R286): its windows are touched, its lanes in
windows that are not full are switched off, and the others read. Its issuer goes on when the fills have ended. -/
def beginPoolLd (s : State) (w : Iss) (o : MemF) (sz : BitVec 2) (sx : Bool) (vals : List DWord) (pc : Nat) : State :=
  let n := 2 ^ sz.toNat
  let as := (unpackLanes vals).map fun l => (l.1, l.2.1)
  let c := s.coreOf w
  let r := poolRead s w.cl w.co (s.iss w) s.tick n false as
  match r.psn with
  | some (l, off) => raiseLate s w pc s.tick (s.iss w).rnum { cls := 8, lane := some l, d0 := BitVec.ofNat 64 off }
  | none =>
    let s := r.touched.foldl (fun s k => touch s ⟨w.cl, k.1, w.n⟩ k.2 none) s
    let (e, s) := bankPass s w s.tick (c.passes w.n) false as
    let s := poolOrder (switchOff s w r.offs pc) w
    addPend s w (s.tick + (c.passes w.n - 1) + (if as.any fun a => spaceOf a.2 == 5 then 28 else 6) + e)
      (loadWrites (w.n == 16) o.data.toNat n sx r.vals)
/-- It ends: the sectors that it has read enter the filter of the region that it opens (R180, R187). -/
def finishPoolLd (s : State) (w : Iss) (i : Instr) (vals : List DWord) (pc : Nat) : State :=
  filterAdd (unblockAgain (logBlock s w i) w pc) w ((unpackLanes vals).filterMap fun l =>
    (poolAddr w.co l.2.1).map fun p => keySp w.cl p.1 p.2 / 64)
/-- Whether a window's fill has ended for one that waits for it to be full. -/
def fillOver (e : Win) : Bool := e.state == .full || e.state == .draining || e.state == .faulted

/-- A warp whose selected threads have all ended, or a front thread at HALT, with its regions committed and its effects
presented, the held HALT last (R47, R120, R370, R412): threads hidden by a handler may be selected again. -/
def haltDone (s : State) (w : Iss) : State :=
  let me := s.iss w
  if w.n ≠ 16 ∧ me.hidden ≠ [] then
    openRegion (s.updIss w fun me => { me with
      hidden := [], trapSel := [], wait := .run, nextAt := s.tick, entered := false, delay := 0 }) w (me.rnum + 1) 0 .block me.pcs
  else endIssuer s w
/-- Look at the wait of a blocking point that has begun: it ends when its condition holds. -/
def pollWait (s : State) (w : Iss) : State :=
  match (s.iss w).wait with
  | .block i .wait lanes vals _ pc =>
    let n0 := (nth vals 0 0).toNat
    let win := s.win w.cl w.co n0
    match i with
    | .phwait _ _ q | .phsw _ _ q =>
      (match phWaitDone s w q.toNat n0 false with
       | some (p, s) => completeBlock s w i lanes pc (boolD p)
       | none => s)
    | .hwait .. =>
      (match win.state, win.fault with
       | .faulted, some r => faultBlockWin s w pc n0 r
       | .full, _ | .draining, _ => completeBlock s w i lanes pc (boolD win.psn)
       | _, _ => s)
    | .wtouch .. =>
      (match win.state, win.fault with
       | .faulted, some r => faultBlockWin s w pc n0 r
       | st, _ => if st = .filling ∨ st = .absent then s else completeBlock s w i lanes pc 0)
    | .ld .. =>
      let ts := blockedTouches s w vals
      if spaceOf (nth vals 1 0) < 4 then s
      else if ts.all fun k => fillOver (s.win w.cl k.1 k.2) || !(touchBlocks (s.win w.cl k.1 k.2)) &&
          (s.win w.cl k.1 k.2).state != .filling then finishPoolLd s w i vals pc
      else s
    | .st .. | .stMc .. | .red .. | .atom .. =>
      -- A release at .sys issues again once the writes before it and its zero-length read are done (R142).
      if !(writesDone s w 7) then s
      else if !(s.iss w).flushed then startFlush s w ⟨i, [], [], [], pc, s.tick, (s.iss w).rnum⟩
      else openRegion (s.updIss w fun me => { me with wait := .retry, nextAt := s.tick }) w ((s.iss w).rnum + 1) 0 .block
        (s.iss w).pcs
    | .halt _ => if (s.iss w).presq.isEmpty then haltDone s w else s
    | .fence _ sc od =>
      if !(writesDone s w sc.toNat) then s
      else if sc == 7 && !(s.iss w).flushed then startFlush s w ⟨i, [], [], [], pc, s.tick, (s.iss w).rnum⟩
      else if od.getLsbD 0 && !(loadsVisible s w sc.toNat) then s
      else completeBlock (s.updIss w fun me => { me with flushed := false }) w i lanes pc 0
    | .cwait _ sd n =>
      let sl := nth (s.coreOf w).cslots n.toNat {}
      (match sl.fault with
       | some r => faultBlock (s.updCore w.cl w.co fun c => { c with
            cslots := setNth {} c.cslots n.toNat { nth c.cslots n.toNat {} with fault := none } }) w pc r
       | none =>
         match cwaitDone s w sd n.toNat pc with
         | some s => logEffect s w true (blockSig i) [(0, BitVec.ofNat 64 (sl.status + sl.reason * 2 ^ 8))]
         | none => s)
    | _ => s
  | _ => s
/-- PCs of the issuer once its blocking point has been passed. -/
def pcsAfter (s : State) (w : Iss) (pc : Nat) : List Nat :=
  let me := s.iss w
  let sel := (me.selected ((s.coreOf w).lanes w.n)).filter fun t => me.pcOf t == pc
  sel.foldl (fun l t => setNth 0 l t (s.nextPc w.cl pc)) me.pcs
/-- The trap of TRAP or TRAPF is delivered after the commit (R368, R369). -/
def trapAfter (s : State) (w : Iss) (it pc : Nat) (i : TrapInfo) : State :=
  let sel := (s.iss w).selected ((s.coreOf w).lanes w.n)
  deliver s w (mkRec w pc it (s.iss w).rnum s.tick pc i) s.tick sel (pcsAfter s w pc)
/-- Firmware takes up the oldest request for Orchard memory (R83). -/
def orchNext (s : State) : State :=
  match s.fw.orchq with
  | [] => s
  | w :: _ =>
    let (d, s) := s.free 4000
    s.sched (s.tick + d) w (match (s.iss w).wait with | .block (.ofree ..) .. => .ofreeComplete | _ => .oallocComplete)
/-- The wait of a blocking point begins. -/
def beginWait (s : State) (w : Iss) (i : Instr) (lanes : List Nat) (vals : List DWord) (it pc : Nat) : State :=
  let s := s.updIss w fun me => { me with wait := .block i .wait lanes vals it pc }
  match i with
  | .bar _ => barArrive s w
  | .ssync _ => s
  | .sys _ n _ => submitSys s w n.toNat (nth vals 0 0)
  | .oalloc .. | .ofree .. =>
    let first := s.fw.orchq.isEmpty
    let s := { s with fw := { s.fw with orchq := s.fw.orchq ++ [w] } }
    if first then orchNext s else s
  | .glaunch .. => s.sched s.tick ⟨w.cl, w.co, 2 ^ 32⟩ .packetHeaderRead
  | .trap _ imm => trapAfter (logBlock s w i) w it pc { cls := 0x12, d0 := imm.setWidth 64 }
  | .trapf _ => trapAfter (logBlock s w i) w it pc { cls := 0x11, d0 := nth vals 0 0 }
  | .bkpt .. => { (logBlock s w i).updIss w fun me => { me with wait := .stopped } with
      dbg := { s.dbg with stopped := s.dbg.stopped ++ [w] } }
  | .iret _ => irets (logBlock s w i) w
  | .wtouch .. => pollWait (touch s w (nth vals 0 0).toNat none) w
  | .hwait .. => pollWait (touch s w (nth vals 0 0).toNat none) w
  | .ldh .. =>
    -- The touch has been made; the LDH parks and issues again when the window is full (R290).
    let s := logBlock (touch s w (nth vals 0 0).toNat none) w i
    openRegion (s.updIss w fun me => { me with wait := .retry, nextAt := s.tick }) w ((s.iss w).rnum + 1) 0 .block
      (s.iss w).pcs
  | .ld o sz sx =>
    let ls := unpackLanes vals
    let sp := spaceOf (nth vals 1 0)
    if sp < 4 then
      let me := s.iss w
      let acq := o.order == 1 || fenceAhead s w.cl 16 pc
      let h : Held := ⟨i, reqLanes w.cl me (2 ^ sz.toNat) sp ls, [], [], pc, it, me.rnum⟩
      let s := watchThread s h w 0 (2 ^ sz.toNat) (ls.map fun l => (l.2.1, s.dword (memKey sp (l.2.2.1 / 8 * 8))))
      let (id, s) := s.fresh
      startReq s (loadReq s w id h sp s.tick (ls.any (fun l => bit l.2.2.2 5) && !acq) acq false)
    else pollWait (beginPoolLd s w o sz sx vals pc) w
  | _ => pollWait s w
/-- Every region of the issuer has committed: the wait of its blocking point begins (R184). One that the block's interval
recorded is compared with its record, and its recorded outcome is taken at once (R200). -/
def startWait (s : State) (w : Iss) : State :=
  match (s.iss w).wait with
  | .block i .commit lanes vals it pc =>
    match (s.iss w).suppress.find? (·.1) with
    | some (o, sg, res) =>
      if sg = (blockSig i).toNat then
        let s := s.updIss w fun me => { me with suppress := me.suppress.erase (o, sg, res) }
        if performsAgain i then beginWait s w i lanes vals it pc
        else passBlock s w i lanes pc (nth (res.map (·.2)) 0 0)
      else match (s.coreOf w).blockOf w.n with
        | some bi => killBlock s w.cl w.co bi 2
        | none => s
    | none => beginWait s w i lanes vals it pc
  | _ => s
/-- An issuer that a kill has ended gives up its memberships and its queue entries, and its core's part may end with it
(R150, R166, R311, R399). -/
def sweepEnds (s : State) (c : Core) : State :=
  let gone := c.issuers.filter fun i => i.wait == .ended && !i.phs.isEmpty
  let s := gone.foldl (fun s i =>
    let w : Iss := ⟨c.cl, c.co, i.slot⟩
    i.phs.foldl (fun s b => phDrop s b.2.1 w b.1 false) (s.updIss w fun me => { me with phs := [] })) s
  let s := if c.dq.isEmpty then s else s.updCore c.cl c.co freeDq
  if !c.issuers.isEmpty && c.issuers.all (fun i => i.wait == .ended) then partEnd s c.cl c.co else s
/-- Look at the waits of every issuer, as a happening of the tick may have ended them. -/
def pollAll (s : State) : State :=
  let s := s.cores.foldl (fun s c => if !c.active then s else c.issuers.foldl (fun s i => pollWait s ⟨c.cl, c.co, i.slot⟩) s) s
  (s.cores.filter (·.active)).foldl sweepEnds s

/-! ### Commit and presentation (R120, R122, R182, R198, R200, R204) -/

/-- Whether the oldest region of an issuer may commit now (R182). -/
def regionReady (s : State) (w : Iss) (r : Region) : Bool :=
  let me := s.iss w
  r.closed.isSome && decide (r.due ≤ s.tick) && decide (me.lastCommit < s.tick) &&
    !(s.chip.reqs.any fun q => q.w == w && (q.kind == .load || q.kind == .stamp) && q.rnum == r.num) &&
    !(r.atomic && (me.retry.isSome || (s.chip.reqs.any fun q => q.w == w && q.kind == .atom) ||
      me.presq.any (fun h => isReturning h.i) || me.pend.any fun p => p.rnum == 2 ^ 32 && decide (s.tick < p.vis)))
/-- What a region's commit does, beside the checks; on the front thread a follow-on may issue now (R55). -/
def commitRegion (s : State) (w : Iss) (r : Region) : State :=
  let s := ((logPops s w r).updIss w fun me => { me with
    regions := me.regions.drop 1, rcount := 0, lastCommit := s.tick, presq := me.presq ++ r.held }).count 6 w 1
  let s := if r.held.isEmpty then s else kickPres s w s.tick
  let s := s.updCore w.cl w.co freeDq
  let s := if w.n = 16 then kickEngines s w.cl w.co else s
  if (s.iss w).regions.isEmpty then startWait s w else s
/-- A pair mismatch (R204, R206): every uncommitted region of the members goes; a second one on the same region parks the
pair while firmware tests both members. -/
def pairMismatch (s : State) (w : Iss) (num : Nat) : State :=
  let key := (w.co * 32 + w.n, num)
  let again := (s.chip.cluster w.cl).mism.contains key
  let s := s.updCluster w.cl fun k => { k with mism := if again then k.mism else k.mism ++ [key] }
  let s := ((s.coreOf w).issuers.map (·.slot)).foldl (fun s n => discardBy s ⟨w.cl, w.co, n⟩ 0 3) s
  if again then
    let (d, s) := s.free 4000
    let (f, s) := s.free 1
    (s.updCore w.cl w.co fun c => { c with halt := true }).sched (s.tick + d) ⟨w.cl, w.co, 0⟩ (.pairSelfTest (f == 1))
  else s
/-- REGION_COMMIT (R182): the oldest region commits when its conditions hold; in pair mode the members'
checks are compared. What the other member folded, and whether one alone met a fault, is a free value (log 4). -/
def execRegionCommit (s : State) : Out :=
  let w := s.cur
  let me := s.iss w
  match me.regions with
  | [] => .next s
  | r :: _ =>
    if r.closed.isNone then .next s
    else if !(regionReady s w r) then .next (s.sched (max (s.tick + 1) r.due) w .regionCommit)
    else if (s.coreOf w).pair && !bit (s.chip.cluster w.cl).pairst w.co then
      let (f, s) := s.freeD
      if f = r.crcA then
        .next (commitRegion (s.updCluster w.cl fun k => { k with mism := k.mism.filter fun m => m.1 != w.co * 32 + w.n }) w r)
      else .next (pairMismatch s w r.num)
    else .next (commitRegion s w r)

/-- Present one held effect at its home or engine (R120, R177, R185). -/
def presentHeld (s : State) (w : Iss) (h : Held) : State :=
  match h.i with
  | .st .. | .stMc .. | .red .. => presentStore s w h
  | .atom .. => presentAtom s w h
  | .wdef _ hd _ _ => submitWdef s w h hd
  | .wdrain .. | .wrel .. => presentWcmd s w h
  | .phreg _ q _ mode => phRegister s (nth h.vals 0 0).toNat w q.toNat false mode
  | .phdrop _ q => phDrop s (nth h.vals 0 0).toNat w q.toNat false
  | .phsig _ q | .phsw _ _ q => phSignal s (nth h.vals 0 0).toNat w q.toNat false false (clockOf s w h.itick)
  | .dqpush .. => presentDqpush s w h
  | .mma .. | .mmas .. | .accz .. | .accmv .. | .accld .. => presentMatrix s w.cl w.co h none
  | .mgath .. | .cmprs .. => presentGather s w.cl w.co h
  | .epi o => presentEpi s w.cl w.co o h
  | .epset _ port _ => presentEpset s w.cl w.co port h
  | .efork _ n _ => presentEfork s w.cl w.co n h
  | .coll _ _ n => presentColl s w n h
  | .tokapp .. | .tokappD .. | .tokconf .. | .sloew .. => presentSeq s w h
  | .csrw .. | .csrs .. | .csrc .. => presentCsr s w h
  | _ => s
where
  /-- WDEF waits for a locked window, as other window commands do. -/
  submitWdef (s : State) (w : Iss) (h : Held) (hd : BitVec 4) : State :=
    if winLocked (s.coreOf w) s.tick (nth h.vals 0 0).toNat then
      submitWcmd s w.cl w.co ⟨h, (nth h.vals 0 0).toNat, w.n⟩
    else presentWdef s w h hd.toNat
/-- A presented effect that was presented before a rollback (R200): its signature is compared, and a returning
atomic receives its recorded results, lane by lane. -/
def replayEffect (s : State) (w : Iss) (h : Held) (sg : Nat) (res : List (Nat × DWord)) : State :=
  if sg ≠ (effSig h).toNat then
    match (s.coreOf w).blockOf w.n with
    | some bi => killBlock s w.cl w.co bi 2
    | none => s
  else match h.i with
    | .atom .. => atomResult s w h s.tick res
    | _ => s
/-- Whether a record of an interval is that of a held effect, and not of a DQPOP, which its region's commit compares. -/
def heldRecord (e : Bool × Nat × List (Nat × DWord)) : Bool :=
  !e.1 && e.2.1 != (effSig ⟨.dqpop ⟨false, 0, false⟩ 0, [], [], [], 0, 0, 0⟩).toNat
/-- HELD_EFFECT_PRESENTATION (R120): the issuer's oldest committed effect is presented; the next one a tick
later. A release waits for what comes before it (R122, R129). -/
def execHeldEffectPresentation (s : State) : Out :=
  let w := s.cur
  match (s.iss w).presq with
  | [] => .next (s.updIss w fun me => { me with presBusy := false })
  | h :: rest =>
    if releaseWaits s w h then .next (s.sched (s.tick + 1) w .heldEffectPresentation)
    else
      let s := s.updIss w fun me => { me with presq := rest, presented := me.presented + 1 }
      let s : State := match (s.iss w).suppress.find? heldRecord with
        | some e => replayEffect (s.updIss w fun me => { me with suppress := me.suppress.erase e }) w h e.2.1 e.2.2
        | none => presentHeld (logEffect s w false (effSig h) []) w h
      if (s.iss w).presq.isEmpty then .next (s.updIss w fun me => { me with presBusy := false })
      else .next (s.sched (s.tick + 1) w .heldEffectPresentation)
/-- REGION_REENTRY (R187): the issuer stands again at the RGN that opened its oldest discarded region, or in
that region anew when a blocking point or the start opened it. -/
def execRegionReentry (s : State) : Out :=
  let w := s.cur
  match (s.iss w).redo with
  | none => .next s
  | some r =>
    let s := s.updIss w fun me => { me with
      redo := none, pcs := r.pcs, wait := .run, entered := false, delay := 0, rnum := (r.num + 2 ^ 32 - 1) % 2 ^ 32 }
    match r.opener with
    | .rgn | .again => .next s
    | .start | .block => .next (openRegion s w r.num 0 r.opener r.pcs)

/-! ### Recovery causes (R192 to R209) -/

/-- Whether a region's window contains a tick (R182). -/
def Region.contains (r : Region) (t : Nat) : Bool :=
  decide (r.opened ≤ t) && (match r.closed with | none => true | some c => decide (t ≤ max c r.lastVis))
/-- The tile that a command reads beside its operands (R324, R330). -/
def readsTile (i : Instr) : Option Nat :=
  match i with
  | .mma o _ _ | .mmas o _ _ => if o.z then none else some o.acc.toNat
  | .accmv _ _ a => some a.toNat
  | _ => none
/-- The pending versions computed from a version, itself among them, in the order of their starts: those of the tiles given. -/
def computedFrom : List Nat → List Ver → List Nat
  | _, [] => []
  | ts, v :: vs =>
    match readsTile v.h.i with
    | some t => if ts.contains t then v.id :: computedFrom (ts ++ [v.tile]) vs else computedFrom (ts.filter (· != v.tile)) vs
    | none => computedFrom (ts.filter (· != v.tile)) vs
/-- Drop a pending version, the later ones computed from it, and their epilogues (R194). -/
def dropVersion (s : State) (cl co at_ : Nat) (v : Ver) : State :=
  let s := s.updCore cl co fun c =>
    let ids := v.id :: computedFrom [v.tile] ((c.vers.dropWhile fun o => o.id != v.id).drop 1)
    let gone := c.vers.filter fun o => ids.contains o.id
    { c with
      vers := c.vers.filter fun o => !ids.contains o.id
      jobs := c.jobs.filter fun j => !(ids.any fun k => j.verId == some k)
      arms := c.arms.filter fun a => !(gone.any fun o => o.tile == a.tile) }
  if (s.core cl co).bpc = 1 then rollback s cl co 0 false else terminateAt s cl co (recoveryRec s ⟨cl, co, 16⟩ 4 0 at_)
/-- STRIKE_REPORT (R186, R192, R194): regions whose windows hold the tick, and versions computed in it. A report comes no
more than 320 ticks after its strike, and strikes of one tick and cluster give one: any other is none that the sensors
make. -/
def execStrikeReport (at_ : Nat) (s : State) : Out :=
  let cl := s.cur.cl
  if s.tick < at_ ∨ at_ + 320 < s.tick ∨ (s.chip.cluster cl).strikes.contains at_ then .next s
  else
    let s := s.updCluster cl fun k => { k with strikes := at_ :: k.strikes.filter fun t => decide (s.tick ≤ t + 320) }
    let s := recovery (s.count 14 ⟨cl, 0, 16⟩ 1) ⟨cl, 0, 16⟩ 1 0 at_
    .next ((s.cores.filter fun c => c.cl == cl && c.active).foldl (fun s c =>
      let s := (c.issuers.map (·.slot)).foldl (fun s n =>
        match (s.iss ⟨cl, c.co, n⟩).regions.findIdx? fun r => r.contains at_ with
        | some k => discardBy s ⟨cl, c.co, n⟩ k 1 at_
        | none => s) s
      (c.vers.filter fun v => decide (v.presented ≤ at_) && decide (at_ ≤ v.retireAt)).foldl (fun s v =>
        if (s.core cl c.co).vers.any fun o => o.id == v.id then dropVersion s cl c.co at_ v else s) s) s)
/-- POOL_ECC_ERROR (R38, R199): an uncorrectable error rolls back the block that owns the sector. With more blocks than one on
the core none owns the accumulator store or the front thread's part, and the spec names no outcome: the grid ends (DESIGN
CHOICE, log 40). -/
def execPoolEccError (kind : PoolKind) (s : State) : Out :=
  let cl := s.cur.cl
  let co := s.cur.co
  let c := s.core cl co
  match kind with
  | .vreg slot _ _ => .next (rollback s cl co (c.iss slot).bidx false)
  | .scratch _ => .next ((c.blocks.map (·.idx)).foldl (fun s bi => rollback s cl co bi false) s)
  | .acc _ | .front => .next (if c.bpc = 1 then rollback s cl co 0 false
      else terminateAt s cl co (recoveryRec s ⟨cl, co, 16⟩ 4 0 0))
/-- PAIR_SELF_TEST (R206): the member that fails is fenced, and the pair goes on unpaired. -/
def execPairSelfTest (aFails : Bool) (s : State) : Out :=
  let cl := s.cur.cl
  let co := s.cur.co
  let (_, s) := fenceCore s cl (2 * co + (if aFails then 0 else 1))
  let s := s.updCluster cl fun k => { k with pairst := setBits k.pairst co 1 1 }
  .next (recovery (s.updCore cl co fun c => { c with halt := false }) ⟨cl, co, 16⟩ 3 0 0)

/-- Undo a block back to its superstep interval; the other intervals go unrestored, and nothing is suppressed (R208). -/
def superRoll (s : State) (cl co bi : Nat) : State :=
  let b := (s.core cl co).block bi
  match b.ivals.find? (·.superstep) with
  | none => s
  | some tgt =>
    if b.ended then s
    else if tgt.overflow then killBlock s cl co bi 1
    else
      let s := tgt.log.foldl (fun s l => restoreSlot s cl co l) s
      let s := s.updCore cl co fun c =>
        let c := tgt.issuers.foldl (fun c p => c.setIss (restoreParty (c.iss p.slot) p (c.bpc == 1) s.tick [])) c
        let c := if c.bpc = 1 then { c with
          sregs := tgt.sregs, gpreds := tgt.gpreds, lc := tgt.lc, wins := tgt.wins, handles := tgt.handles } else c
        let c : Core := { c with dq := tgt.dq, dqBase := tgt.dqBase }
        c.setBlock { b with ivals := [{ tgt with log := [], effects := [], effSlots := [], sent := [], used := 0 }], arrived := [], doneAt := none, hb := [] }
      tgt.issuers.foldl (fun s p => reopen s ⟨cl, co, p.slot⟩ p) s
/-- Apply a declared buffer's initialiser (R209, R394): zeros, or a copy, which firmware writes (R61). -/
def initBuffer (s : State) (d : List DWord) : State :=
  let place := fun a : DWord => ownHbm (a.toNat % 2 ^ 40)
  let n := (nth d 1 0).toNat
  match bits (nth d 0 0) 0 2 with
  | 0 => fwStore s (place (nth d 3 0)) (List.replicate n 0)
  | 1 => fwStore s (place (nth d 3 0)) (s.bytes (keyHbm (place (nth d 2 0))) n)
  | _ => s
/-- SUPERSTEP_REEXECUTION (R208, R209): regions and transfers of the superstep go, every block that takes part
returns to its superstep interval and stands there until the resynchronisation tick, and the declared buffers are
initialised. -/
def execSuperstepReexecution (s : State) : Out :=
  let parts := s.cores.filter fun c => c.active && bit c.modew 2
  let s := parts.foldl (fun s c =>
    c.issuers.foldl (fun s i => (discardAll s ⟨c.cl, c.co, i.slot⟩ false).updIss ⟨c.cl, c.co, i.slot⟩ fun me =>
      { me with presq := [], presBusy := false }) s) s
  let tr := max s.tick (s.chip.sched.resync.getD s.tick)
  let s := parts.foldl (fun s c => (c.blocks.map (·.idx)).foldl (fun s bi => superRoll s c.cl c.co bi) s) s
  let s := s.updChip fun h => { h with
    colls := h.colls.filter (·.ended)
    reqs := h.reqs.filter fun q => q.kind != .coll && q.space != 1 && q.space != 2 &&
      !((q.kind == .load || q.kind == .stamp || q.kind == .red || q.kind == .atom || q.kind == .aos) &&
        parts.any fun c => c.cl == q.w.cl && c.co == q.w.co) }
  let s : State := { s with
    net := { s.net with portq := [], swq := [], mirq := [], sendq := [] }
    cores := s.cores.map fun c =>
      let ks : List CSlot := c.cslots.map fun k => { k with cid := none, queue := [] }
      if c.active && bit c.modew 2 then { c with
        cslots := ks, rotAt := max c.rotAt tr
        issuers := c.issuers.map fun i => if i.slot = 16 then { i with nextAt := max i.nextAt tr } else i }
      else { c with cslots := ks } }
  .next (s.decls.foldl initBuffer s)

/-! ### Delivery (R402, R408, R409, R411, R413) -/

/-- TRAP_DELIVERY (R411): the record lands at RECOFF, ACT is set, and the trapping set goes on at ENTRY 8 ticks
later, in a new region, the other live threads hidden. A second fault of a handler is a double trap (R413). -/
def execTrapDelivery (s : State) : Out :=
  let w := s.cur
  let me := s.iss w
  let c := s.coreOf w
  if me.wait ≠ .fault ∨ me.trapRec = [] then .next s
  else if !(trapvecOk s c (csrSeen me 0xF)) then
    let r0 := nth me.trapRec 0 0
    let r := setNth 0 (setNth 0 (setNth 0 me.trapRec 0 (setBits r0 0 16 0x14)) 6 (BitVec.ofNat 64 (bits r0 0 16))) 7 0
    .next (toFirmware (discardAll (s.updIss w fun me => { me with trapRec := [] }) w false) r (some w))
  else
    let off := bits (csrSeen me 0xF) 24 24
    let entry := bits (csrSeen me 0xF) 0 23
    let s := spWrite s w.cl w.co off (dwBytes me.trapRec)
    let s := s.updIss w fun me => { me with
      trapvec := setBits me.trapvec 48 1 1
      hidden := (me.live (c.lanes w.n)).filter fun t => !(me.trapSel.contains t)
      pcs := me.trapSel.foldl (fun l t => setNth 0 l t entry) me.pcs
      trapRec := [], redo := none, wait := .until_ (s.tick + 8), nextAt := s.tick + 8, entered := false, delay := 0 }
    .next (openRegion s w ((s.iss w).rnum + 1) 0 .block (s.iss w).pcs)

/-- The deferred entry at which a walk of a core stops: its level, physical address and word (R485). -/
def deferredAt (s : State) (ptbase : DWord) (va : Nat) : Option (Nat × Nat × DWord) :=
  go 0 (frame ptbase) 3
where
  go (level base : Nat) : Nat → Option (Nat × Nat × DWord)
    | 0 => none
    | f + 1 =>
      let idx := match level with | 0 => va / 2 ^ 39 % 4096 | 1 => va / 2 ^ 27 % 4096 | _ => va / 2 ^ 15 % 4096
      let pa := base + 8 * idx
      let p := s.dword (keyHbm pa)
      if !bit p 0 then (if p.toNat / 2 = 0 then none else some (level, pa, p))
      else if bit p 1 then none
      else go (level + 1) (frame p) f
/-- FIRMWARE_FAULT_DELIVERY (R33, R92, R400, R409): firmware logs the record; it resolves a deferred entry, and
terminates the grid of every other fault that stops an issuer. A delivery that a discard or rollback overtook
is dropped (R402). -/
def execFirmwareFaultDelivery (s : State) : Out :=
  match s.fw.faults.find? fun f => f.1 == s.cur.n with
  | none => .next s
  | some (k, r, w) =>
    let s := { s with fw := { s.fw with
      faults := s.fw.faults.filter fun f => f.1 != k, logs := s.fw.logs ++ [r] } }
    let r0 := nth r 0 0
    let cls := bits r0 0 8
    match w with
    | none => .next s
    | some w =>
      if cls = 0x13 ∨ cls = 0x15 then .next s
      else if (s.iss w).wait ≠ .fault ∧ !bit r0 17 then .next s
      else
        let pt := (s.coreOf w).ptbase
        let va := bits (nth r 4 0) 0 51
        let page := cls == 0x04 && !bit r0 16
        match page, walk s pt va, deferredAt s pt va with
        | true, .leaf .., _ =>
          -- The entry has been resolved since the fault was met: the issuer re-enters (R33).
          .next (s.updIss w fun me => { me with wait := .run, nextAt := max me.nextAt s.tick })
        | true, _, some _ =>
          let (d, s) := s.free 4000
          .next (s.sched (s.tick + d) w .deferredEntryResolve)
        | _, _, _ =>
          let mine := fun a : Alloc => domTenant s a.dom == (s.coreOf w).tenant
          let s : State := if cls = 0x07 then
              (match s.fw.allocs.find? fun a => mine a && decide (a.va ≤ va) && decide (va < a.va + a.size) with
               | some a => { s with fw := { s.fw with logs := s.fw.logs ++ [[BitVec.ofNat 64 (2 * 2 ^ 60 + a.va)]] } }
               | none => s)
            else s
          .next (terminateAt s w.cl w.co r)

end Sys2Proof.Machine
end

