-- ==== Sys2Proof/Machine/Orchard.lean ====
section
/-!
DEFINITION. What firmware writes into page tables, and Orchard memory: allocation, release, the loss of a switch
and its return (R74 to R92, R297, R374, R485).
-/
namespace Sys2Proof.Machine

/-! ### Ranges of memory and page tables (R14 to R18, R32, R485) -/

/-- Memory with n bytes from key k up as nothing had written them: they read zero. -/
def clearRange (s : State) (k n : Nat) : State :=
  { s with mem := s.mem.filter fun e => !(decide (k ≤ e.1) && decide (e.1 < k + n)) }
/-- Copy n bytes from one key to another; the places do not overlap. -/
def copyRange (s : State) (src dst n : Nat) : State :=
  ((s.mem.filter fun e => decide (src ≤ e.1) && decide (e.1 < src + n)).foldl (fun s e =>
    s.setByte (dst + (e.1 - src)) e.2) (clearRange s dst n))

/-- A new page table of 32 KiB in firmware's own HBM, all of its entries zero (log 9). -/
def newTable (s : State) : Nat × State :=
  let pa := ownHbm 0xBE10000000 + 0x8000 * s.fw.tblNext
  (pa, fwWrote (clearRange { s with fw := { s.fw with tblNext := s.fw.tblNext + 1 } } (keyHbm pa) 0x8000) pa 0x8000)
/-- The root table of a tenant, made when there is none (R12). -/
def rootOf (s : State) (tenant : Nat) : Nat × State :=
  match assoc s.fw.roots tenant with
  | some r => (r, s)
  | none =>
    let (r, s) := newTable s
    (r, { s with fw := { s.fw with roots := s.fw.roots ++ [(tenant, r)] } })
/-- Physical address of the entry of a level for a virtual address, with the tables above it made; none when a
larger leaf covers it. -/
def entryAt (s : State) (base level va : Nat) : Nat → Nat → Option Nat × State
  | 0, _ => (none, s)
  | f + 1, l =>
    let pa := base + 8 * (va / 2 ^ levelShift l % 4096)
    if l = level then (some pa, s)
    else
      let p := s.dword (keyHbm pa)
      if bit p 0 && bit p 1 then (none, s)
      else if bit p 0 then entryAt s (frame p) level va f (l + 1)
      else
        let (t, s) := newTable s
        entryAt (fwStore s pa (toBytes 8 (t + 1))) t level va f (l + 1)
/-- Write one entry of a tenant's tables. False when a larger leaf covers the address. -/
def writeEntry (s : State) (tenant level va : Nat) (p : DWord) : Bool × State :=
  let (r, s) := rootOf s tenant
  match entryAt s r level va 3 0 with
  | (some pa, s) => (true, fwStore s pa (toBytes 8 p.toNat))
  | (none, s) => (false, s)
/-- Write n entries of a level from a virtual address up, the frame of each after the one before it. -/
def writeEntries (s : State) (tenant level va : Nat) (p : DWord) (step : Bool) : Nat → Bool × State
  | 0 => (true, s)
  | n + 1 =>
    let (ok, s) := writeEntry s tenant level va p
    let sz := 2 ^ levelShift level
    let (ok', s) := writeEntries s tenant level (va + sz) (if step then p + BitVec.ofNat 64 sz else p) step n
    (ok && ok', s)
/-- Drop the TLB entries of a tenant's range of virtual addresses; what is named waits until that has completed (R32). -/
def invalidateVa (s : State) (w : Option Iss) (next : List (Iss × Instr)) (tenant va n : Nat) : State :=
  invalidateThen s w next fun e =>
    let sh := if e.whole then levelShift e.level else 15
    e.tenant == tenant && decide (e.vpn * 2 ^ sh < va + n) && decide (va < (e.vpn + 1) * 2 ^ sh)

/-! ### OALLOC and OFREE (R82 to R85, R297) -/

/-- OALLOC (R82, R297): only the front thread; a blocking point. -/
def execOalloc (m : Mods) (d a : BitVec 8) (mir : Bool) (s : State) : Out :=
  let x := s.ctx m
  if !x.front then illegal x 3
  else if x.act.isEmpty then passOver x
  else blockingOp x (.oalloc m d a mir) [x.sc a 0]
/-- OFREE (R85, R297). -/
def execOfree (m : Mods) (d a : BitVec 8) (s : State) : Out :=
  let x := s.ctx m
  if !x.front then illegal x 3
  else if x.act.isEmpty then passOver x
  else blockingOp x (.ofree m d a) [x.sc a 0]

/-- The rounded size of a request and the level of its leaves; none for a size that is not allocated (R82). -/
def orchSize (n : Nat) : Option (Nat × Nat) :=
  if n = 0 ∨ 4032 * 2 ^ 30 < n then none
  else if n < 2 ^ 27 then some ((n + 2 ^ 15 - 1) / 2 ^ 15 * 2 ^ 15, 2)
  else some ((n + 2 ^ 27 - 1) / 2 ^ 27 * 2 ^ 27, 1)
/-- The other copy of a mirrored place (R75). -/
def mirrorOf (pa : Nat) : Nat := if pa / 2 ^ 42 % 2 = 0 then pa + 2 ^ 42 else pa - 2 ^ 42
/-- Whether an allocation holds a physical address, in either copy. -/
def inOrch (x : Alloc) (pa : Nat) : Bool :=
  (decide (x.pa ≤ pa) && decide (pa < x.pa + x.size)) ||
    (x.mir && decide (mirrorOf x.pa ≤ pa) && decide (pa < mirrorOf x.pa + x.size))
/-- The ranges that allocations occupy in a switch: base and size. -/
def orchUsed (s : State) (sw : Nat) : List (Nat × Nat) :=
  ((s.fw.allocs.map fun a => (a.pa, a.size) :: (if a.mir then [(mirrorOf a.pa, a.size)] else [])).flatten).filter
    fun r => r.1 / 2 ^ 42 % 2 == sw
/-- Free bytes of a switch's 63 banks (R74). -/
def orchFree (s : State) (sw : Nat) : Nat :=
  63 * 2 ^ 36 - ((orchUsed s sw).map (·.2)).foldl (· + ·) 0
/-- The lowest multiple of align at or above lo where size bytes below hi meet none of the ranges: the candidates
are lo and the ends of ranges. -/
def lowestFit (used : List (Nat × Nat)) (lo hi size align : Nat) : Option Nat :=
  let up := fun a : Nat => (a + align - 1) / align * align
  let cand := sortBy (· ≤ ·) (up lo :: used.map fun r => up (max lo (r.1 + r.2)))
  cand.find? fun a => decide (a + size ≤ hi) && used.all fun r => decide (a + size ≤ r.1) || decide (r.1 + r.2 ≤ a)
/-- A place that the configuration prefers, where it fits, and else the lowest (log 13). -/
def someFit (used : List (Nat × Nat)) (lo hi size align : Nat) : Option Nat :=
  let a := (lo + align - 1) / align * align + align * Config.place used size
  if a + size ≤ hi ∧ (used.all fun r => decide (a + size ≤ r.1) || decide (r.1 + r.2 ≤ a)) then some a
  else lowestFit used lo hi size align
/-- Physical place of an allocation (R75, R83): the switch with more free bytes; a mirrored one must be free in
both, and its primary is chosen in the same way. A lost switch takes none. -/
def orchPlace (s : State) (size align : Nat) (mir : Bool) : Option Nat :=
  let lost := fun sw => bit s.chip.orchst sw
  let fits := fun sw =>
    if lost sw then none
    else someFit (orchUsed s sw ++ (if mir then (orchUsed s (1 - sw)).map (fun r => (mirrorOf r.1, r.2)) else []))
      (sw * 2 ^ 42) (sw * 2 ^ 42 + 63 * 2 ^ 36) size align
  let first := if orchFree s 0 < orchFree s 1 then 1 else 0
  if mir ∧ (lost 0 ∨ lost 1) then none
  else if mir then fits first
  else (fits first).or (fits (1 - first))
/-- Firmware serves one request (R83): the base address, or zero. -/
def orchAlloc (s : State) (dom : Nat) (n : Nat) (mir : Bool) : DWord × State :=
  match s.dom dom, orchSize n with
  | some d, some (size, level) =>
    let align := 2 ^ levelShift level
    let units := size / 2 ^ 15 * (if mir then 2 else 1)
    let vlo := bits (nth d.dw 7 0) 27 24 * 2 ^ 27
    let vhi := vlo + bits (nth d.dw 7 0) 0 24 * 2 ^ 27
    let usedVa := (s.fw.allocs.filter fun a => domTenant s a.dom == d.tenant).map fun a => (a.va, a.size)
    match charge s dom .orch units, orchPlace s size align mir, lowestFit usedVa vlo vhi size align with
    | some s, some pa, some va =>
      let s := clearRange s (keyOrch pa) size
      let s := if mir then clearRange s (keyOrch (mirrorOf pa)) size else s
      let s := { s with net := { s.net with opsn := s.net.opsn.filter fun g => !(inOrch ⟨0, size, pa, mir, 0, 0, false⟩ (g * 4096)) } }
      let leaf := pa + 0x9F + (if mir then 2 ^ 8 else 0) + d.tenant * 2 ^ 9
      let (_, s) := writeEntries s d.tenant level va (BitVec.ofNat 64 leaf) true (size / align)
      let s := { s with fw := { s.fw with allocs := s.fw.allocs ++ [⟨va, size, pa, mir, dom, level, false⟩] } }
      (BitVec.ofNat 64 (2 * 2 ^ 60 + va), s)
    | _, _, _ => (0, s)
  | _, _ => (0, s)
/-- Firmware has served the oldest request, and takes up the next one (R83). -/
def orchServed (s : State) (w : Iss) : State :=
  orchNext { s with fw := { s.fw with orchq := s.fw.orchq.erase w } }
/-- OALLOC_COMPLETE (R83): firmware has served the request of issuer cur. -/
def execOallocComplete (s : State) : Out :=
  let w := s.cur
  let s := orchServed s w
  match (s.iss w).wait with
  | .block (.oalloc m d a mir) .wait lanes vals _ pc =>
    let (v, s) := match domOfCore s w.cl w.co with
      | some dom => orchAlloc s dom (nth vals 0 0).toNat mir
      | none => ((0 : DWord), s)
    .next (completeBlock s w (.oalloc m d a mir) lanes pc v)
  | _ => .next s
/-- The allocation that OFREE names: of the issuing domain, by its base. -/
def orchNamed (s : State) (dom : Nat) (a : DWord) : Option Alloc :=
  s.fw.allocs.find? fun x => x.dom == dom && a == BitVec.ofNat 64 (2 * 2 ^ 60 + x.va)
/-- First part of OFREE (R85): unmapped, its granules out of the remote poison table and clean, and invalidated; what is
named waits until that has completed. -/
def orchUnmap (s : State) (next : List (Iss × Instr)) (x : Alloc) : State :=
  let tenant := domTenant s x.dom
  let (_, s) := writeEntries s tenant x.level x.va 0 false (x.size / 2 ^ levelShift x.level)
  let s := if psnBaseOk s then (List.range 4096).foldl (fun s k =>
      let key := keyHbm (frame s.chip.psnbase + 0x1808000 + 8 * k)
      let e := s.dword key
      if bit e 0 && inOrch x (bits e 12 40 * 4096) then s.setBytes key (toBytes 8 0) else s) s
    else s
  invalidateVa { s with net := { s.net with opsn := s.net.opsn.filter fun g => !(inOrch x (g * 4096)) } }
    none next tenant x.va x.size
/-- OFREE_COMPLETE (R85): firmware takes the request, unmaps and invalidates, waits 4,000 ticks more for accesses in flight,
then returns space and quota and writes 1; 0 for an address that is no allocation of the domain. -/
def execOfreeComplete (s : State) : Out :=
  let w := s.cur
  match (s.iss w).wait with
  | .block (.ofree m d a) .wait lanes vals it pc =>
    match (domOfCore s w.cl w.co).bind fun dom => orchNamed s dom (nth vals 0 0) with
    | none => .next (completeBlock (orchServed s w) w (.ofree m d a) lanes pc 0)
    | some x =>
      let s := s.updIss w fun me => { me with wait := .block (.ofree m d a) .wait lanes (vals ++ [1]) it pc }
      match vals.length with
      | 1 => .next (orchUnmap s [(w, .ofreeComplete)] x)
      | 2 => .next (s.sched (s.tick + 4000) w .ofreeComplete)
      | _ =>
        let s := refund (orchServed s w) x.dom .orch (x.size / 2 ^ 15 * (if x.mir then 2 else 1))
        let s := { s with fw := { s.fw with allocs := s.fw.allocs.filter fun y => y.va != x.va || y.dom != x.dom } }
        .next (completeBlock s w (.ofree m d a) lanes pc 1)
  | _ => .next (orchServed s w)

/-! ### Loss and return of a switch (R87, R90 to R92) -/

/-- Whether a happening carries a sector of an access to a switch's bank, or its mirror update from there or to there. -/
def reqEvent (sw : Nat) (e : Nat × Iss × Instr) : Bool :=
  match e.2.2 with
  | .orchardAccessApply => swOf e.2.1.co == sw
  | .mirrorUpdate => true
  | _ => false
/-- The mirror link at a switch's failure (R87, R88, R91). What was on its way to the failed switch is lost, and the primary
answers; what was on its way from it reaches the survivor or not, a free value, and is answered as lost, or for a write that
the survivor has as done. -/
def loseMirror (s : State) (sw : Nat) : State :=
  let down := (assoc s.net.mirq sw).getD []
  let up := (assoc s.net.mirq (1 - sw)).getD []
  let s := { s with net := { s.net with mirq := [] } }
  let s := down.foldl (fun s e => answerSector (s.updReq e.1 fun q => { q with fsw := q.fsw ||| 2 ^ sw }) e.1) s
  up.foldl (fun s e =>
    let (f, s) := s.free 1
    loseSector (if f = 1 then mirrorApply s e else s) e.1 e.2.1 (if f = 1 then 0 else 2)) s
/-- SWITCH_FAILURE (R87, R90, R91): switch cur.n fails. Accesses outstanding to it are answered as lost. The ports set LOST
and DEG within 400 ticks, at a free value (log 38): then its allocations that are not mirrored are lost, and all when both
have failed; the loss of its streams is a schedule fault. -/
def execSwitchFailure (s : State) : Out :=
  let sw := s.cur.n % 2
  if s.cur.n < 2 then
    if s.net.failed.contains sw then .next s
    else
      let s := { s with
        net := { s.net with failed := s.net.failed ++ [sw] }
        agenda := s.agenda.filter fun e => !(reqEvent sw e) }
      let s := loseMirror s sw
      let out := (s.chip.reqs.filter fun q => q.space == 2).map fun q =>
        (q.sectors.filter fun k => swOf k == sw).map fun k => (q.id, k)
      let s := out.flatten.foldl (fun s e => loseSector s e.1 e.2 2) s
      let (d, s) := s.free 400
      .next (s.sched (s.tick + d) (obj (2 + sw)) .switchFailure)
  else if !s.net.failed.contains sw then .next s
  else
    let s := s.updChip fun h => { h with orchst := h.orchst ||| BitVec.ofNat 64 (2 ^ sw + 4) }
    let both := bits s.chip.orchst 0 2 == 3
    let s := { s with fw := { s.fw with allocs := s.fw.allocs.map fun a =>
      if both || (!a.mir && a.pa / 2 ^ 42 % 2 == sw) then { a with lost := true } else a } }
    .next (if s.chip.sched.running then reportFault s 5 else s)
/-- LOST_REPLY (R91): the issuing chip makes the reply of access cur.n with STAT 2. -/
def execLostReply (s : State) : Out :=
  match s.req s.cur.n with
  | none => .next s
  | some q =>
    let s := s.updReq q.id fun q => { q with stat := 2 }
    if q.kind = .atom then execAtomicReply s else execLoadReply s
/-- MIRROR_COPY_BACK_COMPLETE (R92): every mirrored allocation that is not lost has been copied to the returned switch cur.n,
with the poison of its granules; its LOST bit clears, and DEG with the last one. -/
def execMirrorCopyBackComplete (s : State) : Out :=
  let sw := s.cur.n % 2
  let s := (s.fw.allocs.filter fun a => a.mir && !a.lost).foldl (fun s a =>
    let dst := if a.pa / 2 ^ 42 % 2 = sw then a.pa else mirrorOf a.pa
    let src := mirrorOf dst
    let s := copyRange s (keyOrch src) (keyOrch dst) a.size
    let inside := fun lo g : Nat => decide (lo / 4096 ≤ g) && decide (g < (lo + a.size) / 4096)
    { s with net := { s.net with opsn := (s.net.opsn.filter fun g => !(inside dst g)) ++
      (s.net.opsn.filter (inside src)).map fun g => dst / 4096 + (g - src / 4096) } }) s
  let st := setBits s.chip.orchst sw 1 0
  .next { s.updChip fun h => { h with orchst := if bits st 0 2 = 0 then setBits st 2 1 0 else st } with
    net := { s.net with failed := s.net.failed.filter (· != sw), copyback := s.net.copyback.filter (· != sw) } }

end Sys2Proof.Machine
end

