-- ==== Sys2Proof/Machine/Sha3.lean ====
section
/-!
DEFINITION. SHA3-512, the hash of measurement and of signed records (R3, R456 to R458), as FIPS 202 gives it (PRESUMED, log 8).
-/
namespace Sys2Proof.Machine

/-- Round constants of Keccak-f[1600]. -/
def keccakRc : List DWord := [
  0x0000000000000001, 0x0000000000008082, 0x800000000000808A, 0x8000000080008000, 0x000000000000808B, 0x0000000080000001,
  0x8000000080008081, 0x8000000000008009, 0x000000000000008A, 0x0000000000000088, 0x0000000080008009, 0x000000008000000A,
  0x000000008000808B, 0x800000000000008B, 0x8000000000008089, 0x8000000000008003, 0x8000000000008002, 0x8000000000000080,
  0x000000000000800A, 0x800000008000000A, 0x8000000080008081, 0x8000000000008080, 0x0000000080000001, 0x8000000080008008]
/-- Rotations of the lanes, lane (x, y) at 5 * y + x. -/
def keccakRho : List Nat :=
  [0, 1, 62, 28, 27, 36, 44, 6, 55, 20, 3, 10, 43, 25, 39, 41, 45, 15, 21, 8, 18, 2, 61, 56, 14]
/-- Lane (x, y) of a state of 25 lanes, its coordinates taken modulo 5. -/
def lane (a : List DWord) (x y : Nat) : DWord := nth a (x % 5 + 5 * (y % 5)) 0
/-- A state by its lanes. -/
def ofLanes (f : Nat → Nat → DWord) : List DWord := (List.range 25).map fun k => f (k % 5) (k / 5)
/-- One round of Keccak-f[1600]: theta, rho and pi, chi, iota. -/
def keccakRound (a : List DWord) (rc : DWord) : List DWord :=
  let c := (List.range 5).map fun x => lane a x 0 ^^^ lane a x 1 ^^^ lane a x 2 ^^^ lane a x 3 ^^^ lane a x 4
  let t := ofLanes fun x y => lane a x y ^^^ nth c ((x + 4) % 5) 0 ^^^ (nth c ((x + 1) % 5) 0).rotateLeft 1
  let b := ofLanes fun x y => (lane t (x + 3 * y) x).rotateLeft (nth keccakRho ((x + 3 * y) % 5 + 5 * x) 0)
  let d := ofLanes fun x y => lane b x y ^^^ (~~~(lane b (x + 1) y) &&& lane b (x + 2) y)
  setNth 0 d 0 (lane d 0 0 ^^^ rc)
/-- Absorb a message that the padding has made a whole number of 72-byte blocks. -/
def keccakAbsorb (a : List DWord) : Nat → List Byte → List DWord
  | 0, _ => a
  | n + 1, m =>
    let x := ofLanes fun x y => lane a x y ^^^ BitVec.ofNat 64 (leNat ((m.take 72).drop (8 * (x + 5 * y)) |>.take 8))
    keccakAbsorb (keccakRc.foldl keccakRound x) n (m.drop 72)
/-- SHA3-512 of a message. -/
def sha3 (m : List Byte) : List Byte :=
  let p := 72 - m.length % 72
  let pad : List Byte := if p = 1 then [0x86] else [0x06] ++ List.replicate (p - 2) 0 ++ [0x80]
  ((keccakAbsorb (List.replicate 25 0) (m.length / 72 + 1) (m ++ pad)).take 8).flatMap fun d => toBytes 8 d.toNat

end Sys2Proof.Machine
end

