-- ==== Sys2Proof/Machine/Hbm.lean ====
section
/-!
DEFINITION. The HBM controllers: where an offset lies, sector accesses, slack windows and their maintenance, weak
rows, and schedule faults (R56 to R73, R398).
-/
namespace Sys2Proof.Machine

/-! ### Where an offset lies (R57) -/

/-- Stack of an HBM offset, and the offset within it. -/
def stackOf (off : Nat) : Nat := off / 2 ^ 12 % 16
def stackOff (off : Nat) : Nat := off / 2 ^ 16 * 2 ^ 12 + off % 2 ^ 12
/-- Fields of a stack offset: channel, pseudo-channel, column, bank, row. -/
def chOf (t : Nat) : Nat := t / 2 ^ 6 % 32
def pchOf (t : Nat) : Nat := t / 2 ^ 11 % 2
def colOf (t : Nat) : Nat := t / 2 ^ 12 % 16
def bankOf (t : Nat) : Nat := t / 2 ^ 16 % 16
def rowOf (t : Nat) : Nat := t / 2 ^ 20
/-- A row's identity in the error-count table. -/
def rowId (t : Nat) : Nat := chOf t + pchOf t * 32 + bankOf t * 64 + rowOf t * 1024
/-- HBM offset of a stack's offset. -/
def offOf (stack t : Nat) : Nat := t / 2 ^ 12 * 2 ^ 16 + stack * 2 ^ 12 + t % 2 ^ 12

/-- The controller of a stack, 0 to 15, or of a switch's DRAM, 16 and 17 (R79). -/
def State.stack (s : State) (n : Nat) : Stack := (assoc (if n < 16 then s.chip.hbm else s.net.dram) n).getD {}
def State.updStack (s : State) (n : Nat) (f : Stack → Stack) : State :=
  if n < 16 then s.updChip fun h => { h with hbm := assocSet h.hbm n (f ((assoc h.hbm n).getD {})) }
  else { s with net := { s.net with dram := assocSet s.net.dram n (f ((assoc s.net.dram n).getD {})) } }

/-! ### Signed records of the configuration store (R457) -/

/-- Bytes of an ML-DSA-87 signature, which end a record. -/
def sigBytes : Nat := 4627
def recSigned (r : List Byte) : List Byte := r.take (r.length - sigBytes)
def recSig (r : List Byte) : List Byte := r.drop (r.length - sigBytes)
/-- The device's signature over bytes. -/
def ownSig (m : List Byte) : List Byte := (Config.mldsaSign (sha3 m) ++ List.replicate sigBytes 0).take sigBytes
/-- A record that the device signs: kind, length, body and signature. -/
def signedRecord (kind : Nat) (body : List Byte) : List Byte :=
  let m := toBytes 1 kind ++ toBytes 7 body.length ++ body
  m ++ ownSig m

/-! ### Weak rows (R70 to R73) -/

/-- The remap entry of a row: V, its place, the spare, COPY (R72). The rows of a switch's DRAM, whose entries the spec does
not map, stand from bit 32 up (DESIGN CHOICE, log 37). -/
def remapWord (n id spare : Nat) (copy : Bool) : DWord :=
  BitVec.ofNat 64 (if n < 16 then 1 + id % 32 * 2 + id / 32 % 2 * 2 ^ 6 + id / 64 % 16 * 2 ^ 7 + id / 1024 * 2 ^ 11 +
      spare * 2 ^ 27 + b2n copy * 2 ^ 31
    else 1 + id % 1024 * 2 + spare * 2 ^ 27 + b2n copy * 2 ^ 31 + id / 1024 * 2 ^ 32)
/-- Row identity of a remap entry: channel, pseudo-channel and bank together below 1,024, then the row. -/
def remapRow (n : Nat) (e : DWord) : Nat :=
  if n < 16 then bits e 1 5 + bits e 6 1 * 32 + bits e 7 4 * 64 + bits e 11 16 * 1024
  else bits e 1 10 + bits e 32 32 * 1024
/-- Whether an entry is in use: V, and a row that exists (R72). -/
def remapUsed (n : Nat) (e : DWord) : Bool := bit e 0 && !(decide (n < 16) && decide (49151 < bits e 11 16))
/-- Firmware saves the stacks' remap tables: 16-bit stack, 16-bit entry and 32-bit word of each entry (R72, R457; log 8). -/
def saveRemap (s : State) : State :=
  let body := (s.chip.hbm.map fun st => (st.2.remap.map fun e =>
    toBytes 2 st.1 ++ toBytes 2 e.1 ++ toBytes 4 e.2.toNat).flatten).flatten
  { s with fw := { s.fw with cfg := assocSet s.fw.cfg 3 (signedRecord 3 body) } }
/-- Assign a spare to a row whose counter has reached 8 (R71). -/
def assignSpare (s : State) (n id : Nat) : State :=
  let st := s.stack n
  let taken := (st.remap.filter fun e => remapUsed n e.2 && remapRow n e.2 % 1024 == id % 1024).map fun e => bits e.2 27 4
  let spare := (List.range 16).find? fun k => !(taken.contains k)
  let entry := (List.range 4096).find? fun k => !(bit ((assoc st.remap k).getD 0) 0)
  match spare, entry with
  | some sp, some k => saveRemap (s.updStack n fun st => { st with
      remap := assocSet st.remap k (remapWord n id sp true), copies := st.copies ++ [(k, 0)] })
  | _, _ =>
    let s := s.updStack n fun st => { st with exhausted := true }
    { s with fw := { s.fw with degraded := (s.fw.degraded ++ [n]).eraseDups } }
/-- Count a corrected error against its row (R70): the table keeps the row least recently incremented first. -/
def countRow (s : State) (n id : Nat) : State :=
  let st := s.stack n
  match assoc st.errs id with
  | some c =>
    if 8 ≤ c then s
    else
      let s := s.updStack n fun st => { st with errs := assocDel st.errs id ++ [(id, c + 1)] }
      if c + 1 = 8 then assignSpare s n id else s
  | none =>
    let low := st.errs.foldl (fun m e => min m e.2) 9
    let errs := if st.errs.length < 1024 then st.errs
      else match st.errs.find? fun e => e.2 == low with
        | some v => assocDel st.errs v.1
        | none => st.errs
    s.updStack n fun st => { st with errs := errs ++ [(id, 1)] }
/-- What error correction found at a sector of this chip's HBM (R59): a corrected error is counted and will be
written back; an uncorrectable one poisons its granule. -/
def noteEcc (s : State) (pa : Nat) (e : Ecc) : State :=
  let off := pa % 2 ^ 40
  let n := stackOf off
  match e with
  | .good => s
  | .corrected =>
    let s := (s.count 15 s.cur 1).updStack n fun st => { st with writebacks := st.writebacks ++ [pa / 64] }
    countRow s n (rowId (stackOff off))
  | .bad => poisonGranule s pa

/-! ### Sector accesses (R58, R59, R66) -/

/-- Whether some grid that runs is strict (R68). -/
def anyStrict (s : State) : Bool := s.cores.any fun c => c.active && !c.elastic
/-- Apply one sector of an access to HBM or to the host's memory, with its counts (R58, R59, R439). -/
def hbmApply (s : State) (q : Req) (k : Nat) (e : Ecc) : State :=
  let ev := match q.kind with
    | .load | .fill | .copyRd => 4
    | .store | .red | .atom | .drain | .send | .aos | .copyWr | .ring | .notify | .coll => 5
    | .stamp => 4
  let s := if q.space = 0 then s.count ev q.w 1 else s
  let s := if q.space = 0 ∧ e = .corrected then noteEcc s (k * 64) e else s
  applySector s q k e
/-- Ticks of one piece of maintenance (R73). -/
def pieceTicks : Nat := 8
/-- HBM_SECTOR_ACCESS (R58, R66): the controller applies access cur.n to sector k. A transfer whose link check
fails, a free value, is repeated in a slack window; its fourth failure makes the sector uncorrectable. R66 can be read as
four repeats or as four transfers: the first transfer's failure is counted with them, as its second failure is, which R66
names first (DESIGN CHOICE, log 37). While no table runs there are no windows, and it is repeated within 512 ticks. -/
def execHbmSectorAccess (k : Nat) (ecc : Ecc) (s : State) : Out :=
  match s.req s.cur.n with
  | none => .next s
  | some q =>
    if !(q.sectors.contains k) then .next s
    else if mustWait s q k then .next (s.sched (s.tick + 1) s.cur (.hbmSectorAccess k ecc))
    else if q.space ≠ 0 then .next (answerSector (hbmApply s q k ecc) q.id)
    else
      let n := stackOf (k * 64 % 2 ^ 40)
      let (f, s) := s.free 1
      let mine := fun e : Nat × Nat × Nat => e.1 == q.id && e.2.1 == k
      let fails := match (s.stack n).repeats.find? mine with | some e => e.2.2 | none => 0
      let drop := fun s : State => s.updStack n fun st => { st with repeats := st.repeats.filter (fun e => !mine e) }
      if f = 0 then .next (answerSector (hbmApply (drop s) q k ecc) q.id)
      else if 3 ≤ fails then .next (answerSector (hbmApply (drop s) q k .bad) q.id)
      else
        let s := s.updStack n fun st => { st with
          repeats := if fails = 0 then st.repeats ++ [(q.id, k, 1)]
          else st.repeats.map (fun e => if mine e then (q.id, k, fails + 1) else e) }
        if s.chip.sched.running then .next s
        else
          let (d, s) := s.free 511
          .next (s.sched (s.tick + 1 + d) s.cur (.hbmSectorAccess k ecc))

/-! ### Slack windows (R64, R65, R69, R73, R395) -/

/-- The pattern of a stack in the frame in force: period, length and offset. -/
def slackPattern (s : State) (n : Nat) : Nat × Nat × Nat :=
  let q := s.chip.sched
  let d := if bit (frameW q.words q.frame 2) (48 + n) then frameW q.words q.frame 2 else frameW q.words q.frame 3
  (bits d 0 16, bits d 16 16, bits d 32 16)
/-- HBM address of a column of a row of a stack; Orchard address of a 64-byte sector of a row of a switch. -/
def rowPa (n id col : Nat) : Nat :=
  if n < 16 then
    ownHbm (offOf n (id / 1024 * 2 ^ 20 + id / 64 % 16 * 2 ^ 16 + col * 2 ^ 12 + id / 32 % 2 * 2 ^ 11 + id % 32 * 2 ^ 6))
  else (n - 16) * 2 ^ 42 + id % 64 * 2 ^ 36 + id / 1024 * 2 ^ 10 + col * 2 ^ 6
/-- What error correction found at a sector that a controller has read for itself. -/
def noteRead (s : State) (n id col : Nat) (e : Ecc) : State :=
  if n < 16 then noteEcc s (rowPa n id col) e
  else match e with
    | .good => s
    | .corrected => countRow s n id
    | .bad => { s with net := { s.net with opsn := (s.net.opsn ++ [rowPa n id col / 4096]).eraseDups } }
/-- Move the spare-row copies of a controller on by up to n sectors (R73). The old row is read, and a sector that is
uncorrectable poisons its granule; its spare reads as it does. The model holds a row's bytes once, at its address: old row
and spare hold the same from each sector's copy on, so that the row in service cannot be told (DEDUCED, log 37). A whole copy
clears COPY and frees the row's counter (R71). -/
def copyRows (s : State) (stack : Nat) : Nat → State
  | 0 => s
  | n + 1 =>
    match (s.stack stack).copies with
    | [] => s
    | (k, col) :: rest =>
      let w := (assoc (s.stack stack).remap k).getD 0
      let (e, s) := s.ecc
      let s := if e == .bad then noteRead s stack (remapRow stack w) col .bad else s
      if col + 1 < 16 then copyRows (s.updStack stack fun st => { st with copies := (k, col + 1) :: rest }) stack n
      else
        copyRows (saveRemap (s.updStack stack fun st => { st with
          copies := rest, remap := assocSet st.remap k (setBits w 31 1 0), errs := assocDel st.errs (remapRow stack w) })) stack n
/-- Rows that the patrol of a stack visits (R69), and of a switch, 64 banks of 64 GiB in rows of 1 KiB, as a stack's are
(DESIGN CHOICE, log 37). -/
def patrolRows (n : Nat) : Nat := if n < 16 then 32 * 2 * 16 * 49152 else 64 * 2 ^ 26
/-- The identity of the p-th row in the patrol's order: channel, pseudo-channel, bank, row (R69). -/
def patrolId (n p : Nat) : Nat :=
  if n < 16 then p / (49152 * 32) + p / (49152 * 16) % 2 * 32 + p / 49152 % 16 * 64 + p % 49152 * 1024
  else p / 2 ^ 26 + p % 2 ^ 26 * 1024
/-- The patrol reads the next row, all of its sectors; what it finds in each is a free value (R69). -/
def patrolRow (s : State) (n : Nat) : State :=
  let p := (s.stack n).patrol
  let s := (List.range 16).foldl (fun s col =>
    let (e, s) := s.ecc
    noteRead s n (patrolId n p) col e) s
  s.updStack n fun st => { st with patrol := (p + 1) % patrolRows n, patrolAt := s.tick }
/-- Ticks of one refresh interval: the span of R64, over which its figures cover refresh (DEDUCED, log 37). -/
def refreshTicks : Nat := 15600
/-- Every bank owes a refresh for each interval that has passed (R67). A bank of one number is refreshed in all channels at
once (DESIGN CHOICE, log 37). -/
def oweRefresh (s : State) (n : Nat) : State :=
  let st := s.stack n
  let k := (s.tick - st.refreshAt) / refreshTicks
  if k = 0 then s
  else s.updStack n fun st => { st with
    refreshAt := st.refreshAt + k * refreshTicks
    backlog := (List.range 16).foldl (fun l b => assocSet l b ((assoc l b).getD 0 + k)) st.backlog }
/-- SLACK_WINDOW (R65): stack cur.n has the given ticks for maintenance, 8 for each piece of work (R73), after the granted
traffic, 8 sectors a tick (R63): repeats in its first 48 ticks, oldest first (R66), refresh by the largest backlog,
write-backs, row copies, patrol. A bank whose backlog is above 8 then is refreshed outside (R67). The next window of the
pattern follows within the frame. With no ticks it is the patrol's timer: a row at least every 4,096 ticks (R69). -/
def execSlackWindow (ticks : Nat) (s : State) : Out :=
  let n := s.cur.n
  if ticks = 0 then
    let s := if (s.stack n).patrolAt + 4096 ≤ s.tick then patrolRow s n else s
    .next (s.sched ((s.stack n).patrolAt + 4096) s.cur (.slackWindow 0))
  else
    let s := oweRefresh s n
    let st := s.stack n
    let granted := (s.agenda.filter fun e => decide (e.1 < s.tick + ticks) && (match e.2.2 with
      | .hbmSectorAccess k _ => stackOf (k * 64 % 2 ^ 40) == n | _ => false)).length
    let reps := st.repeats.take 6
    let s := (reps.zip (List.range 6)).foldl (fun s r =>
      let (e, s) := s.ecc
      s.sched (s.tick + pieceTicks * r.2) (obj r.1.1) (.hbmSectorAccess r.1.2.1 e)) s
    let left := (ticks - (granted + 7) / 8) / pieceTicks - reps.length
    let top := sortBy (fun a b => decide (b.2 ≤ a.2)) (st.backlog.filter fun e => e.2 != 0)
    let nref := min left top.length
    let s := s.updStack n fun st => { st with
      backlog := ((top.take nref).map fun e => (e.1, e.2 - 1)).filter (fun e => e.2 != 0) ++ top.drop nref }
    let left := left - nref
    let nwb := min left (s.stack n).writebacks.length
    let s := s.updStack n fun st => { st with writebacks := st.writebacks.drop nwb }
    let left := left - nwb
    let ncopy := min (min left 4) (((s.stack n).copies.map fun c => 16 - c.2).foldl (· + ·) 0)
    let s := copyRows s n ncopy
    let due := decide ((s.stack n).patrolAt + 3584 ≤ s.tick)
    let s := if 0 < left - ncopy ∨ due then patrolRow s n else s
    let s := ((s.stack n).backlog.filter fun e => decide (8 < e.2)).foldl (fun s e =>
      s.sched (s.tick + ticks) (obj n) (.refreshOutsideSlack e.1)) s
    let q := s.chip.sched
    let (per, len, _) := slackPattern s n
    if q.running ∧ 0 < per ∧ s.tick + per + len ≤ q.frameStart + q.frameLen then
      .next (s.sched (s.tick + per) s.cur (.slackWindow len))
    else .next s
/-- REFRESH_OUTSIDE_SLACK (R67, R68): a bank of stack cur.n is refreshed; a fault that names the stack, while a strict grid
runs. -/
def execRefreshOutsideSlack (bank : Nat) (s : State) : Out :=
  let s := s.updStack s.cur.n fun st => { st with
    backlog := (st.backlog.map fun e => if e.1 = bank then (e.1, e.2 - 1) else e).filter (fun e => e.2 != 0) }
  .next (if anyStrict s && s.chip.sched.running then reportFaultOf s s.cur.n 2 else s)
/-- ERROR_COUNT_DECAY (R70): every counter loses 1, but for rows being copied, which stay at 8 (R71). -/
def execErrorCountDecay (s : State) : Out :=
  let decay := fun e : Nat × Stack => (e.1, { e.2 with
    errs := (e.2.errs.map (fun r =>
      if r.2 = 8 ∧ e.2.copies.any (fun c => match assoc e.2.remap c.1 with | some w => remapRow e.1 w == r.1 | none => false)
      then r else (r.1, r.2 - 1))).filter (fun r => r.2 != 0) })
  let s := s.updChip fun h => { h with hbm := h.hbm.map decay }
  let s := { s with net := { s.net with dram := s.net.dram.map decay } }
  .next (s.sched (s.tick + 2 ^ 32) (obj 0) .errorCountDecay)

/-! ### Schedule faults (R68, R398) -/

/-- Bytes of the initialisers that the superstep in force declares. -/
def initBytes (s : State) : Nat :=
  ((s.decls.filter fun d => bits (nth d 0 0) 0 2 < 2).map fun d => (nth d 1 0).toNat).foldl (· + ·) 0
/-- SCHEDULE_FAULT (R68, R398, R437): firmware has the record, and within 1,000 ticks the beacon names the
resynchronisation tick. For a halted peer it comes after the peer's release, and does not count. -/
def execScheduleFault (cause : Nat) (s : State) : Out :=
  let s := recovery s ⟨0, 0, 16⟩ 7 (bits s.chip.sstep 0 32) 0
  if !s.chip.sched.running ∨ s.chip.sched.faulted then .next s
  else
    let s := s.updChip fun h => { h with sched := { h.sched with faulted := true, nocount := cause == 4 } }
    if cause = 4 then .next s
    else
      let (d, s) := s.free 1000
      .next (s.sched (s.tick + d) (obj 0) (.resyncBeacon (s.tick + 4000 + (initBytes s + 255) / 256)))

end Sys2Proof.Machine
end

