-- ==== Sys2Proof/Machine/Launch.lean ====
section
/-!
DEFINITION. Launches: packets, the ordered checks, the verdict, the start of a grid, and retirement (R34, R35,
R149, R376 to R389, R393, R415).
-/
namespace Sys2Proof.Machine

/-! ### Firmware's own accesses to a tenant's memory (R21, R383) -/

/-- Space and physical address of an address of a tenant for an operation of firmware, which meets no poison check (R19);
none when it does not translate. -/
def fwPlace (s : State) (tenant : Nat) (a : Acc) (addr : DWord) : Option (Nat × Nat) :=
  let sp := spaceOf addr
  let va := bits addr 0 51
  if 3 < sp ∨ bits addr 51 9 ≠ 0 then none
  else match walk s (tenantPt s tenant) va with
    | .leaf l p pa =>
      match targetChecks s tenant va sp a (mkTlbE s tenant l va p pa) with
      | .ok pa => some (sp, pa)
      | .error _ => none
    | .page .. | .table .. => none
/-- The memory key of such an address. -/
def fwTrans (s : State) (tenant : Nat) (a : Acc) (addr : DWord) : Option Nat :=
  (fwPlace s tenant a addr).map fun p => memKey p.1 p.2
/-- n dwords of a tenant's memory; none when one does not translate. -/
def fwDwords (s : State) (tenant : Nat) (a : Acc) (addr : DWord) : Nat → Option (List DWord)
  | 0 => some []
  | n + 1 =>
    match fwTrans s tenant a addr, fwDwords s tenant a (addr + 8) n with
    | some k, some l => some (s.dword k :: l)
    | _, _ => none
/-- Write dwords to a tenant's memory; those that do not translate are dropped. -/
def fwWrite (s : State) (tenant : Nat) (addr : DWord) : List DWord → State
  | [] => s
  | d :: t =>
    let s := match fwPlace s tenant .store addr with
      | some (0, pa) => fwStore s pa (toBytes 8 d.toNat)
      | some (sp, pa) => s.setBytes (memKey sp pa) (toBytes 8 d.toNat)
      | none => s
    fwWrite s tenant (addr + 8) t

/-! ### Packets, maps and grids (R383, R384, R389) -/

/-- A field of the grid's packet and of its map's header. -/
def Grid.pk (g : Grid) (k lo n : Nat) : Nat := bits (nth g.packet k 0) lo n
def Grid.hd (g : Grid) (k lo n : Nat) : Nat := bits (nth g.map k 0) lo n
def Grid.kind (g : Grid) : Nat := g.pk 0 1 3
def Grid.gsid (g : Grid) : Nat := g.pk 0 16 12
def Grid.bpc (g : Grid) : Nat := g.pk 0 13 2 + 1
def Grid.isize (g : Grid) : Nat := g.pk 3 0 23
def Grid.phBase (g : Grid) : Nat := g.hd 2 24 12
def Grid.phCnt (g : Grid) : Nat := g.hd 2 36 13
def Grid.hasElastic (g : Grid) : Bool := g.pk 0 11 1 == 1
/-- Fields of a map entry (R384). -/
def entChip (e : Nat) : Nat := e % 2 ^ 10
def entClus (e : Nat) : Nat := e / 2 ^ 10 % 64
def entCore (e : Nat) : Nat := e / 2 ^ 16 % 64
def entIdx (e : Nat) : Nat := e / 2 ^ 22 % 4
/-- A grid holds its cores while its reservation, its wait or its run lasts (R388, R390); its charges also while
it is pre-empted (R376). -/
def Grid.held (g : Grid) : Bool := g.state == 1 || g.state == 2 || g.state == 7 || (g.state == 0 && g.rstat == 0)
def Grid.charged (g : Grid) : Bool := g.held || g.state == 3
/-- Pool KiB that a grid takes on a core (R386). -/
def Grid.poolKib (g : Grid) : Nat := 64 * g.pk 1 0 5 + 16 * (g.pk 1 8 8 + g.pk 1 16 8)

/-- The packet's own rules (R383). -/
def pktOk (p : List DWord) : Bool :=
  let f := fun k lo n => bits (nth p k 0) lo n
  let al := fun (a : DWord) (m : Nat) (sys : Bool) => a.toNat % m == 0 && (spaceOf a == 0 || (sys && spaceOf a == 3))
  decide (f 0 1 3 ≤ 2) && f 0 15 1 == 0 && f 0 28 36 == 0 && (nth p 7 0 == 0 || al (nth p 7 0) 8 true) &&
    (match f 0 1 3 with
     | 1 => al (nth p 2 0) 8 false && f 3 62 2 == 0 && al (nth p 4 0) 64 false
     | 2 => al (nth p 4 0) 8 true
     | _ => true)
/-- The map of a launch, read for its tenant: the grid with header and entries; none when it is unreadable or
breaks a rule of R384. -/
def readMap (s : State) (g : Grid) : Option Grid :=
  let tn := domTenant s g.dom
  let a := nth g.packet 4 0
  match fwDwords s tn .load a 8 with
  | none => none
  | some h =>
    let n := bits (nth h 2 0) 0 24 + 1
    match fwDwords s tn .load (a + 64) ((n + 1) / 2) with
    | none => none
    | some ws =>
      let ents := ((ws.map fun w => [bits w 0 32, bits w 32 32]).flatten).take n
      let ok := bits (nth h 0 0) 31 33 == 0 && bits (nth h 2 0) 49 15 == 0 && (h.drop 3).all (· == 0) &&
        ents.all fun e => decide (e < 2 ^ 24)
      let mine := (ents.filter fun e => entChip e == chipNo).map fun e => (entClus e, entCore e)
      if ok then some { g with map := h, ents := ents, cores := mine.eraseDups } else none

/-! ### The ordered checks of a launch (R386) -/

/-- Start of frame n of a table whose first frame starts at tick t. -/
def frameFrom (ws : List DWord) (t n : Nat) : Nat := ((List.range n).map (frameLen ws)).foldl (· + ·) t
/-- Frames of the loaded table from the one in force on, and of the one that takes over: start, table, number. -/
def framesAhead (s : State) : List (Nat × List DWord × Nat) :=
  let q := s.chip.sched
  let cur := if q.loaded then
    (List.range (nFrames q.words - q.frame)).map fun k => (frameAt q (q.frame + k), q.words, q.frame + k) else []
  match q.next with
  | some (t, _, ws) => cur.filter (fun f => decide (f.1 < t)) ++
      (List.range (nFrames ws)).map fun n => (frameFrom ws t n, ws, n)
  | none => cur
/-- The fill entry of a grid slot for a cluster in a frame (R394). -/
def fillFor (ws : List DWord) (n gsid cl : Nat) : Option DWord :=
  (fillsOf ws n).find? fun e => bits e 0 12 == gsid && bits e 12 6 == cl
/-- A START of 0 is the first frame start at or after A + 40,000 with fill entries of the grid slot. -/
def startOf (s : State) (g : Grid) : Nat :=
  let st := (nth g.packet 6 0).toNat
  if st ≠ 0 then st
  else match (framesAhead s).find? fun f => decide (g.at_ + 40000 ≤ f.1) &&
      (fillsOf f.2.1 f.2.2).any fun e => bits e 0 12 == g.gsid with
    | some f => f.1
    | none => 0
/-- Check 2. -/
def startOk (s : State) (g : Grid) : Bool :=
  match (framesAhead s).find? fun f => f.1 == g.start with
  | none => false
  | some (_, ws, n) =>
    g.start != 0 && (g.ents.all fun e => (fillFor ws n g.gsid (entClus e)).isSome) &&
      !(g.hasElastic && (List.range (nFrames ws)).any fun k => (declsOf ws k).any fun d =>
        match declColl d with | some (_, _, gs) => gs == g.gsid | none => false)
/-- Check 4 (R34, R35, R149). -/
def partOk (p : DWord) (bpc : Nat) : Bool :=
  let w := 32 * 2 ^ bits p 30 2
  let nreg := bits p 24 6
  let nw := bits p 32 5
  decide (bits p 0 5 ≤ 24) && bits p 5 3 == 0 && decide (1 ≤ nreg) && decide (nreg ≤ 32) && bits p 30 2 != 3 &&
    decide (1 ≤ nw) && decide (nw ≤ 16) && bits p 37 27 == 0 &&
    decide (65536 * bits p 0 5 + 16384 * (bits p 8 8 + bits p 16 8) ≤ 2621440) &&
    decide (4 * 16 * nreg * w * nw ≤ 16384 * bits p 8 8) && nw % bpc == 0
/-- Whether a clause header stands at an offset of an image, by walking it from its first clause. -/
def hdrAt (img : Nat → DWord) (size : Nat) : Nat → Nat → Nat → Bool
  | 0, _, _ => false
  | f + 1, off, target =>
    let next := off + 8 * (hdrCnt (img off) + 2)
    if size ≤ off then false
    else if off = target then decide (next ≤ size)
    else if target < off then false
    else hdrAt img size f next target
/-- The start of each 4 KiB granule that an image touches, as an offset in the image. -/
def imgPieces (a : DWord) (size : Nat) : List Nat :=
  0 :: ((List.range (size / 4096 + 1)).map fun k => (k + 1) * 4096 - a.toNat % 4096).filter fun o => decide (o < size)
/-- Place of a grid's image in the code store of each of its clusters here; none when one has no room. -/
def imgPlaces (s : State) (g : Grid) : Option (List (Nat × Nat)) :=
  let used := fun cl => (s.fw.grids.filter fun h => h.charged && h.id != g.id).filterMap fun h =>
    (assoc h.imgs cl).map fun b => (b, h.isize)
  ((g.cores.map (·.1)).eraseDups).foldr (fun cl l =>
    match l, someFit (used cl) 0 (2 ^ 22) g.isize 8 with
    | some l, some b => some ((cl, b) :: l)
    | _, _ => none) (some [])
/-- Check 5, but for the room. -/
def imageOk (s : State) (g : Grid) : Bool :=
  let a := nth g.packet 2 0
  let n := g.isize
  let at_ := fun o : Nat => fwTrans s (domTenant s g.dom) .code (a + BitVec.ofNat 64 o)
  let img := fun o : Nat => match at_ o with | some k => s.dword k | none => 0
  n != 0 && n % 8 == 0 && decide (n ≤ 2 ^ 22) && (imgPieces a n).all (fun o => (at_ o).isSome) &&
    hdrAt img n (n / 16 + 1) 0 (8 * g.pk 3 23 19) && hdrAt img n (n / 16 + 1) 0 (8 * g.pk 3 42 19)
/-- Check 6. -/
def mapOk (s : State) (g : Grid) : Bool :=
  let place := fun e => (entChip e, entClus e, entCore e)
  g.ents.all fun e =>
    Config.podHas (entChip e) && decide (entIdx e < g.bpc) &&
      !(entChip e == chipNo && bit (s.chip.cluster (entClus e)).pairst 32 && decide (32 ≤ entCore e)) &&
      (List.range g.bpc).all fun j => ((g.ents.filter fun f => place f == place e && entIdx f == j).length == 1)
/-- Whether a logical core of this chip is unmapped (R173, R203): in pair mode both members count, or the
survivor of a pair that runs unpaired. -/
def unmapped (s : State) (cl co : Nat) : Bool :=
  let k := s.chip.cluster cl
  let gone := fun n => (assoc k.cmap.phys n).getD n == 0x7F
  if bit k.pairst 32 then
    if bit k.pairst co then gone (2 * co) && gone (2 * co + 1) else gone (2 * co) || gone (2 * co + 1)
  else gone co
/-- What check 7 writes into the ring slot: the count, and up to twelve entries, two a dword. -/
def unmappedList (cs : List (Nat × Nat)) : List DWord :=
  let es := (sortBy (· ≤ ·) (cs.map fun k => k.1 * 64 + k.2)).map fun v =>
    chipNo + v / 64 * 2 ^ 10 + v % 64 * 2 ^ 16
  BitVec.ofNat 64 cs.length :: (List.range 6).map fun k => BitVec.ofNat 64 (nth es (2 * k) 0 + nth es (2 * k + 1) 0 * 2 ^ 32)
/-- Checks 1 to 7 after the map has been read: the RSTAT of the first that fails, and what goes to the slot. -/
def preFault (s : State) (g : Grid) : Option (Nat × List DWord) :=
  if 4096 < g.phCnt then some (12, [])
  else if !startOk s g then some (8, [])
  else if g.start < g.at_ + 40000 then some (4, [])
  else if !partOk (nth g.packet 1 0) g.bpc then some (3, [])
  else if !imageOk s g || g.imgs.isEmpty && !g.cores.isEmpty then some (9, [])
  else if !mapOk s g then some (5, [])
  else match g.cores.filter fun k => unmapped s k.1 k.2 with
    | [] => none
    | cs => some (6, unmappedList cs)
/-- Check 9. -/
def phaserRoom (s : State) (g : Grid) : Bool :=
  decide (g.phBase + g.phCnt ≤ 4096) &&
    (s.fw.grids.all fun h => h.id == g.id || !h.charged || decide (h.phBase + h.phCnt ≤ g.phBase) ||
      decide (g.phBase + g.phCnt ≤ h.phBase) || g.phCnt == 0 || h.phCnt == 0)
/-- Rind areas that a grid takes here, one for each block (R196), and check 10: domains that share RBASE share the
areas. -/
def Grid.rind (g : Grid) : Nat := g.cores.length * g.bpc
def rbaseOf (s : State) (dom : Nat) : Nat := match s.dom dom with | some d => bits (nth d.dw 8 0) 15 37 | none => 0
def rindFree (s : State) (dom : Nat) (not : Nat) : Nat :=
  let cnt := match s.dom dom with | some d => bits (nth d.dw 8 0) 0 15 | none => 0
  let used := (s.fw.grids.filter fun h => h.charged && h.id != not && rbaseOf s h.dom == rbaseOf s dom).map (·.rind)
  cnt - used.foldl (· + ·) 0
/-- The lowest free Rind areas of the pool that grid g draws on, one for each of its blocks here (R196). -/
def pickAreas (s : State) (g : Grid) : List Nat :=
  let used := ((s.fw.grids.filter fun h => h.charged && h.id != g.id && rbaseOf s h.dom == rbaseOf s g.dom).map (·.areas)).flatten
  ((List.range (used.length + g.rind)).filter fun k => !used.contains k).take g.rind
/-- Where the area of block j of a core of grid g lies. -/
def rindArea (s : State) (g : Grid) (cl co j : Nat) : Option Nat :=
  (g.areas[(g.cores.findIdx (· == (cl, co))) * g.bpc + j]?).map fun k => rbaseOf s g.dom * 2 ^ 15 + k * 0x7E000
/-- Grids that hold a core which the launch names (R390). -/
def clashes (s : State) (g : Grid) : List Grid :=
  s.fw.grids.filter fun h => h.id != g.id && h.held && h.cores.any g.cores.contains
/-- Images of the context store in use (R417). -/
def imagesUsed (s : State) : Nat := (s.fw.ctxs.map fun c => c.cores.length).foldl (· + ·) 0
/-- Ask for a grid's pre-emption (R390). -/
def askPreempt (s : State) (g by_ : Nat) : State :=
  match s.grid g with
  | none => s
  | some x =>
    if x.preq.isSome then s
    else (s.updGrid g fun x => { x with preq := some by_, preqAt := s.tick }).sched s.tick (obj g) .preemption
/-- The checks at acceptance; what passes is reserved, and pre-emption is asked for. -/
def launchChecks (s : State) (g0 : Grid) : State :=
  let refuse := fun (g : Grid) (r : Nat) (ds : List DWord) => s.updGrid g.id fun _ => { g with rstat := r, sdwords := ds }
  match readMap s g0 with
  | none => refuse g0 11 []
  | some g =>
    let g : Grid := { g with start := startOf s g, imgs := (imgPlaces s g).getD [] }
    match preFault s g with
    | some (r, ds) => refuse g r ds
    | none =>
      match charge s g.dom .cores g.cores.length with
      | none => refuse g 1 []
      | some s1 =>
        match charge s1 g.dom .pool (g.cores.length * g.poolKib) with
        | none => refuse g 1 []
        | some s2 =>
          let hs := clashes s g
          let need := (hs.map fun h => h.cores.length).foldl (· + ·) 0
          if !phaserRoom s g then refuse g 12 []
          else if rindFree s g.dom g.id < g.rind then refuse g 13 []
          else if hs.any (fun h => decide (effPrio s g.dom ≤ effPrio s h.dom)) ∨ (hs ≠ [] ∧ 8192 < imagesUsed s + need) then
            refuse g 2 []
          else hs.foldl (fun s h => askPreempt s h.id g.id) (s2.updGrid g.id fun _ => { g with areas := pickAreas s g })

/-! ### Queues and acceptance (R377, R381, R385) -/

def State.queue (s : State) (id : Nat) : Option UQueue := s.fw.queues.find? fun q => q.id == id
def State.updQueue (s : State) (id : Nat) (f : UQueue → UQueue) : State :=
  { s with fw := { s.fw with queues := s.fw.queues.map fun q => if q.id = id then f q else q } }
/-- Address of a packet's slot in the ring (R377). -/
def UQueue.slotAt (q : UQueue) (x : Nat) : DWord := q.ring + BitVec.ofNat 64 (64 * (x % 2 ^ q.rlog2))
/-- Let firmware read the next header of a queue, unless it is about to. -/
def kickQueue (s : State) (q : Nat) : State :=
  if s.agenda.any fun e => e.2.1 == obj q && e.2.2 == .packetHeaderRead then s
  else s.sched s.tick (obj q) .packetHeaderRead
/-- A grid for a packet that has been accepted. -/
def newGrid (s : State) (dom : Nat) (queue : Option Nat) (idx : Nat) (p : List DWord) (origin : Option Iss) :
    Grid × State :=
  let g : Grid := {
    id := s.fw.nextGrid, launch := 0, dom := dom, queue := queue, packet := p, cores := [], start := 0, state := 0
    rstat := 0, reason := 0, origin := origin, exits := [], sdwords := [], preq := none, halted := false
    idx := idx, at_ := s.tick }
  (g, { s with fw := { s.fw with nextGrid := g.id + 1, grids := s.fw.grids ++ [g] } })
/-- A grid reaches a state in which its packet retires. -/
def retireAs (s : State) (g state rstat : Nat) : State :=
  (s.updGrid g fun x => { x with state := state, rstat := rstat }).sched s.tick (obj g) .packetRetire
/-- The checks of a launch begin; their outcome is known within 8,000 ticks (R388). -/
def launch (s : State) (g : Grid) : State :=
  let s := launchChecks s g
  let s := s.updGrid g.id fun x => { x with launch := x.hd 0 0 31 }
  let (d, s) := s.free 8000
  s.sched (s.tick + d) (obj g.id) .launchVerdict
/-- Accept the packet at a queue's next index. -/
def accept (s : State) (q : UQueue) (p : List DWord) : State :=
  let (g, s) := newGrid s q.dom (some q.id) q.next p none
  let s := s.updQueue q.id fun q => { q with next := (q.next + 1) % 2 ^ 32, qstate := 2 }
  if !pktOk p then retireAs (s.updQueue q.id fun q => { q with qstate := 4 }) g.id 6 11
  else
    let s : State := match g.kind with
      | 0 => retireAs s g.id 4 0
      | 1 => launch s g
      | _ => (s.updGrid g.id fun x => { x with state := 1 }).sched s.tick (obj g.id) .waitPacketPoll
    kickQueue s q.id
/-- Firmware reads the header at a queue's next index (R385). -/
def readHeader (s : State) (q : UQueue) : State :=
  if !q.resident || q.qstate = 4 || q.next = q.offered then s
  else match fwDwords s (domTenant s q.dom) .load (q.slotAt q.next) 8 with
    | none => s.updQueue q.id fun q => { q with qstate := 4 }
    | some p =>
      if !bit (nth p 0 0) 0 then s.sched (s.tick + 1024) (obj q.id) .packetHeaderRead
      else if bit (nth p 0 0) 4 && q.ridx != q.next then s
      else accept s q p
/-- PACKET_HEADER_READ (R372, R385): of queue cur.n, or the packet that the front thread of core cur submits. -/
def execPacketHeaderRead (s : State) : Out :=
  let w : Iss := ⟨s.cur.cl, s.cur.co, 16⟩
  if s.cur.n ≠ 2 ^ 32 then
    match s.queue s.cur.n with
    | some q => .next (readHeader s q)
    | none => .next s
  else match (s.iss w).wait with
    | .block (.glaunch m r) .wait lanes vals _ pc =>
      if vals.isEmpty then .next (completeBlock s w (.glaunch m r) lanes pc 0xFF)
      else
        let (g, s) := newGrid s ((domOfCore s w.cl w.co).getD 0) none 0 vals (some w)
        if pktOk vals && g.kind == 1 then .next (launch s g)
        else
          let (d, s) := s.free 8000
          .next ((s.updGrid g.id fun g => { g with rstat := 11 }).sched (s.tick + d) (obj g.id) .launchVerdict)
    | _ => .next s
/-- WAIT_PACKET_POLL (R385): grid cur.n stands for a wait packet. -/
def execWaitPacketPoll (s : State) : Out :=
  match s.grid s.cur.n with
  | none => .next s
  | some g =>
    if g.state ≠ 1 then .next s
    else match fwDwords s (domTenant s g.dom) .load (nth g.packet 4 0) 1 with
      | some [v] =>
        if (v.toInt ≤ (nth g.packet 5 0).toInt) then .next (retireAs s g.id 4 0)
        else .next (s.sched (s.tick + 4096) s.cur .waitPacketPoll)
      | _ => .next (retireAs s g.id 6 11)

/-! ### Verdict and start (R36, R387, R388, R393) -/

/-- Give back what a launch had charged (R376). -/
def refundGrid (s : State) (g : Grid) : State :=
  refund (refund s g.dom .cores g.cores.length) g.dom .pool (g.cores.length * g.poolKib)
/-- Release the issuers of a grid that pre-emption had stopped. -/
def unpark (s : State) (g : Grid) : State :=
  (g.cores.filter fun k => (s.core k.1 k.2).grid == some g.id).foldl (fun s k =>
    kickStreams (kickEngines (s.updCore k.1 k.2 fun c => { c with parked := [] }) k.1 k.2) k.1 k.2) s
/-- Withdraw the pre-emption that launch g asked for: what runs goes on, what was saved is restored (R390). -/
def withdraw (s : State) (g : Nat) : State :=
  (s.fw.grids.filter fun h => h.preq == some g).foldl (fun s h =>
    let s := s.updGrid h.id fun h => { h with preq := none }
    if h.state = 3 then s.sched s.tick (obj 0) .automaticRestore else unpark s h) s
/-- Copy a grid's image to a cluster's code store, granule by granule. -/
def copyImage (s : State) (g : Grid) (base cl : Nat) : State :=
  let a := nth g.packet 2 0
  let os := imgPieces a g.isize
  (os.zip (os.drop 1 ++ [g.isize])).foldl (fun s o =>
    match fwTrans s (domTenant s g.dom) .code (a + BitVec.ofNat 64 o.1) with
    | some k => copyRange s k (keyCode cl (base + o.1)) (o.2 - o.1)
    | none => s) s
/-- The launch of grid g passes: its image is put into the code stores, and it starts at START. -/
def placed (s : State) (g : Grid) : State :=
  let s := g.imgs.foldl (fun s p => copyImage s g p.2 p.1) s
  let s := s.updGrid g.id fun g => { g with
    state := 1, remote := g.ents.any fun e => entChip e != chipNo }
  let s := s.sched g.start (obj g.id) .gridStart
  if s.fw.grids.any fun h => h.preq == some g.id then s.sched (g.start - 16000) (obj g.id) .preemptionRequestWithdrawn
  else s
/-- The launch of grid g is refused: what it had reserved goes back. -/
def refused (s : State) (g : Grid) (r : Nat) : State :=
  let s := if g.rstat = 0 then refundGrid (withdraw s g.id) g else s
  retireAs s g.id 6 r
/-- A GLAUNCH receives the status of its checks (R372). -/
def tellOrigin (s : State) (g : Grid) (r : Nat) : State :=
  match g.origin with
  | none => s
  | some w =>
    match (s.iss w).wait with
    | .block (.glaunch m rd) .wait lanes _ _ pc => completeBlock s w (.glaunch m rd) lanes pc (BitVec.ofNat 64 r)
    | _ => s
/-- LAUNCH_VERDICT (R387): grid cur.n; what the other chips of its map report is a free value. -/
def execLaunchVerdict (s : State) : Out :=
  match s.grid s.cur.n with
  | none => .next s
  | some g =>
    if g.state ≠ 0 then .next (tellOrigin s g g.rstat)
    else
      let others := g.rstat == 0 && g.ents.any fun e => entChip e != chipNo
      let (f, s) := if others then s.free 1 else (0, s)
      let r := if f = 1 then 7 else g.rstat
      .next (tellOrigin (if r = 0 then placed s g else refused s g r) g r)

/-- Happenings that act on a core's objects. -/
def coreEvent : Instr → Bool
  | .regionCommit | .heldEffectPresentation | .regionReentry | .atomicRetry | .drainSector | .drainComplete
  | .followOnIssue | .matrixCommandStart | .operandRelease | .accRetire | .versionCommit | .epilogueRow
  | .epilogueSend | .gatherStart | .gatherComplete | .streamCommandStart | .copySectorLanding _ | .streamWaitEnd
  | .ecopy .. | .efill .. | .edrain .. | .emma .. | .ewait .. | .esig .. | .eloop .. | .eend | .barrierComplete
  | .dqWordPoppable | .trapDelivery | .sequenceTrapDelivery | .oallocComplete | .ofreeComplete
  | .deferredEntryResolve | .pairSelfTest _ => true
  | _ => false
/-- Whether a happening of the agenda belongs to a core. -/
def ofCore (cl co : Nat) (e : Nat × Iss × Instr) : Bool :=
  match e.2.2 with
  | .windowLanding d => d.cl == cl && d.co == co
  | .packetHeaderRead => e.2.1 == ⟨cl, co, 2 ^ 32⟩
  | i => coreEvent i && e.2.1.cl == cl && e.2.1.co == co
/-- One warp of a grid at its start (R151, R163, R367, R383, R393). -/
def startWarp (g : Grid) (rlim W slot bidx block pc : Nat) : Issuer :=
  let karg := nth g.packet 5 0
  let regs := fun (r : Nat) (v : Nat) (m : Sparse Word) =>
    (List.range W).foldl (fun m l => Sparse.set (0 : Word) m (vkey r l) (BitVec.ofNat 32 v)) m
  { slot := slot, block := block, bidx := bidx, pcs := List.replicate W pc, meets := List.replicate W 0
    vregs := regs 1 (bits karg 32 32) (regs 0 (bits karg 0 32) []), seed := nth g.map 1 0, rlimit := rlim }
/-- A core of the grid as its start tick finds it (R36, R154, R393). -/
def startCore (s : State) (g : Grid) (cl co : Nat) : Core :=
  let partw := nth g.packet 1 0
  let base := (assoc g.imgs cl).getD 0
  let (ssg, fillp, boundary) := match (framesAhead s).find? fun f => f.1 == g.start with
    | some (_, ws, n) =>
      let e := (fillFor ws n g.gsid cl).getD 0
      (bits e 26 1, bits e 18 8, (List.range (nFrames ws)).any fun k => fSsb ws k)
    | none => (0, 1, false)
  let mode := g.pk 0 11 1 + g.pk 0 12 1 * 2 + ssg * 4 + bits (s.chip.cluster cl).pairst 32 1 * 8 +
    b2n s.chip.replog * 16 + b2n (effHalt s g.dom == 2) * 32 + max 1 fillp * 256
  let nw := bits partw 32 5
  let wpb := nw / g.bpc
  let rlim := effRlim s g.dom
  let W := 32 * 2 ^ bits partw 30 2
  let num := fun j => (g.ents.findIdx fun e => entChip e == chipNo && entClus e == cl && entCore e == co && entIdx e == j)
  let warps := (List.range nw).map fun k =>
    startWarp g rlim W k (k / wpb) (num (k / wpb)) (2 * (base + 8 * g.pk 3 23 19))
  let fv := g.pk 3 61 1 == 1
  let front : Issuer := {
    slot := 16, block := num 0, pcs := [2 * (base + 8 * g.pk 3 42 19)], meets := [0], seed := nth g.map 1 0
    rlimit := rlim, wait := if fv then .run else .ended, nextAt := s.tick }
  { cl := cl, co := co, active := true, partw := partw, ptbase := tenantPt s (domTenant s g.dom)
    dcbptr := BitVec.ofNat 64 (dcbAddr g.dom), modew := BitVec.ofNat 64 mode, launch := g.launch, grid := some g.id
    imgBase := base, imgSize := g.isize, bpc := g.bpc, wpb := wpb, fv := fv, fill := max 1 fillp, boundary := boundary
    phBase := g.phBase, phCnt := g.phCnt, sregs := Sparse.set (0 : DWord) [] 0 (nth g.packet 5 0)
    issuers := warps ++ [front], rotAt := s.tick
    blocks := (List.range g.bpc).map fun j => ({ num := num j, idx := j, area := rindArea s g cl co j } : Block) }
/-- Place a core: its scratchpad is cleared, and its issuers' first regions and its blocks' intervals open. -/
def placeCore (s : State) (g : Grid) (cl co : Nat) : State :=
  let s := clearRange { s with agenda := s.agenda.filter fun e => !(ofCore cl co e) } (keySp cl co 0) (2 ^ 24)
  let c := startCore s g cl co
  let s := s.setCore c
  let s := (c.issuers.filter fun i => i.wait != .ended).foldl (fun s i =>
    openRegion s ⟨cl, co, i.slot⟩ 1 0 .start i.pcs) s
  (List.range g.bpc).foldl (fun s j =>
    let s := openInterval s cl co j false
    if bit c.modew 2 then openInterval s cl co j true else s) s
/-- GRID_START (R388): grid cur.n starts at its tick, which a resynchronisation or a freeze may have moved. The
entries of its phaser range start from zero (log 11). -/
def execGridStart (s : State) : Out :=
  match s.grid s.cur.n with
  | none => .next s
  | some g =>
    if g.state ≠ 1 ∨ g.kind ≠ 1 then .next s
    else if s.tick < g.start then .next (s.sched g.start s.cur .gridStart)
    else
      let s := s.updChip fun h => { h with
        phasers := h.phasers.filter fun p => !(decide (g.phBase ≤ p.1) && decide (p.1 < g.phBase + g.phCnt)) }
      let s := g.cores.foldl (fun s k => placeCore s g k.1 k.2) (s.updGrid g.id fun g => { g with state := 2 })
      .next (if g.cores.isEmpty then retireAs s g.id 4 0 else s)

/-! ### Retirement (R385, R409, R415, R450) -/

/-- Work of a core that its grid's release orders, and that a save waits for: presented effects, commands, copies,
and accesses that are not answered (R130, R416). -/
def engineBusy (s : State) (c : Core) : Bool :=
  c.issuers.any (fun i => !i.presq.isEmpty || i.retry.isSome) ||
    !(c.matq.isEmpty && c.gatq.isEmpty && c.gatRun.isNone && c.vers.isEmpty && c.wcmds.isEmpty && c.drains.isEmpty) ||
    decide (s.tick < c.matBusy) || c.jobs.any (fun j => !(j.stopped || (j.row == 64 && j.sent == j.sends.length))) ||
    c.streams.any (fun st => !st.copies.isEmpty) ||
    c.cslots.any (fun k => k.cid.isSome || !k.queue.isEmpty) ||
    s.chip.reqs.any fun q => q.w.cl == c.cl && q.w.co == c.co && q.kind != .load && q.kind != .fill
/-- The same, with the streams that run. -/
def coreBusy (s : State) (c : Core) : Bool :=
  engineBusy s c || c.streams.any (fun st => st.running && st.fault.isNone) || !c.efq.isEmpty
/-- The grid's cores that still are its own. -/
def ownCores (s : State) (g : Grid) : List Core :=
  (g.cores.map fun k => s.core k.1 k.2).filter fun c => c.grid == some g.id
/-- Exit records of the grid's blocks here, by number, and the summary of R415. -/
def exitsOf (s : State) (g : Grid) : List Rec :=
  (sortBy (fun a b => decide (a.num ≤ b.num)) ((ownCores s g).map (·.blocks)).flatten).map fun b =>
    b.exitRec.getD [BitVec.ofNat 64 (b.num % 2 ^ 24), 0, 0, 0, 0, 0]
def exitQuiet (r : Rec) : Bool := bits (nth r 0 0) 24 40 == 0 && (r.drop 1).all (· == 0)
def exitSummary (rs : List Rec) : List DWord :=
  let bad := rs.filter fun r => !exitQuiet r
  BitVec.ofNat 64 bad.length :: (match bad with | r :: _ => r | [] => List.replicate 6 0)
/-- The read index passes every packet that has retired in a row; LSTAT is that of the last (R385). -/
def advanceR (gs : List Grid) : Nat → Nat × Nat → Nat × Nat
  | 0, r => r
  | f + 1, (x, l) =>
    match gs.find? fun g => g.idx == x && g.retired with
    | some g => advanceR gs f ((x + 1) % 2 ^ 32, g.rstat)
    | none => (x, l)
/-- Decrement a completion signal (R385). -/
def signal (s : State) (tenant : Nat) (a : DWord) : State :=
  if a = 0 then s
  else match fwDwords s tenant .load a 1 with
    | some [v] => fwWrite s tenant a [v - 1]
    | _ => s
/-- Free a grid's cores and charges. -/
def releaseGrid (s : State) (g : Grid) : State :=
  let s := (ownCores s g).foldl (fun s c => s.setCore { c with grid := none, active := false }) s
  if g.kind ≠ 1 ∨ g.state = 6 then s else refundGrid s g
/-- The steps of a packet's retirement (R385). The exit summary is written where a block is not quiet; with every
block quiet dwords 1 to 7 of the slot stay as they are (R415, R484; log 12). -/
def retire (s : State) (g : Grid) : State :=
  let tn := domTenant s g.dom
  let exits := if g.kind = 1 ∧ (g.state = 4 ∨ g.state = 5) then exitsOf s g else []
  let s := signal s tn (nth g.packet 7 0)
  let s := releaseGrid s g
  let s := s.updGrid g.id fun g => { g with retired := true, exits := exits }
  let s := if s.fw.ctxs.any (·.auto_) then s.sched s.tick (obj 0) .automaticRestore else s
  match g.queue.bind s.queue with
  | none => s
  | some q =>
    let ds := if g.rstat = 10 then (List.range 7).map fun k => nth g.sdwords k 0
      else if g.rstat = 6 then g.sdwords
      else if g.kind = 1 ∧ g.state = 4 ∧ !(exits.all exitQuiet) then exitSummary exits
      else []
    let s := fwWrite s tn (q.slotAt g.idx) (BitVec.ofNat 64 (g.rstat * 2 ^ 56) :: ds)
    let mine := s.fw.grids.filter fun h => h.queue == some q.id
    let (x, l) := advanceR mine mine.length (q.ridx, q.lstat)
    let live := mine.any fun h => !h.retired
    let s := s.updQueue q.id fun q => { q with
      ridx := x, lstat := l, qstate := if q.qstate = 2 ∧ !live ∧ q.next = x then 1 else q.qstate }
    let passed := fun h : Grid => h.queue == some q.id && h.retired && decide ((x + 2 ^ 32 - h.idx - 1) % 2 ^ 32 < 2 ^ 31)
    let s := { s with fw := { s.fw with
      grids := s.fw.grids.filter fun h => !(passed h), msix := s.fw.msix ++ [(q.id / 64, q.id % 64)] } }
    kickQueue s q.id
/-- PACKET_RETIRE (R385, R415, R444): grid cur.n has ended or is refused; its packet retires once its work is
done, no halt withholds it, and its parts on other chips have ended. An object that faulted meanwhile ends the
grid (R408). -/
def execPacketRetire (s : State) : Out :=
  match s.grid s.cur.n with
  | none => .next s
  | some g =>
    if g.retired || !(g.state == 4 || g.state == 5 || g.state == 6) then .next s
    else
      let own := ownCores s g
      if g.halted || own.any (coreBusy s) then .next (s.sched (s.tick + 1) s.cur .packetRetire)
      else match if g.state = 4 then own.findSome? fun c => (unnamedFault c).map fun r => (c, r) else none with
        | some (c, r) =>
          .next (toFirmware (s.updGrid g.id fun g => { g with state := 2 })
            (setNth 0 r 0 (setBits (nth r 0 0) 17 1 1)) (some ⟨c.cl, c.co, 16⟩))
        | none =>
          if g.remote && g.state == 4 then
            let (d, s) := s.freeD
            .next ((s.updGrid g.id fun g => { g with remote := false }).sched (s.tick + d.toNat) s.cur .packetRetire)
          else .next (retire s g)

end Sys2Proof.Machine
end

