-- ==== Sys2Proof/Machine/Schedule.lean ====
section
/-!
DEFINITION. The pod schedule as it runs: frames, superstep boundaries, resynchronisation, freezes, and the chip's
time (R158, R197, R305, R394 to R398, R436, R452 to R455).
-/
namespace Sys2Proof.Machine

/-! ### Ticks that a resynchronisation, a freeze or a restore moves (R398, R436) -/

/-- Work of the host, of firmware and of the beacon, whose ticks a freeze does not move and which a frozen chip
goes on with, and flits under way with the sectors that they bring, which land at their ticks (R436). -/
def outside : Instr → Bool
  | .freezeResume | .notifyWrite _ | .mbstatRead | .mbcmdWriteWhileBusy _ | .ptpTickLoad _ | .ptpMessage _
  | .regulatorAlarm _ | .thermalTrip | .functionLevelReset | .deviceReset | .scheduleBeacon _ | .resyncBeacon _
  | .freeze _ | .packetHeaderRead | .waitPacketPoll | .launchVerdict | .packetRetire | .queueSwitchOut
  | .queueSwitchIn | .counterLatch | .errorCountDecay | .firmwareFaultDelivery | .deferredEntryResolve
  | .domnew | .domdel | .domset | .qnew | .qdel | .schload | .gpreempt | .gresume | .gkill | .sloenew | .sloedel
  | .kvbind | .ptmap | .ptunmap | .unknownCommand | .dbgatt | .dbgdet | .haltreq | .resume | .staterd | .statewr
  | .wpset | .predload | .ctrset | .trring | .replay | .exitrd | .rlogrd | .attest | .extload | .cfgrd | .cfgwr
  | .healthrd | .flitReceive _ => true
  | .windowLanding d => d.kind == 2
  | _ => false
/-- A tick later than f moves by d. -/
def mv (f d t : Nat) : Nat := if f < t then t + d else t
def mvOpt (f d : Nat) (t : Option Nat) : Option Nat := t.map (mv f d)
/-- The ticks that a wait holds. -/
def mvWait (f d : Nat) : Wait → Wait
  | .until_ t => .until_ (mv f d t)
  | w => w
def mvIssuer (f d : Nat) (i : Issuer) : Issuer :=
  { i with
    pend := i.pend.map fun p => { p with vis := mv f d p.vis }
    regions := i.regions.map fun r => { r with
      opened := mv f d r.opened, lastVis := mv f d r.lastVis, closed := mvOpt f d r.closed }
    late := i.late.map fun l => (mv f d l.1, mv f d l.2)
    nextAt := mv f d i.nextAt, wait := mvWait f d i.wait, lastCommit := mv f d i.lastCommit }
/-- Every tick later than f that a core holds moves by d. -/
def mvCore (f d : Nat) (c : Core) : Core :=
  let m := mv f d
  { c with
    issuers := c.issuers.map (mvIssuer f d)
    rotAt := m c.rotAt, matBusy := m c.matBusy, gatBusy := m c.gatBusy, epiRowEnd := m c.epiRowEnd, strAt := m c.strAt
    vers := c.vers.map fun v => { v with start := m v.start, retireAt := m v.retireAt }
    locks := c.locks.map fun l => { l with until_ := mvOpt f d l.until_ }
    dq := c.dq.map fun e => (m e.1, e.2)
    jobs := c.jobs.map fun j => { j with firstRow := m j.firstRow, sendBase := m j.sendBase }
    streams := c.streams.map fun st => { st with wait := match st.wait with | .until_ t => .until_ (m t) | w => w }
    fills := c.fills.map fun x => { x with next := m x.next }
    blocks := c.blocks.map fun b => { b with
      doneAt := mvOpt f d b.doneAt, ivals := b.ivals.map fun v => { v with estAt := m v.estAt } } }
/-- A phaser's ticks move. -/
def mvPhaser (f d : Nat) (p : Phaser) : Phaser := { p with
  lastSig := mv f d p.lastSig, lastSig1 := mv f d p.lastSig1, lastDone := mv f d p.lastDone, due := mvOpt f d p.due }
/-- Every architected tick later than f moves by d (R436). -/
def mvState (s : State) (f d : Nat) : State :=
  let m := mv f d
  let q := s.chip.sched
  { s with
    agenda := s.agenda.map fun e => if outside e.2.2 then e else (m e.1, e.2)
    cores := s.cores.map (mvCore f d)
    chip := { s.chip with
      phasers := s.chip.phasers.map fun p => (p.1, mvPhaser f d p.2)
      reqs := s.chip.reqs.map fun r => { r with bound := m r.bound }
      colls := s.chip.colls.map fun c => { c with txAt := if f * 16 + 15 < c.txAt then c.txAt + 16 * d else c.txAt }
      sched := { q with
        frameStart := if f ≤ q.frameStart then q.frameStart + d else q.frameStart
        ssStart := if f ≤ q.ssStart then q.ssStart + d else q.ssStart
        phbStart := if f ≤ q.phbStart then q.phbStart + d else q.phbStart
        next := q.next.map fun n => (m n.1, n.2), resync := mvOpt f d q.resync } }
    fw := { s.fw with grids := s.fw.grids.map fun g => { g with start := m g.start } } }
/-- Log a beacon event of the replay log (R446): kind 1 a frame, 2 a freeze, 3 a resynchronisation, 4 a resume. -/
def logBeacon (s : State) (kind t : Nat) : State :=
  logEntry s 15 0 [BitVec.ofNat 64 kind, BitVec.ofNat 64 t] true

/-! ### Frames (R158, R394, R395, R454) -/

/-- Happenings that follow from the frames of the table, which a resynchronisation places anew. -/
def frameEvent : Instr → Bool
  | .frameStart | .superstepBoundary | .lastFrameEnd | .slackWindow _ | .collectivePresentationDeadline
  | .collectiveStart => true
  | _ => false
/-- Set an island's operating point and skipped ticks from its byte (R394). -/
def setIslands (s : State) (ws : List DWord) (n : Nat) : State :=
  let off := bits (frameW ws n 6) 0 32
  s.updChip fun h => { h with islands := (List.range 1024).map fun i =>
    let b := tblDw ws (off + i)
    (i, { point := bits b 0 3, skip := bits b 3 5 }) }
/-- A superstep's declared collectives that name this chip: their deadline and their start (R434). -/
def declared (s : State) : State :=
  s.decls.foldl (fun s d =>
    match declColl d with
    | none => s
    | some (id, grp, _) =>
      if (groupRanks s.chip.sched.words grp).any fun rs => rs.contains chipNo then
        let t := match nextSlots s (0x8000 + id) ((s.chip.sched.ssStart + 2560) * 16) 1 with
          | p :: _ => p / 16
          | [] => s.chip.sched.ssStart + 2560
        (s.sched (t - 2560) (obj id) .collectivePresentationDeadline).sched t (obj id) .collectiveStart
      else s) s
/-- The slack windows of a frame, each stack's first (R395). -/
def openSlack (s : State) : State :=
  (List.range 16).foldl (fun s n =>
    let (per, len, off) := slackPattern s n
    if 0 < len ∧ 0 < per ∧ off + len ≤ s.chip.sched.frameLen then
      s.sched (s.tick + off) (obj n) (.slackWindow len) else s) s
/-- What ends a frame: a superstep boundary, then the next frame or the end of the table. -/
def frameEnd (s : State) (ws : List DWord) (n : Nat) : State :=
  let t := s.tick + frameLen ws n
  let s := if fSsb ws n then s.sched t (obj n) .superstepBoundary else s
  if fLast ws n || nFrames ws ≤ n + 1 then s.sched t (obj n) .lastFrameEnd else s.sched t (obj (n + 1)) .frameStart
/-- Whether the start of frame n at this tick is the one that the table gives. -/
def frameDue (s : State) (n : Nat) : Bool :=
  let q := s.chip.sched
  q.resync == some s.tick && n == q.ssFirst ||
    q.resync.isNone && (if q.running then n == q.frame + 1 && frameAt q n == s.tick else n == q.frame && q.frameStart == s.tick)
/-- FRAME_START (R395): frame cur.n begins. A table that takes over at this tick does so first. -/
def execFrameStart (s0 : State) : Out :=
  let s := s0
  let n := s.cur.n
  let q0 := s.chip.sched
  let takes : Bool := match q0.next with | some (t, _, _) => t == s.tick && n == 0 | none => false
  let s : State := match q0.next with
    | some (t, pa, ws) => if t = s.tick ∧ n = 0 then
        { s with agenda := s.agenda.filter fun e => !(frameEvent e.2.2) }.updChip fun h => { h with sched := {
          words := ws, pa := pa, loaded := true, frameStart := t } }
      else s
    | none => s
  if takes && s0.agenda.any (fun e => e.1 == s0.tick && e.2.2 == .superstepBoundary) then
    -- The boundary that ends the table before comes first.
    .next (s0.sched s0.tick s0.cur .frameStart)
  else if !takes && !frameDue s n then .next s
  else
    let q := s.chip.sched
    let ws := q.words
    let first := !q.running
    let newSs := n == 0 || fSsb ws (n - 1) || q.resync.isSome
    let s := s.updChip fun h => { h with
      sstep := setBits (if first then setBits h.sstep 0 32 0 else h.sstep) 32 1 1
      sched := { h.sched with
        running := true, frame := n, frameStart := s.tick, frameLen := frameLen ws n
        phbStart := if fPhb ws n then s.tick else h.sched.phbStart
        faulted := h.sched.faulted && q.resync.isNone, resync := none } }
    let s := logBeacon s 1 n
    -- A grid halted under isolate takes the chip's ports out from here on (R437).
    let iso := s.dbg.halted.any fun g => match s.grid g with
      | some g => effHalt s g.dom == 2 && (ownCores s g).any fun c => bit c.modew 2
      | none => false
    let s : State := if iso then { s with net := { s.net with isolated := true } } else s
    let s := if fPhb ws n then setIslands s ws n else s
    let s := if newSs && !s.chip.sched.faulted then
        declared (s.updChip fun h => { h with sched := { h.sched with ssFirst := n, ssStart := s.tick } })
      else s
    .next (frameEnd (openSlack s) ws n)
/-- LAST_FRAME_END (R395): ACT clears, and no stream, slack pattern or boundary remains. -/
def execLastFrameEnd (s : State) : Out :=
  let q := s.chip.sched
  if !q.running ∨ q.resync.isSome ∨ q.frameStart + q.frameLen ≠ s.tick then .next s
  else .next (s.updChip fun h => { h with
    sstep := setBits h.sstep 32 1 0, sched := { next := q.next } })

/-! ### Superstep boundaries and resynchronisation (R305, R397, R398) -/

/-- Grids that take part in supersteps on this chip. -/
def ssgCores (s : State) : List Core := s.cores.filter fun c => c.active && bit c.modew 2
/-- Stop every issuer and stream of a grid for its pre-emption, which then goes on (R391). -/
def parkAll (s : State) (g : Grid) : State :=
  (g.cores.foldl (fun s k => s.updCore k.1 k.2 fun c => { c with parked := List.range 18 }) s).sched
    s.tick (obj g.id) .preemption
/-- Writes and add-on-stores of the cores that take part in supersteps which are not acknowledged yet (R135, R138, R140). -/
def ssOpen (s : State) : List Req :=
  s.chip.reqs.filter fun q => writes q.kind && bit (s.core q.w.cl q.w.co).modew 2
/-- Whether a happening is a stage of such an access, or the presentation of a held effect there. -/
def ssStage (s : State) (ids walks : List Nat) (e : Nat × Iss × Instr) : Bool :=
  match e.2.2 with
  | .hbmSectorAccess .. | .orchardAccessApply | .writeAck | .acknowledgementWord _ | .mirrorUpdate => ids.contains e.2.1.n
  | .pageTableReadReturn => walks.contains e.2.1.n
  | .accessSlotSend | .switchForward | .drainComplete | .collectiveEnd => true
  | .heldEffectPresentation => bit (s.core e.2.1.cl e.2.1.co).modew 2
  | _ => false
/-- What the superstep sent is applied and acknowledged by its boundary (R138): the stages still to come take place now, in
their order, and the boundary after them; none when nothing is left to bring forward. -/
def settleSuperstep (s : State) : Option State :=
  let qs := ssOpen s
  let mine := ssStage s (qs.map (·.id)) ((qs.map (·.walks)).flatten)
  let evs := s.agenda.filter fun e => e.1 == s.tick && frameEvent e.2.2
  let stay := s.agenda.filter fun e => !(mine e) && !(e.1 == s.tick && frameEvent e.2.2)
  let moved := (sortBy (fun a b => decide (a.1 ≤ b.1)) (s.agenda.filter mine)).map fun e => (s.tick, e.2)
  if moved.isEmpty ∨ 4096 ≤ s.cur.cl then none
  else some { s with agenda := stay ++ moved ++ (s.tick, { s.cur with cl := s.cur.cl + 1 }, .superstepBoundary) :: evs }
/-- SUPERSTEP_BOUNDARY (R138, R305, R397): first all that the superstep sent is applied. An issuer that is not at its SSYNC,
a held effect that is not presented, a drain or a collective that has not ended (R434), or a write not acknowledged then, is
a schedule fault (log 39); else STEP advances, the masks and ranges clear (R146), the waits end, the superstep
intervals open (R195), and grids to be pre-empted here are stopped (R391). -/
def execSuperstepBoundary (s : State) : Out :=
  let q := s.chip.sched
  if !q.running ∨ q.faulted ∨ q.resync.isSome then .next s
  else
    let cs := ssgCores s
    let open_ := !(ssOpen s).isEmpty || cs.any fun c => c.issuers.any fun i => !i.presq.isEmpty
    match if open_ then settleSuperstep s else none with
    | some s => .next s
    | none =>
    let late := open_ || cs.any (fun c => !c.drains.isEmpty || c.issuers.any fun i => i.wait != .ended && (waitsSsync i).isNone) ||
      s.chip.colls.any fun c => c.started && !c.ended
    if late then
      -- The report comes before the next frame starts.
      let evs := s.agenda.filter fun e => e.1 == s.tick && frameEvent e.2.2
      let s := { s with agenda := s.agenda.filter fun e => !(e.1 == s.tick && frameEvent e.2.2) }
      let s := reportFault s 3
      .next { s with agenda := s.agenda ++ evs }
    else
      let s := s.updChip fun h => { h with
        sstep := setBits h.sstep 0 32 (bits h.sstep 0 32 + 1)
        clusters := h.clusters.map fun k => { k with mask := 0, ranges := [], allcov := false }
        colls := h.colls.filter fun c => !c.ended
        sched := { h.sched with resyncs := 0 } }
      let s := cs.foldl (fun s c =>
        let s := c.issuers.foldl (fun s i =>
          match i.wait with
          | .block (.ssync m) .wait lanes _ it pc =>
            completeBlock s ⟨c.cl, c.co, i.slot⟩ (.ssync m) lanes pc (BitVec.ofNat 64 it)
          | _ => s) s
        (List.range c.bpc).foldl (fun s j => openInterval s c.cl c.co j true) s) s
      .next ((s.fw.grids.filter fun g => g.state == 2 && g.preq.isSome && decide (g.preqAt + 4000 ≤ s.tick) &&
        (ownCores s g).any fun c => bit c.modew 2).foldl parkAll s)
/-- The table goes: nothing of it remains (R395, R398). -/
def dropTable (s : State) : State :=
  { s with agenda := s.agenda.filter fun e => !(frameEvent e.2.2) }.updChip fun h => { h with
    sstep := setBits h.sstep 32 1 0, sched := {} }
/-- RESYNC_BEACON (R208, R398): the beacon names tick tr. The superstep's first frame runs again from it, and
later frames and the START of waiting launches move with it. The third resynchronisation in a row ends every grid
of the schedule and discards the table; that of a halted peer does not count (R437). -/
def execResyncBeacon (tr : Nat) (s : State) : Out :=
  let q := s.chip.sched
  if !q.running ∨ q.resync.isSome then .next s
  else
    let s := logBeacon s 3 tr
    let n := if q.nocount then q.resyncs else q.resyncs + 1
    if 3 ≤ n then
      let gs := (s.fw.grids.filter fun g => (g.state == 2 || g.state == 3) &&
        ((s.cores.filter fun c => c.grid == some g.id).any (fun c => bit c.modew 2) ||
          (s.fw.ctxs.any fun x => x.grid == g.id && x.cores.any fun c => bit c.modew 2))).map (·.id)
      .next (dropTable (gs.foldl (fun s g => terminateGrid s g []) s))
    else
      let d := tr - q.ssStart
      let s := { s with agenda := s.agenda.filter fun e => !(frameEvent e.2.2) }
      let s := s.updChip fun h => { h with sched := { h.sched with
        resync := some tr, resyncs := n, faulted := true, nocount := false, next := h.sched.next.map fun x => (x.1 + d, x.2) } }
      let s := (s.chip.sched.next.map (·.1)).toList.foldl (fun s t => s.sched t (obj 0) .frameStart) s
      let s := { s with fw := { s.fw with grids := s.fw.grids.map fun (g : Grid) =>
        if g.state = 1 ∨ g.state = 0 then { g with start := g.start + d } else g } }
      .next ((s.sched s.tick (obj 0) .superstepReexecution).sched tr (obj q.ssFirst) .frameStart)

/-! ### Freezes (R436) -/

/-- FREEZE (R436): the beacon names the freeze tick. -/
def execFreeze (tick : Nat) (s : State) : Out :=
  if s.frozen.isSome then .next s
  else if s.tick < tick then .next ((logBeacon s 2 tick).sched tick s.cur (.freeze tick))
  else .next { s with frozen := some s.tick }
/-- FREEZE_RESUME (R436): every architected tick later than the freeze tick moves by the span. -/
def execFreezeResume (s : State) : Out :=
  match s.frozen with
  | none => .next s
  | some f => .next (mvState (logBeacon { s with frozen := none } 4 s.tick) f (s.tick - f))

/-! ### Time (R4, R452, R453, R455) -/

/-- TICK is loaded: what the chip has set for later ticks keeps its distance. -/
def loadTick (s : State) (t : Nat) : State :=
  { s with tick := t, agenda := s.agenda.map fun e => (e.1 - s.tick + t, e.2) }
/-- Note an alarm or an offset in the health record: kind and value. -/
def noteAlarm (s : State) (kind : Nat) (v : Int) : State :=
  { s with fw := { s.fw with alarms := s.fw.alarms ++ [(kind, v)] } }
def actOn (s : State) : Bool := bit s.chip.sstep 32
/-- SCHEDULE_BEACON (R453): a chip other than the time chip takes its TICK from the first beacon, while no table
runs, as the carried value plus the flight time; later ones are compared with its count. -/
def execScheduleBeacon (tick : Nat) (s : State) : Out :=
  if chipNo = 0 then .next s
  else
    let t := tick + (if groupOf chipNo = 0 then 160 else 640)
    let off : Int := (s.tick : Int) - t
    let near := decide (-4 ≤ off) && decide (off ≤ 4)
    if !s.fw.ptpLocked && !actOn s then
      let s := loadTick s t
      .next { s with fw := { s.fw with ptpLocked := true, locked := some t } }
    else
      let s := { s with fw := { s.fw with
        locked := if near then some (s.fw.locked.getD s.tick) else none } }
      .next (if !near && actOn s then noteAlarm s 2 off else s)
/-- PTP_TICK_LOAD (R452): at first lock, and while no table runs, the time chip loads TICK once. -/
def execPtpTickLoad (tick : Nat) (s : State) : Out :=
  if chipNo ≠ 0 ∨ s.fw.ptpLocked ∨ actOn s then .next s
  else
    let s := loadTick s tick
    .next { s with fw := { s.fw with ptpLocked := true, locked := some tick } }
/-- PTP_MESSAGE (R452): an offset above 4,000 ticks is recorded, and removed by steering. -/
def execPtpMessage (offset : Int) (s : State) : Out :=
  let s := { s with fw := { s.fw with offset := offset } }
  .next (if 4000 < offset ∨ offset < -4000 then noteAlarm s 1 offset else s)
/-- REGULATOR_ALARM (R455): recorded; no operating point changes. -/
def execRegulatorAlarm (cause : Nat) (s : State) : Out :=
  .next (noteAlarm s 3 cause)

end Sys2Proof.Machine
end

