-- ==== Sys2Proof/Machine/Preempt.lean ====
section
/-!
DEFINITION. Queues as the host sees them and as firmware switches them, pre-emption, and the restore of a saved
context (R207, R378 to R382, R390 to R392, R416 to R419).
-/
namespace Sys2Proof.Machine

/-! ### Notifies and residency (R378 to R382) -/

/-- What a NOTIFY of w does to an offered end e, measured from the read index: none is an index error (R379). -/
def offerEnd (rlog2 ridx e w : Nat) : Option Nat :=
  let d := fun x => (x + 2 ^ 32 - ridx) % 2 ^ 32
  if 2 ^ rlog2 < d w then none
  else if d e ≤ d w then some w
  else some e
/-- The PROGRESS register of a queue (R378, R380). -/
def UQueue.progressWord (q : UQueue) : DWord :=
  if q.resident then BitVec.ofNat 64 (q.ridx % 2 ^ 32 + q.lstat % 2 ^ 8 * 2 ^ 32 + q.qstate % 8 * 2 ^ 40 + 2 ^ 63)
  else q.progress
/-- The grids of a domain are pre-empted, and none of them runs (R382). -/
def domParked (s : State) (dom : Nat) : Bool :=
  s.fw.grids.any (fun g => g.dom == dom && g.state == 3) && !(s.fw.grids.any fun g => g.dom == dom && g.held)
/-- NOTIFY_WRITE (R379, R381): the host writes NOTIFY of queue cur.n. -/
def execNotifyWrite (v : DWord) (s : State) : Out :=
  let w := bits v 0 32
  match s.queue s.cur.n with
  | none => .next s
  | some q =>
    if q.qstate = 4 then .next s
    else match q.shadow with
      | some e =>
        if q.resident ∨ 2 ^ 32 ≤ e then .next s
        else
          let e' := (offerEnd q.rlog2 q.ridx e w).getD (2 ^ 32)
          .next ((s.updQueue q.id fun q => { q with shadow := some e' }).sched s.tick (obj 0) .queueSwitchIn)
      | none =>
        match offerEnd q.rlog2 q.ridx q.offered w with
        | none => .next (s.updQueue q.id fun q => { q with qstate := 4 })
        | some e =>
          let s := s.updQueue q.id fun q => { q with offered := e }
          .next (if e = q.offered then s else kickQueue s q.id)
/-- Whether a queue may be switched out: idle, or busy with every grid of its own pre-empted (R381). -/
def mayGo (s : State) (q : UQueue) : Bool :=
  q.resident && (q.qstate == 1 || (q.qstate == 2 &&
    s.fw.grids.all fun g => g.queue != some q.id || g.retired || g.state == 3))
/-- Switch a queue out: PROGRESS is committed, and the offered end becomes its shadow. -/
def switchOut (s : State) (q : Nat) : State :=
  let s := { s with agenda := s.agenda.filter fun e => !(e.2.1 == obj q && e.2.2 == Instr.packetHeaderRead) }
  s.updQueue q fun q => { q with
    qstate := 3, resident := false, shadow := some q.offered
    progress := BitVec.ofNat 64 (q.ridx % 2 ^ 32 + q.lstat % 2 ^ 8 * 2 ^ 32 + 3 * 2 ^ 40) }
/-- QUEUE_SWITCH_OUT (R381, R382): queue cur.n. -/
def execQueueSwitchOut (s : State) : Out :=
  match s.queue s.cur.n with
  | none => .next s
  | some q => .next (if mayGo s q then switchOut s q.id else s)
/-- Switch a queue in: its shadow is applied (R379). -/
def switchIn (s : State) (q : UQueue) : State :=
  let busy := s.fw.grids.any fun g => g.queue == some q.id && !g.retired
  let bad := q.shadow == some (2 ^ 32)
  let s := s.updQueue q.id fun q => { q with
    resident := true, shadow := none
    offered := if bad then q.offered else q.shadow.getD q.offered
    qstate := if bad then 4 else if busy then 2 else 1 }
  kickQueue s q.id
/-- Rank of a queue: by priority, function and number. -/
def qRank (s : State) (q : UQueue) : Nat := (15 - min 15 (effPrio s q.dom)) * 2 ^ 20 + q.id
def resident (s : State) : List UQueue := s.fw.queues.filter (·.resident)
/-- Give a non-resident queue a place, switching out the idle queue of least rank if there is none (R382). -/
def placeQueue (s : State) (q : UQueue) : State :=
  if (resident s).length < 64 then switchIn s q
  else match sortBy (fun a b => decide (qRank s b ≤ qRank s a)) ((resident s).filter fun x => x.qstate == 1) with
    | v :: _ => switchIn (switchOut s v.id) q
    | [] => s
/-- Queues that a notify latched since their switch-out calls in (R382). -/
def wanting (s : State) : List UQueue :=
  sortBy (fun a b => decide (qRank s a ≤ qRank s b))
    (s.fw.queues.filter fun q => !q.resident && q.qstate == 3 && q.shadow != some q.offered && !(domParked s q.dom))
/-- QUEUE_SWITCH_IN (R382): the first queue in order that a latched notify calls in. -/
def execQueueSwitchIn (s : State) : Out :=
  match wanting s with
  | [] => .next s
  | q :: rest =>
    let s' := placeQueue s q
    let moved := match s'.queue q.id with | some x => x.resident | none => false
    .next (if moved && !rest.isEmpty then s'.sched s.tick (obj 0) .queueSwitchIn else s')

/-! ### Saving a grid (R207, R391, R416 to R418) -/

/-- Blocking points whose wait firmware or the core itself will end soon: the save comes after them. -/
def servedWait : Wait → Bool
  | .block i .wait .. => match i with
    | .sys .. | .oalloc .. | .ofree .. | .glaunch .. | .ld .. | .cwait .. => true
    | _ => false
  | .fault => true
  | _ => false
/-- An issuer at a blocking point, ended, stopped, or stopped by a discard (R207). -/
def atStop (i : Issuer) : Bool :=
  match i.wait with
  | .block .. | .ended | .stopped => true
  | .run => i.redo.isSome
  | _ => false
/-- Note the issuers of a core that have come to a stop; the streams stop after the last of them. -/
def parkCore (c : Core) : Core :=
  let p := (c.parked ++ (c.issuers.filter atStop).map (·.slot)).eraseDups
  { c with parked := if c.issuers.all (fun i => p.contains i.slot) then (p ++ [17]).eraseDups else p }
/-- Whether a core can be saved: everything stands, and the engines have ended their work. -/
def saveReady (s : State) (c : Core) : Bool :=
  c.parked.contains 17 && !(engineBusy s c) &&
    c.issuers.all fun i => !(servedWait i.wait) &&
      i.pend.all fun p => decide (p.vis ≤ s.tick) || i.regions.any fun r => r.num == p.rnum
/-- A wait for a fill is begun again at the restore. -/
def rewait (i : Issuer) : Issuer :=
  match i.wait with
  | .block j .wait ls vs t pc => match j with
    | .wtouch .. | .hwait .. => { i with wait := .block j .commit ls vs t pc }
    | _ => i
  | _ => i
/-- The capacity vector of a core (R418). -/
def capVec (c : Core) : DWord :=
  let phs := c.issuers.foldl (fun m i => max m i.phs.length) 0
  BitVec.ofNat 64 (c.bpc * c.wpb + c.nreg / 16 * 2 ^ 5 + c.bpc * 2 ^ 11 + phs * 2 ^ 14 + 2048 * 2 ^ 19 + 64 * 2 ^ 31 +
    bits c.partw 30 2 * 2 ^ 38 + c.acc * 2 ^ 40 + c.scb * 2 ^ 45)
/-- What a core is saved as. -/
def saved (c : Core) : Core :=
  let ws : List (Nat × Win) := c.wins.map fun w => (w.1, if w.2.state = .filling ∧ w.2.hfs then w.2.resetFill else w.2)
  { c with
    active := false, inTurn := false, parked := [], fills := [], banks := [], halt := false
    wins := ws, issuers := c.issuers.map rewait }
/-- The key of a byte of a core's scratchpad. -/
def inSp (cl co k : Nat) : Bool := decide (keySp cl co 0 ≤ k) && decide (k < keySp cl co 0 + 2 ^ 24)
/-- The context of a grid as it stands on this chip (R417). -/
def contextOf (s : State) (g : Grid) : SavedCtx :=
  let own := ownCores s g
  let mine := fun e : Nat × Iss × Instr => own.any fun c => ofCore c.cl c.co e
  { grid := g.id, cores := own.map saved, caps := own.map capVec
    auto_ := match g.preq with | some p => decide (p < 2 ^ 40) | none => false
    mem := s.mem.filter fun e => own.any fun c => inSp c.cl c.co e.1
    agenda := s.agenda.filter fun e => mine e && (match e.2.2 with | .windowLanding _ => false | _ => true)
    phasers := s.chip.phasers.filter fun p => decide (g.phBase ≤ p.1) && decide (p.1 < g.phBase + g.phCnt)
    at_ := s.tick }
/-- Take a saved grid off its cores. -/
def clearGrid (s : State) (g : Grid) : State :=
  let own := ownCores s g
  let s : State := { s with
    mem := s.mem.filter fun e => !(own.any fun c => inSp c.cl c.co e.1)
    agenda := s.agenda.filter fun e => !(own.any fun c => ofCore c.cl c.co e)
    cores := s.cores.filter fun c => c.grid != some g.id }
  s.updChip fun h => { h with
    reqs := h.reqs.filter fun q => !(own.any fun c => c.cl == q.w.cl && c.co == q.w.co)
    phasers := h.phasers.filter fun p => !(decide (g.phBase ≤ p.1) && decide (p.1 < g.phBase + g.phCnt)) }
/-- Discard every uncommitted region of a grid, as soon as all its issuers stand (R207). -/
def discardGrid (s : State) (g : Grid) : State :=
  (ownCores s g).foldl (fun s c => c.issuers.foldl (fun s i => discardAll s ⟨c.cl, c.co, i.slot⟩ false) s) s
/-- Save a grid: its uncommitted regions are discarded, its context is kept, and its domain's queues are switched
out when no grid of the domain runs any more. -/
def saveGrid (s : State) (g : Grid) : State :=
  let s := discardGrid s g
  let x := contextOf s g
  let s := clearGrid s g
  let s := { s with fw := { s.fw with ctxs := s.fw.ctxs ++ [x] } }.updGrid g.id fun g => { g with state := 3 }
  if domParked s g.dom then
    (s.fw.queues.filter fun q => q.dom == g.dom).foldl (fun s q => s.sched s.tick (obj q.id) .queueSwitchOut) s
  else s
/-- PREEMPTION (R207, R391): firmware looks at grid cur.n, whose pre-emption was asked for, in every tick. A grid
of the schedule is stopped at a superstep boundary. -/
def execPreemption (s : State) : Out :=
  match s.grid s.cur.n with
  | none => .next s
  | some g =>
    if g.preq.isNone then .next s
    else if g.state = 1 ∨ g.state = 0 then
      if g.state = 1 ∧ g.kind = 1 then .next (saveGrid s g) else .next (s.sched (s.tick + 1) s.cur .preemption)
    else if g.state ≠ 2 then .next s
    else
      let own := ownCores s g
      if own.any fun c => bit c.modew 2 && !(c.parked.contains 17) then .next s
      else
        let s := own.foldl (fun s c => s.setCore (parkCore c)) s
        let s := if (ownCores s g).all fun c => c.parked.contains 17 then discardGrid s g else s
        if (ownCores s g).all (saveReady s) then .next (saveGrid s g) else .next (s.sched (s.tick + 1) s.cur .preemption)
/-- PREEMPTION_REQUEST_WITHDRAWN (R388, R390): launch cur.n: when a grid it pre-empts is not saved on every chip,
the request goes and the launch is refused with RSTAT 2. Whether other chips have saved is a free value. -/
def execPreemptionRequestWithdrawn (s : State) : Out :=
  match s.grid s.cur.n with
  | none => .next s
  | some g =>
    let hs := s.fw.grids.filter fun h => h.preq == some g.id
    let (f, s) := if hs.any (·.remote) then s.free 1 else (0, s)
    if g.state = 1 ∧ (f = 1 ∨ hs.any fun h => h.state != 3) then .next (refused s g 2) else .next s

/-! ### Restore (R392, R417 to R419) -/

/-- The vector that a core offers: what the hardware has; nothing where the core is unmapped (R419). -/
def offered (s : State) (g : Grid) (c : Core) : List Nat :=
  if unmapped s c.cl c.co then List.replicate 9 0
  else [16, 32, 4, 16, if g.rind ≤ rindFree s g.dom g.id then 2048 else 0, 64, 2, 24, 160]
/-- The fields of a capacity vector, by position. -/
def capFields (v : DWord) : List Nat :=
  [bits v 0 5, bits v 5 6, bits v 11 3, bits v 14 5, bits v 19 12, bits v 31 7, bits v 38 2, bits v 40 5, bits v 45 8]
/-- Position, from 1, of the first field of a saved vector that exceeds the offered one. -/
def shortField (s : State) (g : Grid) (x : SavedCtx) : Option Nat :=
  (x.cores.zip x.caps).findSome? fun (c, v) =>
    (((capFields v).zip (offered s g c)).findIdx? fun p => decide (p.2 < p.1)).map (· + 1)
/-- Whether the cores of a saved grid are free (R392). -/
def coresFree (s : State) (g : Grid) : Bool := (clashes s g).isEmpty
/-- The tick at which a grid would resume: at a superstep boundary when it takes part in supersteps, at a frame
start when it had not started, else at one of firmware's choice (R392). -/
def resumeTick (s : State) (g : Grid) (x : SavedCtx) (f : Nat) : Option Nat :=
  let t := s.tick + 8000
  if x.cores.isEmpty ∧ !g.cores.isEmpty then
    ((framesAhead s).find? fun a => decide (t ≤ a.1) && (fillsOf a.2.1 a.2.2).any fun e => bits e 0 12 == g.gsid).map (·.1)
  else if x.cores.any fun c => bit c.modew 2 then
    (framesAhead s).findSome? fun a =>
      let b := a.1 + frameLen a.2.1 a.2.2
      if fSsb a.2.1 a.2.2 ∧ t ≤ b then some b else none
  else some (t + f)
/-- Decide on the restore of a saved grid: the reason of a refusal, or the state in which it will resume; none
where no tick offers itself. -/
def restore (s : State) (g : Grid) (x : SavedCtx) : Option (Except Nat State) :=
  match shortField s g x with
  | some k => some (.error k)
  | none =>
    let (f, s) := s.free 4000
    match resumeTick s g x f with
    | none => none
    | some t => some (.ok ((s.updGrid g.id fun g => { g with state := 7, preq := none }).sched t (obj g.id) .restoredGridResume))
/-- AUTOMATIC_RESTORE (R392): contexts that a launch had displaced, in order of priority, while their cores are
free. -/
def execAutomaticRestore (s : State) : Out :=
  let xs := sortBy (fun (a b : Grid × SavedCtx) => decide (effPrio s b.1.dom ≤ effPrio s a.1.dom))
    (s.fw.ctxs.filterMap fun x => if x.auto_ then (s.grid x.grid).map fun g => (g, x) else none)
  .next (xs.foldl (fun s p =>
    if p.1.state ≠ 3 ∨ !(coresFree s p.1) then s
    else match restore s p.1 p.2 with
      | some (.ok s) => s
      | some (.error _) => { s with fw := { s.fw with ctxs := s.fw.ctxs.map fun x =>
          if x.grid = p.1.id then { x with auto_ := false } else x } }
      | none => s) s)
/-- Put a saved context back: its cores with their ticks moved, scratchpads, phasers and pending happenings. -/
def install (s : State) (x : SavedCtx) (t : Nat) : State :=
  let d := t - x.at_
  let f := x.at_ - 1
  let s := x.cores.foldl (fun s c => s.setCore { mvCore f d c with
    active := c.issuers.any (fun i => i.wait != .ended), rotAt := max t (mv f d c.rotAt) }) s
  let s := x.mem.foldl (fun s e => s.setByte e.1 e.2) s
  let s : State := { s with agenda := s.agenda ++ x.agenda.map fun e => (mv f d e.1, e.2) }
  let s := s.updChip fun h => { h with phasers := h.phasers ++ x.phasers.map fun p => (p.1, mvPhaser f d p.2) }
  x.cores.foldl (fun s c => kickStreams (kickEngines (c.issuers.foldl (fun s i =>
    if i.regions.isEmpty then startWait s ⟨c.cl, c.co, i.slot⟩ else s) s) c.cl c.co) c.cl c.co) s
/-- RESTORED_GRID_RESUME (R392): grid cur.n resumes at its saved points, and its domain's queues switch back in. -/
def execRestoredGridResume (s : State) : Out :=
  match s.grid s.cur.n, s.fw.ctxs.find? fun x => x.grid == s.cur.n with
  | some g, some x =>
    if g.state ≠ 7 then .next s
    else
      let s := { s with fw := { s.fw with ctxs := s.fw.ctxs.filter fun x => x.grid != g.id } }
      let s : State := if x.cores.isEmpty ∧ !g.cores.isEmpty then
          (s.updGrid g.id fun g => { g with state := 1, start := s.tick }).sched s.tick (obj g.id) .gridStart
        else (install s x s.tick).updGrid g.id fun g => { g with state := 2 }
      .next ((s.fw.queues.filter fun q => q.dom == g.dom && q.qstate == 3).foldl placeQueue s)
  | _, _ => .next s

end Sys2Proof.Machine
end

