-- ==== Sys2Proof/Machine/Firmware.lean ====
section
/-!
DEFINITION. The service firmware's command set: domains, queues, grids, Sloe slots and page tables (R374 to R376,
R392, R485).
-/
namespace Sys2Proof

/-- An argument dword of a command, and whether it comes from the PF, or from any host function (R374). -/
def Cmd.arg (c : Cmd) (k : Nat) : DWord := (c.args[k]?).getD 0
def Cmd.pf (c : Cmd) : Bool := c.src == .mbox 0
def Cmd.host (c : Cmd) : Bool := match c.src with | .mbox _ => true | .sys _ => false

end Sys2Proof

namespace Sys2Proof.Machine

/-! ### Commands (R374, R450, R456) -/

/-- A result word (R374). -/
def resW (status reason value : Nat) : DWord := BitVec.ofNat 64 (status + reason * 2 ^ 8 + value * 2 ^ 16)
/-- Outcome of a command: its result and the state. -/
abbrev Res := DWord × State
def refuseCmd (s : State) (status : Nat) (reason : Nat := 0) : Res := (resW status reason 0, s)
def doneCmd (s : State) (value : Nat := 0) : Res := (resW 0 0 value, s)
def State.mbox (s : State) (fn : Nat) : MBox :=
  match s.fw.mbox.find? fun m => m.fn == fn with | some m => m | none => { fn := fn }
def mboxSet : List MBox → MBox → List MBox
  | [], m => [m]
  | a :: t, m => if a.fn = m.fn then m :: t else a :: mboxSet t m
def State.setMbox (s : State) (m : MBox) : State := { s with fw := { s.fw with mbox := mboxSet s.fw.mbox m } }
/-- A command's result reaches its submitter (R374, R450), and firmware takes up the next command. -/
def endCmd (s : State) (id : Nat) (r : DWord) : State :=
  match s.fw.cmds.find? fun e => e.1 == id with
  | none => s
  | some (_, c) =>
    let s := { s with fw := { s.fw with cmds := s.fw.cmds.filter fun e => e.1 != id } }
    let s := match c.src with
      | .mbox fn =>
        let s := s.setMbox { s.mbox fn with res := [r], busy := false }
        { s with fw := { s.fw with msix := s.fw.msix ++ [(fn, 64)] } }
      | .sys w =>
        match (s.iss w).wait with
        | .block (.sys m n rd) .wait lanes _ _ pc => completeBlock s w (.sys m n rd) lanes pc r
        | _ => s
    match s.fw.cmds with
    | [] => s
    | (k, c) :: _ =>
      let (d, s) := s.free 4000
      s.sched (s.tick + d) (obj k) (cmdInstr c.code)
/-- What boot leaves of the command set (R456, R457): the result of a command that it does not perform. -/
def bootGate (s : State) (c : Cmd) : Option DWord :=
  if !c.host || s.fw.boot = 6 then none
  else if s.fw.boot < 3 then some (resW 5 0 0)
  else if c.code = 0x70 ∨ c.code = 0x74 then none
  else if s.fw.boot = 3 then some (resW 1 0x10 0)
  else some (resW 5 0 0)
/-- Perform command cur.n. -/
def withCmd (s : State) (k : Cmd → State → Res) : Out :=
  match s.fw.cmds.find? fun e => e.1 == s.cur.n with
  | none => .next s
  | some (id, c) =>
    match bootGate s c with
    | some r => .next (endCmd s id r)
    | none =>
      let (r, s) := k c s
      .next (endCmd s id r)
/-- Perform command cur.n, which writes entries of a tenant's tables: its result is given once the invalidation of what it
wrote, tenant, virtual address and bytes, has completed (R32). -/
def withPages (s : State) (k : Cmd → State → Res × Option (Nat × Nat × Nat)) : Out :=
  match s.fw.cmds.find? fun e => e.1 == s.cur.n, s.fw.cmdRes with
  | none, _ => .next s
  | some (id, _), some r => .next (endCmd { s with fw := { s.fw with cmdRes := none } } id r)
  | some (id, c), none =>
    match bootGate s c with
    | some r => .next (endCmd s id r)
    | none =>
      match k c s with
      | ((r, s), none) => .next (endCmd s id r)
      | ((r, s), some (tenant, va, n)) =>
        .next (invalidateVa { s with fw := { s.fw with cmdRes := some r } } none [(s.cur, cmdInstr c.code)] tenant va n)
/-- UNKNOWN_COMMAND (R374, R438, R459): every bit of the result is set. -/
def execUnknownCommand (s : State) : Out := withCmd s fun _ s => (BitVec.allOnes 64, s)

/-! ### Who may do what (R374, R375, R438) -/

/-- A function's root domain: the root for the PF, else the first domain of its tenant. -/
def fnRoot (s : State) (fn : Nat) : Option Nat :=
  if fn = 0 then some 0 else (s.fw.doms.find? fun d => d.tenant == fn).map (·.id)
/-- The domain that a command comes from. -/
def cmdDom (s : State) (c : Cmd) : Option Nat :=
  match c.src with
  | .mbox fn => fnRoot s fn
  | .sys w => domOfCore s w.cl w.co
def cmdTenant (s : State) (c : Cmd) : Nat :=
  match c.src with
  | .mbox fn => fn
  | .sys w => (s.coreOf w).tenant
/-- The PF may name any domain, another caller one of its own subtree. -/
def mayDom (s : State) (c : Cmd) (d : Nat) : Bool :=
  c.pf || (match cmdDom s c with | some r => s.inSubtree r d | none => false)
/-- The domain that an address of a control block names; 0 stands for the caller's own. -/
def domAt (s : State) (c : Cmd) (a : DWord) : Option Nat :=
  if a = 0 then cmdDom s c else (s.fw.doms.find? fun d => dcbAddr d.id == a.toNat).map (·.id)

/-! ### Domains (R375, R376) -/

/-- An image of a control block that firmware accepts. -/
def dcbImageOk (im : List DWord) : Bool :=
  let f := fun k lo n => bits (nth im k 0) lo n
  f 0 2 2 != 3 && (decide (f 0 4 5 < 16) || f 0 4 5 == 31) && f 0 20 44 == 0 && f 1 0 6 == 0 && f 1 52 12 == 0 &&
    f 6 32 32 == 0 && f 7 24 3 == 0 && f 7 51 13 == 0
/-- A dword of an image with its use counter zero. -/
def noUse (im : List DWord) (l : Lim) : DWord := setBits (nth im l.dword 0) l.w l.w 0
/-- DOMNEW: dwords 0 to 7 of the block; dword 1 names the parent. -/
def execDomnew (s : State) : Out := withCmd s fun c s =>
  match domAt s c (c.arg 1) with
  | none => refuseCmd s 2
  | some p =>
    if !mayDom s c p then refuseCmd s 1
    else if !dcbImageOk c.args then refuseCmd s 2
    else
      let id := s.fw.nextDom
      let pd := (s.dom p).getD ⟨0, none, [], [], false, false⟩
      let tn := if c.pf && pd.tenant == 0 then bits (c.arg 0) 13 6 else pd.tenant
      let d0 := setBits (setBits (setBits (c.arg 0) 0 1 1) 13 6 tn) 19 1 0
      let dws := [d0, BitVec.ofNat 64 (dcbAddr p), noUse c.args .cores, noUse c.args .pool, noUse c.args .orch,
        noUse c.args .sloe, noUse c.args .queues, c.arg 7, nth pd.dw 8 0]
      let (_, s) := rootOf s tn
      let s := { s with fw := { s.fw with
        nextDom := id + 1, doms := s.fw.doms ++ [⟨id, some p, dws, [], false, false⟩] } }
      doneCmd (writeDcb s id) (dcbAddr id / 64)
/-- Whether a domain still has something (R374). -/
def domInUse (s : State) (d : Nat) : Bool :=
  s.fw.doms.any (fun x => x.parent == some d) || s.fw.queues.any (fun q => q.dom == d) ||
    s.fw.grids.any (fun g => g.dom == d && !g.retired) || s.chip.slots.any (fun x => x.2.dom == d && bit (x.2.d 0) 0) ||
    s.fw.allocs.any fun a => a.dom == d
/-- DOMDEL: dword 0 names the domain, which is not the caller's own. -/
def execDomdel (s : State) : Out := withCmd s fun c s =>
  match domAt s c (c.arg 0) with
  | none => refuseCmd s 2
  | some d =>
    if !mayDom s c d || (cmdDom s c == some d) then refuseCmd s 1
    else if domInUse s d then refuseCmd s 5
    else
      let s := fwStore s (dcbAddr d) (List.replicate 128 0)
      doneCmd { s with fw := { s.fw with doms := s.fw.doms.filter fun x => x.id != d } }
/-- DOMSET: dword 1 names the domain; FD, HALT, PRIO, RLIM of dword 0 and the limits of dwords 2 to 6. -/
def execDomset (s : State) : Out := withCmd s fun c s =>
  match domAt s c (c.arg 1) with
  | none => refuseCmd s 2
  | some d =>
    let lims : List Lim := [.cores, .pool, .orch, .sloe, .queues]
    let x := (s.dom d).getD ⟨0, none, [], [], false, false⟩
    if !mayDom s c d || (cmdDom s c == some d) then refuseCmd s 1
    else if !dcbImageOk c.args then refuseCmd s 2
    else if lims.any fun l => decide (bits (c.arg l.dword) 0 l.w < x.use l) then refuseCmd s 3
    else
      let d0 := setBits (nth x.dw 0 0) 1 12 (bits (c.arg 0) 1 12)
      let dw := lims.foldl (fun dw l => setNth 0 dw l.dword (setBits (nth dw l.dword 0) 0 l.w (bits (c.arg l.dword) 0 l.w)))
        (setNth 0 x.dw 0 d0)
      doneCmd (writeDcb (s.updDom d fun x => { x with dw := dw }) d)

/-! ### Queues (R377, R382) -/

/-- QNEW: ring base, RLOG2, domain (0 for the function's own). -/
def execQnew (s : State) : Out := withCmd s fun c s =>
  match c.src, domAt s c (c.arg 2) with
  | .sys _, _ => refuseCmd s 1
  | .mbox _, none => refuseCmd s 2
  | .mbox fn, some d =>
    let sp := spaceOf (c.arg 0)
    let free := (List.range 64).find? fun k => (s.queue (fn * 64 + k)).isNone
    if !mayDom s c d then refuseCmd s 1
    else if (sp ≠ 0 ∧ sp ≠ 3) ∨ (c.arg 0).toNat % 64 ≠ 0 ∨ (c.arg 1).toNat < 4 ∨ 16 < (c.arg 1).toNat then refuseCmd s 2
    else match free, charge s d .queues 1 with
      | some k, some s =>
        let res := decide ((resident s).length < 64)
        let q : UQueue := {
          id := fn * 64 + k, dom := d, ring := c.arg 0, rlog2 := (c.arg 1).toNat, ridx := 0, offered := 0, lstat := 0
          qstate := if res then 1 else 3, progress := BitVec.ofNat 64 (3 * 2 ^ 40), resident := res
          shadow := if res then none else some 0, next := 0 }
        doneCmd { s with fw := { s.fw with queues := s.fw.queues ++ [q] } } k
      | _, _ => refuseCmd s 3
/-- QDEL: dword 0 names a queue of the function, which is idle or in error. -/
def execQdel (s : State) : Out := withCmd s fun c s =>
  match c.src with
  | .sys _ => refuseCmd s 1
  | .mbox fn =>
    if 64 ≤ (c.arg 0).toNat then refuseCmd s 2
    else match s.queue (fn * 64 + (c.arg 0).toNat) with
      | none => refuseCmd s 2
      | some q =>
        if q.qstate ≠ 1 ∧ q.qstate ≠ 4 then refuseCmd s 5
        else doneCmd { refund s q.dom .queues 1 with
          fw := { (refund s q.dom .queues 1).fw with queues := s.fw.queues.filter fun x => x.id != q.id } }

/-! ### Grids (R389 to R392) -/

/-- The grid that a launch identifier names, if the caller may name it. -/
def gridNamed (s : State) (c : Cmd) (p : Grid → Bool) : Option Grid :=
  s.fw.grids.find? fun g => g.launch == (c.arg 0).toNat && g.kind == 1 && !g.retired && p g
/-- GPREEMPT: the grid is saved as for a launch, and waits for GRESUME. -/
def execGpreempt (s : State) : Out := withCmd s fun c s =>
  match gridNamed s c fun g => g.state == 1 || g.state == 2 with
  | none => refuseCmd s 2
  | some g =>
    if !mayDom s c g.dom then refuseCmd s 1
    else if 8192 < imagesUsed s + g.cores.length then refuseCmd s 3
    else doneCmd (askPreempt s g.id (2 ^ 40 + s.cur.n))
/-- GRESUME (R392, R419): refused with the position of a field that the target lacks. -/
def execGresume (s : State) : Out := withCmd s fun c s =>
  match gridNamed s c fun g => g.state == 3 with
  | none => refuseCmd s 2
  | some g =>
    if !mayDom s c g.dom then refuseCmd s 1
    else if !(coresFree s g) then refuseCmd s 5
    else match s.fw.ctxs.find? fun x => x.grid == g.id with
      | none => refuseCmd s 2
      | some x =>
        match restore s g x with
        | some (.ok s) => doneCmd s
        | some (.error k) => refuseCmd s 3 k
        | none => refuseCmd s 5
/-- GKILL: the grid ends with RSTAT 10; what a halt withheld is released. -/
def execGkill (s : State) : Out := withCmd s fun c s =>
  match gridNamed s c fun _ => true with
  | none => refuseCmd s 2
  | some g =>
    if !mayDom s c g.dom then refuseCmd s 1
    else doneCmd (endGrid (s.updGrid g.id fun g => { g with halted := false }) g.id 10 [])

/-! ### Sloe slots (R354, R355, R362) -/

/-- SLOENEW: dword 0 names the domain; a free slot becomes its own (log 13). -/
def execSloenew (s : State) : Out := withCmd s fun c s =>
  match domAt s c (c.arg 0) with
  | none => refuseCmd s 2
  | some d =>
    if !mayDom s c d then refuseCmd s 1
    else
      let all := (List.range 65536).filter fun n => !bit ((s.slot n).d 0) 0
      let free := all[Config.place (s.chip.slots.map fun p => (p.1, 1)) all.length % all.length]?
      match free, charge s d .sloe 1 with
      | some n, some s => doneCmd (s.setSlot n { dw := [(0, BitVec.ofNat 64 (1 + domTenant s d * 4))], dom := d }) n
      | _, _ => refuseCmd s 3
/-- SLOEDEL: dword 0 names the slot. -/
def execSloedel (s : State) : Out := withCmd s fun c s =>
  let n := (c.arg 0).toNat
  let x := s.slot n
  if 65536 ≤ n ∨ !bit (x.d 0) 0 then refuseCmd s 2
  else if !mayDom s c x.dom then refuseCmd s 1
  else doneCmd ((refund s x.dom .sloe 1).updChip fun h => { h with slots := assocDel h.slots n })

/-! ### Page tables (R16, R32, R374, R485) -/

/-- A deferred entry: not valid, and not zero. Firmware keeps beside it what its frame will be filled from. -/
def deferWord (p : DWord) : DWord := setBits p 0 2 2
/-- Note the copy sources of n deferred entries from a virtual address on, one page of the level each. -/
def noteDeferred (s : State) (tenant level va src : Nat) : Nat → State
  | 0 => s
  | n + 1 =>
    let (r, s) := rootOf s tenant
    let s := match entryAt s r level va 3 0 with
      | (some pa, s) => { s with fw := { s.fw with deferred := assocSet s.fw.deferred pa src } }
      | (none, s) => s
    let sz := 2 ^ levelShift level
    noteDeferred s tenant level (va + sz) (if src = 0 then 0 else src + sz) n
/-- Write leaves: n of a level from va on, valid or deferred; what is to be invalidated then. -/
def mapRange (s : State) (tenant level va n : Nat) (p : DWord) (src : Nat) : Res × Option (Nat × Nat × Nat) :=
  let leaf := setBits (setBits p 1 1 1) 9 6 tenant
  let (ok, s) := writeEntries s tenant level va (if bit p 0 then leaf else deferWord leaf) true n
  let s := if bit p 0 then s else noteDeferred s tenant level va src n
  (if ok then doneCmd s else refuseCmd s 2, some (tenant, va, n * 2 ^ levelShift level))
/-- PTMAP: virtual address, first leaf word (V = 0 for deferred entries), count, level, copy source of deferred
entries (0 for zeros). -/
def execPtmap (s : State) : Out := withPages s fun c s =>
  let lv := (c.arg 3).toNat
  let va := (c.arg 0).toNat
  let n := (c.arg 2).toNat
  if !c.host then (refuseCmd s 1, none)
  else if 2 < lv ∨ va % 2 ^ levelShift lv ≠ 0 ∨ n = 0 ∨ 2 ^ 51 < va + n * 2 ^ levelShift lv ∨
      !leafOk lv (setBits (setBits (c.arg 1) 0 2 3) 9 6 (cmdTenant s c)) then (refuseCmd s 2, none)
  else mapRange s (cmdTenant s c) lv va n (c.arg 1) (c.arg 4).toNat
/-- PTUNMAP: virtual address, count, level. -/
def execPtunmap (s : State) : Out := withPages s fun c s =>
  let lv := (c.arg 2).toNat
  let va := (c.arg 0).toNat
  let n := (c.arg 1).toNat
  if !c.host then (refuseCmd s 1, none)
  else if 2 < lv ∨ va % 2 ^ levelShift lv ≠ 0 ∨ n = 0 ∨ 2 ^ 51 < va + n * 2 ^ levelShift lv then (refuseCmd s 2, none)
  else
    let (ok, s) := writeEntries s (cmdTenant s c) lv va 0 false n
    (if ok then doneCmd s else refuseCmd s 2, some (cmdTenant s c, va, n * 2 ^ levelShift lv))
/-- KVBIND: slot, base and length of a range of pages, frame base, and copy source: the range's entries become
deferred, and the range belongs to the slot. -/
def execKvbind (s : State) : Out := withPages s fun c s =>
  let n := (c.arg 0).toNat
  let x := s.slot n
  let va := (c.arg 1).toNat
  let len := (c.arg 2).toNat
  if 65536 ≤ n ∨ !bit (x.d 0) 0 then (refuseCmd s 2, none)
  else if !mayDom s c x.dom then (refuseCmd s 1, none)
  else if va % 2 ^ 15 ≠ 0 ∨ len = 0 ∨ len % 2 ^ 15 ≠ 0 ∨ 2 ^ 51 < va + len ∨
      !leafOk 2 (setBits (c.arg 3) 0 15 0xF) then (refuseCmd s 2, none)
  else
    let ((r, s), inv) := mapRange s (domTenant s x.dom) 2 va (len / 2 ^ 15) (setBits (c.arg 3) 0 15 0xE) (c.arg 4).toNat
    (if r = 0 then doneCmd (s.setSlot n { s.slot n with kv := x.kv ++ [(c.arg 1, len)] }) else (r, s), inv)
/-- The newest logged page fault of an issuer: its address. -/
def faultVa (s : State) (w : Iss) : Option Nat :=
  (s.fw.logs.reverse.find? fun r => bits (nth r 0 0) 0 8 == 4 && bits (nth r 0 0) 26 5 == w.n &&
    bits (nth r 1 0) 32 6 == w.co && bits (nth r 1 0) 38 6 == w.cl).map fun r => bits (nth r 4 0) 0 51
/-- Fill a deferred entry's frame of n pages of 32 KiB (R485): each page is copied from its place in the copy source, which is
translated by itself. A page whose source no longer translates is filled with zeros, which no rule states (DESIGN CHOICE,
log 35). -/
def fillFrame (s : State) (tenant key src : Nat) (n : Nat) : State :=
  (List.range n).foldl (fun s k =>
    match fwTrans s tenant .load (BitVec.ofNat 64 (src + k * 2 ^ 15)) with
    | some from_ => copyRange s from_ (key + k * 2 ^ 15) (2 ^ 15)
    | none => clearRange s (key + k * 2 ^ 15) (2 ^ 15)) s
/-- DEFERRED_ENTRY_RESOLVE (R32, R33, R485): firmware gives the deferred entry that issuer cur met its frame, zeroed or
filled as the command asked, makes it valid and invalidates; once that has completed, the issuer re-enters. -/
def execDeferredEntryResolve (s : State) : Out :=
  let w := s.cur
  let c := s.coreOf w
  if (s.iss w).wait ≠ .fault then .next s
  else match faultVa s w with
    | none => .next s
    | some va =>
      match deferredAt s c.ptbase va with
      | none => .next (s.updIss w fun me => { me with wait := .run, nextAt := max me.nextAt s.tick })
      | some (lv, pa, p) =>
        let sz := 2 ^ levelShift lv
        let key := memKey (leafSpace p) (frame p)
        let src := (assoc s.fw.deferred pa).getD 0
        let s := if src = 0 then clearRange s key sz else fillFrame s c.tenant key src (sz / 2 ^ 15)
        let s := if leafSpace p ≤ 1 then fwWrote s (frame p) sz else s
        let s := fwStore s pa (toBytes 8 (p.toNat / 2 * 2 + 1))
        let s := { s with fw := { s.fw with deferred := assocDel s.fw.deferred pa } }
        .next (invalidateVa s none [(w, .deferredEntryResolve)] c.tenant va 1)

end Sys2Proof.Machine
end

