-- ==== Sys2Proof/Machine/Tables.lean ====
section
/-!
DEFINITION. SCHLOAD and PHSET: the checks of a schedule table, and what changes between phases (R63, R64, R76, R90,
R203, R209, R394 to R396, R421 to R423, R428, R446, R453, R454).
-/
namespace Sys2Proof.Machine

/-! ### The checks of a table (R396) -/

def frameNos (ws : List DWord) : List Nat := List.range (nFrames ws)
/-- Reason 2: frames tile time, lengths are legal, and the last frame is the one marked. -/
def tilesOk (ws : List DWord) : Bool :=
  nFrames ws != 0 && (frameNos ws).all fun n =>
    decide (40 ≤ frameLen ws n) && frameLen ws n % 40 == 0 && (fLast ws n == decide (n + 1 = nFrames ws)) &&
      (decide (n + 1 = nFrames ws) || frameW ws (n + 1) 0 == frameW ws n 0 + BitVec.ofNat 64 (frameLen ws n))
def frameT (ws : List DWord) (n : Nat) : Nat := (frameW ws n 0).toNat
/-- Slack windows of a stack, in order: start and length. -/
def slackWins (ws : List DWord) (stack : Nat) : List (Nat × Nat) :=
  ((frameNos ws).map fun n =>
    let d := if bit (frameW ws n 2) (48 + stack) then frameW ws n 2 else frameW ws n 3
    let per := bits d 0 16
    let len := bits d 16 16
    let off := bits d 32 16
    if per = 0 ∨ len = 0 then []
    else ((List.range (frameLen ws n / per + 1)).filter fun i => decide (off + i * per + len ≤ frameLen ws n)).map fun i =>
      (frameT ws n + off + i * per, len)).flatten
/-- Slack ticks of a span. -/
def slackIn (l : List (Nat × Nat)) (lo hi : Nat) : Nat :=
  (l.map fun w => min hi (w.1 + w.2) - max lo w.1).foldl (· + ·) 0
/-- Reason 3 (R64): a span's slack is least where it begins at the end of a window, or ends at the start of one. -/
def slackOk (ws : List DWord) : Bool :=
  let t0 := frameT ws 0
  let t1 := frameFrom ws t0 (nFrames ws)
  ((frameNos ws).all fun n => bits (frameW ws n 3) 48 16 == 0) && (List.range 16).all fun k =>
    let l := slackWins ws k
    l.all (fun w => decide (48 ≤ w.2)) && (l.zip (l.drop 1)).all (fun p => decide (p.2.1 ≤ p.1.1 + 512)) &&
      ((t0 :: l.map fun w => w.1 + w.2).all fun a => decide (t1 < a + 15600) || decide (1560 ≤ slackIn l a (a + 15600))) &&
      ((t1 :: l.map (·.1)).all fun b => decide (b < t0 + 15600) || decide (1560 ≤ slackIn l (b - 15600) b))
/-- Whether the fill periods alone break R63: with one core for each of a frame's fill entries, and its sectors spread over
the 16 stacks, the traffic passes 8 sectors a tick and stack. -/
def trafficBad (ws : List DWord) : Bool :=
  let m := (List.range 256).foldl (fun m k => Nat.lcm m (max 1 k)) 1
  (frameNos ws).any fun n =>
    decide (128 * m < ((fillsOf ws n).map fun e => m / max 1 (bits e 18 8)).foldl (· + ·) 0)
/-- Binding entries of plain streams (R423). -/
def bindings (ws : List DWord) : List DWord :=
  (List.range (nth ws 4 0).toNat).map fun k => tblDw ws ((nth ws 3 0).toNat + 8 * k)
/-- Segments of every frame, with the tick at which each begins. -/
def allSegs (ws : List DWord) : List (Nat × DWord) :=
  ((frameNos ws).map fun n => (segsOf ws n).map fun g => (frameT ws n + 5 * segFirst g, g)).flatten
/-- Reason 6 (R395, R421 to R423). -/
def segsOk (s : State) (ws : List DWord) : Bool :=
  let all := allSegs ws
  let bs := bindings ws
  ((frameNos ws).all fun n =>
    let gs := segsOf ws n
    gs.all (fun g =>
      bits g 45 19 == 0 && segCnt g != 0 && decide (5 * (segFirst g + segCnt g) ≤ frameLen ws n) &&
        ((List.range (segCnt g)).all fun i => (segFirst g + i) % 8 != 7) && bits g 40 3 == 0) &&
      (List.range gs.length).all fun i => (List.range i).all fun j =>
        let a := nth gs i 0
        let b := nth gs j 0
        segPort a != segPort b || segRecv a != segRecv b || decide (segFirst a + segCnt a ≤ segFirst b) ||
          decide (segFirst b + segCnt b ≤ segFirst a)) &&
    (all.all fun r => !segRecv r.2 || all.any fun x => !segRecv x.2 && segStream x.2 == segStream r.2 &&
      segCnt r.2 == segCnt x.2 && (r.1 == x.1 + 160 || r.1 == x.1 + 640)) &&
    (all.all fun x => segRecv x.2 || decide (0x8000 ≤ segStream x.2) || bs.any fun e => bits e 0 12 == segStream x.2) &&
    bs.all fun e =>
      let sc := bits e 12 10
      let rc := bits e 40 10
      Config.podHas sc && Config.podHas rc && all.any (fun x => segStream x.2 == bits e 0 12) &&
        (groupOf sc == groupOf rc || (groupOf sc == groupOf chipNo && s.net.circuits.contains (groupOf rc)) ||
          (groupOf rc == groupOf chipNo && s.net.circuits.contains (groupOf sc)) ||
          (groupOf sc != groupOf chipNo && groupOf rc != groupOf chipNo))
/-- Reason 7: a grid slot's cores in a cluster have one fill period, in every frame. -/
def fillsOk (ws : List DWord) : Bool :=
  let all := ((frameNos ws).map (fillsOf ws)).flatten
  all.all fun e => bits e 27 5 == 0 && bits e 18 8 != 0 &&
    all.all fun f => bits e 0 18 != bits f 0 18 || bits e 18 8 == bits f 18 8
/-- Reason 8 (R454). -/
def islandsOk (ws : List DWord) : Bool :=
  (frameNos ws).all fun n => !fPhb ws n || (List.range 1024).all fun i =>
    let b := tblDw ws (bits (frameW ws n 6) 0 32 + i)
    decide (bits b 0 3 ≤ 4) && decide (bits b 3 5 ≤ 16) && decide (4 * bits b 0 3 ≤ bits b 3 5)
/-- Reason 9 (R209, R394): buffers of the frame's superstep and what they are copied from. -/
def declsOk (ws : List DWord) : Bool :=
  (frameNos ws).all fun n =>
    let ds := declsOf ws n
    let f := fun (d : List DWord) k lo m => bits (nth d k 0) lo m
    let buf := fun d : List DWord => ((nth d 3 0).toNat, (nth d 1 0).toNat)
    let apart := fun (a b : Nat × Nat) => decide (a.1 + a.2 ≤ b.1) || decide (b.1 + b.2 ≤ a.1)
    let bufs := (ds.filter fun d => decide (f d 0 0 2 < 2)).map buf
    (ds.isEmpty || n == 0 || fSsb ws (n - 1)) && ds.all fun d =>
      match f d 0 0 2 with
      | 0 => f d 0 2 62 == 0 && f d 1 0 6 == 0
      | 1 => f d 0 2 62 == 0 && f d 1 0 6 == 0 && bufs.all fun b => apart ((nth d 2 0).toNat, (nth d 1 0).toNat) b
      | 2 => f d 1 40 24 == 0
      | _ => false
/-- Reason 10: the first frame begins at a phase boundary of the current table, or far enough ahead. -/
def beginsOk (s : State) (ws : List DWord) : Bool :=
  let t := frameT ws 0
  decide (s.tick + 40000 ≤ t) || (framesAhead s).any fun f => decide (s.tick < f.1) && f.1 == t && fPhb f.2.1 f.2.2
/-- Reason 11. -/
def reservedOk (ws : List DWord) : Bool :=
  ((frameNos ws).all fun n => bits (frameW ws n 1) 35 29 == 0) && (bindings ws).all fun e => bits e 62 2 == 0
/-- The lowest reason that applies; whether the digests agree, and the traffic (R63) and the access slots (R76) suffice on
what the table does not say (the cores of a grid and the addresses of its accesses), is a free value (log 37). -/
def tableReason (s : State) (ws : List DWord) (f : Nat) : Nat :=
  if f = 1 then 1
  else if !tilesOk ws then 2
  else if !slackOk ws then 3
  else if trafficBad ws || f == 2 then 4
  else if f = 3 then 5
  else if !segsOk s ws then 6
  else if !fillsOk ws then 7
  else if !islandsOk ws then 8
  else if !declsOk ws then 9
  else if !beginsOk s ws then 10
  else if !reservedOk ws then 11
  else 0
/-- Whether this chip reports lock (R452, R453). -/
def lockedNow (s : State) : Bool :=
  s.fw.ptpLocked && (chipNo == 0 || match s.fw.locked with | some t => decide (t + 2 ^ 20 ≤ s.tick) | none => false)
/-- Install a table: at once when none is current, else it takes over at its first frame. -/
def installTable (s : State) (pa : Nat) (ws : List DWord) : State :=
  let t := frameT ws 0
  let s := if s.chip.sched.loaded ∨ s.chip.sched.next.isSome then
      s.updChip fun h => { h with sched := { h.sched with next := some (t, pa, ws) } }
    else s.updChip fun h => { h with sched := { words := ws, pa := pa, loaded := true, frameStart := t } }
  s.sched t (obj 0) .frameStart
/-- SCHLOAD (R396, R453): physical address and length in bytes of the table. Until every chip reports lock, the
result is busy; the lock of the other chips is a free value. -/
def execSchload (s : State) : Out := withCmd s fun c s =>
  let pa := (c.arg 0).toNat
  let (others, s) := s.free 1
  if !c.pf then refuseCmd s 1
  else if !(lockedNow s) || others = 1 then refuseCmd s 5
  else if !localHbm pa || pa % 2 ^ 15 ≠ 0 then refuseCmd s 2
  else
    let ws := s.dwords (keyHbm pa) ((c.arg 1).toNat / 8)
    let (f, s) := s.free 3
    match tableReason s ws f with
    | 0 => doneCmd (installTable s pa ws)
    | r => refuseCmd s 2 r

/-! ### PHSET (R396) -/

/-- Base of the replay log in firmware's HBM (log 9). -/
def rlogBase : Nat := ownHbm 0xBE40000000
/-- The replay log goes on: the contexts of the grids that run are kept (R446). -/
def startRlog (s : State) : State :=
  let xs := (s.fw.grids.filter fun g => g.state == 2).map (contextOf s)
  { s.updChip fun h => { h with replog := true } with
    dbg := { s.dbg with
      rlogOn := true, rlogBase := rlogBase, rlogIdx := 0, rlog := [], snap := xs, snapTick := s.tick,
      snapIds := s.chip.ids } }
/-- What PHSET does at its boundary: kind 0 the groups that circuits connect, by bit; 1 pair mode of cluster 5:0, on by
bit 8; 2 the replay log, on by bit 0; 3 the return of switch 0 or 1, whose copies then begin (R92). -/
def phsetAct (s : State) (kind : Nat) (v : DWord) : Res :=
  match kind with
  | 0 => doneCmd { s with net := { s.net with circuits := (List.range 64).filter (bit v) } }
  | 1 =>
    let cl := bits v 0 6
    if s.fw.grids.any fun g => g.charged && g.cores.any fun k => k.1 == cl then refuseCmd s 4
    else doneCmd (s.updCluster cl fun k => { k with pairst := BitVec.ofNat 64 (bits v 8 1 * 2 ^ 32) })
  | 2 => if bit v 0 then doneCmd (startRlog s)
    else doneCmd { s.updChip fun h => { h with replog := false } with dbg := { s.dbg with rlogOn := false } }
  | 3 =>
    let sw := bits v 0 1
    if !bit s.chip.orchst sw then refuseCmd s 2
    else
      let (d, s) := s.freeD
      let s := { s with net := { s.net with copyback := s.net.copyback ++ [sw] } }
      doneCmd (s.sched (s.tick + d.toNat) (obj sw) .mirrorCopyBackComplete)
  | _ => refuseCmd s 2
/-- Whether a phase boundary of the table stands at a tick. -/
def phbAt (s : State) (t : Nat) : Bool :=
  (framesAhead s).any (fun f => f.1 == t && fPhb f.2.1 f.2.2) || (s.chip.sched.running && s.chip.sched.phbStart == t)
/-- PHSET (R396): the boundary's tick, kind, operand. Before its boundary the command waits; at any other tick the
status is 4. -/
def execPhset (s : State) : Out :=
  match s.fw.cmds.find? fun e => e.1 == s.cur.n with
  | some (_, c) =>
    let t := (c.arg 0).toNat
    if c.pf && (bootGate s c).isNone && decide (s.tick < t) && phbAt s t then .next (s.sched t s.cur .phset)
    else withCmd s fun c s =>
      if !c.pf then refuseCmd s 1
      else if t ≠ s.tick ∨ !(phbAt s t) then refuseCmd s 4
      else phsetAct s (c.arg 1).toNat (c.arg 2)
  | none => .next s

end Sys2Proof.Machine
end

