-- ==== Sys2Proof/Machine/Debug.lean ====
section
/-!
DEFINITION. Debug commands, counters, verdicts, halts and replay (R415, R436 to R447).
-/
namespace Sys2Proof.Machine

/-! ### Sessions and halts (R375, R436, R437, R442) -/

/-- Grids of a domain on this chip that may be halted. -/
def liveGrids (s : State) (d : Nat) : List Grid := s.fw.grids.filter fun g => g.dom == d && !g.retired && g.kind == 1
/-- Whether a grid takes part in supersteps. -/
def gridSsg (s : State) (g : Grid) : Bool := (ownCores s g).any fun c => bit c.modew 2
/-- Halt the cores of a grid part: engines start no further command, and the issuers' uncommitted regions are
discarded without advancing the count (R442). -/
def haltCores (s : State) (g : Grid) : State :=
  (ownCores s g).foldl (fun s c =>
    (c.issuers.foldl (fun s i => discardAll s ⟨c.cl, c.co, i.slot⟩ false) s).updCore c.cl c.co fun c =>
      { c with halt := true, inTurn := false }) s
/-- Halt a grid part. One that uses the pod schedule follows its halt policy: freeze leaves every issuer as it is
and names the freeze tick; isolate takes the chip's ports out at the next frame start. -/
def haltGrid (s : State) (g : Grid) : State :=
  let s := { s.updGrid g.id fun g => { g with halted := true } with
    dbg := { s.dbg with halted := (s.dbg.halted ++ [g.id]).eraseDups } }
  if gridSsg s g && effHalt s g.dom != 2 && s.chip.sched.running then
    match (framesAhead s).find? fun f => decide (s.tick + 2000 ≤ f.1) with
    | some f => s.sched s.tick (obj 0) (.freeze f.1)
    | none => haltCores s g
  else haltCores s g
/-- Release a halt: issuers re-enter at their stop points. A freeze ends at a tick that the beacon names; after an
isolation the superstep runs again, and does not count (R436, R437). -/
def releaseGrid' (s : State) (g : Grid) : State :=
  let own := ownCores s g
  let s := s.updGrid g.id fun g => { g with halted := false }
  let s : State := { s with dbg := { s.dbg with halted := s.dbg.halted.filter (· != g.id) } }
  let s := own.foldl (fun s c =>
    if c.halt then kickStreams (kickEngines (s.updCore c.cl c.co fun c => { c with halt := false, rotAt := max c.rotAt s.tick }) c.cl c.co) c.cl c.co
    else s) s
  if s.frozen.isSome && own.any fun c => bit c.modew 2 then
    let (d, s) := s.free 1000
    s.sched (s.tick + 4000 + d) (obj 0) .freezeResume
  else if s.net.isolated then
    let s := { s with net := { s.net with isolated := false } }
    let s := s.updChip fun h => { h with sched := { h.sched with faulted := true, nocount := true } }
    let (d, s) := s.free 1000
    s.sched (s.tick + d) (obj 0) (.resyncBeacon (s.tick + 4000 + (initBytes s + 255) / 256))
  else s
/-- An issuer that BKPT or a verdict stopped goes on: after the BKPT, or at the re-entry of its region. -/
def releaseIssuer (s : State) (w : Iss) : State :=
  let me := s.iss w
  if me.wait ≠ .stopped then s
  else match me.redo with
    | some _ => s.updIss w fun me => { me with wait := .run, nextAt := s.tick }
    | none => unblock s w (me.pcOf (nth (me.selected ((s.coreOf w).lanes w.n)) 0 0))
/-- Release the grids and issuers of a domain. -/
def releaseDom (s : State) (d : Nat) : State :=
  let s := ((liveGrids s d).filter (·.halted)).foldl releaseGrid' s
  let mine := s.dbg.stopped.filter fun w => domOfCore s w.cl w.co == some d
  let s := mine.foldl releaseIssuer s
  { s with dbg := { s.dbg with stopped := s.dbg.stopped.filter fun w => !mine.contains w } }
/-- A command about a domain that the caller may name. -/
def domCmd (s : State) (k : Nat → State → Res) : Out := withCmd s fun c s =>
  match domAt s c (c.arg 0) with
  | none => refuseCmd s 2
  | some d => if mayDom s c d then k d s else refuseCmd s 1
/-- Set DBG of a domain. -/
def setDbg (s : State) (d : Nat) (on : Bool) : State :=
  writeDcb (s.updDom d fun x => { x with dbg := on, dw := setNth 0 x.dw 0 (setBits (nth x.dw 0 0) 19 1 (b2n on)) }) d
/-- DBGATT (R438). -/
def execDbgatt (s : State) : Out := domCmd s fun d s => doneCmd (setDbg s d true)
/-- DBGDET (R438): the domain's watch ranges go, and a halted grid is resumed. -/
def execDbgdet (s : State) : Out := domCmd s fun d s =>
  let tn := domTenant s d
  let s := releaseDom (setDbg s d false) d
  doneCmd { s with dbg := { s.dbg with watches := s.dbg.watches.filter fun r => bits (nth r.2 0 0) 4 6 != tn } }
/-- HALTREQ (R442). -/
def execHaltreq (s : State) : Out := domCmd s fun d s =>
  doneCmd (((liveGrids s d).filter fun g => g.state == 2 && !g.halted).foldl haltGrid s)
/-- RESUME (R442). -/
def execResume (s : State) : Out := domCmd s fun d s => doneCmd (releaseDom s d)

/-! ### State of a stopped party (R442) -/

/-- Whether an issuer's part of the machine stands for the debugger: stopped by itself, in a halted part, or in a
halted grid of a frozen chip. -/
def standsStill (s : State) (w : Iss) : Bool :=
  s.dbg.stopped.contains w || (s.coreOf w).halt ||
    (s.frozen.isSome && match (s.core w.cl w.co).grid.bind s.grid with | some g => g.halted | none => false)
/-- What dword 1 names: core, cluster, issuer. -/
def cmdWho (c : Cmd) : Iss := ⟨bits (c.arg 1) 6 6, bits (c.arg 1) 0 6, bits (c.arg 1) 12 5⟩
/-- State by kind and index: 0 a thread's PC, 1 a vector register's lane (register in bits 8:0, lane above), 2 a
scalar register, 3 a predicate (register in bits 2:0, lane above), 4 a window's state code, 5 a stream's position. -/
def readState (s : State) (w : Iss) (kind i : Nat) : DWord :=
  let c := s.coreOf w
  let me := s.iss w
  match kind with
  | 0 => BitVec.ofNat 64 (me.pcOf i)
  | 1 => (me.v s.tick (i % 512) (i / 512)).setWidth 64
  | 2 => c.sreg s.tick (i % 256)
  | 3 => boolD (me.p s.tick (i % 8) (i / 8))
  | 4 => BitVec.ofNat 64 (c.win i).state.code
  | _ => BitVec.ofNat 64 (nth c.streams i {}).pos
/-- A window state by its code (R48). -/
def wstateOf (n : Nat) : WState :=
  match n with | 0 => .absent | 1 => .filling | 2 => .full | 3 => .draining | 4 => .free | _ => .faulted
/-- Write the same state. A written PC is entered as a transfer is: its clause header is fetched and checked (R214). -/
def writeState (s : State) (w : Iss) (kind i : Nat) (v : DWord) : State :=
  match kind with
  | 0 => s.updIss w fun me => { me with pcs := setNth 0 me.pcs i (bits v 0 23), entered := false, delay := 0 }
  | 1 => s.updCore w.cl w.co fun c => writeLane c w.n (.v (i % 512)) (i / 512) v
  | 2 => s.updCore w.cl w.co fun c => writeLane c w.n (.s (i % 256)) 0 v
  | 3 => s.updCore w.cl w.co fun c => writeLane c w.n (.p (i % 8)) (i / 8) v
  | 4 => s.updCore w.cl w.co fun c => c.setWin i { c.win i with state := wstateOf v.toNat }
  | _ => s.updCore w.cl w.co fun c => { c with
      streams := setNth {} c.streams i { nth c.streams i {} with pos := bits v 0 24 } }
/-- The check that STATERD and STATEWR share: the domain of the party's grid, and that it stands. -/
def stateCmd (s : State) (c : Cmd) (k : Res) : Res :=
  match domOfCore s (cmdWho c).cl (cmdWho c).co with
  | none => refuseCmd s 2
  | some d =>
    if !mayDom s c d then refuseCmd s 1
    else if 5 < (c.arg 0).toNat then refuseCmd s 2
    else if !(standsStill s (cmdWho c)) then refuseCmd s 5
    else k
/-- STATERD (R442): kind, party, index, and which half of 32 bits. -/
def execStaterd (s : State) : Out := withCmd s fun c s =>
  stateCmd s c (doneCmd s (bits (readState s (cmdWho c) (c.arg 0).toNat (c.arg 2).toNat) (32 * bits (c.arg 3) 0 1) 32))
/-- STATEWR (R442): refused under a freeze. -/
def execStatewr (s : State) : Out := withCmd s fun c s =>
  stateCmd s c (if s.frozen.isSome then refuseCmd s 1
    else doneCmd (writeState s (cmdWho c) (c.arg 0).toNat (c.arg 2).toNat (c.arg 3)))

/-! ### Watch ranges, predicates, counters and the ring (R439, R440, R443, R445) -/

/-- WPSET (R443): index, then the range's dwords. -/
def execWpset (s : State) : Out := withCmd s fun c s =>
  let d := c.arg 1
  let tn := cmdTenant s c
  let i := (c.arg 0).toNat
  if 64 ≤ i then refuseCmd s 2
  else if bits d 4 6 ≠ tn then refuseCmd s 1
  else if bits d 16 48 ≠ 0 then refuseCmd s 2
  else if bit d 0 && ((assoc s.dbg.currant (bits d 10 6)).isNone || decide (3 < spaceOf (c.arg 2)) ||
      (c.arg 2).toNat % 64 != 0 || c.arg 3 == 0 || (c.arg 3).toNat % 64 != 0) then refuseCmd s 2
  else doneCmd { s with dbg := { s.dbg with watches := assocSet s.dbg.watches i [d, c.arg 2, c.arg 3] } }
/-- PREDLOAD (R445): slot, address in the caller's tenant, and dwords of the image. -/
def execPredload (s : State) : Out := withCmd s fun c s =>
  let n := (c.arg 2).toNat
  if 64 ≤ (c.arg 0).toNat ∨ n = 0 ∨ 128 < n then refuseCmd s 2
  else match fwDwords s (cmdTenant s c) .load (c.arg 1) n with
    | none => refuseCmd s 2
    | some img =>
      if predImageOk n 0 img then
        doneCmd { s with dbg := { s.dbg with currant := assocSet s.dbg.currant (c.arg 0).toNat img } }
      else refuseCmd s 2
/-- The 16-bit selectors of a dword list. -/
def selectors (ds : List DWord) : List Nat := (ds.map fun d => (List.range 4).map fun k => bits d (16 * k) 16).flatten
/-- CTRSET (R439): k, and the address of 512 selectors. -/
def execCtrset (s : State) : Out := withCmd s fun c s =>
  let k := (c.arg 0).toNat
  match fwDwords s (cmdTenant s c) .load (c.arg 1) 128 with
  | none => refuseCmd s 2
  | some ds =>
    let es := selectors ds
    if k < 10 ∨ 24 < k ∨ es.any (fun e => decide (16 ≤ e % 256) || e / 2 ^ 14 % 2 == 1) then refuseCmd s 2
    else
      let sels := ((List.range 512).zip es).filter fun e => e.2 % 256 != 0
      let s := { s with
        agenda := s.agenda.filter fun e => e.2.2 != Instr.counterLatch
        dbg := { s.dbg with sels := sels, counters := [], k := k } }
      doneCmd (s.sched ((s.tick / 2 ^ k + 1) * 2 ^ k) (obj 0) .counterLatch)
/-- COUNTER_LATCH (R440): all counters are latched and written to the ring. -/
def execCounterLatch (s : State) : Out :=
  let k := s.dbg.k
  if k = 0 ∨ s.tick % 2 ^ k ≠ 0 then .next s
  else
    let rec_ : List DWord := BitVec.ofNat 64 (1 + k * 2 ^ 8 + chipNo * 2 ^ 13) :: BitVec.ofNat 64 s.tick ::
      BitVec.ofNat 64 s.dbg.lost :: List.replicate 5 0 ++ (List.range 512).map fun n => (assoc s.dbg.counters n).getD 0
    let before := s.dbg.lost
    let s := ringPut s rec_
    let s := if s.dbg.lost = before then { s with dbg := { s.dbg with lost := 0 } } else s
    .next (s.sched (s.tick + 2 ^ k) (obj 0) .counterLatch)
/-- TRRING (R440): base and form; WIDX and RIDX become 64. -/
def execTrring (s : State) : Out := withCmd s fun c s =>
  let d := c.arg 1
  let lg := bits d 0 5
  if lg < 16 ∨ 30 < lg ∨ bits d 5 3 ≠ 0 ∨ bits d 9 55 ≠ 0 ∨ spaceOf (c.arg 0) ≠ 0 ∨ (c.arg 0).toNat % 2 ^ lg ≠ 0 then
    refuseCmd s 2
  else
    let tn := cmdTenant s c
    let s := fwWrite s tn (c.arg 0) [64, 64]
    doneCmd { s with dbg := { s.dbg with
      ringBase := (c.arg 0).toNat, ringSize := 2 ^ lg, ringMode := bits d 8 1, ringTenant := tn, widx := 64, lost := 0 } }

/-- Stop an engine's grid part at its next command boundary, and withhold its completion (R444). -/
def engineStop (s : State) (w : Iss) : State :=
  match (s.core w.cl w.co).grid.bind s.grid with
  | some g => if g.halted then s else haltCores { s.updGrid g.id fun g => { g with halted := true } with
      dbg := { s.dbg with halted := s.dbg.halted ++ [g.id] } } g
  | none => s
/-- CURRANT_VERDICT (R444, R445): the record of evaluation cur.n, and what a true verdict stops. -/
def execCurrantVerdict (s : State) : Out :=
  match s.dbg.evals.find? fun e => e.id == s.cur.n with
  | none => .next s
  | some e =>
    let s := { s with dbg := { s.dbg with evals := s.dbg.evals.filter fun x => x.id != e.id } }
    let high := b2n e.ret * 2 ^ 16 + e.flags / 4 % 2 * 2 ^ 17 + e.flags % 2 * 2 ^ 18 + e.flags / 2 % 2 * 2 ^ 19 + e.range * 2 ^ 20
    let s := if dbgOn s e.w.cl e.w.co then
        ringPut s (eventRec e.w 3 (b2n e.verdict) high e.hit e.task e.rnum e.addr e.pc) else s
    if !e.verdict then .next s
    else if e.eng then .next (engineStop s e.w)
    else match (s.iss e.w).regions.findIdx? fun r => r.num == e.rnum with
      | none => .next s
      | some k =>
        let s := discardFrom s e.w k false
        .next { s.updIss e.w fun me => { me with wait := .stopped } with
          dbg := { s.dbg with stopped := (s.dbg.stopped ++ [e.w]).eraseDups } }

/-! ### Exits and replay (R415, R438, R446, R447) -/

/-- EXITRD (R415): launch identifier, dword of the summary, and half. -/
def execExitrd (s : State) : Out := withCmd s fun c s =>
  match s.fw.grids.find? fun g => g.launch == (c.arg 0).toNat && g.retired && g.origin.isSome with
  | none => refuseCmd s 2
  | some g =>
    if !mayDom s c g.dom then refuseCmd s 1
    else if 6 < (c.arg 1).toNat then refuseCmd s 2
    else doneCmd s (bits (nth (exitSummary g.exits) (c.arg 1).toNat 0) (32 * bits (c.arg 2) 0 1) 32)
/-- RLOGRD (R438): dword 0 chooses the base's bits 51:6, or the write index. -/
def execRlogrd (s : State) : Out := withCmd s fun c s =>
  doneCmd s (if c.arg 0 = 0 then s.dbg.rlogBase / 64 else s.dbg.rlogIdx)
/-- A logged entry as the port or the beacon presents it again; frames recur by themselves. -/
def replayEvent (e : List DWord) : Option (Nat × Iss × Instr) :=
  let t := (nth e 0 0).toNat
  let port := bits (nth e 1 0) 0 4
  let v := (nth e 5 0).toNat
  let x := (nth e 37 0).toNat
  if port ≠ 15 then
    if bits (nth e 1 0) 4 3 ≠ 7 then
      some (t, obj port, .flitReceive ⟨bits (nth e 1 0) 4 16, nth e 36 0 != 0, (e.drop 4).take 32⟩)
    else if bit (nth e 4 0) 29 then some (t, obj (x % 2 ^ 32), .collectiveReceive (x / 2 ^ 32) (bits (nth e 5 0) 6 36)
      ((dwBytes ((e.drop 8).take 8)).take (Nat.log2 ((nth e 7 0).toNat + 1))))
    else none
  else match (nth e 4 0).toNat with
    | 2 => some (t, obj 0, .freeze v)
    | 3 => some (t, obj 0, .resyncBeacon v)
    | 4 => some (t, obj 0, .freezeResume)
    | _ => none
/-- A logged answer to an access of this chip (R425). -/
def replayReply (e : List DWord) : Bool :=
  bits (nth e 1 0) 0 4 != 15 && bits (nth e 1 0) 4 3 == 7 && (bits (nth e 4 0) 0 4 == 7 || bits (nth e 4 0) 0 4 == 8)
/-- REPLAY (R447): the saved contexts return, TICK reads the logged phase boundary, and the log's events are
presented again at their ticks. It acts on every domain of the chip, so its caller may act for the root. -/
def execReplay (s : State) : Out := withCmd s fun c s =>
  if !mayDom s c 0 then refuseCmd s 1
  else if s.dbg.snap.isEmpty then refuseCmd s 2
  else
    let t := s.dbg.snapTick
    let n := ((s.dbg.rlog.find? fun e => bits (nth e 1 0) 0 4 == 15 && nth e 4 0 == 1).map fun e => (nth e 5 0).toNat).getD 0
    let q := s.chip.sched
    let s : State := { s with
      tick := t, cores := [], frozen := none
      agenda := s.agenda.filter fun e => outside e.2.2
      inbox := s.dbg.rlog.filterMap replayEvent
      net := { s.net with portq := [], swq := [], sendq := [] }
      dbg := { s.dbg with
        replaying := true, rlogOn := false, replies := s.dbg.rlog.filter replayReply
        replayFn := match c.src with | .mbox fn => some fn | .sys _ => none } }
    let s := s.updChip fun h => { h with
      ids := s.dbg.snapIds, reqs := [], colls := [], phasers := [], walks := [], invs := []
      sched := { words := q.words, pa := q.pa, loaded := true, frame := n, frameStart := t } }
    let s := s.dbg.snap.foldl (fun s x => install s x t) s
    doneCmd (s.sched t (obj n) .frameStart)

end Sys2Proof.Machine
end

