-- ==== Sys2Proof/Machine/Vector.lean ====
section
/-!
DEFINITION. Vector integer instructions of the warps (R250, R251, R260 to R262).
-/
namespace Sys2Proof.Machine

/-- A vector operation on vA and b, lane by lane. -/
def v3 (o : V3) (L : Nat) (f : Word → Word → Word) (s : State) : Out :=
  vop s o.m o.d L fun x l => f (x.v o.a l) (x.b o.b l)
/-- The same with an immediate (R260). -/
def vI (o : VI) (f : Word → Word → Word) (s : State) : Out :=
  vop s o.m o.d 4 fun x l => f (x.v o.a l) (o.i.val.setWidth 32)
def v2 (o : V2) (L : Nat) (f : Word → Word) (s : State) : Out :=
  vop s o.m o.d L fun x l => f (x.v o.a l)
/-- With a third source vC (R261, R262). -/
def v4 (o : V3) (c : BitVec 9) (L : Nat) (f : Word → Word → Word → Word) (s : State) : Out :=
  vop s o.m o.d L fun x l => f (x.v o.a l) (x.b o.b l) (x.v c l)

/-- The exact value clamped to 32 bits, signed or unsigned (R260). -/
def clamp32 (u : Bool) (v : Int) : Word :=
  if u then BitVec.ofInt 32 (max 0 (min v (2 ^ 32 - 1))) else BitVec.ofInt 32 (max (-2 ^ 31) (min v (2 ^ 31 - 1)))
/-- A word's value, signed or unsigned. -/
def valOf {n : Nat} (u : Bool) (a : BitVec n) : Int := if u then (a.toNat : Int) else a.toInt
def vaddOp (u sat : Bool) (a b : Word) : Word := if sat then clamp32 u (valOf u a + valOf u b) else a + b
def vsubOp (u sat : Bool) (a b : Word) : Word := if sat then clamp32 u (valOf u a - valOf u b) else a - b
def vabsOp (sat : Bool) (a : Word) : Word :=
  if sat && a == 0x80000000 then 0x7FFFFFFF else if a.msb then -a else a
def brevGo (a : Word) : Nat → Nat → Nat
  | 0, acc => acc
  | k + 1, acc => brevGo a k (acc + (if a.getLsbD (31 - k) then 2 ^ k else 0))
def brev (a : Word) : Word := BitVec.ofNat 32 (brevGo a 32 0)
/-- Byte i of a word. -/
def byteOf (a : Word) (i : Nat) : Byte := a.extractLsb' (8 * i) 8
/-- VDOT4's exact sum (R261). -/
def dot4 (u : Bool) (a b c : Word) : Int :=
  (List.range 4).foldl (fun s i => s + valOf u (byteOf a i) * valOf u (byteOf b i)) (valOf u c)
/-- VBFI (R262). -/
def bfi (a b c : Word) : Word :=
  let pos := b.toNat % 32
  let len := min (b.toNat / 2 ^ 8 % 2 ^ 6) 32
  let mask : Word := BitVec.ofNat 32 ((2 ^ len - 1) * 2 ^ pos % 2 ^ 32)
  (c &&& ~~~mask) ||| ((a <<< pos) &&& mask)
/-- VPERMB (R262). -/
def permb (a b c : Word) : Word :=
  let pick := fun i : Nat =>
    let k := b.toNat / 2 ^ (8 * i) % 2 ^ 8
    if 128 ≤ k then 0
    else if k % 8 < 4 then (byteOf a (k % 8)).toNat else (byteOf c (k % 8 - 4)).toNat
  BitVec.ofNat 32 (pick 0 + 256 * pick 1 + 65536 * pick 2 + 16777216 * pick 3)

/-- VADD (R260). -/
def execVadd (o : V3) (u sat : Bool) (s : State) : Out := v3 o 4 (vaddOp u sat) s
def execVaddImm (o : VI) (s : State) : Out := vI o (vaddOp false false) s
/-- VSUB (R260). -/
def execVsub (o : V3) (u sat : Bool) (s : State) : Out := v3 o 4 (vsubOp u sat) s
def execVsubImm (o : VI) (s : State) : Out := vI o (vsubOp false false) s
/-- VAND (R260). -/
def execVand (o : V3) (s : State) : Out := v3 o 4 (fun a b => a &&& b) s
def execVandImm (o : VI) (s : State) : Out := vI o (fun a b => a &&& b) s
/-- VOR (R260). -/
def execVor (o : V3) (s : State) : Out := v3 o 4 (fun a b => a ||| b) s
def execVorImm (o : VI) (s : State) : Out := vI o (fun a b => a ||| b) s
/-- VXOR (R260). -/
def execVxor (o : V3) (s : State) : Out := v3 o 4 (fun a b => a ^^^ b) s
def execVxorImm (o : VI) (s : State) : Out := vI o (fun a b => a ^^^ b) s
/-- VANDN (R260). -/
def execVandn (o : V3) (s : State) : Out := v3 o 4 (fun a b => a &&& ~~~b) s
def execVandnImm (o : VI) (s : State) : Out := vI o (fun a b => a &&& ~~~b) s
/-- VSHL (R260). -/
def execVshl (o : V3) (s : State) : Out := v3 o 4 (fun a b => shl a b) s
def execVshlImm (o : VI) (s : State) : Out := vI o (fun a b => shl a b) s
/-- VSHR (R260). -/
def execVshr (o : V3) (s : State) : Out := v3 o 4 (fun a b => shr a b) s
def execVshrImm (o : VI) (s : State) : Out := vI o (fun a b => shr a b) s
/-- VSAR (R260). -/
def execVsar (o : V3) (s : State) : Out := v3 o 4 (fun a b => sar a b) s
def execVsarImm (o : VI) (s : State) : Out := vI o (fun a b => sar a b) s
/-- VROT (R260). -/
def execVrot (o : V3) (s : State) : Out := v3 o 4 (fun a b => rot a b) s
def execVrotImm (o : VI) (s : State) : Out := vI o (fun a b => rot a b) s
/-- VMIN (R260). -/
def execVmin (o : V3) (u : Bool) (s : State) : Out :=
  v3 o 4 (fun a b => if u then minU a b else minS a b) s
def execVminImm (o : VI) (s : State) : Out := vI o (fun a b => minS a b) s
/-- VMAX (R260). -/
def execVmax (o : V3) (u : Bool) (s : State) : Out :=
  v3 o 4 (fun a b => if u then maxU a b else maxS a b) s
def execVmaxImm (o : VI) (s : State) : Out := vI o (fun a b => maxS a b) s
/-- VSEL, VMOV (R251). -/
def execVsel (o : V3) (p : BitVec 3) (s : State) : Out :=
  vop s o.m o.d 4 fun x l => if x.me.p (x.tl l) p.toNat l then x.v o.a l else x.b o.b l
def execVmov (o : V2) (s : State) : Out := v2 o 4 id s
/-- The multiply group (R261). -/
def execVmul (o : V3) (s : State) : Out := v3 o 6 (fun a b => a * b) s
def execVmulh (o : V3) (u : Bool) (s : State) : Out := v3 o 6 (mulh u) s
def execVmad (o : V3) (c : BitVec 9) (s : State) : Out := v4 o c 6 (fun a b c => a * b + c) s
def execVdot4 (o : V3) (c : BitVec 9) (u sat : Bool) (s : State) : Out :=
  v4 o c 6 (fun a b c => if sat then clamp32 u (dot4 u a b c) else BitVec.ofInt 32 (dot4 u a b c)) s
/-- Opcode 0x1B (R260, R249, R262). -/
def execVabs (o : V2) (sat : Bool) (s : State) : Out := v2 o 4 (vabsOp sat) s
def execVclz (o : V2) (s : State) : Out := v2 o 4 clz s
def execVpopc (o : V2) (s : State) : Out := v2 o 4 popc s
def execVbrev (o : V2) (s : State) : Out := v2 o 4 brev s
def execVbfe (o : V3) (u : Bool) (s : State) : Out :=
  v3 o 4 (fun a b => bfe u a (b.toNat % 32) (b.toNat / 2 ^ 8 % 2 ^ 6)) s
def execVbfi (o : V3) (c : BitVec 9) (s : State) : Out := v4 o c 4 bfi s
def execVpermb (o : V3) (c : BitVec 9) (s : State) : Out := v4 o c 4 permb s
/-- Write a thread predicate in each active lane (R250). -/
def pop (m : Mods) (p : BitVec 3) (L : Nat) (f : Ctx → Nat → Bool) (fl : Ctx → BitVec 5) (s : State) : Out :=
  let x := s.ctx m
  alu x L [.p p.toNat] [(.p p.toNat, x.act.map fun l => (l, boolD (f x l)))] (fl x)
/-- VCMP (R250). -/
def execVcmp (m : Mods) (p : BitVec 3) (a : BitVec 9) (b : BSrc) (c : Cond) (s : State) : Out :=
  pop m p 4 (fun x l => c.int (x.v a l) (x.b b l)) (fun _ => 0) s
def execVcmpImm (m : Mods) (p : BitVec 3) (a : BitVec 9) (i : Imm) (c : Cond) (s : State) : Out :=
  pop m p 4 (fun x l => c.int (x.v a l) (i.val.setWidth 32)) (fun _ => 0) s
/-- VMOVI, VMOVH (R252). -/
def execVmovi (m : Mods) (d : BitVec 9) (i : Imm) (s : State) : Out :=
  vop s m d 4 fun _ _ => i.val.setWidth 32
def execVmovh (m : Mods) (d : BitVec 9) (v : BitVec 24) (s : State) : Out :=
  vop s m d 4 fun x l => (x.v d l <<< 24) ||| v.setWidth 32

end Sys2Proof.Machine
end

