-- ==== Sys2Proof/Machine/Float.lean ====
section
/-!
DEFINITION. Vector floating point (R263 to R270) and the lane, MX and pack instructions (R271 to R279).
-/
namespace Sys2Proof.Machine

/-- A float operation lane by lane, with the flags of the active lanes (R244, R263). -/
def fop (m : Mods) (d : BitVec 9) (L : Nat) (f : Ctx → Nat → Nat × BitVec 5) (s : State) : Out :=
  let x := s.ctx m
  let rs := x.act.map fun l => (l, f x l)
  alu x L [.v d.toNat] [(.v d.toNat, rs.map fun e => (e.1, BitVec.ofNat 64 e.2.1))]
    (rs.foldl (fun a e => a ||| e.2.2) 0)
/-- The bits of a value of type t in a register lane (R243). -/
def low (t : Ty) (w : Word) : Nat := w.toNat % 2 ^ t.bits
def f3 (o : V3) (t : Ty) (f : Ctx → Nat → Nat → Nat → Nat × BitVec 5) (s : State) : Out :=
  fop o.m o.d 6 (fun x l => f x l (low t (x.v o.a l)) (low t (x.b o.b l))) s

/-- VFADD, VFSUB, VFMUL (R264). -/
def execVfadd (o : V3) (f : Fmt) (s : State) : Out :=
  f3 o f.ty (fun x l a b => fAdd f.ty f.rnd f.sat a b (x.srWord f l)) s
def execVfsub (o : V3) (f : Fmt) (s : State) : Out :=
  f3 o f.ty (fun x l a b => fSub f.ty f.rnd f.sat a b (x.srWord f l)) s
def execVfmul (o : V3) (f : Fmt) (s : State) : Out :=
  f3 o f.ty (fun x l a b => fMul f.ty f.rnd f.sat a b (x.srWord f l)) s
/-- VFMIN, VFMAX (R265). -/
def execVfmin (o : V3) (t : Ty) (s : State) : Out := f3 o t (fun _ _ a b => fMinMax t false a b) s
def execVfmax (o : V3) (t : Ty) (s : State) : Out := f3 o t (fun _ _ a b => fMinMax t true a b) s
/-- VFABS, VFNEG (R264): only the sign bit changes. -/
def execVfabs (o : V2) (t : Ty) (s : State) : Out :=
  fop o.m o.d 6 (fun x l => (low t (x.v o.a l) % 2 ^ (t.bits - 1), 0)) s
def execVfneg (o : V2) (t : Ty) (s : State) : Out :=
  fop o.m o.d 6 (fun x l => ((low t (x.v o.a l) + 2 ^ (t.bits - 1)) % 2 ^ t.bits, 0)) s
/-- The fused forms (R266). -/
def fused (o : V3) (c : BitVec 9) (f : Fmt) (negP negC : Bool) (s : State) : Out :=
  f3 o f.ty (fun x l a b => fFma f.ty f.rnd f.sat negP negC a b (low f.ty (x.v c l)) 0) s
def execVfma (o : V3) (c : BitVec 9) (f : Fmt) (s : State) : Out := fused o c f false false s
def execVfms (o : V3) (c : BitVec 9) (f : Fmt) (s : State) : Out := fused o c f false true s
def execVfnma (o : V3) (c : BitVec 9) (f : Fmt) (s : State) : Out := fused o c f true false s
/-- VFCMP (R250). -/
def execVfcmp (m : Mods) (p : BitVec 3) (a : BitVec 9) (b : BSrc) (t : Ty) (c : Cond) (s : State) : Out :=
  let r := fun x l => fCmp t c (low t (Ctx.v x a l)) (low t (Ctx.b x b l))
  pop m p 6 (fun x l => (r x l).1) (fun x => x.act.foldl (fun f l => f ||| (r x l).2) 0) s
/-- VFCLASS (R267). -/
def execVfclass (o : V2) (t : Ty) (s : State) : Out :=
  fop o.m o.d 6 (fun x l => (fClass t (low t (x.v o.a l)), 0)) s
/-- VFCVT (R268). -/
def execVfcvt (o : V2) (src : Ty) (f : Fmt) (s : State) : Out :=
  fop o.m o.d 6 (fun x l => tyRound f.ty f.rnd f.sat (tyNum src (low src (x.v o.a l))) (x.srWord f l)) s
/-- A value rounded to an integral value of its type (R268). -/
def fRound (t : Ty) (r : Rnd) (a : Nat) (u : Word) : Nat × BitVec 5 :=
  match tyNum t a with
  | .nan sg => (t.nan, flagIf sg fNV)
  | .inf _ => (a, 0)
  | .fin n m e =>
    let (k, inexact) := roundUnits r n m e 0 false u
    ((tyRound t .rne false (.fin n k 0) 0).1, flagIf inexact fNX)
def execVfrnd (o : V2) (f : Fmt) (s : State) : Out :=
  fop o.m o.d 6 (fun x l => fRound f.ty f.rnd (low f.ty (x.v o.a l)) (x.srWord f l)) s
/-- VFTOI (R268, R103). -/
def execVftoi (o : V2) (u : Bool) (f : Fmt) (s : State) : Out :=
  fop o.m o.d 6 (fun x l =>
    let r := toIntRange f.rnd (if u then 0 else -2 ^ 31) (if u then 2 ^ 32 - 1 else 2 ^ 31 - 1)
      (tyNum f.ty (low f.ty (x.v o.a l))) (x.srWord f l)
    ((BitVec.ofInt 32 r.1).toNat, r.2)) s
/-- VITOF (R268). -/
def execVitof (o : V2) (u : Bool) (f : Fmt) (s : State) : Out :=
  fop o.m o.d 6 (fun x l =>
    let v := valOf u (x.v o.a l)
    tyRound f.ty f.rnd false (.fin (v < 0) v.natAbs 0) (x.srWord f l)) s
/-- VFSCL (R264). -/
def execVfscl (o : V3) (f : Fmt) (s : State) : Out :=
  fop o.m o.d 6 (fun x l =>
    let a := tyNum f.ty (low f.ty (x.v o.a l))
    finishArith f.ty f.rnd f.sat a.sig (a.scale (x.b o.b l).toInt, false) (x.srWord f l)) s
/-- The transcendentals (R269, R270). -/
def trans (o : V2) (f : Word → Nat × BitVec 5) (s : State) : Out :=
  fop o.m o.d 18 (fun x l => f (x.v o.a l)) s
def execVrcp (o : V2) (s : State) : Out := trans o fRcp s
def execVrsq (o : V2) (s : State) : Out := trans o fRsq s
def execVsqrt (o : V2) (f : Fmt) (s : State) : Out := trans o (fSqrt f.rnd) s
def execVexp2 (o : V2) (s : State) : Out := trans o fExp2 s
def execVlog2 (o : V2) (s : State) : Out := trans o fLog2 s
def execVsin (o : V2) (s : State) : Out := trans o (fTrig 5) s
def execVcos (o : V2) (s : State) : Out := trans o (fTrig 6) s
def execVtanh (o : V2) (s : State) : Out := trans o fTanh s

/-! ### Lane instructions: sources of every lane stand as at the first pass (R271) -/

/-- Source lane of VSHFL (R272), or the lane itself when it is out of range. -/
def shflSrc (mode : BitVec 2) (W lane b : Nat) : Nat :=
  let src : Int := match mode.toNat with
    | 0 => b
    | 1 => (lane ^^^ b : Nat)
    | 2 => (lane : Int) - b
    | _ => lane + b
  if 0 ≤ src ∧ src < W then src.toNat else lane
/-- VSHFL (R272). -/
def execVshfl (o : V3) (mode : BitVec 2) (s : State) : Out :=
  vop s o.m o.d 8 fun x l =>
    let b := match o.b with
      | .vec r => (x.me.v x.t r.toNat l).toNat
      | .sca r => (x.c.sreg x.t r.toNat).toNat
    x.me.v x.t o.a.toNat (shflSrc mode x.c.width l b)
/-- VBCAST (R273). -/
def execVbcast (o : V2) (n : LaneSrc) (s : State) : Out :=
  vop s o.m o.d 8 fun x _ =>
    let k := match n with
      | .const k => k.toNat
      | .sca r => (x.c.sreg x.t r.toNat).toNat % 128
    x.me.v x.t o.a.toNat (k % x.c.width)
/-- VBALLOT (R274). -/
def execVballot (m : Mods) (d : BitVec 9) (p : BitVec 3) (g : BitVec 2) (s : State) : Out :=
  vop s m d 8 fun x _ =>
    BitVec.ofNat 32 ((x.act.filter fun l => l / 32 == g.toNat && x.me.p x.t p.toNat l).foldl
      (fun a l => a + 2 ^ (l % 32)) 0)
/-- VVOTE (R275). -/
def execVvote (m : Mods) (d p : BitVec 3) (mode : BitVec 2) (s : State) : Out :=
  pop m d 8 (fun x _ =>
    let vs := x.act.map fun l => x.me.p x.t p.toNat l
    match mode.toNat with
    | 0 => vs.all id
    | 1 => vs.any id
    | _ => vs.all id || vs.all not) (fun _ => 0) s

/-- One level of the lane tree (R276): neighbours combined. -/
def redPairs (f : Nat → Nat → Nat × BitVec 5) : List Nat → List Nat × BitVec 5
  | a :: b :: t =>
    let (r, fl) := f a b
    let (rs, fs) := redPairs f t
    (r :: rs, fl ||| fs)
  | l => (l, 0)
/-- The fixed tree, level by level. -/
def redTree (f : Nat → Nat → Nat × BitVec 5) : Nat → List Nat → BitVec 5 → Nat × BitVec 5
  | 0, l, fl => (nth l 0 0, fl)
  | n + 1, l, fl => let (l', g) := redPairs f l; redTree f n l' (fl ||| g)
/-- Identity and step of an operation (R276). -/
def redIdent : RedOp → Nat
  | .add | .or | .xor => 0
  | .min u => if u then 0xFFFFFFFF else 0x7FFFFFFF
  | .max u => if u then 0 else 0x80000000
  | .and => 0xFFFFFFFF
  | .fadd _ => 0x80000000
  | .fmin => 0x7F800000
  | .fmax => 0xFF800000
def redStep (op : RedOp) (a b : Nat) : Nat × BitVec 5 :=
  let x := w32 a
  let y := w32 b
  match op with
  | .add => ((x + y).toNat, 0)
  | .min u => ((if u then minU x y else minS x y).toNat, 0)
  | .max u => ((if u then maxU x y else maxS x y).toNat, 0)
  | .and => ((x &&& y).toNat, 0)
  | .or => ((x ||| y).toNat, 0)
  | .xor => ((x ^^^ y).toNat, 0)
  | .fadd r => fAdd .f32 r false a b 0
  | .fmin => fMinMax .f32 false a b
  | .fmax => fMinMax .f32 true a b
/-- VREDX (R276): latency by warp width (R246). -/
def execVredx (o : V2) (op : RedOp) (s : State) : Out :=
  let x := s.ctx o.m
  let W := x.c.width
  let vs := (List.range W).map fun l =>
    if x.act.contains l then (x.me.v x.t o.a.toNat l).toNat else redIdent op
  let (r, fl) := redTree (redStep op) (if W = 32 then 5 else if W = 64 then 6 else 7) vs 0
  alu x (if W = 32 then 20 else if W = 64 then 22 else 24) [.v o.d.toNat]
    [(.v o.d.toNat, x.act.map fun l => (l, BitVec.ofNat 64 r))] (if x.act.isEmpty then 0 else fl)

/-- VMXQ (R277): each pass is one block; inactive lanes enter as +0. -/
def execVmxq (o : V2) (f : Fmt) (s : State) : Out :=
  let x := s.ctx o.m
  let blocks := (List.range (x.c.passes x.w.n)).map fun k =>
    (k, mxQuantise f.ty f.rnd ((List.range 32).map fun i =>
      let l := 32 * k + i
      (if x.act.contains l then tyNum .f32 (x.v o.a l).toNat else .fin false 0 0, x.srWord f l)))
  let at_ := fun l => nth blocks (l / 32) (0, 0, [], 0)
  alu x 12 [.v o.d.toNat]
    [(.v o.d.toNat, x.act.map fun l =>
      (l, BitVec.ofNat 64 (nth (at_ l).2.2.1 (l % 32) 0 + 256 * (at_ l).2.1)))]
    (blocks.foldl (fun a b =>
      if x.act.any (fun l => l / 32 == b.1) then a ||| b.2.2.2 else a) 0)
/-- VMXDQ (R278). -/
def execVmxdq (o : V2) (f : Fmt) (s : State) : Out :=
  fop o.m o.d 6 (fun x l =>
    let a := (x.v o.a l).toNat
    let v := if f.ty.isMx then mxValue f.ty (a % 2 ^ f.ty.bits) (a / 256 % 256)
      else tyNum f.ty (a % 2 ^ f.ty.bits)
    finishArith .f32 f.rnd f.sat v.sig (v, false) (x.srWord f l)) s
/-- VPACK (R279). -/
def execVpack (o : V2) (t : Ty) (unp : Bool) (s : State) : Out :=
  vop s o.m o.d 8 fun x l =>
    let w := t.bits
    let k := l / 32 * 32
    let src := fun i => (x.me.v x.t o.a.toNat (k + i)).toNat
    if unp then
      let str := packNat 32 ((List.range w).map src)
      BitVec.ofNat 32 (str / 2 ^ (w * (l % 32)) % 2 ^ w)
    else
      let str := packNat w ((List.range 32).map fun i => if x.act.contains (k + i) then src i else 0)
      if l % 32 < w then BitVec.ofNat 32 (str / 2 ^ (32 * (l % 32)) % 2 ^ 32) else 0

end Sys2Proof.Machine
end

