-- ==== Sys2Proof/Machine/Host.lean ====
section
/-!
DEFINITION. The host link and boot: mailboxes, resets, the thermal trip, configuration records, measurement and
attestation (R171, R449 to R459).
-/
namespace Sys2Proof.Machine

/-! ### Records, measurement and boot (R456 to R458) -/

/-- Whether the signature of a record of some kind holds: the device's own does on the kinds that it signs. -/
def recOk (kind : Nat) (r : List Byte) : Bool :=
  ((kind == 3 || kind == 4) && recSig r == ownSig (recSigned r)) || Config.mldsaVerify (sha3 (recSigned r)) (recSig r)
/-- Extend M with an item (R458). -/
def extendM (m : BitVec 512) (d : List Byte) : BitVec 512 := BitVec.ofNat 512 (leNat (sha3 (toBytes 64 m.toNat ++ sha3 d)))
/-- The records present, by kind; one written by CFGWR takes the place of the kind 5 record here (R459). -/
def bootRecords (cfg : List (Nat × List Byte)) : List (Nat × List Byte) :=
  let cfg := match assoc cfg 0x105 with
    | some r => assocSet (assocDel cfg 0x105) 5 r
    | none => cfg
  (List.range 6).filterMap fun k => (assoc cfg k).map fun r => (k, r)
/-- The limits of the root domain: the whole device (R376). -/
def rootDcb : List DWord :=
  [BitVec.ofNat 64 (1 + 1 * 4 + 0 * 16 + 3 * 2 ^ 9), 0, 4096, BitVec.ofNat 64 (4096 * 2560), BitVec.ofNat 64 (126 * 2 ^ 21),
    65536, 4096, BitVec.ofNat 64 (0x10000 + 0x2000 * 2 ^ 27), BitVec.ofNat 64 (16384 + ownHbm 0xBC00000000)]
/-- Remap entries of the kind 3 record: 16-bit stack, 16-bit entry and 32-bit word, after kind and length (log 8). -/
def remapOf (r : List Byte) : List (Nat × Nat × DWord) :=
  let body := (recSigned r).drop 8
  (List.range (body.length / 8)).map fun k =>
    let b := fun o n => leNat ((body.drop (8 * k + o)).take n)
    (b 0 2, b 2 2, BitVec.ofNat 64 (b 4 4))
/-- Stacks as training leaves them: their remap tables, and nothing else. -/
def trainedStacks (cfg : List (Nat × List Byte)) : List (Nat × Stack) :=
  match assoc cfg 3 with
  | none => []
  | some r => (remapOf r).foldl (fun l e =>
      let st := (assoc l e.1).getD {}
      assocSet l e.1 { st with remap := assocSet st.remap e.2.1 e.2.2 }) []
/-- What boot tells firmware of remap entries whose row does not exist: stack, entry and word (R72). -/
def badRemaps (cfg : List (Nat × List Byte)) : List Rec :=
  match assoc cfg 3 with
  | none => []
  | some r => ((remapOf r).filter fun e => bit e.2.2 0 && decide (49151 < bits e.2.2 11 16)).map fun e =>
      [BitVec.ofNat 64 e.1, BitVec.ofNat 64 e.2.1, e.2.2]
/-- The core map of every cluster with fenced positions mapped out, lowest spare first (R171, R172). -/
def bootMaps (health : List (Nat × Nat)) : List Cluster :=
  ((health.map (·.1)).eraseDups).map fun cl =>
    let out := (health.filter fun h => h.1 == cl).map (·.2)
    let spares := [64, 65].filter fun p => !out.contains p
    let cores := sortBy (· ≤ ·) (out.filter fun p => decide (p < 64))
    { cl := cl, cmap := { fenced := out, phys := (cores.zip (List.range cores.length)).map fun e => (e.1, nth spares e.2 0x7F) } }
/-- The machine after a fundamental reset, once the ROM has booted (R451, R452, R456): TICK counts from 0. The
memory in the switches and the host's stays, with the switches' poison, replay filters and controllers, and so does the
configuration store. The patrol of the stacks begins (R69), and the loss of a switch shows again (R90). -/
def booted (s : State) : State :=
  let rs := bootRecords s.fw.cfg
  let good := rs.takeWhile fun e => recOk e.1 e.2
  let m := good.foldl (fun m e => extendM m e.2) (extendM 0 (toBytes 4 Config.romWord.toNat))
  let ok := good.length == rs.length
  let base : State := {
    mem := s.mem.filter fun e => decide (keyOrch 0 ≤ e.1) && decide (e.1 < keySp 0 0 0)
    stamps := [], freeCnt := s.freeCnt
    net := { filter := s.net.filter, opsn := s.net.opsn, failed := s.net.failed, dram := s.net.dram }
    fw := { boot := if ok then 6 else 3, meas := m, cfg := rs, health := s.fw.health, extVer := s.fw.extVer
            alarms := s.fw.alarms, degraded := s.fw.degraded } }
  if !ok then base
  else
    let s : State := { base with
      chip := { psnbase := BitVec.ofNat 64 (ownHbm 0xBE01000000), hbm := trainedStacks rs, clusters := bootMaps s.fw.health }
      fw := { base.fw with doms := [⟨0, none, rootDcb, [], false, false⟩], logs := badRemaps rs } }
    let (_, s) := rootOf (writeDcb s 0) 0
    let s := (List.range 18).foldl (fun s n => s.sched 4096 (obj n) (.slackWindow 0)) s
    let s := s.net.failed.foldl (fun s sw =>
      let (d, s) := s.free 400
      s.sched d (obj (2 + sw)) .switchFailure) s
    s.sched (2 ^ 32) (obj 0) .errorCountDecay
/-- DEVICE_RESET (R451, R456). -/
def execDeviceReset (s : State) : Out := .next (booted s)

/-! ### The mailbox (R449, R450) -/

/-- A write to MBCMD (R450): while BUSY is set it is ignored and sets OVR; else it submits function cur.n's command
with the arguments that MBARG holds. -/
def execMbcmdWriteWhileBusy (v : DWord) (s : State) : Out :=
  let fn := s.cur.n
  let m := s.mbox fn
  if m.busy then .next (s.setMbox { m with ovr := true })
  else .next (submitCmd (s.setMbox { m with busy := true, cmd := bits v 0 8 }) ⟨.mbox fn, bits v 0 8, m.args⟩)
/-- MBSTAT as a read returns it. -/
def MBox.stat (m : MBox) : DWord := BitVec.ofNat 64 (b2n m.busy + 2 * b2n m.ovr)
/-- MBSTAT_READ (R450): a read clears OVR. -/
def execMbstatRead (s : State) : Out := .next (s.setMbox { s.mbox s.cur.n with ovr := false })

/-! ### Resets and alarms (R451, R455) -/

/-- A later part of freeing an Orchard allocation of a function that was reset (R85, R451): part 1 when the invalidation has
completed, part 2 4,000 ticks later, when its space and charge go back. -/
def dropAlloc (s : State) (part fn va : Nat) : State :=
  if part = 1 then s.sched (s.tick + 4000) ⟨2, fn, va⟩ .functionLevelReset
  else match s.fw.allocs.find? fun a => a.va == va && domTenant s a.dom == fn with
    | none => s
    | some a =>
      let s := refund s a.dom .orch (a.size / 2 ^ 15 * (if a.mir then 2 else 1))
      { s with fw := { s.fw with allocs := s.fw.allocs.filter fun y => y.va != a.va || y.dom != a.dom } }
/-- FUNCTION_LEVEL_RESET (R85, R451): VF cur.n: the grids of its domains end with RSTAT 10; its queues, Sloe slots,
Orchard allocations and domains other than its root go. An allocation belongs to the root while it is being freed, in the
parts that cur.cl tells. -/
def execFunctionLevelReset (s : State) : Out :=
  let fn := s.cur.n
  if s.cur.cl ≠ 0 then .next (dropAlloc s s.cur.cl s.cur.co fn)
  else if fn = 0 then .next s
  else
    let mine := fun d => domTenant s d == fn
    let s := (s.fw.grids.filter fun g => mine g.dom).foldl (fun s g => endGrid s g.id 10 []) s
    let s := (s.fw.queues.filter fun q => q.id / 64 == fn).foldl (fun s q => refund s q.dom .queues 1) s
    let s := { s with fw := { s.fw with queues := s.fw.queues.filter fun q => q.id / 64 != fn } }
    let gone := s.chip.slots.filter fun x => bit (x.2.d 0) 0 && mine x.2.dom
    let s := gone.foldl (fun s x => refund s x.2.dom .sloe 1) s
    let s := s.updChip fun h => { h with slots := h.slots.filter fun x => !(bit (x.2.d 0) 0 && mine x.2.dom) }
    let root := fnRoot s fn
    let s := (s.fw.allocs.filter fun a => mine a.dom).foldl (fun s a =>
      orchUnmap s [(⟨1, fn, a.va⟩, .functionLevelReset)] a) s
    let moved := s.fw.allocs.map fun a => if mine a.dom then { a with dom := root.getD a.dom } else a
    let s := { s with fw := { s.fw with allocs := moved } }
    .next { s with fw := { s.fw with
      doms := s.fw.doms.filter fun d => !(mine d.id) || some d.id == root
      mbox := s.fw.mbox.filter fun m => m.fn != fn } }
/-- THERMAL_TRIP (R455): every grid ends with RSTAT 10, and module power goes. -/
def execThermalTrip (s : State) : Out :=
  let s := s.fw.grids.foldl (fun s g => endGrid s g.id 10 []) (noteAlarm s 4 0)
  .next { s with powered := false }

/-! ### Boot and attestation commands (R457 to R459) -/

/-- Key of a host bus address, whose bits 63:52 are zero (R14). -/
def busKey (a : DWord) : Nat := keyHost (bits a 0 52)
/-- Write bytes to the host's memory at a bus address, and read them. -/
def toHost (s : State) (a : DWord) (bs : List Byte) : State := s.setBytes (busKey a) bs
def fromHost (s : State) (a : DWord) (n : Nat) : List Byte := s.bytes (busKey a) n
/-- ATTEST (R459): a quote at the host bus address of MBARG's last dword. -/
def execAttest (s : State) : Out := withCmd s fun c s =>
  match c.src with
  | .sys _ => refuseCmd s 1
  | .mbox fn =>
    if c.arg 6 ≠ 0 ∨ (c.arg 7).toNat % 64 ≠ 0 then refuseCmd s 2
    else
      let body := toBytes 64 s.fw.meas.toNat ++ dwBytes ((List.range 6).map c.arg) ++
        toBytes 8 (fn % 64 + Config.romWord.toNat * 2 ^ 16) ++ (assoc s.fw.cfg 1).getD []
      let quote := body ++ Config.mldsaSign (sha3 body)
      doneCmd (toHost s (c.arg 7) quote) quote.length
/-- EXTLOAD (R459): host address and length of an image: its 32-bit version first, its signature last. -/
def execExtload (s : State) : Out := withCmd s fun c s =>
  if !c.pf then refuseCmd s 1
  else
    let im := fromHost s (c.arg 0) (c.arg 1).toNat
    let ver := leNat (im.take 4)
    match assoc s.fw.cfg 5 with
    | none => refuseCmd s 2
    | some owner =>
      if im.length < sigBytes + 4 ∨ ver < s.fw.extVer ∨ !Config.mldsaVerify (sha3 (owner ++ recSigned im)) (recSig im) then
        refuseCmd s 2
      else doneCmd { s with fw := { s.fw with meas := extendM s.fw.meas im, extVer := ver } }
/-- CFGRD (R459): kind, and the host address that the record goes to. -/
def execCfgrd (s : State) : Out := withCmd s fun c s =>
  if !c.pf then refuseCmd s 1
  else match assoc s.fw.cfg (c.arg 0).toNat with
    | some r => if (c.arg 0).toNat < 6 then doneCmd (toHost s (c.arg 1) r) r.length else refuseCmd s 2
    | none => refuseCmd s 2
/-- CFGWR (R459): host address and length of a kind 5 record, which the next reset takes up. -/
def execCfgwr (s : State) : Out := withCmd s fun c s =>
  if !c.pf then refuseCmd s 1
  else
    let r := fromHost s (c.arg 0) (c.arg 1).toNat
    if r.headD 0 ≠ 5 then refuseCmd s 2
    else doneCmd { s with fw := { s.fw with cfg := assocSet s.fw.cfg 0x105 r } }
/-- The health record's body: degraded stacks, fenced cores, alarms (R457). -/
def healthBytes (s : State) : List Byte :=
  dwBytes ((s.fw.degraded.map fun n => BitVec.ofNat 64 (1 + n * 2 ^ 8)) ++
    (s.fw.health.map fun h => BitVec.ofNat 64 (2 + h.1 * 2 ^ 8 + h.2 * 2 ^ 16)) ++
    (s.fw.alarms.map fun a => [BitVec.ofNat 64 (3 + a.1 * 2 ^ 8), dw a.2]).flatten)
/-- HEALTHRD (R459): to the host address of dword 0. -/
def execHealthrd (s : State) : Out := withCmd s fun c s =>
  if !c.pf then refuseCmd s 1
  else doneCmd (toHost s (c.arg 0) (healthBytes s)) (healthBytes s).length

end Sys2Proof.Machine
end

