-- ==== Sys2Proof/Machine/Issue.lean ====
section
/-!
DEFINITION. Issue: the turns of the warp slots, clause headers with their waits, the fetch of an instruction, which
party of the chip acts next, and the passing of a tick (R42, R52, R153 to R159, R162, R210 to R214, R436).
-/
namespace Sys2Proof.Machine

/-! ### What an issuer waits for (R31, R156, R157, R162) -/

/-- What an elastic issuer waits for when it still lacks a reply at its bound (R31): the reply, or the tick at which one that
has come becomes visible. -/
def lateReply (s : State) (w : Iss) : Option Wait :=
  if (s.coreOf w).elastic then
    match s.chip.reqs.find? fun q =>
      q.w == w && (q.kind == .load || q.kind == .atom) && (q.space == 0 || q.space == 2) && decide (q.bound ≤ s.tick) with
    | some q => some (.reply q.id)
    | none => match (s.iss w).late with
      | some (lo, hi) => if lo ≤ s.tick ∧ s.tick < hi then some (.until_ hi) else none
      | none => none
  else none
/-- Whether what an issuer waits for has come. -/
def waitOver (s : State) (w : Iss) : Bool :=
  let me := s.iss w
  let marked := !me.mark || quiet s w
  match me.wait with
  | .run | .retry => true
  | .marker | .trapf => quiet s w
  | .until_ t => decide (t ≤ s.tick) && marked
  | .reply id => !(s.chip.reqs.any fun q => q.id == id)
  | .fence sc a r => !(fenceWaits s w sc a r) && marked
  | .inv id => !(s.chip.invs.any fun v => v.id == id)
  | .dqpop .. | .block .. | .fault | .stopped | .ended => false
/-- Whether pre-emption holds an issuer at its blocking point (R207, R416). -/
def heldBack (s : State) (w : Iss) : Bool := (s.coreOf w).parked.contains w.n
/-- Whether an issuer's discarded regions stand back until the reply to an atomic that it sends again (R188). -/
def standsBack (me : Issuer) : Bool := me.redo.isSome && (match me.retry with | some r => r.again | none => false)
/-- Whether an issuer may go on with the instruction at its PC. -/
def issuerReady (s : State) (w : Iss) : Bool :=
  (s.iss w).wait == .run && (s.iss w).redo.isNone && !heldBack s w && (lateReply s w).isNone

/-! ### Clause headers (R153, R210 to R214) -/

/-- Whether an issuer may run a clause class (R153). -/
def classOk (front : Bool) (cls : Nat) : Bool :=
  if front then cls == 0 || cls == 2 || cls == 3 || cls == 4 || cls == 6
  else cls == 1 || cls == 2 || cls == 4 || cls == 5 || cls == 6
/-- The cause of R228 that entering a PC's clause meets, and the PC that its trap names. -/
def headerFault (s : State) (c : Core) (front : Bool) (pc : Nat) : Option (Nat × Nat) :=
  let off := pcHeader pc
  let h := s.header c.cl pc
  let top := pc / 16 * 16
  if !clauseAt s c (c.imgSize / 16 + 1) c.imgBase off then some (4, pc)
  else if bits h 56 8 ≠ 0xC5 then some (1, top)
  else if bits h 48 8 ≠ 0 ∨ 6 < hdrCls h then some (2, top)
  else if !classOk front (hdrCls h) then some (3, top)
  else if c.imgBase + c.imgSize < off + 8 * (hdrCnt h + 2) then some (4, top)
  else if hdrCnt h < pc % 16 then some (4, pc)
  else none
/-- A header's fault is taken: the record holds the header word (R405). -/
def headerTrap (x : Ctx) (cause pc : Nat) : State :=
  raiseAs { x with pc := pc } { cls := 0x01, sub := cause, d0 := x.s.header x.w.cl pc }

/-- How the waits of a header stand: met, unmet, or a fault taken. -/
inductive HdrWait where
  | met | unmet (s : State) | fault (s : State)

/-- The handle waits of a header from handle k up (R213): an absent window is touched, one that is not full is
waited for. -/
def handleWaits (x : Ctx) (hwm : Nat) : Nat → State → Bool → HdrWait
  | 0, s, ok => if ok then .met else .unmet s
  | n + 1, s, ok =>
    let k := 15 - n
    if hwm / 2 ^ k % 2 = 0 then handleWaits x hwm n s ok
    else if x.front && defPending x.me k x.t then handleWaits x hwm n s false
    else match nth x.c.handles k .unbound with
      | .unbound => .fault (headerTrap { x with s := s } 14 x.pc)
      | .refused r im => .fault (raiseAs { x with s := s } { cls := 0x0B, sub := r, d0 := BitVec.ofNat 64 r, d1 := nth im 0 0 })
      | .idx j =>
        let e := x.c.win j
        if !e.v then .fault (headerTrap { x with s := s } 14 x.pc)
        else match e.state, e.fault with
          | .faulted, some r => .fault (winFault { x with s := s } j r)
          | .full, _ => handleWaits x hwm n s ok
          | .absent, _ =>
            let s' := touch s x.w j (x.toucher (.wtouch ⟨false, 0, false⟩ (BitVec.ofNat 4 k)) j)
            if x.stands s' then handleWaits x hwm n s' false
            else .fault (turnOver x s')
          | _, _ => handleWaits x hwm n s false
/-- Whether a header names a phaser slot that is unbound or signal-only (R213). -/
def slotsBad (me : Issuer) (qwm : Nat) : Bool :=
  (List.range 16).any fun q => qwm / 2 ^ q % 2 == 1 &&
    (match me.phs.find? fun b => b.1 == q with
     | some (_, _, m) => m == .sig
     | none => true)
/-- Whether every phase that a header awaits has completed. -/
def slotsReady (s : State) (w : Iss) (me : Issuer) (qwm : Nat) : Bool :=
  (List.range 16).all fun q => qwm / 2 ^ q % 2 == 0 ||
    (match me.phs.find? fun b => b.1 == q with
     | some (_, n, _) => phHeaderReady s w q n
     | none => false)
/-- What the phases that a header awaited bring (R123, R213): the accesses that happen before them, and no bit of the
synced-with mask. -/
def headerEdges (s : State) (w : Iss) (me : Issuer) (qwm : Nat) : State :=
  (me.phs.filter fun b => qwm / 2 ^ b.1 % 2 == 1).foldl (fun s b =>
    match (s.phaser b.2.1).member w b.1 false with
    | some m => if m.v < (s.phaser b.2.1).phase then acquire s w ((s.phaser b.2.1).before m.v) else s
    | none => s) s
/-- The waits of a header (R213). -/
def headerWaits (x : Ctx) : HdrWait :=
  let h := x.s.header x.w.cl x.pc
  let qwm := bits h 24 16
  match handleWaits x (bits h 8 16) 16 x.s true with
  | .fault s => .fault s
  | .unmet s => if slotsBad x.me qwm then .fault (headerTrap { x with s := s } 15 x.pc) else .unmet s
  | .met =>
    if slotsBad x.me qwm then .fault (headerTrap x 15 x.pc)
    else if slotsReady x.s x.w x.me qwm then .met else .unmet x.s

/-! ### Turns (R154 to R157) -/

/-- One bubble tick: the slot's turn is over; the front thread looks again in the next tick. -/
def bubble (s : State) (w : Iss) : State :=
  if w.n = 16 then s.updIss w fun me => { me with nextAt := s.tick + 1 }
  else (s.count 2 w 1).updCore w.cl w.co fun c => c.endTurn (s.tick + 1)
/-- Begin to issue from the clause at the issuer's PC, when its header allows. -/
def enterClause (s : State) (w : Iss) : State :=
  let s := s.updIss w fun me => { me with wait := .run, mark := false }
  let x := s.ctx ⟨false, 0, false⟩
  if x.sel.isEmpty then bubble s w
  else match headerFault s x.c x.front x.pc with
    | some (k, pc) => headerTrap x k pc
    | none =>
      let go := fun (s : State) (d : Nat) =>
        (s.updIss w fun me => { me with entered := true, delay := d }).updCore w.cl w.co fun c =>
          if w.n = 16 then c else { c with inTurn := true }
      if x.pc % 16 = 0 then
        match headerWaits x with
        | .met => go (headerEdges s w x.me (bits (s.header w.cl x.pc) 24 16)) (bits (s.header w.cl x.pc) 40 8)
        | .unmet s => bubble s w
        | .fault s => s
      else go s 0
/-- A blocking point whose regions are all gone begins its wait. -/
def startIfDue (s : State) (w : Iss) : State :=
  match (s.iss w).wait, (s.iss w).regions with
  | .block _ .commit .., [] => startWait s w
  | _, _ => s
/-- ISSUE_TURN (R155, R156, R157): a slot's turn begins, or ends when its issuer can no longer go on. A slot that is
empty, parked or waiting in a header spends one bubble tick. -/
def execIssueTurn (s : State) : Out :=
  let w := s.cur
  if w.n ≠ 16 ∧ (s.coreOf w).inTurn then .next (s.updCore w.cl w.co fun c => c.endTurn s.tick)
  else if heldBack s w || standsBack (s.iss w) then .next (bubble s w)
  else
    let s := startIfDue s w
    let c := s.coreOf w
    let me := s.iss w
    match me.wait, lateReply s w with
    | .dqpop .., _ =>
      if (c.iss 16).wait = .ended ∧ c.dq.length ≤ me.dqpos - c.dqBase then
        .next (raise (s.ctx ⟨false, 0, false⟩) { cls := 0x0F })
      else .next (bubble s w)
    | .run, some v => .next (bubble (s.updIss w fun me => { me with wait := v }) w)
    | _, _ => if waitOver s w then .next (enterClause s w) else .next (bubble s w)

/-! ### Fetch -/

/-- Whether a word names a code target: the branches with an offset, CALL, LOOP and MEET (R219). -/
def namesTarget (w : DWord) : Bool :=
  match fOp w with
  | 0x10 => fFn w == 0 || fFn w == 1 || fFn w == 2 || fFn w == 5
  | 0x11 | 0x6B => fFn w == 0
  | _ => false
/-- Whether a RET or JMPI finds in its register a PC that it must not name (R214, R255): RET may name any index. -/
def regTargetBad (s : State) (c : Core) (w : DWord) : Bool :=
  fOp w == 0x10 && (fFn w == 3 || fFn w == 4) && decide (fD w < 256) &&
    (let v := c.sreg s.tick (fD w)
     bits v 23 41 != 0 || !(s.pcOk c (bits v 0 23) (fFn w == 3)))
/-- What the checks of R228 see of an issuer at a PC. -/
def issueEnv (s : State) (w : Iss) (pc : Nat) : Env :=
  let c := s.coreOf w
  let word := s.instWord w.cl pc
  { front := w.n == 16, cls := hdrCls (s.header w.cl pc), nreg := c.nreg, tiles := 4 * c.acc, bpc := c.bpc
    handler := bit (c.iss w.n).trapvec 48, boundary := c.boundary, elastic := c.elastic
    targetBad := (namesTarget word && !(s.pcOk c (offsPc pc (BitVec.ofNat 32 (fld word 0 32))) false)) ||
      (w.n == 16 && regTargetBad s c word) }
/-- PC of the issuer's selected set. -/
def issuePc (s : State) (w : Iss) : Nat :=
  let me := s.iss w
  me.pcOf (nth (me.selected ((s.coreOf w).lanes w.n)) 0 0)
/-- The instruction at an issuer's PC, or the cause for which its word is refused. -/
def fetchInstr (s : State) (w : Iss) : Except Nat Instr :=
  decode (issueEnv s w (issuePc s w)) (s.instWord w.cl (issuePc s w))
/-- The state in which an instruction of the issuer runs: it always has an open region (R175), but for the RGN or
the blocking load that opens its discarded region again. -/
def beginInstr (s : State) (w : Iss) (i : Instr) : State :=
  let s := { s with cur := w }
  match i, (s.iss w).openRegion with
  | .rgn .., _ | .ld .., _ | _, some _ => s
  | _, none => openRegion s w ((s.iss w).rnum + 1) 0 .block (s.iss w).pcs
/-- Count the passes of an instruction that issued (R439). -/
def countPasses (s : State) (w : Iss) : State :=
  match (s.iss w).wait with
  | .retry | .trapf | .dqpop .. | .fault => s
  | _ => s.count 1 w ((s.coreOf w).passes w.n)

/-! ### Who acts next (R42, R52) -/

/-- The place of a happening in the order of one tick: landings (among them the rows of an epilogue and the outputs of CMPRS,
R329, R336), the engines' own completions and all else, presentations with the instructions, starts of stream commands. -/
def rankOf : Instr → Nat
  | .windowLanding _ | .copySectorLanding _ | .collectiveReceive .. | .flitReceive _ | .epilogueRow | .gatherComplete => 0
  | .regionCommit | .heldEffectPresentation | .atomicRetry => 2
  | .streamCommandStart => 3
  | _ => 1
/-- The core that issued what lands (R42): the producer of a delivery between cores, else the window's own core or the
engine's; what comes from outside the cluster lands after those. -/
def landCore (o : Iss) : Instr → Nat
  | .windowLanding d => if d.kind = 1 then d.pid % 64 else if d.kind = 0 then d.co % 64 else 64
  | .copySectorLanding _ | .epilogueRow | .gatherComplete => o.co % 64
  | _ => 64
/-- Place of a party in the order of one tick; the issue of an issuer follows its presentations. -/
def actKey (rank : Nat) (w : Iss) (issue : Bool) : Nat :=
  if rank = 2 then 2 * 2 ^ 40 + (w.cl % 64 * 2 ^ 16 + w.co % 64 * 2 ^ 8 + w.n % 32) * 2 + b2n issue else rank * 2 ^ 40
/-- What happens next: a happening from outside, one that the machine has set (by its place in the agenda), a
re-entry, an atomic that is sent again, a turn, an instruction, or nothing in this tick. -/
inductive Act where
  | inbox (e : Nat × Iss × Instr) (rest : List (Nat × Iss × Instr))
  | agenda (k : Nat) (o : Iss) (i : Instr)
  | reentry (w : Iss)
  | retry (w : Iss)
  | turn (w : Iss)
  | instr (w : Iss)
  | idle
  deriving DecidableEq, Repr

/-- Whether a happening may take place now: it is due, and on a frozen chip it was due at the freeze tick or is
work of an outside party (R436). -/
def dueNow (s : State) (e : Nat × Iss × Instr) : Bool :=
  decide (e.1 ≤ s.tick) &&
    match s.frozen with
    | none => true
    | some f => outside e.2.2 || (decide (e.1 ≤ f) && !(e.2.2 == .flitSend))
/-- The first due happening of the agenda in the order of the tick: its key, place, object and self. -/
def agendaBest (s : State) : Nat → List (Nat × Iss × Instr) → Option (Nat × Act) → Option (Nat × Act)
  | _, [], b => b
  | k, e :: t, b =>
    if dueNow s e then
      let rank := rankOf e.2.2
      let key := if rank = 0 then landCore e.2.1 e.2.2 else actKey rank e.2.1 false
      match b with
      | some (kb, _) => agendaBest s (k + 1) t (if key < kb then some (key, .agenda k e.2.1 e.2.2) else b)
      | none => agendaBest s (k + 1) t (some (key, .agenda k e.2.1 e.2.2))
    else agendaBest s (k + 1) t b
/-- What a core's warp slots do in this tick. -/
def warpAct (s : State) (c : Core) : Option (Nat × Act) :=
  let w : Iss := ⟨c.cl, c.co, c.rotSlot⟩
  let me := c.iss c.rotSlot
  if s.tick < c.rotAt then none
  else
    some (actKey 2 w true,
      if c.inTurn then (if issuerReady s w then .instr w else .turn w)
      else if retryDue s w then .retry w
      else if me.redo.isSome && me.wait == .run && !heldBack s w && !standsBack me then .reentry w
      else .turn w)
/-- What a core's front thread does in this tick. Its scalar instructions come first in a tick: each pass of a warp reads
their results as visible at the pass's tick (R159, R225). -/
def frontAct (s : State) (c : Core) : Option (Nat × Act) :=
  let w : Iss := ⟨c.cl, c.co, 16⟩
  let me := c.iss 16
  let begins := match me.wait, me.regions with | .block _ .commit .., [] => true | _, _ => false
  let scalar := hdrCls (s.header c.cl (me.pcOf 0)) == 0
  if s.tick < me.nextAt then none
  else if retryDue s w then some (actKey 2 w true, .retry w)
  else if heldBack s w || standsBack me then none
  else if me.redo.isSome && me.wait == .run then some (actKey 2 w true, .reentry w)
  else if issuerReady s w && me.entered then some (if scalar then 2 * 2 ^ 40 else actKey 2 w true, .instr w)
  else if begins || waitOver s w then some (actKey 2 w true, .turn w)
  else none
/-- The earlier of two acts. -/
def earlier (a b : Option (Nat × Act)) : Option (Nat × Act) :=
  match a, b with
  | some x, some y => if y.1 < x.1 then b else a
  | none, b => b
  | a, none => a
/-- What the issuers of a chip do next in this tick. -/
def issueBest (s : State) : List Core → Option (Nat × Act) → Option (Nat × Act)
  | [], b => b
  | c :: t, b =>
    if !c.active || c.halt || s.skipped ⟨c.cl, c.co, 16⟩ then issueBest s t b
    else issueBest s t (earlier b (earlier (warpAct s c) (frontAct s c)))
/-- What happens next. -/
def nextAct (s : State) : Act :=
  match s.inbox.find? fun e => dueNow s e with
  | some e => .inbox e (s.inbox.erase e)
  | none =>
    let b := agendaBest s 0 s.agenda none
    match (if s.frozen.isSome then b else issueBest s s.cores b) with
    | some (_, a) => a
    | none => .idle

/-! ### The passing of a tick -/

/-- A core's rotation at the tick that ends: a turn under way pauses in a skipped tick (R158). -/
def pauseCore (s : State) (c : Core) : Core :=
  if s.skipped ⟨c.cl, c.co, 16⟩ ∧ s.tick < c.rotAt then { c with rotAt := c.rotAt + 1 } else c
/-- Whether an access of a strict grid has passed its bound unanswered and unreported (R31, R54, R62, R68, R76). -/
def overdue (s : State) (q : Req) : Bool :=
  !q.arrived && decide (q.bound ≤ s.tick) && (q.space == 0 || q.space == 2) && !(s.coreOf q.w).elastic &&
    (match q.kind with
     | .load | .atom | .store | .red | .drain | .send | .aos | .fill | .copyRd => true
     | .copyWr | .ring | .notify | .coll | .stamp => false)
/-- The schedule faults of accesses that are overdue: each names the stack, or the switch's DRAM, of a sector that is still
out, with the cause repeat overflow when it has been repeated (R68). -/
def reportLate (s : State) (qs : List Req) : State :=
  let s := qs.foldl (fun s q =>
    let k := q.sectors.headD 0
    let n := if q.space = 2 then 16 + swOf k else stackOf (k * 64 % 2 ^ 40)
    reportFaultOf s n (b2n ((s.stack n).repeats.any fun e => e.1 == q.id))) s
  s.updChip fun h => { h with reqs := h.reqs.map fun q => if qs.any (fun x => x.id == q.id) then { q with arrived := true } else q }
/-- The next tick begins, once this one has reported what is overdue. On a frozen chip nothing but TICK moves. -/
def nextTick (s : State) : State :=
  match s.frozen with
  | some _ => { s with tick := s.tick + 1 }
  | none =>
    match s.chip.reqs.filter (overdue s) with
    | [] =>
      let s := { s with cores := s.cores.map (pauseCore s) }
      (s.cores.foldl (fun s c => flushRind s c.cl c.co) s).settle (s.tick + 1)
    | qs => reportLate s qs

/-! ### What a step adds around exec -/

/-- After a happening: the waits that it may have ended are looked at. -/
def afterHappening : Out → Out
  | .next s => .next (pollAll s)
  | .fault r => .fault r
  | .refused r => .refused r
/-- After an instruction of an issuer: its passes are counted. -/
def afterInstr (w : Iss) : Out → Out
  | .next s => .next (countPasses s w)
  | .fault r => .fault r
  | .refused r => .refused r
/-- A word that the checks of R228 refuse takes the illegal-instruction trap. -/
def illegalWord (s : State) (w : Iss) (cause : Nat) : State :=
  raise (({ s with cur := w } : State).ctx ⟨false, 0, false⟩) { cls := 0x01, sub := cause }

/-! ### Placing one instruction where a step fetches it -/

/-- Whether a word is one for the front thread: its class or its rules name it alone. -/
def wantsFront (word : DWord) : Bool :=
  let cls := (opClass (fOp word)).getD 6
  cls == 0 || cls == 3 || (match decode (Env.wide false cls) word with | .ok _ => false | .error _ => true)
/-- A core whose warp 0 or front thread stands at the one instruction of its image: header and word at the
code-store offsets 0 and 8. -/
def placedCore (front handler : Bool) (t : Nat) : Core :=
  let act : DWord := if handler then BitVec.ofNat 64 (2 ^ 48) else 0
  { cl := 0, co := 0, active := true, partw := BitVec.ofNat 64 (8 + 32 * 2 ^ 16 + 32 * 2 ^ 24 + 2 ^ 32), imgSize := 16
    fv := true, boundary := true, rotAt := if front then t + 1 else t, inTurn := !front
    issuers := [
      { slot := 0, pcs := List.replicate 32 0, meets := List.replicate 32 0, trapvec := act, entered := true
        regions := [{ opened := t, lastVis := t }] },
      { slot := 16, pcs := [0], meets := [0], trapvec := act, entered := true, nextAt := if front then t else t + 1
        regions := [{ opened := t, lastVis := t }] }]
    blocks := [{}] }
/-- The state with one instruction word placed so that the next step runs it; nothing else happens before. -/
def placeWord (s : State) (word : DWord) : State :=
  let cls := (opClass (fOp word)).getD 6
  let hdr := BitVec.ofNat 64 (0xC5 * 2 ^ 56 + (if cls = 7 then 6 else cls) * 2 ^ 4)
  let s : State := { s with
    inbox := [], agenda := [], powered := true, frozen := none
    cores := [placedCore (wantsFront word) (fOp word == 0x7D && fFn word == 5) s.tick] }
  (s.setBytes (keyCode 0 0) (toBytes 8 hdr.toNat)).setBytes (keyCode 0 8) (toBytes 8 word.toNat)

end Sys2Proof.Machine
end

