-- ==== Sys2Proof/Machine/Dispatch.lean ====
section
/-!
DEFINITION. The dispatch of an instruction or happening to its meaning.
-/
namespace Sys2Proof.Machine

def exec (i : Instr) (s : State) : Host.Outcome State Fault Refusal :=
  match i with
  | .sadd o => Sys2Proof.Machine.execSadd o s
  | .ssub o => Sys2Proof.Machine.execSsub o s
  | .sand o => Sys2Proof.Machine.execSand o s
  | .sor o => Sys2Proof.Machine.execSor o s
  | .sxor o => Sys2Proof.Machine.execSxor o s
  | .sandn o => Sys2Proof.Machine.execSandn o s
  | .sshl o => Sys2Proof.Machine.execSshl o s
  | .sshr o => Sys2Proof.Machine.execSshr o s
  | .ssar o => Sys2Proof.Machine.execSsar o s
  | .srot o => Sys2Proof.Machine.execSrot o s
  | .smin o => Sys2Proof.Machine.execSmin o s
  | .smax o => Sys2Proof.Machine.execSmax o s
  | .sminu o => Sys2Proof.Machine.execSminu o s
  | .smaxu o => Sys2Proof.Machine.execSmaxu o s
  | .saddImm o => Sys2Proof.Machine.execSaddImm o s
  | .ssubImm o => Sys2Proof.Machine.execSsubImm o s
  | .sandImm o => Sys2Proof.Machine.execSandImm o s
  | .sorImm o => Sys2Proof.Machine.execSorImm o s
  | .sxorImm o => Sys2Proof.Machine.execSxorImm o s
  | .sandnImm o => Sys2Proof.Machine.execSandnImm o s
  | .sshlImm o => Sys2Proof.Machine.execSshlImm o s
  | .sshrImm o => Sys2Proof.Machine.execSshrImm o s
  | .ssarImm o => Sys2Proof.Machine.execSsarImm o s
  | .srotImm o => Sys2Proof.Machine.execSrotImm o s
  | .sminImm o => Sys2Proof.Machine.execSminImm o s
  | .smaxImm o => Sys2Proof.Machine.execSmaxImm o s
  | .sminuImm o => Sys2Proof.Machine.execSminuImm o s
  | .smaxuImm o => Sys2Proof.Machine.execSmaxuImm o s
  | .ssel o g => Sys2Proof.Machine.execSsel o g s
  | .smov o => Sys2Proof.Machine.execSmov o s
  | .smul o => Sys2Proof.Machine.execSmul o s
  | .smulh o u => Sys2Proof.Machine.execSmulh o u s
  | .sdiv o => Sys2Proof.Machine.execSdiv o s
  | .sdivu o => Sys2Proof.Machine.execSdivu o s
  | .srem o => Sys2Proof.Machine.execSrem o s
  | .sremu o => Sys2Proof.Machine.execSremu o s
  | .sclz o => Sys2Proof.Machine.execSclz o s
  | .spopc o => Sys2Proof.Machine.execSpopc o s
  | .sbfe o u => Sys2Proof.Machine.execSbfe o u s
  | .scmp m g a b c => Sys2Proof.Machine.execScmp m g a b c s
  | .scmpImm m g a im c => Sys2Proof.Machine.execScmpImm m g a im c s
  | .smovi m d im => Sys2Proof.Machine.execSmovi m d im s
  | .smovh m d v => Sys2Proof.Machine.execSmovh m d v s
  | .bra m offs => Sys2Proof.Machine.execBra m offs s
  | .brc m r offs => Sys2Proof.Machine.execBrc m r offs s
  | .call m r offs => Sys2Proof.Machine.execCall m r offs s
  | .ret m r => Sys2Proof.Machine.execRet m r s
  | .jmpi m r => Sys2Proof.Machine.execJmpi m r s
  | .loop m r offs => Sys2Proof.Machine.execLoop m r offs s
  | .brv m offs => Sys2Proof.Machine.execBrv m offs s
  | .dqpush m r => Sys2Proof.Machine.execDqpush m r s
  | .vadd o u sat => Sys2Proof.Machine.execVadd o u sat s
  | .vsub o u sat => Sys2Proof.Machine.execVsub o u sat s
  | .vand o => Sys2Proof.Machine.execVand o s
  | .vor o => Sys2Proof.Machine.execVor o s
  | .vxor o => Sys2Proof.Machine.execVxor o s
  | .vandn o => Sys2Proof.Machine.execVandn o s
  | .vshl o => Sys2Proof.Machine.execVshl o s
  | .vshr o => Sys2Proof.Machine.execVshr o s
  | .vsar o => Sys2Proof.Machine.execVsar o s
  | .vrot o => Sys2Proof.Machine.execVrot o s
  | .vmin o u => Sys2Proof.Machine.execVmin o u s
  | .vmax o u => Sys2Proof.Machine.execVmax o u s
  | .vaddImm o => Sys2Proof.Machine.execVaddImm o s
  | .vsubImm o => Sys2Proof.Machine.execVsubImm o s
  | .vandImm o => Sys2Proof.Machine.execVandImm o s
  | .vorImm o => Sys2Proof.Machine.execVorImm o s
  | .vxorImm o => Sys2Proof.Machine.execVxorImm o s
  | .vandnImm o => Sys2Proof.Machine.execVandnImm o s
  | .vshlImm o => Sys2Proof.Machine.execVshlImm o s
  | .vshrImm o => Sys2Proof.Machine.execVshrImm o s
  | .vsarImm o => Sys2Proof.Machine.execVsarImm o s
  | .vrotImm o => Sys2Proof.Machine.execVrotImm o s
  | .vminImm o => Sys2Proof.Machine.execVminImm o s
  | .vmaxImm o => Sys2Proof.Machine.execVmaxImm o s
  | .vsel o p => Sys2Proof.Machine.execVsel o p s
  | .vmov o => Sys2Proof.Machine.execVmov o s
  | .vmul o => Sys2Proof.Machine.execVmul o s
  | .vmulh o u => Sys2Proof.Machine.execVmulh o u s
  | .vmad o c => Sys2Proof.Machine.execVmad o c s
  | .vdot4 o c u sat => Sys2Proof.Machine.execVdot4 o c u sat s
  | .vabs o sat => Sys2Proof.Machine.execVabs o sat s
  | .vclz o => Sys2Proof.Machine.execVclz o s
  | .vpopc o => Sys2Proof.Machine.execVpopc o s
  | .vbrev o => Sys2Proof.Machine.execVbrev o s
  | .vbfe o u => Sys2Proof.Machine.execVbfe o u s
  | .vbfi o c => Sys2Proof.Machine.execVbfi o c s
  | .vpermb o c => Sys2Proof.Machine.execVpermb o c s
  | .vcmp m p a b c => Sys2Proof.Machine.execVcmp m p a b c s
  | .vcmpImm m p a im c => Sys2Proof.Machine.execVcmpImm m p a im c s
  | .vmovi m d im => Sys2Proof.Machine.execVmovi m d im s
  | .vmovh m d v => Sys2Proof.Machine.execVmovh m d v s
  | .vfadd o f => Sys2Proof.Machine.execVfadd o f s
  | .vfsub o f => Sys2Proof.Machine.execVfsub o f s
  | .vfmul o f => Sys2Proof.Machine.execVfmul o f s
  | .vfmin o t => Sys2Proof.Machine.execVfmin o t s
  | .vfmax o t => Sys2Proof.Machine.execVfmax o t s
  | .vfabs o t => Sys2Proof.Machine.execVfabs o t s
  | .vfneg o t => Sys2Proof.Machine.execVfneg o t s
  | .vfma o c f => Sys2Proof.Machine.execVfma o c f s
  | .vfms o c f => Sys2Proof.Machine.execVfms o c f s
  | .vfnma o c f => Sys2Proof.Machine.execVfnma o c f s
  | .vfcmp m p a b t c => Sys2Proof.Machine.execVfcmp m p a b t c s
  | .vfclass o t => Sys2Proof.Machine.execVfclass o t s
  | .vfcvt o src f => Sys2Proof.Machine.execVfcvt o src f s
  | .vfrnd o f => Sys2Proof.Machine.execVfrnd o f s
  | .vftoi o u f => Sys2Proof.Machine.execVftoi o u f s
  | .vitof o u f => Sys2Proof.Machine.execVitof o u f s
  | .vfscl o f => Sys2Proof.Machine.execVfscl o f s
  | .vrcp o => Sys2Proof.Machine.execVrcp o s
  | .vrsq o => Sys2Proof.Machine.execVrsq o s
  | .vsqrt o f => Sys2Proof.Machine.execVsqrt o f s
  | .vexp2 o => Sys2Proof.Machine.execVexp2 o s
  | .vlog2 o => Sys2Proof.Machine.execVlog2 o s
  | .vsin o => Sys2Proof.Machine.execVsin o s
  | .vcos o => Sys2Proof.Machine.execVcos o s
  | .vtanh o => Sys2Proof.Machine.execVtanh o s
  | .vshfl o mode => Sys2Proof.Machine.execVshfl o mode s
  | .vbcast o n => Sys2Proof.Machine.execVbcast o n s
  | .vballot m d p g => Sys2Proof.Machine.execVballot m d p g s
  | .vvote m d p mode => Sys2Proof.Machine.execVvote m d p mode s
  | .vredx o op => Sys2Proof.Machine.execVredx o op s
  | .vmxq o f => Sys2Proof.Machine.execVmxq o f s
  | .vmxdq o f => Sys2Proof.Machine.execVmxdq o f s
  | .vpack o t unp => Sys2Proof.Machine.execVpack o t unp s
  | .ld o sz sx => Sys2Proof.Machine.execLd o sz sx s
  | .st o sz => Sys2Proof.Machine.execSt o sz s
  | .stMc o sz => Sys2Proof.Machine.execStMc o sz s
  | .ldh o sz sx => Sys2Proof.Machine.execLdh o sz sx s
  | .wdef m h a b => Sys2Proof.Machine.execWdef m h a b s
  | .wtouch m h => Sys2Proof.Machine.execWtouch m h s
  | .wstate m d h => Sys2Proof.Machine.execWstate m d h s
  | .wdrain m h => Sys2Proof.Machine.execWdrain m h s
  | .wrel m h => Sys2Proof.Machine.execWrel m h s
  | .hwait m p h => Sys2Proof.Machine.execHwait m p h s
  | .atom o b64 fn => Sys2Proof.Machine.execAtom o b64 fn s
  | .red o b64 fn => Sys2Proof.Machine.execRed o b64 fn s
  | .oalloc m d a mir => Sys2Proof.Machine.execOalloc m d a mir s
  | .ofree m d a => Sys2Proof.Machine.execOfree m d a s
  | .fence m scope order => Sys2Proof.Machine.execFence m scope order s
  | .bar m => Sys2Proof.Machine.execBar m s
  | .ssync m => Sys2Proof.Machine.execSsync m s
  | .phreg m q a mode => Sys2Proof.Machine.execPhreg m q a mode s
  | .phdrop m q => Sys2Proof.Machine.execPhdrop m q s
  | .phsig m q => Sys2Proof.Machine.execPhsig m q s
  | .phwait m p q => Sys2Proof.Machine.execPhwait m p q s
  | .phsw m p q => Sys2Proof.Machine.execPhsw m p q s
  | .phqry m d q => Sys2Proof.Machine.execPhqry m d q s
  | .rgn park mask => Sys2Proof.Machine.execRgn park mask s
  | .meet m d offs => Sys2Proof.Machine.execMeet m d offs s
  | .join m a => Sys2Proof.Machine.execJoin m a s
  | .dqpop m d => Sys2Proof.Machine.execDqpop m d s
  | .mma o ga lsel => Sys2Proof.Machine.execMma o ga lsel s
  | .mmas o hm sp48 => Sys2Proof.Machine.execMmas o hm sp48 s
  | .mgath park ta ha sb lsel => Sys2Proof.Machine.execMgath park ta ha sb lsel s
  | .cmprs park ta ha hv hm sp48 => Sys2Proof.Machine.execCmprs park ta ha hv hm sp48 s
  | .accz park acc => Sys2Proof.Machine.execAccz park acc s
  | .accmv park acc src => Sys2Proof.Machine.execAccmv park acc src s
  | .accld park tacc acc ha => Sys2Proof.Machine.execAccld park tacc acc ha s
  | .epi o => Sys2Proof.Machine.execEpi o s
  | .epset park port sa => Sys2Proof.Machine.execEpset park port sa s
  | .efork park n sa => Sys2Proof.Machine.execEfork park n sa s
  | .erdv park n => Sys2Proof.Machine.execErdv park n s
  | .coll park sa n => Sys2Proof.Machine.execColl park sa n s
  | .cwait park sd n => Sys2Proof.Machine.execCwait park sd n s
  | .rand m d c n f32 => Sys2Proof.Machine.execRand m d c n f32 s
  | .sample m d a b c => Sys2Proof.Machine.execSample m d a b c s
  | .tokapp m a b => Sys2Proof.Machine.execTokapp m a b s
  | .tokappD m a b => Sys2Proof.Machine.execTokappD m a b s
  | .tokconf m a b => Sys2Proof.Machine.execTokconf m a b s
  | .tokget m d b im => Sys2Proof.Machine.execTokget m d b im s
  | .sloew m a b k => Sys2Proof.Machine.execSloew m a b k s
  | .sloer m d b k => Sys2Proof.Machine.execSloer m d b k s
  | .sloeq m d b => Sys2Proof.Machine.execSloeq m d b s
  | .csrr m r csr => Sys2Proof.Machine.execCsrr m r csr s
  | .csrw m r csr => Sys2Proof.Machine.execCsrw m r csr s
  | .csrs m v csr => Sys2Proof.Machine.execCsrs m v csr s
  | .csrc m v csr => Sys2Proof.Machine.execCsrc m v csr s
  | .rdtick m r => Sys2Proof.Machine.execRdtick m r s
  | .trapf m => Sys2Proof.Machine.execTrapf m s
  | .trap m imm => Sys2Proof.Machine.execTrap m imm s
  | .sys m n r => Sys2Proof.Machine.execSys m n r s
  | .bkpt m imm => Sys2Proof.Machine.execBkpt m imm s
  | .halt m => Sys2Proof.Machine.execHalt m s
  | .iret m => Sys2Proof.Machine.execIret m s
  | .tlbinv m r mode tenant => Sys2Proof.Machine.execTlbinv m r mode tenant s
  | .glaunch m r => Sys2Proof.Machine.execGlaunch m r s
  | .nop park => Sys2Proof.Machine.execNop park s
  | .strikeReport at_ => Sys2Proof.Machine.execStrikeReport at_ s
  | .poisonUpdate g psn => Sys2Proof.Machine.execPoisonUpdate g psn s
  | .poisonClearNotice g => Sys2Proof.Machine.execPoisonClearNotice g s
  | .hbmSectorAccess k ecc => Sys2Proof.Machine.execHbmSectorAccess k ecc s
  | .slackWindow ticks => Sys2Proof.Machine.execSlackWindow ticks s
  | .refreshOutsideSlack bank => Sys2Proof.Machine.execRefreshOutsideSlack bank s
  | .scheduleFault cause => Sys2Proof.Machine.execScheduleFault cause s
  | .resyncBeacon tick => Sys2Proof.Machine.execResyncBeacon tick s
  | .windowLanding d => Sys2Proof.Machine.execWindowLanding d s
  | .ecopy len src dst strides => Sys2Proof.Machine.execEcopy len src dst strides s
  | .efill h => Sys2Proof.Machine.execEfill h s
  | .edrain h => Sys2Proof.Machine.execEdrain h s
  | .emma word => Sys2Proof.Machine.execEmma word s
  | .ewait kind => Sys2Proof.Machine.execEwait kind s
  | .esig sub ph => Sys2Proof.Machine.execEsig sub ph s
  | .eloop count offs => Sys2Proof.Machine.execEloop count offs s
  | .copySectorLanding k => Sys2Proof.Machine.execCopySectorLanding k s
  | .poolEccError kind => Sys2Proof.Machine.execPoolEccError kind s
  | .pairSelfTest aFails => Sys2Proof.Machine.execPairSelfTest aFails s
  | .collectiveSend k => Sys2Proof.Machine.execCollectiveSend k s
  | .collectiveReceive src k data => Sys2Proof.Machine.execCollectiveReceive src k data s
  | .flitReceive f => Sys2Proof.Machine.execFlitReceive f s
  | .acknowledgementWord word => Sys2Proof.Machine.execAcknowledgementWord word s
  | .notifyWrite v => Sys2Proof.Machine.execNotifyWrite v s
  | .scheduleBeacon tick => Sys2Proof.Machine.execScheduleBeacon tick s
  | .ptpTickLoad tick => Sys2Proof.Machine.execPtpTickLoad tick s
  | .freeze tick => Sys2Proof.Machine.execFreeze tick s
  | .regulatorAlarm cause => Sys2Proof.Machine.execRegulatorAlarm cause s
  | .ptpMessage offset => Sys2Proof.Machine.execPtpMessage offset s
  | .mbcmdWriteWhileBusy v => Sys2Proof.Machine.execMbcmdWriteWhileBusy v s
  | .issueTurn => Sys2Proof.Machine.execIssueTurn s
  | .sloeOperationComplete => Sys2Proof.Machine.execSloeOperationComplete s
  | .sequenceTrapDelivery => Sys2Proof.Machine.execSequenceTrapDelivery s
  | .regionCommit => Sys2Proof.Machine.execRegionCommit s
  | .heldEffectPresentation => Sys2Proof.Machine.execHeldEffectPresentation s
  | .regionReentry => Sys2Proof.Machine.execRegionReentry s
  | .atomicRetry => Sys2Proof.Machine.execAtomicRetry s
  | .loadReply => Sys2Proof.Machine.execLoadReply s
  | .atomicReply => Sys2Proof.Machine.execAtomicReply s
  | .writeAck => Sys2Proof.Machine.execWriteAck s
  | .pageTableReadReturn => Sys2Proof.Machine.execPageTableReadReturn s
  | .tlbInvalidationComplete => Sys2Proof.Machine.execTlbInvalidationComplete s
  | .errorCountDecay => Sys2Proof.Machine.execErrorCountDecay s
  | .superstepReexecution => Sys2Proof.Machine.execSuperstepReexecution s
  | .drainSector => Sys2Proof.Machine.execDrainSector s
  | .drainComplete => Sys2Proof.Machine.execDrainComplete s
  | .followOnIssue => Sys2Proof.Machine.execFollowOnIssue s
  | .matrixCommandStart => Sys2Proof.Machine.execMatrixCommandStart s
  | .operandRelease => Sys2Proof.Machine.execOperandRelease s
  | .accRetire => Sys2Proof.Machine.execAccRetire s
  | .versionCommit => Sys2Proof.Machine.execVersionCommit s
  | .epilogueRow => Sys2Proof.Machine.execEpilogueRow s
  | .epilogueSend => Sys2Proof.Machine.execEpilogueSend s
  | .addOnStoreApply => Sys2Proof.Machine.execAddOnStoreApply s
  | .gatherStart => Sys2Proof.Machine.execGatherStart s
  | .gatherComplete => Sys2Proof.Machine.execGatherComplete s
  | .streamCommandStart => Sys2Proof.Machine.execStreamCommandStart s
  | .eend => Sys2Proof.Machine.execEend s
  | .streamWaitEnd => Sys2Proof.Machine.execStreamWaitEnd s
  | .phaseComplete => Sys2Proof.Machine.execPhaseComplete s
  | .barrierComplete => Sys2Proof.Machine.execBarrierComplete s
  | .superstepBoundary => Sys2Proof.Machine.execSuperstepBoundary s
  | .dqWordPoppable => Sys2Proof.Machine.execDqWordPoppable s
  | .collectiveStart => Sys2Proof.Machine.execCollectiveStart s
  | .collectiveEnd => Sys2Proof.Machine.execCollectiveEnd s
  | .flitSend => Sys2Proof.Machine.execFlitSend s
  | .accessSlotSend => Sys2Proof.Machine.execAccessSlotSend s
  | .switchForward => Sys2Proof.Machine.execSwitchForward s
  | .orchardAccessApply => Sys2Proof.Machine.execOrchardAccessApply s
  | .mirrorUpdate => Sys2Proof.Machine.execMirrorUpdate s
  | .switchFailure => Sys2Proof.Machine.execSwitchFailure s
  | .lostReply => Sys2Proof.Machine.execLostReply s
  | .oallocComplete => Sys2Proof.Machine.execOallocComplete s
  | .ofreeComplete => Sys2Proof.Machine.execOfreeComplete s
  | .trapDelivery => Sys2Proof.Machine.execTrapDelivery s
  | .firmwareFaultDelivery => Sys2Proof.Machine.execFirmwareFaultDelivery s
  | .preemption => Sys2Proof.Machine.execPreemption s
  | .automaticRestore => Sys2Proof.Machine.execAutomaticRestore s
  | .packetHeaderRead => Sys2Proof.Machine.execPacketHeaderRead s
  | .waitPacketPoll => Sys2Proof.Machine.execWaitPacketPoll s
  | .launchVerdict => Sys2Proof.Machine.execLaunchVerdict s
  | .gridStart => Sys2Proof.Machine.execGridStart s
  | .packetRetire => Sys2Proof.Machine.execPacketRetire s
  | .queueSwitchOut => Sys2Proof.Machine.execQueueSwitchOut s
  | .queueSwitchIn => Sys2Proof.Machine.execQueueSwitchIn s
  | .frameStart => Sys2Proof.Machine.execFrameStart s
  | .domnew => Sys2Proof.Machine.execDomnew s
  | .domdel => Sys2Proof.Machine.execDomdel s
  | .domset => Sys2Proof.Machine.execDomset s
  | .qnew => Sys2Proof.Machine.execQnew s
  | .qdel => Sys2Proof.Machine.execQdel s
  | .schload => Sys2Proof.Machine.execSchload s
  | .phset => Sys2Proof.Machine.execPhset s
  | .gpreempt => Sys2Proof.Machine.execGpreempt s
  | .gresume => Sys2Proof.Machine.execGresume s
  | .gkill => Sys2Proof.Machine.execGkill s
  | .sloenew => Sys2Proof.Machine.execSloenew s
  | .sloedel => Sys2Proof.Machine.execSloedel s
  | .kvbind => Sys2Proof.Machine.execKvbind s
  | .ptmap => Sys2Proof.Machine.execPtmap s
  | .ptunmap => Sys2Proof.Machine.execPtunmap s
  | .deferredEntryResolve => Sys2Proof.Machine.execDeferredEntryResolve s
  | .unknownCommand => Sys2Proof.Machine.execUnknownCommand s
  | .dbgatt => Sys2Proof.Machine.execDbgatt s
  | .dbgdet => Sys2Proof.Machine.execDbgdet s
  | .haltreq => Sys2Proof.Machine.execHaltreq s
  | .resume => Sys2Proof.Machine.execResume s
  | .staterd => Sys2Proof.Machine.execStaterd s
  | .statewr => Sys2Proof.Machine.execStatewr s
  | .wpset => Sys2Proof.Machine.execWpset s
  | .predload => Sys2Proof.Machine.execPredload s
  | .ctrset => Sys2Proof.Machine.execCtrset s
  | .trring => Sys2Proof.Machine.execTrring s
  | .replay => Sys2Proof.Machine.execReplay s
  | .exitrd => Sys2Proof.Machine.execExitrd s
  | .rlogrd => Sys2Proof.Machine.execRlogrd s
  | .counterLatch => Sys2Proof.Machine.execCounterLatch s
  | .currantVerdict => Sys2Proof.Machine.execCurrantVerdict s
  | .freezeResume => Sys2Proof.Machine.execFreezeResume s
  | .attest => Sys2Proof.Machine.execAttest s
  | .extload => Sys2Proof.Machine.execExtload s
  | .cfgrd => Sys2Proof.Machine.execCfgrd s
  | .cfgwr => Sys2Proof.Machine.execCfgwr s
  | .healthrd => Sys2Proof.Machine.execHealthrd s
  | .mbstatRead => Sys2Proof.Machine.execMbstatRead s
  | .deviceReset => Sys2Proof.Machine.execDeviceReset s
  | .functionLevelReset => Sys2Proof.Machine.execFunctionLevelReset s
  | .thermalTrip => Sys2Proof.Machine.execThermalTrip s
  | .preemptionRequestWithdrawn => Sys2Proof.Machine.execPreemptionRequestWithdrawn s
  | .lastFrameEnd => Sys2Proof.Machine.execLastFrameEnd s
  | .collectivePresentationDeadline => Sys2Proof.Machine.execCollectivePresentationDeadline s
  | .mirrorCopyBackComplete => Sys2Proof.Machine.execMirrorCopyBackComplete s
  | .restoredGridResume => Sys2Proof.Machine.execRestoredGridResume s

end Sys2Proof.Machine
end

