-- ==== Sys2Proof/Machine/Step.lean ====
section
/-!
DEFINITION. One step of the machine: one happening, one turn, one instruction, or the passing of a tick.
-/
namespace Sys2Proof.Machine

/-- One step. Without module power nothing runs (R455). -/
def step (s : State) : Host.Outcome State Fault Refusal :=
  if !s.powered then .fault .poweredOff
  else match nextAct s with
    | .inbox e rest => afterHappening (exec e.2.2 { s with inbox := rest, cur := e.2.1 })
    | .agenda k o i => afterHappening (exec i { s with agenda := s.agenda.eraseIdx k, cur := o })
    | .reentry w => exec .regionReentry { s with cur := w }
    | .retry w => exec .atomicRetry { s with cur := w }
    | .turn w => exec .issueTurn { s with cur := w }
    | .instr w =>
      match fetchInstr s w with
      | .ok i => afterInstr w (exec i (beginInstr s w i))
      | .error k => .next (illegalWord s w k)
    | .idle => .next (nextTick s)

/-- The state with the instruction of a word placed where the very next step fetches and runs it (log 2). -/
def State.withFetchWord (s : State) (nbits w : Nat) : State := placeWord s (BitVec.ofNat 64 (w % 2 ^ nbits))

end Sys2Proof.Machine
end

