-- ==== Sys2Proof/Safety.lean ====
section
/-!
DEFINITION. The terms in which claims are stated: that an instruction completes, what it leaves in flight
and where its issuer goes on, and what it leaves unchanged.
-/
namespace Sys2Proof.Machine

/-- The instruction answers a next state, and P holds of it. -/
def Completes (i : Instr) (s : State) (P : State → Prop) : Prop := ∃ t, exec i s = .next t ∧ P t

/-- Number of the region that the running issuer is in (R175). -/
def Ctx.regionNo (x : Ctx) : Nat := x.me.regionNo

/-- The running issuer waits as its switch marker says (R162): it parks, or goes on. -/
def markerWait (m : Mods) : Wait := if m.park then .marker else .run

/-- Every selected thread of the running issuer stands at the PC that p gives it, the others where they stood,
and the issuer waits as w says (R163, R164). -/
def Stands (s t : State) (m : Mods) (p : Nat → Nat) (w : Wait) : Prop :=
  (t.iss s.cur).pcs = (s.ctx m).sel.foldl (fun l k => setNth 0 l k (p k)) (s.iss s.cur).pcs ∧
    (t.iss s.cur).wait = w
/-- The running issuer goes on at the next instruction (R210). -/
def Advances (s t : State) (m : Mods) : Prop :=
  Stands s t m (fun _ => s.nextPc s.cur.cl (s.ctx m).pc) (markerWait m)

/-- The results that the running instruction adds to those in flight (R160, R244): one for its destination
when a lane is active, one for the flags when it raises any. -/
def resultsOf (x : Ctx) (L : Nat) (tgt : Tgt) (val : Nat → DWord) (fl : BitVec 5) : List Pend :=
  (if x.act = [] then [] else [⟨x.vis L 0, tgt, x.act.map fun l => (l, val l), x.regionNo, noHome, x.t⟩]) ++
    (if fl = 0 then [] else [⟨x.vis L 0, .flags, [(0, fl.setWidth 64)], x.regionNo, noHome, x.t⟩])

/-- An issuer but for where it stands, its results in flight and its regions. -/
def Issuer.kept (me : Issuer) : Issuer :=
  { me with pcs := [], wait := .run, mark := false, nextAt := 0, entered := false, delay := 0, pend := [], regions := [] }
/-- A core but for its issuers and the rotation's place. -/
def Core.kept (c : Core) : Core := { c with issuers := [], rotSlot := 0, rotAt := 0, inTurn := false }
/-- The state but for the cores and a debugger's counters. -/
def State.kept (s : State) : State := { s with cores := [], dbg := { s.dbg with counters := [] } }

/-- Nothing outside the core of issuer w differs, but for a debugger's counters. -/
def SameOutside (s t : State) (w : Iss) : Prop :=
  t.kept = s.kept ∧ ∀ cl co, ¬(cl = w.cl ∧ co = w.co) → t.core cl co = s.core cl co
/-- Nothing of the core of issuer w differs but its issuers and the rotation's place, and of its issuers
none but w. -/
def SameCore (s t : State) (w : Iss) : Prop :=
  (t.coreOf w).kept = (s.coreOf w).kept ∧ ∀ n, n ≠ w.n → (t.coreOf w).iss n = (s.coreOf w).iss n
/-- The frame of an instruction that stores nothing and writes no register but through results in flight:
every byte of memory and every register, flag and special register stays. -/
def RegFrame (s t : State) : Prop :=
  SameOutside s t s.cur ∧ SameCore s t s.cur ∧ (t.iss s.cur).kept = (s.iss s.cur).kept ∧
    (t.iss s.cur).regions.map (·.held) = (s.iss s.cur).regions.map (·.held)

/-- A register instruction: on every state whose region stands no obstacle to it, it completes, its results
are in flight at their latency, it goes on at the next instruction, and nothing else changes. -/
def RegInstr (i : Instr) (m : Mods) (L : Nat) (tgt : Tgt) (val : Ctx → Nat → DWord) (fl : Ctx → BitVec 5) : Prop :=
  ∀ s : State, regionCause (s.ctx m) [tgt] = none → Completes i s fun t =>
    (t.iss s.cur).pend = (s.iss s.cur).pend ++ resultsOf (s.ctx m) L tgt (val (s.ctx m)) (fl (s.ctx m)) ∧
      Advances s t m ∧ RegFrame s t

/-- The flags that the active lanes raise together (R244). -/
def Ctx.flagsOf (x : Ctx) (f : Nat → BitVec 5) : BitVec 5 := x.act.foldl (fun a l => a ||| f l) 0
/-- A float instruction: value and flags of each active lane (R244, R263). -/
def FloatInstr (i : Instr) (m : Mods) (L : Nat) (d : BitVec 9) (f : Ctx → Nat → Nat × BitVec 5) : Prop :=
  RegInstr i m L (.v d.toNat) (fun x l => BitVec.ofNat 64 (f x l).1) fun x => x.flagsOf fun l => (f x l).2

/-! ### What instructions leave unchanged beside their own effect -/

/-- Of an issuer, what software reads or an instruction writes: its registers, flags, special registers, read
position, slot bindings and what an exception saved. -/
def Issuer.regs (me : Issuer) : Issuer := {
  vregs := me.vregs, preds := me.preds, meets := me.meets, flags := me.flags, flagen := me.flagen
  seed := me.seed, fmask := me.fmask, trapvec := me.trapvec, rcount := me.rcount, rlimit := me.rlimit
  dqpos := me.dqpos, phs := me.phs, hidden := me.hidden, retPc := me.retPc, trapRec := me.trapRec
  trapSel := me.trapSel }
/-- The same of a core, its issuers apart, with its accumulators and the scratchpad's initialised and poison bits. -/
def Core.regs (c : Core) : Core := {
  partw := c.partw, ptbase := c.ptbase, dcbptr := c.dcbptr, modew := c.modew, sregs := c.sregs
  gpreds := c.gpreds, lc := c.lc, accC := c.accC, vers := c.vers, handles := c.handles
  scInit := c.scInit, scPsn := c.scPsn, ports := c.ports, latches := c.latches }
/-- The same of the chip and of a cluster. -/
def Chip.regs (h : Chip) : Chip := {
  sstep := h.sstep, orchst := h.orchst, psnbase := h.psnbase, phasers := h.phasers, slots := h.slots }
def Cluster.regs (c : Cluster) : Cluster := {
  pairst := c.pairst, mask := c.mask, ranges := c.ranges, allcov := c.allcov }

/-- Every byte of memory reads as before, every stamp and every register of the chip stays, and of the issuers'
registers only what f changes in issuer w. -/
structure SameBut (s t : State) (w : Iss) (f : Issuer → Issuer) : Prop where
  bytes : ∀ k, t.byte k = s.byte k
  stamps : t.stamps = s.stamps
  chip : t.chip.regs = s.chip.regs
  clusters : ∀ cl, (t.chip.cluster cl).regs = (s.chip.cluster cl).regs
  cores : ∀ cl co, (t.core cl co).regs = (s.core cl co).regs
  others : ∀ v, v ≠ w → (t.iss v).regs = (s.iss v).regs
  own : (t.iss w).regs = (f (s.iss w)).regs
/-- Memory and stamps are in their canonical form. -/
def State.memWf (s : State) : Prop := Memory.wf s.mem = true ∧ Sparse.wf unlistedStamp s.stamps = true
/-- The same, and nothing of the running issuer's registers changes, its results in flight among them. -/
def SameRegs (s t : State) : Prop := SameBut s t s.cur id ∧ (t.iss s.cur).pend = (s.iss s.cur).pend

/-- One held effect more of the running issuer (R120, R177): it stands in the open region, or in lean mode
and outside regions at the end of those that wait for presentation, which is set. -/
def HeldAdded (s t : State) (h : Held) : Prop :=
  let a := s.iss s.cur
  let b := t.iss s.cur
  if (s.coreOf s.cur).lean = true ∨ a.openRegion = none then
    b.presq = a.presq ++ [h] ∧ b.presBusy = true ∧ b.regions.map (·.held) = a.regions.map (·.held) ∧
      (a.presBusy = false → (s.tick, s.cur, Instr.heldEffectPresentation) ∈ t.agenda)
  else
    b.presq = a.presq ∧
      b.regions.map (·.held) = a.regions.map fun r => if r.closed.isNone then r.held ++ [h] else r.held
/-- A command: it completes by adding one held effect, none when no lane is active (R177, R281). -/
def HeldInstr (i : Instr) (m : Mods) (s : State) (h : Ctx → Held) : Prop :=
  Completes i s fun t =>
    (if (s.ctx m).act = [] then (t.iss s.cur).allHeld = (s.iss s.cur).allHeld else HeldAdded s t (h (s.ctx m))) ∧
      Advances s t m ∧ SameRegs s t
/-- A release at .sys that is to be a blocking point still: the writes before it have not been flushed (R142). -/
def sysRelease (x : Ctx) (i : Instr) : Bool := (memOrder i).1.getLsbD 1 && (memOrder i).2 == 7 && !x.me.flushed
/-- A blocking point is reached (R184, R182): the open region closes and its commit is set 320 ticks after its
window's end; the issuer waits where it stands. -/
def Blocks (s t : State) (m : Mods) (i : Instr) (vals : List DWord) : Prop :=
  let x := s.ctx m
  (t.iss s.cur).wait = .block i .commit x.act vals s.tick x.pc ∧ (t.iss s.cur).pcs = x.me.pcs ∧
    (t.iss s.cur).regions = (match x.me.openRegion with
      | none => x.me.regions
      | some _ => x.me.regions.map fun r => if r.closed.isNone then { r with closed := some s.tick } else r) ∧
    (∀ r, x.me.openRegion = some r → (max s.tick r.lastVis + 320, s.cur, Instr.regionCommit) ∈ t.agenda) ∧
    SameRegs s t
/-- The results of a load, one a destination register. -/
def loadResults (x : Ctx) (L e home : Nat) (ws : List Wr) : List Pend :=
  (ws.filter fun w => !w.2.isEmpty).map fun w => ⟨x.vis L e, w.1, w.2, x.regionNo, home, x.t⟩
/-- Handle h names window n, and nothing keeps the instruction from going on with it (R298, R299). -/
def Names (x : Ctx) (h : BitVec 4) (chk : Bool) (n : Nat) : Prop :=
  (∀ r, x.me.openRegion = some r → r.wdefs.contains h.toNat = false) ∧
    (x.front = true → defPending x.me h.toNat x.t = false) ∧ nth x.c.handles h.toNat .unbound = .idx n ∧
    (x.c.win n).v = true ∧ (chk = true → (x.c.win n).state = .faulted → (x.c.win n).fault = none)
/-- The lanes of a held access: in a scratchpad as written, elsewhere translated (R283, R287). -/
def heldLanes (x : Ctx) (sp : Nat) (a : Acc) (as : List (Nat × DWord)) (ops : Nat → List DWord) :
    Option (List LaneAcc) :=
  if 3 < sp then
    some (as.map fun l => ⟨l.1, l.2, sp, (match poolAddr x.w.co l.2 with
      | some p => p.1 * 2 ^ 24 + p.2 | none => 2 ^ 32), ops l.1 ++ [0]⟩)
  else match (transLanes x.s x.w.cl x.c.ptw a as).1 with
    | .ok ls => some (ls.map fun l => ⟨l.1, l.2.1, sp, l.2.2.1, ops l.1 ++ [l.2.2.2]⟩)
    | .error _ => none

/-- Command c is the one that firmware performs now (R374, R456). -/
def Cmded (s : State) (c : Cmd) : Prop :=
  (s.fw.cmds.find? fun e => e.1 == s.cur.n) = some (s.cur.n, c) ∧ bootGate s c = none
/-- The command ends with result r, and P holds of the state in which it has done its work. -/
def Answers (i : Instr) (s : State) (r : DWord) (P : State → Prop) : Prop :=
  ∃ u, exec i s = .next (endCmd u s.cur.n r) ∧ P u
/-- The command's result is set aside until the invalidation of what it wrote has completed, when it is performed again and
answers (R32); P holds of the state that it leaves meanwhile. -/
def Invalidates (i : Instr) (s : State) (r : DWord) (P : State → Prop) : Prop :=
  Completes i s fun u => u.fw.cmdRes = some r ∧ (∃ v ∈ u.chip.invs, v.next = [(s.cur, i)]) ∧ u.fw.cmds = s.fw.cmds ∧ P u

end Sys2Proof.Machine
end

