-- ==== Sys2Proof/Certificates/Slice0/Obligations.lean ====
section
/-!
DEFINITION. The statements for the provers, each from the rules of the spec that its docstring names.
-/
open Sys2Proof Sys2Proof.Machine

/-- R247, R246: the two-operand scalar instructions write a function of sA and sB to sD, modulo 2^64. R247, R217, R246:
the immediate forms take the immediate, sign-extended and shifted as HI says, for sB. -/
def Obligations.ScalarOperations : Prop :=
  (∀ o : S3,
     let V := fun (f : DWord → DWord → DWord) (x : Ctx) (_ : Nat) => f (x.sc o.a 0) (x.sc o.b 0)
     let P := fun (i : Instr) f => RegInstr i o.m 4 (.s o.d.toNat) (V f) fun _ => 0
     P (.sadd o) (fun a b => a + b) ∧
     P (.ssub o) (fun a b => a - b) ∧
     P (.sand o) (fun a b => a &&& b) ∧ P (.sor o) (fun a b => a ||| b) ∧ P (.sxor o) (fun a b => a ^^^ b) ∧
     P (.sandn o) (fun a b => a &&& ~~~b) ∧
     P (.sshl o) (fun a b => if 64 ≤ b.toNat then 0 else a <<< b.toNat) ∧
     P (.sshr o) (fun a b => if 64 ≤ b.toNat then 0 else a >>> b.toNat) ∧
     P (.ssar o) (fun a b => a.sshiftRight (min b.toNat 63)) ∧
     P (.srot o) (fun a b => a.rotateLeft (b.toNat % 64)) ∧
     P (.smin o) (fun a b => if a.toInt ≤ b.toInt then a else b) ∧
     P (.smax o) (fun a b => if b.toInt ≤ a.toInt then a else b) ∧
     P (.sminu o) (fun a b => if a.toNat ≤ b.toNat then a else b) ∧
     P (.smaxu o) (fun a b => if b.toNat ≤ a.toNat then a else b)) ∧
  (∀ o : SI,
     let b : DWord := if o.i.hi then o.i.v.signExtend 64 <<< 8 else o.i.v.signExtend 64
     let P := fun (i : Instr) (f : DWord → DWord) =>
       RegInstr i o.m 4 (.s o.d.toNat) (fun x _ => f (x.sc o.a 0)) fun _ => 0
     P (.saddImm o) (fun a => a + b) ∧
     P (.ssubImm o) (fun a => a - b) ∧
     P (.sandImm o) (fun a => a &&& b) ∧ P (.sorImm o) (fun a => a ||| b) ∧ P (.sxorImm o) (fun a => a ^^^ b) ∧
     P (.sandnImm o) (fun a => a &&& ~~~b) ∧
     P (.sshlImm o) (fun a => if 64 ≤ b.toNat then 0 else a <<< b.toNat) ∧
     P (.sshrImm o) (fun a => if 64 ≤ b.toNat then 0 else a >>> b.toNat) ∧
     P (.ssarImm o) (fun a => a.sshiftRight (min b.toNat 63)) ∧
     P (.srotImm o) (fun a => a.rotateLeft (b.toNat % 64)) ∧
     P (.sminImm o) (fun a => if a.toInt ≤ b.toInt then a else b) ∧
     P (.smaxImm o) (fun a => if b.toInt ≤ a.toInt then a else b) ∧
     P (.sminuImm o) (fun a => if a.toNat ≤ b.toNat then a else b) ∧
     P (.smaxuImm o) (fun a => if b.toNat ≤ a.toNat then a else b))

/-- R247, R249, R252: select, copy, multiply, count, field and constant instructions of the front thread. R248: quotient
and remainder truncate toward zero; a zero divisor gives all ones or the dividend and sets DZ, and nothing else sets
a flag. -/
def Obligations.ScalarUnaryAndDivide : Prop :=
  ((∀ (o : S3) (g : BitVec 3), RegInstr (.ssel o g) o.m 4 (.s o.d.toNat)
     (fun x _ => if x.c.g x.t g.toNat then x.sc o.a 0 else x.sc o.b 0) fun _ => 0) ∧
   (∀ o : S2, RegInstr (.smov o) o.m 4 (.s o.d.toNat) (fun x _ => x.sc o.a 0) fun _ => 0) ∧
   (∀ o : S3, RegInstr (.smul o) o.m 6 (.s o.d.toNat)
     (fun x _ => BitVec.ofNat 64 ((x.sc o.a 0).toNat * (x.sc o.b 0).toNat)) fun _ => 0) ∧
   (∀ (o : S3) (u : Bool), RegInstr (.smulh o u) o.m 6 (.s o.d.toNat)
     (fun x _ => if u then BitVec.ofNat 64 ((x.sc o.a 0).toNat * (x.sc o.b 0).toNat / 2 ^ 64)
       else BitVec.ofInt 64 ((x.sc o.a 0).toInt * (x.sc o.b 0).toInt / 2 ^ 64)) fun _ => 0) ∧
   (∀ o : S2, RegInstr (.sclz o) o.m 4 (.s o.d.toNat) (fun x _ => clz (x.sc o.a 0)) fun _ => 0) ∧
   (∀ o : S2, RegInstr (.spopc o) o.m 4 (.s o.d.toNat) (fun x _ => popc (x.sc o.a 0)) fun _ => 0) ∧
   (∀ (o : S3) (u : Bool), RegInstr (.sbfe o u) o.m 4 (.s o.d.toNat)
     (fun x _ => bfe u (x.sc o.a 0) ((x.sc o.b 0).toNat % 64) ((x.sc o.b 0).toNat / 256 % 128)) fun _ => 0) ∧
   (∀ (m : Mods) (d : BitVec 8) (i : Imm), RegInstr (.smovi m d i) m 4 (.s d.toNat)
     (fun _ _ => if i.hi then i.v.signExtend 64 <<< 8 else i.v.signExtend 64) fun _ => 0) ∧
   (∀ (m : Mods) (d : BitVec 8) (v : BitVec 24), RegInstr (.smovh m d v) m 4 (.s d.toNat)
     (fun x _ => (x.sc d 0 <<< 24) ||| v.setWidth 64) fun _ => 0)) ∧
  (∀ o : S3,
     let dz := fun x : Ctx => if x.act ≠ [] ∧ x.sc o.b 0 = 0 then (2 : BitVec 5) else 0
     let P := fun (i : Instr) (f : DWord → DWord → DWord) =>
       RegInstr i o.m 20 (.s o.d.toNat) (fun x _ => f (x.sc o.a 0) (x.sc o.b 0)) dz
     P (.sdiv o) (fun a b => if b = 0 then 0xFFFFFFFFFFFFFFFF else BitVec.ofInt 64 (a.toInt.tdiv b.toInt)) ∧
     P (.sdivu o) (fun a b => if b = 0 then 0xFFFFFFFFFFFFFFFF else a / b) ∧
     P (.srem o) (fun a b => if b = 0 then a else BitVec.ofInt 64 (a.toInt.tmod b.toInt)) ∧
     P (.sremu o) (fun a b => if b = 0 then a else a % b))

/-- R250: the integer compares write their condition to a predicate, in each active lane. R250: the signed and unsigned
orders, equality and inequality of the integer conditions. -/
def Obligations.IntegerCompares : Prop :=
  (∀ (m : Mods) (g : BitVec 3) (c : Cond),
     (∀ a b : BitVec 8, RegInstr (.scmp m g a b c) m 4 (.g g.toNat)
       (fun x _ => if c.int (x.sc a 0) (x.sc b 0) then 1 else 0) fun _ => 0) ∧
     (∀ (a : BitVec 8) (i : Imm), RegInstr (.scmpImm m g a i c) m 4 (.g g.toNat)
       (fun x _ => if c.int (x.sc a 0) i.val then 1 else 0) fun _ => 0) ∧
     (∀ (a : BitVec 9) (b : BSrc), RegInstr (.vcmp m g a b c) m 4 (.p g.toNat)
       (fun x l => if c.int (x.v a l) (x.b b l) then 1 else 0) fun _ => 0) ∧
     (∀ (a : BitVec 9) (i : Imm), RegInstr (.vcmpImm m g a i c) m 4 (.p g.toNat)
       (fun x l => if c.int (x.v a l) (i.val.setWidth 32) then 1 else 0) fun _ => 0)) ∧
  (∀ a b : DWord,
     (Cond.eq.int a b = decide (a = b)) ∧ (Cond.ne.int a b = decide (a ≠ b)) ∧
     (Cond.lt.int a b = decide (a.toInt < b.toInt)) ∧ (Cond.le.int a b = decide (a.toInt ≤ b.toInt)) ∧
     (Cond.gt.int a b = decide (a.toInt > b.toInt)) ∧ (Cond.ge.int a b = decide (a.toInt ≥ b.toInt)) ∧
     (Cond.ltu.int a b = decide (a.toNat < b.toNat)) ∧ (Cond.leu.int a b = decide (a.toNat ≤ b.toNat)) ∧
     (Cond.gtu.int a b = decide (a.toNat > b.toNat)) ∧ (Cond.geu.int a b = decide (a.toNat ≥ b.toNat)))

/-- R254 to R256, R258: where each transfer takes the selected threads, CALL's link, LOOP's counter, and that
nothing else changes. A transfer whose lane is not active falls through. -/
def Obligations.Transfers : Prop :=
  ∀ (m : Mods) (s : State),
    let x := s.ctx m
    let next := s.nextPc s.cur.cl x.pc
    let goTo := fun (c : Prop) [Decidable c] (p : Nat) => fun _ : Nat => if x.act ≠ [] ∧ c then p else next
    let at_ := fun offs : BitVec 32 => (offsPc x.pc offs).toNat
    let Q := fun (i : Instr) (p : Nat → Nat) => Completes i s fun t =>
      Stands s t m p (markerWait m) ∧ (t.iss s.cur).pend = (s.iss s.cur).pend ∧ RegFrame s t
    (regionCause x [] = none →
      (∀ offs, Q (.bra m offs) (goTo True (at_ offs))) ∧
      (∀ r offs, Q (.brc m r offs) (goTo (x.sc r 0 ≠ 0) (at_ offs))) ∧
      (∀ r, Q (.ret m r) (goTo True ((x.sc r 0).toNat % 2 ^ 23))) ∧
      (∀ r, Q (.jmpi m r) (goTo True ((x.sc r 0).toNat % 2 ^ 23))) ∧
      (∀ offs, Q (.brv m offs) fun l => if l ∈ x.act then at_ offs else next) ∧
      (∀ r offs, Completes (.loop m r offs) s fun t =>
        let n := if x.c.lc = 0 then x.sc r 0 else x.c.lc
        Stands s t m (goTo (1 < n.toNat) (at_ offs)) (markerWait m) ∧
          (t.coreOf s.cur).lc = (if x.act = [] then x.c.lc else if 1 < n.toNat then n - 1 else 0) ∧
          (t.iss s.cur).pend = (s.iss s.cur).pend ∧ SameOutside s t s.cur ∧
          { (t.coreOf s.cur).kept with lc := 0 } = { (s.coreOf s.cur).kept with lc := 0 } ∧
          (t.iss s.cur).kept = (s.iss s.cur).kept)) ∧
    (∀ r offs, regionCause x [.s (r : BitVec 8).toNat] = none → Completes (.call m r offs) s fun t =>
      Stands s t m (goTo True (at_ offs)) (markerWait m) ∧
        (t.iss s.cur).pend = (s.iss s.cur).pend ++
          resultsOf x 4 (.s r.toNat) (fun _ => BitVec.ofNat 64 next) 0 ∧ RegFrame s t)

/-- R260, R246: the two-operand vector instructions write a function of vA and B to vD in each active lane. R260, R217,
R246: the immediate vector forms, signed and without saturation. -/
def Obligations.VectorOperations : Prop :=
  (∀ o : V3,
     let P := fun (i : Instr) (f : Word → Word → Word) =>
       RegInstr i o.m 4 (.v o.d.toNat) (fun x l => (f (x.v o.a l) (x.b o.b l)).setWidth 64) fun _ => 0
     let clamp := fun (u : Bool) (v : Int) =>
       if u then BitVec.ofInt 32 (max 0 (min v (2 ^ 32 - 1))) else BitVec.ofInt 32 (max (-2 ^ 31) (min v (2 ^ 31 - 1)))
     let val := fun (u : Bool) (a : Word) => if u then (a.toNat : Int) else a.toInt
     (∀ u sat, P (.vadd o u sat) fun a b => if sat then clamp u (val u a + val u b) else a + b) ∧
     (∀ u sat, P (.vsub o u sat) fun a b => if sat then clamp u (val u a - val u b) else a - b) ∧
     P (.vand o) (fun a b => a &&& b) ∧ P (.vor o) (fun a b => a ||| b) ∧ P (.vxor o) (fun a b => a ^^^ b) ∧
     P (.vandn o) (fun a b => a &&& ~~~b) ∧
     P (.vshl o) (fun a b => if 32 ≤ b.toNat then 0 else a <<< b.toNat) ∧
     P (.vshr o) (fun a b => if 32 ≤ b.toNat then 0 else a >>> b.toNat) ∧
     P (.vsar o) (fun a b => a.sshiftRight (min b.toNat 31)) ∧
     P (.vrot o) (fun a b => a.rotateLeft (b.toNat % 32)) ∧
     (∀ u, P (.vmin o u) fun a b => if val u a ≤ val u b then a else b) ∧
     (∀ u, P (.vmax o u) fun a b => if val u b ≤ val u a then a else b)) ∧
  (∀ o : VI,
     let b : Word := (if o.i.hi then o.i.v.signExtend 64 <<< 8 else o.i.v.signExtend 64 : DWord).setWidth 32
     let P := fun (i : Instr) (f : Word → Word) =>
       RegInstr i o.m 4 (.v o.d.toNat) (fun x l => (f (x.v o.a l)).setWidth 64) fun _ => 0
     P (.vaddImm o) (fun a => a + b) ∧ P (.vsubImm o) (fun a => a - b) ∧
     P (.vandImm o) (fun a => a &&& b) ∧ P (.vorImm o) (fun a => a ||| b) ∧ P (.vxorImm o) (fun a => a ^^^ b) ∧
     P (.vandnImm o) (fun a => a &&& ~~~b) ∧
     P (.vshlImm o) (fun a => if 32 ≤ b.toNat then 0 else a <<< b.toNat) ∧
     P (.vshrImm o) (fun a => if 32 ≤ b.toNat then 0 else a >>> b.toNat) ∧
     P (.vsarImm o) (fun a => a.sshiftRight (min b.toNat 31)) ∧
     P (.vrotImm o) (fun a => a.rotateLeft (b.toNat % 32)) ∧
     P (.vminImm o) (fun a => if a.toInt ≤ b.toInt then a else b) ∧
     P (.vmaxImm o) (fun a => if b.toInt ≤ a.toInt then a else b))

/-- R249, R251, R252, R260 to R262: the other integer vector instructions. -/
def Obligations.VectorOther : Prop :=
  (∀ o : V3,
    let P := fun (i : Instr) (L : Nat) (f : Ctx → Nat → Word) =>
      RegInstr i o.m L (.v o.d.toNat) (fun x l => (f x l).setWidth 64) fun _ => 0
    (∀ p, P (.vsel o p) 4 fun x l => if x.me.p (x.tl l) p.toNat l then x.v o.a l else x.b o.b l) ∧
    P (.vmul o) 6 (fun x l => x.v o.a l * x.b o.b l) ∧
    (∀ u, P (.vmulh o u) 6 fun x l =>
      if u then BitVec.ofNat 32 ((x.v o.a l).toNat * (x.b o.b l).toNat / 2 ^ 32)
      else BitVec.ofInt 32 ((x.v o.a l).toInt * (x.b o.b l).toInt / 2 ^ 32)) ∧
    (∀ c, P (.vmad o c) 6 fun x l => x.v o.a l * x.b o.b l + x.v c l) ∧
    (∀ c u sat, P (.vdot4 o c u sat) 6 fun x l =>
      let v := dot4 u (x.v o.a l) (x.b o.b l) (x.v c l)
      if sat then clamp32 u v else BitVec.ofInt 32 v) ∧
    (∀ u, P (.vbfe o u) 4 fun x l =>
      bfe u (x.v o.a l) ((x.b o.b l).toNat % 32) ((x.b o.b l).toNat / 256 % 64)) ∧
    (∀ c, P (.vbfi o c) 4 fun x l => bfi (x.v o.a l) (x.b o.b l) (x.v c l)) ∧
    (∀ c, P (.vpermb o c) 4 fun x l => permb (x.v o.a l) (x.b o.b l) (x.v c l))) ∧
  (∀ o : V2,
    let P := fun (i : Instr) (f : Word → Word) =>
      RegInstr i o.m 4 (.v o.d.toNat) (fun x l => (f (x.v o.a l)).setWidth 64) fun _ => 0
    P (.vmov o) id ∧ P (.vclz o) clz ∧ P (.vpopc o) popc ∧ P (.vbrev o) brev ∧
    (∀ sat, P (.vabs o sat) fun a => if sat ∧ a = 0x80000000 then 0x7FFFFFFF else if a.toInt < 0 then -a else a)) ∧
  (∀ (m : Mods) (d : BitVec 9),
    (∀ i : Imm, RegInstr (.vmovi m d i) m 4 (.v d.toNat) (fun _ _ => (i.val.setWidth 32).setWidth 64) fun _ => 0) ∧
    (∀ v : BitVec 24, RegInstr (.vmovh m d v) m 4 (.v d.toNat)
      (fun x l => ((x.v d l <<< 24) ||| v.setWidth 32).setWidth 64) fun _ => 0))

/-- R264 to R266, R246: sum, difference, product, minimum, maximum, sign and the fused forms of the float
types, with the flags of the active lanes. -/
def Obligations.FloatArithmetic : Prop :=
  (∀ (o : V3) (f : Fmt),
    let P := fun (i : Instr) (g : Ctx → Nat → Nat → Nat → Nat × BitVec 5) =>
      FloatInstr i o.m 6 o.d fun x l => g x l (low f.ty (x.v o.a l)) (low f.ty (x.b o.b l))
    P (.vfadd o f) (fun x l a b => fAdd f.ty f.rnd f.sat a b (x.srWord f l)) ∧
    P (.vfsub o f) (fun x l a b => fSub f.ty f.rnd f.sat a b (x.srWord f l)) ∧
    P (.vfmul o f) (fun x l a b => fMul f.ty f.rnd f.sat a b (x.srWord f l)) ∧
    (∀ c : BitVec 9,
      P (.vfma o c f) (fun x l a b => fFma f.ty f.rnd f.sat false false a b (low f.ty (x.v c l)) 0) ∧
      P (.vfms o c f) (fun x l a b => fFma f.ty f.rnd f.sat false true a b (low f.ty (x.v c l)) 0) ∧
      P (.vfnma o c f) (fun x l a b => fFma f.ty f.rnd f.sat true false a b (low f.ty (x.v c l)) 0)) ∧
    FloatInstr (.vfscl o f) o.m 6 o.d fun x l =>
      let a := tyNum f.ty (low f.ty (x.v o.a l))
      finishArith f.ty f.rnd f.sat a.sig (a.scale (x.b o.b l).toInt, false) (x.srWord f l)) ∧
  (∀ (o : V3) (t : Ty),
    FloatInstr (.vfmin o t) o.m 6 o.d (fun x l => fMinMax t false (low t (x.v o.a l)) (low t (x.b o.b l))) ∧
    FloatInstr (.vfmax o t) o.m 6 o.d (fun x l => fMinMax t true (low t (x.v o.a l)) (low t (x.b o.b l)))) ∧
  (∀ (o : V2) (t : Ty),
    FloatInstr (.vfabs o t) o.m 6 o.d (fun x l => (low t (x.v o.a l) % 2 ^ (t.bits - 1), 0)) ∧
    FloatInstr (.vfneg o t) o.m 6 o.d
      (fun x l => ((low t (x.v o.a l) + 2 ^ (t.bits - 1)) % 2 ^ t.bits, 0)) ∧
    FloatInstr (.vfclass o t) o.m 6 o.d fun x l => (fClass t (low t (x.v o.a l)), 0)) ∧
  (∀ (m : Mods) (p : BitVec 3) (a : BitVec 9) (b : BSrc) (t : Ty) (c : Cond),
    RegInstr (.vfcmp m p a b t c) m 6 (.p p.toNat)
      (fun x l => boolD (fCmp t c (low t (x.v a l)) (low t (x.b b l))).1)
      fun x => x.flagsOf fun l => (fCmp t c (low t (x.v a l)) (low t (x.b b l))).2)

/-- R268, R103, R278: conversions between the float types, to and from integers, and from MX elements. -/
def Obligations.Conversions : Prop :=
  ∀ (o : V2) (f : Fmt),
    (∀ src : Ty, FloatInstr (.vfcvt o src f) o.m 6 o.d fun x l =>
      tyRound f.ty f.rnd f.sat (tyNum src (low src (x.v o.a l))) (x.srWord f l)) ∧
    FloatInstr (.vfrnd o f) o.m 6 o.d (fun x l => fRound f.ty f.rnd (low f.ty (x.v o.a l)) (x.srWord f l)) ∧
    (∀ u : Bool, FloatInstr (.vftoi o u f) o.m 6 o.d fun x l =>
      let r := toIntRange f.rnd (if u then 0 else -2 ^ 31) (if u then 2 ^ 32 - 1 else 2 ^ 31 - 1)
        (tyNum f.ty (low f.ty (x.v o.a l))) (x.srWord f l)
      ((BitVec.ofInt 32 r.1).toNat, r.2)) ∧
    (∀ u : Bool, FloatInstr (.vitof o u f) o.m 6 o.d fun x l =>
      let v : Int := if u then ((x.v o.a l).toNat : Int) else (x.v o.a l).toInt
      tyRound f.ty f.rnd false (.fin (v < 0) v.natAbs 0) (x.srWord f l)) ∧
    FloatInstr (.vmxdq o f) o.m 6 o.d fun x l =>
      let a := (x.v o.a l).toNat
      let v := if f.ty.isMx then mxValue f.ty (a % 2 ^ f.ty.bits) (a / 256 % 256) else tyNum f.ty (a % 2 ^ f.ty.bits)
      finishArith .f32 f.rnd f.sat v.sig (v, false) (x.srWord f l)

/-- R269, R270, R246: the transcendentals complete at latency 18 with a result of their own function of the
lane's bits; each function's special operands give the results and flags of R270's table. -/
def Obligations.Transcendentals : Prop :=
  (∀ o : V2,
    let P := fun (i : Instr) (g : Word → Nat × BitVec 5) => FloatInstr i o.m 18 o.d fun x l => g (x.v o.a l)
    P (.vrcp o) fRcp ∧ P (.vrsq o) fRsq ∧ (∀ f : Fmt, P (.vsqrt o f) (fSqrt f.rnd)) ∧ P (.vexp2 o) fExp2 ∧
    P (.vlog2 o) fLog2 ∧ P (.vsin o) (fTrig 5) ∧ P (.vcos o) (fTrig 6) ∧ P (.vtanh o) fTanh) ∧
  fRcp 0 = (0x7F800000, fDZ) ∧ fRcp 0x80000000 = (0xFF800000, fDZ) ∧ fRcp 0x7F800000 = (0, 0) ∧
  fRcp 0xFF800000 = (0x80000000, 0) ∧
  fRsq 0 = (0x7F800000, fDZ) ∧ fRsq 0x80000000 = (0xFF800000, fDZ) ∧ fRsq 0x7F800000 = (0, 0) ∧
  fRsq 0xFF800000 = (0x7FC00000, fNV) ∧
  fExp2 0xFF800000 = (0, 0) ∧ fExp2 0x7F800000 = (0x7F800000, 0) ∧
  fLog2 0 = (0xFF800000, fDZ) ∧ fLog2 0x80000000 = (0xFF800000, fDZ) ∧ fLog2 0xBF800000 = (0x7FC00000, fNV) ∧
  fLog2 0x7F800000 = (0x7F800000, 0) ∧ fLog2 0x3F800000 = (0, 0) ∧
  fTrig 5 0x7F800000 = (0x7FC00000, fNV) ∧ fTrig 6 0xFF800000 = (0x7FC00000, fNV) ∧
  fTanh 0x7F800000 = (0x3F800000, 0) ∧ fTanh 0xFF800000 = (0xBF800000, 0)

/-- R271 to R279: the lane instructions read every lane's sources as they stand at the first pass. R110, R277, R279:
VMXQ quantises each pass as one block, and VPACK packs and unpacks the elements of each group of 32 lanes. -/
def Obligations.LaneInstructions : Prop :=
  ((∀ (o : V3) (mode : BitVec 2), RegInstr (.vshfl o mode) o.m 8 (.v o.d.toNat)
     (fun x l =>
       let b : Nat := match o.b with
         | .vec r => (x.me.v x.t r.toNat l).toNat
         | .sca r => (x.c.sreg x.t r.toNat).toNat
       let src : Int := if mode = 0 then (b : Int) else if mode = 1 then ((l ^^^ b : Nat) : Int) else if mode = 2 then (l : Int) - b else l + b
       (x.me.v x.t o.a.toNat (if 0 ≤ src ∧ src < x.c.width then src.toNat else l)).setWidth 64) fun _ => 0) ∧
   (∀ (o : V2) (n : LaneSrc), RegInstr (.vbcast o n) o.m 8 (.v o.d.toNat)
     (fun x _ =>
       let k : Nat := match n with
         | .const k => k.toNat
         | .sca r => (x.c.sreg x.t r.toNat).toNat % 128
       (x.me.v x.t o.a.toNat (k % x.c.width)).setWidth 64) fun _ => 0) ∧
   (∀ (m : Mods) (d : BitVec 9) (p : BitVec 3) (g : BitVec 2), RegInstr (.vballot m d p g) m 8 (.v d.toNat)
     (fun x _ => (BitVec.ofNat 32 ((x.act.filter fun l => l / 32 == g.toNat && x.me.p x.t p.toNat l).foldl
       (fun a l => a + 2 ^ (l % 32)) 0)).setWidth 64) fun _ => 0) ∧
   (∀ (m : Mods) (d p : BitVec 3), RegInstr (.vvote m d p 0) m 8 (.p d.toNat)
     (fun x _ => boolD (x.act.all fun l => x.me.p x.t p.toNat l)) fun _ => 0) ∧
   (∀ (m : Mods) (d p : BitVec 3), RegInstr (.vvote m d p 1) m 8 (.p d.toNat)
     (fun x _ => boolD (x.act.any fun l => x.me.p x.t p.toNat l)) fun _ => 0) ∧
   (∀ (m : Mods) (d p : BitVec 3), RegInstr (.vvote m d p 2) m 8 (.p d.toNat)
     (fun x _ => boolD ((x.act.all fun l => x.me.p x.t p.toNat l) || (x.act.all fun l => !x.me.p x.t p.toNat l)))
     fun _ => 0) ∧
   (∀ (o : V2) (op : RedOp) (s : State), regionCause (s.ctx o.m) [.v o.d.toNat] = none →
     Completes (.vredx o op) s fun t =>
       let x := s.ctx o.m
       let W := x.c.width
       let vs := (List.range W).map fun l => if l ∈ x.act then (x.me.v x.t o.a.toNat l).toNat else redIdent op
       let r := redTree (redStep op) (if W = 32 then 5 else if W = 64 then 6 else 7) vs 0
       (t.iss s.cur).pend = (s.iss s.cur).pend ++
           resultsOf x (if W = 32 then 20 else if W = 64 then 22 else 24) (.v o.d.toNat)
             (fun _ => BitVec.ofNat 64 r.1) (if x.act = [] then 0 else r.2) ∧
         Advances s t o.m ∧ RegFrame s t)) ∧
  ((∀ (o : V2) (f : Fmt), RegInstr (.vmxq o f) o.m 12 (.v o.d.toNat)
     (fun x l =>
       let q := mxQuantise f.ty f.rnd ((List.range 32).map fun i =>
         let k := 32 * (l / 32) + i
         (if k ∈ x.act then tyNum .f32 (x.v o.a k).toNat else .fin false 0 0, x.srWord f k))
       BitVec.ofNat 64 (nth q.2.1 (l % 32) 0 + 256 * q.1))
     fun x => (List.range (x.c.passes x.w.n)).foldl (fun a k =>
       if x.act.any (fun l => l / 32 == k) then
         a ||| (mxQuantise f.ty f.rnd ((List.range 32).map fun i =>
           (if 32 * k + i ∈ x.act then tyNum .f32 (x.v o.a (32 * k + i)).toNat else .fin false 0 0,
             x.srWord f (32 * k + i)))).2.2
       else a) 0) ∧
   (∀ (o : V2) (t : Ty), RegInstr (.vpack o t true) o.m 8 (.v o.d.toNat)
     (fun x l =>
       let str := packNat 32 ((List.range t.bits).map fun i => (x.me.v x.t o.a.toNat (l / 32 * 32 + i)).toNat)
       (BitVec.ofNat 32 (str / 2 ^ (t.bits * (l % 32)) % 2 ^ t.bits)).setWidth 64) fun _ => 0) ∧
   (∀ (o : V2) (t : Ty), RegInstr (.vpack o t false) o.m 8 (.v o.d.toNat)
     (fun x l =>
       let k := l / 32 * 32
       let str := packNat t.bits ((List.range 32).map fun i =>
         if k + i ∈ x.act then (x.me.v x.t o.a.toNat (k + i)).toNat else 0)
       (if l % 32 < t.bits then BitVec.ofNat 32 (str / 2 ^ (32 * (l % 32)) % 2 ^ 32) else 0).setWidth 64) fun _ => 0))

/-- R44, R46, R121, R286: a lane of a scratchpad load that passes every check reads its bytes, with the bytes of the
issuer's own held stores over them; one that reads an uninitialised sector reads zero under those and is recorded
with cause 2; one that fails another check reads nothing and is recorded with its cause. R286, R46, R41, R282 to
R285: a scratchpad load completes, its results visible L ticks after its last pass with the bank additions, its
switch-offs in FMASK, and nothing else changes. R184: one that would start a fill from another chip or the host is a blocking
point. -/
def Obligations.ScratchpadAccesses : Prop :=
  (∀ (s : State) (cl co : Nat) (me : Issuer) (t n l : Nat) (ldh : Bool) (a : DWord),
     let p := poolAddr co a
     let tc := (p.getD (co, 0)).1
     let off := (p.getD (co, 0)).2
     let r := poolRead s cl co me t n ldh [(l, a)]
     let fw := forwarded cl me (keySp cl tc off) n
     match spCheck (s.core cl tc) t p n false ldh with
     | none => if (s.core cl tc).psnAt off then r.psn = some (l, off) ∧ r.vals = [] ∧ r.offs = [] else
         r.vals = [(l, overlay n fw (BitVec.ofNat 64 (leNat (s.bytes (keySp cl tc off) n))))] ∧ r.offs = [] ∧ r.psn = none
     | some 2 => r.vals = [(l, overlay n fw 0)] ∧ r.offs = (if fw.1 = 2 ^ n - 1 then [] else [(l, 2)]) ∧ r.psn = none
     | some k => r.vals = [] ∧ r.offs = [(l, k)] ∧ r.psn = none) ∧
  (∀ (o : MemF) (sz : BitVec 2) (sx : Bool) (s : State) (sp : Nat),
     let x := s.ctx o.m
     let n := 2 ^ sz.toNat
     let as := x.act.map fun l => (l, laneAddr x o o.off.toInt l)
     let r := poolRead s s.cur.cl s.cur.co x.me s.tick n false as
     let u := touchAll x (.ld o sz sx) s r.touched
     let e := (bankPass u s.cur s.tick (x.c.passes s.cur.n) true as).1
     regionCause x (loadTgts x.front o.data.toNat n) = none → x.act ≠ [] → laneChecks n as = .ok sp →
     (sp = 4 ∨ sp = 5) →
     if (r.touched.any fun k => touchBlocks ((s.core s.cur.cl k.1).win k.2)) = true then Completes (.ld o sz sx) s fun t =>
       Blocks s t o.m (.ld o sz sx) (as.map fun a => [BitVec.ofNat 64 a.1, a.2, 0, 0]).flatten
     else r.psn = none → (u = s ∨ x.c.lean = false ∧ x.me.wait = .run ∧ x.stands u = true) →
     Completes (.ld o sz sx) s fun t =>
       (t.iss s.cur).pend = x.me.pend ++
         loadResults x (if sp = 5 then 28 else 6) e noHome (loadWrites x.front o.data.toNat n sx r.vals) ∧
       Advances s t o.m ∧
       SameBut s t s.cur fun me => if r.offs = [] then me else { me with fmask := recordOff me.fmask (laneOrder r.offs) x.pc })

/-- R286, R289, R290: LDH reads the lanes whose bytes the named window holds, full or draining, and switches the others
off with cause 1; a window with no producers, free, switches all off with cause 3; another waits. R286, R31, R184,
R283: a load from this chip's HBM or from Orchard sends its request, to be answered within 2,400 or 4,000 ticks of
its last pass, and goes on; one from another chip or the host is a blocking point. R129: it waits while an acquire of its
issuer is under way, as log 39 says. Registers and memory stay. -/
def Obligations.HandleAndMemoryLoads : Prop :=
  (∀ (o : MemF) (sz : BitVec 2) (sx : Bool) (s : State) (k : Nat),
     let x := s.ctx o.m
     let n := 2 ^ sz.toNat
     let w := x.c.win k
     let as := x.act.map fun l =>
       (l, BitVec.ofNat 64 (w.sbase + (if o.bss then (x.c.sreg (x.tl l) o.base.toNat).toNat % 2 ^ 32 else (x.v o.base l).toNat) +
         o.off.toNat % 2 ^ 16))
     Names x (BitVec.ofNat 4 (o.off.toNat / 2 ^ 16)) true k → regionCause x (loadTgts x.front o.data.toNat n) = none →
     x.act ≠ [] → (∀ a ∈ as, a.2.toNat % n = 0) →
     ((w.state = .full ∨ w.state = .draining) →
       let ins := (as.filter fun a => w.holds a.2.toNat).map fun a => (a.1, a.2 + (4 : DWord) <<< 60)
       let out := (as.filter fun a => !w.holds a.2.toNat).map fun a => (a.1, 1)
       let r := poolRead s s.cur.cl s.cur.co x.me s.tick n true ins
       let u := touchAll x (.ldh o sz sx) s r.touched
       r.psn = none → (u = s ∨ x.c.lean = false ∧ x.me.wait = .run ∧ x.stands u = true) →
       Completes (.ldh o sz sx) s fun t =>
         (t.iss s.cur).pend = x.me.pend ++
           loadResults x 6 (bankPass u s.cur s.tick (x.c.passes s.cur.n) true ins).1 w.homeSpace (loadWrites x.front o.data.toNat n sx r.vals) ∧
         Advances s t o.m ∧ SameBut s t s.cur fun me =>
           if out ++ r.offs = [] then me else { me with fmask := recordOff me.fmask (laneOrder (out ++ r.offs)) x.pc }) ∧
     (w.state = .free → w.valid = [] → Completes (.ldh o sz sx) s fun t =>
       (t.iss s.cur).pend = x.me.pend ∧ Advances s t o.m ∧ SameBut s t s.cur fun me =>
         { me with fmask := recordOff me.fmask (as.map fun a => (a.1, 3)) x.pc }) ∧
     ((w.state = .absent ∨ w.state = .filling ∨ w.state = .free ∧ w.valid ≠ []) → touchBlocks w = true →
       Completes (.ldh o sz sx) s fun t => Blocks s t o.m (.ldh o sz sx) [BitVec.ofNat 64 k])) ∧
  (∀ (o : MemF) (sz : BitVec 2) (sx : Bool) (s : State) (sp : Nat) (ls : List (Nat × DWord × Nat × DWord)),
     let x := s.ctx o.m
     let as := x.act.map fun l => (l, laneAddr x o o.off.toInt l)
     let rc := regionCause x (loadTgts x.front o.data.toNat (2 ^ sz.toNat))
     x.act ≠ [] → laneChecks (2 ^ sz.toNat) as = .ok sp → sp ≤ 3 →
     (transLanes s s.cur.cl x.c.ptw .load as).1 = .ok ls →
     ((sp = 1 ∨ sp = 3) → rc ≠ some 1 → rc ≠ some 2 →
       Completes (.ld o sz sx) s fun t => Blocks s t o.m (.ld o sz sx) (packLanes ls)) ∧
     ((sp = 0 ∨ sp = 2) → rc = none →
       if acquirePending (transLanes s s.cur.cl x.c.ptw .load as).2 s.cur (x.vis (if sp = 0 then 2400 else 4000) 0) = true then
         Completes (.ld o sz sx) s fun t =>
           (t.iss s.cur).wait = .retry ∧ (t.iss s.cur).pcs = x.me.pcs ∧ SameRegs s t
       else Completes (.ld o sz sx) s fun t =>
       (∃ q, t.chip.reqs = s.chip.reqs ++ [q] ∧ q.kind = .load ∧ q.w = s.cur ∧ q.h.i = .ld o sz sx ∧ q.space = sp ∧
         q.bound = s.tick + (x.c.passes s.cur.n - 1) + (if sp = 0 then 2400 else 4000) ∧
         q.lanes.map (fun a => (a.lane, a.va, a.pa)) = ls.map fun l => (l.1, l.2.1, l.2.2.1)) ∧
       Advances s t o.m ∧ SameRegs s t))

/-- R287, R288, R293, R295, R177: a store, a reduction or an atomic that passes its checks is held, each lane with the
place that it names, its operands and whether it is plain; a returning atomic closes its region to every instruction but
RGN. No byte of memory changes until the effect is presented. R142: a release at .sys is a blocking point first, and is held
once it has been. -/
def Obligations.HeldAccesses : Prop :=
  ∀ (o : MemF) (s : State) (sp : Nat) (lanes : List LaneAcc),
    let x := s.ctx o.m
    let at_ := fun off : Int => x.act.map fun l => (l, laneAddr x o off l)
    let keys := lanes.map fun l => l.key s.cur.cl / 64
    let held := fun (i : Instr) (n : Nat) (a : Acc) (off : Int) (plain buf : Bool) (tgts : List Tgt) (ops : Nat → List DWord) =>
      x.act ≠ [] → laneChecks n (at_ off) = .ok sp → sp ≤ 5 → heldLanes x sp a (at_ off) ops = some lanes →
      storeCause x tgts buf keys ((lanes.map fun l => l.keys s.cur.cl i).flatten.map (· / 64)) = none →
      if sysRelease x i = true then Completes i s fun t => Blocks s t o.m i []
      else (buf = true → bufFull x keys = false) → Completes i s fun t =>
        HeldAdded s t (x.hold i lanes [boolD plain] []) ∧ Advances s t o.m ∧ SameRegs s t ∧
          (buf = false → x.me.openRegion ≠ none → ((t.iss s.cur).openRegion.map (·.atomic)) = some true)
    (∀ sz : BitVec 2,
      let ops := fun l => [dataVal x o.data (sz == 3) 0 l]
      held (.st o sz) (2 ^ sz.toNat) .store o.off.toInt (plainStore x o) true [] ops ∧
      (sp = 1 → (∀ l ∈ lanes, groupOf (l.pa / 2 ^ 42) = groupOf chipNo) →
        held (.stMc o sz) (2 ^ sz.toNat) .store 0 (plainStore x o) true [] ops)) ∧
    (∀ (b64 : Bool) (fn : AtomFn),
      let n := if b64 then 8 else 4
      held (.red o b64 fn) n .red o.off.toInt false true [] (atomOps x o b64 fn) ∧
      (o.m.park = false →
        held (.atom o b64 fn) n .atom o.off.toInt false false (loadTgts x.front o.data.toNat n) (atomOps x o b64 fn)))

/-- R298, R299, R301 to R303: WDEF, WDRAIN and WREL are held with the window that the handle names at issue; WSTATE
reads dword 0's low bits; HWAIT goes on at a window that is full, draining, or free without producers, and
else waits; WTOUCH goes on after the touch, unless the fill comes from another chip or the host. -/
def Obligations.WindowInstructions : Prop :=
  ∀ (m : Mods) (h : BitVec 4) (s : State) (n : Nat),
    let x := s.ctx m
    let w := x.c.win n
    (Names x h false n → regionCause x [] = none →
      HeldInstr (.wdrain m h) m s (fun x => x.hold (.wdrain m h) [] [] [n]) ∧
      HeldInstr (.wrel m h) m s (fun x => x.hold (.wrel m h) [] [] [n])) ∧
    (Names x h true n → ∀ d : BitVec 9,
      let tgt := if x.front then Tgt.s d.toNat else Tgt.v d.toNat
      regionCause x [tgt] = none → Completes (.wstate m d h) s fun t =>
        (t.iss s.cur).pend = x.me.pend ++ resultsOf x 4 tgt (fun _ => BitVec.ofNat 64
          (b2n w.v + w.state.code * 2 + b2n w.psn * 16 + b2n w.arm * 32 + b2n w.hfs * 64)) 0 ∧
        Advances s t m ∧ RegFrame s t) ∧
    (Names x h true n → ∀ p : BitVec 3, x.act ≠ [] →
      let tgt := if x.front then Tgt.g p.toNat else Tgt.p p.toNat
      if w.state = .full ∨ w.state = .draining ∨ w.state = .free ∧ w.valid = [] then
        regionCause x [tgt] = none → Completes (.hwait m p h) s fun t =>
          (t.iss s.cur).pend = x.me.pend ++ resultsOf x 4 tgt (fun _ => if w.psn then 1 else 0) 0 ∧
          Advances s t m ∧ RegFrame s t
      else afterAtomic x = false →
        Completes (.hwait m p h) s fun t => Blocks s t m (.hwait m p h) [BitVec.ofNat 64 n]) ∧
    (Names x h true n → x.act ≠ [] →
      if touchBlocks w = true then afterAtomic x = false →
        Completes (.wtouch m h) s fun t => Blocks s t m (.wtouch m h) [BitVec.ofNat 64 n]
      else
        let u := touch s s.cur n (x.toucher (.wtouch m h) n)
        regionCause x [] = none → (u = s ∨ x.c.lean = false ∧ x.me.wait = .run ∧ x.stands u = true) →
        Completes (.wtouch m h) s fun t =>
          (t.coreOf s.cur).wins = (u.coreOf s.cur).wins ∧ Advances s t m ∧ SameRegs s t) ∧
    (∀ a b : BitVec 8,
      let off := (x.sc a 0).toNat % 2 ^ 24
      let ok := bits (x.sc a 0) 24 36 == 0 && decide (off + 128 ≤ x.c.scSize) &&
        [0, 1].all fun k => Sparse.get false x.c.scInit (off / 64 + k)
      x.act ≠ [] → (x.sc a 0).toNat % 64 = 0 → spaceOf (x.sc a 0) = 4 → regionCause x [] = none →
      Completes (.wdef m h a b) s fun t =>
        HeldAdded s t (x.hold (.wdef m h a b) []
          ([x.sc b 0, if ok then 1 else 0] ++ s.dwords (keySp s.cur.cl s.cur.co off) 16) []) ∧
        (∀ r, (t.iss s.cur).openRegion = some r → h.toNat ∈ r.wdefs) ∧ Advances s t m ∧ SameRegs s t)

/-- R52, R54: what a touch does in each state of a window; a fill from a scratchpad lands its sectors one a tick, the
first at the touch's tick plus 6 or 28. -/
def Obligations.TouchEvents : Prop :=
  ∀ (s : State) (w : Iss) (n : Nat) (by_ : Option (Iss × Held)),
    let e := s.win w.cl w.co n
    let u := touch s w n by_
    ((e.state = .full ∨ e.state = .draining ∨ e.state = .faulted ∨ e.state = .filling ∧ e.hfs = true ∨
      e.state = .free ∧ e.valid = []) → u = s) ∧
    (∀ (p : Prod) (sp : Nat), (e.state = .absent ∨ e.state = .filling ∧ e.hfs = false) → e.homeProd = some p →
      (sp = 4 ∨ sp = 5) →
      (∀ k, k < p.share / 64 → spaceOf (e.sector k).1 = sp ∧ ∃ q, poolAddr w.co (e.sector k).1 = some q ∧
        q.2 + 64 ≤ (s.core w.cl q.1).scSize) →
      (u.win w.cl w.co n).state = .filling ∧ (u.win w.cl w.co n).hfs = true ∧ (∀ k, u.byte k = s.byte k) ∧
      ∀ k, k < p.share / 64 → ∀ q, poolAddr w.co (e.sector k).1 = some q →
        (s.tick + (if sp = 4 then 6 else 28) + k, (⟨w.cl, w.co, n⟩ : Iss), Instr.windowLanding
          ⟨w.cl, w.co, (e.sector k).2, 0, 0, (s.core w.cl q.1).psnAt q.2, s.bytes (keySp w.cl q.1 (q.2 / 64 * 64)) 64⟩)
          ∈ u.agenda)

/-- R296: a fence of a scope below the cluster, or without an active lane, does nothing; the acquire half and, in lean
mode, the release half wait; the release half is a held effect, and at the system's scope a blocking point. -/
def Obligations.Fences : Prop :=
  ∀ (m : Mods) (scope : BitVec 3) (order : BitVec 2) (s : State),
    let x := s.ctx m
    let acq := order.getLsbD 0
    let rel := order.getLsbD 1
    let next := fun _ : Nat => s.nextPc s.cur.cl x.pc
    ((x.act = [] ∨ scope.toNat < 2) → regionCause x [] = none → Completes (.fence m scope order) s fun t =>
      Advances s t m ∧ SameRegs s t ∧ (t.iss s.cur).allHeld = x.me.allHeld) ∧
    (x.act ≠ [] → 2 ≤ scope.toNat →
      if rel = true ∧ scope = 7 then afterAtomic x = false →
        Completes (.fence m scope order) s fun t => Blocks s t m (.fence m scope order) []
      else regionCause x [] = none → Completes (.fence m scope order) s fun t =>
        (if rel = true ∧ x.c.lean = false then HeldAdded s t (x.hold (.fence m scope order) [] [] [])
          else (t.iss s.cur).allHeld = x.me.allHeld) ∧
        Stands s t m next (if acq = true ∨ x.c.lean = true then .fence scope.toNat acq (rel && x.c.lean) else markerWait m) ∧
        SameRegs s t)

/-- R175, R183, R312, R313: RGN closes the region and opens the next with its mask, or waits while two are
uncommitted; MEET writes the old meeting register and sets the target; JOIN sets it from a register. -/
def Obligations.RegionsAndMeetings : Prop :=
  (∀ (park : Bool) (mask : BitVec 32) (s : State),
    let me := s.iss s.cur
    let m : Mods := ⟨park, 0, false⟩
    let shut := match me.openRegion with
      | none => me.regions
      | some _ => me.regions.map fun r => if r.closed.isNone then { r with closed := some s.tick } else r
    if 2 ≤ me.regions.length then Completes (.rgn park mask) s fun t =>
      (t.iss s.cur).wait = .retry ∧ (t.iss s.cur).pcs = me.pcs ∧ (t.iss s.cur).regions = me.regions ∧ SameRegs s t
    else Completes (.rgn park mask) s fun t =>
      (∃ r, (t.iss s.cur).regions = shut ++ [r] ∧ r.num = (me.rnum + 1) % 2 ^ 32 ∧ r.mask = mask ∧ r.closed = none ∧
        r.opened = s.tick ∧ r.pcs = me.pcs ∧ r.opener = .rgn) ∧
      (∀ r, me.openRegion = some r → (max s.tick r.lastVis + 320, s.cur, Instr.regionCommit) ∈ t.agenda) ∧
      Advances s t m ∧ SameRegs s t) ∧
  (∀ (m : Mods) (d : BitVec 9) (offs : BitVec 32) (s : State),
    let x := s.ctx m
    let dst : BitVec 32 := 0x80000000 ||| BitVec.ofNat 32 ((offsPc x.pc offs).toNat % 2 ^ 23)
    regionCause x [.v d.toNat] = none → Completes (.meet m d offs) s fun t =>
      (t.iss s.cur).pend = x.me.pend ++ resultsOf x 4 (.v d.toNat) (fun l => (x.me.meetOf l).setWidth 64) 0 ∧
      (t.iss s.cur).meets = x.act.foldl (fun l k => setNth 0 l k dst) x.me.meets ∧ Advances s t m ∧
      SameBut s t s.cur fun me => { me with meets := (t.iss s.cur).meets }) ∧
  (∀ (m : Mods) (a : BitVec 9) (s : State),
    let x := s.ctx m
    regionCause x [] = none → Completes (.join m a) s fun t =>
      (t.iss s.cur).meets = x.act.foldl (fun l k => setNth 0 l k (x.v a k &&& 0x807FFFFF)) x.me.meets ∧
      (t.iss s.cur).pend = x.me.pend ∧ Advances s t m ∧
      SameBut s t s.cur fun me => { me with meets := (t.iss s.cur).meets })

/-- R166, R259, R314: DQPUSH is held while the queue has room, and waits else; DQPOP takes the next word of the issuer into
a register pair, visible 4 ticks later, and waits while there is none. -/
def Obligations.DecisionQueue : Prop :=
  (∀ (m : Mods) (r : BitVec 8) (s : State),
    let x := s.ctx m
    regionCause x [] = none →
    if x.act ≠ [] ∧ 32 ≤ x.c.dq.length + heldPushes x.me then Completes (.dqpush m r) s fun t =>
      (t.iss s.cur).wait = .retry ∧ (t.iss s.cur).pcs = x.me.pcs ∧ (t.iss s.cur).allHeld = x.me.allHeld ∧ SameRegs s t
    else HeldInstr (.dqpush m r) m s fun x => x.hold (.dqpush m r) [] [x.sc r 0] []) ∧
  (∀ (m : Mods) (d : BitVec 9) (s : State),
    let x := s.ctx m
    regionCause x [.v d.toNat, .v (d.toNat + 1)] = none → x.act ≠ [] →
    match dqNext x.c x.me s.tick with
    | some word => Completes (.dqpop m d) s fun t =>
        (t.iss s.cur).pend = x.me.pend ++
          [⟨s.tick + 4, .v d.toNat, x.act.map fun l => (l, BitVec.ofNat 64 (word.toNat % 2 ^ 32)), x.regionNo, noHome, s.tick⟩,
            ⟨s.tick + 4, .v (d.toNat + 1), x.act.map fun l => (l, BitVec.ofNat 64 (word.toNat / 2 ^ 32)), x.regionNo, noHome, s.tick⟩] ∧
        Advances s t m ∧ SameBut s t s.cur fun me => { me with dqpos := me.dqpos + 1 }
    | none => (x.c.iss 16).wait ≠ .ended → Completes (.dqpop m d) s fun t =>
        (t.iss s.cur).wait = .dqpop d.toNat x.act ∧ (t.iss s.cur).pcs = x.me.pcs ∧ SameRegs s t)

/-- R306, R309 to R311: a slot is bound and unbound at issue and the membership's change is held; a signal is
held, and waits while two are ahead of the phase; PHQRY reads the phase of its tick, and on the front thread V above it;
PHWAIT and PHSW are blocking points, PHSW with its signal held, or waiting as PHSIG waits. -/
def Obligations.PhaserInstructions : Prop :=
  ∀ (m : Mods) (q : BitVec 4) (s : State),
    let x := s.ctx m
    let ahead := fun n : Nat =>
      let ph := s.phaser n
      let sp := match ph.member s.cur q.toNat false with
        | some k => (if k.inEffect then k.s else ph.phase) + k.early
        | none => ph.phase
      ph.phase + 2 ≤ sp + heldSignals x.me q.toNat
    (∀ (a : BitVec 8) (mode : PhMode),
      let n := (x.sc a 0).toNat
      x.act ≠ [] → n ≤ 4095 → x.c.phOk n = true → x.me.slotOf q.toNat = none → regionCause x [] = none →
      Completes (.phreg m q a mode) s fun t =>
        HeldAdded s t (x.hold (.phreg m q a mode) [] [BitVec.ofNat 64 n] []) ∧ Advances s t m ∧
        (t.iss s.cur).pend = x.me.pend ∧
        SameBut s t s.cur fun me => { me with phs := me.phs ++ [(q.toNat, n, mode)] }) ∧
    (∀ (n : Nat) (mode : PhMode), x.me.slotOf q.toNat = some (n, mode) →
      (regionCause x [] = none → x.act ≠ [] → Completes (.phdrop m q) s fun t =>
        HeldAdded s t (x.hold (.phdrop m q) [] [BitVec.ofNat 64 n] []) ∧ Advances s t m ∧
        (t.iss s.cur).pend = x.me.pend ∧
        SameBut s t s.cur fun me => { me with phs := me.phs.filter fun b => b.1 != q.toNat }) ∧
      (mode ≠ .wait → regionCause x [] = none →
       if x.act ≠ [] ∧ ahead n then Completes (.phsig m q) s fun t =>
         (t.iss s.cur).wait = .retry ∧ (t.iss s.cur).pcs = x.me.pcs ∧ SameRegs s t
       else HeldInstr (.phsig m q) m s fun x => x.hold (.phsig m q) [] [BitVec.ofNat 64 n] []) ∧
      (∀ d : BitVec 9,
        let tgt := if x.front then Tgt.s d.toNat else Tgt.v d.toNat
        let v := match (s.phaser n).member s.cur q.toNat false with | some k => k.v | none => 0
        regionCause x [tgt] = none → Completes (.phqry m d q) s fun t =>
          (t.iss s.cur).pend = x.me.pend ++ resultsOf x 4 tgt (fun l => BitVec.ofNat 64
            ((s.phaser n).phaseAt (x.tl l) 4 + (if x.front = true ∧ mode ≠ .sig then v % 2 ^ 32 * 2 ^ 32 else 0))) 0 ∧
          Advances s t m ∧ RegFrame s t) ∧
      (∀ p : BitVec 3, x.act ≠ [] → waitTooOld s s.cur q.toNat n false = false → afterAtomic x = false →
        (mode ≠ .sig → Completes (.phwait m p q) s fun t => Blocks s t m (.phwait m p q) [BitVec.ofNat 64 n]) ∧
        (mode = .sw → ahead n → Completes (.phsw m p q) s fun t =>
          (t.iss s.cur).wait = .retry ∧ (t.iss s.cur).pcs = x.me.pcs ∧ SameRegs s t) ∧
        (mode = .sw → ¬ahead n → Completes (.phsw m p q) s fun t =>
          (t.iss s.cur).wait = .block (.phsw m p q) .commit x.act [BitVec.ofNat 64 n] s.tick x.pc ∧
          HeldAdded s t (x.hold (.phsw m p q) [] [BitVec.ofNat 64 n] []) ∧ (t.iss s.cur).pcs = x.me.pcs ∧ SameRegs s t)))

/-- R184, R304, R305, R345, R348, R369, R370, R372, R412, R83: these instructions are blocking points: each closes its
region and waits for the commits, with the operands that it captured. -/
def Obligations.BlockingPoints : Prop :=
  (∀ (m : Mods) (s : State),
    let x := s.ctx m
    let B := fun (i : Instr) (vals : List DWord) => Completes i s fun t => Blocks s t m i vals
    x.act ≠ [] → afterAtomic x = false →
    (¬(x.front = true ∧ 1 < x.c.bpc) → B (.bar m) []) ∧
    (bit x.c.modew 2 = true → B (.ssync m) []) ∧
    (∀ imm : BitVec 16, B (.trap m imm) [imm.setWidth 64]) ∧
    (∀ (n : BitVec 16) (r : BitVec 9), B (.sys m n r) [x.low64 r]) ∧
    (∀ imm : BitVec 16, dbgSession s s.cur = true → B (.bkpt m imm) [imm.setWidth 64]) ∧
    (bit x.me.trapvec 48 = true → B (.iret m) []) ∧
    (x.front = true →
      B (.halt m) [] ∧
      (∀ (d a : BitVec 8) (mir : Bool), B (.oalloc m d a mir) [x.sc a 0]) ∧
      (∀ d a : BitVec 8, B (.ofree m d a) [x.sc a 0]) ∧
      (∀ r : BitVec 9,
        let off := (x.low64 r).toNat % 2 ^ 24
        let ok := bits (x.low64 r) 24 40 == 0 && off % 64 == 0 && decide (off + 64 ≤ x.c.scSize) &&
          Sparse.get false x.c.scInit (off / 64)
        B (.glaunch m r) (if ok then s.dwords (keySp s.cur.cl s.cur.co off) 8 else [])))) ∧
  (∀ (park : Bool) (d : BitVec 8) (n : BitVec 4) (s : State),
    let x := s.ctx ⟨park, 0, false⟩
    afterAtomic x = false → (nth x.c.cslots n.toNat {}).fault = none →
    Completes (.cwait park d n) s fun t => Blocks s t ⟨park, 0, false⟩ (.cwait park d n) [])

/-- R315 to R318, R321 to R330, R332, R333, R339, R345: an engine's command is held with the windows that its handles
name and the scratchpad image that it reads at issue, when no object that it names is faulted, its windows suit it and
the matrix queue has room; ERDV goes on when no EFORK of the stream is left. -/
def Obligations.EngineCommands : Prop :=
  ∀ (park : Bool) (s : State),
    let m : Mods := ⟨park, 0, false⟩
    let x := s.ctx m
    let free := fun (t : BitVec 7) => assoc x.c.tileFault t.toNat = none
    let C := fun (i : Instr) (wins : List Nat) (vals : List DWord) =>
      operandFault x.c i wins = none → (isMatrix i = true → matrixFull x = false) →
      Completes i s fun t => HeldAdded s t (x.hold i [] vals wins) ∧ Advances s t m ∧ SameRegs s t
    let image := fun (a : DWord) (align n : Nat) (k : Nat → Prop) => ∀ off, imageAt x a align n = some off → k off
    regionCause x [] = none →
    (∀ (o : MmaF) (wa wb wm : Nat), o.park = park → free o.acc → Names x o.ha true wa → Names x o.hb true wb →
      (∀ lsel, C (.mma o false lsel) [wa, wb] []) ∧
      (∀ lsel, (nth x.c.latches (if lsel then 1 else 0) {}).fault = none → C (.mma o true lsel) [wb] []) ∧
      (∀ hm sp48, Names x hm true wm → C (.mmas o hm sp48) [wa, wb, wm] [])) ∧
    (∀ (ta : Ty) (ha : BitVec 4) (sb : BitVec 8) (lsel : Bool) (w : Nat), Names x ha true w →
      (nth x.c.latches (if lsel then 1 else 0) {}).fault = none →
      image (x.sc sb 0) 128 128 fun off => C (.mgath park ta ha sb lsel) [w] ((List.range 64).map fun k =>
        BitVec.ofNat 64 (leNat (s.bytes (keySp s.cur.cl s.cur.co (off + 2 * k)) 2)))) ∧
    (∀ (ta : Ty) (ha hv hm : BitVec 4) (sp48 : Bool) (wa wv wm : Nat), Names x ha true wa → Names x hv true wv →
      Names x hm true wm → C (.cmprs park ta ha hv hm sp48) [wa, wv, wm] []) ∧
    (∀ acc, free acc → C (.accz park acc) [] [] ∧ (∀ src, free src → C (.accmv park acc src) [] []) ∧
      ∀ t ha w, Names x ha true w → C (.accld park t acc ha) [w] []) ∧
    (∀ o : EpiF, o.park = park → free o.acc → C (.epi o) [] []) ∧
    (∀ (port : BitVec 2) (sa : BitVec 8), image (x.sc sa 0) 32 32 fun off =>
      let im := s.dwords (keySp s.cur.cl s.cur.co off) 4
      spaceOf (nth im 0 0) ≤ 5 → bits (nth im 0 0) 0 6 = 0 → bits (nth im 1 0) 0 6 = 0 → spaceOf (nth im 2 0) ≤ 5 →
      bits (nth im 3 0) 48 16 = 0 → C (.epset park port sa) [] im) ∧
    (∀ n : BitVec 2,
      let st := s.stream ⟨s.cur.cl, s.cur.co, n.toNat⟩
      st.fault = none →
      (∀ sa : BitVec 8, image (x.sc sa 0) 8 8 fun _ => C (.efork park n sa) [] [x.sc sa 0]) ∧
      (st.running = false → (x.c.efq.any fun e => e.1 == n.toNat) = false →
        (∀ h ∈ x.me.allHeld, ∀ p r, h.i ≠ .efork p n r) →
        Completes (.erdv park n) s fun t => Advances s t m ∧ SameRegs s t ∧ (t.iss s.cur).allHeld = x.me.allHeld)) ∧
    (∀ (sa : BitVec 8) (n : BitVec 4), (nth x.c.cslots n.toNat {}).fault = none → x.c.elastic = false →
      image (x.sc sa 0) 128 128 fun off =>
        C (.coll park sa n) [] (s.dwords (keySp s.cur.cl s.cur.co off) 16))

/-- R105, R351 to R353: RAND writes words 0 to n of the lane's draw, or their 24 high bits as FP32; SAMPLE writes one
token to every active lane, of the candidates of all of them. R355, R357 to R360, R364, R366: token operations are
held with each lane's value and slot, close their region to all but token operations, and in lean mode wait for
their completion; TOKGET, SLOER and SLOEQ read each lane's slot, visible 40 ticks after the last pass. -/
def Obligations.SequenceInstructions : Prop :=
  (∀ (m : Mods) (d : BitVec 9) (s : State),
     let x := s.ctx m
     (∀ (c : BitVec 8) (n : BitVec 2) (f32 : Bool),
       let ks := List.range (n.toNat + 1)
       let val := fun l k =>
         let u := x.draw ((x.c.sreg s.tick c.toNat).setWidth 32) l k
         if f32 then (tyRound .f32 .rne false (.fin false (u.toNat / 256) (-24)) 0).1 else u.toNat
       regionCause x (ks.map fun k => .v (d.toNat + k)) = none → x.act ≠ [] → Completes (.rand m d c n f32) s fun t =>
         (t.iss s.cur).pend = x.me.pend ++ ks.map (fun k => ⟨x.vis 12 0, .v (d.toNat + k),
           x.act.map fun l => (l, BitVec.ofNat 64 (val l k)), x.regionNo, noHome, s.tick⟩) ∧ Advances s t m ∧ RegFrame s t) ∧
     (∀ (a b : BitVec 9) (c : BitVec 8),
       let c0 := x.c.sreg s.tick c.toNat
       let c1 := x.c.sreg s.tick (c.toNat + 1)
       let r := sampleTok (x.act.map fun l => (x.me.v s.tick a.toNat l, x.me.v s.tick b.toNat l)) (c0.toNat / 2 ^ 32 % 256)
         (c1.setWidth 32) (BitVec.ofNat 32 (c1.toNat / 2 ^ 32)) (x.draw (c0.setWidth 32) 0 0)
       regionCause x [.v d.toNat] = none → Completes (.sample m d a b c) s fun t =>
         (t.iss s.cur).pend = x.me.pend ++
           resultsOf x 48 (.v d.toNat) (fun _ => r.1.setWidth 64) (if x.act = [] then 0 else r.2) ∧
         Advances s t m ∧ RegFrame s t)) ∧
  ((∀ (m : Mods) (a : BitVec 9) (b : BSrc) (s : State),
     let x := s.ctx m
     let H := fun (i : Instr) (val : Nat → DWord) => x.act ≠ [] → afterAtomic x = false → Completes i s fun t =>
       HeldAdded s t (x.hold i (x.act.map fun l => ⟨l, 0, 0, 0, [val l, x.slotOp b l]⟩) [] []) ∧
       Stands s t m (fun _ => s.nextPc s.cur.cl x.pc) (if x.c.lean then .until_ (s.tick + 48) else markerWait m) ∧
       (∀ r, (t.iss s.cur).openRegion = some r → r.seqop = true) ∧ SameRegs s t
     H (.tokapp m a b) (fun l => (x.v a l).setWidth 64) ∧ H (.tokappD m a b) (fun l => (x.v a l).setWidth 64) ∧
     H (.tokconf m a b) (fun l => (x.v a l).setWidth 64) ∧
     ∀ k, H (.sloew m a b k) fun l => x.me.vpair (x.tl l) a.toNat l) ∧
   (∀ (m : Mods) (d : BitVec 9) (b : BSrc) (s : State),
     let x := s.ctx m
     let at_ := fun l => s.slot (x.slotOp b l).toNat
     let hit := fun (r : Region) (ts : List Tgt) => x.act ≠ [] ∧ ts.any (protects r.mask) = true ∨ r.atomic = true
     (∀ l ∈ x.act, slotCause s x.c.tenant (slotNo (x.slotOp b l)) = none) →
     let R := fun (i : Instr) (ws : List (Nat × (Nat → DWord))) =>
       (∀ r, x.me.openRegion = some r → ¬hit r (ws.map fun w => .v w.1)) → Completes i s fun t =>
       (t.iss s.cur).pend = x.me.pend ++ (if x.act = [] then [] else ws.map fun w =>
         ⟨x.vis 40 0, .v w.1, x.act.map fun l => (l, w.2 l), x.regionNo, noHome, s.tick⟩) ∧ Advances s t m ∧ RegFrame s t
     (∀ i : BitVec 3, R (.tokget m d b i) [(d.toNat, fun l =>
       (if i.toNat < (at_ l).f 3 48 4 then ((at_ l).packed 5 i.toNat).setWidth 64 else 0) &&& 0xFFFFFFFF)]) ∧
     (∀ k : BitVec 9, k.toNat ≤ 271 →
       let v := fun l => if k.toNat = 15 then 0 else (at_ l).d k.toNat
       R (.sloer m d b k) [(d.toNat, fun l => v l &&& 0xFFFFFFFF), (d.toNat + 1, fun l => v l >>> 32)]) ∧
     R (.sloeq m d b) [(d.toNat, fun l => BitVec.ofNat 64 ((at_ l).f 14 0 16 + (at_ l).f 3 48 4 * 2 ^ 16 +
       (at_ l).drafts % 32 * 2 ^ 20 + b2n (at_ l).frz * 2 ^ 25 + (at_ l).f 13 0 4 * 2 ^ 26) &&& 0xFFFFFFFF)]))

/-- R7, R230, R231, R371: a CSR at or above 0x800 takes a privilege exception of a program and one that is not assigned an
illegal-instruction exception with cause 16; CSRR reads the view of the number, CSRW, CSRS and CSRC are held with the operand;
RDTICK reads TICK. A service core, which alone is privileged, reaches the P numbers in the same way.
R371, R177: a held CSR write at its presentation changes the bits that the number's view writes, plainly, by setting or by
clearing, and no other bit of that register. -/
def Obligations.SpecialRegisters : Prop :=
  ((∀ (m : Mods) (r : BitVec 9) (csr : BitVec 12) (s : State),
     let x := s.ctx m
     let all := fun (P : Instr → Prop) =>
       P (.csrr m r csr) ∧ P (.csrw m r csr) ∧ ∀ v, P (.csrs m v csr) ∧ P (.csrc m v csr)
     let assigned := csr.toNat ≤ 0x11 ∨ (0x800 ≤ csr.toNat ∧ csr.toNat ≤ 0x811) ∨ (0x900 ≤ csr.toNat ∧ csr.toNat ≤ 0x904)
     let may := csr.toNat < 0x800 ∨ x.c.priv = true
     (¬may → all fun i => exec i s = .next (raise x { cls := 0x02 })) ∧
     (may → ¬assigned → all fun i => exec i s = .next (raise x { cls := 0x01, sub := 16 })) ∧
     (may → assigned → regionCause x [] = none →
       HeldInstr (.csrw m r csr) m s (fun x => x.hold (.csrw m r csr) [] [x.low64 r] []) ∧
       (∀ r, HeldInstr (.csrs m (.reg r) csr) m s fun x => x.hold (.csrs m (.reg r) csr) [] [x.low64 r] []) ∧
       (∀ v, HeldInstr (.csrs m (.imm v) csr) m s fun x => x.hold (.csrs m (.imm v) csr) [] [v.setWidth 64] []) ∧
       (∀ r, HeldInstr (.csrc m (.reg r) csr) m s fun x => x.hold (.csrc m (.reg r) csr) [] [x.low64 r] []) ∧
       ∀ v, HeldInstr (.csrc m (.imm v) csr) m s fun x => x.hold (.csrc m (.imm v) csr) [] [v.setWidth 64] [])) ∧
   (∀ (m : Mods) (r : BitVec 9) (s : State),
     let x := s.ctx m
     let R := fun (i : Instr) (v : Nat → DWord) => Completes i s fun t =>
       (t.iss s.cur).pend = x.me.pend ++ (if x.act = [] then []
         else if s.cur.n = 16 then [⟨s.tick + 4, .s r.toNat, x.act.map fun l => (l, v l), x.regionNo, noHome, s.tick⟩]
         else [⟨x.vis 4 0, .v r.toNat, x.act.map fun l => (l, BitVec.ofNat 64 ((v l).toNat % 2 ^ 32)), x.regionNo, noHome, s.tick⟩,
           ⟨x.vis 4 0, .v (r.toNat + 1), x.act.map fun l => (l, BitVec.ofNat 64 ((v l).toNat / 2 ^ 32)), x.regionNo, noHome,
             s.tick⟩]) ∧
       Advances s t m ∧ RegFrame s t
     regionCause x (if s.cur.n = 16 then [.s r.toNat] else [.v r.toNat, .v (r.toNat + 1)]) = none →
     R (.rdtick m r) (fun _ => BitVec.ofNat 64 s.tick) ∧
     ∀ csr : BitVec 12, (csr.toNat ≤ 0x11 → R (.csrr m r csr) (csrRead x csr.toNat)) ∧
       (x.c.priv = true → (0x800 ≤ csr.toNat ∧ csr.toNat ≤ 0x811) ∨ (0x900 ≤ csr.toNat ∧ csr.toNat ≤ 0x904) →
         R (.csrr m r csr) (csrShow x csr.toNat)))) ∧
  (∀ (s : State) (w : Iss) (m : Mods) (r : BitVec 9) (c : CsrSrc) (h : Held) (csr : BitVec 12) (k : Nat),
     let v := nth h.vals 0 0
     let old := csrWord (s.iss w) (csr.toNat % 0x800)
     let new := fun i => csrWord ((presentCsr s w { h with i := i }).iss w) (csr.toNat % 0x800)
     csr.toNat ∈ [2, 3, 4, 0xC, 0xF, 0x802, 0x803, 0x804, 0x80C, 0x80F] → k < 64 →
     let U := (csrMask csr.toNat).getLsbD k
     (new (.csrw m r csr)).getLsbD k = (if U then v.getLsbD k else old.getLsbD k) ∧
     (new (.csrs m c csr)).getLsbD k = (if U then old.getLsbD k || v.getLsbD k else old.getLsbD k) ∧
     (new (.csrc m c csr)).getLsbD k = (if U then old.getLsbD k && !v.getLsbD k else old.getLsbD k) ∧
     (∀ i n, n ≠ csr.toNat % 0x800 → n ∈ [2, 3, 4, 0xC, 0xF] → i ∈ [Instr.csrw m r csr, .csrs m c csr, .csrc m c csr] →
       csrWord ((presentCsr s w { h with i := i }).iss w) n = csrWord (s.iss w) n))

/-- R231, R177, R46, R189, R151, R393: what the U view of the special registers reads: the tick, the superstep word,
the flags, the lane, the issuer's slot, the core, the cluster, the chip, the launch, the recovery counts and the
partition; the registers that the U view writes read with the issuer's own held writes. R7, R172, R189: the P view shows a
register whole, among them those that no U number names. -/
def Obligations.SpecialRegisterValues : Prop :=
  ∀ (m : Mods) (s : State) (l : Nat),
    let x := s.ctx m
    csrRead x 0 l = BitVec.ofNat 64 s.tick ∧
    (csrRead x 1 l).toNat = s.chip.sstep.toNat % 2 ^ 33 ∧
    (x.me.allHeld = [] → csrRead x 2 l = x.me.flags &&& 0x1F ∧ csrRead x 3 l = x.me.flagen ∧
      csrRead x 4 l = x.me.seed ∧ csrRead x 0xC l = x.me.fmask ∧ csrRead x 0xF l = x.me.trapvec) ∧
    csrRead x 5 l = (if s.cur.n = 16 then 0 else BitVec.ofNat 64 l) ∧
    csrRead x 6 l = BitVec.ofNat 64 s.cur.n ∧ csrRead x 8 l = BitVec.ofNat 64 s.cur.co ∧
    csrRead x 9 l = BitVec.ofNat 64 s.cur.cl ∧ csrRead x 0xA l = BitVec.ofNat 64 chipNo ∧
    (csrRead x 0xB l).toNat = x.c.launch % 2 ^ 31 ∧
    csrRead x 0xD l = BitVec.ofNat 64 (x.me.rcount % 16 + x.me.rnum % 2 ^ 32 * 2 ^ 32) ∧
    (x.me.allHeld = [] → csrShow x 0x802 l = x.me.flags ∧ csrShow x 0x80C l = x.me.fmask ∧ csrShow x 0x900 l = x.c.dcbptr ∧
      csrShow x 0x901 l = x.c.ptbase ∧ csrShow x 0x902 l = x.c.modew ∧ csrShow x 0x904 l = s.chip.psnbase ∧
      csrShow x 0x903 l = coreMapWord s s.cur.cl ∧
      csrShow x 0x80D l = BitVec.ofNat 64 (x.me.rcount % 16 + x.me.rlimit % 16 * 16 + x.me.rnum % 2 ^ 32 * 2 ^ 32)) ∧
    csrRead x 0xE l = x.c.partw ∧ (csrRead x 0x10 l).toNat = s.chip.orchst.toNat % 8 ∧
    (csrRead x 0x11 l).toNat = (s.chip.cluster s.cur.cl).pairst.toNat % 2 ^ 33

/-- R368 to R370, R373: TRAPF goes on when no tested bit is set and is a blocking point when one is; BKPT without a
debug session goes on; HALT ends the active threads of a warp; NOP only goes on; a program's TLBINV takes a
privilege exception, and a service core's drops what it names from every TLB and waits; GLAUNCH, OALLOC and OFREE on a warp, and IRET outside a handler, take an illegal-instruction
exception with cause 3. -/
def Obligations.SystemInstructions : Prop :=
  ∀ (m : Mods) (s : State),
    let x := s.ctx m
    let idle := fun (i : Instr) => Completes i s fun t =>
      Advances s t m ∧ SameRegs s t ∧ (t.iss s.cur).allHeld = x.me.allHeld
    let bad := fun (i : Instr) => exec i s = .next (raise x { cls := 0x01, sub := 3 })
    (regionCause x [] = none →
      ((x.act = [] ∨ quiet s s.cur = true ∧ trapfBits x = 0) → idle (.trapf m)) ∧
      (dbgSession s s.cur = false → ∀ imm, idle (.bkpt m imm)) ∧
      (s.cur.n ≠ 16 → x.act ≠ [] → Completes (.halt m) s fun t =>
        (t.iss s.cur).ended = x.me.ended ++ x.act ∧ SameRegs s t ∧
        HeldAdded s t (x.hold (.halt m) [] [] []) ∧
        if (t.iss s.cur).live (x.c.lanes s.cur.n) = [] then
          (t.iss s.cur).wait = .block (.halt m) .commit x.act [] s.tick x.pc else Advances s t m)) ∧
    (x.act ≠ [] → afterAtomic x = false → quiet s s.cur = true → trapfBits x ≠ 0 →
      Completes (.trapf m) s fun t => Blocks s t m (.trapf m) [BitVec.ofNat 64 (trapfBits x)]) ∧
    (∀ park, regionCause (s.ctx ⟨park, 0, false⟩) [] = none → Completes (.nop park) s fun t =>
      Advances s t ⟨park, 0, false⟩ ∧ RegFrame s t ∧ (t.iss s.cur).pend = x.me.pend) ∧
    (x.c.priv = false → ∀ r mode tenant, exec (.tlbinv m r mode tenant) s = .next (raise x { cls := 0x02 })) ∧
    (x.c.priv = true → regionCause x [] = none → x.act ≠ [] → ∀ (r : BitVec 9) (mode : BitVec 2) (tenant : BitVec 6),
      let gone := fun e : TlbE => if mode = 0 then e.hits tenant.toNat ((x.low64 r).toNat % 2 ^ 51)
        else if mode = 1 then e.tenant == tenant.toNat else true
      Completes (.tlbinv m r mode tenant) s fun t =>
        t.chip.shTlb = s.chip.shTlb.filter (fun e => !gone e) ∧
        (∀ cl, (t.chip.cluster cl).tlb = (s.chip.cluster cl).tlb.filter fun e => !gone e) ∧
        (∀ k ∈ t.chip.walks, k.install = false) ∧
        Stands s t m (fun _ => s.nextPc s.cur.cl x.pc) (.inv s.chip.ids) ∧ SameRegs s t) ∧
    (s.cur.n ≠ 16 → (∀ r, bad (.glaunch m r)) ∧ (∀ d a mir, bad (.oalloc m d a mir)) ∧ ∀ d a, bad (.ofree m d a)) ∧
    (bit x.me.trapvec 48 = false → bad (.iret m))

/-- R31, R154 to R157, R188, R210 to R213: a turn begins at a header that lets it, with the header's delay at its first
instruction; an issuer that must wait, or whose header waits, spends one bubble tick; a turn that can no longer go
on ends. Registers and memory stay. -/
def Obligations.IssueTurns : Prop :=
  ∀ s : State,
    let w := s.cur
    let c := s.coreOf w
    let me := s.iss w
    let u := s.updIss w fun me => { me with wait := .run, mark := false }
    let x := u.ctx ⟨false, 0, false⟩
    let bub := fun t : State => SameRegs s t ∧
      if w.n = 16 then (t.iss w).nextAt = s.tick + 1 else
        (t.coreOf w).rotSlot = (c.rotSlot + 1) % 16 ∧ (t.coreOf w).rotAt = s.tick + 1 ∧ (t.coreOf w).inTurn = false
    (w.n ≠ 16 → c.inTurn = true → Completes .issueTurn s fun t => SameRegs s t ∧
      (t.coreOf w).rotSlot = (c.rotSlot + 1) % 16 ∧ (t.coreOf w).rotAt = s.tick ∧ (t.coreOf w).inTurn = false) ∧
    ((w.n = 16 ∨ c.inTurn = false) → (heldBack s w = true ∨ standsBack me = true) → Completes .issueTurn s bub) ∧
    ((w.n = 16 ∨ c.inTurn = false) → heldBack s w = false → standsBack me = false → me.wait = .run →
      ∀ v, lateReply s w = some v → Completes .issueTurn s fun t => bub t ∧ (t.iss w).wait = v) ∧
    ((w.n = 16 ∨ c.inTurn = false) → heldBack s w = false → standsBack me = false → (∀ i l v k p, me.wait ≠ .block i .commit l v k p) →
      (∀ d l, me.wait ≠ .dqpop d l) → (me.wait = .run → lateReply s w = none) →
      (waitOver s w = false → Completes .issueTurn s bub) ∧
      (waitOver s w = true → x.sel ≠ [] → headerFault u x.c x.front x.pc = none →
        (x.pc % 16 ≠ 0 ∨ headerWaits x = .met) → Completes .issueTurn s fun t => SameRegs s t ∧
          (t.iss w).entered = true ∧ (t.iss w).wait = .run ∧ (t.iss w).pcs = me.pcs ∧
          (t.iss w).delay = (if x.pc % 16 = 0 then bits (s.header w.cl x.pc) 40 8 else 0) ∧
          (t.coreOf w).inTurn = (if w.n = 16 then c.inTurn else true)))

/-- R120, R182, R187, R204: the oldest region commits when its time has come and its loads have replied, and its held
effects queue for presentation; else it is looked at again. A discarded region is entered again where it was
opened. -/
def Obligations.RegionCommitAndReentry : Prop :=
  ∀ (s : State) (r : Region) (rest : List Region),
    let w := s.cur
    let me := s.iss w
    (me.regions = r :: rest → r.closed ≠ none →
      (regionReady s w r = false →
        exec .regionCommit s = .next (s.sched (max (s.tick + 1) r.due) w .regionCommit)) ∧
      (regionReady s w r = true → ((s.coreOf w).pair = false ∨ bit (s.chip.cluster w.cl).pairst w.co = true) →
        (rest ≠ [] ∨ me.wait = .run) → Completes .regionCommit s fun t =>
          (t.iss w).regions = rest ∧ (t.iss w).presq = me.presq ++ r.held ∧ (t.iss w).rcount = 0 ∧
          (t.iss w).lastCommit = s.tick ∧ (r.held ≠ [] → (t.iss w).presBusy = true ∧
            (me.presBusy = false → (s.tick, w, Instr.heldEffectPresentation) ∈ t.agenda)) ∧
          (t.iss w).pend = me.pend ∧ SameBut s t w fun me => { me with rcount := 0 })) ∧
    (me.redo = some r → Completes .regionReentry s fun t =>
      (t.iss w).redo = none ∧ (t.iss w).pcs = r.pcs ∧ (t.iss w).wait = .run ∧ SameRegs s t ∧
      match r.opener with
      | .rgn | .again => (t.iss w).regions = me.regions
      | .start | .block => ∃ n, (t.iss w).regions = me.regions ++ [n] ∧ n.num = r.num % 2 ^ 32 ∧ n.mask = 0 ∧
          n.held = [] ∧ n.closed = none ∧ n.pcs = r.pcs)

/-- R120, R122, R287, R43: the oldest waiting effect is presented, the next one a tick later; a release waits for
what came before it. A store to memory sends its access; a store of one lane to an initialised sector of a scratchpad
changes exactly its bytes. -/
def Obligations.StorePresentation : Prop :=
  ∀ (s : State) (h : Held) (rest : List Held),
    let w := s.cur
    let me := s.iss w
    me.presq = h :: rest →
    (releaseWaits s w h = true →
      exec .heldEffectPresentation s = .next (s.sched (s.tick + 1) w .heldEffectPresentation)) ∧
    (releaseWaits s w h = false → me.suppress.find? heldRecord = none → ∀ (o : MemF) (sz : BitVec 2), h.i = .st o sz →
      let n := 2 ^ sz.toNat
      (∀ l ls, h.lanes = l :: ls → l.space = 0 ∨ l.space = 2 → Completes .heldEffectPresentation s fun t =>
        (∃ q, t.chip.reqs = s.chip.reqs ++ [q] ∧ q.kind = .store ∧ q.w = w ∧ q.h = h ∧ q.space = l.space ∧
          q.lanes = h.lanes ∧ q.bound = s.tick + (if l.space = 0 then 2400 else 4000)) ∧
        (t.iss w).presq = rest ∧ (rest ≠ [] → (s.tick + 1, w, Instr.heldEffectPresentation) ∈ t.agenda) ∧
        SameRegs s t) ∧
      (∀ l, s.memWf → h.lanes = [l] → 4 ≤ l.space → l.pa < 2 ^ 32 →
        let tc := l.pa / 2 ^ 24
        let off := l.pa % 2 ^ 24
        let c := s.core w.cl tc
        spCheck c s.tick (some (tc, off)) n true false = none → off % n = 0 →
        Sparse.get false c.scInit (off / 64) = true → Completes .heldEffectPresentation s fun t =>
          (∀ k, k < n → t.byte (keySp w.cl tc off + k) = BitVec.ofNat 8 ((nth l.ops 0 0).toNat / 256 ^ k % 256)) ∧
          (∀ k, ¬(keySp w.cl tc off ≤ k ∧ k < keySp w.cl tc off + n) → t.byte k = s.byte k) ∧
          (t.iss w).presq = rest ∧ (∀ v, (t.iss v).regs = (s.iss v).regs)))

/-- R58, R61, R66, R144, R293, R295: at the home, one sector of an access is applied as one step, unless its transfer fails its
check and waits to be repeated. A load reads and changes no byte; a store of one lane changes exactly its bytes, and a
returning atomic or a reduction replaces them by its function of the old value; the sector of HBM that is written takes the
stamp of a plain store on a checked page, keeps its stamp under a synchronising access there, and loses it on a page that is
not checked; no other stamp changes. -/
def Obligations.HomeAccesses : Prop :=
  ∀ (s : State) (q : Req) (sec : Nat) (l : LaneAcc),
    let key := memKey q.space l.pa
    let n := accSize q.h.i
    let old := BitVec.ofNat 64 (leNat (s.bytes key n))
    let E := Instr.hbmSectorAccess sec .good
    let stack := stackOf (sec * 64 % 2 ^ 40)
    let written := fun (t : State) (v : DWord) =>
      (∀ k, k < n → t.byte (key + k) = BitVec.ofNat 8 (v.toNat / 256 ^ k % 256)) ∧
      (∀ k, ¬(key ≤ k ∧ k < key + n) → t.byte k = s.byte k) ∧
      (∀ k, t.stamp k = if k = sec ∧ (q.space = 0 ∨ q.space = 1) then
        (if q.chk = false then 0xC000 else if q.sync = true ∨ q.kind ≠ .store then s.stamp k
          else BitVec.ofNat 16 (s.sstep % 256 + q.w.cl % 64 * 2 ^ 8 + (if q.space = 0 then 0 else 2 ^ 14)))
        else s.stamp k)
    let fails := fun t : State => q.space = 0 ∧ (q.id, sec, 1) ∈ (t.stack stack).repeats ∧ (∀ k, t.byte k = s.byte k) ∧
      t.stamps = s.stamps ∧ t.req q.id = some q
    s.memWf → s.req s.cur.n = some q → sec ∈ q.sectors → (q.lanes.filter fun l => l.pa / 64 == sec) = [l] →
    (mustWait s q sec = true → exec E s = .next (s.sched (s.tick + 1) s.cur E)) ∧
    (mustWait s q sec = false → (∀ e ∈ (s.stack stack).repeats, ¬(e.1 = q.id ∧ e.2.1 = sec)) →
      (q.kind = .load → (∃ o sz sx, q.h.i = .ld o sz sx) → Completes E s fun t => fails t ∨
        ((∀ k, t.byte k = s.byte k) ∧ t.stamps = s.stamps ∧
          ((t.req q.id).map fun r => r.results) = some (q.results ++ [(l.lane, [old])]))) ∧
      (q.kind = .store → (∃ o sz, q.h.i = .st o sz) → Completes E s fun t => fails t ∨ written t (nth l.ops 0 0)) ∧
      (∀ o b64 fn, (q.kind = .atom ∧ q.h.i = .atom o b64 fn ∨ q.kind = .red ∧ q.h.i = .red o b64 fn) → q.space ≤ 1 →
        Completes E s fun t => fails t ∨ (written t (newValue fn b64 old (nth l.ops 0 0) (nth l.ops 1 0)) ∧
          ((t.req q.id).map fun r => r.results) = some (q.results ++ [(l.lane, [old])]))))

/-- R77, R88, R421, R424, R426: a sector of an access to Orchard or to another chip leaves in a slot of its port, and its home
or the switch acts on it later; the switch forwards it within 640 ticks more; a bank of Orchard applies its sectors in order;
a mirrored one goes to the other switch as it then stands. The 160 ticks from the slot on are the model's choice, log 38. -/
def Obligations.FabricAccesses : Prop :=
  ∀ (s : State) (q : Req) (id sec : Nat) (rest : List (Nat × Nat)),
    let sw := s.cur.n
    (s.net.isolated = false → assoc s.net.portq sw = some ((id, sec) :: rest) → s.req id = some q →
      Completes .accessSlotSend s fun t => assoc t.net.portq sw = some rest ∧ (∀ k, t.byte k = s.byte k) ∧
        if s.dbg.replaying = true then
          t.net.swq = s.net.swq ∧ ∀ e ∈ t.agenda, e ∉ s.agenda →
            e.2.2 ≠ Instr.orchardAccessApply ∧ e.2.2 ≠ Instr.switchForward
        else if q.space = 2 then (s.tick + 160, secObj id sec, Instr.orchardAccessApply) ∈ t.agenda
        else assoc t.net.swq sw = some ((assoc s.net.swq sw).getD [] ++ [(id, sec)]) ∧
          (s.tick + 160, obj sw, Instr.switchForward) ∈ t.agenda) ∧
    (assoc s.net.swq sw = some ((id, sec) :: rest) → s.req id = some q →
      Completes .switchForward s fun t => assoc t.net.swq sw = some rest ∧ (∀ k, t.byte k = s.byte k) ∧
        ∃ d e, d ≤ 640 ∧ (s.tick + d, obj id, Instr.hbmSectorAccess sec e) ∈ t.agenda) ∧
    (∀ l o sz, s.memWf → s.req s.cur.n = some q → s.cur.co = sec → sec ∈ q.sectors → q.kind = .store → q.space = 2 →
      q.h.i = .st o sz → (q.lanes.filter fun l => l.pa / 64 == sec) = [l] → s.net.failed.contains (swOf sec) = false →
      (mustWait s q sec = true → exec .orchardAccessApply s = .next (s.sched (s.tick + 1) s.cur .orchardAccessApply)) ∧
      (mustWait s q sec = false →
        let key := keyOrch l.pa
        Completes .orchardAccessApply s fun t =>
          (∀ k, k < 2 ^ sz.toNat → t.byte (key + k) = BitVec.ofNat 8 ((nth l.ops 0 0).toNat / 256 ^ k % 256)) ∧
          (∀ k, ¬(key ≤ k ∧ k < key + 2 ^ sz.toNat) → t.byte k = s.byte k) ∧
          (q.mir = true → s.net.failed = [] → bits s.chip.orchst 0 2 = 0 →
            assoc t.net.mirq (1 - swOf sec) = some ((assoc s.net.mirq (1 - swOf sec)).getD [] ++
              [(q.id, sec, t.bytes (keyOrch (sec * 64)) 64)])))) ∧
    (∀ bs link, s.memWf → assoc s.net.mirq s.cur.co = some ((id, sec, bs) :: link) → bs.length = 64 →
      let other := if sec * 64 / 2 ^ 42 % 2 = 0 then sec * 64 + 2 ^ 42 else sec * 64 - 2 ^ 42
      Completes .mirrorUpdate s fun t => assoc t.net.mirq s.cur.co = some link ∧
        (∀ k, k < 64 → t.byte (keyOrch other + k) = nth bs k 0) ∧
        (∀ k, ¬(keyOrch other ≤ k ∧ k < keyOrch other + 64) → t.byte k = s.byte k))

/-- R62, R86, R87, R147, R186 to R188, R286, R293: a reply's values become visible at its tick; a poisoned or lost one
discards its issuer's regions; an atomic's poisoned reply makes the issuer send it again; an acknowledgement ends
its write, and one that reports a failure marks the block and is reported. R188: a returning atomic that is sent
again is translated anew, and goes out under its own record. -/
def Obligations.RepliesAndRetries : Prop :=
  (∀ (s : State) (q : Req),
     let w := q.w
     let me := s.iss w
     let gone := s.chip.reqs.filter fun p => p.id != q.id
     let fw := fun l => match q.lanes.find? fun a => a.lane == l with
       | some a => ((nth a.ops 0 0).toNat, (nth a.ops 1 0).toNat)
       | none => (0, 0)
     let pends := fun (vis rnum home : Nat) (ws : List Wr) => (ws.filter fun e => !e.2.isEmpty).map fun e =>
       (⟨vis, e.1, e.2, rnum, home, q.h.itick⟩ : Pend)
     s.req s.cur.n = some q → (s.dbg.rlogOn = true → q.space = 0 ∨ q.space = 3) →
     (∀ o sz sx, q.kind = .load → q.h.i = .ld o sz sx → q.psn = false → q.stat ≠ 2 → q.chk = false →
       (q.space = 0 ∨ q.space = 2) →
       let vis := max q.bound (if (s.coreOf w).elastic = true then s.tick + replyLead else s.tick)
       Completes .loadReply s fun t => t.chip.reqs = gone ∧
         (t.iss w).pend = me.pend ++ pends vis q.rnum q.space (loadWrites (w.n == 16) o.data.toNat (2 ^ sz.toNat) sx
           (q.results.map fun r => (r.1, overlay (2 ^ sz.toNat) (fw r.1) (nth r.2 0 0)))) ∧
         (t.iss w).wait = (if me.wait = .reply q.id then .until_ vis else me.wait) ∧ SameBut s t w id) ∧
     (q.kind = .load → (q.psn = true ∨ q.stat = 2) → q.space = 0 → (s.coreOf w).lean = false → me.rcount + 1 ≤ me.rlimit →
       ∀ r rest, me.regions = r :: rest → Completes .loadReply s fun t =>
         (t.iss w).regions = [] ∧ (t.iss w).redo = some r ∧ (t.iss w).rcount = me.rcount + 1 ∧
         (t.iss w).wait = .run ∧ (∀ k, t.byte k = s.byte k)) ∧
     (∀ o b64 fn, q.h.i = .atom o b64 fn →
       (q.psn = false → q.stat ≠ 1 → q.stat ≠ 2 → Completes .atomicReply s fun t =>
         t.chip.reqs = gone ∧ (t.iss w).retry = none ∧
         (t.iss w).pend = me.pend ++ pends q.bound (2 ^ 32) ((q.h.lanes.map (·.space)).headD noHome)
           (loadWrites (w.n == 16) o.data.toNat (if b64 then 8 else 4) false
             (q.results.map fun r => (r.1, nth r.2 0 0))) ∧ SameBut s t w id) ∧
       ((q.psn = true ∨ q.stat = 1 ∨ q.stat = 2) → q.space = 0 → (s.coreOf w).lean = false → me.rcount + 1 ≤ me.rlimit →
         Completes .atomicReply s fun t => (t.iss w).retry = some ⟨q.h, q.id, true⟩ ∧ (t.iss w).rcount = me.rcount + 1 ∧
           (t.iss w).regions = [] ∧ t.chip.reqs.all (fun p => p.id != q.id) = true ∧ (∀ k, t.byte k = s.byte k))) ∧
     ((q.kind = .store ∨ q.kind = .red) → q.acks ≤ 1 →
       (q.fchip = 0 → q.fsw = 0 → q.stat = 0 → exec .writeAck s = .next (s.delReq q.id)) ∧
       ∀ word : DWord, (bits word 0 20 = 0 → exec (.acknowledgementWord word) s = .next (s.delReq q.id)) ∧
         (bits word 0 20 ≠ 0 → ∀ bi b, (s.coreOf w).blockOf w.n = some bi →
           (s.coreOf w).blocks.find? (fun b => b.idx == bi) = some b → Completes (.acknowledgementWord word) s fun t =>
             ((t.coreOf w).block bi).sloss = true ∧
             ((t.coreOf w).block bi).fchip = b.fchip ||| BitVec.ofNat 16 (bits word 0 16) ∧
             (∃ k r, t.fw.faults = s.fw.faults ++ [(k, r, none)] ∧ bits (nth r 0 0) 0 8 = 0x13 ∧ nth r 6 0 = word) ∧
             (∀ k, t.byte k = s.byte k)))) ∧
  (∀ (s : State) (r : Retry) (ls : List (Nat × DWord × Nat × DWord)),
     let w := s.cur
     (s.iss w).retry = some r →
     (transLanes s w.cl (s.coreOf w).ptw .atom (r.h.lanes.map fun l => (l.lane, l.va))).1 = .ok ls →
     Completes .atomicRetry s fun t =>
       (∃ q, t.chip.reqs = s.chip.reqs ++ [q] ∧ q.kind = .atom ∧ q.w = w ∧ q.h = r.h ∧ q.rnum = r.h.rnum ∧
         q.lanes.map (·.pa) = (r.h.lanes.zip ls).map fun p => p.2.2.2.1) ∧
       ((t.iss w).retry.map fun k => (k.h, k.again)) = some (r.h, true) ∧ SameRegs s t)

/-- R24, R26, R28, R29, R32: a miss that has been looked up waits for one of 64 walk slots; a walk's end installs its entry in
the TLBs that missed unless an invalidation caught it, and lets what waited for it go on; a completed
invalidation lets its issuer go on; a poison update reaches every entry that covers the granule, and no other; a
clear notice drops them and removes the granule from its bucket of the remote table. R17, R19, R20, R21, R91: the checks of a
translated access, in order, on the TLB entry that serves it: formed address, tenant, space, a lost switch, permission and
poison, each with its class, and the physical address when all hold; a service core's own HBM needs none. -/
def Obligations.Translation : Prop :=
  (∀ s : State,
     (∀ k, s.chip.walks.find? (fun v => v.id == s.cur.n) = some k →
       let reading := fun t : State => (t.chip.walks.filter fun j => j.stage == .reads).length
       (k.stage = .waits → exec .pageTableReadReturn s = .next s) ∧
       (k.stage ≠ .waits → Completes .pageTableReadReturn s fun t =>
         SameBut s t s.cur id ∧ ((s.chip.walks.map (·.id)).Nodup → reading s ≤ 64 → reading t ≤ 64) ∧
         if k.stage = .lookup ∧ k.shared = false then
           t.chip.walks.map (·.id) = s.chip.walks.map (·.id) ∧ t.chip.shTlb = s.chip.shTlb ∧ t.chip.clusters = s.chip.clusters
         else
           t.chip.walks.map (·.id) = (s.chip.walks.map (·.id)).filter (fun n => n != s.cur.n) ∧
           (k.install = true → (k.shared = false → k.e ∈ t.chip.shTlb) ∧ ∀ cl ∈ k.cls, k.e ∈ (t.chip.cluster cl).tlb) ∧
           (k.install = false → t.chip.shTlb = s.chip.shTlb ∧ t.chip.clusters = s.chip.clusters) ∧
           (∀ i ∈ t.chip.invs, s.cur.n ∉ i.walks) ∧ ∀ q ∈ t.chip.reqs, s.cur.n ∉ q.walks)) ∧
     (∀ v w, s.chip.invs.find? (fun i => i.id == s.cur.n) = some v → v.w = some w → (s.iss w).wait = .inv s.cur.n →
       Completes .tlbInvalidationComplete s fun t =>
         t.chip.invs = s.chip.invs.filter (fun i => i.id != s.cur.n) ∧ (t.iss w).wait = .run ∧ SameBut s t w id) ∧
     (∀ g psn, Completes (.poisonUpdate g psn) s fun t =>
       (∀ e ∈ t.chip.shTlb, e.covers g = true → e.whole = false ∧ e.psn.getLsbD (g % 8) = psn) ∧
       (∀ e, e.covers g = false → (e ∈ t.chip.shTlb ↔ e ∈ s.chip.shTlb)) ∧
       (∀ c ∈ t.chip.clusters, ∀ e ∈ c.tlb, e.covers g = true → e.whole = false ∧ e.psn.getLsbD (g % 8) = psn) ∧
       (∀ k ∈ t.chip.walks, k.install = true → k.e.covers g = true → k.e.whole = false ∧ k.e.psn.getLsbD (g % 8) = psn) ∧
       SameBut s t s.cur id) ∧
     (∀ g, s.memWf → Completes (.poisonClearNotice g) s fun t =>
       (∀ e ∈ t.chip.shTlb, e.covers g = false) ∧ (∀ c ∈ t.chip.clusters, ∀ e ∈ c.tlb, e.covers g = false) ∧
       (∀ k, k < 8 → let d := t.dword (bucketKey s (g * 4096) + 8 * k); ¬(bit d 0 = true ∧ bits d 12 40 = g)) ∧
       (∀ k, ¬(bucketKey s (g * 4096) ≤ k ∧ k < bucketKey s (g * 4096) + 64) → t.byte k = s.byte k))) ∧
  (∀ (s : State) (cl : Nat) (ptw : DWord) (a : Acc) (ad : DWord),
     let va := ad.toNat % 2 ^ 51
     let cause := fun (i : TrapInfo) => (i.cls, i.sub, i.addr)
     let bad := fun (k : Nat × Nat) => match (Machine.translate s cl ptw a ad).1 with
       | .error i => cause i = (k.1, k.2, ad)
       | .ok _ => False
     let good := fun (r : Nat × DWord) => (Machine.translate s cl ptw a ad).1.toOption = some r
     if 3 < spaceOf ad then bad (3, 1)
     else if bit ptw 63 = true ∧ spaceOf ad = 0 then
       (if localHbm (ad.toNat % 2 ^ 52) then good (ad.toNat % 2 ^ 52, 0xF) else bad (3, 2))
     else if bits ad 51 9 ≠ 0 then bad (3, 2)
     else ∀ e, (s.chip.cluster cl).tlb.find? (fun e => e.hits (ptw.toNat % 64) va) = some e →
       let p := e.pte
       let sp := leafSpace p
       let pa := frame p + va % 2 ^ levelShift e.level
       if !formedOk sp pa then bad (5, e.level)
       else if bits p 9 6 ≠ ptw.toNat % 64 then bad (6, 1) else if sp ≠ spaceOf ad then bad (3, 3)
       else match (if sp = 2 then orchPa s p pa else some pa) with
         | none => bad (7, 0)
         | some pa =>
           if !opAllowed s sp a pa then bad (3, 4)
           else if (match a with
             | .load | .fill => !bit p 2
             | .store | .red | .write | .aos => !bit p 3
             | .atom => !(bit p 2 && bit p 3)
             | .code => !bit p 2 || bit p 4) then bad (6, 2)
           else if a ≠ .fill ∧ e.psn.getLsbD (pa / 4096 % 8) = true then bad (8, 1)
           else good (pa, p))

/-- R186, R189, R192, R199, R206, R208: a strike that is reported in time and for the first time discards the regions from the
oldest whose window holds its tick, and any other report does nothing; an
uncorrectable error of a pool rolls back the block that owns the sector; a pair's self-test unpairs it and lets the core
go on; a superstep's re-execution drops every transfer and presentation of it. -/
def Obligations.RecoveryEvents : Prop :=
  ∀ s : State,
    let cl := s.cur.cl
    let co := s.cur.co
    let c := s.core cl co
    let fresh := fun at_ : Nat => at_ ≤ s.tick ∧ s.tick ≤ at_ + 320 ∧ at_ ∉ (s.chip.cluster cl).strikes
    (∀ at_, ¬fresh at_ → exec (.strikeReport at_) s = .next s) ∧
    (∀ at_ i k r, fresh at_ → (s.cores.filter fun d => d.cl == cl && d.active) = [c] → c.co = co → c.issuers = [i] →
      c.vers = [] → c.lean = false → i.regions.findIdx? (fun r => r.contains at_) = some k → i.regions[k]? = some r →
      (k = 0 → i.rcount + 1 ≤ i.rlimit) → Completes (.strikeReport at_) s fun t =>
        let u := t.iss ⟨cl, co, i.slot⟩
        u.regions = i.regions.take k ∧ u.redo = some r ∧ u.wait = .run ∧
        u.rcount = (if k = 0 then i.rcount + 1 else i.rcount) ∧ at_ ∈ (t.chip.cluster cl).strikes ∧ ∀ k, t.byte k = s.byte k) ∧
    (∀ slot r l, exec (.poolEccError (.vreg slot r l)) s = .next (rollback s cl co (c.iss slot).bidx false)) ∧
    (∀ a sec, c.bpc = 1 → exec (.poolEccError (.acc a)) s = .next (rollback s cl co 0 false) ∧
      exec (.poolEccError .front) s = .next (rollback s cl co 0 false) ∧
      (c.blocks.map (·.idx) = [0] → exec (.poolEccError (.scratch sec)) s = .next (rollback s cl co 0 false))) ∧
    (∀ f, co < 64 → Completes (.pairSelfTest f) s fun t =>
      bit (t.chip.cluster cl).pairst co = true ∧ (t.core cl co).halt = false ∧
      (t.chip.cluster cl).cmap.fenced = (s.chip.cluster cl).cmap.fenced ++
        [(assoc (s.chip.cluster cl).cmap.phys (2 * co + (if f then 0 else 1))).getD (2 * co + (if f then 0 else 1))] ∧
      ∀ k, t.byte k = s.byte k) ∧
    (Completes .superstepReexecution s fun t => t.net.portq = [] ∧ t.net.swq = [] ∧ t.net.mirq = [] ∧ t.net.sendq = [] ∧
      (∀ q ∈ t.chip.colls, q.ended = true) ∧ ∀ q ∈ t.chip.reqs, q.kind ≠ .coll ∧ q.space ≠ 1 ∧ q.space ≠ 2)

/-- R195, R197, R200, R201: a rollback of a block whose newest interval has not overflowed puts each party back to its
snapshot's PCs in a new region, with its logged effects to be compared and not performed again; one whose log has
overflowed kills the block. -/
def Obligations.BlockRollback : Prop :=
  ∀ (s : State) (cl co bi : Nat) (iv : Ival) (b : Block),
    let c := s.core cl co
    c.blocks = [b] → b.idx = bi → b.ended = false → b.ivals = [iv] →
    (iv.overflow = true → ((rollback s cl co bi false).core cl co).blocks.map (fun b => (b.ended, b.status)) = [(true, 1)]) ∧
    (iv.overflow = false → iv.rolls = 0 → ∀ p, iv.issuers = [p] → p.wait ≠ .ended →
      let t := rollback s cl co bi false
      let me := t.iss ⟨cl, co, p.slot⟩
      me.pcs = p.pcs ∧ me.wait = .run ∧ me.presq = [] ∧ me.redo = none ∧
      (∃ r, me.regions = [r] ∧ r.held = [] ∧ r.pcs = p.pcs ∧ r.closed = none) ∧
      me.suppress = (iv.effects.filter fun e => e.1 == p.slot).map (fun e => (e.2.1, e.2.2.1.toNat, e.2.2.2)) ∧
      (t.core cl co).blocks.map (fun b => (b.rolls, b.arrived)) = [(b.rolls + 1, [])])

/-- R65, R67 to R70, R73, R398: error counters lose one at a time, and the decay repeats; a refresh takes one from its
bank's backlog and outside slack is a schedule fault of a strict grid; a slack window serves the largest backlogs and the
write-backs; the patrol's timer visits a row every 4,096 ticks; a schedule fault is reported, and the beacon names a resynchronisation tick. -/
def Obligations.MemoryMaintenance : Prop :=
  ∀ s : State,
    let n := s.cur.n
    let st := s.stack n
    ((∀ e ∈ s.chip.hbm, e.2.copies = []) → Completes .errorCountDecay s fun t =>
      t.chip.hbm.map (fun e => (e.1, e.2.errs)) = s.chip.hbm.map (fun e =>
        (e.1, (e.2.errs.map fun r => (r.1, r.2 - 1)).filter fun r => r.2 != 0)) ∧
      t.agenda = s.agenda ++ [(s.tick + 2 ^ 32, obj 0, .errorCountDecay)] ∧ SameBut s t s.cur id) ∧
    (∀ bank, Completes (.refreshOutsideSlack bank) s fun t =>
      (t.stack n).backlog = (st.backlog.map fun e => if e.1 = bank then (e.1, e.2 - 1) else e).filter (fun e => e.2 != 0) ∧
      SameBut s t s.cur id) ∧
    (∀ ticks, 0 < ticks → s.tick < st.refreshAt + refreshTicks → st.repeats = [] → st.copies = [] →
      (∀ e ∈ s.agenda, ∀ k c, e.2.2 ≠ .hbmSectorAccess k c) →
      (st.backlog = [] → ticks / 8 ≤ st.writebacks.length → s.tick < st.patrolAt + 3584 →
        Completes (.slackWindow ticks) s fun t =>
          (t.stack n).writebacks = st.writebacks.drop (ticks / 8) ∧ (t.stack n).patrol = st.patrol ∧ SameBut s t s.cur id) ∧
      (∀ b k, st.backlog = [(b, k)] → 8 ≤ ticks → Completes (.slackWindow ticks) s fun t =>
        (t.stack n).backlog = if k - 1 = 0 then [] else [(b, k - 1)])) ∧
    (Completes (.slackWindow 0) s fun t =>
      if st.patrolAt + 4096 ≤ s.tick then
        (t.stack n).patrol = (st.patrol + 1) % patrolRows n ∧ (t.stack n).patrolAt = s.tick ∧
          (s.tick + 4096, s.cur, Instr.slackWindow 0) ∈ t.agenda
      else (t.stack n).patrol = st.patrol ∧ (st.patrolAt + 4096, s.cur, Instr.slackWindow 0) ∈ t.agenda ∧
        SameBut s t s.cur id) ∧
    (∀ cause, Completes (.scheduleFault cause) s fun t =>
      (s.chip.sched.running = true → s.chip.sched.faulted = false →
        t.chip.sched.faulted = true ∧ t.chip.sched.nocount = (cause == 4) ∧
        (cause ≠ 4 → ∃ d, d ≤ 1000 ∧ (s.tick + d, obj 0, Instr.resyncBeacon (s.tick + 4000 + (initBytes s + 255) / 256)) ∈
          t.agenda)) ∧ SameBut s t s.cur id)

/-- R146, R195, R304, R305, R309, R397: a barrier's last arrival lets every party go on in a new region and adds the cluster
to its own mask; a phase's end advances the phase and its history and counts the next phase's early signals; a superstep
boundary that finds every issuer at its SSYNC, and all that the superstep sent done, advances the number and clears masks and
ranges, and one that does not is a schedule fault (that a write which is left is one too is the model's choice, log 39).
R123: a barrier waits for releases that its parties have still to present (log 39). -/
def Obligations.PhasesAndBoundaries : Prop :=
  ∀ s : State,
    (let cl := s.cur.cl
     let co := s.cur.co
     let bi := s.cur.n
     let c := s.core cl co
     let keeps := (c.liveParties bi).any fun n => releasesQueued (c.iss n)
     (c.block bi).doneAt = some s.tick → cl < 64 →
     (keeps = true → Completes .barrierComplete s fun t =>
       (s.tick + 1, s.cur, Instr.barrierComplete) ∈ t.agenda ∧ SameRegs s t ∧
       ∀ n, (t.iss ⟨cl, co, n⟩).wait = (c.iss n).wait) ∧
     (keeps = false → Completes .barrierComplete s fun t =>
       (∀ n ∈ c.liveParties bi, (c.liveParties bi).Nodup → ∀ pc, waitsBar (c.iss n) = some pc → ∃ r,
         (t.iss ⟨cl, co, n⟩).regions = (c.iss n).regions ++ [r] ∧ r.held = [] ∧ r.mask = 0 ∧
         ((t.iss ⟨cl, co, n⟩).wait = .run ∨ (t.iss ⟨cl, co, n⟩).wait = .marker)) ∧
       (t.chip.cluster cl).mask = (s.chip.cluster cl).mask ||| (1 : DWord) <<< cl ∧
       ((∀ b ∈ c.blocks, b.area = none) → ∀ k, t.byte k = s.byte k))) ∧
    (let p := s.phaser s.cur.n
     (∃ d, p.due = some d ∧ d ≤ s.tick) → (p.members.all fun m => m.inEffect && !m.drop) = true → Completes .phaseComplete s fun t =>
       let q := t.phaser s.cur.n
       q.phase = (p.phase + 1) % 2 ^ 32 ∧ q.arr = p.arr1 ∧ q.arr1 = 0 ∧ q.psn = p.psn1 ∧ q.psn1 = false ∧
       q.phist = BitVec.ofNat 4 (p.phist.toNat * 2 + if p.psn then 1 else 0) ∧ q.mclh = (p.mcl :: p.mclh).take 4 ∧
       q.nsig = p.nsig ∧ q.members = p.members ∧ q.lastDone = s.tick) ∧
    (s.chip.sched.running = true → s.chip.sched.faulted = false → s.chip.sched.resync = none →
      let sent := ssOpen s = [] ∧ ∀ c ∈ ssgCores s, ∀ i ∈ c.issuers, i.presq = []
      let ended := (∀ c ∈ ssgCores s, c.drains = [] ∧ ∀ i ∈ c.issuers, i.wait = .ended ∨ (waitsSsync i).isSome = true) ∧
        ∀ c ∈ s.chip.colls, c.started = true → c.ended = true
      (sent → ended → Completes .superstepBoundary s fun t =>
        t.sstep = (s.sstep + 1) % 2 ^ 32 ∧ bit t.chip.sstep 32 = bit s.chip.sstep 32 ∧
        (∀ k ∈ t.chip.clusters, k.mask = 0 ∧ k.ranges = [] ∧ k.allcov = false)) ∧
      (¬sent → ∀ u, settleSuperstep s = some u → exec .superstepBoundary s = .next u) ∧
      ((sent ∧ ¬ended ∨ ¬sent ∧ settleSuperstep s = none) → Completes .superstepBoundary s fun t =>
        t.sstep = s.sstep ∧ (∃ d k, (s.tick + d, obj k, Instr.scheduleFault 3) ∈ t.agenda) ∧ ∀ k, t.byte k = s.byte k))

/-- R394, R395, R398: a frame that is due takes effect: its number and start, ACT set, and the start of the next
frame, or the end of the table, set; the last frame's end clears ACT and drops the table; a resynchronisation beacon sets
the first frame of the superstep to run again, and the third in a row discards the table. -/
def Obligations.ScheduleFrames : Prop :=
  ∀ s : State,
    let q := s.chip.sched
    (q.next = none → frameDue s s.cur.n = true → Completes .frameStart s fun t =>
      let n := s.cur.n
      t.chip.sched.running = true ∧ t.chip.sched.frame = n ∧ t.chip.sched.frameStart = s.tick ∧
      t.chip.sched.frameLen = frameLen q.words n ∧ t.chip.sched.resync = none ∧ bit t.chip.sstep 32 = true ∧
      t.sstep = (if q.running then s.sstep else 0) ∧
      (if fLast q.words n || nFrames q.words ≤ n + 1 then
        (s.tick + frameLen q.words n, obj n, Instr.lastFrameEnd) ∈ t.agenda
      else (s.tick + frameLen q.words n, obj (n + 1), Instr.frameStart) ∈ t.agenda) ∧
      (fSsb q.words n = true → (s.tick + frameLen q.words n, obj n, Instr.superstepBoundary) ∈ t.agenda)) ∧
    (q.running = true → q.resync = none → q.frameStart + q.frameLen = s.tick → Completes .lastFrameEnd s fun t =>
      bit t.chip.sstep 32 = false ∧ t.sstep = s.sstep ∧ t.chip.sched.running = false ∧ t.chip.sched.words = [] ∧
      t.chip.sched.next = q.next ∧ ∀ k, t.byte k = s.byte k) ∧
    (∀ tr, q.running = true → q.resync = none → q.nocount = false →
      if 3 ≤ q.resyncs + 1 then Completes (.resyncBeacon tr) s fun t =>
        t.chip.sched.running = false ∧ t.chip.sched.words = [] ∧ bit t.chip.sstep 32 = false
      else Completes (.resyncBeacon tr) s fun t =>
        t.chip.sched.resync = some tr ∧ t.chip.sched.resyncs = q.resyncs + 1 ∧
        (s.tick, obj 0, Instr.superstepReexecution) ∈ t.agenda ∧ (tr, obj q.ssFirst, Instr.frameStart) ∈ t.agenda ∧
        ∀ e ∈ t.agenda, e.2.2 = .superstepBoundary → False)

/-- R4, R436, R452, R453, R455: a freeze takes hold at its tick and a resume moves every later tick by its span; the time
chip loads TICK once, another chip from its first beacon with the flight time added; offsets and alarms are recorded. -/
def Obligations.TimeAndFreezes : Prop :=
  ∀ s : State,
    (∀ f, s.frozen = none → (s.tick < f → s.dbg.rlogOn = false → Completes (.freeze f) s fun t =>
        (f, s.cur, Instr.freeze f) ∈ t.agenda ∧ t.frozen = none ∧ SameBut s t s.cur id) ∧
      (f ≤ s.tick → exec (.freeze f) s = .next { s with frozen := some s.tick })) ∧
    (∀ f, s.frozen = some f → s.dbg.rlogOn = false → Completes .freezeResume s fun t =>
      t.frozen = none ∧ t.tick = s.tick ∧
      t.agenda = s.agenda.map (fun e => if outside e.2.2 then e else (if f < e.1 then e.1 + (s.tick - f) else e.1, e.2)) ∧
      ∀ k, t.byte k = s.byte k) ∧
    (∀ v, s.fw.ptpLocked = false → bit s.chip.sstep 32 = false →
      (Completes (.ptpTickLoad v) s fun t => SameBut s t s.cur id ∧
        (chipNo = 0 → t.tick = v ∧ t.fw.ptpLocked = true) ∧ (chipNo ≠ 0 → t.tick = s.tick)) ∧
      Completes (.scheduleBeacon v) s fun t => SameBut s t s.cur id ∧ (chipNo = 0 → t.tick = s.tick) ∧
        (chipNo ≠ 0 → t.tick = v + (if groupOf chipNo = 0 then 160 else 640) ∧ t.fw.ptpLocked = true)) ∧
    (∀ o : Int, Completes (.ptpMessage o) s fun t =>
      t.fw.alarms = s.fw.alarms ++ (if 4000 < o ∨ o < -4000 then [(1, o)] else []) ∧ SameBut s t s.cur id) ∧
    (∀ c : Nat, Completes (.regulatorAlarm c) s fun t =>
      t.fw.alarms = s.fw.alarms ++ [(3, (c : Int))] ∧ t.chip = s.chip ∧ SameBut s t s.cur id)

/-- R42, R51, R52, R193, R302, R423: a counted delivery into a window that awaits it is written and counted, poisoned when its check
code fails, and completes the window when every producer has brought its share; one that no producer word covers, that comes out of state or over the
share faults the window and is not written. A drain's sectors go to their stream, over the crossbar or to memory,
and its end frees the window. -/
def Obligations.WindowDeliveries : Prop :=
  ∀ s : State, s.memWf →
    (∀ (d : Delivery) (n : Nat) (e0 : Win) (rest : List (Nat × Win)),
      let c := s.core d.cl d.co
      let e := c.win n
      let who := fun p : Prod => p.kind == d.kind && p.pid == d.pid
      d.kind = 1 → c.winsAt d.off = (n, e0) :: rest →
      (∀ p, e.valid.find? who = some p → (e.state = .absent ∨ e.state = .filling) → p.count + d.data.length ≤ p.share →
        d.off % 64 + d.data.length ≤ 64 → (c.wcmds.all fun x => x.win != n) = true →
        Completes (.windowLanding d) s fun t =>
          let e' := (t.core d.cl d.co).win n
          e'.prods = e.prods.map (fun q => if q.valid && who q then { q with count := q.count + d.data.length } else q) ∧
          e'.psn = (e.psn || (d.psn || (landCheck s).1)) ∧
          e'.state = (if e'.valid.all fun q => q.count == q.share then .full else .filling) ∧
          t.bytes (keySp d.cl d.co d.off) d.data.length = d.data ∧
          Sparse.get false (t.core d.cl d.co).scInit (d.off / 64) = true ∧
          ∀ k, k < keySp d.cl d.co (d.off / 64 * 64) ∨ keySp d.cl d.co (d.off / 64 * 64) + 64 ≤ k → t.byte k = s.byte k) ∧
      ((∀ p, e.valid.find? who = some p →
          (e.state ≠ .absent ∧ e.state ≠ .filling) ∨ p.share < p.count + d.data.length) →
        Completes (.windowLanding d) s fun t =>
          ((t.core d.cl d.co).win n).state = .faulted ∧ ((t.core d.cl d.co).win n).fault.isSome = true ∧
          ((t.core d.cl d.co).win n).prods = e.prods ∧ ∀ k, t.byte k = s.byte k)) ∧
    (∀ d : Xfer,
      let w := s.cur
      let c := s.coreOf w
      let a := ((c.win w.n).sector d.next).1
      let off := ((c.win w.n).sector d.next).2
      let bs := spSector s w.cl w.co off
      let s1 := s.updCore w.cl w.co fun c => { c with drains := c.drains.map fun x =>
        if x.win = w.n then { x with next := x.next + 1 } else x }
      (c.drains.find? fun d => d.win == w.n) = some d →
      (∀ st k, streamOf s w.cl w.co w.n = some (st, k) → Completes .drainSector s fun t =>
        (assoc t.net.sendq st).getD [] = (assoc s.net.sendq st).getD [] ++ [⟨d.next, !(c.psnAt off),
          (List.range 8).map fun k => BitVec.ofNat 64 (leNat ((bs.drop (8 * k)).take 8))⟩] ∧
        (t.coreOf w).drains = (s1.coreOf w).drains ∧
        (d.next + 1 < d.total → (s.tick, w, Instr.drainSector) ∈ t.agenda)) ∧
      (streamOf s w.cl w.co w.n = none → 3 < spaceOf a → ∀ tc o, poolAddr w.co a = some (tc, o) →
        o + 64 ≤ (s.core w.cl tc).scSize → Completes .drainSector s fun t =>
          (s.tick + 28, ⟨w.cl, w.co, 2 ^ 32 + w.n⟩, Instr.windowLanding ⟨w.cl, tc, o, 1, w.co, c.psnAt off, bs⟩) ∈ t.agenda ∧
          (if d.next + 1 = d.total then (s.tick + 28, w, Instr.drainComplete) ∈ t.agenda
            else d.next + 1 < d.total → (s.tick + c.fill, w, Instr.drainSector) ∈ t.agenda)) ∧
      (streamOf s1 w.cl w.co w.n = none → spaceOf a ≤ 3 → s.dbg.watches = [] → ∀ pa pte s2,
        Machine.translate s1 w.cl c.ptw .write a = (.ok (pa, pte), s2) → Completes .drainSector s fun t =>
          (∃ q ∈ t.chip.reqs, q.kind = .drain ∧ q.dest = [(w.n, d.next)] ∧ q.sectors = [pa / 64] ∧ q.data = bs) ∧
          (d.next + 1 < d.total → (s2.tick + c.fill, w, Instr.drainSector) ∈ t.agenda))) ∧
    (let w := s.cur
     let c := s.coreOf w
     (c.win w.n).state = .draining → (c.wcmds.all fun x => x.win != w.n) = true → Completes .drainComplete s fun t =>
       ((t.coreOf w).win w.n).state = .free ∧ (t.coreOf w).drains = c.drains.filter (fun d => d.win != w.n))

/-- R37, R53, R55, R320, R324, R325, R328, R330, R331: a follow-on command issues when its WDEF's region has committed and its
windows are full, and one that cannot run only clears ARM; a matrix command starts when the array is free, its windows are
ready and a version has room: the array is taken for its occupancy and the new version of its tile holds the result; one
whose windows do not fit faults the tile. Versions retire, then commit into the tile unless a later one has; locks end at their release;
the gather unit starts, and fills its latch. -/
def Obligations.MatrixPipeline : Prop :=
  ∀ s : State,
    let cl := s.cur.cl
    let co := s.cur.co
    let c := s.core cl co
    let noLatch := fun i : Instr => ∀ o l, i ≠ .mma o true l
    let started := fun (s1 t : State) (h : Held) =>
      (t.core cl co).matBusy = s.tick + (cmdTimes h.i).1 ∧
      (∀ k, destTile h.i = some k → ∃ v, (t.core cl co).vers = c.vers ++ [v] ∧ v.tile = k ∧ v.h.i = h.i ∧
        v.start = s.tick ∧ v.retireAt = s.tick + (cmdTimes h.i).2.2 ∧ v.retired = false ∧
        v.data = tileResult s1 cl co h ∧ (v.retireAt, ⟨cl, co, v.id⟩, Instr.accRetire) ∈ t.agenda) ∧
      (destTile h.i = none → (t.core cl co).vers = c.vers)
    (let e := c.win s.cur.n
     let c1 := lockWins (c.setWin s.cur.n { e with arm := false }) e.followWins
     e.v = true → e.arm = true → c.matBusy ≤ s.tick → (∀ n ∈ e.followWins, (c.win n).state = .full) →
      (∀ h, e.armIss = some h → ∀ r ∈ (c.iss 16).regions, r.num ≠ h.rnum) → c.vers.length < 8 →
      let only := Completes .followOnIssue s fun t => t = (s.updCore cl co fun c => c.setWin s.cur.n
        { e with arm := false }).sched s.tick ⟨cl, co, 0⟩ .matrixCommandStart
      (∀ k, decode (Env.wide true 3) e.follow = .error k → only) ∧
      ∀ i, decode (Env.wide true 3) e.follow = .ok i →
        (∀ k, destTile i = some k → (assoc c.tileFault k).isSome = true → only) ∧
        ((∀ k, destTile i = some k → assoc c.tileFault k = none) → operandFault c1 i e.followWins = none →
          noLatch i → Completes .followOnIssue s fun t =>
            let s1 := s.updCore cl co fun _ => { c1 with matSeq := c.matSeq + 1 }
            ((t.core cl co).win s.cur.n).arm = false ∧ ((t.core cl co).win s.cur.n).follow = e.follow ∧
            started s1 t { e.armIss.getD ⟨i, [], [], [], 0, s.tick, 0⟩ with
              i := i, wins := e.followWins, vals := [BitVec.ofNat 64 c.lockId, 0, e.follow] })) ∧
    (∀ q rest, c.halt = false → (∀ p ∈ c.matq, doomed c p = none) → readyFollow c = none → c.matq = q :: rest →
      (∀ n ∈ q.h.wins, (c.win n).state ≠ .faulted ∧ winReady (c.win n) = true) → (∀ e, q.h.i ≠ .epi e) →
      c.matBusy ≤ s.tick → retireRoom c q.h.i = true → noLatch q.h.i →
      let s1 := s.updCore cl co fun c => { c with matq := c.matq.drop 1 }
      (operandFault c q.h.i q.h.wins = none → Completes .matrixCommandStart s fun t =>
        (t.core cl co).matq = rest ∧ started s1 t q.h) ∧
      (∀ k n, operandFault c q.h.i q.h.wins = some (k, n) → Completes .matrixCommandStart s fun t =>
        (t.core cl co).vers = c.vers ∧ (assoc (t.core cl co).tileFault ((destTile q.h.i).getD 0)).isSome = true)) ∧
    (c.wcmds = [] → Completes .operandRelease s fun t =>
      (t.core cl co).locks = c.locks.filter (fun l => match l.until_ with | some u => decide (s.tick < u) | none => true) ∧
      (s.tick, ⟨cl, co, 0⟩, Instr.gatherStart) ∈ t.agenda) ∧
    (∀ v, (c.vers.find? fun v => v.id == s.cur.n) = some v → Completes .accRetire s fun t =>
      (t.core cl co).vers = c.vers.map (fun o => if o.id = v.id then { o with retired := true } else o) ∧
      (s.tick + 320, s.cur, Instr.versionCommit) ∈ t.agenda ∧
      ∀ a, triggers c v = some a →
        (∀ b ∈ (t.core cl co).arms, b.tile ≠ v.tile) ∧ ∃ j ∈ (t.core cl co).jobs, j.e = a.e ∧ j.port = a.port ∧ j.row = 0 ∧
          j.firstRow = max (s.tick + 64) c.epiRowEnd ∧ (j.firstRow, ⟨cl, co, j.id⟩, Instr.epilogueRow) ∈ t.agenda) ∧
    (∀ v, (c.vers.find? fun v => v.id == s.cur.n) = some v → v.stale = true → Completes .versionCommit s fun t =>
      (t.core cl co).vers = c.vers.filter (fun o => o.id != v.id) ∧ (t.core cl co).accC = c.accC) ∧
    (∀ v, (c.vers.find? fun v => v.id == s.cur.n) = some v → v.stale = false → Sparse.wf (0 : Word) c.accC = true →
      Sparse.wf (0 : Word) v.data = true → (∀ e ∈ v.data, e.1 < 4096) → Completes .versionCommit s fun t =>
        (t.core cl co).vers = leftVers v c.vers ∧
        (∀ k, k < 4096 → Sparse.get (0 : Word) (t.core cl co).accC (v.tile * 4096 + k) = Sparse.get 0 v.data k) ∧
        ∀ k, k / 4096 ≠ v.tile → Sparse.get (0 : Word) (t.core cl co).accC k = Sparse.get 0 c.accC k) ∧
    (∀ q rest, c.gatRun = none → c.halt = false → c.gatq = q :: rest → (∀ p ∈ c.gatq, faultedWin c p = none) →
      operandFault c q.h.i q.h.wins = none → winReady (c.win (nth q.h.wins 0 0)) = true →
      (∀ pk ty ha sb l, q.h.i = .mgath pk ty ha sb l → latchBusy c s.tick q.lock l = false) →
      Completes .gatherStart s fun t =>
        let len := match q.h.i with | .cmprs .. => 128 | _ => 64
        (t.core cl co).gatRun = some q ∧ (t.core cl co).gatq = rest ∧ (t.core cl co).gatBusy = s.tick + len ∧
        (s.tick + len, s.cur, Instr.gatherComplete) ∈ t.agenda) ∧
    (∀ q, c.gatRun = some q → Completes .gatherComplete s fun t =>
      (t.core cl co).gatRun = none ∧
      ∀ pk ty ha sb l, q.h.i = .mgath pk ty ha sb l →
        let e := c.win (nth q.h.wins 0 0)
        let la := nth (t.core cl co).latches (b2n l) {}
        la.ty = some ty ∧ la.fault = none ∧ (∀ k, t.byte k = s.byte k) ∧
        ∀ k, k < 64 → nth la.rows k [] =
          if (nth q.h.vals k 0).toNat < e.rows then
            spRead s cl co (e.sbase + (nth q.h.vals k 0).toNat * e.sstride) (kOf ty * ty.bits / 8)
          else List.replicate (kOf ty * ty.bits / 8) 0)

/-- R334, R336, R337, R338: an epilogue's row forms, its flags are gathered and after the last row reach the front
thread; its sends go out one by one over the crossbar or to memory, none past the last that has formed; an
add-on-store adds its elements to those that stand at its place. -/
def Obligations.EpilogueSteps : Prop :=
  ∀ s : State, s.memWf →
    let w := s.cur
    let c := s.coreOf w
    let front : Iss := ⟨w.cl, w.co, 16⟩
    (∀ j, (c.jobs.find? fun j => j.id == w.n) = some j → j.row < 64 → Completes .epilogueRow s fun t =>
      let r := epiRow c j j.row
      let away := (epiSectors j j.row r.1 r.2.1).filter fun x => !(epiLocal w.co x.1)
      (∃ k ∈ (t.coreOf w).jobs, k.id = j.id ∧ k.row = j.row + 1 ∧ k.sends = j.sends ++ away ∧ k.flags = j.flags ||| r.2.2) ∧
      (if j.row = 63 then (t.iss front).flags = (s.iss front).flags ||| (j.flags ||| r.2.2).setWidth 64
        else (s.tick + 1, w, Instr.epilogueRow) ∈ t.agenda) ∧
      (away = epiSectors j j.row r.1 r.2.1 → ∀ k, t.byte k = s.byte k)) ∧
    (∀ j, (c.jobs.find? fun j => j.id == w.n) = some j → j.stopped = false →
      (∀ a bs, j.sends[j.sent]? = some (a, bs) →
        (spaceOf a = 5 → ∀ tc off, poolAddr w.co a = some (tc, off) → Completes .epilogueSend s fun t =>
          (∃ k ∈ (t.coreOf w).jobs, k.id = j.id ∧ k.sent = j.sent + 1 ∧ k.sendBase = s.tick) ∧
          (if j.e.aos then ∃ q ∈ t.chip.reqs, q.kind = .aos ∧ q.sectors = [tc * 2 ^ 24 + off] ∧ q.data = bs ∧
              (s.tick + 28, obj q.id, Instr.addOnStoreApply) ∈ t.agenda
            else (s.tick + 28, w, Instr.windowLanding ⟨w.cl, tc, off, 1, w.co, false, bs⟩) ∈ t.agenda)) ∧
        (spaceOf a ≤ 3 → s.dbg.watches = [] → ∀ pa pte s2,
          Machine.translate s w.cl c.ptw (if j.e.aos then .aos else .write) a = (.ok (pa, pte), s2) → Completes .epilogueSend s fun t =>
            ∃ q ∈ t.chip.reqs, q.kind = (if j.e.aos then .aos else .send) ∧ q.sectors = [pa / 64] ∧ q.data = bs ∧
              q.off = pa % 64)) ∧
      (j.sends[j.sent]? = none → Completes .epilogueSend s fun t =>
        t.cores = s.cores ∧ (j.row < 64 → (s.tick + 1, w, Instr.epilogueSend) ∈ t.agenda))) ∧
    (∀ q sec rest, s.req w.n = some q → q.sectors = sec :: rest → 4 ≤ q.space →
      let tc := sec / 2 ^ 24
      let off := sec % 2 ^ 24
      let old := spRead s q.w.cl tc off q.data.length
      ((s.core q.w.cl tc).winsAt off = [] → off + q.data.length ≤ (s.core q.w.cl tc).scSize →
        (∀ k, k < q.data.length → (s.core q.w.cl tc).locked s.tick (off + k) = false) → off % 64 + q.data.length ≤ 64 →
        Completes .addOnStoreApply s fun t =>
          let new := engineBytes old q.data (some (Ty.ofCode q.aux, 0))
          t.bytes (keySp q.w.cl tc off) new.length = new ∧ t.req q.id = none) ∧
      ((s.core q.w.cl tc).winsAt off ≠ [] → Completes .addOnStoreApply s fun t =>
        t.req q.id = none ∧ (∀ k, t.byte k = s.byte k) ∧ t.cores = s.cores)) ∧
    (∀ q sec rest, s.req w.n = some q → q.sectors = sec :: rest → q.space < 4 →
      exec .addOnStoreApply s = .next (applySector s q sec .good))

/-- R166, R169, R314, R339, R340, R341, R342, R343: a stream's command starts at its read position; copies, fills, drains,
matrix commands, waits, signals, loops and the end act as the commands say; an unassigned or unreadable command stops the stream,
and is its EFORK's issuer's fault while that region is uncommitted;
a copy's sector lands at its destination; and a parked DQPOP takes its word when it becomes poppable. -/
def Obligations.StreamCommands : Prop :=
  ∀ s : State, s.memWf →
    let w := s.cur
    let c := s.coreOf w
    let st := s.stream w
    let at0 : Iss := ⟨w.cl, w.co, 0⟩
    let front : Iss := ⟨w.cl, w.co, 16⟩
    let early := fun u : Iss => (s.iss front).regions.any fun r => r.num == (s.stream u).held.rnum
    let halts := fun (u : Iss) (t : State) => (s.stream u).fault = none → (t.stream u).running = false ∧
      if early u then (t.iss front).wait = .fault else (t.stream u).fault.isSome = true
    let stopped := fun t : State => halts w t ∧ ∀ k, t.byte k = s.byte k
    (∀ u, c.halt = false → c.parked.contains 17 = false → c.strAt ≤ s.tick →
      (((List.range 4).map fun k => (⟨w.cl, w.co, (s.tick + k) % 4⟩ : Iss)).find? (streamReady s)) = some u →
      (s.stream u).wait = .ready →
      (∀ i n, streamNext s u = some (some (i, n)) → Completes .streamCommandStart s fun t =>
        (s.tick, u, i) ∈ t.agenda ∧ (s.tick + 1, at0, Instr.streamCommandStart) ∈ t.agenda ∧
        (t.stream u).pos = (s.stream u).pos + 8 * n ∧ (t.stream u).seq = (s.stream u).seq + 1 ∧
        (t.coreOf w).strAt = s.tick + 1) ∧
      ((streamNext s u = none ∨ streamNext s u = some none) → Completes .streamCommandStart s (halts u))) ∧
    Completes .streamWaitEnd s (fun t => (max s.tick c.strAt, at0, Instr.streamCommandStart) ∈ t.agenda ∧ SameBut s t w id) ∧
    (∀ (len : Nat) (src dst strides : DWord),
      let sa := src + dw ((st.iter : Int) * sext 32 (bits strides 0 32))
      let da := dst + dw ((st.iter : Int) * sext 32 (bits strides 32 32))
      let ok := fun a : DWord => a.toNat % 64 = 0 ∧ spaceOf a ≤ 5
      (¬(ok sa ∧ ok da) → (c.lean = false ∨ early w = false) → Completes (.ecopy len src dst strides) s stopped) ∧
      (ok sa → ok da → st.fault = none → 0 < len → ∀ tc off, 3 < spaceOf sa →
        (∀ k, k < len → spaceOf (sa + BitVec.ofNat 64 (64 * k)) = spaceOf sa ∧
          poolAddr w.co (sa + BitVec.ofNat 64 (64 * k)) = some (tc, off + 64 * k) ∧
          off + 64 * k + 64 ≤ (s.core w.cl tc).scSize) →
        Completes (.ecopy len src dst strides) s fun t =>
          (∃ cp ∈ (t.stream w).copies, cp.len = len ∧ cp.src = sa ∧ cp.dst = da ∧ cp.done = 0) ∧
          (∀ k, k < len → ∃ q ∈ t.chip.reqs, q.kind = .copyRd ∧ q.aux = k ∧ q.data = spSector s w.cl tc (off + 64 * k) ∧
            (s.tick + fillL (spaceOf sa) + k, w, Instr.copySectorLanding q.id) ∈ t.agenda) ∧
          (t.stream w).pos = st.pos ∧ ∀ k, t.byte k = s.byte k)) ∧
    (∀ (h : BitVec 4) (n : Nat), c.handleWin h.toNat = some n → (c.win n).state ≠ .faulted →
      exec (.efill h) s = .next (touch s ⟨w.cl, w.co, 16⟩ n none) ∧
      ((c.win n).state = .full → (c.wcmds.all fun x => x.win != n) = true → Completes (.edrain h) s fun t =>
        ((t.coreOf w).win n).state = .draining ∧ ∃ d ∈ (t.coreOf w).drains, d.win = n ∧ d.next = 0 ∧
          d.total = (c.win n).sectors ∧ d.stm = some w.n) ∧
      Completes (.ewait (.window h)) s (fun t =>
        (t.stream w).wait = .window n ∧ (max s.tick c.strAt, at0, Instr.streamCommandStart) ∈ t.agenda ∧ SameBut s t w id)) ∧
    (∀ h : BitVec 4, c.handleWin h.toNat = none → Completes (.efill h) s stopped ∧ Completes (.edrain h) s stopped ∧
      Completes (.ewait (.window h)) s stopped) ∧
    (∀ (word : DWord) (o : MmaF) (ha hb : Nat),
      let iw := BitVec.ofNat 64 ((0x70 + bits word 37 3) * 2 ^ 56 + bits word 40 16 * 2 ^ 40 + bits word 0 37)
      decode { Env.wide true 3 with tiles := 4 * c.acc } iw = .ok (.mma o false false) →
      c.handleWin o.ha.toNat = some ha → c.handleWin o.hb.toNat = some hb → (c.win ha).state = .full →
      (c.win hb).state = .full → assoc c.tileFault o.acc.toNat = none → Completes (.emma word) s fun t =>
        ∃ q, (t.coreOf w).matq = c.matq ++ [q] ∧ q.h.i = .mma o false false ∧ q.h.wins = [ha, hb] ∧ q.stm = some w.n ∧
          (s.tick, at0, Instr.matrixCommandStart) ∈ t.agenda) ∧
    (∀ (ph : BitVec 12) (m : Member), c.phOk ph.toNat = true → (s.phaser ph.toNat).member w 0 true = some m →
      let tooOld := m.inEffect = true ∧ m.v + 4 < (s.phaser ph.toNat).phase
      (m.mode ≠ .sig → ¬tooOld →
        Completes (.ewait (.phaser ph)) s fun t => (t.stream w).wait = .phaser ph.toNat ∧ SameBut s t w id) ∧
      (m.mode = .sig ∨ tooOld → Completes (.ewait (.phaser ph)) s stopped)) ∧
    (∀ n, Completes (.ewait (.ticks n)) s fun t =>
      (t.stream w).wait = .until_ (s.tick + n) ∧ (s.tick + n, w, Instr.streamWaitEnd) ∈ t.agenda ∧ SameBut s t w id) ∧
    Completes (.ewait .bad) s stopped ∧
    (∀ ph : BitVec 12, c.phOk ph.toNat = true →
      let p := s.phaser ph.toNat
      (p.member w 0 true = none → ∀ (sub : BitVec 3) mode, (sub, mode) ∈ [(1, PhMode.sig), (2, .wait), (3, .sw)] →
        Completes (.esig sub ph) s fun t => ∃ m, (t.phaser ph.toNat).member w 0 true = some m ∧ m.mode = mode ∧
          ((p.arr, p.arr1) = p.signalsAt s.tick → m.inEffect = true ∧ m.s = p.phase ∧ m.v = p.phase) ∧ SameBut { s with chip := t.chip } t w id) ∧
      (∀ m, p.member w 0 true = some m →
        (signals m.mode = false → Completes (.esig 0 ph) s stopped) ∧
        (signals m.mode = true → m.drop = false → m.inEffect = true → Completes (.esig 0 ph) s fun t =>
          (∃ k, (t.phaser ph.toNat).member w 0 true = some k ∧ k.s = m.s + 1) ∧ (t.stream w).psn = false ∧
          (t.phaser ph.toNat).arr = p.arr + (if m.s = p.phase then 1 else 0)) ∧
        (signals m.mode = false ∨ m.inEffect = false → Completes (.esig 4 ph) s fun t =>
          (t.phaser ph.toNat).member w 0 true = none) ∧
        (signals m.mode = true → m.inEffect = true → p.doneAt s.tick = true → Completes (.esig 4 ph) s fun t =>
          (t.phaser ph.toNat).member w 0 true = none) ∧
        (signals m.mode = true → m.inEffect = true → p.doneAt s.tick = false → Completes (.esig 4 ph) s fun t =>
          ∃ k, (t.phaser ph.toNat).member w 0 true = some k ∧ k.drop = true))) ∧
    (∀ (sub : BitVec 3) (ph : BitVec 12), c.phOk ph.toNat = false → Completes (.esig sub ph) s stopped) ∧
    (∀ (count : BitVec 16) (offs : BitVec 24), Completes (.eloop count offs) s fun t =>
      let lc := if st.lc = 0 then count.toNat else st.lc
      t.stream w = (if 1 < lc then
          let place : Int := (st.pos : Int) - 8 + 8 * offs.toInt
          { st with lc := lc - 1, iter := st.iter + 1, pos := if place < 0 then 2 ^ 24 else place.toNat }
        else { st with lc := 0, iter := 0 }) ∧
      (max s.tick c.strAt, at0, Instr.streamCommandStart) ∈ t.agenda) ∧
    ((c.efq.find? fun e => e.1 == w.n) = none → Completes .eend s fun t => (t.stream w).running = false) ∧
    (∀ e, (c.efq.find? fun e => e.1 == w.n) = some e → Completes .eend s fun t =>
      (t.stream w).running = true ∧ (t.stream w).pos = bits (nth e.2.vals 0 0) 0 24 ∧ (t.stream w).lc = 0 ∧
      (t.coreOf w).efq = c.efq.erase e) ∧
    (∀ k q da, s.req k = some q → copyDest s q = some da → (s.dbg.rlogOn = true → q.space ≠ 1 ∧ q.space ≠ 2) → q.badSecs = [] →
      (q.chk = true → raceAt s q.w.cl ((((s.stream q.w).copies.find? fun c => c.id == nth (q.dest.map (·.2)) 0 0).map (·.src)).getD 0 +
        BitVec.ofNat 64 (64 * q.aux)) (q.space == 1) (BitVec.ofNat 16 (((q.stamps.head?).map (·.2)).getD 0xC000)) = false) →
      (∀ p ∈ s.chip.reqs, p.kind = .copyRd → p.w = q.w → nth (q.dest.map (·.2)) 0 0 ≤ nth (p.dest.map (·.2)) 0 0) →
      (3 < spaceOf da → ∀ tc off, poolAddr q.w.co da = some (tc, off) → (s.core q.w.cl tc).winsAt off = [] →
        off + q.data.length ≤ (s.core q.w.cl tc).scSize →
        (∀ j, j < q.data.length → (s.core q.w.cl tc).locked s.tick (off + j) = false) → off % 64 + q.data.length ≤ 64 →
        Completes (.copySectorLanding k) s fun t =>
          t.bytes (keySp q.w.cl tc off) q.data.length = q.data ∧ t.req k = none ∧
          ∀ j, j < keySp q.w.cl tc (off / 64 * 64) ∨ keySp q.w.cl tc (off / 64 * 64) + 64 ≤ j → t.byte j = s.byte j) ∧
      (spaceOf da ≤ 3 → q.psn = false → ∀ pa pte s2,
        Machine.translate (s.delReq q.id) q.w.cl (s.coreOf q.w).ptw .write da = (.ok (pa, pte), s2) → Completes (.copySectorLanding k) s fun t =>
          ∃ r ∈ t.chip.reqs, r.kind = .copyWr ∧ r.sectors = [pa / 64] ∧ r.data = q.data ∧ r.dest = q.dest)) ∧
    (∀ n d lanes word, (s.core w.cl w.co |>.iss n).wait = .dqpop d lanes → lanes ≠ [] →
      dqNext (s.core w.cl w.co) ((s.core w.cl w.co).iss n) s.tick = some word → Completes .dqWordPoppable s fun t =>
        let a := s.iss ⟨w.cl, w.co, n⟩
        let b := t.iss ⟨w.cl, w.co, n⟩
        b.dqpos = a.dqpos + 1 ∧ (b.wait = .run ∨ b.wait = .marker) ∧
        b.pend = a.pend ++ [⟨s.tick + 4, .v d, lanes.map (fun l => (l, BitVec.ofNat 64 (bits word 0 32))), a.regionNo, noHome, s.tick⟩,
          ⟨s.tick + 4, .v (d + 1), lanes.map (fun l => (l, BitVec.ofNat 64 (bits word 32 32))), a.regionNo, noHome, s.tick⟩] ∧
        ∀ k, t.byte k = s.byte k)

/-- R348, R349, R421, R423, R429, R430, R431, R432, R434: a collective starts, sends its ready chunks on its stream in the order of
its algorithm, combines or forwards what it receives, and ends when all is done; a rank that is not presented at the
deadline is a schedule fault. A plain stream sends up to four waiting sectors a flit, and a flit that arrives is cut into the
landings of the window that its stream is bound to. -/
def Obligations.CollectivesAndFlits : Prop :=
  ∀ s : State,
    (∀ c, (s.chip.colls.find? fun c => c.collid == s.cur.n && !c.started && !c.ended) = some c →
      let c1 : Coll := { c with started := true }
      let s1 := s.updColl c.id fun _ => c1
      (c.ranks ≤ 1 → ∀ vs p s2, readElems s1 c1 (nth c.block 2 0) 0 c.count = (.ok (vs, p), s2) →
        let s3 := s2.updColl c.id fun c => { c with psn := p }
        exec .collectiveStart s =
          .next ((writeDst s3 { c1 with psn := p } 0 vs false).sched s2.tick (obj c.id) .collectiveEnd)) ∧
      (2 ≤ c.ranks → c.alg = 2 →
        exec .collectiveStart s = .next ((directStart s1 c1).sched s.tick (obj c.id) .collectiveEnd)) ∧
      (2 ≤ c.ranks → c.alg ≠ 2 → Completes .collectiveStart s fun t =>
        t.coll c.id = some c1 ∧ (∀ k, t.byte k = s.byte k) ∧
        ∀ h p rest, c1.nextSend = some h →
          nextSlots s (0x8000 + c.collid) (max c.txAt (s.tick * 16)) 1 = p :: rest →
          (p / 16, obj c.id, Instr.collectiveSend h.key) ∈ t.agenda)) ∧
    (∀ c h vs s1, s.coll s.cur.n = some c → c.nextSend = some h → c.ended = false →
      nth (nextSlots s (0x8000 + c.collid) (max c.txAt (s.tick * 16)) (chunkFlits c true []).length) 0 0 / 16 ≤ s.tick →
      (if h.mode = .forward then
        vs = (List.range h.n).map (fun j => ((assoc c.acc (2 ^ 40 + h.e0 + j)).getD 0).toNat) ∧ s1 = s
        else hopValues s c h = (.ok vs, s1)) →
      Completes (.collectiveSend h.key) s fun t =>
        let wire := if h.mode = .forward then vs else (vs.zip (List.range h.n)).map fun v => narrow c h.hop h.chunk v.2 v.1
        let psn := match s1.coll c.id with | some d => d.psn | none => false
        t.net.sent = (if s1.dbg.replaying = true then s1.net.sent
          else s1.net.sent ++ (chunkFlits c (!psn) wire).map (fun f => (0x8000 + c.collid, f))) ∧
        ∃ d, t.coll c.id = some d ∧ d.outs = h.key :: c.outs) ∧
    (∀ c h data, s.coll s.cur.n = some c → c.ended = false → c.alg ≠ 2 → (∃ k, (c.recvs.find? fun h => h.key == k) = some h) →
      let wire := (List.range h.n).map fun j => leNat data / 2 ^ (c.wty.bits * j) % 2 ^ c.wty.bits
      let s1 := s.updColl c.id fun c => { c with got := c.got ++ [(h.key, s.tick)] }
      (h.mode ≠ .red → ∀ src, Completes (.collectiveReceive src h.key data) s fun t =>
        ∃ d, t.coll c.id = some d ∧ d.got = c.got ++ [(h.key, s.tick)] ∧
          d.acc = c.acc ++ (wire.zip (List.range h.n)).map fun v => (2 ^ 40 + h.e0 + v.2, w32 v.1)) ∧
      (h.mode = .red → ∀ own s2, hopValues s1 c h = (.ok own, s2) →
        ∀ src, Completes (.collectiveReceive src h.key data) s fun t =>
          ∃ d, t.coll c.id = some d ∧ d.got = c.got ++ [(h.key, s.tick)] ∧
            ∀ j, j < h.n → assoc d.acc (h.e0 + j) = some (w32 (reduceEl c (widen c (nth wire j 0)) (nth own j 0))))) ∧
    (∀ c src k data, s.coll s.cur.n = some c → c.ended = false → c.alg = 2 → s.dbg.rlogOn = false →
      let b := c.dty.bits / 8
      let n := data.length / b
      let vals := (List.range n).map fun j => leNat ((data.drop (b * j)).take b)
      let got := fun s : State => s.updColl c.id fun c => { c with got := c.got ++ [(src * 2 ^ 40 + k, s.tick)] }
      (c.started = false → exec (.collectiveReceive src k data) s =
        .next (s.sched (s.tick + 1) s.cur (.collectiveReceive src k data))) ∧
      (c.started = true → exec (.collectiveReceive src k data) s =
        .next ((writeDst (got s) c (k * 64 / b) vals c.reduces).sched s.tick (obj c.id) .collectiveEnd))) ∧
    (∀ (old new : List Byte) (t : Ty) (k i : Nat), t.bits ∈ [8, 16, 32] → old.length = new.length →
      t.bits / 8 * (i + 1) ≤ old.length → old.length % (t.bits / 8) = 0 →
      let el := fun bs : List Byte => leNat ((bs.drop (t.bits / 8 * i)).take (t.bits / 8))
      el (engineBytes old new (some (t, k))) = combineEl t k (el old) (el new) % 2 ^ t.bits) ∧
    (if (s.chip.colls.any fun c => c.collid == s.cur.n && !c.started) then exec .collectivePresentationDeadline s = .next s
      else exec .collectivePresentationDeadline s = .next (s.sched s.tick (obj 0) (.scheduleFault 3))) ∧
    (∀ c w, s.coll s.cur.n = some c → c.ended = false → c.started = true → c.owner = some w → c.phaser = none →
      (nth (s.coreOf w).cslots c.slot {}).queue = [] →
      let sl := fun t : State => nth (t.coreOf w).cslots c.slot {}
      let ends := fun st : Nat => Completes .collectiveEnd s fun t =>
        (∃ d, t.coll c.id = some d ∧ d.ended = true ∧ d.status = st) ∧
        (sl t).cid = none ∧ (sl t).status = st ∧ (sl t).reason = 0 ∧ SameBut s t w id
      ((sl s).fault.isSome = true → ends 1) ∧
      ((sl s).fault = none → (s.chip.reqs.any fun q => q.kind == .coll && q.aux == c.id &&
          (c.alg != 2 || !q.sectors.isEmpty || q.data.isEmpty)) = false →
        (c.ranks ≤ 1 ∨ (2 ≤ c.ranks ∧ c.alg = 2 ∧ ∀ a ∈ directAwaits c, ∃ g ∈ c.got, g.1 = a.1 * 2 ^ 40 + a.2) ∨
          (2 ≤ c.ranks ∧ c.alg ≠ 2 ∧ c.unsent = [] ∧ c.recvs.length ≤ c.got.length)) → ends 0)) ∧
    (∀ p rest, nextSlots s s.cur.n (s.tick * 16) 1 = p :: rest → s.net.isolated = false →
      let q := (assoc s.net.sendq s.cur.n).getD []
      (s.tick < p / 16 → exec .flitSend s = .next (s.sched (p / 16) s.cur .flitSend)) ∧
      (p / 16 ≤ s.tick → ∀ f r, q = f :: r → Completes .flitSend s fun t =>
        t.net.sent = (if s.dbg.replaying = true then s.net.sent else
          s.net.sent ++ [(s.cur.n, ⟨f.slot, (q.take 4).all (·.ok), ((q.take 4).map (·.dwords)).flatten⟩)]) ∧
        (assoc t.net.sendq s.cur.n).getD [] = q.drop 4 ∧ ∀ k, t.byte k = s.byte k)) ∧
    (∀ (f : Flit) st, slotStream s s.cur.n f.slot = some st →
      (st < 0x8000 → ∀ cl co, recvBinding s st = some (cl, co) → Completes (.flitReceive f) s fun t =>
        ∀ bs ∈ sectorsOf (dwBytes f.dwords),
          (s.tick, ⟨cl, co, 2 ^ 32⟩, Instr.windowLanding ⟨cl, co, 0, 2, st, !f.ok, bs⟩) ∈ t.agenda) ∧
      (0x8000 ≤ st → f.dwords ≠ [] → ∀ c, (s.chip.colls.find? fun c => 0x8000 + c.collid == st && c.started && !c.ended) = some c →
        s.coll c.id = some c →
        let need := 32 * max 1 (ceilDiv (c.chunk * c.wty.bits) 2048)
        (c.rx ++ f.dwords).length < need → Completes (.flitReceive f) s fun t =>
          ∃ d, t.coll c.id = some d ∧ d.rx = c.rx ++ f.dwords ∧ d.psn = (c.psn || !f.ok)))

/-- R82, R83, R85, R90, R91, R92, R355, R357, R358, R366: firmware serves an allocation or a release of Orchard memory and the issuer
goes on with its answer; a lost switch degrades the chip and its outstanding loads and atomics are answered as lost; a
returned switch is copied back. A token operation takes effect on its slot at its completion tick, or its trap is delivered and the
later ones of its region are dropped. -/
def Obligations.OrchardAndSequences : Prop :=
  ∀ s : State,
    let w := s.cur
    (∀ m d a mir lanes vals it pc, (s.iss w).wait = .block (.oalloc m d a mir) .wait lanes vals it pc →
      let s0 := orchServed s w
      (∀ x r, s.fw.orchq = w :: x :: r → ∃ d i, d ≤ 4000 ∧ (s.tick + d, x, i) ∈ s0.agenda ∧
        (i = .oallocComplete ∨ i = .ofreeComplete)) ∧
      (domOfCore s0 w.cl w.co = none →
        exec .oallocComplete s = .next (completeBlock s0 w (.oalloc m d a mir) lanes pc 0)) ∧
      (∀ dom, domOfCore s0 w.cl w.co = some dom →
        (∀ v s1, orchAlloc s0 dom (nth vals 0 0).toNat mir = (v, s1) →
          exec .oallocComplete s = .next (completeBlock s1 w (.oalloc m d a mir) lanes pc v)) ∧
        (∀ dm size level s2 pa va, s0.dom dom = some dm → orchSize (nth vals 0 0).toNat = some (size, level) →
          charge s0 dom .orch (size / 2 ^ 15 * (if mir then 2 else 1)) = some s2 →
          orchPlace s0 size (2 ^ levelShift level) mir = some pa →
          lowestFit ((s0.fw.allocs.filter fun a => domTenant s0 a.dom == dm.tenant).map fun a => (a.va, a.size))
            (bits (nth dm.dw 7 0) 27 24 * 2 ^ 27)
            (bits (nth dm.dw 7 0) 27 24 * 2 ^ 27 + bits (nth dm.dw 7 0) 0 24 * 2 ^ 27) size (2 ^ levelShift level) = some va →
          Completes .oallocComplete s fun t =>
            t.fw.allocs = s.fw.allocs ++ [⟨va, size, pa, mir, dom, level, false⟩]))) ∧
    (∀ m d a lanes vals it pc, (s.iss w).wait = .block (.ofree m d a) .wait lanes vals it pc →
      let named := (domOfCore s w.cl w.co).bind fun dom => orchNamed s dom (nth vals 0 0)
      (named = none → exec .ofreeComplete s = .next (completeBlock (orchServed s w) w (.ofree m d a) lanes pc 0)) ∧
      (∀ x, named = some x → vals.length = 1 → Completes .ofreeComplete s fun t =>
        (t.iss w).wait = .block (.ofree m d a) .wait lanes (vals ++ [1]) it pc ∧
        (∃ v ∈ t.chip.invs, v.next = [(w, Instr.ofreeComplete)]) ∧ t.fw.allocs = s.fw.allocs ∧
        ∀ g ∈ t.net.opsn, inOrch x (g * 4096) = false) ∧
      (∀ x, named = some x → vals.length = 2 → Completes .ofreeComplete s fun t =>
        (t.iss w).wait = .block (.ofree m d a) .wait lanes (vals ++ [1]) it pc ∧
        (s.tick + 4000, w, Instr.ofreeComplete) ∈ t.agenda ∧ t.fw.allocs = s.fw.allocs) ∧
      (∀ x, named = some x → 3 ≤ vals.length → Completes .ofreeComplete s fun t =>
        t.fw.allocs = s.fw.allocs.filter fun y => y.va != x.va || y.dom != x.dom)) ∧
    (let sw := w.n % 2
     (w.n < 2 → s.net.failed.contains sw = false → Completes .switchFailure s fun t =>
       t.net.failed = s.net.failed ++ [sw] ∧ t.chip.orchst = s.chip.orchst ∧
       (∃ d, d ≤ 400 ∧ (s.tick + d, obj (2 + sw), Instr.switchFailure) ∈ t.agenda) ∧
       (s.net.mirq = [] → (∀ k, t.byte k = s.byte k) ∧
         ∀ q ∈ s.chip.reqs, s.req q.id = some q → q.space = 2 → (q.kind = .load ∨ q.kind = .atom) →
           (∃ k ∈ q.sectors, swOf k = sw) → (max s.tick q.bound, obj q.id, Instr.lostReply) ∈ t.agenda)) ∧
     (2 ≤ w.n → s.net.failed.contains sw = true → Completes .switchFailure s fun t =>
       t.chip.orchst = s.chip.orchst ||| BitVec.ofNat 64 (2 ^ sw + 4) ∧ t.net.failed = s.net.failed ∧
       (∀ x ∈ t.fw.allocs, x.mir = false → x.pa / 2 ^ 42 % 2 = sw → x.lost = true) ∧
       (s.chip.sched.running = true → ∃ d k, (s.tick + d, obj k, Instr.scheduleFault 5) ∈ t.agenda) ∧
       ∀ k, t.byte k = s.byte k)) ∧
    (∀ q, s.req w.n = some q →
      let q1 := { q with stat := 2 }
      let s2 := enterRemote ((s.updReq q.id fun q => { q with stat := 2 }).delReq q.id) q1
      s.dbg.rlogOn = false →
      (q.kind = .load → exec .lostReply s = .next (discardBy s2 q.w 0 4)) ∧
      (q.kind = .atom → (s.coreOf q.w).lean = false → (s2.iss q.w).rcount + 1 ≤ (s2.iss q.w).rlimit →
        Completes .lostReply s fun t =>
          (t.iss q.w).retry = some ⟨q.h, q.id, true⟩ ∧ (t.iss q.w).rcount = (s2.iss q.w).rcount + 1)) ∧
    (let sw := w.n % 2
     Completes .mirrorCopyBackComplete s fun t =>
       bit t.chip.orchst sw = false ∧ bit t.chip.orchst (1 - sw) = bit s.chip.orchst (1 - sw) ∧
       (bit t.chip.orchst (1 - sw) = false → bit t.chip.orchst 2 = false) ∧
       (∀ k ∈ t.net.failed, k ≠ sw) ∧
       (s.memWf → ∀ a, (s.fw.allocs.filter fun a => a.mir && !a.lost) = [a] →
         let dst := if a.pa / 2 ^ 42 % 2 = sw then a.pa else mirrorOf a.pa
         ∀ o, o < a.size → t.byte (keyOrch dst + o) = s.byte (keyOrch (mirrorOf dst) + o))) ∧
    (∀ q, s.req w.n = some q →
      (∀ s1, sloeLanes s q.w q.h q.issued q.lanes = (none, s1) →
        exec .sloeOperationComplete s = .next (s1.delReq q.id)) ∧
      (∀ k l s1, sloeLanes s q.w q.h q.issued q.lanes = (some (k, l), s1) → Completes .sloeOperationComplete s fun t =>
        (s1.tick, obj q.id, Instr.sequenceTrapDelivery) ∈ t.agenda ∧ ∀ n, t.slot n = s1.slot n) ∧
      (∀ l n, q.lanes = [l] → slotNo (nth l.ops 1 0) = some n → slotCause s (s.coreOf q.w).tenant (some n) = none →
        (∀ m a b (k : BitVec 9), q.h.i = .sloew m a b k → k.toNat ≤ 271 → k ≠ 15 → slotLimit k.toNat (nth l.ops 0 0) = false →
          (s.slot n).frz = false → Completes .sloeOperationComplete s fun t =>
            t.slot n = slotWrite (s.slot n) k.toNat (nth l.ops 0 0) ∧ (∀ k, t.byte k = s.byte k)) ∧
        ((s.slot n).frz = true → (∃ m a b, q.h.i = .tokapp m a b ∨ q.h.i = .tokappD m a b ∨ q.h.i = .tokconf m a b) →
          Completes .sloeOperationComplete s fun t =>
            t.slot n = s.slot n ∧ (s.tick, obj q.id, Instr.sequenceTrapDelivery) ∈ t.agenda ∧
            ∃ r, t.req q.id = some r ∧ r.stat = 9)) ∧
      Completes .sequenceTrapDelivery s fun t =>
        (t.iss q.w).wait = .fault ∧ (t.iss q.w).regions = [] ∧
        (∀ p ∈ t.chip.reqs, p.kind = .ring → p.w = q.w → p.h.rnum ≠ q.h.rnum) ∧
        ∀ h ∈ (t.iss q.w).presq, isTokOp h.i = true → h.rnum ≠ q.h.rnum)

/-- R186, R187, R400, R402, R403, R409, R410, R411, R412, R413: taking an exception discards the issuer's uncommitted regions with their
results in flight, stops it, and hands its record to the handler that TRAPVEC names or to firmware, a class 0x14 record where no
handler can take it; nothing else changes. The handler's delivery writes the record at RECOFF, sets ACT and moves the trapping
set to ENTRY in a new region; IRET returns it and clears ACT. -/
def Obligations.TakingExceptions : Prop :=
  ∀ (s : State) (m : Mods) (i : TrapInfo),
    let x := s.ctx m
    let w := s.cur
    let me := s.iss w
    let d0 := if i.cls = 0x01 ∨ i.cls = 0x0A then s.instWord w.cl x.pc else i.d0
    let rec_ := mkRec w x.pc s.tick me.regionNo s.tick x.pc { i with d0 := d0 }
    let s2 := (discardAll s w false).updIss w fun me => { me with wait := .fault }
    let t := raise x i
    ((t.iss w).wait = .fault ∧ (t.iss w).regions = [] ∧ (t.iss w).presq = me.presq ∧ (t.iss w).rcount = me.rcount ∧
      (∀ p ∈ (t.iss w).pend, p ∈ me.pend ∧ ∀ r ∈ me.regions, r.num ≠ p.rnum) ∧
      (∀ r rest, me.regions = r :: rest → (t.iss w).redo = some r ∧ (t.iss w).dqpos = r.dqpos ∧ (t.iss w).phs = r.phs) ∧
      (∀ v, v ≠ w → t.iss v = s.iss v) ∧ (∀ k, t.byte k = s.byte k) ∧ t.chip.regs = s.chip.regs) ∧
    (i.cls < 256 → toVec i.cls = true →
      if trapvecOk s2 (s2.coreOf w) (csrSeen (s2.iss w) 0xF) then
        (t.iss w).trapRec = rec_ ∧ (t.iss w).trapSel = x.sel ∧ (s.tick, w, Instr.trapDelivery) ∈ t.agenda ∧
        (t.iss w).retPc = (match me.regions, me.redo with | r :: _, _ => r.pcs | [], some g => g.pcs | [], none => me.pcs)
      else ∃ k r, (k, r, some w) ∈ t.fw.faults ∧ bits (nth r 0 0) 0 16 = 0x14 ∧
        nth r 6 0 = BitVec.ofNat 64 (bits (nth rec_ 0 0) 0 16) ∧
        ∃ d, d ≤ 400 ∧ (s.tick + d, obj k, Instr.firmwareFaultDelivery) ∈ t.agenda) ∧
    (i.cls < 256 → toVec i.cls = false → ∃ k, (k, rec_, some w) ∈ t.fw.faults ∧
      ∃ d, d ≤ 400 ∧ (s.tick + d, obj k, Instr.firmwareFaultDelivery) ∈ t.agenda) ∧
    (s.memWf → me.wait = .fault → me.trapRec.length = 8 →
      let tv := csrSeen me 0xF
      if trapvecOk s (s.coreOf w) tv then
        let off := bits tv 24 24
        Completes .trapDelivery s fun u =>
          u.bytes (keySp w.cl w.co off) 64 = dwBytes me.trapRec ∧
          (∀ k, k < keySp w.cl w.co off ∨ keySp w.cl w.co off + 64 ≤ k → u.byte k = s.byte k) ∧
          (u.iss w).trapvec = setBits me.trapvec 48 1 1 ∧ (u.iss w).trapRec = [] ∧ (u.iss w).wait = .until_ (s.tick + 8) ∧
          (u.iss w).pcs = me.trapSel.foldl (fun l k => setNth 0 l k (bits tv 0 23)) me.pcs ∧
          (u.iss w).hidden = (me.live ((s.coreOf w).lanes w.n)).filter (fun k => !(me.trapSel.contains k)) ∧
          ∃ r, (u.iss w).regions = me.regions ++ [r] ∧ r.held = [] ∧ r.mask = 0 ∧ r.opener = .block
      else Completes .trapDelivery s fun u =>
        (∀ k, u.byte k = s.byte k) ∧ ∃ k r, (k, r, some w) ∈ u.fw.faults ∧ bits (nth r 0 0) 0 16 = 0x14) ∧
    (let u := irets s w
     bit (u.iss w).trapvec 48 = false ∧ (u.iss w).hidden = [] ∧ (u.iss w).wait = .run ∧
     (u.iss w).pcs = me.trapSel.foldl (fun l k => setNth 0 l k (nth me.retPc k 0)) me.pcs ∧ ∀ k, u.byte k = s.byte k)

/-- R32, R33, R92, R150, R152, R400, R402, R408, R409, R485: firmware logs every record it receives; it resolves a deferred page,
and its issuer goes on when the invalidation has completed; a fault
that stops an issuer ends the grid, whose issuers all end and whose packet retires with the record. -/
def Obligations.FirmwareTakesFaults : Prop :=
  ∀ s : State,
    (∀ k r ow, (s.fw.faults.find? fun f => f.1 == s.cur.n) = some (k, r, ow) →
      let cls := bits (nth r 0 0) 0 8
      Completes .firmwareFaultDelivery s (fun t => r ∈ t.fw.logs ∧ ∀ f ∈ t.fw.faults, f.1 ≠ k) ∧
      ((ow = none ∨ cls = 0x13 ∨ cls = 0x15) → Completes .firmwareFaultDelivery s fun t =>
        t.fw.logs = s.fw.logs ++ [r] ∧ SameBut s t s.cur id) ∧
      (∀ w, ow = some w → cls ≠ 0x13 → cls ≠ 0x15 → ((s.iss w).wait = .fault ∨ bit (nth r 0 0) 17 = true) →
        (∀ l p pa, cls = 0x04 → bit (nth r 0 0) 16 = false →
          walk s (s.coreOf w).ptbase (bits (nth r 4 0) 0 51) = .leaf l p pa → Completes .firmwareFaultDelivery s fun t =>
            (t.iss w).wait = .run ∧ ∀ k, t.byte k = s.byte k) ∧
        (cls = 0x04 → bit (nth r 0 0) 16 = false → (deferredAt s (s.coreOf w).ptbase (bits (nth r 4 0) 0 51)).isSome = true →
          Completes .firmwareFaultDelivery s fun t =>
            (∃ d, d ≤ 4000 ∧ (s.tick + d, w, Instr.deferredEntryResolve) ∈ t.agenda) ∧ (t.iss w) = s.iss w) ∧
        (cls ≠ 0x04 → ∀ g gr, (s.coreOf w).grid = some g → s.grid g = some gr → gr.state = 2 →
          Completes .firmwareFaultDelivery s fun t =>
            (∃ x, t.grid g = some x ∧ x.state = 5 ∧ x.rstat = 10 ∧ x.sdwords = r.take 7) ∧
            (s.tick, obj g, Instr.packetRetire) ∈ t.agenda ∧
            ∀ c ∈ gr.cores, ∀ i ∈ (t.core c.1 c.2).issuers, i.wait = .ended))) ∧
    (let w := s.cur
     let c := s.coreOf w
     s.memWf → (s.iss w).wait = .fault → ∀ va, faultVa s w = some va →
     (deferredAt s c.ptbase va = none → Completes .deferredEntryResolve s fun t =>
       (t.iss w).wait = .run ∧ ∀ k, t.byte k = s.byte k) ∧
     ∀ lv pa p, deferredAt s c.ptbase va = some (lv, pa, p) → Completes .deferredEntryResolve s fun t =>
        (t.iss w).wait = .fault ∧ t.dword (keyHbm pa) = BitVec.ofNat 64 (p.toNat / 2 * 2 + 1) ∧
        (∃ v ∈ t.chip.invs, v.next = [(w, Instr.deferredEntryResolve)]) ∧
        ((assoc s.fw.deferred pa).getD 0 = 0 →
          let key := memKey (leafSpace p) (frame p)
          (keyHbm pa + 8 ≤ key ∨ key + 2 ^ levelShift lv ≤ keyHbm pa) →
          ∀ o, o < 2 ^ levelShift lv → t.byte (key + o) = 0))

/-- R377, R378, R379, R381, R382, R383, R385, R387, R388, R393, R415: a notify moves the offered end of a queue, is latched while the
queue is switched out, and is an error beyond the ring; firmware accepts the packets offered, in order; wait packets are
polled; a launch's verdict places its image and sets its start, or refuses it; at the start the cores are made from the packet;
and a packet that is done writes its slot and moves the read index on. -/
def Obligations.QueuesAndLaunches : Prop :=
  ∀ s : State, s.memWf →
    (∀ q, s.queue s.cur.n = some q →
      (∀ v : DWord, q.qstate ≠ 4 →
        let e := bits v 0 32
        (q.shadow = none → offerEnd q.rlog2 q.ridx q.offered e = none →
          Completes (.notifyWrite v) s fun t => t.queue q.id = some { q with qstate := 4 }) ∧
        (q.shadow = none → ∀ e', offerEnd q.rlog2 q.ridx q.offered e = some e' → Completes (.notifyWrite v) s fun t =>
          t.queue q.id = some { q with offered := e' } ∧
          (e' ≠ q.offered → ∃ k, (k, obj q.id, Instr.packetHeaderRead) ∈ t.agenda)) ∧
        (∀ x, q.shadow = some x → q.resident = false → x < 2 ^ 32 → Completes (.notifyWrite v) s fun t =>
          t.queue q.id = some { q with shadow := some ((offerEnd q.rlog2 q.ridx x e).getD (2 ^ 32)) } ∧
          (s.tick, obj 0, Instr.queueSwitchIn) ∈ t.agenda)) ∧
      (s.cur.n ≠ 2 ^ 32 → q.resident = true → q.qstate ≠ 4 → q.next ≠ q.offered →
        let hd := fwDwords s (domTenant s q.dom) .load (q.slotAt q.next) 8
        (hd = none → Completes .packetHeaderRead s fun t => t.queue q.id = some { q with qstate := 4 }) ∧
        (∀ p, hd = some p → bit (nth p 0 0) 0 = false → Completes .packetHeaderRead s fun t =>
          (s.tick + 1024, obj q.id, Instr.packetHeaderRead) ∈ t.agenda ∧ SameBut s t s.cur id) ∧
        (∀ p, hd = some p → bit (nth p 0 0) 0 = true → (bit (nth p 0 0) 4 = false ∨ q.ridx = q.next) →
          Completes .packetHeaderRead s fun t =>
            (∃ q', t.queue q.id = some q' ∧ q'.next = (q.next + 1) % 2 ^ 32 ∧ (pktOk p = false → q'.qstate = 4)) ∧
            ∃ g ∈ t.fw.grids, g.id = s.fw.nextGrid ∧ g.queue = some q.id ∧ g.packet = p ∧ g.idx = q.next)) ∧
      (mayGo s q = true → Completes .queueSwitchOut s fun t =>
        ∃ q', t.queue q.id = some q' ∧ q'.qstate = 3 ∧ q'.resident = false ∧ q'.shadow = some q.offered ∧
          q'.progressWord = BitVec.ofNat 64 (q.ridx % 2 ^ 32 + q.lstat % 2 ^ 8 * 2 ^ 32 + 3 * 2 ^ 40))) ∧
    (∀ q rest, wanting s = q :: rest → (resident s).length < 64 → Completes .queueSwitchIn s fun t =>
      ∃ q', t.queue q.id = some q' ∧ q'.resident = true ∧ q'.shadow = none) ∧
    (∀ g, s.grid s.cur.n = some g →
      let retires := fun (t : State) (st r : Nat) =>
        (∃ x, t.grid g.id = some x ∧ x.state = st ∧ x.rstat = r) ∧ (s.tick, obj g.id, Instr.packetRetire) ∈ t.agenda
      (g.state = 1 →
        (∀ v, fwDwords s (domTenant s g.dom) .load (nth g.packet 4 0) 1 = some [v] →
          (v.toInt ≤ (nth g.packet 5 0).toInt → Completes .waitPacketPoll s fun t => retires t 4 0) ∧
          ((nth g.packet 5 0).toInt < v.toInt → Completes .waitPacketPoll s fun t =>
            (s.tick + 4096, s.cur, Instr.waitPacketPoll) ∈ t.agenda ∧ SameBut s t s.cur id)) ∧
        (fwDwords s (domTenant s g.dom) .load (nth g.packet 4 0) 1 = none → Completes .waitPacketPoll s fun t =>
          retires t 6 11)) ∧
      (g.state = 0 → (g.rstat ≠ 0 → Completes .launchVerdict s fun t => retires t 6 g.rstat) ∧
        (g.rstat = 0 → (∀ e ∈ g.ents, entChip e = chipNo) → Completes .launchVerdict s fun t =>
          (∃ x, t.grid g.id = some x ∧ x.state = 1 ∧ x.remote = false) ∧ (g.start, obj g.id, Instr.gridStart) ∈ t.agenda ∧
          ∀ cl b k, g.imgs = [(cl, b)] → imgPieces (nth g.packet 2 0) g.isize = [0] →
            fwTrans s (domTenant s g.dom) .code (nth g.packet 2 0) = some k →
            ∀ o, o < g.isize → t.byte (keyCode cl b + o) = s.byte (k + o))) ∧
      (g.state = 1 → g.kind = 1 → g.start ≤ s.tick →
        (g.cores = [] → Completes .gridStart s fun t => retires t 4 0) ∧
        (g.cores ≠ [] → Completes .gridStart s fun t =>
          (∃ x, t.grid g.id = some x ∧ x.state = 2) ∧ ∀ k ∈ g.cores,
            let c := t.core k.1 k.2
            c.active = true ∧ c.grid = some g.id ∧ c.partw = nth g.packet 1 0 ∧
            Sparse.get (0 : DWord) c.sregs 0 = nth g.packet 5 0 ∧ c.scInit = [] ∧
            ∀ o, o < 2 ^ 24 → t.byte (keySp k.1 k.2 o) = 0)) ∧
      (g.state = 1 → g.kind = 1 → s.tick < g.start → exec .gridStart s = .next (s.sched g.start s.cur .gridStart)) ∧
      (g.retired = false → (g.state = 4 ∨ g.state = 5 ∨ g.state = 6) → g.halted = false →
        (∀ c ∈ ownCores s g, coreBusy s c = false ∧ (g.state = 4 → unnamedFault c = none)) →
        (g.state = 4 → g.remote = false) →
        (g.queue = none → Completes .packetRetire s fun t => ∃ x, t.grid g.id = some x ∧ x.retired = true) ∧
        (∀ q, g.queue = some q.id → s.queue q.id = some q → q.ridx = g.idx →
          (s.fw.grids.filter fun h => h.queue == some q.id) = [g] → Completes .packetRetire s fun t =>
            (∃ q', t.queue q.id = some q' ∧ q'.ridx = (q.ridx + 1) % 2 ^ 32 ∧ q'.lstat = g.rstat) ∧
            t.fw.msix = s.fw.msix ++ [(q.id / 64, q.id % 64)] ∧
            (g.kind ≠ 1 → g.rstat ≠ 6 → g.rstat ≠ 10 → nth g.packet 7 0 = 0 → ∀ k,
              fwTrans s (domTenant s g.dom) .store (q.slotAt g.idx) = some k →
              t.dword k = BitVec.ofNat 64 (g.rstat * 2 ^ 56)))))

/-- R207, R388, R390, R391, R392, R416, R417, R418, R419: a grid whose pre-emption was asked for is saved once all of it stands, and
leaves its cores; a launch whose victims are not saved in time is refused; a saved grid is restored when its cores are
free and offer what it needs, at a tick at least 8,000 ticks ahead, and resumes with its registers and scratchpads as they were. -/
def Obligations.PreemptionAndRestore : Prop :=
  ∀ s : State,
    (∀ g, s.grid s.cur.n = some g → g.preq ≠ none →
      let saved := fun t : State =>
        (∃ x, t.grid g.id = some x ∧ x.state = 3) ∧ (∃ x ∈ t.fw.ctxs, x.grid = g.id) ∧ ∀ c ∈ t.cores, c.grid ≠ some g.id
      let s1 := (ownCores s g).foldl (fun s c => s.setCore (parkCore c)) s
      let s2 := if (ownCores s1 g).all fun c => c.parked.contains 17 then discardGrid s1 g else s1
      (g.state = 1 → g.kind = 1 → Completes .preemption s saved) ∧
      (g.state = 2 → (∀ c ∈ ownCores s g, bit c.modew 2 = true → c.parked.contains 17 = true) →
        if (ownCores s2 g).all (saveReady s2) then Completes .preemption s saved
        else exec .preemption s = .next (s2.sched (s2.tick + 1) s2.cur .preemption))) ∧
    (∀ g, s.grid s.cur.n = some g → g.state = 1 →
      let hs := s.fw.grids.filter fun h => h.preq == some g.id
      (∀ h ∈ hs, h.remote = false) →
        ((∀ h ∈ hs, h.state = 3) → exec .preemptionRequestWithdrawn s = .next s) ∧
        ((∃ h ∈ hs, h.state ≠ 3) → Completes .preemptionRequestWithdrawn s fun t =>
          (∃ x, t.grid g.id = some x ∧ x.state = 6 ∧ x.rstat = 2) ∧ (s.tick, obj g.id, Instr.packetRetire) ∈ t.agenda)) ∧
    (∀ x g, s.fw.ctxs = [x] → x.auto_ = true → s.grid x.grid = some g → g.state = 3 → coresFree s g = true →
      (∀ k, shortField s g x = some k → Completes .automaticRestore s fun t =>
        (∃ y, t.fw.ctxs = [y] ∧ y.auto_ = false) ∧ t.grid g.id = some g) ∧
      (shortField s g x = none → x.cores ≠ [] → (∀ c ∈ x.cores, bit c.modew 2 = false) →
        Completes .automaticRestore s fun t => (∃ y, t.grid g.id = some y ∧ y.state = 7 ∧ y.preq = none) ∧
          ∃ d, d ≤ 4000 ∧ (s.tick + 8000 + d, obj g.id, Instr.restoredGridResume) ∈ t.agenda)) ∧
    (∀ g x, s.grid s.cur.n = some g → (s.fw.ctxs.find? fun x => x.grid == s.cur.n) = some x → g.state = 7 →
      (x.cores = [] → g.cores ≠ [] → Completes .restoredGridResume s fun t =>
        (∃ y, t.grid g.id = some y ∧ y.state = 1 ∧ y.start = s.tick) ∧ (s.tick, obj g.id, Instr.gridStart) ∈ t.agenda) ∧
      (x.cores ≠ [] → Completes .restoredGridResume s fun t => ∀ y ∈ t.fw.ctxs, y.grid ≠ g.id) ∧
      (∀ c, x.cores = [c] → (∀ i ∈ c.issuers, ∀ j ls vs k pc, i.wait ≠ .block j .commit ls vs k pc) →
        Sparse.wf unlistedByte x.mem = true → s.memWf → Completes .restoredGridResume s fun t =>
          (∃ y, t.grid g.id = some y ∧ y.state = 2) ∧ (t.core c.cl c.co).sregs = c.sregs ∧
          (∀ n, ((t.core c.cl c.co).iss n).pcs = (c.iss n).pcs ∧ ((t.core c.cl c.co).iss n).vregs = (c.iss n).vregs) ∧
          ∀ e ∈ x.mem, t.byte e.1 = e.2))

/-- R374 to R376, R392, R450, R459: a command that firmware does not know answers with every bit set; every command ends by
giving its result to its mailbox, with an interrupt, or to the SYS that waits, and the next command follows within 4,000
ticks; domains are made below a parent, changed, and removed when nothing uses them; queues are made under their domain's
limit and removed when idle. -/
def Obligations.FirmwareCommands : Prop :=
  ∀ (s : State) (c : Cmd), Cmded s c →
    Answers .unknownCommand s (BitVec.allOnes 64) (fun u => u = s) ∧
    (∀ (r : DWord),
      let t := endCmd s s.cur.n r
      t.fw.cmds = (s.fw.cmds.filter fun e => e.1 != s.cur.n) ∧
      (∀ fn, c.src = .mbox fn → t.mbox fn = { s.mbox fn with res := [r], busy := false } ∧
        t.fw.msix = s.fw.msix ++ [(fn, 64)] ∧ t.mem = s.mem) ∧
      (∀ w m n rd ls vs k pc, c.src = .sys w → (s.iss w).wait = .block (.sys m n rd) .wait ls vs k pc →
        (t.iss w).wait = .run ∨ (t.iss w).wait = .marker) ∧
      (∀ k d rest, t.fw.cmds = (k, d) :: rest → ∃ b, b ≤ 4000 ∧ (s.tick + b, obj k, cmdInstr d.code) ∈ t.agenda)) ∧
    (∀ p, domAt s c (c.arg 1) = some p →
      (mayDom s c p = true → dcbImageOk c.args = true →
        Answers .domnew s (resW 0 0 (dcbAddr s.fw.nextDom / 64)) fun u => u.fw.nextDom = s.fw.nextDom + 1 ∧
          ∃ d, u.fw.doms = s.fw.doms ++ [d] ∧ d.id = s.fw.nextDom ∧ d.parent = some p ∧ bit (nth d.dw 0 0) 0 = true ∧
            nth d.dw 1 0 = BitVec.ofNat 64 (dcbAddr p) ∧ ∀ l, d.use l = 0 ∧ d.lim l = bits (c.arg l.dword) 0 l.w) ∧
      (mayDom s c p = false → Answers .domnew s (resW 1 0 0) fun u => u = s) ∧
      (mayDom s c p = true → cmdDom s c ≠ some p → dcbImageOk c.args = true → ∀ x, s.dom p = some x →
        (∀ l, x.use l ≤ bits (c.arg l.dword) 0 l.w) → Answers .domset s (resW 0 0 0) fun u =>
          ∃ y, u.dom p = some y ∧ y.parent = x.parent ∧ bits (nth y.dw 0 0) 1 12 = bits (c.arg 0) 1 12 ∧
            ∀ l, y.use l = x.use l ∧ y.lim l = bits (c.arg l.dword) 0 l.w)) ∧
    (∀ d, domAt s c (c.arg 0) = some d → mayDom s c d = true →
      (cmdDom s c = some d → Answers .domdel s (resW 1 0 0) fun u => u = s) ∧
      (cmdDom s c ≠ some d → domInUse s d = true → Answers .domdel s (resW 5 0 0) fun u => u = s) ∧
      (cmdDom s c ≠ some d → domInUse s d = false → Answers .domdel s (resW 0 0 0) fun u =>
        u.fw.doms = s.fw.doms.filter fun x => x.id != d)) ∧
    (∀ fn, c.src = .mbox fn →
      (∀ d, domAt s c (c.arg 2) = some d → mayDom s c d = true →
        (spaceOf (c.arg 0) = 0 ∨ spaceOf (c.arg 0) = 3) → (c.arg 0).toNat % 64 = 0 → 4 ≤ (c.arg 1).toNat →
        (c.arg 1).toNat ≤ 16 → ∀ k, ((List.range 64).find? fun k => (s.queue (fn * 64 + k)).isNone) = some k →
          ((s.ancestors d).all (fun x => x.room .queues 1) = true → Answers .qnew s (resW 0 0 k) fun u =>
            (∃ q, u.fw.queues = s.fw.queues ++ [q] ∧ q.id = fn * 64 + k ∧ q.dom = d ∧ q.ring = c.arg 0 ∧
              q.rlog2 = (c.arg 1).toNat ∧ q.ridx = 0 ∧ q.lstat = 0 ∧
              (q.resident = true ↔ (resident s).length < 64)) ∧
            ∀ x, s.ancestors d = [x] → ∃ y, u.dom d = some y ∧ y.use .queues = (x.use .queues + 1) % 2 ^ 16) ∧
          ((s.ancestors d).all (fun x => x.room .queues 1) = false → Answers .qnew s (resW 3 0 0) fun u => u = s)) ∧
      (∀ q, (c.arg 0).toNat < 64 → s.queue (fn * 64 + (c.arg 0).toNat) = some q →
        ((q.qstate = 1 ∨ q.qstate = 4) → Answers .qdel s (resW 0 0 0) fun u =>
          u.fw.queues = s.fw.queues.filter fun x => x.id != q.id) ∧
        (q.qstate = 2 ∨ q.qstate = 3 → Answers .qdel s (resW 5 0 0) fun u => u = s)))

/-- R207, R354, R355, R362, R374, R376, R390 to R392, R419, R485: GPREEMPT asks for a grid's pre-emption, GRESUME sets a saved
grid's return or refuses with the field that is short, GKILL ends a grid with RSTAT 10; a slot is made under its domain's limit,
removed, and given ranges of pages; PTMAP and PTUNMAP write the entries of the caller's tables, and answer when the
invalidation of what they wrote has completed (R32). -/
def Obligations.GridSlotAndPageCommands : Prop :=
  ∀ (s : State) (c : Cmd), Cmded s c →
    (∀ g, gridNamed s c (fun g => g.state == 1 || g.state == 2) = some g → s.grid g.id = some g → mayDom s c g.dom = true →
      imagesUsed s + g.cores.length ≤ 8192 → g.preq = none → Answers .gpreempt s (resW 0 0 0) fun u =>
        (s.tick, obj g.id, Instr.preemption) ∈ u.agenda ∧ (∃ x, u.grid g.id = some x ∧ x.preq.isSome = true) ∧
        u.cores = s.cores ∧ u.mem = s.mem) ∧
    (∀ g x, gridNamed s c (fun g => g.state == 3) = some g → s.grid g.id = some g → mayDom s c g.dom = true →
      coresFree s g = true → (s.fw.ctxs.find? fun x => x.grid == g.id) = some x →
        (∀ k, shortField s g x = some k → Answers .gresume s (resW 3 k 0) fun u => u = s) ∧
        (shortField s g x = none → x.cores ≠ [] → (∀ c ∈ x.cores, bit c.modew 2 = false) →
          Answers .gresume s (resW 0 0 0) fun u => (∃ y, u.grid g.id = some y ∧ y.state = 7 ∧ y.preq = none) ∧
            ∃ d, d ≤ 4000 ∧ (s.tick + 8000 + d, obj g.id, Instr.restoredGridResume) ∈ u.agenda)) ∧
    (∀ g, gridNamed s c (fun _ => true) = some g → s.grid g.id = some g → mayDom s c g.dom = true →
      (g.state = 1 ∨ g.state = 2 ∨ g.state = 3) → Answers .gkill s (resW 0 0 0) fun u =>
        (∃ x, u.grid g.id = some x ∧ x.state = 5 ∧ x.rstat = 10 ∧ x.halted = false) ∧
        (s.tick, obj g.id, Instr.packetRetire) ∈ u.agenda) ∧
    (∀ d, domAt s c (c.arg 0) = some d → mayDom s c d = true → (s.ancestors d).all (fun x => x.room .sloe 1) = true →
      (∃ n, n < 65536 ∧ bit ((s.slot n).d 0) 0 = false) → ∃ n, n < 65536 ∧ bit ((s.slot n).d 0) 0 = false ∧
        Answers .sloenew s (resW 0 0 n) fun u => (u.slot n).dom = d ∧ bit ((u.slot n).d 0) 0 = true ∧
          bits ((u.slot n).d 0) 2 6 = domTenant s d % 64 ∧ (u.slot n).kv = [] ∧ (∀ k, 0 < k → (u.slot n).d k = 0) ∧
          ∀ k, k ≠ n → u.slot k = s.slot k) ∧
    (let n := (c.arg 0).toNat
     let x := s.slot n
     n < 65536 → bit (x.d 0) 0 = true → mayDom s c x.dom = true →
      (Answers .sloedel s (resW 0 0 0) fun u => u.slot n = {} ∧ ∀ k, k ≠ n → u.slot k = s.slot k) ∧
      (∀ r pa, (c.arg 1).toNat % 2 ^ 15 = 0 → (c.arg 2).toNat = 2 ^ 15 → (c.arg 1).toNat + 2 ^ 15 ≤ 2 ^ 51 →
        leafOk 2 (setBits (c.arg 3) 0 15 0xF) = true → assoc s.fw.roots (domTenant s x.dom) = some r →
        entryAt s r 2 (c.arg 1).toNat 3 0 = (some pa, s) → s.fw.cmdRes = none → Invalidates .kvbind s (resW 0 0 0) fun u =>
          u.slot n = { x with kv := x.kv ++ [(c.arg 1, 2 ^ 15)] })) ∧
    (∀ lv r pa, c.host = true → lv ≤ 2 → (c.arg 0).toNat % 2 ^ levelShift lv = 0 →
      (c.arg 0).toNat + 2 ^ levelShift lv ≤ 2 ^ 51 → assoc s.fw.roots (cmdTenant s c) = some r →
      entryAt s r lv (c.arg 0).toNat 3 0 = (some pa, s) → s.memWf → s.fw.cmdRes = none →
      let entry := fun (u : State) (w : DWord) => u.dword (keyHbm pa) = w ∧
        ∀ k, (k < keyHbm pa ∨ keyHbm pa + 8 ≤ k) → u.byte k = s.byte k
      ((c.arg 3).toNat = lv → (c.arg 2).toNat = 1 → bit (c.arg 1) 0 = true →
        leafOk lv (setBits (setBits (c.arg 1) 0 2 3) 9 6 (cmdTenant s c)) = true → Invalidates .ptmap s (resW 0 0 0) fun u =>
          entry u (setBits (setBits (c.arg 1) 1 1 1) 9 6 (cmdTenant s c))) ∧
      ((c.arg 2).toNat = lv → (c.arg 1).toNat = 1 → Invalidates .ptunmap s (resW 0 0 0) fun u => entry u 0)) ∧
    (∀ r i, s.fw.cmdRes = some r → i ∈ [Instr.ptmap, .ptunmap, .kvbind] →
      exec i s = .next (endCmd { s with fw := { s.fw with cmdRes := none } } s.cur.n r)) ∧
    (c.host = false → s.fw.cmdRes = none → (Answers .ptmap s (resW 1 0 0) fun u => u = s) ∧
      Answers .ptunmap s (resW 1 0 0) fun u => u = s)

/-- R90, R396, R446, R453: SCHLOAD answers busy until lock, and then installs the table, at once or to take over at its first
frame, or answers with the lowest reason that applies; PHSET waits for its phase boundary and there sets circuits,
pair mode, the replay log or a switch's return; at any other tick its status is 4. -/
def Obligations.ScheduleCommands : Prop :=
  ∀ (s : State) (c : Cmd), Cmded s c →
    (c.pf = false → (∃ r u, exec .schload s = .next (endCmd u s.cur.n r) ∧ r = resW 1 0 0 ∧ u.chip = s.chip) ∧
      Answers .phset s (resW 1 0 0) fun u => u = s) ∧
    (c.pf = true →
      let o := (s.free 1).1
      let s1 := (s.free 1).2
      let pa := (c.arg 0).toNat
      let ws := s1.dwords (keyHbm pa) ((c.arg 1).toNat / 8)
      let s2 := (s1.free 3).2
      let r := tableReason s2 ws (s1.free 3).1
      ∃ st, Answers .schload s st fun u =>
        if lockedNow s = false ∨ o = 1 then st = resW 5 0 0 ∧ u.chip = s.chip
        else if localHbm pa = false ∨ pa % 2 ^ 15 ≠ 0 then st = resW 2 0 0 ∧ u.chip = s.chip
        else if r ≠ 0 then st = resW 2 r 0 ∧ u.chip = s.chip
        else st = resW 0 0 0 ∧ (frameT ws 0, obj 0, Instr.frameStart) ∈ u.agenda ∧
          (if s.chip.sched.loaded = true ∨ s.chip.sched.next.isSome = true then
            u.chip.sched = { s.chip.sched with next := some (frameT ws 0, pa, ws) }
          else u.chip.sched = { words := ws, pa := pa, loaded := true, frameStart := frameT ws 0 })) ∧
    (c.pf = true →
      let t := (c.arg 0).toNat
      let v := c.arg 2
      let kind := fun n => (c.arg 1).toNat = n
      (s.tick < t → phbAt s t = true → exec .phset s = .next (s.sched t s.cur .phset)) ∧
      ((phbAt s t = false ∨ t < s.tick) → Answers .phset s (resW 4 0 0) fun u => u = s) ∧
      (t = s.tick → phbAt s t = true →
        (kind 0 → Answers .phset s (resW 0 0 0) fun u =>
          u.net.circuits = (List.range 64).filter (bit v) ∧ u.chip = s.chip ∧ u.mem = s.mem) ∧
        (kind 1 → (∀ g ∈ s.fw.grids, g.charged = true → ∀ k ∈ g.cores, k.1 ≠ bits v 0 6) →
          Answers .phset s (resW 0 0 0) fun u =>
            (u.chip.cluster (bits v 0 6)).pairst = BitVec.ofNat 64 (bits v 8 1 * 2 ^ 32) ∧ u.mem = s.mem) ∧
        (kind 2 → Answers .phset s (resW 0 0 0) fun u =>
          u.chip.replog = bit v 0 ∧ u.dbg.rlogOn = bit v 0 ∧ (bit v 0 = true → u.dbg.rlogIdx = 0) ∧ u.mem = s.mem) ∧
        (kind 3 →
          (bit s.chip.orchst (bits v 0 1) = true → Answers .phset s (resW 0 0 0) fun u =>
            u.net.copyback = s.net.copyback ++ [bits v 0 1] ∧
            ∃ k, (k, obj (bits v 0 1), Instr.mirrorCopyBackComplete) ∈ u.agenda) ∧
          (bit s.chip.orchst (bits v 0 1) = false → Answers .phset s (resW 2 0 0) fun u => u = s))))

/-- R375, R436, R438, R442: DBGATT and DBGDET set and clear a domain's debug bit, HALTREQ halts its grids' cores and discards
what is uncommitted, or has the schedule freeze at a frame start at least 2,000 ticks ahead; RESUME and DBGDET release
what stands; STATERD and STATEWR read and write the state of a party that stands, and are refused elsewhere. -/
def Obligations.DebugSessions : Prop :=
  ∀ (s : State) (c : Cmd), Cmded s c →
    (∀ d, domAt s c (c.arg 0) = some d → mayDom s c d = true →
      (∀ x, s.dom d = some x →
        (Answers .dbgatt s (resW 0 0 0) fun u =>
          (∃ y, u.dom d = some y ∧ y.dbg = true ∧ bit (nth y.dw 0 0) 19 = true) ∧ u.cores = s.cores) ∧
        Answers .dbgdet s (resW 0 0 0) fun u =>
          (∃ y, u.dom d = some y ∧ y.dbg = false ∧ bit (nth y.dw 0 0) 19 = false) ∧
          (∀ r ∈ u.dbg.watches, bits (nth r.2 0 0) 4 6 ≠ domTenant s d) ∧
          ∀ g ∈ u.fw.grids, g.dom = d → g.retired = false → g.kind = 1 → g.halted = false) ∧
      (∀ g, ((liveGrids s d).filter fun g => g.state == 2 && !g.halted) = [g] → s.grid g.id = some g →
        (gridSsg s g = false ∨ effHalt s d = 2 ∨ s.chip.sched.running = false → Answers .haltreq s (resW 0 0 0) fun u =>
          (∃ x, u.grid g.id = some x ∧ x.halted = true) ∧ g.id ∈ u.dbg.halted ∧
          ∀ c ∈ ownCores s g, (u.core c.cl c.co).halt = true ∧
            ∀ i ∈ c.issuers, ((u.core c.cl c.co).iss i.slot).regions = []) ∧
        (gridSsg s g = true → effHalt s d ≠ 2 → s.chip.sched.running = true → ∀ f,
          ((framesAhead s).find? fun f => decide (s.tick + 2000 ≤ f.1)) = some f → Answers .haltreq s (resW 0 0 0) fun u =>
            (∃ x, u.grid g.id = some x ∧ x.halted = true) ∧ u.cores = s.cores ∧
            (s.tick, obj 0, Instr.freeze f.1) ∈ u.agenda)) ∧
      (Answers .resume s (resW 0 0 0) fun u =>
        (∀ g ∈ u.fw.grids, g.dom = d → g.retired = false → g.kind = 1 → g.halted = false) ∧
        ∀ w ∈ u.dbg.stopped, w ∈ s.dbg.stopped)) ∧
    (let w := cmdWho c
     let k := (c.arg 0).toNat
     let i := (c.arg 2).toNat
     let v := c.arg 3
     ∀ d, domOfCore s w.cl w.co = some d → mayDom s c d = true → k ≤ 5 →
      (standsStill s w = false → (Answers .staterd s (resW 5 0 0) fun u => u = s) ∧
        Answers .statewr s (resW 5 0 0) fun u => u = s) ∧
      (standsStill s w = true →
        (Answers .staterd s (resW 0 0 (bits (readState s w k i) (32 * bits v 0 1) 32)) fun u => u = s) ∧
        (s.frozen ≠ none → Answers .statewr s (resW 1 0 0) fun u => u = s) ∧
        (s.frozen = none → (s.iss w).pend = [] → ((s.coreOf w).iss 16).pend = [] →
          Sparse.wf (0 : Word) (s.iss w).vregs = true → Sparse.wf (0 : DWord) (s.coreOf w).sregs = true →
          Sparse.wf false (s.iss w).preds = true → (k = 3 → i % 8 ≠ 0) → (k = 4 → v.toNat ≤ 5) →
          Answers .statewr s (resW 0 0 0) fun u => u.mem = s.mem ∧ readState u w k i = (match k with
            | 0 => BitVec.ofNat 64 (bits v 0 23)
            | 1 => (v.setWidth 32).setWidth 64
            | 3 => boolD (v != 0)
            | 5 => BitVec.ofNat 64 (bits v 0 24)
            | _ => v))))

/-- R415, R438 to R440, R443 to R447: watch ranges, predicate programs, counters and the ring are set as their commands
say; the latch writes its record and follows in 2^k ticks; a false verdict stops nothing, a true one discards the thread's
region and stops it, or halts the engine's grid; exits and the replay log can be read, and a replay returns to its start. -/
def Obligations.DebugCommands : Prop :=
  (∀ (s : State) (c : Cmd), Cmded s c →
    (let d := c.arg 1
     let i := (c.arg 0).toNat
     i < 64 →
      (bits d 4 6 ≠ cmdTenant s c → Answers .wpset s (resW 1 0 0) fun u => u = s) ∧
      (bits d 4 6 = cmdTenant s c → bits d 16 48 = 0 →
        (bit d 0 = true → (assoc s.dbg.currant (bits d 10 6)).isSome = true ∧ spaceOf (c.arg 2) ≤ 3 ∧
          (c.arg 2).toNat % 64 = 0 ∧ c.arg 3 ≠ 0 ∧ (c.arg 3).toNat % 64 = 0) → Answers .wpset s (resW 0 0 0) fun u =>
            assoc u.dbg.watches i = some [d, c.arg 2, c.arg 3] ∧
            ∀ j, j ≠ i → assoc u.dbg.watches j = assoc s.dbg.watches j)) ∧
    (∀ img, (c.arg 0).toNat < 64 → 0 < (c.arg 2).toNat → (c.arg 2).toNat ≤ 128 →
      fwDwords s (cmdTenant s c) .load (c.arg 1) (c.arg 2).toNat = some img →
      (predImageOk (c.arg 2).toNat 0 img = true → Answers .predload s (resW 0 0 0) fun u =>
        assoc u.dbg.currant (c.arg 0).toNat = some img ∧ u.mem = s.mem) ∧
      (predImageOk (c.arg 2).toNat 0 img = false → Answers .predload s (resW 2 0 0) fun u => u = s)) ∧
    (∀ ds, fwDwords s (cmdTenant s c) .load (c.arg 1) 128 = some ds → 10 ≤ (c.arg 0).toNat → (c.arg 0).toNat ≤ 24 →
      (∀ e ∈ selectors ds, e % 256 < 16 ∧ e / 2 ^ 14 % 2 = 0) → Answers .ctrset s (resW 0 0 0) fun u =>
        let k := (c.arg 0).toNat
        u.dbg.k = k ∧ u.dbg.counters = [] ∧
        u.dbg.sels = (((List.range 512).zip (selectors ds)).filter fun e => e.2 % 256 != 0) ∧
        ((s.tick / 2 ^ k + 1) * 2 ^ k, obj 0, Instr.counterLatch) ∈ u.agenda) ∧
    (let d := c.arg 1
     16 ≤ bits d 0 5 → bits d 0 5 ≤ 30 → bits d 5 3 = 0 → bits d 9 55 = 0 → spaceOf (c.arg 0) = 0 →
      (c.arg 0).toNat % 2 ^ bits d 0 5 = 0 → Answers .trring s (resW 0 0 0) fun u =>
        u.dbg.ringBase = (c.arg 0).toNat ∧ u.dbg.ringSize = 2 ^ bits d 0 5 ∧ u.dbg.ringMode = bits d 8 1 ∧
        u.dbg.ringTenant = cmdTenant s c ∧ u.dbg.widx = 64 ∧ u.dbg.lost = 0) ∧
    (mayDom s c 0 = false → Answers .replay s (resW 1 0 0) fun u => u = s) ∧
    (mayDom s c 0 = true → s.dbg.snap = [] → Answers .replay s (resW 2 0 0) fun u => u = s) ∧
    (mayDom s c 0 = true → s.dbg.snap ≠ [] → Answers .replay s (resW 0 0 0) fun u => u.tick = s.dbg.snapTick ∧
      u.frozen = none ∧ u.dbg.replaying = true ∧ u.inbox = s.dbg.rlog.filterMap replayEvent ∧
      u.dbg.replies = s.dbg.rlog.filter replayReply ∧
      ∃ n, (s.dbg.snapTick, obj n, Instr.frameStart) ∈ u.agenda) ∧
    (∀ g, (s.fw.grids.find? fun g => g.launch == (c.arg 0).toNat && g.retired && g.origin.isSome) = some g →
      mayDom s c g.dom = true → (c.arg 1).toNat ≤ 6 → Answers .exitrd s
        (resW 0 0 (bits (nth (exitSummary g.exits) (c.arg 1).toNat 0) (32 * bits (c.arg 2) 0 1) 32)) fun u => u = s) ∧
    Answers .rlogrd s (resW 0 0 (if c.arg 0 = 0 then s.dbg.rlogBase / 64 else s.dbg.rlogIdx)) fun u => u = s) ∧
  (∀ s : State, s.dbg.k ≠ 0 → s.tick % 2 ^ s.dbg.k = 0 → Completes .counterLatch s fun t =>
    (s.tick + 2 ^ s.dbg.k, obj 0, Instr.counterLatch) ∈ t.agenda ∧ t.dbg.counters = s.dbg.counters ∧
    (s.dbg.ringSize ≠ 0 → s.dbg.ringMode ≠ 0 → t.dbg.lost = 0 ∧
      t.dbg.widx = (if s.dbg.ringSize < s.dbg.widx + 4160 then 64 + 4160 else s.dbg.widx + 4160))) ∧
  (∀ (s : State) (e : Eval), (s.dbg.evals.find? fun e => e.id == s.cur.n) = some e → dbgOn s e.w.cl e.w.co = false →
    (e.verdict = false → Completes .currantVerdict s fun t => t.cores = s.cores ∧ t.mem = s.mem ∧
      t.dbg.evals = s.dbg.evals.filter fun x => x.id != e.id) ∧
    (e.verdict = true → e.eng = false → ∀ k, (s.iss e.w).regions.findIdx? (fun r => r.num == e.rnum) = some k →
      Completes .currantVerdict s fun t => (t.iss e.w).wait = .stopped ∧ e.w ∈ t.dbg.stopped ∧
        (t.iss e.w).regions = (s.iss e.w).regions.take k ∧ t.mem = s.mem) ∧
    (e.verdict = true → e.eng = true → ∀ g, (s.core e.w.cl e.w.co).grid.bind s.grid = some g → g.halted = false →
      Completes .currantVerdict s fun t =>
        (∃ x, t.grid g.id = some x ∧ x.halted = true) ∧
        ((e.w.cl, e.w.co) ∈ g.cores → (t.core e.w.cl e.w.co).halt = true)))

/-- R449 to R451, R455 to R459: the mailbox takes a command unless it is busy; a quote holds the measurement, the nonce, function
and ROM revision, the certificate and a signature; an extension counts only if it verifies; records are read and
written; a fundamental reset boots anew and keeps what is not on the die; a function's reset ends what is its own; and
the thermal trip ends every grid and removes power. -/
def Obligations.DeviceServices : Prop :=
  (∀ (s : State) (c : Cmd), Cmded s c →
    (∀ fn, c.src = .mbox fn → s.memWf →
      (c.arg 6 = 0 → (c.arg 7).toNat % 64 = 0 →
        let b := toBytes 64 s.fw.meas.toNat ++ dwBytes ((List.range 6).map c.arg) ++
          toBytes 8 (fn % 64 + Config.romWord.toNat * 2 ^ 16) ++ (assoc s.fw.cfg 1).getD []
        let q := b ++ Config.mldsaSign (sha3 b)
        Answers .attest s (resW 0 0 q.length) fun u => u.bytes (busKey (c.arg 7)) q.length = q ∧
          ∀ k, (k < busKey (c.arg 7) ∨ busKey (c.arg 7) + q.length ≤ k) → u.byte k = s.byte k) ∧
      (c.arg 6 ≠ 0 ∨ (c.arg 7).toNat % 64 ≠ 0 → Answers .attest s (resW 2 0 0) fun u => u = s)) ∧
    (c.pf = false →
      (Answers .extload s (resW 1 0 0) fun u => u = s) ∧ (Answers .cfgrd s (resW 1 0 0) fun u => u = s) ∧
      (Answers .cfgwr s (resW 1 0 0) fun u => u = s) ∧ Answers .healthrd s (resW 1 0 0) fun u => u = s) ∧
    (c.pf = true →
      (∀ owner, assoc s.fw.cfg 5 = some owner → sigBytes + 4 ≤ (c.arg 1).toNat →
        let im := fromHost s (c.arg 0) (c.arg 1).toNat
        let good := Config.mldsaVerify (sha3 (owner ++ recSigned im)) (recSig im)
        s.fw.extVer ≤ leNat (im.take 4) → Answers .extload s (if good then resW 0 0 0 else resW 2 0 0) fun u =>
          if good then u = { s with fw := { s.fw with meas := extendM s.fw.meas im, extVer := leNat (im.take 4) } }
          else u = s) ∧
      (∀ r, s.memWf → (c.arg 0).toNat < 6 → assoc s.fw.cfg (c.arg 0).toNat = some r →
        Answers .cfgrd s (resW 0 0 r.length) fun u => u.bytes (busKey (c.arg 1)) r.length = r) ∧
      (let r := fromHost s (c.arg 0) (c.arg 1).toNat
       r.headD 0 = 5 → Answers .cfgwr s (resW 0 0 0) fun u =>
        bootRecords u.fw.cfg = bootRecords (assocSet s.fw.cfg 0x105 r) ∧ assoc u.fw.cfg 5 = assoc s.fw.cfg 5) ∧
      (s.memWf → Answers .healthrd s (resW 0 0 (healthBytes s).length) fun u =>
        u.bytes (busKey (c.arg 0)) (healthBytes s).length = healthBytes s))) ∧
  (∀ (s : State) (v : DWord),
    let fn := s.cur.n
    let m := s.mbox fn
    (Completes .mbstatRead s fun t => t.mbox fn = { m with ovr := false } ∧ SameBut s t s.cur id) ∧
    (m.busy = true → Completes (.mbcmdWriteWhileBusy v) s fun t =>
      t.mbox fn = { m with ovr := true } ∧ t.fw.cmds = s.fw.cmds ∧ t.agenda = s.agenda ∧ SameBut s t s.cur id) ∧
    (m.busy = false → Completes (.mbcmdWriteWhileBusy v) s fun t =>
      t.mbox fn = { m with busy := true, cmd := bits v 0 8 } ∧
      t.fw.cmds = s.fw.cmds ++ [(s.fw.nextCmd, ⟨.mbox fn, bits v 0 8, m.args⟩)] ∧
      (s.fw.cmds = [] → ∃ d, d ≤ 4000 ∧ (s.tick + d, obj s.fw.nextCmd, cmdInstr (bits v 0 8)) ∈ t.agenda) ∧
      SameBut s t s.cur id)) ∧
  (∀ s : State, s.memWf → Completes .deviceReset s fun t =>
    let rs := bootRecords s.fw.cfg
    t.tick = 0 ∧ t.cores = [] ∧ t.inbox = [] ∧ t.fw.grids = [] ∧ t.fw.queues = [] ∧ t.fw.cmds = [] ∧ t.fw.cfg = rs ∧
    t.fw.boot = (if rs.all (fun e => recOk e.1 e.2) then 6 else 3) ∧
    (∀ k, keyOrch 0 ≤ k → k < keySp 0 0 0 → t.byte k = s.byte k) ∧
    (∀ k, keySp 0 0 0 ≤ k → t.byte k = 0) ∧
    (rs.all (fun e => recOk e.1 e.2) = true → t.chip.psnbase = BitVec.ofNat 64 (ownHbm 0xBE01000000) ∧
      (∃ d, t.fw.doms = [d] ∧ d.id = 0 ∧ d.parent = none) ∧ (2 ^ 32, obj 0, Instr.errorCountDecay) ∈ t.agenda)) ∧
  (∀ s : State, 0 < s.cur.cl → let fn := s.cur.co; let va := s.cur.n
    (s.cur.cl = 1 → Completes .functionLevelReset s fun t => (s.tick + 4000, ⟨2, fn, va⟩, Instr.functionLevelReset) ∈ t.agenda) ∧
    (s.cur.cl = 2 → ∀ a, (s.fw.allocs.find? fun a => a.va == va && domTenant s a.dom == fn) = some a →
      Completes .functionLevelReset s fun t =>
        t.fw.allocs = s.fw.allocs.filter fun y => y.va != a.va || y.dom != a.dom)) ∧
  (∀ s : State, s.cur.cl = 0 → s.cur.n ≠ 0 → Completes .functionLevelReset s fun t =>
    let fn := s.cur.n
    (∀ g ∈ s.fw.grids, domTenant s g.dom = fn → s.grid g.id = some g → (g.state = 1 ∨ g.state = 2 ∨ g.state = 3) →
      ∃ x, t.grid g.id = some x ∧ x.state = 5 ∧ x.rstat = 10) ∧
    (∀ g ∈ s.fw.grids, s.grid g.id = some g → (∀ h ∈ s.fw.grids, h.id = g.id → domTenant s h.dom ≠ fn) →
      t.grid g.id = some g) ∧
    (∀ q ∈ t.fw.queues, q.id / 64 ≠ fn) ∧
    (∀ p ∈ t.chip.slots, domTenant s p.2.dom = fn → bit (p.2.d 0) 0 = false) ∧
    (∀ d ∈ t.fw.doms, domTenant s d.id = fn → fnRoot s fn = some d.id) ∧
    ∀ a ∈ s.fw.allocs, domTenant s a.dom = fn →
      ∃ v ∈ t.chip.invs, v.next = [((⟨1, fn, a.va⟩ : Iss), Instr.functionLevelReset)]) ∧
  (∀ s : State, Completes .thermalTrip s fun t => t.powered = false ∧ t.fw.alarms = s.fw.alarms ++ [(4, 0)] ∧
    ∀ g ∈ s.fw.grids, s.grid g.id = some g → (g.state = 1 ∨ g.state = 2 ∨ g.state = 3) →
      ∃ x, t.grid g.id = some x ∧ x.state = 5 ∧ x.rstat = 10)

/-- R26, R451, R452, R456, R458: after reset TICK is 0, no core runs, no command is taken, the measurement register and the
chip's registers hold their reset values, an issuer's flags and special registers theirs, and memory lists nothing (what
an unlisted byte reads as is the model's choice, log 1; the register files' zeros too, log 3); the ROM's boot is
the first happening (log 2). -/
def Obligations.ResetValues : Prop :=
  let s := State.reset
  s.tick = 0 ∧ s.powered = true ∧ s.frozen = none ∧ s.cores = [] ∧ s.mem = [] ∧ s.memWf ∧ s.inbox = [] ∧
    s.agenda = [(0, obj 0, Instr.deviceReset)] ∧ s.chip.sstep = 0 ∧ s.chip.orchst = 0 ∧ s.chip.psnbase = 0 ∧
    s.fw.boot = 0 ∧ s.fw.meas = 0 ∧ s.fw.cmds = [] ∧ s.fw.doms = [] ∧ s.fw.queues = [] ∧ s.fw.grids = [] ∧
    (∀ fn, (s.mbox fn).busy = false ∧ (s.mbox fn).ovr = false) ∧ (∀ k, s.byte k = 0) ∧
    (∀ cl, (s.chip.cluster cl).pairst = 0 ∧ (s.chip.cluster cl).mask = 0) ∧
    ∀ w : Iss, (s.iss w).flags = 0 ∧ (s.iss w).flagen = 0 ∧ (s.iss w).seed = 0 ∧ (s.iss w).fmask = 0 ∧
      (s.iss w).trapvec = 0 ∧ (s.iss w).rcount = 0 ∧ (s.iss w).rlimit = 3 ∧ (∀ r l, (s.iss w).v 0 r l = 0) ∧
      (∀ r, (s.coreOf w).sreg 0 r = 0) ∧ (s.iss w).p 0 0 0 = true ∧ (s.coreOf w).g 0 0 = true

/-- R163, R210, R228, R455: a step of an issuer that stands at a well-formed word runs the instruction that the word
decodes to, in the region that is open, or in a new one; around it only a debugger's counters move. A word that the checks
refuse takes the illegal-instruction trap; a happening that is due takes place; with nothing to do the next tick begins,
once every access of a strict grid that has passed its bound is reported as a schedule fault (R31, R62, R68, R76);
and without power nothing runs. -/
def Obligations.StepRunsDecoded : Prop :=
  ∀ s : State, (s.powered = false → step s = .fault .poweredOff) ∧ (s.powered = true →
    (∀ w, nextAct s = .instr w →
      let pc := issuePc s w
      fetchInstr s w = decode (issueEnv s w pc) (s.dword (keyCode w.cl (pc / 16 * 8 + 8 * (pc % 16 + 1)))) ∧
      (∀ i, fetchInstr s w = .ok i → step s = afterInstr w (exec i (beginInstr s w i)) ∧
        ((s.iss w).openRegion ≠ none → beginInstr s w i = { s with cur := w }) ∧
        ((s.iss w).openRegion = none → (∀ p k, i ≠ .rgn p k) → (∀ o z x, i ≠ .ld o z x) →
          beginInstr s w i = openRegion { s with cur := w } w ((s.iss w).rnum + 1) 0 .block (s.iss w).pcs)) ∧
      (∀ k, fetchInstr s w = .error k → step s = .next (illegalWord s w k))) ∧
    (∀ w t, ∃ l, afterInstr w (.next t) = .next { t with dbg := { t.dbg with counters := l } }) ∧
    (∀ k o i, nextAct s = .agenda k o i →
      step s = afterHappening (exec i { s with agenda := s.agenda.eraseIdx k, cur := o })) ∧
    (∀ e r, nextAct s = .inbox e r → step s = afterHappening (exec e.2.2 { s with inbox := r, cur := e.2.1 })) ∧
    (∀ w, nextAct s = .turn w → step s = exec .issueTurn { s with cur := w }) ∧
    (∀ w, nextAct s = .reentry w → step s = exec .regionReentry { s with cur := w }) ∧
    (∀ w, nextAct s = .retry w → step s = exec .atomicRetry { s with cur := w }) ∧
    (nextAct s = .idle → step s = .next (nextTick s) ∧
      (s.frozen ≠ none ∨ s.chip.reqs.filter (overdue s) = [] → (nextTick s).tick = s.tick + 1) ∧
      (s.frozen = none → ∀ q ∈ s.chip.reqs, overdue s q = true →
        ∃ k c, (s.tick, obj k, Instr.scheduleFault c) ∈ (nextTick s).agenda)))

/-- R215 to R221: words written out from the encodings decode to the instructions that they stand for. -/
def Obligations.DecodedWords : Prop :=
  let m : Mods := ⟨false, 0, false⟩
  let pk : Mods := ⟨true, 0, false⟩
  let p1 : Mods := ⟨false, 1, false⟩
  decodeTableWord 64 0x180000C020200700 = some (.vadd ⟨m, 3, 1, .vec 2⟩ false false) ∧
    decodeTableWord 64 0x9800010060500704 = some (.vadd ⟨pk, 4, 3, .sca 5⟩ false false) ∧
    decodeTableWord 64 0x1101000000000006 = some (.brv p1 6) ∧
    decodeTableWord 64 0x7D20000000000000 = some (.halt m) ∧
    decodeTableWord 64 0x9A10018060402F00 = some (.vmad ⟨pk, 6, 3, .vec 4⟩ 5) ∧
    decodeTableWord 64 0xB100038201107000 = some (.vfma ⟨pk, 14, 16, .vec 17⟩ 14 ⟨.f32, .rne, false, 0⟩) ∧
    decodeTableWord 64 0x9D000041E2000000 = some (.vcmpImm pk 1 15 ⟨false, 0⟩ .ne) ∧
    decodeTableWord 64 0xD010044140000400 = some (.ld ⟨pk, 17, 10, false, 0, 0, 0x400⟩ 2 false) ∧
    decodeTableWord 64 0x48200681C0000000 = some (.vredx ⟨m, 26, 14⟩ (.fadd .rne)) ∧
    decodeTableWord 64 0x6900000000001000 = some (.phreg m 0 0 .sw) ∧
    decodeTableWord 64 0xFC0002001C000000 = some (.csrr pk 8 7) ∧
    decodeTableWord 64 0xF800030000300700 = some (.rand pk 12 0 3 false) ∧
    decodeTableWord 64 0x7088000144A00000 = some (.mma ⟨false, .mx8e4, .mx8e4, .f32, 5, 1, 2, true⟩ false false) ∧
    decodeTableWord 64 0x79000000A0400804 = some (.tokappD m 5 (.sca 4)) ∧
    decodeTableWord 64 0x8100008040000005 = some (.saddImm ⟨pk, 2, 2, ⟨false, 5⟩⟩)

/-- R215 to R228: encoding loses nothing: the word of every well-formed instruction decodes to that instruction, with
every operand at every value that its encoding admits. R215 to R228: what the decoder accepts is well-formed for its
issuer and clause, and is encoded as the same word, but for the base-select bit of FENCE, which that instruction
does not read. -/
def Obligations.DecodeEncode : Prop :=
  (∀ (e : Env) (i : Instr) (w : DWord), i.wf e = true → encode i = some w → decode e w = .ok i) ∧
  (∀ (e : Env) (i : Instr) (w : DWord), decode e w = .ok i → i.wf e = true ∧
     ∃ u, encode i = some u ∧ (u = w ∨ ((∃ m sc od, i = .fence m sc od) ∧ w = u ||| (1 : DWord) <<< 28)))

/-- R109, R147: from every state whose memory and stamps are in canonical form, each step leaves them so (the form is the
model's own, log 1): equal contents of memory are equal data. -/
def Obligations.StepKeepsMemory : Prop :=
  ∀ s t : State, s.memWf → step s = .next t → t.memWf

/-- R160, R161, R223, R225: a read in a tick returns, of the results that are visible by then, the one that became visible
last, and the later issued of two in the same tick; with none visible, what the register holds; predicate 0 and g0
read true whatever is in flight, and a write to them is discarded. -/
def Obligations.RegisterReading : Prop :=
  (∀ (ps qs : List Pend) (p : Pend) (tgt : Tgt) (l t : Nat) (v base : DWord),
    p.tgt = tgt → p.vis ≤ t → pendVal p l = some v →
    (∀ q ∈ ps, q.tgt = tgt → q.vis ≤ t → pendVal q l ≠ none → q.vis < p.vis ∨ q.vis = p.vis ∧ q.itick ≤ p.itick) →
    (∀ q ∈ qs, q.tgt = tgt → q.vis ≤ t → pendVal q l ≠ none → q.vis < p.vis ∨ q.vis = p.vis ∧ q.itick < p.itick) →
    pendRead (ps ++ p :: qs) tgt l t base = v) ∧
  (∀ (ps : List Pend) (tgt : Tgt) (l t : Nat) (base : DWord),
    (∀ q ∈ ps, q.tgt = tgt → q.vis ≤ t → pendVal q l = none) → pendRead ps tgt l t base = base) ∧
  (∀ (me : Issuer) (t l : Nat), me.p t 0 l = true) ∧ (∀ (c : Core) (t : Nat), c.g t 0 = true) ∧
  (∀ (c : Core) (n l : Nat) (v : DWord), writeLane c n (.p 0) l v = c ∧ writeLane c n (.g 0) l v = c)
end

