-- ==== Sys2Proof/Laws/Cores.lean ====
section
/-!
SUPPORT. Reading a core or an issuer after it, or another, has been replaced; the fields that an update of
issuers leaves alone.
-/
namespace Sys2Proof.Machine

theorem coresGet_cl (l : List Core) (cl co : Nat) : (coresGet l cl co).cl = cl := by
  induction l with
  | nil => rfl
  | cons d t ih => simp only [coresGet]; split <;> simp_all
theorem coresGet_co (l : List Core) (cl co : Nat) : (coresGet l cl co).co = co := by
  induction l with
  | nil => rfl
  | cons d t ih => simp only [coresGet]; split <;> simp_all
@[simp] theorem core_cl (s : State) (cl co : Nat) : (s.core cl co).cl = cl := coresGet_cl _ _ _
@[simp] theorem core_co (s : State) (cl co : Nat) : (s.core cl co).co = co := coresGet_co _ _ _

theorem coresGet_set (l : List Core) (c : Core) (cl co : Nat) :
    coresGet (coresSet l c) cl co = if c.cl = cl ∧ c.co = co then c else coresGet l cl co := by
  induction l with
  | nil => simp only [coresSet, coresGet]
  | cons d t ih =>
    simp only [coresSet]
    split
    · rename_i h
      simp only [coresGet]
      by_cases k : c.cl = cl ∧ c.co = co
      · simp [k]
      · have : ¬(d.cl = cl ∧ d.co = co) := by rintro ⟨rfl, rfl⟩; exact k ⟨h.1.symm, h.2.symm⟩
        simp [k, this]
    · rename_i h
      simp only [coresGet, ih]
      by_cases k : c.cl = cl ∧ c.co = co
      · have : ¬(d.cl = cl ∧ d.co = co) := by rintro ⟨rfl, rfl⟩; exact h ⟨k.1.symm, k.2.symm⟩
        simp [k, this]
      · simp [k]
theorem core_setCore (s : State) (c : Core) (cl co : Nat) :
    (s.setCore c).core cl co = if c.cl = cl ∧ c.co = co then c else s.core cl co := coresGet_set _ _ _ _

theorem issGet_slot (l : List Issuer) (n : Nat) : (issGet l n).slot = n := by
  induction l with
  | nil => rfl
  | cons d t ih => simp only [issGet]; split <;> simp_all
@[simp] theorem iss_slot (c : Core) (n : Nat) : (c.iss n).slot = n := issGet_slot _ _
theorem issGet_set (l : List Issuer) (i : Issuer) (n : Nat) :
    issGet (issSet l i) n = if i.slot = n then i else issGet l n := by
  induction l with
  | nil => simp only [issSet, issGet]
  | cons d t ih =>
    simp only [issSet]
    split
    · rename_i h
      simp only [issGet]
      by_cases k : i.slot = n
      · simp [k]
      · have : ¬ d.slot = n := by rintro rfl; exact k h.symm
        simp [k, this]
    · rename_i h
      simp only [issGet, ih]
      by_cases k : i.slot = n
      · have : ¬ d.slot = n := by rintro rfl; exact h k.symm
        simp [k, this]
      · simp [k]
theorem iss_setIss (c : Core) (i : Issuer) (n : Nat) :
    (c.setIss i).iss n = if i.slot = n then i else c.iss n := issGet_set _ _ _

/-- An update that keeps a core's key. -/
def KeepsKey (f : Core → Core) : Prop := ∀ c, (f c).cl = c.cl ∧ (f c).co = c.co
theorem core_updCore (s : State) (cl co cl' co' : Nat) (f : Core → Core) (h : KeepsKey f) :
    (s.updCore cl co f).core cl' co' = if cl = cl' ∧ co = co' then f (s.core cl co) else s.core cl' co' := by
  simp [State.updCore, core_setCore, h _]

theorem keeps_setIss (f : Core → Issuer) : KeepsKey fun c => c.setIss (f c) := fun _ => ⟨rfl, rfl⟩
theorem core_updIss (s : State) (w : Iss) (f : Issuer → Issuer) (cl co : Nat) :
    (s.updIss w f).core cl co =
      if w.cl = cl ∧ w.co = co then (s.coreOf w).setIss (f (s.iss w)) else s.core cl co := by
  rw [State.updIss, core_updCore _ _ _ _ _ _ (keeps_setIss _)]
  rfl
theorem coreOf_updIss (s : State) (w : Iss) (f : Issuer → Issuer) :
    (s.updIss w f).coreOf w = (s.coreOf w).setIss (f (s.iss w)) := by simp [State.coreOf, core_updIss]
theorem iss_updIss (s : State) (w : Iss) (f : Issuer → Issuer) (h : (f (s.iss w)).slot = w.n) :
    (s.updIss w f).iss w = f (s.iss w) := by
  have := coreOf_updIss s w f
  simp only [State.coreOf] at this
  rw [State.iss, this, iss_setIss]
  simp [h]
@[simp] theorem state_iss_slot (s : State) (w : Iss) : (s.iss w).slot = w.n := iss_slot _ _

/-! An update of a core or an issuer changes the list of cores alone. -/
@[simp] theorem updCore_kept (s : State) (cl co : Nat) (f : Core → Core) : (s.updCore cl co f).kept = s.kept := rfl
@[simp] theorem updIss_kept (s : State) (w : Iss) (f : Issuer → Issuer) : (s.updIss w f).kept = s.kept := rfl
@[simp] theorem updIss_cur (s : State) (w : Iss) (f : Issuer → Issuer) : (s.updIss w f).cur = s.cur := rfl
@[simp] theorem updIss_tick (s : State) (w : Iss) (f : Issuer → Issuer) : (s.updIss w f).tick = s.tick := rfl
@[simp] theorem updIss_mem (s : State) (w : Iss) (f : Issuer → Issuer) : (s.updIss w f).mem = s.mem := rfl
@[simp] theorem updIss_chip (s : State) (w : Iss) (f : Issuer → Issuer) : (s.updIss w f).chip = s.chip := rfl
@[simp] theorem updCore_mem (s : State) (cl co : Nat) (f : Core → Core) : (s.updCore cl co f).mem = s.mem := rfl
@[simp] theorem setIss_kept (c : Core) (i : Issuer) : (c.setIss i).kept = c.kept := rfl

/-- Counting an event changes a debugger's counters alone. -/
theorem count_kept (s : State) (ev : Nat) (w : Iss) (n : Nat) : (s.count ev w n).kept = s.kept := by
  unfold State.count; split <;> rfl
theorem count_cores (s : State) (ev : Nat) (w : Iss) (n : Nat) : (s.count ev w n).cores = s.cores := by
  unfold State.count; split <;> rfl
theorem count_mem (s : State) (ev : Nat) (w : Iss) (n : Nat) : (s.count ev w n).mem = s.mem := by
  unfold State.count; split <;> rfl

end Sys2Proof.Machine
end

