-- ==== Sys2Proof/Laws/Finish.lean ====
section
/-!
SUPPORT. What the end of an instruction and results in flight change: all that `finish`, `addPend` and `emit`
can do, said once.
-/
namespace Sys2Proof.Machine

/-- A state change at issuer w that leaves everything else alone. -/
structure AtIssuer (s t : State) (w : Iss) : Prop where
  kept : t.kept = s.kept
  cores : ∀ cl co, ¬(cl = w.cl ∧ co = w.co) → t.core cl co = s.core cl co
  core : (t.coreOf w).kept = (s.coreOf w).kept
  iss : ∀ n, n ≠ w.n → (t.coreOf w).iss n = (s.coreOf w).iss n

theorem AtIssuer.refl (s : State) (w : Iss) : AtIssuer s s w := ⟨rfl, fun _ _ _ => rfl, rfl, fun _ _ => rfl⟩
theorem AtIssuer.trans {s t u : State} {w : Iss} (h : AtIssuer s t w) (k : AtIssuer t u w) : AtIssuer s u w :=
  ⟨k.kept.trans h.kept, fun cl co n => (k.cores cl co n).trans (h.cores cl co n), k.core.trans h.core,
    fun n hn => (k.iss n hn).trans (h.iss n hn)⟩
theorem atIssuer_updIss (s : State) (w : Iss) (f : Issuer → Issuer) (h : (f (s.iss w)).slot = w.n) :
    AtIssuer s (s.updIss w f) w := by
  refine ⟨rfl, fun cl co n => ?_, ?_, fun n hn => ?_⟩
  · rw [core_updIss]; split
    · rename_i k; exact absurd ⟨k.1.symm, k.2.symm⟩ n
    · rfl
  · rw [coreOf_updIss]; rfl
  · rw [coreOf_updIss, iss_setIss, h]; simp [Ne.symm hn]
theorem count_core (s : State) (ev : Nat) (w : Iss) (n cl co : Nat) : (s.count ev w n).core cl co = s.core cl co := by
  simp [State.core, count_cores]
theorem count_iss (s : State) (ev : Nat) (w v : Iss) (n : Nat) : (s.count ev w n).iss v = s.iss v := by
  simp [State.iss, count_core]
theorem atIssuer_count (s : State) (ev : Nat) (w v : Iss) (n : Nat) : AtIssuer s (s.count ev w n) v :=
  ⟨count_kept _ _ _ _, fun _ _ _ => count_core _ _ _ _ _ _, by simp [State.coreOf, count_core],
    fun _ _ => by simp [State.coreOf, count_core]⟩
/-- A core update that keeps its key, its issuers and all but the rotation. -/
theorem atIssuer_rot (s : State) (w : Iss) (f : Core → Core) (h : ∀ c, (f c).cl = c.cl ∧ (f c).co = c.co)
    (k : ∀ c, (f c).kept = c.kept) (i : ∀ c, (f c).issuers = c.issuers) :
    AtIssuer s (s.updCore w.cl w.co f) w := by
  refine ⟨rfl, fun cl co n => ?_, ?_, fun n _ => ?_⟩
  · rw [core_updCore _ _ _ _ _ _ h]; split
    · rename_i e; exact absurd ⟨e.1.symm, e.2.symm⟩ n
    · rfl
  · simp [State.coreOf, core_updCore _ _ _ _ _ _ h, k]
  · simp [State.coreOf, core_updCore _ _ _ _ _ _ h, Core.iss, i]
theorem iss_updCore_rot (s : State) (w : Iss) (f : Core → Core) (h : ∀ c, (f c).cl = c.cl ∧ (f c).co = c.co)
    (i : ∀ c, (f c).issuers = c.issuers) : (s.updCore w.cl w.co f).iss w = s.iss w := by
  simp [State.iss, core_updCore _ _ _ _ _ _ h, Core.iss, i]

/-- PCs after an instruction that ends with f (R164, R210). -/
def finPcs (x : Ctx) (s : State) (f : Fin) : List Nat :=
  x.sel.foldl (fun l t => setNth 0 l t ((f.pcs t).getD (s.nextPc x.w.cl x.pc))) (s.iss x.w).pcs
/-- What the issuer waits for after it. -/
def finWait (x : Ctx) (f : Fin) : Wait := match f.wait with | .run => if x.m.park then .marker else .run | w => w

/-- Going on in the turn, or ending it, keeps a core's key, its issuers and all but the rotation. -/
theorem atIssuer_turn (s : State) (w : Iss) (b : Bool) (u v : Nat) :
    AtIssuer s (s.updCore w.cl w.co fun c => if b then c.endTurn u else { c with rotAt := v }) w ∧
      (s.updCore w.cl w.co fun c => if b then c.endTurn u else { c with rotAt := v }).iss w = s.iss w :=
  ⟨atIssuer_rot s w _ (fun _ => by cases b <;> exact ⟨rfl, rfl⟩) (fun _ => by cases b <;> rfl)
    (fun _ => by cases b <;> rfl),
   iss_updCore_rot s w _ (fun _ => by cases b <;> exact ⟨rfl, rfl⟩) (fun _ => by cases b <;> rfl)⟩
theorem atIssuer_countIf (s : State) (c : Prop) [Decidable c] (n m : Nat) (w v : Iss) :
    AtIssuer s (if c then s else s.count n w m) v := by
  split
  · exact AtIssuer.refl _ _
  · exact atIssuer_count _ _ _ _ _
/-- An issuer replaced by one with the same slot. -/
theorem updIss_const (s1 s : State) (w : Iss) (i : Issuer) (h : AtIssuer s s1 w) (k : i.slot = w.n) :
    AtIssuer s (s1.updIss w fun _ => i) w ∧ (s1.updIss w fun _ => i).iss w = i :=
  ⟨h.trans (atIssuer_updIss _ _ _ k), iss_updIss _ _ _ k⟩

theorem finish_spec (x : Ctx) (s : State) (f : Fin) :
    AtIssuer s (finish x s f) x.w ∧
      ((finish x s f).iss x.w).kept = (s.iss x.w).kept ∧
      ((finish x s f).iss x.w).pend = (s.iss x.w).pend ∧
      ((finish x s f).iss x.w).regions = (s.iss x.w).regions ∧
      ((finish x s f).iss x.w).pcs = finPcs x s f ∧
      ((finish x s f).iss x.w).wait = finWait x f := by
  unfold finish
  extract_lets nxt me last bub pcs wait me1 s1 sel pc leaves changed me2
  have h1 : AtIssuer s s1 x.w := atIssuer_countIf _ _ _ _ _ _
  split
  · obtain ⟨a, b⟩ := updIss_const s1 s x.w { me2 with nextAt := x.t + 1 + (if f.taken = true then 2 else 0) + f.e + bub } h1
      (state_iss_slot s x.w)
    refine ⟨a, ?_⟩
    rw [b]
    exact ⟨rfl, rfl, rfl, rfl, rfl⟩
  · obtain ⟨a, b⟩ := updIss_const s1 s x.w me2 h1 (state_iss_slot s x.w)
    obtain ⟨c, d⟩ := atIssuer_turn (s1.updIss x.w fun _ => me2) x.w (changed || wait != .run)
      (x.t + x.c.passes x.w.n + f.e + bub) (x.t + x.c.passes x.w.n + f.e)
    refine ⟨a.trans c, ?_⟩
    rw [d, b]
    exact ⟨rfl, rfl, rfl, rfl, rfl⟩

theorem mapOpen_kept (me : Issuer) (f : Region → Region) : (me.mapOpen f).kept = me.kept := rfl
theorem mapOpen_held (me : Issuer) (f : Region → Region) (h : ∀ r, (f r).held = r.held) :
    (me.mapOpen f).regions.map (·.held) = me.regions.map (·.held) := by
  simp only [Issuer.mapOpen, List.map_map]
  apply List.map_congr_left
  intro r _
  simp only [Function.comp]
  split <;> simp [h]

theorem foldCrc_spec (s : State) (w : Iss) (ds : List DWord) :
    AtIssuer s (foldCrc s w ds) w ∧
      ((foldCrc s w ds).iss w).kept = (s.iss w).kept ∧ ((foldCrc s w ds).iss w).pend = (s.iss w).pend ∧
      ((foldCrc s w ds).iss w).pcs = (s.iss w).pcs ∧
      ((foldCrc s w ds).iss w).regions.map (·.held) = (s.iss w).regions.map (·.held) ∧
      ((foldCrc s w ds).iss w).regions.map (·.num) = (s.iss w).regions.map (·.num) := by
  unfold foldCrc; split
  · refine ⟨atIssuer_updIss _ _ _ (by simp [Issuer.mapOpen]), ?_⟩
    rw [iss_updIss _ _ _ (by simp [Issuer.mapOpen])]
    refine ⟨rfl, rfl, rfl, mapOpen_held _ _ fun _ => rfl, ?_⟩
    simp only [Issuer.mapOpen, List.map_map]
    apply List.map_congr_left
    intro r _
    simp only [Function.comp]
    split <;> rfl
  · exact ⟨AtIssuer.refl _ _, rfl, rfl, rfl, rfl, rfl⟩

/-- What `addPend` adds to the results in flight. -/
def pendsOf (s : State) (w : Iss) (vis : Nat) (ws : List Wr) : List Pend :=
  (ws.filter fun e => !e.2.isEmpty).map fun e =>
    (⟨vis, e.1, e.2, (s.iss w).regionNo, noHome, s.tick⟩ : Pend)

theorem mapOpen_regionNo (me : Issuer) (f : Region → Region) (h : ∀ r, (f r).num = r.num)
    (k : ∀ r, (f r).closed = r.closed) : (me.mapOpen f).regionNo = me.regionNo := by
  simp only [Issuer.regionNo, Issuer.openRegion, Issuer.mapOpen, ← List.map_reverse]
  cases me.regions.reverse with
  | nil => rfl
  | cons r l => cases hc : r.closed <;> simp [hc, h, k]
theorem foldCrc_regionNo (s : State) (w : Iss) (ds : List DWord) :
    ((foldCrc s w ds).iss w).regionNo = (s.iss w).regionNo := by
  unfold foldCrc; split
  · rw [iss_updIss _ _ _ (by simp [Issuer.mapOpen])]
    exact mapOpen_regionNo _ _ (fun _ => rfl) fun _ => rfl
  · rfl

theorem addPend_spec (s : State) (w : Iss) (vis : Nat) (ws : List Wr) :
    AtIssuer s (addPend s w vis ws) w ∧
      ((addPend s w vis ws).iss w).kept = (s.iss w).kept ∧
      ((addPend s w vis ws).iss w).pend = (s.iss w).pend ++ pendsOf s w vis ws ∧
      ((addPend s w vis ws).iss w).pcs = (s.iss w).pcs ∧
      ((addPend s w vis ws).iss w).regions.map (·.held) = (s.iss w).regions.map (·.held) := by
  unfold addPend addPendFrom
  generalize hd : (ws.map fun e => e.2.map (·.2)).flatten = ds
  obtain ⟨a, b, c, d, e, _⟩ := foldCrc_spec s w ds
  refine ⟨a.trans (atIssuer_updIss _ _ _ (by simp [Issuer.mapOpen])), ?_⟩
  rw [iss_updIss _ _ _ (by simp [Issuer.mapOpen])]
  refine ⟨b, ?_, d, ?_⟩
  · simp only [c, pendsOf, foldCrc_regionNo]
  · refine (mapOpen_held _ _ fun r => ?_).trans e
    split <;> rfl

theorem mem_of_kept {s t : State} (h : t.kept = s.kept) : t.mem = s.mem :=
  show t.kept.mem = s.kept.mem from by rw [h]
theorem bytes_of_mem {s t : State} (h : t.mem = s.mem) (n k : Nat) : t.bytes k n = s.bytes k n := by
  induction n generalizing k with
  | zero => rfl
  | succ n ih => simp only [State.bytes, State.byte, h, ih]
/-- The code that follows depends on memory alone (R210). -/
theorem code_of_mem {s t : State} {cl off : Nat} (h : t.mem = s.mem) : t.code cl off = s.code cl off := by
  simp only [State.code, State.dword, bytes_of_mem h]
theorem nextPc_of_mem {s t : State} {cl pc : Nat} (h : t.mem = s.mem) : t.nextPc cl pc = s.nextPc cl pc := by
  unfold State.nextPc State.header
  rw [code_of_mem h]

/-- All that a register instruction does when its region lets it (R160, R176, R244). -/
theorem alu_spec (s : State) (m : Mods) (L : Nat) (tgts : List Tgt) (ws : List Wr) (fl : BitVec 5)
    (h : regionCause (s.ctx m) tgts = none) :
    ∃ t, alu (s.ctx m) L tgts ws fl = .next t ∧
      (t.iss s.cur).pend = (s.iss s.cur).pend ++ pendsOf s s.cur ((s.ctx m).vis L 0) (ws ++ flagWr fl) ∧
      Advances s t m ∧ RegFrame s t := by
  refine ⟨_, by rw [alu, h], ?_⟩
  obtain ⟨a, b, c, d, e, f⟩ := finish_spec (s.ctx m) (addPend (s.ctx m).s (s.ctx m).w ((s.ctx m).vis L 0) (ws ++ flagWr fl)) {}
  obtain ⟨a', b', c', d', e'⟩ := addPend_spec s s.cur ((s.ctx m).vis L 0) (ws ++ flagWr fl)
  have hw : (s.ctx m).w = s.cur := rfl
  have hs : (s.ctx m).s = s := rfl
  have hm : (s.ctx m).m = m := rfl
  have code := fun cl pc => nextPc_of_mem (cl := cl) (pc := pc) (mem_of_kept a'.kept)
  rw [hw, hs] at a b c d e f
  refine ⟨by rw [hs, hw, c, c'], ⟨?_, ?_⟩, ⟨⟨(a'.trans a).kept, (a'.trans a).cores⟩, ⟨(a'.trans a).core, (a'.trans a).iss⟩,
    by rw [hs, hw, b, b'], by rw [hs, hw, d, e']⟩⟩
  · rw [hs, hw, e]
    simp only [finPcs, hw, d', code]
    rfl
  · rw [hs, hw, f]
    simp only [finWait, hm, markerWait]

theorem pendsOf_one (s : State) (m : Mods) (L : Nat) (tgt : Tgt) (val : Nat → DWord) (fl : BitVec 5) :
    pendsOf s s.cur ((s.ctx m).vis L 0) ([(tgt, (s.ctx m).act.map fun l => (l, val l))] ++ flagWr fl) =
      resultsOf (s.ctx m) L tgt val fl := by
  have hn : (s.iss s.cur).regionNo = (s.ctx m).regionNo := rfl
  have ht : s.tick = (s.ctx m).t := rfl
  unfold pendsOf resultsOf flagWr
  rw [hn, ht]
  by_cases ha : (s.ctx m).act = [] <;> by_cases hf : fl = 0#5 <;> simp [ha, hf]

/-- A meaning that is one register operation is a register instruction. -/
theorem regInstr_of_alu {i : Instr} {m : Mods} {L : Nat} {tgt : Tgt} {val : Ctx → Nat → DWord} {fl : Ctx → BitVec 5}
    (h : ∀ s, exec i s =
      alu (s.ctx m) L [tgt] [(tgt, (s.ctx m).act.map fun l => (l, val (s.ctx m) l))] (fl (s.ctx m))) :
    RegInstr i m L tgt val fl := by
  intro s hr
  obtain ⟨t, ht, hp, ha, hf⟩ := alu_spec s m L [tgt]
    [(tgt, (s.ctx m).act.map fun l => (l, val (s.ctx m) l))] (fl (s.ctx m)) hr
  exact ⟨t, by rw [h, ht], by rw [hp, pendsOf_one], ha, hf⟩

end Sys2Proof.Machine
end

