-- ==== Sys2Proof/Laws/Memory.lean ====
section
/-!
SUPPORT. Memory: the canonical form of sparse maps is kept, a read after a write, and what a write of bytes leaves alone.
-/
namespace Sys2Proof.Machine

/-! ### Sparse maps -/

section Maps
variable {α : Type} [DecidableEq α] {d : α}

theorem Sparse.wfFrom_mono {lo hi : Nat} {m : Sparse α} (h : lo ≤ hi) (hm : Sparse.wfFrom d hi m = true) :
    Sparse.wfFrom d lo m = true := by
  cases m with
  | nil => rfl
  | cons e t =>
    obtain ⟨k, v⟩ := e
    simp only [Sparse.wfFrom, Bool.and_eq_true, decide_eq_true_eq] at hm ⊢
    exact ⟨⟨Nat.le_trans h hm.1.1, hm.1.2⟩, hm.2⟩

/-- A key below every listed one reads as the default. -/
theorem Sparse.get_below {n lo : Nat} {m : Sparse α} (h : n < lo) (hm : Sparse.wfFrom d lo m = true) : Sparse.get d m n = d := by
  cases m with
  | nil => rfl
  | cons e t =>
    obtain ⟨k, v⟩ := e
    simp only [Sparse.wfFrom, Bool.and_eq_true, decide_eq_true_eq] at hm
    have : n < k := by omega
    simp [Sparse.get, Nat.ne_of_lt this, this]

/-- A write keeps the canonical form. -/
theorem Sparse.wfFrom_set {lo n : Nat} {x : α} {m : Sparse α} (h : lo ≤ n) (hm : Sparse.wfFrom d lo m = true) :
    Sparse.wfFrom d lo (Sparse.set d m n x) = true := by
  induction m generalizing lo with
  | nil =>
    by_cases hx : x = d <;> simp [Sparse.set, hx, Sparse.wfFrom, h]
  | cons e t ih =>
    obtain ⟨k, v⟩ := e
    have hm' := hm
    simp only [Sparse.wfFrom, Bool.and_eq_true, decide_eq_true_eq, Bool.not_eq_true', decide_eq_false_iff_not] at hm
    obtain ⟨⟨h1, h2⟩, h3⟩ := hm
    unfold Sparse.set
    split
    · split
      · exact hm'
      · rename_i hn hx
        simp only [Sparse.wfFrom, Bool.and_eq_true, decide_eq_true_eq, Bool.not_eq_true', decide_eq_false_iff_not]
        exact ⟨⟨h, hx⟩, ⟨by omega, h2⟩, h3⟩
    · split
      · split
        · exact Sparse.wfFrom_mono (by omega) h3
        · rename_i hn hx
          subst hn
          simp only [Sparse.wfFrom, Bool.and_eq_true, decide_eq_true_eq, Bool.not_eq_true', decide_eq_false_iff_not]
          exact ⟨⟨h, hx⟩, h3⟩
      · simp only [Sparse.wfFrom, Bool.and_eq_true, decide_eq_true_eq, Bool.not_eq_true', decide_eq_false_iff_not]
        exact ⟨⟨h1, h2⟩, ih (by omega) h3⟩
theorem Sparse.wf_set {n : Nat} {x : α} {m : Sparse α} (hm : Sparse.wf d m = true) : Sparse.wf d (Sparse.set d m n x) = true :=
  Sparse.wfFrom_set (Nat.zero_le n) hm

/-- A read after a write. -/
theorem Sparse.get_set {lo n : Nat} {x : α} {m : Sparse α} (k : Nat) (hm : Sparse.wfFrom d lo m = true) :
    Sparse.get d (Sparse.set d m n x) k = if k = n then x else Sparse.get d m k := by
  induction m generalizing lo with
  | nil =>
    by_cases hx : x = d <;> by_cases hk : k = n <;> simp [Sparse.set, hx, Sparse.get, hk]
  | cons e t ih =>
    obtain ⟨j, v⟩ := e
    simp only [Sparse.wfFrom, Bool.and_eq_true, decide_eq_true_eq, Bool.not_eq_true', decide_eq_false_iff_not] at hm
    obtain ⟨⟨h1, h2⟩, h3⟩ := hm
    unfold Sparse.set
    by_cases hn : n < j
    · simp only [hn, if_true]
      by_cases hx : x = d
      · simp only [hx, if_true]
        by_cases hk : k = n
        · subst hk; simp [Sparse.get, Nat.ne_of_lt hn, hn]
        · simp [hk]
      · simp only [hx, if_false]
        by_cases hk : k = n
        · simp [Sparse.get, hk]
        · by_cases hl : k < n
          · have : k < j := by omega
            simp [Sparse.get, hk, hl, Nat.ne_of_lt this, this]
          · simp [Sparse.get, hk, hl]
    · simp only [hn, if_false]
      by_cases he : n = j
      · simp only [he, if_true]
        by_cases hx : x = d
        · simp only [hx, if_true]
          by_cases hk : k = j
          · simp [hk, Sparse.get_below (Nat.lt_succ_self j) h3]
          · by_cases hl : k < j
            · simp [Sparse.get, hk, hl, Sparse.get_below (Nat.lt_succ_of_lt hl) h3]
            · simp [Sparse.get, hk, hl]
        · simp only [hx, if_false]
          by_cases hk : k = j <;> simp [Sparse.get, hk]
      · simp only [he, if_false]
        by_cases hk : k = j
        · have : k ≠ n := by omega
          simp [Sparse.get, hk, Ne.symm he]
        · by_cases hl : k < j
          · have : k ≠ n := by omega
            simp [Sparse.get, hk, hl, this]
          · simp only [Sparse.get, hk, hl, if_false]
            exact ih h3

/-- What is left of a map in canonical form is in it. -/
theorem Sparse.wfFrom_filter {lo : Nat} {m : Sparse α} (p : Nat × α → Bool) (hm : Sparse.wfFrom d lo m = true) :
    Sparse.wfFrom d lo (m.filter p) = true := by
  induction m generalizing lo with
  | nil => rfl
  | cons e t ih =>
    obtain ⟨k, v⟩ := e
    have hm' := hm
    simp only [Sparse.wfFrom, Bool.and_eq_true, decide_eq_true_eq, Bool.not_eq_true', decide_eq_false_iff_not] at hm
    obtain ⟨⟨h1, h2⟩, h3⟩ := hm
    rw [List.filter_cons]
    split
    · simp only [Sparse.wfFrom, Bool.and_eq_true, decide_eq_true_eq, Bool.not_eq_true', decide_eq_false_iff_not]
      exact ⟨⟨h1, h2⟩, ih h3⟩
    · exact Sparse.wfFrom_mono (by omega) (ih h3)
/-- A key that the filter drops reads as the default; one whose entry stays reads as before. -/
theorem Sparse.get_filter {lo : Nat} {m : Sparse α} (p : Nat → Bool) (n : Nat) (hm : Sparse.wfFrom d lo m = true) :
    Sparse.get d (m.filter fun e => p e.1) n = if p n then Sparse.get d m n else d := by
  induction m generalizing lo with
  | nil => simp [Sparse.get]
  | cons e t ih =>
    obtain ⟨k, v⟩ := e
    simp only [Sparse.wfFrom, Bool.and_eq_true, decide_eq_true_eq, Bool.not_eq_true', decide_eq_false_iff_not] at hm
    obtain ⟨⟨h1, h2⟩, h3⟩ := hm
    rw [List.filter_cons]
    by_cases hn : n = k
    · subst hn
      by_cases hp : p n = true
      · simp [hp, Sparse.get]
      · simp [hp, Sparse.get_below (Nat.lt_succ_self n) (Sparse.wfFrom_filter (fun e => p e.1) h3)]
    · by_cases hl : n < k
      · have hb : Sparse.get d (t.filter fun e => p e.1) n = d :=
          Sparse.get_below (Nat.lt_succ_of_lt hl) (Sparse.wfFrom_filter (fun e => p e.1) h3)
        by_cases hp : p k = true <;> simp [hp, Sparse.get, hn, hl, hb]
      · by_cases hp : p k = true
        · simp only [hp, if_true, Sparse.get, hn, hl, if_false]
          exact ih h3
        · simp only [hp, Sparse.get, hn, hl, if_false]
          exact ih h3

end Maps

/-! ### Bytes of memory (R109) -/

theorem Memory.wf_setByte {s : State} {k : Nat} {b : Byte} (h : Memory.wf s.mem = true) : Memory.wf (s.setByte k b).mem = true :=
  Sparse.wf_set h
theorem State.byte_setByte {s : State} {k : Nat} {b : Byte} (n : Nat) (h : Memory.wf s.mem = true) :
    (s.setByte k b).byte n = if n = k then b else s.byte n :=
  Sparse.get_set (lo := 0) n h
theorem Memory.wf_setBytes {s : State} {k : Nat} {l : List Byte} (h : Memory.wf s.mem = true) :
    Memory.wf (s.setBytes k l).mem = true := by
  induction l generalizing s k with
  | nil => exact h
  | cons b t ih => exact ih (Memory.wf_setByte h)
/-- A write of bytes changes nothing but memory. -/
theorem State.setBytes_eq (s : State) (k : Nat) (l : List Byte) : s.setBytes k l = { s with mem := (s.setBytes k l).mem } := by
  induction l generalizing s k with
  | nil => rfl
  | cons b t ih => rw [State.setBytes, ih]; rfl
/-- A byte after a write of bytes. -/
theorem State.byte_setBytes {s : State} {k : Nat} {l : List Byte} (n : Nat) (h : Memory.wf s.mem = true) :
    (s.setBytes k l).byte n = if k ≤ n then (l[n - k]?).getD (s.byte n) else s.byte n := by
  induction l generalizing s k with
  | nil => simp [State.setBytes]
  | cons b t ih =>
    rw [State.setBytes, ih (Memory.wf_setByte h), State.byte_setByte n h]
    by_cases h1 : k + 1 ≤ n
    · have e : n - k = (n - (k + 1)) + 1 := by omega
      have h2 : k ≤ n := by omega
      have h3 : n ≠ k := by omega
      simp [h1, h2, h3, e]
    · by_cases h2 : n = k
      · subst h2; simp
      · have h3 : ¬ k ≤ n := by omega
        simp [h1, h2, h3]
theorem State.byte_setBytes_other {s : State} {k n : Nat} {l : List Byte} (hn : n < k ∨ k + l.length ≤ n)
    (h : Memory.wf s.mem = true) : (s.setBytes k l).byte n = s.byte n := by
  rw [State.byte_setBytes n h]
  split
  · rw [List.getElem?_eq_none (by omega)]; rfl
  · rfl
/-- Bytes that no write names. -/
theorem State.bytes_congr {s t : State} {k n : Nat} (h : ∀ j, k ≤ j → j < k + n → t.byte j = s.byte j) :
    t.bytes k n = s.bytes k n := by
  induction n generalizing k with
  | zero => rfl
  | succ n ih =>
    rw [State.bytes, State.bytes, h k (Nat.le_refl k) (by omega), ih fun j h1 h2 => h j (by omega) (by omega)]
/-- The bytes just written. -/
theorem State.bytes_setBytes {s : State} {k : Nat} {l : List Byte} (h : Memory.wf s.mem = true) :
    (s.setBytes k l).bytes k l.length = l := by
  induction l generalizing s k with
  | nil => rfl
  | cons b t ih =>
    rw [State.setBytes, List.length_cons, State.bytes, ih (Memory.wf_setByte h),
      State.byte_setBytes_other (Or.inl (Nat.lt_succ_self k)) (Memory.wf_setByte h), State.byte_setByte k h, if_pos rfl]
theorem length_toBytes (n v : Nat) : (toBytes n v).length = n := by
  induction n generalizing v with
  | zero => rfl
  | succ n ih => simp [toBytes, ih]
/-- Little-endian bytes and back. -/
theorem leNat_toBytes (n v : Nat) : leNat (toBytes n v) = v % 256 ^ n := by
  induction n generalizing v with
  | zero => simp [toBytes, leNat, Nat.mod_one]
  | succ n ih =>
    have e : 256 ^ (n + 1) = 256 * 256 ^ n := by rw [Nat.pow_succ, Nat.mul_comm]
    rw [e, Nat.mod_mul, toBytes, leNat, ih, BitVec.toNat_ofNat, Nat.mod_mod]
/-- A dword read after it was written. -/
theorem State.dword_setBytes {s : State} {k : Nat} (v : DWord) (h : Memory.wf s.mem = true) :
    (s.setBytes k (toBytes 8 v.toNat)).dword k = v := by
  have hb : (s.setBytes k (toBytes 8 v.toNat)).bytes k 8 = toBytes 8 v.toNat := by
    have := State.bytes_setBytes (k := k) (l := toBytes 8 v.toNat) h
    rwa [length_toBytes] at this
  rw [State.dword, hb, leNat_toBytes]
  apply BitVec.eq_of_toNat_eq
  have := v.isLt
  simp only [BitVec.toNat_ofNat]
  omega
theorem State.dword_setBytes_other {s : State} {k n : Nat} {l : List Byte} (hn : n + 8 ≤ k ∨ k + l.length ≤ n)
    (h : Memory.wf s.mem = true) : (s.setBytes k l).dword n = s.dword n := by
  rw [State.dword, State.bytes_congr (s := s) fun j h1 h2 => State.byte_setBytes_other (by omega) h, State.dword]
theorem State.dwords_congr {s t : State} {k n : Nat} (h : ∀ j, k ≤ j → j < k + 8 * n → t.byte j = s.byte j) :
    t.dwords k n = s.dwords k n := by
  induction n generalizing k with
  | zero => rfl
  | succ n ih =>
    rw [State.dwords, State.dwords, ih fun j h1 h2 => h j (by omega) (by omega), State.dword,
      State.bytes_congr (s := s) fun j h1 h2 => h j h1 (by omega), State.dword]

end Sys2Proof.Machine
end

