-- ==== Sys2Proof/Laws/PerInstr.lean ====
section
/-!
SUPPORT. What holds of every instruction as syntax, one lemma a constructor: it has a word exactly when it stands in a clause.
-/
namespace Sys2Proof.Laws.Encoded

/-- R215, R226: an instruction of a clause has an encoding, and a happening has none. -/
def Statement (i : Instr) : Prop := (encode i).isSome = (i.cls != 8)

theorem sadd (o : S3) : Statement (.sadd o) := rfl
theorem ssub (o : S3) : Statement (.ssub o) := rfl
theorem sand (o : S3) : Statement (.sand o) := rfl
theorem sor (o : S3) : Statement (.sor o) := rfl
theorem sxor (o : S3) : Statement (.sxor o) := rfl
theorem sandn (o : S3) : Statement (.sandn o) := rfl
theorem sshl (o : S3) : Statement (.sshl o) := rfl
theorem sshr (o : S3) : Statement (.sshr o) := rfl
theorem ssar (o : S3) : Statement (.ssar o) := rfl
theorem srot (o : S3) : Statement (.srot o) := rfl
theorem smin (o : S3) : Statement (.smin o) := rfl
theorem smax (o : S3) : Statement (.smax o) := rfl
theorem sminu (o : S3) : Statement (.sminu o) := rfl
theorem smaxu (o : S3) : Statement (.smaxu o) := rfl
theorem saddImm (o : SI) : Statement (.saddImm o) := rfl
theorem ssubImm (o : SI) : Statement (.ssubImm o) := rfl
theorem sandImm (o : SI) : Statement (.sandImm o) := rfl
theorem sorImm (o : SI) : Statement (.sorImm o) := rfl
theorem sxorImm (o : SI) : Statement (.sxorImm o) := rfl
theorem sandnImm (o : SI) : Statement (.sandnImm o) := rfl
theorem sshlImm (o : SI) : Statement (.sshlImm o) := rfl
theorem sshrImm (o : SI) : Statement (.sshrImm o) := rfl
theorem ssarImm (o : SI) : Statement (.ssarImm o) := rfl
theorem srotImm (o : SI) : Statement (.srotImm o) := rfl
theorem sminImm (o : SI) : Statement (.sminImm o) := rfl
theorem smaxImm (o : SI) : Statement (.smaxImm o) := rfl
theorem sminuImm (o : SI) : Statement (.sminuImm o) := rfl
theorem smaxuImm (o : SI) : Statement (.smaxuImm o) := rfl
theorem ssel (o : S3) (g : BitVec 3) : Statement (.ssel o g) := rfl
theorem smov (o : S2) : Statement (.smov o) := rfl
theorem smul (o : S3) : Statement (.smul o) := rfl
theorem smulh (o : S3) (u : Bool) : Statement (.smulh o u) := rfl
theorem sdiv (o : S3) : Statement (.sdiv o) := rfl
theorem sdivu (o : S3) : Statement (.sdivu o) := rfl
theorem srem (o : S3) : Statement (.srem o) := rfl
theorem sremu (o : S3) : Statement (.sremu o) := rfl
theorem sclz (o : S2) : Statement (.sclz o) := rfl
theorem spopc (o : S2) : Statement (.spopc o) := rfl
theorem sbfe (o : S3) (u : Bool) : Statement (.sbfe o u) := rfl
theorem scmp (m : Mods) (g : BitVec 3) (a b : BitVec 8) (c : Cond) : Statement (.scmp m g a b c) := rfl
theorem scmpImm (m : Mods) (g : BitVec 3) (a : BitVec 8) (i : Imm) (c : Cond) : Statement (.scmpImm m g a i c) := rfl
theorem smovi (m : Mods) (d : BitVec 8) (i : Imm) : Statement (.smovi m d i) := rfl
theorem smovh (m : Mods) (d : BitVec 8) (v : BitVec 24) : Statement (.smovh m d v) := rfl
theorem bra (m : Mods) (offs : BitVec 32) : Statement (.bra m offs) := rfl
theorem brc (m : Mods) (r : BitVec 8) (offs : BitVec 32) : Statement (.brc m r offs) := rfl
theorem call (m : Mods) (r : BitVec 8) (offs : BitVec 32) : Statement (.call m r offs) := rfl
theorem ret (m : Mods) (r : BitVec 8) : Statement (.ret m r) := rfl
theorem jmpi (m : Mods) (r : BitVec 8) : Statement (.jmpi m r) := rfl
theorem loop (m : Mods) (r : BitVec 8) (offs : BitVec 32) : Statement (.loop m r offs) := rfl
theorem brv (m : Mods) (offs : BitVec 32) : Statement (.brv m offs) := rfl
theorem dqpush (m : Mods) (r : BitVec 8) : Statement (.dqpush m r) := rfl
theorem vadd (o : V3) (u sat : Bool) : Statement (.vadd o u sat) := rfl
theorem vsub (o : V3) (u sat : Bool) : Statement (.vsub o u sat) := rfl
theorem vand (o : V3) : Statement (.vand o) := rfl
theorem vor (o : V3) : Statement (.vor o) := rfl
theorem vxor (o : V3) : Statement (.vxor o) := rfl
theorem vandn (o : V3) : Statement (.vandn o) := rfl
theorem vshl (o : V3) : Statement (.vshl o) := rfl
theorem vshr (o : V3) : Statement (.vshr o) := rfl
theorem vsar (o : V3) : Statement (.vsar o) := rfl
theorem vrot (o : V3) : Statement (.vrot o) := rfl
theorem vmin (o : V3) (u : Bool) : Statement (.vmin o u) := rfl
theorem vmax (o : V3) (u : Bool) : Statement (.vmax o u) := rfl
theorem vaddImm (o : VI) : Statement (.vaddImm o) := rfl
theorem vsubImm (o : VI) : Statement (.vsubImm o) := rfl
theorem vandImm (o : VI) : Statement (.vandImm o) := rfl
theorem vorImm (o : VI) : Statement (.vorImm o) := rfl
theorem vxorImm (o : VI) : Statement (.vxorImm o) := rfl
theorem vandnImm (o : VI) : Statement (.vandnImm o) := rfl
theorem vshlImm (o : VI) : Statement (.vshlImm o) := rfl
theorem vshrImm (o : VI) : Statement (.vshrImm o) := rfl
theorem vsarImm (o : VI) : Statement (.vsarImm o) := rfl
theorem vrotImm (o : VI) : Statement (.vrotImm o) := rfl
theorem vminImm (o : VI) : Statement (.vminImm o) := rfl
theorem vmaxImm (o : VI) : Statement (.vmaxImm o) := rfl
theorem vsel (o : V3) (p : BitVec 3) : Statement (.vsel o p) := rfl
theorem vmov (o : V2) : Statement (.vmov o) := rfl
theorem vmul (o : V3) : Statement (.vmul o) := rfl
theorem vmulh (o : V3) (u : Bool) : Statement (.vmulh o u) := rfl
theorem vmad (o : V3) (c : BitVec 9) : Statement (.vmad o c) := rfl
theorem vdot4 (o : V3) (c : BitVec 9) (u sat : Bool) : Statement (.vdot4 o c u sat) := rfl
theorem vabs (o : V2) (sat : Bool) : Statement (.vabs o sat) := rfl
theorem vclz (o : V2) : Statement (.vclz o) := rfl
theorem vpopc (o : V2) : Statement (.vpopc o) := rfl
theorem vbrev (o : V2) : Statement (.vbrev o) := rfl
theorem vbfe (o : V3) (u : Bool) : Statement (.vbfe o u) := rfl
theorem vbfi (o : V3) (c : BitVec 9) : Statement (.vbfi o c) := rfl
theorem vpermb (o : V3) (c : BitVec 9) : Statement (.vpermb o c) := rfl
theorem vcmp (m : Mods) (p : BitVec 3) (a : BitVec 9) (b : BSrc) (c : Cond) : Statement (.vcmp m p a b c) := rfl
theorem vcmpImm (m : Mods) (p : BitVec 3) (a : BitVec 9) (i : Imm) (c : Cond) : Statement (.vcmpImm m p a i c) := rfl
theorem vmovi (m : Mods) (d : BitVec 9) (i : Imm) : Statement (.vmovi m d i) := rfl
theorem vmovh (m : Mods) (d : BitVec 9) (v : BitVec 24) : Statement (.vmovh m d v) := rfl
theorem vfadd (o : V3) (f : Fmt) : Statement (.vfadd o f) := rfl
theorem vfsub (o : V3) (f : Fmt) : Statement (.vfsub o f) := rfl
theorem vfmul (o : V3) (f : Fmt) : Statement (.vfmul o f) := rfl
theorem vfmin (o : V3) (t : Ty) : Statement (.vfmin o t) := rfl
theorem vfmax (o : V3) (t : Ty) : Statement (.vfmax o t) := rfl
theorem vfabs (o : V2) (t : Ty) : Statement (.vfabs o t) := rfl
theorem vfneg (o : V2) (t : Ty) : Statement (.vfneg o t) := rfl
theorem vfma (o : V3) (c : BitVec 9) (f : Fmt) : Statement (.vfma o c f) := rfl
theorem vfms (o : V3) (c : BitVec 9) (f : Fmt) : Statement (.vfms o c f) := rfl
theorem vfnma (o : V3) (c : BitVec 9) (f : Fmt) : Statement (.vfnma o c f) := rfl
theorem vfcmp (m : Mods) (p : BitVec 3) (a : BitVec 9) (b : BSrc) (t : Ty) (c : Cond) : Statement (.vfcmp m p a b t c) := rfl
theorem vfclass (o : V2) (t : Ty) : Statement (.vfclass o t) := rfl
theorem vfcvt (o : V2) (src : Ty) (f : Fmt) : Statement (.vfcvt o src f) := rfl
theorem vfrnd (o : V2) (f : Fmt) : Statement (.vfrnd o f) := rfl
theorem vftoi (o : V2) (u : Bool) (f : Fmt) : Statement (.vftoi o u f) := rfl
theorem vitof (o : V2) (u : Bool) (f : Fmt) : Statement (.vitof o u f) := rfl
theorem vfscl (o : V3) (f : Fmt) : Statement (.vfscl o f) := rfl
theorem vrcp (o : V2) : Statement (.vrcp o) := rfl
theorem vrsq (o : V2) : Statement (.vrsq o) := rfl
theorem vsqrt (o : V2) (f : Fmt) : Statement (.vsqrt o f) := rfl
theorem vexp2 (o : V2) : Statement (.vexp2 o) := rfl
theorem vlog2 (o : V2) : Statement (.vlog2 o) := rfl
theorem vsin (o : V2) : Statement (.vsin o) := rfl
theorem vcos (o : V2) : Statement (.vcos o) := rfl
theorem vtanh (o : V2) : Statement (.vtanh o) := rfl
theorem vshfl (o : V3) (mode : BitVec 2) : Statement (.vshfl o mode) := rfl
theorem vbcast (o : V2) (n : LaneSrc) : Statement (.vbcast o n) := rfl
theorem vballot (m : Mods) (d : BitVec 9) (p : BitVec 3) (g : BitVec 2) : Statement (.vballot m d p g) := rfl
theorem vvote (m : Mods) (d p : BitVec 3) (mode : BitVec 2) : Statement (.vvote m d p mode) := rfl
theorem vredx (o : V2) (op : RedOp) : Statement (.vredx o op) := rfl
theorem vmxq (o : V2) (f : Fmt) : Statement (.vmxq o f) := rfl
theorem vmxdq (o : V2) (f : Fmt) : Statement (.vmxdq o f) := rfl
theorem vpack (o : V2) (t : Ty) (unp : Bool) : Statement (.vpack o t unp) := rfl
theorem ld (o : MemF) (sz : BitVec 2) (sx : Bool) : Statement (.ld o sz sx) := rfl
theorem st (o : MemF) (sz : BitVec 2) : Statement (.st o sz) := rfl
theorem stMc (o : MemF) (sz : BitVec 2) : Statement (.stMc o sz) := rfl
theorem ldh (o : MemF) (sz : BitVec 2) (sx : Bool) : Statement (.ldh o sz sx) := rfl
theorem wdef (m : Mods) (h : BitVec 4) (a b : BitVec 8) : Statement (.wdef m h a b) := rfl
theorem wtouch (m : Mods) (h : BitVec 4) : Statement (.wtouch m h) := rfl
theorem wstate (m : Mods) (d : BitVec 9) (h : BitVec 4) : Statement (.wstate m d h) := rfl
theorem wdrain (m : Mods) (h : BitVec 4) : Statement (.wdrain m h) := rfl
theorem wrel (m : Mods) (h : BitVec 4) : Statement (.wrel m h) := rfl
theorem hwait (m : Mods) (p : BitVec 3) (h : BitVec 4) : Statement (.hwait m p h) := rfl
theorem atom (o : MemF) (b64 : Bool) (fn : AtomFn) : Statement (.atom o b64 fn) := rfl
theorem red (o : MemF) (b64 : Bool) (fn : AtomFn) : Statement (.red o b64 fn) := rfl
theorem oalloc (m : Mods) (d a : BitVec 8) (mir : Bool) : Statement (.oalloc m d a mir) := rfl
theorem ofree (m : Mods) (d a : BitVec 8) : Statement (.ofree m d a) := rfl
theorem fence (m : Mods) (scope : BitVec 3) (order : BitVec 2) : Statement (.fence m scope order) := rfl
theorem bar (m : Mods) : Statement (.bar m) := rfl
theorem ssync (m : Mods) : Statement (.ssync m) := rfl
theorem phreg (m : Mods) (q : BitVec 4) (a : BitVec 8) (mode : PhMode) : Statement (.phreg m q a mode) := rfl
theorem phdrop (m : Mods) (q : BitVec 4) : Statement (.phdrop m q) := rfl
theorem phsig (m : Mods) (q : BitVec 4) : Statement (.phsig m q) := rfl
theorem phwait (m : Mods) (p : BitVec 3) (q : BitVec 4) : Statement (.phwait m p q) := rfl
theorem phsw (m : Mods) (p : BitVec 3) (q : BitVec 4) : Statement (.phsw m p q) := rfl
theorem phqry (m : Mods) (d : BitVec 9) (q : BitVec 4) : Statement (.phqry m d q) := rfl
theorem rgn (park : Bool) (mask : BitVec 32) : Statement (.rgn park mask) := rfl
theorem meet (m : Mods) (d : BitVec 9) (offs : BitVec 32) : Statement (.meet m d offs) := rfl
theorem join (m : Mods) (a : BitVec 9) : Statement (.join m a) := rfl
theorem dqpop (m : Mods) (d : BitVec 9) : Statement (.dqpop m d) := rfl
theorem mma (o : MmaF) (ga lsel : Bool) : Statement (.mma o ga lsel) := rfl
theorem mmas (o : MmaF) (hm : BitVec 4) (sp48 : Bool) : Statement (.mmas o hm sp48) := rfl
theorem mgath (park : Bool) (ta : Ty) (ha : BitVec 4) (sb : BitVec 8) (lsel : Bool) : Statement (.mgath park ta ha sb lsel) := rfl
theorem cmprs (park : Bool) (ta : Ty) (ha hv hm : BitVec 4) (sp48 : Bool) : Statement (.cmprs park ta ha hv hm sp48) := rfl
theorem accz (park : Bool) (acc : BitVec 7) : Statement (.accz park acc) := rfl
theorem accmv (park : Bool) (acc src : BitVec 7) : Statement (.accmv park acc src) := rfl
theorem accld (park : Bool) (tacc : Ty) (acc : BitVec 7) (ha : BitVec 4) : Statement (.accld park tacc acc ha) := rfl
theorem epi (o : EpiF) : Statement (.epi o) := rfl
theorem epset (park : Bool) (port : BitVec 2) (sa : BitVec 8) : Statement (.epset park port sa) := rfl
theorem efork (park : Bool) (n : BitVec 2) (sa : BitVec 8) : Statement (.efork park n sa) := rfl
theorem erdv (park : Bool) (n : BitVec 2) : Statement (.erdv park n) := rfl
theorem coll (park : Bool) (sa : BitVec 8) (n : BitVec 4) : Statement (.coll park sa n) := rfl
theorem cwait (park : Bool) (sd : BitVec 8) (n : BitVec 4) : Statement (.cwait park sd n) := rfl
theorem rand (m : Mods) (d : BitVec 9) (c : BitVec 8) (n : BitVec 2) (f32 : Bool) : Statement (.rand m d c n f32) := rfl
theorem sample (m : Mods) (d a b : BitVec 9) (c : BitVec 8) : Statement (.sample m d a b c) := rfl
theorem tokapp (m : Mods) (a : BitVec 9) (b : BSrc) : Statement (.tokapp m a b) := rfl
theorem tokappD (m : Mods) (a : BitVec 9) (b : BSrc) : Statement (.tokappD m a b) := rfl
theorem tokconf (m : Mods) (a : BitVec 9) (b : BSrc) : Statement (.tokconf m a b) := rfl
theorem tokget (m : Mods) (d : BitVec 9) (b : BSrc) (i : BitVec 3) : Statement (.tokget m d b i) := rfl
theorem sloew (m : Mods) (a : BitVec 9) (b : BSrc) (k : BitVec 9) : Statement (.sloew m a b k) := rfl
theorem sloer (m : Mods) (d : BitVec 9) (b : BSrc) (k : BitVec 9) : Statement (.sloer m d b k) := rfl
theorem sloeq (m : Mods) (d : BitVec 9) (b : BSrc) : Statement (.sloeq m d b) := rfl
theorem csrr (m : Mods) (r : BitVec 9) (csr : BitVec 12) : Statement (.csrr m r csr) := rfl
theorem csrw (m : Mods) (r : BitVec 9) (csr : BitVec 12) : Statement (.csrw m r csr) := rfl
theorem csrs (m : Mods) (v : CsrSrc) (csr : BitVec 12) : Statement (.csrs m v csr) := rfl
theorem csrc (m : Mods) (v : CsrSrc) (csr : BitVec 12) : Statement (.csrc m v csr) := rfl
theorem rdtick (m : Mods) (r : BitVec 9) : Statement (.rdtick m r) := rfl
theorem trapf (m : Mods) : Statement (.trapf m) := rfl
theorem trap (m : Mods) (imm : BitVec 16) : Statement (.trap m imm) := rfl
theorem sys (m : Mods) (n : BitVec 16) (r : BitVec 9) : Statement (.sys m n r) := rfl
theorem bkpt (m : Mods) (imm : BitVec 16) : Statement (.bkpt m imm) := rfl
theorem halt (m : Mods) : Statement (.halt m) := rfl
theorem iret (m : Mods) : Statement (.iret m) := rfl
theorem tlbinv (m : Mods) (r : BitVec 9) (mode : BitVec 2) (tenant : BitVec 6) : Statement (.tlbinv m r mode tenant) := rfl
theorem glaunch (m : Mods) (r : BitVec 9) : Statement (.glaunch m r) := rfl
theorem nop (park : Bool) : Statement (.nop park) := rfl
theorem strikeReport (at_ : Nat) : Statement (.strikeReport at_) := rfl
theorem poisonUpdate (g : Nat) (psn : Bool) : Statement (.poisonUpdate g psn) := rfl
theorem poisonClearNotice (g : Nat) : Statement (.poisonClearNotice g) := rfl
theorem hbmSectorAccess (k : Nat) (ecc : Ecc) : Statement (.hbmSectorAccess k ecc) := rfl
theorem slackWindow (ticks : Nat) : Statement (.slackWindow ticks) := rfl
theorem refreshOutsideSlack (bank : Nat) : Statement (.refreshOutsideSlack bank) := rfl
theorem scheduleFault (cause : Nat) : Statement (.scheduleFault cause) := rfl
theorem resyncBeacon (tick : Nat) : Statement (.resyncBeacon tick) := rfl
theorem windowLanding (d : Delivery) : Statement (.windowLanding d) := rfl
theorem ecopy (len : Nat) (src dst strides : DWord) : Statement (.ecopy len src dst strides) := rfl
theorem efill (h : BitVec 4) : Statement (.efill h) := rfl
theorem edrain (h : BitVec 4) : Statement (.edrain h) := rfl
theorem emma (word : DWord) : Statement (.emma word) := rfl
theorem ewait (kind : StreamWait) : Statement (.ewait kind) := rfl
theorem esig (sub : BitVec 3) (ph : BitVec 12) : Statement (.esig sub ph) := rfl
theorem eloop (count : BitVec 16) (offs : BitVec 24) : Statement (.eloop count offs) := rfl
theorem copySectorLanding (k : Nat) : Statement (.copySectorLanding k) := rfl
theorem poolEccError (kind : PoolKind) : Statement (.poolEccError kind) := rfl
theorem pairSelfTest (aFails : Bool) : Statement (.pairSelfTest aFails) := rfl
theorem collectiveSend (k : Nat) : Statement (.collectiveSend k) := rfl
theorem collectiveReceive (src k : Nat) (data : List Byte) : Statement (.collectiveReceive src k data) := rfl
theorem flitReceive (f : Flit) : Statement (.flitReceive f) := rfl
theorem acknowledgementWord (word : DWord) : Statement (.acknowledgementWord word) := rfl
theorem notifyWrite (v : DWord) : Statement (.notifyWrite v) := rfl
theorem scheduleBeacon (tick : Nat) : Statement (.scheduleBeacon tick) := rfl
theorem ptpTickLoad (tick : Nat) : Statement (.ptpTickLoad tick) := rfl
theorem freeze (tick : Nat) : Statement (.freeze tick) := rfl
theorem regulatorAlarm (cause : Nat) : Statement (.regulatorAlarm cause) := rfl
theorem ptpMessage (offset : Int) : Statement (.ptpMessage offset) := rfl
theorem mbcmdWriteWhileBusy (v : DWord) : Statement (.mbcmdWriteWhileBusy v) := rfl
theorem issueTurn : Statement (.issueTurn) := rfl
theorem sloeOperationComplete : Statement (.sloeOperationComplete) := rfl
theorem sequenceTrapDelivery : Statement (.sequenceTrapDelivery) := rfl
theorem regionCommit : Statement (.regionCommit) := rfl
theorem heldEffectPresentation : Statement (.heldEffectPresentation) := rfl
theorem regionReentry : Statement (.regionReentry) := rfl
theorem atomicRetry : Statement (.atomicRetry) := rfl
theorem loadReply : Statement (.loadReply) := rfl
theorem atomicReply : Statement (.atomicReply) := rfl
theorem writeAck : Statement (.writeAck) := rfl
theorem pageTableReadReturn : Statement (.pageTableReadReturn) := rfl
theorem tlbInvalidationComplete : Statement (.tlbInvalidationComplete) := rfl
theorem errorCountDecay : Statement (.errorCountDecay) := rfl
theorem superstepReexecution : Statement (.superstepReexecution) := rfl
theorem drainSector : Statement (.drainSector) := rfl
theorem drainComplete : Statement (.drainComplete) := rfl
theorem followOnIssue : Statement (.followOnIssue) := rfl
theorem matrixCommandStart : Statement (.matrixCommandStart) := rfl
theorem operandRelease : Statement (.operandRelease) := rfl
theorem accRetire : Statement (.accRetire) := rfl
theorem versionCommit : Statement (.versionCommit) := rfl
theorem epilogueRow : Statement (.epilogueRow) := rfl
theorem epilogueSend : Statement (.epilogueSend) := rfl
theorem addOnStoreApply : Statement (.addOnStoreApply) := rfl
theorem gatherStart : Statement (.gatherStart) := rfl
theorem gatherComplete : Statement (.gatherComplete) := rfl
theorem streamCommandStart : Statement (.streamCommandStart) := rfl
theorem eend : Statement (.eend) := rfl
theorem streamWaitEnd : Statement (.streamWaitEnd) := rfl
theorem phaseComplete : Statement (.phaseComplete) := rfl
theorem barrierComplete : Statement (.barrierComplete) := rfl
theorem superstepBoundary : Statement (.superstepBoundary) := rfl
theorem dqWordPoppable : Statement (.dqWordPoppable) := rfl
theorem collectiveStart : Statement (.collectiveStart) := rfl
theorem collectiveEnd : Statement (.collectiveEnd) := rfl
theorem flitSend : Statement (.flitSend) := rfl
theorem accessSlotSend : Statement (.accessSlotSend) := rfl
theorem switchForward : Statement (.switchForward) := rfl
theorem orchardAccessApply : Statement (.orchardAccessApply) := rfl
theorem mirrorUpdate : Statement (.mirrorUpdate) := rfl
theorem switchFailure : Statement (.switchFailure) := rfl
theorem lostReply : Statement (.lostReply) := rfl
theorem oallocComplete : Statement (.oallocComplete) := rfl
theorem ofreeComplete : Statement (.ofreeComplete) := rfl
theorem trapDelivery : Statement (.trapDelivery) := rfl
theorem firmwareFaultDelivery : Statement (.firmwareFaultDelivery) := rfl
theorem preemption : Statement (.preemption) := rfl
theorem automaticRestore : Statement (.automaticRestore) := rfl
theorem packetHeaderRead : Statement (.packetHeaderRead) := rfl
theorem waitPacketPoll : Statement (.waitPacketPoll) := rfl
theorem launchVerdict : Statement (.launchVerdict) := rfl
theorem gridStart : Statement (.gridStart) := rfl
theorem packetRetire : Statement (.packetRetire) := rfl
theorem queueSwitchOut : Statement (.queueSwitchOut) := rfl
theorem queueSwitchIn : Statement (.queueSwitchIn) := rfl
theorem frameStart : Statement (.frameStart) := rfl
theorem domnew : Statement (.domnew) := rfl
theorem domdel : Statement (.domdel) := rfl
theorem domset : Statement (.domset) := rfl
theorem qnew : Statement (.qnew) := rfl
theorem qdel : Statement (.qdel) := rfl
theorem schload : Statement (.schload) := rfl
theorem phset : Statement (.phset) := rfl
theorem gpreempt : Statement (.gpreempt) := rfl
theorem gresume : Statement (.gresume) := rfl
theorem gkill : Statement (.gkill) := rfl
theorem sloenew : Statement (.sloenew) := rfl
theorem sloedel : Statement (.sloedel) := rfl
theorem kvbind : Statement (.kvbind) := rfl
theorem ptmap : Statement (.ptmap) := rfl
theorem ptunmap : Statement (.ptunmap) := rfl
theorem deferredEntryResolve : Statement (.deferredEntryResolve) := rfl
theorem unknownCommand : Statement (.unknownCommand) := rfl
theorem dbgatt : Statement (.dbgatt) := rfl
theorem dbgdet : Statement (.dbgdet) := rfl
theorem haltreq : Statement (.haltreq) := rfl
theorem resume : Statement (.resume) := rfl
theorem staterd : Statement (.staterd) := rfl
theorem statewr : Statement (.statewr) := rfl
theorem wpset : Statement (.wpset) := rfl
theorem predload : Statement (.predload) := rfl
theorem ctrset : Statement (.ctrset) := rfl
theorem trring : Statement (.trring) := rfl
theorem replay : Statement (.replay) := rfl
theorem exitrd : Statement (.exitrd) := rfl
theorem rlogrd : Statement (.rlogrd) := rfl
theorem counterLatch : Statement (.counterLatch) := rfl
theorem currantVerdict : Statement (.currantVerdict) := rfl
theorem freezeResume : Statement (.freezeResume) := rfl
theorem attest : Statement (.attest) := rfl
theorem extload : Statement (.extload) := rfl
theorem cfgrd : Statement (.cfgrd) := rfl
theorem cfgwr : Statement (.cfgwr) := rfl
theorem healthrd : Statement (.healthrd) := rfl
theorem mbstatRead : Statement (.mbstatRead) := rfl
theorem deviceReset : Statement (.deviceReset) := rfl
theorem functionLevelReset : Statement (.functionLevelReset) := rfl
theorem thermalTrip : Statement (.thermalTrip) := rfl
theorem preemptionRequestWithdrawn : Statement (.preemptionRequestWithdrawn) := rfl
theorem lastFrameEnd : Statement (.lastFrameEnd) := rfl
theorem collectivePresentationDeadline : Statement (.collectivePresentationDeadline) := rfl
theorem mirrorCopyBackComplete : Statement (.mirrorCopyBackComplete) := rfl
theorem restoredGridResume : Statement (.restoredGridResume) := rfl

end Sys2Proof.Laws.Encoded
end

