-- ==== Sys2Proof/Laws/State.lean ====
section
/-!
SUPPORT. What each update of the machine leaves of each field of State, and what it makes of the field that it changes.
-/
namespace Sys2Proof.Machine

@[simp] theorem State.setByte_tick (s : State) (k : Nat) (b : Byte) : (s.setByte k b).tick = s.tick := rfl
@[simp] theorem State.setByte_cur (s : State) (k : Nat) (b : Byte) : (s.setByte k b).cur = s.cur := rfl
@[simp] theorem State.setByte_agenda (s : State) (k : Nat) (b : Byte) : (s.setByte k b).agenda = s.agenda := rfl
@[simp] theorem State.setByte_inbox (s : State) (k : Nat) (b : Byte) : (s.setByte k b).inbox = s.inbox := rfl
@[simp] theorem State.setByte_stamps (s : State) (k : Nat) (b : Byte) : (s.setByte k b).stamps = s.stamps := rfl
@[simp] theorem State.setByte_cores (s : State) (k : Nat) (b : Byte) : (s.setByte k b).cores = s.cores := rfl
@[simp] theorem State.setByte_chip (s : State) (k : Nat) (b : Byte) : (s.setByte k b).chip = s.chip := rfl
@[simp] theorem State.setByte_net (s : State) (k : Nat) (b : Byte) : (s.setByte k b).net = s.net := rfl
@[simp] theorem State.setByte_fw (s : State) (k : Nat) (b : Byte) : (s.setByte k b).fw = s.fw := rfl
@[simp] theorem State.setByte_dbg (s : State) (k : Nat) (b : Byte) : (s.setByte k b).dbg = s.dbg := rfl
@[simp] theorem State.setByte_freeCnt (s : State) (k : Nat) (b : Byte) : (s.setByte k b).freeCnt = s.freeCnt := rfl
@[simp] theorem State.setByte_powered (s : State) (k : Nat) (b : Byte) : (s.setByte k b).powered = s.powered := rfl
@[simp] theorem State.setByte_frozen (s : State) (k : Nat) (b : Byte) : (s.setByte k b).frozen = s.frozen := rfl

@[simp] theorem State.sched_tick (s : State) (t : Nat) (o : Iss) (i : Instr) : (s.sched t o i).tick = s.tick := rfl
@[simp] theorem State.sched_cur (s : State) (t : Nat) (o : Iss) (i : Instr) : (s.sched t o i).cur = s.cur := rfl
@[simp] theorem State.sched_inbox (s : State) (t : Nat) (o : Iss) (i : Instr) : (s.sched t o i).inbox = s.inbox := rfl
@[simp] theorem State.sched_mem (s : State) (t : Nat) (o : Iss) (i : Instr) : (s.sched t o i).mem = s.mem := rfl
@[simp] theorem State.sched_stamps (s : State) (t : Nat) (o : Iss) (i : Instr) : (s.sched t o i).stamps = s.stamps := rfl
@[simp] theorem State.sched_cores (s : State) (t : Nat) (o : Iss) (i : Instr) : (s.sched t o i).cores = s.cores := rfl
@[simp] theorem State.sched_chip (s : State) (t : Nat) (o : Iss) (i : Instr) : (s.sched t o i).chip = s.chip := rfl
@[simp] theorem State.sched_net (s : State) (t : Nat) (o : Iss) (i : Instr) : (s.sched t o i).net = s.net := rfl
@[simp] theorem State.sched_fw (s : State) (t : Nat) (o : Iss) (i : Instr) : (s.sched t o i).fw = s.fw := rfl
@[simp] theorem State.sched_dbg (s : State) (t : Nat) (o : Iss) (i : Instr) : (s.sched t o i).dbg = s.dbg := rfl
@[simp] theorem State.sched_freeCnt (s : State) (t : Nat) (o : Iss) (i : Instr) : (s.sched t o i).freeCnt = s.freeCnt := rfl
@[simp] theorem State.sched_powered (s : State) (t : Nat) (o : Iss) (i : Instr) : (s.sched t o i).powered = s.powered := rfl
@[simp] theorem State.sched_frozen (s : State) (t : Nat) (o : Iss) (i : Instr) : (s.sched t o i).frozen = s.frozen := rfl

@[simp] theorem State.free_tick (s : State) (n : Nat) : ((s.free n).2).tick = s.tick := rfl
@[simp] theorem State.free_cur (s : State) (n : Nat) : ((s.free n).2).cur = s.cur := rfl
@[simp] theorem State.free_agenda (s : State) (n : Nat) : ((s.free n).2).agenda = s.agenda := rfl
@[simp] theorem State.free_inbox (s : State) (n : Nat) : ((s.free n).2).inbox = s.inbox := rfl
@[simp] theorem State.free_mem (s : State) (n : Nat) : ((s.free n).2).mem = s.mem := rfl
@[simp] theorem State.free_stamps (s : State) (n : Nat) : ((s.free n).2).stamps = s.stamps := rfl
@[simp] theorem State.free_cores (s : State) (n : Nat) : ((s.free n).2).cores = s.cores := rfl
@[simp] theorem State.free_chip (s : State) (n : Nat) : ((s.free n).2).chip = s.chip := rfl
@[simp] theorem State.free_net (s : State) (n : Nat) : ((s.free n).2).net = s.net := rfl
@[simp] theorem State.free_fw (s : State) (n : Nat) : ((s.free n).2).fw = s.fw := rfl
@[simp] theorem State.free_dbg (s : State) (n : Nat) : ((s.free n).2).dbg = s.dbg := rfl
@[simp] theorem State.free_powered (s : State) (n : Nat) : ((s.free n).2).powered = s.powered := rfl
@[simp] theorem State.free_frozen (s : State) (n : Nat) : ((s.free n).2).frozen = s.frozen := rfl

@[simp] theorem State.freeD_tick (s : State) : (s.freeD.2).tick = s.tick := rfl
@[simp] theorem State.freeD_cur (s : State) : (s.freeD.2).cur = s.cur := rfl
@[simp] theorem State.freeD_agenda (s : State) : (s.freeD.2).agenda = s.agenda := rfl
@[simp] theorem State.freeD_inbox (s : State) : (s.freeD.2).inbox = s.inbox := rfl
@[simp] theorem State.freeD_mem (s : State) : (s.freeD.2).mem = s.mem := rfl
@[simp] theorem State.freeD_stamps (s : State) : (s.freeD.2).stamps = s.stamps := rfl
@[simp] theorem State.freeD_cores (s : State) : (s.freeD.2).cores = s.cores := rfl
@[simp] theorem State.freeD_chip (s : State) : (s.freeD.2).chip = s.chip := rfl
@[simp] theorem State.freeD_net (s : State) : (s.freeD.2).net = s.net := rfl
@[simp] theorem State.freeD_fw (s : State) : (s.freeD.2).fw = s.fw := rfl
@[simp] theorem State.freeD_dbg (s : State) : (s.freeD.2).dbg = s.dbg := rfl
@[simp] theorem State.freeD_powered (s : State) : (s.freeD.2).powered = s.powered := rfl
@[simp] theorem State.freeD_frozen (s : State) : (s.freeD.2).frozen = s.frozen := rfl

@[simp] theorem State.fresh_tick (s : State) : (s.fresh.2).tick = s.tick := rfl
@[simp] theorem State.fresh_cur (s : State) : (s.fresh.2).cur = s.cur := rfl
@[simp] theorem State.fresh_agenda (s : State) : (s.fresh.2).agenda = s.agenda := rfl
@[simp] theorem State.fresh_inbox (s : State) : (s.fresh.2).inbox = s.inbox := rfl
@[simp] theorem State.fresh_mem (s : State) : (s.fresh.2).mem = s.mem := rfl
@[simp] theorem State.fresh_stamps (s : State) : (s.fresh.2).stamps = s.stamps := rfl
@[simp] theorem State.fresh_cores (s : State) : (s.fresh.2).cores = s.cores := rfl
@[simp] theorem State.fresh_net (s : State) : (s.fresh.2).net = s.net := rfl
@[simp] theorem State.fresh_fw (s : State) : (s.fresh.2).fw = s.fw := rfl
@[simp] theorem State.fresh_dbg (s : State) : (s.fresh.2).dbg = s.dbg := rfl
@[simp] theorem State.fresh_freeCnt (s : State) : (s.fresh.2).freeCnt = s.freeCnt := rfl
@[simp] theorem State.fresh_powered (s : State) : (s.fresh.2).powered = s.powered := rfl
@[simp] theorem State.fresh_frozen (s : State) : (s.fresh.2).frozen = s.frozen := rfl

@[simp] theorem State.setCore_tick (s : State) (c : Core) : (s.setCore c).tick = s.tick := rfl
@[simp] theorem State.setCore_cur (s : State) (c : Core) : (s.setCore c).cur = s.cur := rfl
@[simp] theorem State.setCore_agenda (s : State) (c : Core) : (s.setCore c).agenda = s.agenda := rfl
@[simp] theorem State.setCore_inbox (s : State) (c : Core) : (s.setCore c).inbox = s.inbox := rfl
@[simp] theorem State.setCore_mem (s : State) (c : Core) : (s.setCore c).mem = s.mem := rfl
@[simp] theorem State.setCore_stamps (s : State) (c : Core) : (s.setCore c).stamps = s.stamps := rfl
@[simp] theorem State.setCore_chip (s : State) (c : Core) : (s.setCore c).chip = s.chip := rfl
@[simp] theorem State.setCore_net (s : State) (c : Core) : (s.setCore c).net = s.net := rfl
@[simp] theorem State.setCore_fw (s : State) (c : Core) : (s.setCore c).fw = s.fw := rfl
@[simp] theorem State.setCore_dbg (s : State) (c : Core) : (s.setCore c).dbg = s.dbg := rfl
@[simp] theorem State.setCore_freeCnt (s : State) (c : Core) : (s.setCore c).freeCnt = s.freeCnt := rfl
@[simp] theorem State.setCore_powered (s : State) (c : Core) : (s.setCore c).powered = s.powered := rfl
@[simp] theorem State.setCore_frozen (s : State) (c : Core) : (s.setCore c).frozen = s.frozen := rfl

@[simp] theorem State.updCore_tick (s : State) (cl co : Nat) (f : Core → Core) : (s.updCore cl co f).tick = s.tick := rfl
@[simp] theorem State.updCore_cur (s : State) (cl co : Nat) (f : Core → Core) : (s.updCore cl co f).cur = s.cur := rfl
@[simp] theorem State.updCore_agenda (s : State) (cl co : Nat) (f : Core → Core) : (s.updCore cl co f).agenda = s.agenda := rfl
@[simp] theorem State.updCore_inbox (s : State) (cl co : Nat) (f : Core → Core) : (s.updCore cl co f).inbox = s.inbox := rfl
@[simp] theorem State.updCore_mem (s : State) (cl co : Nat) (f : Core → Core) : (s.updCore cl co f).mem = s.mem := rfl
@[simp] theorem State.updCore_stamps (s : State) (cl co : Nat) (f : Core → Core) : (s.updCore cl co f).stamps = s.stamps := rfl
@[simp] theorem State.updCore_chip (s : State) (cl co : Nat) (f : Core → Core) : (s.updCore cl co f).chip = s.chip := rfl
@[simp] theorem State.updCore_net (s : State) (cl co : Nat) (f : Core → Core) : (s.updCore cl co f).net = s.net := rfl
@[simp] theorem State.updCore_fw (s : State) (cl co : Nat) (f : Core → Core) : (s.updCore cl co f).fw = s.fw := rfl
@[simp] theorem State.updCore_dbg (s : State) (cl co : Nat) (f : Core → Core) : (s.updCore cl co f).dbg = s.dbg := rfl
@[simp] theorem State.updCore_freeCnt (s : State) (cl co : Nat) (f : Core → Core) : (s.updCore cl co f).freeCnt = s.freeCnt := rfl
@[simp] theorem State.updCore_powered (s : State) (cl co : Nat) (f : Core → Core) : (s.updCore cl co f).powered = s.powered := rfl
@[simp] theorem State.updCore_frozen (s : State) (cl co : Nat) (f : Core → Core) : (s.updCore cl co f).frozen = s.frozen := rfl

@[simp] theorem State.updIss_tick (s : State) (w : Iss) (f : Issuer → Issuer) : (s.updIss w f).tick = s.tick := rfl
@[simp] theorem State.updIss_cur (s : State) (w : Iss) (f : Issuer → Issuer) : (s.updIss w f).cur = s.cur := rfl
@[simp] theorem State.updIss_agenda (s : State) (w : Iss) (f : Issuer → Issuer) : (s.updIss w f).agenda = s.agenda := rfl
@[simp] theorem State.updIss_inbox (s : State) (w : Iss) (f : Issuer → Issuer) : (s.updIss w f).inbox = s.inbox := rfl
@[simp] theorem State.updIss_mem (s : State) (w : Iss) (f : Issuer → Issuer) : (s.updIss w f).mem = s.mem := rfl
@[simp] theorem State.updIss_stamps (s : State) (w : Iss) (f : Issuer → Issuer) : (s.updIss w f).stamps = s.stamps := rfl
@[simp] theorem State.updIss_chip (s : State) (w : Iss) (f : Issuer → Issuer) : (s.updIss w f).chip = s.chip := rfl
@[simp] theorem State.updIss_net (s : State) (w : Iss) (f : Issuer → Issuer) : (s.updIss w f).net = s.net := rfl
@[simp] theorem State.updIss_fw (s : State) (w : Iss) (f : Issuer → Issuer) : (s.updIss w f).fw = s.fw := rfl
@[simp] theorem State.updIss_dbg (s : State) (w : Iss) (f : Issuer → Issuer) : (s.updIss w f).dbg = s.dbg := rfl
@[simp] theorem State.updIss_freeCnt (s : State) (w : Iss) (f : Issuer → Issuer) : (s.updIss w f).freeCnt = s.freeCnt := rfl
@[simp] theorem State.updIss_powered (s : State) (w : Iss) (f : Issuer → Issuer) : (s.updIss w f).powered = s.powered := rfl
@[simp] theorem State.updIss_frozen (s : State) (w : Iss) (f : Issuer → Issuer) : (s.updIss w f).frozen = s.frozen := rfl

@[simp] theorem State.updStream_tick (s : State) (w : Iss) (f : Stream → Stream) : (s.updStream w f).tick = s.tick := rfl
@[simp] theorem State.updStream_cur (s : State) (w : Iss) (f : Stream → Stream) : (s.updStream w f).cur = s.cur := rfl
@[simp] theorem State.updStream_agenda (s : State) (w : Iss) (f : Stream → Stream) : (s.updStream w f).agenda = s.agenda := rfl
@[simp] theorem State.updStream_inbox (s : State) (w : Iss) (f : Stream → Stream) : (s.updStream w f).inbox = s.inbox := rfl
@[simp] theorem State.updStream_mem (s : State) (w : Iss) (f : Stream → Stream) : (s.updStream w f).mem = s.mem := rfl
@[simp] theorem State.updStream_stamps (s : State) (w : Iss) (f : Stream → Stream) : (s.updStream w f).stamps = s.stamps := rfl
@[simp] theorem State.updStream_chip (s : State) (w : Iss) (f : Stream → Stream) : (s.updStream w f).chip = s.chip := rfl
@[simp] theorem State.updStream_net (s : State) (w : Iss) (f : Stream → Stream) : (s.updStream w f).net = s.net := rfl
@[simp] theorem State.updStream_fw (s : State) (w : Iss) (f : Stream → Stream) : (s.updStream w f).fw = s.fw := rfl
@[simp] theorem State.updStream_dbg (s : State) (w : Iss) (f : Stream → Stream) : (s.updStream w f).dbg = s.dbg := rfl
@[simp] theorem State.updStream_freeCnt (s : State) (w : Iss) (f : Stream → Stream) : (s.updStream w f).freeCnt = s.freeCnt := rfl
@[simp] theorem State.updStream_powered (s : State) (w : Iss) (f : Stream → Stream) : (s.updStream w f).powered = s.powered := rfl
@[simp] theorem State.updStream_frozen (s : State) (w : Iss) (f : Stream → Stream) : (s.updStream w f).frozen = s.frozen := rfl

@[simp] theorem State.updChip_tick (s : State) (f : Chip → Chip) : (s.updChip f).tick = s.tick := rfl
@[simp] theorem State.updChip_cur (s : State) (f : Chip → Chip) : (s.updChip f).cur = s.cur := rfl
@[simp] theorem State.updChip_agenda (s : State) (f : Chip → Chip) : (s.updChip f).agenda = s.agenda := rfl
@[simp] theorem State.updChip_inbox (s : State) (f : Chip → Chip) : (s.updChip f).inbox = s.inbox := rfl
@[simp] theorem State.updChip_mem (s : State) (f : Chip → Chip) : (s.updChip f).mem = s.mem := rfl
@[simp] theorem State.updChip_stamps (s : State) (f : Chip → Chip) : (s.updChip f).stamps = s.stamps := rfl
@[simp] theorem State.updChip_cores (s : State) (f : Chip → Chip) : (s.updChip f).cores = s.cores := rfl
@[simp] theorem State.updChip_net (s : State) (f : Chip → Chip) : (s.updChip f).net = s.net := rfl
@[simp] theorem State.updChip_fw (s : State) (f : Chip → Chip) : (s.updChip f).fw = s.fw := rfl
@[simp] theorem State.updChip_dbg (s : State) (f : Chip → Chip) : (s.updChip f).dbg = s.dbg := rfl
@[simp] theorem State.updChip_freeCnt (s : State) (f : Chip → Chip) : (s.updChip f).freeCnt = s.freeCnt := rfl
@[simp] theorem State.updChip_powered (s : State) (f : Chip → Chip) : (s.updChip f).powered = s.powered := rfl
@[simp] theorem State.updChip_frozen (s : State) (f : Chip → Chip) : (s.updChip f).frozen = s.frozen := rfl

@[simp] theorem State.updCluster_tick (s : State) (cl : Nat) (f : Cluster → Cluster) : (s.updCluster cl f).tick = s.tick := rfl
@[simp] theorem State.updCluster_cur (s : State) (cl : Nat) (f : Cluster → Cluster) : (s.updCluster cl f).cur = s.cur := rfl
@[simp] theorem State.updCluster_agenda (s : State) (cl : Nat) (f : Cluster → Cluster) : (s.updCluster cl f).agenda = s.agenda := rfl
@[simp] theorem State.updCluster_inbox (s : State) (cl : Nat) (f : Cluster → Cluster) : (s.updCluster cl f).inbox = s.inbox := rfl
@[simp] theorem State.updCluster_mem (s : State) (cl : Nat) (f : Cluster → Cluster) : (s.updCluster cl f).mem = s.mem := rfl
@[simp] theorem State.updCluster_stamps (s : State) (cl : Nat) (f : Cluster → Cluster) : (s.updCluster cl f).stamps = s.stamps := rfl
@[simp] theorem State.updCluster_cores (s : State) (cl : Nat) (f : Cluster → Cluster) : (s.updCluster cl f).cores = s.cores := rfl
@[simp] theorem State.updCluster_net (s : State) (cl : Nat) (f : Cluster → Cluster) : (s.updCluster cl f).net = s.net := rfl
@[simp] theorem State.updCluster_fw (s : State) (cl : Nat) (f : Cluster → Cluster) : (s.updCluster cl f).fw = s.fw := rfl
@[simp] theorem State.updCluster_dbg (s : State) (cl : Nat) (f : Cluster → Cluster) : (s.updCluster cl f).dbg = s.dbg := rfl
@[simp] theorem State.updCluster_freeCnt (s : State) (cl : Nat) (f : Cluster → Cluster) : (s.updCluster cl f).freeCnt = s.freeCnt := rfl
@[simp] theorem State.updCluster_powered (s : State) (cl : Nat) (f : Cluster → Cluster) : (s.updCluster cl f).powered = s.powered := rfl
@[simp] theorem State.updCluster_frozen (s : State) (cl : Nat) (f : Cluster → Cluster) : (s.updCluster cl f).frozen = s.frozen := rfl

@[simp] theorem State.updReq_tick (s : State) (id : Nat) (f : Req → Req) : (s.updReq id f).tick = s.tick := rfl
@[simp] theorem State.updReq_cur (s : State) (id : Nat) (f : Req → Req) : (s.updReq id f).cur = s.cur := rfl
@[simp] theorem State.updReq_agenda (s : State) (id : Nat) (f : Req → Req) : (s.updReq id f).agenda = s.agenda := rfl
@[simp] theorem State.updReq_inbox (s : State) (id : Nat) (f : Req → Req) : (s.updReq id f).inbox = s.inbox := rfl
@[simp] theorem State.updReq_mem (s : State) (id : Nat) (f : Req → Req) : (s.updReq id f).mem = s.mem := rfl
@[simp] theorem State.updReq_stamps (s : State) (id : Nat) (f : Req → Req) : (s.updReq id f).stamps = s.stamps := rfl
@[simp] theorem State.updReq_cores (s : State) (id : Nat) (f : Req → Req) : (s.updReq id f).cores = s.cores := rfl
@[simp] theorem State.updReq_net (s : State) (id : Nat) (f : Req → Req) : (s.updReq id f).net = s.net := rfl
@[simp] theorem State.updReq_fw (s : State) (id : Nat) (f : Req → Req) : (s.updReq id f).fw = s.fw := rfl
@[simp] theorem State.updReq_dbg (s : State) (id : Nat) (f : Req → Req) : (s.updReq id f).dbg = s.dbg := rfl
@[simp] theorem State.updReq_freeCnt (s : State) (id : Nat) (f : Req → Req) : (s.updReq id f).freeCnt = s.freeCnt := rfl
@[simp] theorem State.updReq_powered (s : State) (id : Nat) (f : Req → Req) : (s.updReq id f).powered = s.powered := rfl
@[simp] theorem State.updReq_frozen (s : State) (id : Nat) (f : Req → Req) : (s.updReq id f).frozen = s.frozen := rfl

@[simp] theorem State.delReq_tick (s : State) (id : Nat) : (s.delReq id).tick = s.tick := rfl
@[simp] theorem State.delReq_cur (s : State) (id : Nat) : (s.delReq id).cur = s.cur := rfl
@[simp] theorem State.delReq_agenda (s : State) (id : Nat) : (s.delReq id).agenda = s.agenda := rfl
@[simp] theorem State.delReq_inbox (s : State) (id : Nat) : (s.delReq id).inbox = s.inbox := rfl
@[simp] theorem State.delReq_mem (s : State) (id : Nat) : (s.delReq id).mem = s.mem := rfl
@[simp] theorem State.delReq_stamps (s : State) (id : Nat) : (s.delReq id).stamps = s.stamps := rfl
@[simp] theorem State.delReq_cores (s : State) (id : Nat) : (s.delReq id).cores = s.cores := rfl
@[simp] theorem State.delReq_net (s : State) (id : Nat) : (s.delReq id).net = s.net := rfl
@[simp] theorem State.delReq_fw (s : State) (id : Nat) : (s.delReq id).fw = s.fw := rfl
@[simp] theorem State.delReq_dbg (s : State) (id : Nat) : (s.delReq id).dbg = s.dbg := rfl
@[simp] theorem State.delReq_freeCnt (s : State) (id : Nat) : (s.delReq id).freeCnt = s.freeCnt := rfl
@[simp] theorem State.delReq_powered (s : State) (id : Nat) : (s.delReq id).powered = s.powered := rfl
@[simp] theorem State.delReq_frozen (s : State) (id : Nat) : (s.delReq id).frozen = s.frozen := rfl

/-- The controller of a stack lies in the chip, that of a switch's DRAM in the fabric: no other field changes. -/
theorem State.updStack_keeps (s : State) (n : Nat) (f : Stack → Stack) :
    ∃ h m, s.updStack n f = { s with chip := h, net := m } := by
  unfold State.updStack; split
  · exact ⟨_, s.net, rfl⟩
  · exact ⟨s.chip, _, rfl⟩
@[simp] theorem State.updStack_tick (s : State) (n : Nat) (f : Stack → Stack) : (s.updStack n f).tick = s.tick := by
  obtain ⟨h, m, e⟩ := s.updStack_keeps n f; rw [e]
@[simp] theorem State.updStack_cur (s : State) (n : Nat) (f : Stack → Stack) : (s.updStack n f).cur = s.cur := by
  obtain ⟨h, m, e⟩ := s.updStack_keeps n f; rw [e]
@[simp] theorem State.updStack_agenda (s : State) (n : Nat) (f : Stack → Stack) : (s.updStack n f).agenda = s.agenda := by
  obtain ⟨h, m, e⟩ := s.updStack_keeps n f; rw [e]
@[simp] theorem State.updStack_inbox (s : State) (n : Nat) (f : Stack → Stack) : (s.updStack n f).inbox = s.inbox := by
  obtain ⟨h, m, e⟩ := s.updStack_keeps n f; rw [e]
@[simp] theorem State.updStack_mem (s : State) (n : Nat) (f : Stack → Stack) : (s.updStack n f).mem = s.mem := by
  obtain ⟨h, m, e⟩ := s.updStack_keeps n f; rw [e]
@[simp] theorem State.updStack_stamps (s : State) (n : Nat) (f : Stack → Stack) : (s.updStack n f).stamps = s.stamps := by
  obtain ⟨h, m, e⟩ := s.updStack_keeps n f; rw [e]
@[simp] theorem State.updStack_cores (s : State) (n : Nat) (f : Stack → Stack) : (s.updStack n f).cores = s.cores := by
  obtain ⟨h, m, e⟩ := s.updStack_keeps n f; rw [e]
@[simp] theorem State.updStack_fw (s : State) (n : Nat) (f : Stack → Stack) : (s.updStack n f).fw = s.fw := by
  obtain ⟨h, m, e⟩ := s.updStack_keeps n f; rw [e]
@[simp] theorem State.updStack_dbg (s : State) (n : Nat) (f : Stack → Stack) : (s.updStack n f).dbg = s.dbg := by
  obtain ⟨h, m, e⟩ := s.updStack_keeps n f; rw [e]
@[simp] theorem State.updStack_freeCnt (s : State) (n : Nat) (f : Stack → Stack) : (s.updStack n f).freeCnt = s.freeCnt := by
  obtain ⟨h, m, e⟩ := s.updStack_keeps n f; rw [e]
@[simp] theorem State.updStack_powered (s : State) (n : Nat) (f : Stack → Stack) : (s.updStack n f).powered = s.powered := by
  obtain ⟨h, m, e⟩ := s.updStack_keeps n f; rw [e]
@[simp] theorem State.updStack_frozen (s : State) (n : Nat) (f : Stack → Stack) : (s.updStack n f).frozen = s.frozen := by
  obtain ⟨h, m, e⟩ := s.updStack_keeps n f; rw [e]

@[simp] theorem State.setPhaser_tick (s : State) (n : Nat) (p : Phaser) : (s.setPhaser n p).tick = s.tick := rfl
@[simp] theorem State.setPhaser_cur (s : State) (n : Nat) (p : Phaser) : (s.setPhaser n p).cur = s.cur := rfl
@[simp] theorem State.setPhaser_agenda (s : State) (n : Nat) (p : Phaser) : (s.setPhaser n p).agenda = s.agenda := rfl
@[simp] theorem State.setPhaser_inbox (s : State) (n : Nat) (p : Phaser) : (s.setPhaser n p).inbox = s.inbox := rfl
@[simp] theorem State.setPhaser_mem (s : State) (n : Nat) (p : Phaser) : (s.setPhaser n p).mem = s.mem := rfl
@[simp] theorem State.setPhaser_stamps (s : State) (n : Nat) (p : Phaser) : (s.setPhaser n p).stamps = s.stamps := rfl
@[simp] theorem State.setPhaser_cores (s : State) (n : Nat) (p : Phaser) : (s.setPhaser n p).cores = s.cores := rfl
@[simp] theorem State.setPhaser_net (s : State) (n : Nat) (p : Phaser) : (s.setPhaser n p).net = s.net := rfl
@[simp] theorem State.setPhaser_fw (s : State) (n : Nat) (p : Phaser) : (s.setPhaser n p).fw = s.fw := rfl
@[simp] theorem State.setPhaser_dbg (s : State) (n : Nat) (p : Phaser) : (s.setPhaser n p).dbg = s.dbg := rfl
@[simp] theorem State.setPhaser_freeCnt (s : State) (n : Nat) (p : Phaser) : (s.setPhaser n p).freeCnt = s.freeCnt := rfl
@[simp] theorem State.setPhaser_powered (s : State) (n : Nat) (p : Phaser) : (s.setPhaser n p).powered = s.powered := rfl
@[simp] theorem State.setPhaser_frozen (s : State) (n : Nat) (p : Phaser) : (s.setPhaser n p).frozen = s.frozen := rfl

@[simp] theorem State.setSlot_tick (s : State) (n : Nat) (x : Slot) : (s.setSlot n x).tick = s.tick := rfl
@[simp] theorem State.setSlot_cur (s : State) (n : Nat) (x : Slot) : (s.setSlot n x).cur = s.cur := rfl
@[simp] theorem State.setSlot_agenda (s : State) (n : Nat) (x : Slot) : (s.setSlot n x).agenda = s.agenda := rfl
@[simp] theorem State.setSlot_inbox (s : State) (n : Nat) (x : Slot) : (s.setSlot n x).inbox = s.inbox := rfl
@[simp] theorem State.setSlot_mem (s : State) (n : Nat) (x : Slot) : (s.setSlot n x).mem = s.mem := rfl
@[simp] theorem State.setSlot_stamps (s : State) (n : Nat) (x : Slot) : (s.setSlot n x).stamps = s.stamps := rfl
@[simp] theorem State.setSlot_cores (s : State) (n : Nat) (x : Slot) : (s.setSlot n x).cores = s.cores := rfl
@[simp] theorem State.setSlot_net (s : State) (n : Nat) (x : Slot) : (s.setSlot n x).net = s.net := rfl
@[simp] theorem State.setSlot_fw (s : State) (n : Nat) (x : Slot) : (s.setSlot n x).fw = s.fw := rfl
@[simp] theorem State.setSlot_dbg (s : State) (n : Nat) (x : Slot) : (s.setSlot n x).dbg = s.dbg := rfl
@[simp] theorem State.setSlot_freeCnt (s : State) (n : Nat) (x : Slot) : (s.setSlot n x).freeCnt = s.freeCnt := rfl
@[simp] theorem State.setSlot_powered (s : State) (n : Nat) (x : Slot) : (s.setSlot n x).powered = s.powered := rfl
@[simp] theorem State.setSlot_frozen (s : State) (n : Nat) (x : Slot) : (s.setSlot n x).frozen = s.frozen := rfl

@[simp] theorem State.updColl_tick (s : State) (n : Nat) (f : Coll → Coll) : (s.updColl n f).tick = s.tick := rfl
@[simp] theorem State.updColl_cur (s : State) (n : Nat) (f : Coll → Coll) : (s.updColl n f).cur = s.cur := rfl
@[simp] theorem State.updColl_agenda (s : State) (n : Nat) (f : Coll → Coll) : (s.updColl n f).agenda = s.agenda := rfl
@[simp] theorem State.updColl_inbox (s : State) (n : Nat) (f : Coll → Coll) : (s.updColl n f).inbox = s.inbox := rfl
@[simp] theorem State.updColl_mem (s : State) (n : Nat) (f : Coll → Coll) : (s.updColl n f).mem = s.mem := rfl
@[simp] theorem State.updColl_stamps (s : State) (n : Nat) (f : Coll → Coll) : (s.updColl n f).stamps = s.stamps := rfl
@[simp] theorem State.updColl_cores (s : State) (n : Nat) (f : Coll → Coll) : (s.updColl n f).cores = s.cores := rfl
@[simp] theorem State.updColl_net (s : State) (n : Nat) (f : Coll → Coll) : (s.updColl n f).net = s.net := rfl
@[simp] theorem State.updColl_fw (s : State) (n : Nat) (f : Coll → Coll) : (s.updColl n f).fw = s.fw := rfl
@[simp] theorem State.updColl_dbg (s : State) (n : Nat) (f : Coll → Coll) : (s.updColl n f).dbg = s.dbg := rfl
@[simp] theorem State.updColl_freeCnt (s : State) (n : Nat) (f : Coll → Coll) : (s.updColl n f).freeCnt = s.freeCnt := rfl
@[simp] theorem State.updColl_powered (s : State) (n : Nat) (f : Coll → Coll) : (s.updColl n f).powered = s.powered := rfl
@[simp] theorem State.updColl_frozen (s : State) (n : Nat) (f : Coll → Coll) : (s.updColl n f).frozen = s.frozen := rfl

@[simp] theorem State.setStamp_tick (s : State) (sec : Nat) (chk : Bool) (cl kind : Nat) : (s.setStamp sec chk cl kind).tick = s.tick := rfl
@[simp] theorem State.setStamp_cur (s : State) (sec : Nat) (chk : Bool) (cl kind : Nat) : (s.setStamp sec chk cl kind).cur = s.cur := rfl
@[simp] theorem State.setStamp_agenda (s : State) (sec : Nat) (chk : Bool) (cl kind : Nat) : (s.setStamp sec chk cl kind).agenda = s.agenda := rfl
@[simp] theorem State.setStamp_inbox (s : State) (sec : Nat) (chk : Bool) (cl kind : Nat) : (s.setStamp sec chk cl kind).inbox = s.inbox := rfl
@[simp] theorem State.setStamp_mem (s : State) (sec : Nat) (chk : Bool) (cl kind : Nat) : (s.setStamp sec chk cl kind).mem = s.mem := rfl
@[simp] theorem State.setStamp_cores (s : State) (sec : Nat) (chk : Bool) (cl kind : Nat) : (s.setStamp sec chk cl kind).cores = s.cores := rfl
@[simp] theorem State.setStamp_chip (s : State) (sec : Nat) (chk : Bool) (cl kind : Nat) : (s.setStamp sec chk cl kind).chip = s.chip := rfl
@[simp] theorem State.setStamp_net (s : State) (sec : Nat) (chk : Bool) (cl kind : Nat) : (s.setStamp sec chk cl kind).net = s.net := rfl
@[simp] theorem State.setStamp_fw (s : State) (sec : Nat) (chk : Bool) (cl kind : Nat) : (s.setStamp sec chk cl kind).fw = s.fw := rfl
@[simp] theorem State.setStamp_dbg (s : State) (sec : Nat) (chk : Bool) (cl kind : Nat) : (s.setStamp sec chk cl kind).dbg = s.dbg := rfl
@[simp] theorem State.setStamp_freeCnt (s : State) (sec : Nat) (chk : Bool) (cl kind : Nat) : (s.setStamp sec chk cl kind).freeCnt = s.freeCnt := rfl
@[simp] theorem State.setStamp_powered (s : State) (sec : Nat) (chk : Bool) (cl kind : Nat) : (s.setStamp sec chk cl kind).powered = s.powered := rfl
@[simp] theorem State.setStamp_frozen (s : State) (sec : Nat) (chk : Bool) (cl kind : Nat) : (s.setStamp sec chk cl kind).frozen = s.frozen := rfl

@[simp] theorem State.updGrid_tick (s : State) (g : Nat) (f : Grid → Grid) : (s.updGrid g f).tick = s.tick := rfl
@[simp] theorem State.updGrid_cur (s : State) (g : Nat) (f : Grid → Grid) : (s.updGrid g f).cur = s.cur := rfl
@[simp] theorem State.updGrid_agenda (s : State) (g : Nat) (f : Grid → Grid) : (s.updGrid g f).agenda = s.agenda := rfl
@[simp] theorem State.updGrid_inbox (s : State) (g : Nat) (f : Grid → Grid) : (s.updGrid g f).inbox = s.inbox := rfl
@[simp] theorem State.updGrid_mem (s : State) (g : Nat) (f : Grid → Grid) : (s.updGrid g f).mem = s.mem := rfl
@[simp] theorem State.updGrid_stamps (s : State) (g : Nat) (f : Grid → Grid) : (s.updGrid g f).stamps = s.stamps := rfl
@[simp] theorem State.updGrid_cores (s : State) (g : Nat) (f : Grid → Grid) : (s.updGrid g f).cores = s.cores := rfl
@[simp] theorem State.updGrid_chip (s : State) (g : Nat) (f : Grid → Grid) : (s.updGrid g f).chip = s.chip := rfl
@[simp] theorem State.updGrid_net (s : State) (g : Nat) (f : Grid → Grid) : (s.updGrid g f).net = s.net := rfl
@[simp] theorem State.updGrid_dbg (s : State) (g : Nat) (f : Grid → Grid) : (s.updGrid g f).dbg = s.dbg := rfl
@[simp] theorem State.updGrid_freeCnt (s : State) (g : Nat) (f : Grid → Grid) : (s.updGrid g f).freeCnt = s.freeCnt := rfl
@[simp] theorem State.updGrid_powered (s : State) (g : Nat) (f : Grid → Grid) : (s.updGrid g f).powered = s.powered := rfl
@[simp] theorem State.updGrid_frozen (s : State) (g : Nat) (f : Grid → Grid) : (s.updGrid g f).frozen = s.frozen := rfl

@[simp] theorem State.updDom_tick (s : State) (d : Nat) (f : Dom → Dom) : (s.updDom d f).tick = s.tick := rfl
@[simp] theorem State.updDom_cur (s : State) (d : Nat) (f : Dom → Dom) : (s.updDom d f).cur = s.cur := rfl
@[simp] theorem State.updDom_agenda (s : State) (d : Nat) (f : Dom → Dom) : (s.updDom d f).agenda = s.agenda := rfl
@[simp] theorem State.updDom_inbox (s : State) (d : Nat) (f : Dom → Dom) : (s.updDom d f).inbox = s.inbox := rfl
@[simp] theorem State.updDom_mem (s : State) (d : Nat) (f : Dom → Dom) : (s.updDom d f).mem = s.mem := rfl
@[simp] theorem State.updDom_stamps (s : State) (d : Nat) (f : Dom → Dom) : (s.updDom d f).stamps = s.stamps := rfl
@[simp] theorem State.updDom_cores (s : State) (d : Nat) (f : Dom → Dom) : (s.updDom d f).cores = s.cores := rfl
@[simp] theorem State.updDom_chip (s : State) (d : Nat) (f : Dom → Dom) : (s.updDom d f).chip = s.chip := rfl
@[simp] theorem State.updDom_net (s : State) (d : Nat) (f : Dom → Dom) : (s.updDom d f).net = s.net := rfl
@[simp] theorem State.updDom_dbg (s : State) (d : Nat) (f : Dom → Dom) : (s.updDom d f).dbg = s.dbg := rfl
@[simp] theorem State.updDom_freeCnt (s : State) (d : Nat) (f : Dom → Dom) : (s.updDom d f).freeCnt = s.freeCnt := rfl
@[simp] theorem State.updDom_powered (s : State) (d : Nat) (f : Dom → Dom) : (s.updDom d f).powered = s.powered := rfl
@[simp] theorem State.updDom_frozen (s : State) (d : Nat) (f : Dom → Dom) : (s.updDom d f).frozen = s.frozen := rfl

@[simp] theorem State.updQueue_tick (s : State) (q : Nat) (f : UQueue → UQueue) : (s.updQueue q f).tick = s.tick := rfl
@[simp] theorem State.updQueue_cur (s : State) (q : Nat) (f : UQueue → UQueue) : (s.updQueue q f).cur = s.cur := rfl
@[simp] theorem State.updQueue_agenda (s : State) (q : Nat) (f : UQueue → UQueue) : (s.updQueue q f).agenda = s.agenda := rfl
@[simp] theorem State.updQueue_inbox (s : State) (q : Nat) (f : UQueue → UQueue) : (s.updQueue q f).inbox = s.inbox := rfl
@[simp] theorem State.updQueue_mem (s : State) (q : Nat) (f : UQueue → UQueue) : (s.updQueue q f).mem = s.mem := rfl
@[simp] theorem State.updQueue_stamps (s : State) (q : Nat) (f : UQueue → UQueue) : (s.updQueue q f).stamps = s.stamps := rfl
@[simp] theorem State.updQueue_cores (s : State) (q : Nat) (f : UQueue → UQueue) : (s.updQueue q f).cores = s.cores := rfl
@[simp] theorem State.updQueue_chip (s : State) (q : Nat) (f : UQueue → UQueue) : (s.updQueue q f).chip = s.chip := rfl
@[simp] theorem State.updQueue_net (s : State) (q : Nat) (f : UQueue → UQueue) : (s.updQueue q f).net = s.net := rfl
@[simp] theorem State.updQueue_dbg (s : State) (q : Nat) (f : UQueue → UQueue) : (s.updQueue q f).dbg = s.dbg := rfl
@[simp] theorem State.updQueue_freeCnt (s : State) (q : Nat) (f : UQueue → UQueue) : (s.updQueue q f).freeCnt = s.freeCnt := rfl
@[simp] theorem State.updQueue_powered (s : State) (q : Nat) (f : UQueue → UQueue) : (s.updQueue q f).powered = s.powered := rfl
@[simp] theorem State.updQueue_frozen (s : State) (q : Nat) (f : UQueue → UQueue) : (s.updQueue q f).frozen = s.frozen := rfl

@[simp] theorem State.setMbox_tick (s : State) (m : MBox) : (s.setMbox m).tick = s.tick := rfl
@[simp] theorem State.setMbox_cur (s : State) (m : MBox) : (s.setMbox m).cur = s.cur := rfl
@[simp] theorem State.setMbox_agenda (s : State) (m : MBox) : (s.setMbox m).agenda = s.agenda := rfl
@[simp] theorem State.setMbox_inbox (s : State) (m : MBox) : (s.setMbox m).inbox = s.inbox := rfl
@[simp] theorem State.setMbox_mem (s : State) (m : MBox) : (s.setMbox m).mem = s.mem := rfl
@[simp] theorem State.setMbox_stamps (s : State) (m : MBox) : (s.setMbox m).stamps = s.stamps := rfl
@[simp] theorem State.setMbox_cores (s : State) (m : MBox) : (s.setMbox m).cores = s.cores := rfl
@[simp] theorem State.setMbox_chip (s : State) (m : MBox) : (s.setMbox m).chip = s.chip := rfl
@[simp] theorem State.setMbox_net (s : State) (m : MBox) : (s.setMbox m).net = s.net := rfl
@[simp] theorem State.setMbox_dbg (s : State) (m : MBox) : (s.setMbox m).dbg = s.dbg := rfl
@[simp] theorem State.setMbox_freeCnt (s : State) (m : MBox) : (s.setMbox m).freeCnt = s.freeCnt := rfl
@[simp] theorem State.setMbox_powered (s : State) (m : MBox) : (s.setMbox m).powered = s.powered := rfl
@[simp] theorem State.setMbox_frozen (s : State) (m : MBox) : (s.setMbox m).frozen = s.frozen := rfl

@[simp] theorem State.settle_cur (s : State) (t : Nat) : (s.settle t).cur = s.cur := rfl
@[simp] theorem State.settle_agenda (s : State) (t : Nat) : (s.settle t).agenda = s.agenda := rfl
@[simp] theorem State.settle_inbox (s : State) (t : Nat) : (s.settle t).inbox = s.inbox := rfl
@[simp] theorem State.settle_mem (s : State) (t : Nat) : (s.settle t).mem = s.mem := rfl
@[simp] theorem State.settle_stamps (s : State) (t : Nat) : (s.settle t).stamps = s.stamps := rfl
@[simp] theorem State.settle_chip (s : State) (t : Nat) : (s.settle t).chip = s.chip := rfl
@[simp] theorem State.settle_net (s : State) (t : Nat) : (s.settle t).net = s.net := rfl
@[simp] theorem State.settle_fw (s : State) (t : Nat) : (s.settle t).fw = s.fw := rfl
@[simp] theorem State.settle_dbg (s : State) (t : Nat) : (s.settle t).dbg = s.dbg := rfl
@[simp] theorem State.settle_freeCnt (s : State) (t : Nat) : (s.settle t).freeCnt = s.freeCnt := rfl
@[simp] theorem State.settle_powered (s : State) (t : Nat) : (s.settle t).powered = s.powered := rfl
@[simp] theorem State.settle_frozen (s : State) (t : Nat) : (s.settle t).frozen = s.frozen := rfl

@[simp] theorem State.setByte_mem (s : State) (k : Nat) (b : Byte) : (s.setByte k b).mem = Sparse.set unlistedByte s.mem k b := rfl
@[simp] theorem State.sched_agenda (s : State) (t : Nat) (o : Iss) (i : Instr) : (s.sched t o i).agenda = s.agenda ++ [(t, o, i)] := rfl
@[simp] theorem State.free_freeCnt (s : State) (n : Nat) : (s.free n).2.freeCnt = s.freeCnt + 1 := rfl
@[simp] theorem State.freeD_freeCnt (s : State) : s.freeD.2.freeCnt = s.freeCnt + 1 := rfl
@[simp] theorem State.fresh_fst (s : State) : s.fresh.1 = s.chip.ids := rfl
@[simp] theorem State.updChip_chip (s : State) (f : Chip → Chip) : (s.updChip f).chip = f s.chip := rfl
@[simp] theorem State.settle_tick (s : State) (t : Nat) : (s.settle t).tick = t := rfl
/-- A firmware number that is drawn lies within its bound. -/
theorem State.free_le (s : State) (n : Nat) : (s.free n).1 ≤ n := Nat.le_of_lt_succ (Nat.mod_lt _ (Nat.succ_pos n))

theorem State.setBytes_keeps (s : State) (k : Nat) (l : List Byte) : ∃ m, s.setBytes k l = { s with mem := m } := by
  induction l generalizing s k with
  | nil => exact ⟨s.mem, rfl⟩
  | cons b t ih =>
    obtain ⟨m, h⟩ := ih (s.setByte k b) (k + 1)
    exact ⟨m, h⟩
@[simp] theorem State.setBytes_tick (s : State) (k : Nat) (l : List Byte) : (s.setBytes k l).tick = s.tick := by
  obtain ⟨m, h⟩ := s.setBytes_keeps k l; rw [h]
@[simp] theorem State.setBytes_cur (s : State) (k : Nat) (l : List Byte) : (s.setBytes k l).cur = s.cur := by
  obtain ⟨m, h⟩ := s.setBytes_keeps k l; rw [h]
@[simp] theorem State.setBytes_agenda (s : State) (k : Nat) (l : List Byte) : (s.setBytes k l).agenda = s.agenda := by
  obtain ⟨m, h⟩ := s.setBytes_keeps k l; rw [h]
@[simp] theorem State.setBytes_inbox (s : State) (k : Nat) (l : List Byte) : (s.setBytes k l).inbox = s.inbox := by
  obtain ⟨m, h⟩ := s.setBytes_keeps k l; rw [h]
@[simp] theorem State.setBytes_stamps (s : State) (k : Nat) (l : List Byte) : (s.setBytes k l).stamps = s.stamps := by
  obtain ⟨m, h⟩ := s.setBytes_keeps k l; rw [h]
@[simp] theorem State.setBytes_cores (s : State) (k : Nat) (l : List Byte) : (s.setBytes k l).cores = s.cores := by
  obtain ⟨m, h⟩ := s.setBytes_keeps k l; rw [h]
@[simp] theorem State.setBytes_chip (s : State) (k : Nat) (l : List Byte) : (s.setBytes k l).chip = s.chip := by
  obtain ⟨m, h⟩ := s.setBytes_keeps k l; rw [h]
@[simp] theorem State.setBytes_net (s : State) (k : Nat) (l : List Byte) : (s.setBytes k l).net = s.net := by
  obtain ⟨m, h⟩ := s.setBytes_keeps k l; rw [h]
@[simp] theorem State.setBytes_fw (s : State) (k : Nat) (l : List Byte) : (s.setBytes k l).fw = s.fw := by
  obtain ⟨m, h⟩ := s.setBytes_keeps k l; rw [h]
@[simp] theorem State.setBytes_dbg (s : State) (k : Nat) (l : List Byte) : (s.setBytes k l).dbg = s.dbg := by
  obtain ⟨m, h⟩ := s.setBytes_keeps k l; rw [h]
@[simp] theorem State.setBytes_freeCnt (s : State) (k : Nat) (l : List Byte) : (s.setBytes k l).freeCnt = s.freeCnt := by
  obtain ⟨m, h⟩ := s.setBytes_keeps k l; rw [h]
@[simp] theorem State.setBytes_powered (s : State) (k : Nat) (l : List Byte) : (s.setBytes k l).powered = s.powered := by
  obtain ⟨m, h⟩ := s.setBytes_keeps k l; rw [h]
@[simp] theorem State.setBytes_frozen (s : State) (k : Nat) (l : List Byte) : (s.setBytes k l).frozen = s.frozen := by
  obtain ⟨m, h⟩ := s.setBytes_keeps k l; rw [h]

end Sys2Proof.Machine
end

