-- ==== Sys2Proof/Tests/Slice0.lean ====
section
/-!
SUPPORT. Tests: words written out from the encodings, terms that WellFormed refuses, single steps on chosen values, and for each
statement states and operands that meet its hypotheses.
-/
open Sys2Proof Sys2Proof.Machine
set_option maxRecDepth 20000
namespace Sys2Proof.Tests

def m0 : Mods := ⟨false, 0, false⟩
def pk : Mods := ⟨true, 0, false⟩
/-- One core whose front thread or warp 0 stands at its first instruction at tick 100, changed by f and g. -/
def tst (front : Bool) (f : Core → Core) (g : Issuer → Issuer) : State :=
  let w : Iss := ⟨0, 0, if front then 16 else 0⟩
  ({ cores := [f (placedCore front false 100)], tick := 100, cur := w } : State).updIss w g
def warp : State := tst false id id
def front : State := tst true id id
/-- Names, decided. -/
def namesB (x : Ctx) (h : BitVec 4) (chk : Bool) (n : Nat) : Bool :=
  (x.me.regions.all fun r => !r.wdefs.contains h.toNat) && (!x.front || !defPending x.me h.toNat x.t) &&
    decide (nth x.c.handles h.toNat .unbound = .idx n) && (x.c.win n).v &&
    (!chk || (x.c.win n).state != .faulted || (x.c.win n).fault.isNone)
theorem names_of {x : Ctx} {h : BitVec 4} {chk : Bool} {n : Nat} (hb : namesB x h chk n = true) : Names x h chk n := by
  simp only [namesB, Bool.and_eq_true, Bool.or_eq_true, Bool.not_eq_true', List.all_eq_true, decide_eq_true_eq, bne_iff_ne,
    Option.isNone_iff_eq_none] at hb
  obtain ⟨⟨⟨⟨a, b⟩, c⟩, d⟩, e⟩ := hb
  refine ⟨fun r hr => ?_, fun hf => ?_, c, d, fun hc hs => ?_⟩
  · refine a r (List.mem_reverse.1 ?_)
    unfold Issuer.openRegion at hr
    split at hr
    · rename_i e; split at hr
      · cases hr; rw [e]; exact List.mem_cons_self
      · cases hr
    · cases hr
  · rcases b with b | b
    · simp [hf] at b
    · exact b
  · rcases e with (e | e) | e
    · simp [hc] at e
    · exact absurd hs e
    · exact e
/-- A chip's PSNBASE: a place k in its HBM. -/
def psnAt (k : Nat) : DWord := BitVec.ofNat 64 (chipNo * 2 ^ 42 + k)
def psnB : DWord := psnAt 0xBE01000000
theorem chip_lt : chipNo < 1024 := Config.chipNo.isLt
theorem psn_frame (k : Nat) (h : k < 2 ^ 40) (h2 : k % 2 ^ 15 = 0) : frame (psnAt k) = chipNo * 2 ^ 42 + k := by
  have := chip_lt
  simp only [frame, psnAt, bits, BitVec.toNat_ofNat]
  omega
theorem psn_ok (s : State) (k : Nat) (h : k < 2 ^ 40) (h2 : k % 2 ^ 15 = 0) (h3 : k + 0x1810000 ≤ hbmTop)
    (e : s.chip.psnbase = psnAt k) : psnBaseOk s = true := by
  have a : (chipNo * 2 ^ 42 + k) / 2 ^ 42 = chipNo := by omega
  have b : (chipNo * 2 ^ 42 + k) / 2 ^ 40 % 4 = 0 := by omega
  have c : (chipNo * 2 ^ 42 + k) % 2 ^ 40 = k := by omega
  have d : k < hbmTop := by omega
  simp [-Nat.reducePow, psnBaseOk, e, psn_frame k h h2, localHbm, hbmPart, a, b, c, d, h3]
/-- A state whose cluster TLB holds the leaf p of virtual page 0 of tenant 0. -/
def tlb (s : State) (p : DWord) : State :=
  { s with fw := {}, chip := {
      sstep := 1#64 <<< 32, psnbase := psnB, clusters := [{ cl := 0, tlb := [⟨0, 2, 0, p, 0, 0, false⟩] }], reqs := s.chip.reqs } }
/-- Translation by that entry to Orchard or host memory: its checks. -/
def leafB (va sp : Nat) (a : Acc) (p : DWord) : Bool :=
  formedOk (leafSpace p) (frame p + va % 32768) && bits p 9 6 == 0 && leafSpace p == sp && permOk a p &&
    (sp == 2 && a != .code || sp == 3 && a != .atom && a != .red && a != .code && a != .aos)
theorem trans_ok {s : State} {p addr : DWord} {a : Acc} (h1 : spaceOf addr ≤ 3 ∧ bits addr 51 9 = 0 ∧ bits addr 0 51 < 2 ^ 15)
    (h : leafB (bits addr 0 51) (spaceOf addr) a p = true) :
    Machine.translate (tlb s p) 0 0 a addr = (Except.ok (frame p + bits addr 0 51 % 32768, p), tlb s p) := by
  simp only [leafB, Bool.and_eq_true, beq_iff_eq] at h
  obtain ⟨h1, h2, h3⟩ := h1
  obtain ⟨⟨⟨⟨h4, h5⟩, h6⟩, h9⟩, h8⟩ := h
  have hb : bits (0 : DWord) 0 6 = 0 := by decide
  have hl : lookupTlb (tlb s p) 0 0 (bits addr 0 51) a = (Except.ok ⟨0, 2, 0, p, 0, 0, false⟩, tlb s p) := by
    have hf : ((tlb s p).chip.cluster 0).tlb.find? (fun e => e.hits (bits 0 0 6) (bits addr 0 51)) =
        some ⟨0, 2, 0, p, 0, 0, false⟩ := by
      have hc : ((tlb s p).chip.cluster 0).tlb = [⟨0, 2, 0, p, 0, 0, false⟩] := rfl
      have hd : bits addr 0 51 / 2 ^ 15 = 0 := Nat.div_eq_of_lt h3
      rw [hc, hb]
      simp [-Nat.reducePow, TlbE.hits, hd]
    unfold lookupTlb
    simp only [hf]
  have hc : leafChecks (tlb s p) (bits 0 0 6) (bits addr 0 51) (spaceOf addr) a ⟨0, 2, 0, p, 0, 0, false⟩ =
      .ok (frame p + bits addr 0 51 % 32768) := by
    have hs : levelShift 2 = 15 := rfl
    have ho : ∀ k pa, bit (tlb s p).chip.orchst k = false ∧ orchPa (tlb s p) p pa = some pa := fun k pa => by
      have e : ∀ k, bit (tlb s p).chip.orchst k = false := fun k => by
        have : (tlb s p).chip.orchst = 0 := rfl
        simp [this, bit]
      have ha : (tlb s p).fw.allocs = [] := rfl
      exact ⟨e k, by simp [orchPa, e, ha]⟩
    have hop : opAllowed (tlb s p) (spaceOf addr) a (frame p + bits addr 0 51 % 32768) = true := by
      have : bit (tlb s p).chip.sstep 32 = true := by
        have : (tlb s p).chip.sstep = 1#64 <<< 32 := rfl
        rw [this]; decide
      simp only [Bool.or_eq_true, Bool.and_eq_true, beq_iff_eq] at h8
      rcases h8 with ⟨e, h⟩ | ⟨⟨⟨⟨e, h⟩, h'⟩, h''⟩, h3⟩
      · simp only [e, opAllowed, h, this, Bool.and_self]
      · simp only [e, opAllowed, h, h', h'', h3, Bool.and_self]
    rw [h6] at h4
    have hm : (if spaceOf addr = 2 then orchPa (tlb s p) p (frame p + bits addr 0 51 % 32768)
        else some (frame p + bits addr 0 51 % 32768)) = some (frame p + bits addr 0 51 % 32768) := by
      rw [(ho 0 _).2, ite_self]
    rw [hb]
    simp [leafChecks, targetChecks, hs, h4, h5, h6, hm, h9, hop]
  unfold Machine.translate
  have h2' : ¬ bits addr 51 9 ≠ 0 := by simp [h2]
  have hz : (bit (0 : DWord) 63 && spaceOf addr == 0) = false := by simp [bit]
  simp only [Nat.not_lt.2 h1, h2', hl, hc, hz, if_false, Bool.false_eq_true]
theorem trans_one {s : State} {p addr : DWord} {a : Acc} {pa : Nat} (h1 : spaceOf addr ≤ 3 ∧ bits addr 51 9 = 0 ∧ bits addr 0 51 < 2 ^ 15)
    (h : leafB (bits addr 0 51) (spaceOf addr) a p = true) (e : frame p + bits addr 0 51 % 32768 = pa) :
    transLanes (tlb s p) 0 0 a [(0, addr)] = (Except.ok [(0, addr, pa, p)], tlb s p) := by
  simp only [transLanes, trans_ok h1 h, e]
theorem trans_at {s : State} {p addr : DWord} {a : Acc} {pa : Nat} (h1 : spaceOf addr ≤ 3 ∧ bits addr 51 9 = 0 ∧ bits addr 0 51 < 2 ^ 15)
    (h : leafB (bits addr 0 51) (spaceOf addr) a p = true) (e : frame p + bits addr 0 51 % 32768 = pa) :
    Machine.translate (tlb s p) 0 0 a addr = (Except.ok (pa, p), tlb s p) := by
  rw [trans_ok h1 h, e]
theorem witness_registers : regionCause (warp.ctx m0) [.v 511] = none ∧ regionCause (front.ctx m0) [.s 255] = none ∧
    regionCause (front.ctx pk) [.g 7] = none ∧ regionCause (warp.ctx m0) [.p 7] = none ∧
    regionCause (warp.ctx m0) [] = none ∧ regionCause (front.ctx m0) [.s 0] = none := by decide
def fs : State := tst true (fun c => { c with sregs := [(1, 0x400000000007FFF8), (2, 0x2000000000000040), (3, 0x3000000000000040)] }) id
def mf : MemF := ⟨m0, 2, 1, true, 0, 0, 0⟩
theorem witness_ScratchpadAccesses :
    let x := fs.ctx m0
    let as := x.act.map fun l => (l, laneAddr x mf mf.off.toInt l)
    let r := poolRead fs 0 0 x.me 100 8 false as
    regionCause x (loadTgts x.front 2 8) = none ∧ x.act ≠ [] ∧ laneChecks 8 as = .ok 4 ∧ r.psn = none ∧ r.touched = [] ∧
    touchAll x (.ld mf 3 false) fs r.touched = fs := by
  refine ⟨by decide, by decide, by rfl, by decide, by decide, by rfl⟩
def ldhS (st : WState) (ps : List Prod) (home : DWord) : State := tst true (fun c => { c with
  sregs := [(1, 0)], handles := [.idx 0], wins := [(0, { v := true, state := st, sbase := 64, rows := 2, rbytes := 64, sstride := 64, home := home, prods := ps })] }) id
theorem witness_HandleLoads :
    Names ((ldhS .full [] 0).ctx m0) 0 true 0 ∧
    regionCause ((ldhS .full [] 0).ctx m0) (loadTgts true 2 8) = none ∧ ((ldhS .full [] 0).ctx m0).act ≠ [] ∧
    (let x := (ldhS .full [] 0).ctx m0
     (∀ a ∈ x.act.map fun l =>
       (l, BitVec.ofNat 64 ((x.c.win 0).sbase + (x.c.sreg (x.tl l) mf.base.toNat).toNat % 2 ^ 32 + 0)), a.2.toNat % 8 = 0) ∧
     (poolRead x.s 0 0 x.me 100 8 true [(0, 0x4000000000000040)]).psn = none ∧
     touchAll x (.ldh mf 3 false) x.s (poolRead x.s 0 0 x.me 100 8 true [(0, 0x4000000000000040)]).touched = x.s) ∧
    Names ((ldhS .free [] 0).ctx m0) 0 true 0 ∧ (((ldhS .free [] 0).ctx m0).c.win 0).valid = [] ∧
    Names ((ldhS .absent [{ kind := 0, valid := true }] 0x1000000000000000).ctx m0) 0 true 0 ∧
    touchBlocks (((ldhS .absent [{ kind := 0, valid := true }] 0x1000000000000000).ctx m0).c.win 0) = true := by
  refine ⟨names_of (by decide), by decide, by decide, ⟨by decide, by decide, rfl⟩, names_of (by decide), by decide,
    names_of (by decide), by decide⟩
/-- A front thread over a leaf p, which reads the address a in s1. -/
def memS (p a : DWord) : State := tlb (tst true (fun c => { c with sregs := [(1, a), (2, 7)] }) id) p
def o2 : DWord := 0x8D
def o3 : DWord := 0xCD
theorem trans2 {s : State} {a : Acc} (h : a = .load ∨ a = .store ∨ a = .red ∨ a = .atom) :
    transLanes (tlb s o2) 0 0 a [(0, 0x2000000000000040)] = (.ok [(0, 0x2000000000000040, 0x40, o2)], tlb s o2) :=
  trans_one (by decide) (by rcases h with rfl | rfl | rfl | rfl <;> decide) (by decide)
theorem trans3 {s : State} {a : Acc} (h : a = .load ∨ a = .store) :
    transLanes (tlb s o3) 0 0 a [(0, 0x3000000000000040)] = (.ok [(0, 0x3000000000000040, 0x40, o3)], tlb s o3) :=
  trans_one (by decide) (by rcases h with rfl | rfl <;> decide) (by decide)
theorem witness_MemoryLoads :
    let s2 := memS o2 0x2000000000000040
    let x2 := s2.ctx m0
    let as2 := x2.act.map fun l => (l, laneAddr x2 mf mf.off.toInt l)
    let s3 := memS o3 0x3000000000000040
    let x3 := s3.ctx m0
    let as3 := x3.act.map fun l => (l, laneAddr x3 mf mf.off.toInt l)
    (x2.act ≠ [] ∧ laneChecks 8 as2 = .ok 2 ∧
      transLanes s2 s2.cur.cl x2.c.ptw .load as2 = (.ok [(0, 0x2000000000000040, 0x40, o2)], s2) ∧
      regionCause x2 (loadTgts x2.front 2 8) = none ∧ acquirePending s2 s2.cur (x2.vis 4000 0) = false) ∧
    (x3.act ≠ [] ∧ laneChecks 8 as3 = .ok 3 ∧
      transLanes s3 s3.cur.cl x3.c.ptw .load as3 = (.ok [(0, 0x3000000000000040, 0x40, o3)], s3) ∧
      regionCause x3 (loadTgts x3.front 2 8) ≠ some 1 ∧ regionCause x3 (loadTgts x3.front 2 8) ≠ some 2) := by
  exact ⟨⟨by decide, rfl, trans2 (.inl rfl), by decide, by decide⟩, by decide, rfl, trans3 (.inl rfl), by decide, by decide⟩
def held2 (ops : List DWord) : List LaneAcc := [⟨0, 0x2000000000000040, 2, 0x40, ops ++ [o2]⟩]
theorem held_of {x : Ctx} {sp : Nat} {a : Acc} {ls : List (Nat × DWord × Nat × DWord)} {as : List (Nat × DWord)} {ops : Nat → List DWord}
    {t : State} (h : ¬3 < sp) (e : transLanes x.s x.w.cl x.c.ptw a as = (.ok ls, t)) :
    heldLanes x sp a as ops = some (ls.map fun l => ⟨l.1, l.2.1, sp, l.2.2.1, ops l.1 ++ [l.2.2.2]⟩) := by
  simp [heldLanes, h, e]
theorem witness_HeldAccesses :
    let s := memS o2 0x2000000000000040
    let x := s.ctx m0
    let at_ := fun off : Int => x.act.map fun l => (l, laneAddr x mf off l)
    x.act ≠ [] ∧ laneChecks 8 (at_ mf.off.toInt) = .ok 2 ∧ laneChecks 4 (at_ mf.off.toInt) = .ok 2 ∧
    heldLanes x 2 .store (at_ mf.off.toInt) (fun l => [dataVal x mf.data true 0 l]) = some (held2 [7]) ∧
    heldLanes x 2 .red (at_ mf.off.toInt) (atomOps x mf true .add) = some (held2 [7]) ∧
    heldLanes x 2 .atom (at_ mf.off.toInt) (atomOps x mf true .add) = some (held2 [7]) ∧
    (let keys := (held2 [7]).map fun l => l.key s.cur.cl / 64
     (∀ i ∈ [Instr.st mf 3, .red mf true .add, .atom mf true .add],
       ((held2 [7]).map fun l => l.keys s.cur.cl i).flatten.map (· / 64) = keys) ∧
     storeCause x [] true keys keys = none ∧ storeCause x (loadTgts x.front 2 8) false keys keys = none ∧ bufFull x keys = false) ∧
    (∀ i ∈ [Instr.st mf 3, .red mf true .add, .atom mf true .add], sysRelease x i = false) ∧
    sysRelease x (.st { mf with scope := 7, order := 2 } 3) = true ∧
    regionCause x (loadTgts x.front 2 8) = none ∧ x.me.openRegion ≠ none ∧
    (let x1 := (memS o2 0x1000000000000040).ctx m0
     laneChecks 8 (x1.act.map fun l => (l, laneAddr x1 mf 0 l)) = .ok 1) := by
  refine ⟨by decide, rfl, rfl, held_of (ls := [(0, 0x2000000000000040, 0x40, o2)]) (show ¬3 < 2 by decide) (trans2 (.inr (.inl rfl))), held_of (ls := [(0, 0x2000000000000040, 0x40, o2)]) (show ¬3 < 2 by decide) (trans2 (.inr (.inr (.inl rfl)))),
    held_of (ls := [(0, 0x2000000000000040, 0x40, o2)]) (show ¬3 < 2 by decide) (trans2 (.inr (.inr (.inr rfl)))), by decide, by decide, by decide, by decide, by decide, rfl⟩
def winS (fr : Bool) (e : Win) : State := tst fr (fun c => { c with handles := [.idx 0], wins := [(0, { e with v := true })] }) id
theorem witness_WindowInstructions :
    Names ((winS true {}).ctx m0) 0 false 0 ∧ regionCause ((winS true {}).ctx m0) [] = none ∧
    Names ((winS false { state := .full }).ctx m0) 0 true 0 ∧ regionCause ((winS false { state := .full }).ctx m0) [.v 511] = none ∧
    Names ((winS true { state := .faulted }).ctx m0) 0 true 0 ∧ regionCause ((winS true {}).ctx m0) [.s 255] = none ∧
    -- HWAIT goes on, waits
    (((winS true { state := .full }).ctx m0).act ≠ [] ∧ regionCause ((winS true { state := .full }).ctx m0) [.g 7] = none) ∧
    (((winS true {}).ctx m0).c.win 0).state = .absent ∧ afterAtomic ((winS true {}).ctx m0) = false ∧
    Names ((winS true {}).ctx m0) 0 true 0 ∧
    -- WTOUCH of a window of another chip's memory, of one that is full
    (let x := (winS true { home := 0x1000000000000000, prods := [{ valid := true }] }).ctx m0
     Names x 0 true 0 ∧ touchBlocks (x.c.win 0) = true ∧ afterAtomic x = false) ∧
    (let s := winS true { state := .full }
     touchBlocks ((s.ctx m0).c.win 0) = false ∧ touch s s.cur 0 ((s.ctx m0).toucher (.wtouch m0 0) 0) = s) ∧
    (let x := (memS o2 0x400000000007FF80).ctx m0
     x.act ≠ [] ∧ (x.sc 1 0).toNat % 64 = 0 ∧ spaceOf (x.sc 1 0) = 4 ∧ regionCause x [] = none) := by
  refine ⟨names_of (by decide), by decide, names_of (by decide), by decide, names_of (by decide), by decide, by decide, by decide,
    by decide, names_of (by decide), ⟨names_of (by decide), by decide, by decide⟩, ⟨by decide, rfl⟩, by decide⟩
def fillW (sp : Nat) : Win := { home := BitVec.ofNat 64 (sp * 2 ^ 60), ty := 8, rows := 1, rbytes := 64, hstride := 64, sstride := 64
                                prods := [{ kind := 0, valid := true, share := 64, count := 0 }] }
theorem witness_TouchEvents :
    (((winS true { state := .full }).win 0 0 0).state = .full) ∧
    (∀ sp ∈ [4, 5], ∀ st ∈ [WState.absent, .filling],
      let s := winS true { fillW sp with state := st }
      let e := s.win 0 0 0
      e.state = st ∧ e.hfs = false ∧ ∃ p ∈ e.homeProd, p.share = 64 ∧
      ∀ k, k < p.share / 64 → spaceOf (e.sector k).1 = sp ∧ ∃ q, poolAddr 0 (e.sector k).1 = some q ∧
        q.2 + 64 ≤ (s.core 0 q.1).scSize) := by
  refine ⟨rfl, fun sp hs st ht => ?_⟩
  simp only [List.mem_cons, List.not_mem_nil, or_false] at hs ht
  rcases hs with rfl | rfl <;> rcases ht with rfl | rfl <;>
  · refine ⟨rfl, rfl, _, rfl, rfl, fun k hk => ?_⟩
    have : k = 0 := by simp at hk; omega
    subst this
    exact ⟨by decide, _, rfl, by decide⟩
theorem witness_Fences : (front.ctx m0).act ≠ [] ∧ afterAtomic (front.ctx m0) = false ∧ regionCause (front.ctx m0) [] = none ∧
    (warp.ctx m0).act ≠ [] := by decide
def reg2 : State := tst true id fun me => { me with regions := [{ num := 1, closed := some 99 }, { num := 2 }] }
theorem witness_RegionsAndMeetings : 2 ≤ (reg2.iss reg2.cur).regions.length ∧ ¬2 ≤ (front.iss front.cur).regions.length ∧
    regionCause (warp.ctx m0) [.v 511] = none ∧ regionCause (warp.ctx m0) [] = none := by decide
def dqS (dq : List (Nat × DWord)) (fr : Bool) : State := tst fr (fun c => { c with dq := dq }) id
theorem witness_DecisionQueue :
    (let x := (dqS (List.replicate 32 (0, 5)) true).ctx m0
     regionCause x [] = none ∧ x.act ≠ [] ∧ 32 ≤ x.c.dq.length + heldPushes x.me) ∧
    (let x := (dqS (List.replicate 31 (0, 5)) true).ctx m0
     regionCause x [] = none ∧ ¬(x.act ≠ [] ∧ 32 ≤ x.c.dq.length + heldPushes x.me)) ∧
    (let x := (dqS [(100, 5)] false).ctx m0
     regionCause x [.v 510, .v 511] = none ∧ x.act ≠ [] ∧ dqNext x.c x.me 100 = some 5) ∧
    (let x := (dqS [(101, 5)] false).ctx m0
     dqNext x.c x.me 100 = none ∧ (x.c.iss 16).wait ≠ .ended) := by decide
def phS (fr : Bool) (mode : PhMode) (ph s : Nat) : State :=
  let t := tst fr (fun c => { c with phBase := 4095, phCnt := 1, sregs := [(1, 4095)] }) fun me => { me with phs := [(15, 4095, mode)] }
  { t with chip := { t.chip with phasers := [(4095, { phase := ph, members := [⟨t.cur, 15, false, mode, s, 0, true, false, []⟩] })] } }
theorem witness_PhaserInstructions :
    (let x := (phS true .sw 0 0).ctx m0
     x.act ≠ [] ∧ (x.sc 1 0).toNat ≤ 4095 ∧ x.c.phOk (x.sc 1 0).toNat = true ∧ x.me.slotOf 0 = none ∧ regionCause x [] = none) ∧
    (∀ m ∈ [PhMode.sw, .sig, .wait], ((phS true m 0 0).ctx m0).me.slotOf 15 = some (4095, m)) ∧
    -- PHSIG two ahead, and in its place
    (let s := phS true .sw 5 7
     ∃ k, (s.phaser 4095).member s.cur 15 false = some k ∧ k.inEffect = true ∧
       (s.phaser 4095).phase + 2 ≤ k.s + k.early + heldSignals (s.ctx m0).me 15) ∧
    (let s := phS true .sw 5 6
     ∃ k, (s.phaser 4095).member s.cur 15 false = some k ∧ k.inEffect = true ∧
       ¬(s.phaser 4095).phase + 2 ≤ k.s + k.early + heldSignals (s.ctx m0).me 15) ∧
    regionCause ((phS true .sw 0 0).ctx m0) [.s 255] = none ∧ regionCause ((phS false .sw 0 0).ctx m0) [.v 511] = none ∧
    (let s := phS true .sw 4 0
     (s.ctx m0).act ≠ [] ∧ waitTooOld s s.cur 15 4095 false = false ∧ afterAtomic (s.ctx m0) = false) ∧
    (let s := phS true .sw 4 6
     ∃ k, (s.phaser 4095).member s.cur 15 false = some k ∧ k.inEffect = true ∧ waitTooOld s s.cur 15 4095 false = false ∧
       (s.phaser 4095).phase + 2 ≤ k.s + k.early + heldSignals (s.ctx m0).me 15) := by
  refine ⟨by decide, by decide, ⟨_, rfl, by decide, by decide⟩, ⟨_, rfl, by decide, by decide⟩, by decide, by decide, by decide, _, rfl, by decide⟩
def dbgS (fr : Bool) : State :=
  { tst fr (fun c => { c with grid := some 0, modew := 0x104 }) (fun me => { me with trapvec := 1#64 <<< 48 }) with
    fw := { grids := [⟨0, 0, 7, none, [], [(0, 0)], 0, 2, 0, 0, none, [], [], none, false, 0, [], [], 0, [], false, false, 0, []⟩],
            doms := [{ id := 7, parent := none, dw := [], used := [], dbg := true, halted := false }] } }
theorem witness_BlockingPoints :
    (let s := dbgS true; let x := s.ctx m0
     x.act ≠ [] ∧ afterAtomic x = false ∧ ¬(x.front = true ∧ 1 < x.c.bpc) ∧ bit x.c.modew 2 = true ∧ x.front = true ∧
     bit x.me.trapvec 48 = true ∧ dbgSession s s.cur = true ∧ (nth x.c.cslots 15 {}).fault = none) ∧
    (let s := dbgS false; let x := s.ctx m0
     x.act ≠ [] ∧ afterAtomic x = false ∧ ¬(x.front = true ∧ 1 < x.c.bpc) ∧ bit x.c.modew 2 = true ∧
     bit x.me.trapvec 48 = true ∧ dbgSession s s.cur = true) := by decide
def bigW (t : Ty) : Win := { v := true, state := .full, ty := t.code, rows := 64, rbytes := 65536, sstride := 65536, scllen := 65536 }
/-- Three handles over full windows of one type, and an image in the last two sectors of the scratchpad. -/
def engS (t : Ty) (a : DWord) (mem : List (Nat × Byte)) : State :=
  { tst true (fun c => { c with
      handles := [.idx 0, .idx 1, .idx 2], wins := [(0, bigW t), (1, bigW t), (2, bigW t)]
      sregs := [(1, a)], scInit := [(0x1FFE, true), (0x1FFF, true)] }) id with mem := mem }
theorem witness_EngineCommands :
    (∀ t ∈ [Ty.bf16, .mx4], let x := (engS t 0x7FF80 []).ctx m0
      regionCause x [] = none ∧ (nth x.c.latches 0 {}).fault = none ∧ (nth x.c.latches 1 {}).fault = none ∧ matrixFull x = false ∧
      operandFault x.c (.mma ⟨false, t, t, .f32, 127, 0, 1, false⟩ false false) [0, 1] = none ∧
      operandFault x.c (.mma ⟨false, t, t, .f32, 127, 0, 1, false⟩ true true) [1] = none ∧
      operandFault x.c (.mmas ⟨false, t, t, .f32, 127, 0, 1, false⟩ 2 true) [0, 1, 2] = none ∧
      operandFault x.c (.mgath false t 0 1 true) [0] = none ∧ imageAt x (x.sc 1 0) 128 128 = some 0x7FF80 ∧
      operandFault x.c (.cmprs false t 0 1 2 true) [0, 1, 2] = none ∧
      assoc x.c.tileFault 127 = none ∧ operandFault x.c (.accmv false 127 0) [] = none) ∧
    (∀ h : Fin 3, Names ((engS .bf16 0 []).ctx m0) (BitVec.ofNat 4 h) true h) ∧
    operandFault ((engS .f32 0 []).ctx m0).c (.accld false .f32 127 0) [0] = none ∧
    operandFault ((engS .f32 0 []).ctx m0).c (.epi ⟨false, .f32, .f32, 127, 3, true, false, 0, 0, .rne, false⟩) [] = none ∧
    (let s := engS .f32 0x7FFE0 []
     let x := s.ctx m0
     imageAt x (x.sc 1 0) 32 32 = some 0x7FFE0 ∧
     (let im := s.dwords (keySp 0 0 0x7FFE0) 4
      spaceOf (nth im 0 0) ≤ 5 ∧ bits (nth im 0 0) 0 6 = 0 ∧ bits (nth im 1 0) 0 6 = 0 ∧ spaceOf (nth im 2 0) ≤ 5 ∧
        bits (nth im 3 0) 48 16 = 0)) ∧
    (let s := engS .f32 0x7FFF8 []
     let x := s.ctx m0
     (s.stream ⟨0, 0, 3⟩).fault = none ∧ imageAt x (x.sc 1 0) 8 8 = some 0x7FFF8 ∧ (s.stream ⟨0, 0, 3⟩).running = false ∧
     (x.c.efq.any fun e => e.1 == 3) = false ∧ x.me.allHeld = []) ∧
    (let x := (engS .f32 0x7FF80 []).ctx m0
     (nth x.c.cslots 15 {}).fault = none ∧ x.c.elastic = false) := by
  refine ⟨by decide, fun h => ?_, by decide, by decide, by decide, by decide, by decide⟩
  match h with
  | 0 => exact names_of (by decide)
  | 1 => exact names_of (by decide)
  | 2 => exact names_of (by decide)
/-- A warp over a valid slot 0 of tenant 0. -/
def seqS : State :=
  let s := tst false id id
  { s with chip := { s.chip with slots := [(0, { dw := [(0, 1)] })] } }
theorem witness_SequenceInstructions :
    (let x := seqS.ctx m0
     regionCause x [.v 508, .v 509, .v 510, .v 511] = none ∧ x.act ≠ [] ∧ regionCause x [.v 511] = none ∧ afterAtomic x = false ∧
     (∀ l ∈ x.act, slotCause seqS x.c.tenant (slotNo (x.slotOp (.sca 0) l)) = none) ∧
     (∀ r ∈ x.me.regions, ¬(x.act ≠ [] ∧ [Tgt.v 510, Tgt.v 511].any (protects r.mask) = true ∨ r.atomic = true))) := by decide
theorem witness_SpecialRegisters :
    0x800 ≤ (0xFFF : BitVec 12).toNat ∧ (0x11 < (0x7FF : BitVec 12).toNat ∧ (0x7FF : BitVec 12).toNat < 0x800) ∧
    ((0x11 : BitVec 12).toNat ≤ 0x11 ∧ regionCause (front.ctx m0) [] = none) ∧ regionCause (front.ctx m0) [.s 255] = none ∧
    regionCause (warp.ctx m0) [.v 510, .v 511] = none ∧ (∀ k ∈ [2, 3, 4, 0xC, 0xF], (BitVec.ofNat 12 k).toNat = k) ∧
    (warp.ctx m0).me.allHeld = [] := by decide
def flagS (fr : Bool) : State := tst fr id fun me => { me with flags := 0x1F, flagen := 0x10 }
theorem witness_SystemInstructions :
    (let x := warp.ctx m0
     regionCause x [] = none ∧ quiet warp warp.cur = true ∧ trapfBits x = 0 ∧ dbgSession warp warp.cur = false ∧ warp.cur.n ≠ 16 ∧
     x.act ≠ [] ∧ bit x.me.trapvec 48 = false) ∧
    (let s := flagS true
     let x := s.ctx m0
     x.act ≠ [] ∧ afterAtomic x = false ∧ quiet s s.cur = true ∧ trapfBits x ≠ 0) ∧
    regionCause (front.ctx pk) [] = none := by decide
/-- A core with a header of one instruction at code-store offset 0. -/
def hdr (s : State) : State := s.setBytes (keyCode 0 0) (toBytes 8 0xC500000000000060)
theorem witness_IssueTurns :
    (warp.cur.n ≠ 16 ∧ (warp.coreOf warp.cur).inTurn = true) ∧
    (∀ s ∈ [tst true (fun c => { c with imgSize := 16 }) (fun me => { me with wait := .until_ 101 }),
            tst false (fun c => { c with inTurn := false }) (fun me => { me with wait := .until_ 101 })],
      (s.cur.n = 16 ∨ (s.coreOf s.cur).inTurn = false) ∧ heldBack s s.cur = false ∧ standsBack (s.iss s.cur) = false ∧
        (s.iss s.cur).wait = .until_ 101 ∧ waitOver s s.cur = false) ∧
    standsBack ((tst true id fun me => { me with redo := some { num := 1 }, retry := some ⟨⟨.nop false, [], [], [], 0, 0, 1⟩, 0, true⟩ }).iss
      ⟨0, 0, 16⟩) = true ∧
    (let s := tst true (fun c => { c with modew := 1 }) fun me => { me with late := some (90, 101) }
     lateReply s s.cur = some (.until_ 101) ∧ heldBack s s.cur = false ∧ standsBack (s.iss s.cur) = false ∧ (s.iss s.cur).wait = .run) ∧
    (∀ s ∈ [hdr front, hdr (tst false (fun c => { c with inTurn := false }) id)],
      let u := s.updIss s.cur fun me => { me with wait := .run, mark := false }
      let x := u.ctx m0
      (s.cur.n = 16 ∨ (s.coreOf s.cur).inTurn = false) ∧ heldBack s s.cur = false ∧ standsBack (s.iss s.cur) = false ∧
        (s.iss s.cur).wait = .run ∧ lateReply s s.cur = none ∧ waitOver s s.cur = true ∧ x.sel ≠ [] ∧ headerFault u x.c x.front x.pc = none ∧
        (headerWaits x matches .met) = true) := by decide +kernel
def rgnS (n : Nat) (ls : Nat) : State := tst true id fun me => { me with
  regions := [{ num := 1, closed := some 10, lastVis := ls, held := [⟨.nop false, [], [], [], 0, 0, 1⟩] }] ++ (if n = 0 then [] else [{ num := 2 }]) }
theorem witness_RegionCommitAndReentry :
    (∀ n ∈ [0, 1], ∀ s ∈ [rgnS n 0, rgnS n 100], ∃ r rest, (s.iss s.cur).regions = r :: rest ∧ r.closed ≠ none) ∧
    (∀ r ∈ ((rgnS 1 100).iss (rgnS 1 100).cur).regions.head?, regionReady (rgnS 1 100) (rgnS 1 100).cur r = false) ∧
    (let s := tst true id fun me => { me with regions := [{ num := 1, closed := some 0 }] }
     let u := { s with tick := 400 }
     ∀ r ∈ (u.iss u.cur).regions.head?, regionReady u u.cur r = true ∧ (u.coreOf u.cur).pair = false ∧ (u.iss u.cur).wait = .run) ∧
    (∀ o ∈ [Opener.start, .rgn, .block, .again],
      let s := tst true id fun me => { me with redo := some { num := 3, opener := o, pcs := [0] } }
      (s.iss s.cur).redo = some { num := 3, opener := o, pcs := [0] }) := by
  refine ⟨fun n hn s hs => ?_, by decide, by decide, by decide⟩
  simp only [List.mem_cons, List.not_mem_nil, or_false] at hn hs
  rcases hn with rfl | rfl <;> rcases hs with rfl | rfl <;> exact ⟨_, _, rfl, by decide⟩
def stI : Instr := .st mf 3
def heldSt (sp pa : Nat) : Held := ⟨stI, [⟨0, BitVec.ofNat 64 (sp * 2 ^ 60 + pa), sp, pa, [7, o2]⟩], [], [], 0, 0, 1⟩
def preS (h : Held) : State := tst true (fun c => { c with scInit := [(0x1FFF, true)] }) fun me => { me with presq := [h], presBusy := true }
theorem witness_StorePresentation :
    (∀ h ∈ [heldSt 0 0, heldSt 2 0, heldSt 4 0x7FFF8, heldSt 5 0x7FFF8],
      let s := preS h
      (s.iss s.cur).presq = [h] ∧ releaseWaits s s.cur h = false ∧ (s.iss s.cur).suppress.find? heldRecord = none ∧
      Memory.wf s.mem = true ∧ Sparse.wf unlistedStamp s.stamps = true ∧
      spCheck (s.core 0 0) 100 (some (0, 0x7FFF8)) 8 true false = none ∧ Sparse.get false (s.core 0 0).scInit (0x7FFF8 / 64) = true) ∧
    (let s := preS ⟨.fence m0 7 2, [], [], [], 0, 0, 1⟩
     let u := { s with chip := { s.chip with reqs := [{ id := 0, kind := .store, w := s.cur, h := heldSt 3 0, space := 3, dest := [], lanes := [], results := [], issued := 0, bound := 0, sectors := [0], psn := false, stat := 0, rnum := 0, tenant := 0, chk := false, arrived := false, data := [], aux := 0 }] } }
     releaseWaits u u.cur ⟨.fence m0 7 2, [], [], [], 0, 0, 1⟩ = true) := by decide
/-- Request 5 of the front thread with one lane in a sector, on its way. -/
def rq (k : ReqKind) (i : Instr) (sp pa : Nat) : Req :=
  { id := 5, kind := k, w := ⟨0, 0, 16⟩, h := ⟨i, [], [], [], 0, 0, 1⟩, space := sp, dest := []
    lanes := [⟨0, 0, sp, pa, [7, 0, o2]⟩], results := [], issued := 0, bound := 200, sectors := [pa / 64], psn := false
    stat := 0, rnum := 1, tenant := 0, chk := false, arrived := false, data := [], aux := 0 }
def rqS (q : Req) : State :=
  let s := tst true id id
  { s with cur := obj 5, chip := { s.chip with reqs := [q] } }
def accs : List Req := [rq .load (.ld mf 3 false) 2 0x78, rq .store (.st mf 3) 0 0x78, rq .store (.st mf 3) 2 0x78,
  rq .atom (.atom mf true .add) 0 0x78, rq .red (.red mf true .add) 1 0x78]
theorem witness_HomeAccesses :
    (∀ q ∈ accs, let s := rqS q
      Memory.wf s.mem = true ∧ Sparse.wf unlistedStamp s.stamps = true ∧ s.req s.cur.n = some q ∧
      (q.lanes.filter fun l => l.pa / 64 == 1) = q.lanes ∧ q.lanes.length = 1 ∧ mustWait s q 1 = false ∧
      ∀ e ∈ (s.stack (stackOf (1 * 64 % 2 ^ 40))).repeats, ¬(e.1 = q.id ∧ e.2.1 = 1)) ∧
    (let q := { rq .store (.st mf 3) 0 0x78 with id := 6 }
     let s := rqS (rq .store (.st mf 3) 0 0x78)
     mustWait { s with chip := { s.chip with reqs := s.chip.reqs ++ [q] } } q 1 = true) := by decide
def netS (q : Req) : State :=
  let s := rqS q
  { s with cur := obj 1, net := { s.net with portq := [(1, [(5, 1)])], swq := [(1, [(5, 1)])], mirq := [(1, [(5, 1, List.replicate 64 3)])] } }
theorem witness_FabricAccesses :
    (∀ q ∈ [rq .load (.ld mf 3 false) 2 0x78, rq .load (.ld mf 3 false) 1 0x78], let s := netS q
      s.net.isolated = false ∧ assoc s.net.portq s.cur.n = some [(5, 1)] ∧ s.req 5 = some q ∧ assoc s.net.swq s.cur.n = some [(5, 1)]) ∧
    (let q := rq .store (.st mf 3) 2 0x78
     let s := { rqS q with cur := secObj 5 1 }
     Memory.wf s.mem = true ∧ Sparse.wf unlistedStamp s.stamps = true ∧ s.req s.cur.n = some q ∧ s.cur.co = 1 ∧ 1 ∈ q.sectors ∧
     mustWait s q 1 = false ∧ (q.lanes.filter fun l => l.pa / 64 == 1) = q.lanes ∧ s.net.failed.contains (swOf 1) = false) ∧
    (let q := { rq .store (.st mf 3) 2 (2 ^ 42 + 0x78) with mir := true }
     let s := { rqS q with cur := secObj 5 (2 ^ 36 + 1) }
     s.req s.cur.n = some q ∧ q.sectors = [2 ^ 36 + 1] ∧ q.mir = true ∧ s.net.failed = [] ∧ bits s.chip.orchst 0 2 = 0) ∧
    (let s := { netS (rq .store (.st mf 3) 2 0x78) with cur := ⟨0, 1, 0⟩ }
     assoc s.net.mirq s.cur.co = some [(5, 1, List.replicate 64 3)]) := by decide
def owner (g : Issuer → Issuer) (q : Req) : State :=
  let s := tst true id g
  { s with cur := obj 5, chip := { s.chip with reqs := [q] } }
theorem witness_RepliesAndRetries :
    (let q := { rq .load (.ld mf 3 false) 0 0x78 with sectors := [], results := [(0, [7])] }
     let s := owner id q
     s.req s.cur.n = some q ∧ q.psn = false ∧ q.stat ≠ 2 ∧ q.chk = false ∧ q.space = 0 ∧
     (let p := { q with psn := true }
      let s := owner (fun me => { me with rcount := 2 }) p
      s.req s.cur.n = some p ∧ p.psn = true ∧ (s.coreOf p.w).lean = false ∧ (s.iss p.w).rcount + 1 ≤ (s.iss p.w).rlimit ∧
        (s.iss p.w).regions ≠ [])) ∧
    (let q := { rq .atom (.atom mf true .add) 0 0x78 with results := [(0, [7])] }
     (owner id q).req 5 = some q ∧ q.psn = false ∧ q.stat ≠ 1 ∧ q.stat ≠ 2 ∧ q.results ≠ [] ∧
     (∀ p ∈ [{ q with stat := 1 }, { q with stat := 2 }, { q with psn := true }],
       let s := owner (fun me => { me with rcount := 2 }) p
       s.req 5 = some p ∧ (p.psn = true ∨ p.stat = 1 ∨ p.stat = 2) ∧ (s.iss p.w).rcount + 1 ≤ (s.iss p.w).rlimit)) ∧
    (let q := rq .store (.st mf 3) 0 0x78
     let s := owner id q
     s.req 5 = some q ∧ q.acks ≤ 1 ∧ q.fchip = 0 ∧ q.fsw = 0 ∧ q.stat = 0 ∧ bits 0x100000 0 20 = 0 ∧ bits 0xFFFFF 0 20 ≠ 0 ∧
       (s.coreOf q.w).blockOf q.w.n = some 0 ∧ ((s.coreOf q.w).blocks.find? fun b => b.idx == 0) = some {}) ∧
    (let h : Held := ⟨.atom mf true .add, [⟨0, 0x2000000000000040, 2, 0x40, [7, o2]⟩], [], [], 0, 0, 1⟩
     let s := tlb (tst true id fun me => { me with retry := some ⟨h, 9, true⟩ }) o2
     (s.iss s.cur).retry = some ⟨h, 9, true⟩ ∧
       transLanes s s.cur.cl (s.coreOf s.cur).ptw .atom (h.lanes.map fun l => (l.lane, l.va)) =
         (.ok [(0, 0x2000000000000040, 0x40, o2)], s)) :=
  ⟨by decide, by decide, by decide, rfl, trans2 (.inr (.inr (.inr rfl)))⟩
def tlbE : TlbE := ⟨0, 2, 0, o2, 0, 0, false⟩
def walkS : State := { warp with
  cur := obj 3
  chip := { walks := [⟨3, [0], tlbE, true, 50, 0, .reads, false⟩], invs := [⟨3, [3], some ⟨0, 0, 0⟩, []⟩], clusters := [{ cl := 0, tlb := [tlbE] }] } }
theorem witness_Translation :
    (∀ b ∈ [true, false], ∀ g ∈ [WalkStage.lookup, .waits, .reads], ∀ sh ∈ [true, false],
      let s := { walkS with chip := { walkS.chip with walks := [⟨3, [0], tlbE, b, 50, 0, g, sh⟩] } }
      (s.chip.walks.find? fun v => v.id == s.cur.n) = some ⟨3, [0], tlbE, b, 50, 0, g, sh⟩ ∧ (s.chip.walks.map (·.id)).Nodup ∧
      (s.chip.walks.filter fun j => j.stage == .reads).length ≤ 64) ∧
    (let s := walkS.updIss ⟨0, 0, 0⟩ fun me => { me with wait := .inv 3 }
     (s.chip.invs.find? fun i => i.id == s.cur.n) = some ⟨3, [3], some ⟨0, 0, 0⟩, []⟩ ∧ (s.iss ⟨0, 0, 0⟩).wait = .inv 3) ∧
    Memory.wf walkS.mem = true ∧ Sparse.wf unlistedStamp walkS.stamps = true ∧ 3 < spaceOf 0x4000000000000000 ∧
    bits 0x0800000000000000 51 9 ≠ 0 ∧
    (let s := walkS
     ¬3 < spaceOf 0x2000000000007FFF ∧ ¬bits 0x2000000000007FFF 51 9 ≠ 0 ∧
       ((s.chip.cluster 0).tlb.find? fun e => e.hits ((0 : DWord).toNat % 64) ((0x2000000000007FFF : DWord).toNat % 2 ^ 51)) = some tlbE) ∧
    (bits o3 9 6 = 0 ∧ leafSpace o3 = 3 ∧ formedOk 3 (frame o3 + 0x40) = true) := by decide
def strikeS (k : Nat) : State :=
  let rs : List Region := if k = 0 then [{ num := 1, opened := 50 }] else [{ num := 1, opened := 10, closed := some 20 }, { num := 2, opened := 50 }]
  { tst true (fun c => { c with issuers := [{ slot := 16, regions := rs, rcount := 2 }] }) id with cur := ⟨0, 0, 0⟩ }
theorem witness_RecoveryEvents :
    (∀ k ∈ [0, 1], let s := strikeS k
      let c := s.core 0 0
      (s.cores.filter fun d => d.cl == 0 && d.active) = [c] ∧ c.co = 0 ∧ c.vers = [] ∧ c.lean = false ∧
      ∃ i, c.issuers = [i] ∧ i.regions.findIdx? (fun r => r.contains 60) = some k ∧ i.regions[k]?.isSome = true ∧
        (k = 0 → i.rcount + 1 ≤ i.rlimit)) ∧
    (let c := (strikeS 0).core 0 0; c.bpc = 1 ∧ c.blocks.map (·.idx) = [0]) := by
  refine ⟨fun k hk => ?_, by decide⟩
  simp only [List.mem_cons, List.not_mem_nil, or_false] at hk
  rcases hk with rfl | rfl <;> exact ⟨by decide, by decide, by decide, by decide, _, rfl, by decide, by decide, by decide⟩
def rindS (ov : Bool) : State := tst true (fun c => { c with
  blocks := [{ ivals := [{ overflow := ov, issuers := [{ slot := 16, pcs := [0] }] }] }] }) id
theorem witness_BlockRollback : ∀ ov ∈ [true, false], let c := (rindS ov).core 0 0
    ∃ b iv, c.blocks = [b] ∧ b.idx = 0 ∧ b.ended = false ∧ b.ivals = [iv] ∧ iv.overflow = ov ∧ iv.rolls = 0 ∧
      ∃ p, iv.issuers = [p] ∧ p.wait ≠ .ended := by
  intro ov h
  simp only [List.mem_cons, List.not_mem_nil, or_false] at h
  rcases h with rfl | rfl <;> exact ⟨_, _, rfl, rfl, rfl, rfl, rfl, rfl, _, rfl, by decide⟩
def stackS (x : Stack) : State := { warp with cur := obj 1, chip := { hbm := [(1, x)] } }
theorem witness_MemoryMaintenance :
    (∀ e ∈ (stackS { errs := [(3, 1)] }).chip.hbm, e.2.copies = []) ∧
    (let st := (stackS { writebacks := [4, 5, 6] }).stack 1
     st.repeats = [] ∧ st.copies = [] ∧ st.backlog = [] ∧ 24 / 8 ≤ st.writebacks.length) ∧
    (∀ k ∈ [1, 2], ((stackS { backlog := [(3, k)] }).stack 1).backlog = [(3, k)]) ∧
    (let s := { warp with chip := { sched := { running := true } } }
     s.chip.sched.running = true ∧ s.chip.sched.faulted = false) := by decide
def barS : State :=
  { tst false (fun c => { c with blocks := [{ doneAt := some 100 }], issuers := [{ slot := 0, wait := .block (.bar m0) .wait [0] [] 50 0 }] }) id
    with cur := ⟨0, 0, 0⟩ }
def ssS (st : Stage) : State :=
  { tst false (fun c => { c with modew := 4, issuers := [{ slot := 0, wait := .block (.ssync m0) st [0] [] 50 0 }] }) id with
    chip := { sched := { running := true }, clusters := [{ mask := 5 }] } }
theorem witness_PhasesAndBoundaries :
    (((barS.core 0 0).block 0).doneAt = some barS.tick ∧ 0 ∈ (barS.core 0 0).liveParties 0 ∧ ((barS.core 0 0).liveParties 0).Nodup ∧
      waitsBar ((barS.core 0 0).iss 0) = some 0) ∧
    (let s := { warp with cur := obj 4095, chip := { phasers := [(4095, { due := some 100, phase := 2 ^ 32 - 1, arr1 := 2, psn1 := true })] } }
     (s.phaser 4095).due = some 100 ∧ 100 ≤ s.tick ∧ ((s.phaser 4095).members.all fun m => m.inEffect && !m.drop) = true) ∧
    (∀ st ∈ [Stage.wait, .commit],
      let s := ssS st
      s.chip.sched.running = true ∧ s.chip.sched.faulted = false ∧ s.chip.sched.resync = none ∧
      (∀ c ∈ s.chip.colls, c.started = true → c.ended = true) ∧ (ssgCores s).length = 1 ∧
      ∀ c ∈ ssgCores s, ∀ i ∈ c.issuers, i.wait ≠ .ended ∧ ((waitsSsync i).isSome = true ↔ st = .wait)) := by decide
/-- A table of two frames of 40 ticks, the second the last and a superstep's end. -/
def tbl : List DWord := [2, 0, 0, 0, 0, 0, 0, 0, 0, 40, 0, 0, 0, 0, 0, 0, 40, BitVec.ofNat 64 (40 + 5 * 2 ^ 32), 0, 0, 0, 0, 0, 0]
def schS (q : Sched) (n : Nat) : State := { warp with cur := obj n, chip := { sched := { q with words := tbl, loaded := true } } }
theorem witness_ScheduleFrames :
    (∀ s ∈ [schS { frameStart := 100 } 0, schS { running := true, frameStart := 60 } 1, schS { resync := some 100, running := true } 0],
      s.chip.sched.next = none ∧ frameDue s s.cur.n = true) ∧
    (let q := (schS { running := true, frame := 1, frameStart := 60, frameLen := 40 } 1).chip.sched
     q.running = true ∧ q.resync = none ∧ q.frameStart + q.frameLen = 100) ∧
    (∀ k ∈ [1, 2], let q := (schS { running := true, resyncs := k } 0).chip.sched
     q.running = true ∧ q.resync = none ∧ q.nocount = false ∧ (3 ≤ q.resyncs + 1 ↔ k = 2)) := by decide
theorem witness_TimeAndFreezes :
    (warp.frozen = none ∧ warp.tick < 101 ∧ 100 ≤ warp.tick ∧ warp.dbg.rlogOn = false) ∧
    ({ warp with frozen := some 90 } : State).frozen = some 90 ∧
    (warp.fw.ptpLocked = false ∧ bit warp.chip.sstep 32 = false) := by decide
def wins1 (e : Win) (f : Core → Core) : State := { tst true (fun c => f { c with wins := [(0, { e with v := true })], handles := [.idx 0] }) id with cur := ⟨0, 0, 0⟩ }
def recvW (st : WState) (count : Nat) : Win := { state := st, sbase := 0x7FF80, rows := 2, rbytes := 64, sstride := 64
                                                 prods := [{ kind := 1, valid := true, pid := 2, share := 128, count := count }] }
def dlv : Delivery := ⟨0, 0, 0x7FFC0, 1, 2, false, List.replicate 64 9⟩
/-- A stream word that binds drains of window 0 of core 0 of a chip. -/
def entOf (n : Nat) : DWord := BitVec.ofNat 64 (5 + n * 2 ^ 12 + 7 * 2 ^ 40)
theorem entOf_bits (n : Nat) (h : n < 1024) : bits (entOf n) 0 12 = 5 ∧ bits (entOf n) 12 10 = n ∧ bits (entOf n) 22 6 = 0 ∧
    bits (entOf n) 28 6 = 0 ∧ bits (entOf n) 34 6 = 0 ∧ bits (entOf n) 40 10 = 7 := by
  simp only [entOf, bits, BitVec.toNat_ofNat]
  omega
@[irreducible] def strEnt : DWord := entOf chipNo
theorem strEnt_bits : bits strEnt 0 12 = 5 ∧ bits strEnt 12 10 = chipNo ∧ bits strEnt 22 6 = 0 ∧ bits strEnt 28 6 = 0 ∧
    bits strEnt 34 6 = 0 ∧ bits strEnt 40 10 = 7 := by
  unfold strEnt
  exact entOf_bits chipNo chip_lt
def strS : State := { wins1 { recvW .draining 128 with hstride := 64 } (fun c => { c with drains := [⟨0, 1, 2, 0, 0, none, none⟩] }) with
  chip := { sched := { running := true, words := [0, 0, 0, 40, 1, strEnt] } } }
theorem str_of : streamOf strS 0 0 0 = some (5, 7) := by
  have hw : strS.chip.sched.words = [0, 0, 0, 40, 1, strEnt] := rfl
  have h3 : strS.chip.sched.running = true := rfl
  have h4 : bits 40#64 0 32 = 40 := by decide
  have h5 : bits 1#64 0 32 = 1 := by decide
  obtain ⟨a, b, c, d, e, f⟩ := strEnt_bits
  simp [streamOf, hw, h3, nth, h4, h5, a, b, c, d, e, f, List.range_succ]
theorem witness_WindowDeliveries :
    (∀ s ∈ [wins1 (recvW .absent 0) id, wins1 (recvW .filling 64) id],
      Memory.wf s.mem = true ∧ Sparse.wf unlistedStamp s.stamps = true ∧
      (((s.core 0 0).winsAt dlv.off).map (·.1)) = [0] ∧ ((s.core 0 0).wcmds.all fun x => x.win != 0) = true ∧
      ∃ p, (((s.core 0 0).win 0).valid.find? fun p => p.kind == dlv.kind && p.pid == dlv.pid) = some p ∧
        p.count + dlv.data.length ≤ p.share ∧ dlv.off % 64 + dlv.data.length ≤ 64) ∧
    (((wins1 (recvW .full 0) id).core 0 0).win 0).state ≠ .absent ∧ (((wins1 (recvW .full 0) id).core 0 0).win 0).state ≠ .filling ∧
    (128 < 65 + dlv.data.length) ∧
    -- a drain's sector to a stream, over the crossbar, to memory
    (streamOf strS 0 0 0 = some (5, 7) ∧ ((strS.coreOf strS.cur).drains.find? fun d => d.win == 0) = some ⟨0, 1, 2, 0, 0, none, none⟩) ∧
    (∀ sp ∈ [4, 5], let s := wins1 { recvW .draining 128 with home := BitVec.ofNat 64 (sp * 2 ^ 60), hstride := 64 } (fun c => { c with drains := [⟨0, 1, 2, 0, 0, none, none⟩] })
      ((s.coreOf s.cur).drains.find? fun d => d.win == 0) = some ⟨0, 1, 2, 0, 0, none, none⟩ ∧ streamOf s 0 0 0 = none ∧
      3 < spaceOf (((s.coreOf s.cur).win 0).sector 1).1 ∧ ∃ q, poolAddr 0 (((s.coreOf s.cur).win 0).sector 1).1 = some q ∧
        q.2 + 64 ≤ (s.core 0 q.1).scSize) ∧
    (let s := tlb (wins1 { recvW .draining 128 with home := 0x2000000000000000, hstride := 64 } (fun c => { c with drains := [⟨0, 1, 2, 0, 0, none, none⟩] })) o2
     (((s.coreOf s.cur).win 0).sector 1).1 = 0x2000000000000040 ∧ s.dbg.watches = [] ∧ s.chip.sched.running = false ∧
      Machine.translate s 0 (s.coreOf s.cur).ptw .write 0x2000000000000040 = (.ok (0x40, o2), s) ∧ spaceOf 0x2000000000000040 = 2) ∧
    (let s := wins1 (recvW .draining 128) id
     ((s.coreOf s.cur).win 0).state = .draining ∧ ((s.coreOf s.cur).wcmds.all fun x => x.win != 0) = true) := by
  refine ⟨fun s hs => ?_, by decide, by decide, by decide, ⟨str_of, by decide⟩, fun sp h => ?_, ⟨by decide, rfl, rfl, ?_, by decide⟩, by decide⟩
  · simp only [List.mem_cons, List.not_mem_nil, or_false] at hs
    rcases hs with rfl | rfl <;> exact ⟨rfl, rfl, by decide, by decide, _, rfl, by decide, by decide⟩
  · simp only [List.mem_cons, List.not_mem_nil, or_false] at h
    rcases h with rfl | rfl <;> exact ⟨by decide, by decide, by decide, _, rfl, by decide⟩
  · exact trans_at (by decide) (by decide) (by decide)
def mmaI : Instr := .mma ⟨false, .mx8e4, .mx8e4, .f32, 5, 1, 2, true⟩ false false
def gathI : Instr := .mgath false .mx8e4 0 1 true
def matS (n : Nat) (e0 : Win) (f : Core → Core) : State :=
  { tst true (fun c => f { c with
      handles := [.idx 0, .idx 1, .idx 2], wins := [(0, e0), (1, bigW .mx8e4), (2, bigW .mx8e4)] }) id with cur := ⟨0, 0, n⟩ }
def hMma : Held := ⟨mmaI, [], [], [1, 2], 0, 0, 1⟩
def ver5 : Ver := ⟨3, 5, 0, 100, 100, false, [(0, 1), (4095, 2)], false, hMma⟩
theorem witness_MatrixPipeline :
    (let e : Win := { v := true, arm := true, followWins := [1, 2], follow := 0x7088000144A00000 }
     let c := (matS 0 e id).core 0 0
     (c.win 0).v = true ∧ (c.win 0).arm = true ∧ c.matBusy ≤ 100 ∧ (∀ n ∈ e.followWins, (c.win n).state = .full) ∧
     c.vers.length < 8 ∧ (assoc c.tileFault 5).isSome = false ∧
     decode (Env.wide true 3) e.follow = .ok mmaI ∧ (∃ k, decode (Env.wide true 3) 0 = .error k) ∧ destTile mmaI = some 5 ∧
     (assoc ((matS 0 e fun c => { c with tileFault := [(5, [])] }).core 0 0).tileFault 5).isSome = true ∧
     operandFault (lockWins (c.setWin 0 { e with arm := false }) e.followWins) mmaI e.followWins = none ∧
     (∀ o l, mmaI ≠ .mma o true l) ∧ (∀ o, mmaI ≠ .epi o)) ∧
    (let q : MCmd := ⟨hMma, 0, 0, none⟩
     let c := (matS 0 {} fun c => { c with matq := [q] }).core 0 0
     c.halt = false ∧ (∀ p ∈ c.matq, doomed c p = none) ∧ readyFollow c = none ∧ c.matq = [q] ∧
     (∀ n ∈ q.h.wins, (c.win n).state ≠ .faulted ∧ winReady (c.win n) = true) ∧ c.matBusy ≤ 100 ∧ retireRoom c q.h.i = true ∧
     operandFault c q.h.i q.h.wins = none) ∧
    (let q : MCmd := ⟨{ hMma with wins := [1, 3] }, 0, 0, none⟩
     let c := (matS 0 {} fun c => { c with matq := [q], wins := c.wins ++ [(3, { bigW .mx8e4 with rows := 63 })] }).core 0 0
     c.matq = [q] ∧ (∀ p ∈ c.matq, doomed c p = none) ∧ (∀ n ∈ q.h.wins, (c.win n).state ≠ .faulted ∧ winReady (c.win n) = true) ∧
     operandFault c q.h.i q.h.wins = some (2, 3)) ∧
    ((matS 0 {} id).core 0 0).wcmds = [] ∧
    (let a : Arming := ⟨5, ⟨false, .f32, .f32, 5, 0, false, false, 0, 0, .rne, false⟩, {}, 100, hMma, 0⟩
     let c := (matS 3 {} fun c => { c with vers := [ver5], arms := [a] }).core 0 0
     (c.vers.find? fun v => v.id == 3) = some ver5 ∧
     triggers c ver5 = some a ∧ ver5.stale = false ∧
     (({ ver5 with stale := true } :: []).find? fun v => v.id == 3) = some { ver5 with stale := true } ∧
     Sparse.wf (0 : Word) c.accC = true ∧ Sparse.wf (0 : Word) ver5.data = true ∧ ∀ e ∈ ver5.data, e.1 < 4096) ∧
    (let q : MCmd := ⟨⟨gathI, [], List.replicate 64 0, [1], 0, 0, 1⟩, 0, 0, none⟩
     (let c := (matS 0 {} fun c => { c with gatq := [q] }).core 0 0
      c.gatRun = none ∧ c.halt = false ∧ c.gatq = [q] ∧ (∀ p ∈ c.gatq, faultedWin c p = none) ∧
      operandFault c q.h.i q.h.wins = none ∧ winReady (c.win (nth q.h.wins 0 0)) = true ∧ latchBusy c 100 q.lock true = false) ∧
     ((matS 0 {} fun c => { c with gatRun := some q }).core 0 0).gatRun = some q) := by
  refine ⟨⟨by decide, by decide, by decide, by decide, by decide, by decide, by rfl, ⟨_, rfl⟩, by decide, by decide, by decide, ?_, ?_⟩, by decide, by decide, by decide, by decide, by decide⟩
  · intro o l h; cases h
  · intro o h; cases h
def epiE (aos : Bool) : EpiF := ⟨false, .f32, .f32, 5, 0, true, aos, 0, 0, .rne, false⟩
def job (row : Nat) (base : DWord) (sends : List (DWord × List Byte)) (aos : Bool) : EpJob :=
  ⟨3, epiE aos, { base := base, rstride := 256, alpha := 0x3F800000 }, [], row, 0, none, sends, 0, 100, 0, false, hMma, 0⟩
def jobS (j : EpJob) : State := matS 3 {} fun c => { c with jobs := [j] }
theorem witness_EpilogueRows (row : Nat) (hr : row = 0 ∨ row = 63) (b : DWord) :
    let j := job row b [] false
    Memory.wf (jobS j).mem = true ∧ Sparse.wf unlistedStamp (jobS j).stamps = true ∧
    (((jobS j).core 0 0).jobs.find? fun j => j.id == 3) = some j ∧ j.row < 64 ∧ j.stopped = false ∧ j.sends[j.sent]? = none :=
  ⟨rfl, rfl, rfl, show row < 64 by omega, rfl, rfl⟩
theorem witness_EpilogueSends (aos : Bool) :
    (let j := job 5 0 [(0x5000000001000000, List.replicate 64 1)] aos
     (((jobS j).core 0 0).jobs.find? fun j => j.id == 3) = some j ∧ j.sends[j.sent]? = some (0x5000000001000000, List.replicate 64 1) ∧
     spaceOf 0x5000000001000000 = 5 ∧ poolAddr 0 0x5000000001000000 = some (1, 0)) ∧
    (let j := job 5 0 [(0x2000000000000040, List.replicate 64 1)] aos
     let s := tlb (jobS j) o2
     (((s.core 0 0).jobs.find? fun j => j.id == 3) = some j) ∧ s.dbg.watches = [] ∧
     Machine.translate s 0 (s.core 0 0).ptw (if aos then .aos else .write) 0x2000000000000040 = (.ok (0x40, o2), s) ∧
     (spaceOf 0x2000000000000040 == 0) = false) := by
  refine ⟨⟨rfl, rfl, by decide, by decide⟩, rfl, rfl, ?_, by decide⟩
  cases aos <;> exact trans_at (by decide) (by decide) (by decide)
theorem witness_AddOnStores :
    (let q := { rq .aos mmaI 5 0 with sectors := [0x7FFC0], data := List.replicate 64 1 }
     let s := rqS q
     s.req 5 = some q ∧ 4 ≤ q.space ∧ ((s.core 0 0).winsAt 0x7FFC0 = []) ∧ 0x7FFC0 + q.data.length ≤ (s.core 0 0).scSize ∧
     (∀ k, k < q.data.length → (s.core 0 0).locked s.tick (0x7FFC0 + k) = false) ∧ 0x7FFC0 % 64 + q.data.length ≤ 64) ∧
    (let q := { rq .aos mmaI 5 0 with sectors := [0x7FF80], data := List.replicate 64 1 }
     let s := wins1 (recvW .full 0) id
     let u := { s with cur := obj 5, chip := { s.chip with reqs := [q] } }
     u.req 5 = some q ∧ (((u.core 0 0).winsAt 0x7FF80).map (·.1)) ≠ []) ∧
    (let q := rq .aos mmaI 2 0x40; (rqS q).req 5 = some q ∧ q.sectors = [1] ∧ q.space < 4) :=
  ⟨⟨rfl, by decide, by decide, by decide, fun k _ => rfl, by decide⟩, ⟨rfl, by decide⟩, rfl, rfl, by decide⟩
/-- Stream 3 of a core, changed by h, with its command at scratchpad offset 0x7FFC0. -/
def stmS (word : DWord) (h : Stream → Stream) (f : Core → Core) : State :=
  ({ matS 3 {} (fun c => f { c with
      scInit := [(0x1FFF, true)], streams := [{}, {}, {}, h { running := true, pos := 0x7FFC0 }], phBase := 4095, phCnt := 1 }) with
    tick := 103 }).setBytes (keySp 0 0 0x7FFC0) (toBytes 8 word.toNat)
theorem witness_StreamStarts (word : DWord) (h : word = 0x0700000000000000 ∨ word = 0x0100000000000000 ∨
      word = 0x0000000000100000 ∨ word = 0x7F00000000000000) :
    let s := stmS word id id
    let c := s.core 0 0
    Memory.wf s.mem = true ∧ Sparse.wf unlistedStamp s.stamps = true ∧ c.halt = false ∧ c.parked.contains 17 = false ∧ c.strAt ≤ s.tick ∧
    (((List.range 4).map fun k => (⟨0, 0, (s.tick + k) % 4⟩ : Iss)).find? (streamReady s)) = some ⟨0, 0, 3⟩ ∧
    (s.stream ⟨0, 0, 3⟩).wait = .ready := by
  rcases h with rfl | rfl | rfl | rfl <;> decide +kernel
theorem witness_StreamNext : (streamNext (stmS 0x0100000000000000 id id) ⟨0, 0, 3⟩ = some (some (.efill 0, 1))) ∧
    (streamNext (stmS 0x7F00000000000000 id id) ⟨0, 0, 3⟩ = some none) ∧
    (streamNext (stmS 0 (fun x => { x with pos := 0x7FF80 }) id) ⟨0, 0, 3⟩ = none) := ⟨by rfl, by rfl, by rfl⟩
theorem witness_StreamCommands :
    -- copies from a scratchpad, and one with a bad address
    (let s := stmS 0 id id
     let sa : DWord := 0x500000000007FFC0
     (sa + dw (((s.stream ⟨0, 0, 3⟩).iter : Int) * sext 32 (bits 0 0 32)) = sa) ∧ sa.toNat % 64 = 0 ∧ spaceOf sa ≤ 5 ∧ 3 < spaceOf sa ∧
     (s.stream ⟨0, 0, 3⟩).fault = none ∧
     (∀ k, k < 1 → spaceOf (sa + BitVec.ofNat 64 (64 * k)) = spaceOf sa ∧
       poolAddr 0 (sa + BitVec.ofNat 64 (64 * k)) = some (0, 0x7FFC0 + 64 * k) ∧ 0x7FFC0 + 64 * k + 64 ≤ (s.core 0 0).scSize)) ∧
    ¬((0x500000000007FFC1 : DWord).toNat % 64 = 0 ∧ spaceOf 0x500000000007FFC1 ≤ 5) ∧
    -- windows
    (let c := (stmS 0 id id).core 0 0
     c.handleWin 1 = some 1 ∧ (c.win 1).state = .full ∧ (c.wcmds.all fun x => x.win != 1) = true ∧ c.handleWin 15 = none ∧
     c.handleWin 2 = some 2 ∧ (c.win 2).state = .full ∧ assoc c.tileFault 5 = none) ∧
    (let word : DWord := 0x0388000144A00000
     let iw := BitVec.ofNat 64 ((0x70 + bits word 37 3) * 2 ^ 56 + bits word 40 16 * 2 ^ 40 + bits word 0 37)
     decode { Env.wide true 3 with tiles := 4 * ((stmS 0 id id).core 0 0).acc } iw = .ok mmaI) ∧
    -- phasers
    (let s := stmS 0 id id
     let m : Member := ⟨⟨0, 0, 3⟩, 0, true, .sw, 0, 0, true, false, []⟩
     s.phaser 4095 = {} ∧ (s.core 0 0).phOk (4095 : BitVec 12).toNat = true ∧ (s.core 0 0).phOk (4094 : BitVec 12).toNat = false ∧
     (s.phaser 4095).member ⟨0, 0, 3⟩ 0 true = none ∧ ((s.phaser 4095).arr, (s.phaser 4095).arr1) = (s.phaser 4095).signalsAt s.tick ∧
     ({ members := [m] } : Phaser).doneAt s.tick = false ∧ ({ members := [m], phase := 5, lastDone := s.tick } : Phaser).doneAt s.tick = true ∧
     m.v + 4 < 5 ∧
     (∀ n ∈ [m, { m with mode := .wait }], let u := { s with chip := { s.chip with phasers := [(4095, { members := [n] })] } }
       (u.phaser 4095).member ⟨0, 0, 3⟩ 0 true = some n ∧ n.drop = false ∧ n.inEffect = true ∧ (signals n.mode = true ↔ n.mode = .sw))) ∧
    -- the end, and a command that waits for its stream
    (let s := stmS 0 id id; ((s.core 0 0).efq.find? fun e => e.1 == 3) = none) ∧
    (let s := stmS 0 id (fun c => { c with efq := [(3, hMma)] }); ((s.core 0 0).efq.find? fun e => e.1 == 3) = some (3, hMma)) := by
  refine ⟨by decide, by decide, by decide, by rfl, by decide, by decide, by decide⟩
def cpS (dst : DWord) (psn : Bool) : State :=
  let q := { rq .copyRd mmaI 4 0 with w := ⟨0, 0, 3⟩, dest := [(0, 1)], sectors := [], data := List.replicate 64 1, psn := psn, aux := 1 }
  let s := matS 3 {} fun c => { c with wins := [], streams := [{}, {}, {}, { running := true, copies := [⟨1, 2, 0, dst, 0, false⟩] }] }
  { s with chip := { s.chip with reqs := [q] } }
theorem witness_CopyToPool :
    let s := cpS 0x400000000007FF80 false
    ∃ q, s.req 5 = some q ∧ copyDest s q = some 0x400000000007FFC0 ∧ 3 < spaceOf 0x400000000007FFC0 ∧
      (∀ p ∈ s.chip.reqs, p.kind = .copyRd → p.w = q.w → nth (q.dest.map (·.2)) 0 0 ≤ nth (p.dest.map (·.2)) 0 0) ∧
      poolAddr q.w.co 0x400000000007FFC0 = some (0, 0x7FFC0) ∧ ((s.core q.w.cl 0).winsAt 0x7FFC0).isEmpty = true ∧
      0x7FFC0 + q.data.length ≤ (s.core q.w.cl 0).scSize ∧
      (∀ j, j < q.data.length → (s.core q.w.cl 0).locked s.tick (0x7FFC0 + j) = false) ∧ 0x7FFC0 % 64 + q.data.length ≤ 64 :=
  ⟨_, rfl, by decide, by decide, by decide, by decide, by decide, by decide, fun j _ => rfl, by decide⟩
def cpQ : Req := { rq .copyRd mmaI 4 0 with w := ⟨0, 0, 3⟩, dest := [(0, 1)], sectors := [], data := [], aux := 1 }
def cpU : State :=
  let s := cpS 0x2000000000000000 false
  { s with chip := { s.chip with reqs := [] } }
def cpT : State := { tlb cpU o2 with chip := { (tlb cpU o2).chip with reqs := [cpQ] } }
theorem cpT_del : cpT.delReq 5 = tlb cpU o2 := rfl
theorem witness_CopyToMemory : cpT.req 5 = some cpQ ∧ copyDest cpT cpQ = some 0x2000000000000040 ∧ spaceOf 0x2000000000000040 ≤ 3 ∧
    cpQ.psn = false ∧ (cpT.coreOf cpQ.w).ptw = 0 ∧ cpQ.badSecs = [] ∧ cpQ.chk = false ∧
    Machine.translate (cpT.delReq 5) 0 0 .write 0x2000000000000040 = (.ok (0x40, o2), tlb cpU o2) := by
  rw [cpT_del]
  exact ⟨rfl, by decide, by decide, rfl, rfl, rfl, rfl, trans_at (by decide) (by decide) (by decide)⟩
theorem witness_DqWordPoppable :
    let s := tst false (fun c => { c with dq := [(100, 5)] }) fun me => { me with wait := .dqpop 510 [0, 31] }
    (s.core 0 0 |>.iss 0).wait = .dqpop 510 [0, 31] ∧ dqNext (s.core 0 0) ((s.core 0 0).iss 0) s.tick = some 5 := by decide
/-- A collective of the front thread's slot 0: operation, algorithm, ranks; COLLID 3, FP32, three elements in chunks of one. -/
def col (op alg ranks : Nat) : Coll :=
  { id := 5, owner := some ⟨0, 0, 16⟩, slot := 0, h := none
    block := [BitVec.ofNat 64 (op + alg * 2 ^ 20 + 3 * 2 ^ 24), 0, 0x4000000000000000, 0x4000000000000100, 3, 1]
    ranks := ranks, rank := 0, started := false, outs := [], acc := [], got := [], status := 0, reason := 0, ended := false, phaser := none }
/-- A word that binds what stream 7 brings to this chip to core 0. -/
def bindOf (n : Nat) : DWord := BitVec.ofNat 64 (7 + n * 2 ^ 40)
theorem bindOf_bits (n : Nat) (h : n < 1024) : bits (bindOf n) 0 12 = 7 ∧ bits (bindOf n) 40 10 = n ∧ bits (bindOf n) 50 6 = 0 ∧
    bits (bindOf n) 56 6 = 0 := by
  simp only [bindOf, bits, BitVec.toNat_ofNat]
  omega
@[irreducible] def bindEnt : DWord := bindOf chipNo
theorem bindEnt_bits : bits bindEnt 0 12 = 7 ∧ bits bindEnt 40 10 = chipNo ∧ bits bindEnt 50 6 = 0 ∧ bits bindEnt 56 6 = 0 := by
  unfold bindEnt
  exact bindOf_bits chipNo chip_lt
/-- A table of one frame of 400 ticks: send segments of streams 0x8003 and 7, and receive segments of both, on port 2. -/
def segs : List DWord := [1, 0, 0, 128, 1, 0, 0, 0, 0, 400, 0, 0, BitVec.ofNat 64 (136 + 4 * 2 ^ 32), 0, 0, 0, bindEnt,
  BitVec.ofNat 64 (2 + 0 * 2 ^ 4 + 10 * 2 ^ 16 + 0x8003 * 2 ^ 28), BitVec.ofNat 64 (2 + 10 * 2 ^ 4 + 10 * 2 ^ 16 + 7 * 2 ^ 28),
  BitVec.ofNat 64 (2 + 20 * 2 ^ 4 + 1 * 2 ^ 16 + 0x8003 * 2 ^ 28 + 2 ^ 44), BitVec.ofNat 64 (2 + 21 * 2 ^ 4 + 1 * 2 ^ 16 + 7 * 2 ^ 28 + 2 ^ 44)]
def colS (n : Nat) (c : Coll) : State :=
  { tst true id id with cur := obj n, chip := { colls := [c] } }
theorem witness_CollectiveStart (op alg ranks : Nat) (h : op = 0 ∧ alg = 0 ∧ ranks = 1 ∨ op = 0 ∧ alg = 2 ∧ ranks = 2 ∨ op = 0 ∧ alg = 1 ∧ ranks = 2) :
    let c := col op alg ranks
    let s := colS 3 c
    (s.chip.colls.find? fun c => c.collid == s.cur.n && !c.started && !c.ended) = some c ∧ c.alg = alg ∧ c.ranks = ranks := by
  rcases h with ⟨rfl, rfl, rfl⟩ | ⟨rfl, rfl, rfl⟩ | ⟨rfl, rfl, rfl⟩ <;> exact ⟨rfl, by decide, rfl⟩
theorem witness_CollectiveReads :
    let c := { col 0 0 1 with started := true }
    let s := colS 3 c
    (readElems s c (nth c.block 2 0) 0 c.count).1 = .ok ([0, 0, 0], false) := by rfl
/-- Rank 0 of three, its first transfers done. -/
def colG : Coll := { col 0 0 3 with started := true, outs := [2 ^ 41, 2 ^ 40 + 1, 2], acc := [(2 ^ 40 + 2, 1)], got := [] }
theorem witness_CollectiveSteps :
    (let c := { col 0 0 3 with started := true }
     let s := colS 5 c
     s.coll s.cur.n = some c ∧ c.alg ≠ 2 ∧ c.ended = false ∧ c.nextSend = some ⟨0, 2, 2, 1, .red, 1⟩ ∧
     nth (nextSlots s (0x8000 + c.collid) (max c.txAt (s.tick * 16)) (chunkFlits c true []).length) 0 0 / 16 ≤ s.tick ∧ (hopValues s c ⟨0, 2, 2, 1, .red, 1⟩).1 = .ok [0]) ∧
    colG.nextSend = some ⟨3, 2, 2, 1, .forward, 1⟩ ∧
    (let h : Hop := ⟨0, 1, 1, 1, .red, 0⟩
     (colG.recvs.find? fun k => h.key == k.key) = some h) ∧
    (let h : Hop := ⟨2, 2, 2, 1, .first, 0⟩
     (colG.recvs.find? fun k => h.key == k.key) = some h) := by
  refine ⟨⟨rfl, by decide, rfl, by decide +kernel, by decide +kernel, by rfl⟩, by decide +kernel, by decide +kernel, by decide +kernel⟩
theorem witness_CollectiveDirect :
    (∀ op ∈ [0, 2], let c := { col op 2 2 with started := true }
     (colS 5 c).coll (colS 5 c).cur.n = some c ∧ c.ended = false ∧ c.alg = 2 ∧ (c.reduces = true ↔ op = 0)) ∧
    (let c := { col 0 2 2 with started := true }
     (readElems (colS 5 c) c (nth c.block 3 0) 0 1).1 = .ok ([0], false)) ∧
    (let c := col 0 2 2; (colS 5 c).coll 5 = some c ∧ c.started = false) := by
  refine ⟨fun op h => ?_, by rfl, by rfl, rfl⟩
  simp only [List.mem_cons, List.not_mem_nil, or_false] at h
  rcases h with rfl | rfl <;> exact ⟨rfl, rfl, by decide, by decide⟩
theorem witness_CollectiveEnd :
    (∀ r, let c := { col 0 0 r with started := true }
     let s := colS 5 c
     s.coll s.cur.n = some c ∧ c.ended = false ∧ c.started = true ∧ c.owner = some ⟨0, 0, 16⟩ ∧ c.phaser = none ∧
     (nth (s.coreOf ⟨0, 0, 16⟩).cslots c.slot {}).queue = [] ∧ (nth (s.coreOf ⟨0, 0, 16⟩).cslots c.slot {}).fault = none ∧
     (s.chip.reqs.any fun q => q.kind == .coll && q.aux == c.id) = false) ∧
    (let c := { col 0 0 3 with started := true, outs := [2 ^ 40 * 3 + 2, 2 ^ 41, 2 ^ 40 + 1, 2], got := [(0, 1), (1, 1), (2, 1), (3, 1), (4, 1)] }
     2 ≤ c.ranks ∧ c.alg ≠ 2 ∧ c.unsent = [] ∧ c.recvs.length ≤ c.got.length) ∧
    (let c := { col 0 2 2 with started := true, got := [(2 ^ 40, 1)] }
     2 ≤ c.ranks ∧ c.alg = 2 ∧ ∀ a ∈ directAwaits c, c.got.any (fun g => g.1 == a.1 * 2 ^ 40 + a.2) = true) ∧
    (let s := tst true (fun c => { c with cslots := [{ fault := some [] }] }) id
     (nth (s.coreOf ⟨0, 0, 16⟩).cslots 0 {}).fault.isSome = true) := by
  refine ⟨fun r => ⟨rfl, rfl, rfl, rfl, rfl, rfl, rfl, rfl⟩, by decide +kernel, by decide +kernel, by decide⟩
def flS (port : Nat) (t : Nat) : State := { tst true id id with
  tick := t, cur := obj port
  chip := { sched := { running := true, words := segs, frameLen := 400 }, colls := [{ col 0 0 3 with started := true }] }
  net := { sendq := [(7, [⟨0, true, [1]⟩])] } }
theorem witness_FlitSend : nextSlots (flS 7 50) 7 (50 * 16) 1 = [50 * 16 + 2] ∧ nextSlots (flS 7 51) 7 (51 * 16) 1 = [55 * 16 + 2] ∧
    (flS 7 50).net.isolated = false ∧ ((assoc (flS 7 50).net.sendq 7).getD []) = [⟨0, true, [1]⟩] := by
  refine ⟨by decide +kernel, by decide +kernel, rfl, rfl⟩
theorem witness_FlitReceive : slotStream (flS 2 100) 2 20 = some 0x8003 ∧ slotStream (flS 2 100) 2 21 = some 7 ∧
    recvBinding (flS 2 100) 7 = some (0, 0) ∧
    (let s := flS 2 100
     (s.chip.colls.find? fun c => 0x8000 + c.collid == 0x8003 && c.started && !c.ended) = s.coll 5 ∧ (s.coll 5).isSome = true ∧
     ∀ c ∈ s.coll 5, (c.rx ++ List.replicate 31 (1 : DWord)).length < 32 * max 1 (ceilDiv (c.chunk * c.wty.bits) 2048)) := by
  refine ⟨by decide +kernel, by decide +kernel, ?_, ⟨rfl, rfl, by decide⟩⟩
  have hw : (flS 2 100).chip.sched.words = segs := rfl
  obtain ⟨a, b, c, d⟩ := bindEnt_bits
  have h3 : nth segs 3 0 = 128 := rfl
  have h4 : nth segs 4 0 = 1 := rfl
  have h5 : tblDw segs (128 + 8 * 0) = bindEnt := rfl
  simp only [recvBinding, hw, h3, h4]
  simp [List.range_succ, h5, a, b, c, d]
/-! Firmware's reads and writes of a tenant's host memory and HBM, by a table of one level. -/

@[irreducible] def rootA : Nat := ownHbm 0xBC00000000
theorem rootA_eq : ∃ k, k < hbmTop ∧ k % 2 ^ 15 = 0 ∧ k + 16 ≤ hbmTop ∧ rootA = chipNo * 2 ^ 42 + k := by
  refine ⟨0xBC00000000, by decide, by decide, by decide, ?_⟩
  unfold rootA
  exact ownHbm_eq _
theorem root_facts : rootA < 2 ^ 52 ∧ rootA / 2 ^ 42 = chipNo ∧ hbmPart rootA = true ∧ rootA % 2 ^ 15 = 0 := by
  obtain ⟨k, h1, h2, _, e⟩ := rootA_eq
  have := chip_lt
  have hb : hbmTop = 0xC000000000 := rfl
  simp only [hbmPart, Bool.and_eq_true, beq_iff_eq, decide_eq_true_eq]
  omega
theorem frame_of (n : Nat) (h : n < 2 ^ 52) (h2 : n % 2 ^ 15 = 0) : frame (BitVec.ofNat 64 n) = n := by
  simp only [frame, bits, BitVec.toNat_ofNat]
  omega
/-- A level-0 leaf of host memory, and of this chip's HBM, of tenant 0. -/
def leafH : DWord := 0xCF
/-- What a root table's place must meet. -/
def rootOk (r : Nat) : Prop := r < 2 ^ 52 ∧ r / 2 ^ 42 = chipNo ∧ hbmPart r = true ∧ r % 2 ^ 15 = 0
/-- A state with a root table of one entry. -/
def pages (s : State) (r : Nat) (p0 : DWord) : State :=
  ({ s with chip := { s.chip with psnbase := psnB, sstep := 1#64 <<< 32, orchst := 0 }, fw := { s.fw with roots := [(0, r)] } }).setBytes
    (keyHbm r) (toBytes 8 p0.toNat)
theorem fwTrans_of {s : State} {t : Nat} {a : Acc} {addr : DWord} {l : Nat} {p : DWord} {b pa : Nat}
    (h1 : ¬(3 < spaceOf addr ∨ bits addr 51 9 ≠ 0)) (hw : walk s (tenantPt s t) (bits addr 0 51) = .leaf l p b)
    (hc : targetChecks s t (bits addr 0 51) (spaceOf addr) a (mkTlbE s t l (bits addr 0 51) p b) = .ok pa) :
    fwTrans s t a addr = some (memKey (spaceOf addr) pa) := by
  simp only [fwTrans, fwPlace, h1, if_false, hw, hc, Option.map_some]
theorem fwTrans_host (s : State) (r : Nat) (hr : rootOk r) (h : Memory.wf s.mem = true) (a : Acc) (ha : a = .load ∨ a = .store) (addr : DWord)
    (h1 : spaceOf addr = 3) (h2 : bits addr 51 9 = 0) (h3 : bits addr 0 51 < 2 ^ 39) :
    fwTrans (pages s r leafH) 0 a addr = some (keyHost (bits addr 0 51)) := by
  obtain ⟨r1, r2, r3, r4⟩ := hr
  have hc : (pages s r leafH).chip.psnbase = psnB ∧ (pages s r leafH).fw.roots = [(0, r)] := by
    rw [pages, State.setBytes_eq]; exact ⟨rfl, rfl⟩
  have hd : (pages s r leafH).dword (keyHbm r) = leafH := State.dword_setBytes _ h
  have ht : tenantPt (pages s r leafH) 0 = BitVec.ofNat 64 r := by
    have : r / 2 ^ 15 * 2 ^ 15 = r := by omega
    have e : (assoc (pages s r leafH).fw.roots 0).getD 0 = r := by rw [hc.2]; simp [assoc]
    unfold tenantPt
    rw [e, this, Nat.add_zero]
  have hf : frame (BitVec.ofNat 64 r) = r := frame_of _ r1 r4
  have hl : localHbm r = true := by simp [-Nat.reducePow, localHbm, r2, r3]
  have hv : bits addr 0 51 / 2 ^ levelShift 0 = 0 := Nat.div_eq_of_lt h3
  have hm : bits addr 0 51 % 2 ^ levelShift 0 = bits addr 0 51 := Nat.mod_eq_of_lt h3
  have b0 : bit leafH 0 = true := by decide
  have b1 : bit leafH 1 = true := by decide
  have b2 : leafOk 0 leafH = true := by decide
  have hw : walk (pages s r leafH) (BitVec.ofNat 64 r) (bits addr 0 51) = .leaf 0 leafH r := by
    simp only [walk, hf, hl, if_true, walkFrom, hv, Nat.zero_mod, Nat.mul_zero, Nat.add_zero, hd, b0, b1, b2, Bool.not_true,
      Bool.false_eq_true, if_false]
  have hlf : leafSpace leafH = 3 := by decide
  have hfr : frame leafH = 0 := by decide
  have hlev : (mkTlbE (pages s r leafH) 0 0 (bits addr 0 51) leafH r).level = 0 ∧
      (mkTlbE (pages s r leafH) 0 0 (bits addr 0 51) leafH r).pte = leafH := by
    unfold mkTlbE
    simp [hlf]
  have hck : targetChecks (pages s r leafH) 0 (bits addr 0 51) 3 a (mkTlbE (pages s r leafH) 0 0 (bits addr 0 51) leafH r) =
      .ok (bits addr 0 51) := by
    have f1 : ∀ n, formedOk 3 n = true := fun n => by simp [formedOk, layoutOk]
    have f2 : ∀ n, opAllowed (pages s r leafH) 3 a n = true := fun n => by rcases ha with rfl | rfl <;> rfl
    have f3 : permOk a leafH = true := by rcases ha with rfl | rfl <;> decide
    have f4 : bits leafH 9 6 = 0 := by decide
    simp [targetChecks, hlev, hlf, hfr, hm, f1, f2, f3, f4]
  have h2' : ¬(3 < spaceOf addr ∨ bits addr 51 9 ≠ 0) := by simp [h1, h2]
  have hk : memKey 3 (bits addr 0 51) = keyHost (bits addr 0 51) := rfl
  rw [← hk, ← h1]
  exact fwTrans_of h2' (ht ▸ hw) (h1.symm ▸ hck)
theorem pages_dwords (s : State) (r : Nat) (hr : rootOk r) (h : Memory.wf s.mem = true) (p0 : DWord) (k n : Nat) (hk : 2 ^ 53 ≤ k) :
    (pages s r p0).dwords k n = s.dwords k n := by
  have hl : (toBytes 8 p0.toNat).length = 8 := length_toBytes _ _
  have h1 := hr.1
  refine State.dwords_congr (s := s) fun j hj _ => ?_
  exact State.byte_setBytes_other (s := { s with chip := { s.chip with psnbase := psnB, sstep := 1#64 <<< 32, orchst := 0 }, fw := { s.fw with roots := [(0, r)] } })
    (Or.inr (by rw [hl]; simp only [keyHbm]; omega)) h
theorem fwDwords_host (s : State) (r : Nat) (hr : rootOk r) (h : Memory.wf s.mem = true) (a : Acc) (ha : a = .load ∨ a = .store)
    (n : Nat) : ∀ (addr : DWord) (v : Nat), (∀ k, k < n → spaceOf (addr + BitVec.ofNat 64 (8 * k)) = 3 ∧
      bits (addr + BitVec.ofNat 64 (8 * k)) 51 9 = 0 ∧ bits (addr + BitVec.ofNat 64 (8 * k)) 0 51 = v + 8 * k ∧ v + 8 * k < 2 ^ 39) →
    fwDwords (pages s r leafH) 0 a addr n = some (s.dwords (keyHost v) n) := by
  induction n with
  | zero => intro addr v _; rfl
  | succ n ih =>
    intro addr v hk
    have h0 := hk 0 (Nat.succ_pos n)
    simp only [Nat.mul_zero, BitVec.add_zero, Nat.add_zero] at h0
    obtain ⟨e1, e2, e3, e4⟩ := h0
    have ht : fwTrans (pages s r leafH) 0 a addr = some (keyHost v) := by
      rw [← e3]; exact fwTrans_host s r hr h a ha addr e1 e2 (e3 ▸ e4)
    have hn : fwDwords (pages s r leafH) 0 a (addr + 8) n = some (s.dwords (keyHost v + 8) n) := by
      refine ih (addr + 8) (v + 8) fun k hkn => ?_
      have := hk (k + 1) (Nat.succ_lt_succ hkn)
      have e : addr + 8 + BitVec.ofNat 64 (8 * k) = addr + BitVec.ofNat 64 (8 * (k + 1)) := by
        rw [BitVec.add_assoc]
        congr 1
        apply BitVec.eq_of_toNat_eq
        have h8 : (8 : DWord).toNat = 8 := rfl
        simp only [BitVec.toNat_add, BitVec.toNat_ofNat, h8]
        omega
      rw [e]
      refine ⟨this.1, this.2.1, ?_, ?_⟩
      · rw [this.2.2.1]; omega
      · have := this.2.2.2; omega
    have hd : (pages s r leafH).dword (keyHost v) = s.dword (keyHost v) := by
      have := pages_dwords s r hr h leafH (keyHost v) 1 (by simp only [keyHost]; omega)
      simpa [State.dwords] using this
    simp only [fwDwords, ht, hn, hd, State.dwords]
theorem rootA_ok : rootOk rootA := root_facts
def dom0 : Dom := { id := 0, parent := none, used := [], dbg := false, halted := false
                    dw := [1, 0, 0xFFFFFFFF, 0xFFFFFFFF, 0xFFFFFFFF, 0xFFFFFFFF, 0xFFFF, 0x8000001] }
def grid0 : Grid := ⟨0, 0, 0, none, [], [(0, 0)], 0, 2, 0, 0, none, [], [], none, false, 0, [], [], 0, [], false, false, 0, []⟩
def gridS (g : Grid) (f : Core → Core) (k : Issuer → Issuer) : State :=
  { tst true (fun c => f { c with grid := some 0 }) k with fw := { grids := [g], doms := [dom0] } }
def blk (i : Instr) (vals : List DWord) (me : Issuer) : Issuer := { me with wait := .block i .wait [0] vals 50 0 }
theorem place_some : ∃ pa, orchPlace (gridS grid0 id id) 0x8000 0x8000 false = some pa := by
  have h1 : ∀ used lo hi size align a, lowestFit used lo hi size align = some a → ∃ pa, someFit used lo hi size align = some pa := by
    intro used lo hi size align a h
    unfold someFit
    dsimp only
    split
    · exact ⟨_, rfl⟩
    · exact ⟨a, h⟩
  have h2 : lowestFit (orchUsed (gridS grid0 id id) 0) (0 * 2 ^ 42) (0 * 2 ^ 42 + 63 * 2 ^ 36) 0x8000 0x8000 = some 0 := by decide +kernel
  obtain ⟨pa, h3⟩ := h1 _ _ _ _ _ _ h2
  have b0 : bit (gridS grid0 id id).chip.orchst 0 = false := rfl
  have hf : (if orchFree (gridS grid0 id id) 0 < orchFree (gridS grid0 id id) 1 then 1 else 0) = 0 := by decide +kernel
  refine ⟨pa, ?_⟩
  unfold orchPlace
  simp only [hf, b0, Bool.false_eq_true, false_and, if_false, List.append_nil, h3, Option.some_or]
theorem enterRemote_clean (s : State) (q : Req) (h : q.badSecs = []) : enterRemote s q = s := by
  unfold enterRemote
  split
  · rfl
  · simp [h]
theorem witness_Orchard :
    (∀ i ∈ [Instr.oalloc m0 2 1 false, .ofree m0 2 1], ∃ s, s = tst true id (blk i [0x8000]) ∧
      (s.iss s.cur).wait = .block i .wait [0] [0x8000] 50 0 ∧ domOfCore s 0 0 = none ∧ domOfCore (orchServed s s.cur) 0 0 = none) ∧
    ((orchServed { warp with fw := { orchq := [warp.cur, ⟨0, 0, 16⟩] } } warp.cur).fw.orchq = [⟨0, 0, 16⟩]) ∧
    (let s := gridS grid0 id (blk (.oalloc m0 2 1 false) [1])
     orchServed s s.cur = s ∧ (s.iss s.cur).wait = .block (.oalloc m0 2 1 false) .wait [0] [1] 50 0 ∧ domOfCore s 0 0 = some 0 ∧ s.dom 0 = some dom0 ∧
     orchSize 1 = some (0x8000, 2) ∧ (charge s 0 .orch 1).isSome = true ∧ levelShift 2 = 15 ∧
     lowestFit ((s.fw.allocs.filter fun a => domTenant s a.dom == dom0.tenant).map fun a => (a.va, a.size))
       (bits (nth dom0.dw 7 0) 27 24 * 2 ^ 27) (bits (nth dom0.dw 7 0) 27 24 * 2 ^ 27 + bits (nth dom0.dw 7 0) 0 24 * 2 ^ 27) 0x8000 0x8000
       = some 0x8000000) ∧
    (∀ vals : List DWord, let s := gridS grid0 id (blk (.ofree m0 2 1) (0x2000000008000000 :: vals))
     let u := { s with fw := { s.fw with allocs := [⟨0x8000000, 0x8000, 0, false, 0, 2, false⟩] } }
     (domOfCore u 0 0).bind (fun dom => orchNamed u dom (nth (0x2000000008000000 :: vals) 0 0)) = some ⟨0x8000000, 0x8000, 0, false, 0, 2, false⟩) ∧
    (let q := { rq .atom (.atom mf true .add) 2 0x78 with stat := 0 }
     let s := rqS q
     s.req s.cur.n = some q ∧ s.dbg.rlogOn = false ∧ (s.coreOf q.w).lean = false ∧
     (let s2 := enterRemote ((s.updReq q.id fun q => { q with stat := 2 }).delReq q.id) { q with stat := 2 }
      (s2.iss q.w).rcount + 1 ≤ (s2.iss q.w).rlimit)) ∧
    (let s : State := { warp with fw := { allocs := [⟨0x8000000, 0x8000, 0, true, 0, 2, false⟩] } }
     (s.fw.allocs.filter fun a => a.mir && !a.lost) = [⟨0x8000000, 0x8000, 0, true, 0, 2, false⟩]) ∧
    -- a switch fails: an atomic is under way to it; the ports' bits come later
    (let q := rq .atom (.atom mf true .add) 2 0x78
     let s := { rqS q with cur := obj 0 }
     s.net.failed.contains 0 = false ∧ s.net.mirq = [] ∧ s.req q.id = some q ∧ q.space = 2 ∧ q.kind = .atom ∧
       q.sectors = [1] ∧ swOf 1 = 0) ∧
    (let s : State := { warp with cur := obj 2, net := { failed := [0] }, fw := { allocs := [⟨0x8000000, 0x8000, 0, false, 0, 2, false⟩] } }
     2 ≤ s.cur.n ∧ s.net.failed.contains (s.cur.n % 2) = true) := by
  refine ⟨fun i h => ?_, by rfl, ⟨rfl, rfl, by decide, by rfl, by decide, by decide +kernel, rfl, by decide +kernel⟩, fun vals => by rfl,
    ⟨rfl, rfl, rfl, by rw [enterRemote_clean _ _ rfl]; decide +kernel⟩, by decide, by decide, by decide⟩
  simp only [List.mem_cons, List.not_mem_nil, or_false] at h
  rcases h with rfl | rfl <;> exact ⟨_, rfl, rfl, by decide, by decide⟩
def tokS (i : Instr) (ops : List DWord) (frz : Bool) : State :=
  let q := { rq .ring i 0 0 with sectors := [], lanes := [⟨0, 0, 0, 0, ops⟩] }
  let s := rqS q
  { s with chip := { s.chip with slots := [(0, { dw := [(0, if frz then 3 else 1)] })] } }
theorem witness_Sequences :
    (let s := tokS (.sloew m0 0 (.sca 0) 2) [5, 0] false
     ∃ q, s.req s.cur.n = some q ∧ q.lanes = [⟨0, 0, 0, 0, [5, 0]⟩] ∧ slotNo 0 = some 0 ∧
      slotCause s (s.coreOf q.w).tenant (some 0) = none ∧ slotLimit 2 5 = false ∧ (s.slot 0).frz = false ∧
      (sloeLanes s q.w q.h q.issued q.lanes).1.isNone = true) ∧
    (let s := tokS (.tokapp m0 0 (.sca 0)) [5, 0] true
     ∃ q, s.req s.cur.n = some q ∧ slotCause s (s.coreOf q.w).tenant (some 0) = none ∧ (s.slot 0).frz = true ∧
      (sloeLanes s q.w q.h q.issued q.lanes).1.isSome = true) :=
  ⟨⟨_, rfl, rfl, by decide, by decide, by decide, by decide, by decide +kernel⟩, ⟨_, rfl, by decide, by decide, by decide +kernel⟩⟩
def tvOk : DWord := 0x7FFC0800000
def vecS (tv : DWord) (g : Issuer → Issuer) : State := hdr (tst true id fun me => g { me with trapvec := tv })
def vecB (tv : DWord) : Bool :=
  let s := vecS tv id
  let s2 := (discardAll s s.cur false).updIss s.cur fun me => { me with wait := .fault }
  trapvecOk s2 (s2.coreOf s.cur) (csrSeen (s2.iss s.cur) 0xF)
def vecF (tv : DWord) : State := vecS tv fun me => { me with wait := .fault, trapRec := List.replicate 8 7 }
def vecC (tv : DWord) : Bool := let s := vecF tv; trapvecOk s (s.coreOf s.cur) (csrSeen (s.iss s.cur) 0xF)
theorem witness_TakingExceptions :
    vecB tvOk = true ∧ vecB 0 = false ∧ toVec 0x10 = true ∧ toVec 0x01 = false ∧ vecC tvOk = true ∧ vecC 0 = false ∧
    ∀ tv, Memory.wf (vecF tv).mem = true ∧ Sparse.wf unlistedStamp (vecF tv).stamps = true ∧
      ((vecF tv).iss (vecF tv).cur).wait = .fault ∧ ((vecF tv).iss (vecF tv).cur).trapRec.length = 8 :=
  ⟨by decide +kernel, by decide +kernel, by decide, by decide, by decide +kernel, by decide +kernel,
   fun tv => ⟨rfl, rfl, rfl, rfl⟩⟩
def frec (cls : Nat) : Rec := [BitVec.ofNat 64 cls, 0, 0, 0, 0, 0, 0, 0]
def fwS (cls st : Nat) (g : Grid) (mem : State → State) : State :=
  let s := gridS g id fun me => { me with wait := .fault }
  mem { s with cur := obj st, fw := { s.fw with faults := [(0, frec cls, some ⟨0, 0, 16⟩)] } }
def defer1 (s : State) : State := s.setBytes 0 (toBytes 8 0xCE)
def defS : State :=
  let s := gridS grid0 id fun me => { me with wait := .fault }
  defer1 { s with fw := { s.fw with logs := [frec 4 |>.set 0 (4 + 16 * 2 ^ 26)] } }
theorem witness_FirmwareTakesFaults :
    (let s := fwS 0x15 0 grid0 id
     (s.fw.faults.find? fun f => f.1 == s.cur.n) = some (0, frec 0x15, some ⟨0, 0, 16⟩) ∧ bits (nth (frec 0x15) 0 0) 0 8 = 0x15) ∧
    (let s := fwS 4 0 grid0 defer1
     let r := frec 4
     (s.fw.faults.find? fun f => f.1 == s.cur.n) = some (0, r, some ⟨0, 0, 16⟩) ∧ bits (nth r 0 0) 0 8 = 4 ∧
     (s.iss ⟨0, 0, 16⟩).wait = .fault ∧ bit (nth r 0 0) 16 = false ∧
     (deferredAt s (s.coreOf ⟨0, 0, 16⟩).ptbase (bits (nth r 4 0) 0 51)).isSome = true) ∧
    (let s := fwS 9 0 grid0 id
     (s.fw.faults.find? fun f => f.1 == s.cur.n) = some (0, frec 9, some ⟨0, 0, 16⟩) ∧ bits (nth (frec 9) 0 0) 0 8 = 9 ∧
     (s.iss ⟨0, 0, 16⟩).wait = .fault ∧ (s.coreOf ⟨0, 0, 16⟩).grid = some 0 ∧ s.grid 0 = some grid0 ∧ grid0.state = 2) ∧
    (Memory.wf defS.mem = true ∧ Sparse.wf unlistedStamp defS.stamps = true ∧ (defS.iss defS.cur).wait = .fault ∧
     faultVa defS defS.cur = some 0 ∧
     deferredAt defS (defS.coreOf defS.cur).ptbase 0 = some (0, 0, 0xCE) ∧ (assoc defS.fw.deferred 0).getD 0 = 0 ∧
     keyHbm 0 + 8 ≤ memKey (leafSpace 0xCE) (frame 0xCE)) :=
  ⟨⟨rfl, by decide⟩, ⟨rfl, by decide, rfl, by decide, by decide +kernel⟩, ⟨rfl, by decide, rfl, rfl, rfl, rfl⟩,
    by decide +kernel, rfl, rfl, by decide +kernel, by decide +kernel, by decide, by decide +kernel⟩
def hostA (v : Nat) : DWord := BitVec.ofNat 64 (3 * 2 ^ 60 + v)
def q0 : UQueue := ⟨0, 0, hostA 0, 4, 0, 1, 0, 2, 0, true, none, 0⟩
def qS (q : UQueue) (g : List Grid) : State :=
  { tst true id id with cur := obj 0, fw := { queues := [q], doms := [dom0], boot := 6, grids := g } }
theorem host_dwords (s : State) (h : Memory.wf s.mem = true) (v n : Nat) (hv : v + 8 * n < 2 ^ 39) :
    fwDwords (pages s rootA leafH) 0 .load (hostA v) n = some (s.dwords (keyHost v) n) := by
  refine fwDwords_host s rootA rootA_ok h .load (.inl rfl) n (hostA v) v fun k hk => ?_
  have : hostA v + BitVec.ofNat 64 (8 * k) = BitVec.ofNat 64 (3 * 2 ^ 60 + (v + 8 * k)) := by
    unfold hostA
    rw [← BitVec.ofNat_add, Nat.add_assoc]
  rw [this]
  refine ⟨?_, ?_, ?_, by omega⟩ <;> simp only [spaceOf, bits, BitVec.toNat_ofNat] <;> omega
def pkt (d0 : DWord) : State → State := fun s => s.setBytes (keyHost 0) (toBytes 8 d0.toNat)
def hdS (d0 : DWord) (g : List Grid) : State := pages (pkt d0 (qS q0 g)) rootA leafH
theorem hdS_ok (d0 : DWord) (g : List Grid) (n : Nat) (hn : n ≤ 8) :
    (hdS d0 g).memWf ∧ (hdS d0 g).queue 0 = some q0 ∧ (hdS d0 g).fw.grids = g ∧
    fwDwords (hdS d0 g) (domTenant (hdS d0 g) 0) .load (hostA 0) n = some ((pkt d0 (qS q0 g)).dwords (keyHost 0) n) := by
  have hw : Memory.wf (pkt d0 (qS q0 g)).mem = true := Memory.wf_setBytes rfl
  have hg : (hdS d0 g).fw = { (qS q0 g).fw with roots := [(0, rootA)] } := rfl
  have hd : domTenant (hdS d0 g) 0 = 0 := by
    simp only [domTenant, State.dom, hg]
    have : (qS q0 g).fw.doms = [dom0] := rfl
    rw [this]
    decide
  refine ⟨⟨Memory.wf_setBytes hw, rfl⟩, ?_, by rw [hg]; rfl, ?_⟩
  · simp only [State.queue, hg]
    rfl
  · rw [hd]
    exact host_dwords (pkt d0 (qS q0 g)) hw 0 n (by omega)
/-- A level-0 leaf of chip c's HBM, of tenant 0. -/
def leafC (c : Nat) : DWord := BitVec.ofNat 64 (c * 2 ^ 42 + 15)
theorem leafC_facts (c : Nat) (h : c < 1024) : frame (leafC c) = c * 2 ^ 42 ∧ bits (leafC c) 9 6 = 0 ∧ bits (leafC c) 52 12 = 0 ∧
    (∀ k, k < 9 → bit (leafC c) k = decide (k < 4)) := by
  refine ⟨?_, ?_, ?_, fun k hk => ?_⟩
  · simp only [frame, leafC, bits, BitVec.toNat_ofNat]; omega
  · simp only [leafC, bits, BitVec.toNat_ofNat]; omega
  · simp only [leafC, bits, BitVec.toNat_ofNat]; omega
  · simp only [bit, leafC, BitVec.toNat_ofNat]
    match k, hk with
    | 0, _ | 1, _ | 2, _ | 3, _ => rw [show ∀ k, decide (k < 4) = (k < 4 : Bool) from fun _ => rfl]; simp; omega
    | 4, _ | 5, _ | 6, _ | 7, _ | 8, _ => simp; omega
@[irreducible] def leafL : DWord := leafC chipNo
/-- What the leaf must meet. -/
structure LeafOk (p : DWord) : Prop where
  l1 : frame p % 2 ^ 40 = 0
  l2 : frame p / 2 ^ 42 = chipNo
  l3 : frame p / 2 ^ 40 % 4 = 0
  l5 : bits p 9 6 = 0
  l6 : bits p 52 12 = 0
  l7 : ∀ k, k < 9 → bit p k = decide (k < 4)
theorem div_facts (c : Nat) : c * 2 ^ 42 % 2 ^ 40 = 0 ∧ c * 2 ^ 42 / 2 ^ 42 = c ∧ c * 2 ^ 42 / 2 ^ 40 % 4 = 0 := by omega
theorem leafL_ok : LeafOk leafL := by
  obtain ⟨h1, h2, h3, h4⟩ := leafC_facts chipNo chip_lt
  have e : leafL = leafC chipNo := by unfold leafL; rfl
  rw [e]
  obtain ⟨d1, d2, d3⟩ := div_facts chipNo
  exact ⟨h1 ▸ d1, h1 ▸ d2, h1 ▸ d3, h2, h3, h4⟩
theorem ite_P {α : Type} (P : α → Prop) {c : Prop} [Decidable c] {x y : α} (hx : P x) (hy : P y) : P (if c then x else y) := by
  split
  · exact hx
  · exact hy
theorem fwTrans_hbm_at (s : State) (r k : Nat) (p : DWord) (hr : rootOk r) (hrk : r = chipNo * 2 ^ 42 + k) (hkk : k + 8 ≤ 0xBE01000000) (hL : LeafOk p) (hm : s.mem = []) (a : Acc) (ha : a = .load ∨ a = .store ∨ a = .code) (addr : DWord)
    (h1 : spaceOf addr = 0) (h2 : bits addr 51 9 = 0) (h3 : bits addr 0 51 < 2 ^ 39) :
    fwTrans (pages s r p) 0 a addr = some (keyHbm (frame p + bits addr 0 51)) := by
  obtain ⟨r1, r2, r3, r4⟩ := hr
  obtain ⟨l1, l2, l3, l5, l6, l7⟩ := hL
  have h : Memory.wf s.mem = true := by rw [hm]; rfl
  have hc : (pages s r p).chip.psnbase = psnB ∧ (pages s r p).fw.roots = [(0, r)] := by
    rw [pages, State.setBytes_eq]; exact ⟨rfl, rfl⟩
  have hd : (pages s r p).dword (keyHbm r) = p := State.dword_setBytes _ h
  have ht : tenantPt (pages s r p) 0 = BitVec.ofNat 64 r := by
    have : r / 2 ^ 15 * 2 ^ 15 = r := by omega
    have e : (assoc (pages s r p).fw.roots 0).getD 0 = r := by rw [hc.2]; simp [assoc]
    unfold tenantPt
    rw [e, this, Nat.add_zero]
  have hf : frame (BitVec.ofNat 64 r) = r := frame_of _ r1 r4
  have hl : localHbm r = true := by simp [-Nat.reducePow, localHbm, r2, r3]
  have hv : bits addr 0 51 / 2 ^ levelShift 0 = 0 := Nat.div_eq_of_lt h3
  have hmm : bits addr 0 51 % 2 ^ levelShift 0 = bits addr 0 51 := Nat.mod_eq_of_lt h3
  generalize hV : bits addr 0 51 = va at *
  have b0 : bit p 0 = true := l7 0 (by decide)
  have b1 : bit p 1 = true := l7 1 (by decide)
  have b5 : bit p 5 = false := l7 5 (by decide)
  have b8 : bit p 8 = false := l7 8 (by decide)
  have hlf : leafSpace p = 0 := by simp [leafSpace, l7]
  have lh : ∀ x, x < 2 ^ 39 → localHbm (frame p + x) = true := fun x hx => by
    have e1 : (frame p + x) / 2 ^ 42 = chipNo := by omega
    have e2 : (frame p + x) / 2 ^ 40 % 4 = 0 := by omega
    have e3 : (frame p + x) % 2 ^ 40 < hbmTop := by
      have : hbmTop = 0xC000000000 := rfl
      omega
    simp [-Nat.reducePow, localHbm, hbmPart, e1, e2, e3]
  have b2 : leafOk 0 p = true := by
    have e : frame p % 2 ^ levelShift 0 = 0 := by
      have : levelShift 0 = 39 := rfl
      rw [this]; omega
    have := lh 0 (by decide)
    rw [Nat.add_zero] at this
    simp [leafOk, hlf, l6, b5, b8, e, layoutOk, this]
  have hw : walk (pages s r p) (BitVec.ofNat 64 r) va = .leaf 0 p r := by
    simp only [walk, hf, hl, if_true, walkFrom, hv, Nat.zero_mod, Nat.mul_zero, Nat.add_zero, hd, b0, b1, b2, Bool.not_true,
      Bool.false_eq_true, if_false]
  have hT : (mkTlbE (pages s r p) 0 0 va p r).level = 0 ∧ (mkTlbE (pages s r p) 0 0 va p r).pte = p := by
    unfold mkTlbE
    simp only [hlf, hmm]
    exact ite_P (fun e : TlbE => e.level = 0 ∧ e.pte = p) ⟨rfl, rfl⟩ ⟨rfl, rfl⟩
  obtain ⟨t1, t2⟩ := hT
  have hck : targetChecks (pages s r p) 0 va 0 a (mkTlbE (pages s r p) 0 0 va p r) = .ok (frame p + va) := by
    have f1 : formedOk 0 (frame p + va) = true := by simp [formedOk, layoutOk, lh va h3]
    have f2 : opAllowed (pages s r p) 0 a (frame p + va) = true := by rcases ha with rfl | rfl | rfl <;> rfl
    have f3 : permOk a p = true := by rcases ha with rfl | rfl | rfl <;> simp [permOk, l7]
    simp [targetChecks, t1, t2, hlf, hmm, f1, f2, f3, l5]
  have h2' : ¬(3 < spaceOf addr ∨ bits addr 51 9 ≠ 0) := by simp [h1, h2]
  have hk : memKey 0 (frame p + va) = keyHbm (frame p + va) := rfl
  subst hV
  have hfin := fwTrans_of (s := pages s r p) (t := 0) (a := a) (pa := frame p + bits addr 0 51) h2' (by rw [ht]; exact hw) (by rw [h1]; exact hck)
  rw [h1, hk] at hfin
  exact hfin

theorem rootA_at : ∃ k, k + 8 ≤ 0xBE01000000 ∧ rootA = chipNo * 2 ^ 42 + k := by
  refine ⟨0xBC00000000, by decide, ?_⟩
  unfold rootA
  exact ownHbm_eq _
theorem fwTrans_hbm (s : State) (hm : s.mem = []) (a : Acc) (ha : a = .load ∨ a = .store ∨ a = .code) (addr : DWord)
    (h1 : spaceOf addr = 0) (h2 : bits addr 51 9 = 0) (h3 : bits addr 0 51 < 2 ^ 39) :
    fwTrans (pages s rootA leafL) 0 a addr = some (keyHbm (frame leafL + bits addr 0 51)) := by
  obtain ⟨k, hk, e⟩ := rootA_at
  exact fwTrans_hbm_at s rootA k leafL rootA_ok e hk leafL_ok hm a ha addr h1 h2 h3
/-- A grid of the packet pk in state st. -/
def gr (st : Nat) (pk : List DWord) : Grid := { grid0 with state := st, packet := pk, cores := [] }
def kindP (k : DWord) : List DWord := [k * 2 + 1, 0, 0, 8, 0, 0, 0, 0]
def gS (g : Grid) (f : Core → Core) : State := { gridS g f id with cur := obj 0 }
theorem witness_Queues :
    (let s := qS q0 []; s.memWf ∧ s.queue s.cur.n = some q0 ∧ q0.qstate ≠ 4 ∧ q0.shadow = none ∧
      offerEnd q0.rlog2 q0.ridx q0.offered 100 = none ∧ offerEnd q0.rlog2 q0.ridx q0.offered 3 = some 3) ∧
    (let q := { q0 with shadow := some 5, resident := false, qstate := 3 }
     let s := qS q []
     s.queue s.cur.n = some q ∧ q.qstate ≠ 4 ∧ wanting s = [q] ∧ (resident s).length < 64) ∧
    (let q := { q0 with ring := 0x7 <<< 60 }
     let s := qS q []
     s.queue s.cur.n = some q ∧ s.cur.n ≠ 2 ^ 32 ∧ q.resident = true ∧ q.next ≠ q.offered ∧
      fwDwords s (domTenant s q.dom) .load (q.slotAt q.next) 8 = none) ∧
    (∀ d0 : DWord, d0 = 0 ∨ d0 = 0x7E3 → let s := hdS d0 []
     ∃ p, s.memWf ∧ s.queue 0 = some q0 ∧ fwDwords s (domTenant s q0.dom) .load (q0.slotAt q0.next) 8 = some p ∧
      bit (nth p 0 0) 0 = (d0 != 0) ∧ bit (nth p 0 0) 4 = false) ∧
    (let q := { q0 with qstate := 1 }
     (qS q []).queue 0 = some q ∧ mayGo (qS q []) q = true) := by
  refine ⟨⟨⟨rfl, rfl⟩, rfl, by decide, rfl, by decide, by decide⟩, ⟨rfl, by decide, rfl, by decide⟩, ⟨rfl, by decide, rfl, by decide, by decide +kernel⟩,
    fun d0 hd => ?_, ⟨rfl, by decide⟩⟩
  obtain ⟨a, b, _, d⟩ := hdS_ok d0 [] 8 (by decide)
  refine ⟨_, a, b, d, ?_⟩
  rcases hd with rfl | rfl <;> decide +kernel
theorem witness_Waits :
    (let g := gr 1 [5, 0, 0, 0, hostA 0, 7, 0, 0]
     (hdS 5 [g]).grid 0 = some g ∧ g.state = 1 ∧
     fwDwords (hdS 5 [g]) (domTenant (hdS 5 [g]) g.dom) .load (nth g.packet 4 0) 1 = some [5] ∧
     (5 : DWord).toInt ≤ (nth g.packet 5 0).toInt) ∧
    (let g := gr 1 [5, 0, 0, 0, hostA 0, 3, 0, 0]
     (hdS 5 [g]).grid 0 = some g ∧
     fwDwords (hdS 5 [g]) (domTenant (hdS 5 [g]) g.dom) .load (nth g.packet 4 0) 1 = some [5] ∧
     (nth g.packet 5 0).toInt < (5 : DWord).toInt) ∧
    (let g := gr 1 [5, 0, 0, 0, 0x7 <<< 60, 3, 0, 0]
     (gS g id).grid 0 = some g ∧ fwDwords (gS g id) (domTenant (gS g id) g.dom) .load (nth g.packet 4 0) 1 = none) := by
  have h : ∀ g : Grid, g.dom = 0 → nth g.packet 4 0 = hostA 0 →
      fwDwords (hdS 5 [g]) (domTenant (hdS 5 [g]) g.dom) .load (nth g.packet 4 0) 1 = some [5] := fun g h1 h2 => by
    obtain ⟨_, _, _, d⟩ := hdS_ok 5 [g] 1 (by decide)
    rw [h1, h2, d]
    have : ((pkt 5 (qS q0 [g])).dwords (keyHost 0) 1) = ((pkt 5 (qS q0 [])).dwords (keyHost 0) 1) := rfl
    rw [this]
    decide +kernel
  refine ⟨⟨?_, rfl, h _ rfl rfl, by decide⟩, ⟨?_, h _ rfl rfl, by decide⟩, ⟨rfl, by decide +kernel⟩⟩ <;>
    (unfold State.grid; rw [(hdS_ok _ _ 1 (by decide)).2.2.1]; rfl)
def lnch : Grid := { gr 0 (kindP 1) with imgs := [(0, 0)], ents := [] }
def lnS : State := pages { qS q0 [lnch] with mem := [] } rootA leafL
def grQ : Grid := { gr 4 (kindP 2) with queue := some 0 }
theorem grQ_slot : ∃ k, fwTrans (hdS 0 [grQ]) (domTenant (hdS 0 [grQ]) grQ.dom) .store (q0.slotAt grQ.idx) = some k := by
  have hd : domTenant (hdS 0 [grQ]) grQ.dom = 0 := by
    simp only [domTenant, State.dom]
    have : (hdS 0 [grQ]).fw.doms = [dom0] := rfl
    rw [this]; decide
  have hw : Memory.wf (pkt 0 (qS q0 [grQ])).mem = true := Memory.wf_setBytes rfl
  have e : spaceOf (q0.slotAt grQ.idx) = 3 ∧ bits (q0.slotAt grQ.idx) 51 9 = 0 ∧ bits (q0.slotAt grQ.idx) 0 51 < 2 ^ 39 := by decide
  rw [hd]
  exact ⟨_, fwTrans_host (pkt 0 (qS q0 [grQ])) rootA rootA_ok hw .store (.inr rfl) _ e.1 e.2.1 e.2.2⟩
theorem witness_Launches :
    (let g := { gr 0 (kindP 1) with rstat := 3 }
     (gS g id).grid 0 = some g ∧ g.state = 0 ∧ g.rstat ≠ 0) ∧
    (lnS.memWf ∧ lnS.fw.grids = [lnch] ∧ lnch.state = 0 ∧ lnch.rstat = 0 ∧ (∀ e ∈ lnch.ents, entChip e = chipNo) ∧
      lnch.imgs = [(0, 0)] ∧ imgPieces (nth lnch.packet 2 0) lnch.isize = [0] ∧
      ∃ k, fwTrans lnS (domTenant lnS lnch.dom) .code (nth lnch.packet 2 0) = some k) ∧
    (∀ c, c = [] ∨ c = [(0, 0)] → let g := { gr 1 (kindP 1) with cores := c }
     (gS g id).grid 0 = some g ∧ g.state = 1 ∧ g.kind = 1 ∧ g.start ≤ (gS g id).tick) ∧
    (let g := { gr 1 (kindP 1) with start := 200 }
     (gS g id).grid 0 = some g ∧ g.kind = 1 ∧ (gS g id).tick < g.start) ∧
    (let g := { gr 4 (kindP 1) with state := 4 }
     let s := gS g id
     s.grid 0 = some g ∧ g.retired = false ∧ g.halted = false ∧ ownCores s g = [] ∧ g.remote = false ∧ g.queue = none) ∧
    (let g := { gr 4 (kindP 2) with cores := [(0, 0)], queue := some 0 }
     let s := { gS g id with fw := { (gS g id).fw with queues := [q0] } }
     s.grid 0 = some g ∧ (∀ c ∈ ownCores s g, coreBusy s c = false ∧ (g.state = 4 → unnamedFault c = none)) ∧
     s.queue 0 = some q0 ∧ q0.ridx = g.idx ∧ (s.fw.grids.filter fun h => h.queue == some q0.id) = [g] ∧
     g.kind ≠ 1 ∧ nth g.packet 7 0 = 0) ∧
    (hdS 0 [grQ]).memWf ∧ (hdS 0 [grQ]).fw.grids = [grQ] ∧ (hdS 0 [grQ]).queue 0 = some q0 ∧
    ∃ k, fwTrans (hdS 0 [grQ]) (domTenant (hdS 0 [grQ]) grQ.dom) .store (q0.slotAt grQ.idx) = some k := by
  have hl : lnS.fw = { (qS q0 [lnch]).fw with roots := [(0, rootA)] } := rfl
  refine ⟨⟨rfl, rfl, by decide⟩, ⟨⟨Memory.wf_setBytes rfl, rfl⟩, by rw [hl]; rfl, rfl, rfl, nofun, rfl, by decide, ?_⟩,
    fun c hc => by rcases hc with rfl | rfl <;> exact ⟨rfl, rfl, by decide, Nat.zero_le _⟩, ⟨rfl, by decide, by decide⟩, ⟨rfl, rfl, rfl, rfl, rfl, rfl⟩,
    ⟨rfl, by decide +kernel, rfl, rfl, rfl, by decide, rfl⟩,
    (hdS_ok 0 [grQ] 1 (by decide)).1, (hdS_ok 0 [grQ] 1 (by decide)).2.2.1, (hdS_ok 0 [grQ] 1 (by decide)).2.1, grQ_slot⟩
  · have hd : domTenant lnS lnch.dom = 0 := by
      simp only [domTenant, State.dom, hl]
      rfl
    rw [hd]
    exact ⟨_, fwTrans_hbm _ rfl .code (.inr (.inr rfl)) _ (by decide) (by decide) (by decide)⟩
def ctx0 (a : Bool) (c : List Core) (v : DWord) : SavedCtx := { grid := 0, cores := c, caps := [v], auto_ := a }
def ctxS (st : Nat) (x : SavedCtx) : State :=
  let g := { gr st (kindP 1) with cores := [(0, 0)] }
  { gS g id with fw := { (gS g id).fw with ctxs := [x] } }
def savedCore : Core := { placedCore false false 50 with grid := some 0 }
theorem saved_waits : ∀ i ∈ savedCore.issuers, ∀ j ls vs k pc, i.wait ≠ .block j .commit ls vs k pc := by
  have : savedCore.issuers.all (fun i => decide (i.wait = .run)) = true := by decide +kernel
  intro i hi j ls vs k pc h
  have h2 := of_decide_eq_true (List.all_eq_true.1 this i hi)
  rw [h2] at h
  cases h
theorem witness_Preemption :
    (∀ st, st = 1 ∨ st = 2 → let g := { gr st (kindP 1) with preq := some 7, cores := [(0, 0)] }
     let s := gS g id
     s.grid s.cur.n = some g ∧ g.preq ≠ none ∧ g.state = st ∧ g.kind = 1 ∧
      ∀ c ∈ ownCores s g, bit c.modew 2 = true → c.parked.contains 17 = true) ∧
    (∀ st, st = 3 ∨ st = 2 → let g := gr 1 (kindP 1)
     let h := { gr st (kindP 1) with id := 1, preq := some 0 }
     let s := { gS g id with fw := { (gS g id).fw with grids := [g, h] } }
     s.grid s.cur.n = some g ∧ g.state = 1 ∧ (s.fw.grids.filter fun h => h.preq == some g.id) = [h] ∧ h.remote = false ∧ h.state = st) ∧
    (∀ v : DWord, v = 0 ∨ v = 31 → let x := ctx0 true [savedCore] v
     let s := ctxS 3 x
     ∃ g, s.fw.ctxs = [x] ∧ x.auto_ = true ∧ s.grid x.grid = some g ∧ g.state = 3 ∧ coresFree s g = true ∧
      (shortField s g x = if v = 31 then some 1 else none) ∧ (∀ c ∈ x.cores, bit c.modew 2 = false)) ∧
    (let x := ctx0 false [] 0
     let s := ctxS 7 x
     ∃ g, s.grid s.cur.n = some g ∧ (s.fw.ctxs.find? fun x => x.grid == s.cur.n) = some x ∧ g.state = 7 ∧ x.cores = [] ∧ g.cores ≠ []) ∧
    (let x := { ctx0 false [savedCore] 0 with mem := [(keySp 0 0 5, 9)] }
     let s := ctxS 7 x
     ∃ g, s.grid s.cur.n = some g ∧ (s.fw.ctxs.find? fun x => x.grid == s.cur.n) = some x ∧ g.state = 7 ∧
      x.cores = [savedCore] ∧ Sparse.wf unlistedByte x.mem = true ∧ s.memWf) ∧
    (∀ i ∈ savedCore.issuers, ∀ j ls vs k pc, i.wait ≠ .block j .commit ls vs k pc) := by
  refine ⟨fun st h => ?_, fun st h => ?_, fun v h => ?_, ?_, ?_, ?_⟩
  · rcases h with rfl | rfl <;> exact ⟨rfl, by decide, rfl, by decide, by decide +kernel⟩
  · rcases h with rfl | rfl <;> exact ⟨rfl, rfl, rfl, rfl, rfl⟩
  · rcases h with rfl | rfl <;> exact ⟨_, rfl, rfl, rfl, rfl, by decide +kernel, by decide +kernel, by decide +kernel⟩
  · exact ⟨_, rfl, rfl, rfl, rfl, by decide⟩
  · exact ⟨_, rfl, rfl, rfl, rfl, by decide +kernel, rfl, rfl⟩
  · exact saved_waits
def cm (src : CmdSrc) (code : Nat) (a : List DWord) : Cmd := ⟨src, code, a⟩
def dom1 : Dom := { dom0 with id := 1, parent := some 0, dw := [1 + 2 ^ 13, 0, 0, 0, 0, 0, 0, 0] }
def cmS (c : Cmd) (ds : List Dom) : State :=
  { tst true id id with cur := obj 0, fw := { cmds := [(0, c)], doms := ds, boot := 6 } }
theorem cm_ok (c : Cmd) (ds : List Dom) : Cmded (cmS c ds) c := by
  refine ⟨rfl, ?_⟩
  have : (cmS c ds).fw.boot = 6 := rfl
  simp [bootGate, this]
theorem dcb_eq : ∃ k, k < 2 ^ 41 ∧ 0 < k ∧ fwBase = chipNo * 2 ^ 42 + k := by
  refine ⟨0xBE00000000, by decide, by decide, ?_⟩
  unfold fwBase
  exact ownHbm_eq _
theorem dcb_toNat_of (b k n : Nat) (h : b < 1024) (hn : n < 8) (hk : k < 2 ^ 41) :
    (BitVec.ofNat 64 (b * 2 ^ 42 + k + 128 * n)).toNat = b * 2 ^ 42 + k + 128 * n := by
  rw [BitVec.toNat_ofNat]; omega
@[irreducible] def dcbW (n : Nat) : DWord := BitVec.ofNat 64 (dcbAddr n)
theorem dcb_toNat (n : Nat) (hn : n < 8) : (dcbW n).toNat = dcbAddr n := by
  obtain ⟨k, hk, _, e⟩ := dcb_eq
  unfold dcbW dcbAddr
  rw [e]
  exact dcb_toNat_of chipNo k n chip_lt hn hk
theorem dcb_ne (m n : Nat) (h : m ≠ n) : dcbAddr m ≠ dcbAddr n := by
  unfold dcbAddr
  generalize fwBase = b
  omega
theorem dcb_pos (n : Nat) (hn : n < 8) : dcbW n ≠ 0 := by
  intro h
  have h2 := dcb_toNat n hn
  obtain ⟨k, _, hk, e⟩ := dcb_eq
  rw [h] at h2
  unfold dcbAddr at h2
  rw [e] at h2
  revert h2
  generalize chipNo * 2 ^ 42 = c
  intro h
  have : (0 : DWord).toNat = 0 := rfl
  omega
theorem domAt_0 (s : State) (c : Cmd) (h : s.fw.doms = [dom0, dom1]) : domAt s c (dcbW 0) = some 0 := by
  have e0 : dom0.id = 0 := rfl
  unfold domAt
  rw [if_neg (dcb_pos 0 (by decide))]
  simp [h, dcb_toNat 0 (by decide), e0]
theorem domAt_1 (s : State) (c : Cmd) (h : s.fw.doms = [dom0, dom1]) : domAt s c (dcbW 1) = some 1 := by
  have e0 : dom0.id = 0 := rfl
  have e1 : dom1.id = 1 := rfl
  unfold domAt
  rw [if_neg (dcb_pos 1 (by decide))]
  simp [h, dcb_toNat 1 (by decide), e0, e1, dcb_ne 0 1 (by decide)]
def pf (a : List DWord) : Cmd := ⟨.mbox 0, 0, a⟩
def two : List Dom := [dom0, dom1]
theorem witness_Commands :
    (let c : Cmd := ⟨.sys ⟨0, 0, 16⟩, 0, []⟩
     let s : State := { tst true id (blk (.sys m0 0 0) []) with cur := obj 0, fw := { cmds := [(0, c), (1, pf [])] } }
     Cmded s c ∧ (s.iss ⟨0, 0, 16⟩).wait = .block (.sys m0 0 0) .wait [0] [] 50 0 ∧
      (s.fw.cmds.filter fun e => e.1 != s.cur.n) = [(1, pf [])]) ∧
    (let c := pf []
     let s := cmS c [dom0]
     domAt s c (c.arg 1) = some 0 ∧ mayDom s c 0 = true ∧ dcbImageOk c.args = true) ∧
    (let c : Cmd := ⟨.mbox 1, 0, [0, dcbW 0]⟩
     let s := cmS c two
     domAt s c (c.arg 1) = some 0 ∧ mayDom s c 0 = false) ∧
    (let c := pf [0, dcbW 1]
     let s := cmS c two
     domAt s c (c.arg 1) = some 1 ∧ mayDom s c 1 = true ∧ cmdDom s c ≠ some 1 ∧ s.dom 1 = some dom1 ∧
      (∀ l : Lim, dom1.use l ≤ bits (c.arg l.dword) 0 l.w)) ∧
    (let c := pf [0]
     let s := cmS c two
     domAt s c (c.arg 0) = some 0 ∧ mayDom s c 0 = true ∧ cmdDom s c = some 0) ∧
    (let c := pf [dcbW 1]
     let s := cmS c two
     let s2 := { s with fw := { s.fw with queues := [{ q0 with dom := 1 }] } }
     domAt s c (c.arg 0) = some 1 ∧ cmdDom s c ≠ some 1 ∧ domInUse s 1 = false ∧ domAt s2 c (c.arg 0) = some 1 ∧ domInUse s2 1 = true) ∧
    (let c := pf [0, 4, 0]
     let s := cmS c [dom0]
     let s2 := cmS c [{ dom0 with dw := [1, 0, 0, 0, 0, 0, 0, 0] }]
     domAt s c (c.arg 2) = some 0 ∧ mayDom s c 0 = true ∧ spaceOf (c.arg 0) = 0 ∧ (c.arg 0).toNat % 64 = 0 ∧ (c.arg 1).toNat = 4 ∧
      ((List.range 64).find? fun k => (s.queue (0 * 64 + k)).isNone) = some 0 ∧ (s.ancestors 0).all (fun x => x.room .queues 1) = true ∧
      s.ancestors 0 = [dom0] ∧ (s2.ancestors 0).all (fun x => x.room .queues 1) = false) ∧
    (∀ k, k = 1 ∨ k = 2 → let c := pf [0]
     let s := { cmS c [dom0] with fw := { (cmS c [dom0]).fw with queues := [{ q0 with qstate := k }] } }
     (c.arg 0).toNat < 64 ∧ s.queue (0 * 64 + (c.arg 0).toNat) = some { q0 with qstate := k }) := by
  refine ⟨⟨⟨rfl, rfl⟩, rfl, rfl⟩, ⟨rfl, rfl, by decide⟩, ⟨domAt_0 _ _ rfl, by decide⟩,
    ⟨domAt_1 _ _ rfl, rfl, by decide, rfl, fun l => by cases l <;> exact Nat.zero_le _⟩, ⟨rfl, rfl, rfl⟩,
    ⟨domAt_1 _ _ rfl, by decide, by decide, domAt_1 _ _ rfl, by decide⟩,
    ⟨rfl, rfl, by decide, by decide, by decide, by decide, by decide, rfl, by decide⟩, fun k hk => ?_⟩
  rcases hk with rfl | rfl <;> exact ⟨by decide, rfl⟩
def cmG (c : Cmd) (f : Fw → Fw) : State := { cmS c two with fw := f (cmS c two).fw }
theorem cmG_ok (c : Cmd) (f : Fw → Fw) (h1 : (f (cmS c two).fw).cmds = [(0, c)]) (h2 : (f (cmS c two).fw).boot = 6) : Cmded (cmG c f) c := by
  refine ⟨by unfold cmG; rw [h1]; rfl, ?_⟩
  have : (cmG c f).fw.boot = 6 := h2
  simp [bootGate, this]
/-- A pointer table of three levels at the bottom of HBM. -/
def tables (s : State) : State := (s.setBytes (keyHbm 0) (toBytes 8 0x8001)).setBytes (keyHbm 0x8000) (toBytes 8 0x10001)
theorem setLow (p : DWord) (h : p.toNat % 2 ^ 15 = 15) : setBits p 0 15 0xF = p := by
  apply BitVec.eq_of_toNat_eq
  have := p.isLt
  simp only [setBits, bits, BitVec.toNat_ofNat]
  omega
theorem entryAt_two {s : State} {a b : DWord} (h1 : s.dword (keyHbm 0) = a) (a0 : bit a 0 = true) (a1 : bit a 1 = false)
    (fa : frame a = 0x8000) (h2 : s.dword (keyHbm 0x8000) = b) (b0 : bit b 0 = true) (b1 : bit b 1 = false) (fb : frame b = 0x10000) :
    entryAt s 0 2 0 3 0 = (some 0x10000, s) := by
  simp [entryAt, h1, a0, a1, fa, h2, b0, b1, fb]
theorem leafC_low (c : Nat) : (leafC c).toNat % 2 ^ 15 = 15 := by
  unfold leafC
  rw [BitVec.toNat_ofNat]
  omega
theorem leafL_eq : leafL = leafC chipNo := by unfold leafL; rfl
theorem low_of {p q : DWord} (e : p = q) (h : q.toNat % 2 ^ 15 = 15) : p.toNat % 2 ^ 15 = 15 := e ▸ h
theorem leafL_low : leafL.toNat % 2 ^ 15 = 15 := low_of leafL_eq (leafC_low chipNo)
def kvC : Cmd := pf [0, 0, 0x8000, leafL]
def kvS : State := tables { cmG kvC fun f => { f with roots := [(0, 0)] } with chip := { slots := [(0, { dw := [(0, 1)] })] } }
theorem witness_GridSlot :
    (∀ st, st = 2 ∨ st = 1 → let c := pf [0]
     let g := gr st (kindP 1)
     let s := cmG c fun f => { f with grids := [g] }
     Cmded s c ∧ gridNamed s c (fun g => g.state == 1 || g.state == 2) = some g ∧ gridNamed s c (fun _ => true) = some g ∧ s.grid g.id = some g ∧
      mayDom s c g.dom = true ∧ imagesUsed s + g.cores.length ≤ 8192 ∧ g.preq = none) ∧
    (∀ v : DWord, v = 0 ∨ v = 31 → let c := pf [0]
     let g := { gr 3 (kindP 1) with cores := [(0, 0)] }
     let x := ctx0 false [savedCore] v
     let s := cmG c fun f => { f with grids := [g], ctxs := [x] }
     Cmded s c ∧ gridNamed s c (fun g => g.state == 3) = some g ∧ s.grid g.id = some g ∧ mayDom s c g.dom = true ∧ coresFree s g = true ∧
      (s.fw.ctxs.find? fun x => x.grid == g.id) = some x ∧ (shortField s g x = if v = 31 then some 1 else none)) ∧
    (let c := pf [0]
     let s := cmG c id
     domAt s c (c.arg 0) = some 0 ∧ mayDom s c 0 = true ∧ (s.ancestors 0).all (fun x => x.room .sloe 1) = true ∧ bit ((s.slot 0).d 0) 0 = false) ∧
    (kvC.arg 0 = 0 ∧ bit ((kvS.slot 0).d 0) 0 = true ∧ mayDom kvS kvC (kvS.slot 0).dom = true ∧ (kvC.arg 1).toNat = 0 ∧ (kvC.arg 2).toNat = 2 ^ 15 ∧
      assoc kvS.fw.roots (domTenant kvS (kvS.slot 0).dom) = some 0 ∧ entryAt kvS 0 2 (kvC.arg 1).toNat 3 0 = (some 0x10000, kvS)) ∧
    (let c := pf [0, 0xCF, 1, 0]
     let d := pf [0, 1, 0, 0]
     let s := cmG c fun f => { f with roots := [(0, 0)] }
     let t := cmG d fun f => { f with roots := [(0, 0)] }
     c.host = true ∧ (c.arg 0).toNat % 2 ^ levelShift 0 = 0 ∧ assoc s.fw.roots (cmdTenant s c) = some 0 ∧ entryAt s 0 0 (c.arg 0).toNat 3 0 = (some 0, s) ∧
      s.memWf ∧ (c.arg 3).toNat = 0 ∧ (c.arg 2).toNat = 1 ∧ bit (c.arg 1) 0 = true ∧
      leafOk 0 (setBits (setBits (c.arg 1) 0 2 3) 9 6 (cmdTenant s c)) = true ∧
      assoc t.fw.roots (cmdTenant t d) = some 0 ∧ entryAt t 0 0 (d.arg 0).toNat 3 0 = (some 0, t) ∧ (d.arg 2).toNat = 0 ∧ (d.arg 1).toNat = 1) ∧
    (⟨.sys ⟨0, 0, 16⟩, 0, []⟩ : Cmd).host = false := by
  refine ⟨fun st h => ?_, fun v h => ?_, ⟨rfl, rfl, by decide, by decide⟩, ⟨rfl, by decide +kernel, rfl, rfl, by decide, by decide +kernel, ?_⟩,
    ⟨rfl, by decide, rfl, rfl, ⟨rfl, rfl⟩, by decide, by decide, by decide, by decide +kernel, rfl, rfl, by decide, by decide⟩, rfl⟩
  · rcases h with rfl | rfl <;> exact ⟨cmG_ok _ _ rfl rfl, rfl, rfl, rfl, rfl, by decide, rfl⟩
  · rcases h with rfl | rfl <;> exact ⟨cmG_ok _ _ rfl rfl, rfl, rfl, rfl, rfl, rfl, by decide +kernel⟩
  · have h1 : kvS.dword (keyHbm 0) = 0x8001 := by decide +kernel
    have h2 : kvS.dword (keyHbm 0x8000) = 0x10001 := by decide +kernel
    exact entryAt_two h1 (by decide) (by decide) (by decide) h2 (by decide) (by decide) (by decide)
theorem leafOk2_of {p : DWord} (h : LeafOk p) : leafOk 2 p = true := by
  obtain ⟨l1, l2, l3, l5, l6, l7⟩ := h
  have hlf : leafSpace p = 0 := by simp [leafSpace, l7]
  have h3 : frame p % 2 ^ levelShift 2 = 0 := by
    have : levelShift 2 = 15 := rfl
    rw [this]; omega
  have h4 : localHbm (frame p) = true := by
    have : frame p % 2 ^ 40 < hbmTop := by rw [l1]; decide
    simp [-Nat.reducePow, localHbm, hbmPart, l2, l3, this]
  have b5 : bit p 5 = false := l7 5 (by decide)
  have b8 : bit p 8 = false := l7 8 (by decide)
  simp [leafOk, hlf, l6, b5, b8, h3, layoutOk, h4]
theorem leafOk2_low {p q : DWord} (e : q = p) (h : LeafOk p) (hl : p.toNat % 2 ^ 15 = 15) : leafOk 2 (setBits q 0 15 0xF) = true := by
  rw [e, setLow p hl]
  exact leafOk2_of h
theorem kv_leaf : leafOk 2 (setBits (kvC.arg 3) 0 15 0xF) = true := leafOk2_low rfl leafL_ok leafL_low
theorem cmded {s : State} {c : Cmd} (h1 : (s.fw.cmds.find? fun e => e.1 == s.cur.n) = some (s.cur.n, c)) (h2 : s.fw.boot = 6) : Cmded s c :=
  ⟨h1, by simp [bootGate, h2]⟩
def phC (a : List DWord) (q : Sched) (o : DWord) : State := { cmS (pf a) two with chip := { sched := q, orchst := o } }
theorem witness_ScheduleCommands :
    (let c : Cmd := ⟨.mbox 1, 0, []⟩
     Cmded (cmS c two) c ∧ c.pf = false) ∧
    (let c := pf [0x8000, 64]
     Cmded (cmS c two) c ∧ c.pf = true) ∧
    (∀ t, t = 100 ∨ t = 200 → let a := [BitVec.ofNat 64 t, 1, 5]
     let s := phC a { running := true, phbStart := t } 0
     Cmded s (pf a) ∧ ((pf a).arg 0).toNat = t ∧ phbAt s t = true ∧ (s.tick < t ↔ t = 200)) ∧
    (let a := [100, 1, 5]
     let s := phC a {} 0
     Cmded s (pf a) ∧ phbAt s 100 = false) ∧
    (∀ k, k = 0 ∨ k = 1 ∨ k = 2 ∨ k = 3 → let a := [100, BitVec.ofNat 64 k, 1]
     let s := phC a { running := true, phbStart := 100 } (if k = 3 then 2 else 0)
     Cmded s (pf a) ∧ ((pf a).arg 0).toNat = s.tick ∧ phbAt s s.tick = true ∧ ((pf a).arg 1).toNat = k ∧ s.fw.grids = [] ∧
      bit s.chip.orchst (bits ((pf a).arg 2) 0 1) = decide (k = 3)) := by
  refine ⟨⟨cmded rfl rfl, rfl⟩, ⟨cmded rfl rfl, rfl⟩, fun t h => ?_, ⟨cmded rfl rfl, by decide⟩, fun k h => ?_⟩
  · rcases h with rfl | rfl <;> exact ⟨cmded rfl rfl, by decide, by decide, by decide⟩
  · rcases h with rfl | rfl | rfl | rfl <;> exact ⟨cmded rfl rfl, by decide, by decide, by decide, rfl, by decide⟩
def dbS (c : Cmd) (g : Grid) (f : Core → Core) : State :=
  { gridS g f id with cur := obj 0, fw := { (cmS c two).fw with grids := [g] } }
def hg : Grid := { gr 2 (kindP 1) with cores := [(0, 0)] }
theorem witness_DebugSessions :
    (let c := pf [0]
     let s := dbS c hg id
     domAt s c (c.arg 0) = some 0 ∧ mayDom s c 0 = true ∧ s.dom 0 = some dom0 ∧
      ((liveGrids s 0).filter fun g => g.state == 2 && !g.halted) = [hg] ∧ s.grid hg.id = some hg ∧ gridSsg s hg = false) ∧
    (let c := pf [0]
     let s0 := dbS c hg fun x => { x with modew := 4 }
     let s := { s0 with chip := { sched := { running := true, loaded := true, words := [1], frameStart := 3000 } } }
     Cmded s c ∧ domAt s c (c.arg 0) = some 0 ∧ mayDom s c 0 = true ∧ s.dom 0 = some dom0 ∧
      ((liveGrids s 0).filter fun g => g.state == 2 && !g.halted) = [hg] ∧ s.grid hg.id = some hg ∧ gridSsg s hg = true ∧
      effHalt s 0 ≠ 2 ∧ s.chip.sched.running = true ∧ ((framesAhead s).find? fun f => decide (s.tick + 2000 ≤ f.1)) = some (3000, [1], 0)) ∧
    (∀ k, k ≤ 5 → let c := pf [BitVec.ofNat 64 k, 16 * 2 ^ 12, 1, 3]
     ∀ h, h = true ∨ h = false → let s := dbS c hg fun x => { x with halt := h }
     cmdWho c = ⟨0, 0, 16⟩ ∧ (c.arg 0).toNat = k ∧ (c.arg 2).toNat = 1 ∧ (c.arg 3).toNat ≤ 5 ∧ domOfCore s 0 0 = some 0 ∧ mayDom s c 0 = true ∧
      standsStill s ⟨0, 0, 16⟩ = h ∧ s.frozen = none ∧ (s.iss ⟨0, 0, 16⟩).pend = [] ∧ ((s.coreOf ⟨0, 0, 16⟩).iss 16).pend = [] ∧
      Sparse.wf (0 : Word) (s.iss ⟨0, 0, 16⟩).vregs = true ∧ Sparse.wf (0 : DWord) (s.coreOf ⟨0, 0, 16⟩).sregs = true ∧
      Sparse.wf false (s.iss ⟨0, 0, 16⟩).preds = true) ∧
    (let c := pf [0, 16 * 2 ^ 12]
     let g := { hg with halted := true }
     let s := { dbS c g id with frozen := some 50 }
     standsStill s ⟨0, 0, 16⟩ = true ∧ s.frozen ≠ none) := by
  refine ⟨⟨rfl, rfl, rfl, rfl, rfl, by decide +kernel⟩, ⟨cmded rfl rfl, rfl, rfl, rfl, rfl, rfl, by decide +kernel, by decide, rfl, rfl⟩, fun k hk => ?_,
    by decide +kernel, by decide⟩
  intro c h hh s
  have hk2 : k = 0 ∨ k = 1 ∨ k = 2 ∨ k = 3 ∨ k = 4 ∨ k = 5 := by omega
  rcases hk2 with rfl | rfl | rfl | rfl | rfl | rfl <;> rcases hh with rfl | rfl <;>
    exact ⟨by decide, by decide, by decide, by decide, by decide +kernel, by decide, by decide +kernel, rfl, rfl, rfl, rfl, rfl, rfl⟩
def dcS (c : Cmd) (f : Dbg → Dbg) : State := { cmS c two with dbg := f {} }
def hostC (d0 : DWord) (a : List DWord) : State := pages (pkt d0 (cmS (pf a) two)) rootA leafH
theorem hostC_dwords (d0 : DWord) (a : List DWord) (n : Nat) (hn : n ≤ 128) :
    fwDwords (hostC d0 a) 0 .load (hostA 0) n = some ((pkt d0 (cmS (pf a) two)).dwords (keyHost 0) n) := by
  have hw : Memory.wf (pkt d0 (cmS (pf a) two)).mem = true := Memory.wf_setBytes rfl
  exact host_dwords (pkt d0 (cmS (pf a) two)) hw 0 n (by omega)
theorem hostC_cmded (d0 : DWord) (a : List DWord) : Cmded (hostC d0 a) (pf a) := cmded rfl rfl
theorem witness_DebugCommands_other :
    (let c := { pf [] with src := .mbox 1 }
     mayDom (dcS c id) c 0 = false) ∧ mayDom (dcS (pf []) id) (pf []) 0 = true := by decide
theorem witness_DebugCommands :
    (let c := pf [3, 1 + 2, hostA 0, 64]
     let s := dcS c fun d => { d with currant := [(0, [])] }
     Cmded s c ∧ (c.arg 0).toNat < 64 ∧ bits (c.arg 1) 4 6 = cmdTenant s c ∧ bits (c.arg 1) 16 48 = 0 ∧ bit (c.arg 1) 0 = true ∧
      (assoc s.dbg.currant (bits (c.arg 1) 10 6)).isSome = true ∧ spaceOf (c.arg 2) ≤ 3 ∧ (c.arg 2).toNat % 64 = 0 ∧ c.arg 3 ≠ 0 ∧ (c.arg 3).toNat % 64 = 0) ∧
    (let c := pf [3, 16]
     bits (c.arg 1) 4 6 ≠ cmdTenant (dcS c id) c) ∧
    (∀ d0 : DWord, d0 = 0 ∨ d0 = 0xC5 <<< 56 → let c := pf [0, hostA 0, 2]
     ∃ img, (c.arg 2).toNat = 2 ∧ fwDwords (hostC d0 c.args) 0 .load (c.arg 1) 2 = some img ∧ predImageOk 2 0 img = (d0 != 0)) ∧
    (let c := pf [10, hostA 0]
     ∃ ds, (c.arg 0).toNat = 10 ∧ fwDwords (hostC 0 c.args) 0 .load (c.arg 1) 128 = some ds ∧ ∀ e ∈ selectors ds, e % 256 < 16 ∧ e / 2 ^ 14 % 2 = 0) ∧
    (let c := pf [0, 16]
     bits (c.arg 1) 0 5 = 16 ∧ bits (c.arg 1) 5 3 = 0 ∧ bits (c.arg 1) 9 55 = 0 ∧ spaceOf (c.arg 0) = 0 ∧ (c.arg 0).toNat % 2 ^ 16 = 0) ∧
    (dcS (pf []) id).dbg.snap = [] ∧ (dcS (pf []) fun d => { d with snap := [ctx0 false [] 0] }).dbg.snap ≠ [] ∧
    (let c := pf [0, 3, 0]
     let g := { gr 4 (kindP 1) with retired := true, origin := some ⟨0, 0, 16⟩ }
     let s := { cmS c two with fw := { (cmS c two).fw with grids := [g] } }
     (s.fw.grids.find? fun g => g.launch == (c.arg 0).toNat && g.retired && g.origin.isSome) = some g ∧ mayDom s c g.dom = true ∧ (c.arg 1).toNat ≤ 6) ∧
    (∀ t, t = 0 ∨ t = 1024 → let s := { warp with tick := t, dbg := { k := 10, ringSize := 2 ^ 16, ringMode := 1 } }
     s.dbg.k ≠ 0 ∧ s.tick % 2 ^ s.dbg.k = 0 ∧ s.dbg.ringSize ≠ 0 ∧ s.dbg.ringMode ≠ 0) ∧
    (∀ v e, let ev : Eval := ⟨0, 0, ⟨0, 0, 16⟩, e, 0, v, 0, 0, 0, 0, false, 0, true⟩
     let s := { gS hg id with dbg := { evals := [ev] } }
     (s.dbg.evals.find? fun e => e.id == s.cur.n) = some ev ∧ dbgOn s 0 0 = false ∧ (s.core 0 0).grid.bind s.grid = some hg ∧ hg.halted = false) := by
  refine ⟨⟨cmded rfl rfl, by decide, by decide, by decide, by decide, rfl, by decide, by decide, by decide, by decide⟩, by decide, fun d0 h => ?_, ?_,
    ⟨by decide, by decide, by decide, by decide, by decide⟩, rfl, by decide, ⟨rfl, rfl, by decide⟩, fun t h => ?_, fun v e => ⟨rfl, rfl, rfl, rfl⟩⟩
  · refine ⟨_, rfl, hostC_dwords d0 _ 2 (by decide), ?_⟩
    rcases h with rfl | rfl <;> decide +kernel
  · exact ⟨_, rfl, hostC_dwords 0 _ 128 (by decide), by decide +kernel⟩
  · rcases h with rfl | rfl <;> decide
def mbS (b : Bool) : State := { warp with cur := obj 3, fw := { mbox := [{ fn := 3, busy := b }] } }
theorem witness_DeviceServices :
    (let c := pf [0, 0, 0, 0, 0, 0, 0, 64]
     Cmded (cmS c two) c ∧ (cmS c two).memWf ∧ c.arg 6 = 0 ∧ (c.arg 7).toNat % 64 = 0) ∧
    (let c := pf [0, 0, 0, 0, 0, 0, 1, 0]
     c.arg 6 ≠ 0) ∧
    (let c := pf [0, 4631]
     let s := { cmS c two with fw := { (cmS c two).fw with cfg := [(5, []), (0, [])] } }
     Cmded s c ∧ c.pf = true ∧ assoc s.fw.cfg 5 = some [] ∧ sigBytes + 4 ≤ (c.arg 1).toNat ∧ s.fw.extVer = 0 ∧ (c.arg 0).toNat < 6 ∧
      assoc s.fw.cfg (c.arg 0).toNat = some []) ∧
    (let c := pf [0, 16]
     let s := (cmS c two).setByte (busKey 0) 5
     Cmded s c ∧ (fromHost s (c.arg 0) (c.arg 1).toNat).headD 0 = 5) ∧
    ((mbS true).mbox 3).busy = true ∧ ((mbS false).mbox 3).busy = false ∧ (mbS false).fw.cmds = [] ∧
    warp.memWf ∧
    (let g := { gr 2 (kindP 1) with cores := [(0, 0)], dom := 1 }
     let h := { gr 2 (kindP 1) with id := 1 }
     let s := { gS g id with cur := obj 1, fw := { (cmS (pf []) two).fw with grids := [g, h] } }
     s.cur.n ≠ 0 ∧ domTenant s g.dom = s.cur.n ∧ s.grid g.id = some g ∧ g.state = 2 ∧ s.grid h.id = some h ∧
      ∀ k ∈ s.fw.grids, k.id = h.id → domTenant s k.dom ≠ s.cur.n) := by
  refine ⟨⟨cmded rfl rfl, ⟨rfl, rfl⟩, rfl, by decide⟩, by decide, ⟨cmded rfl rfl, rfl, rfl, by decide, rfl, by decide, rfl⟩, ⟨cmded rfl rfl, by decide +kernel⟩,
    rfl, rfl, rfl, ⟨rfl, rfl⟩, by decide, by decide, rfl, rfl, rfl, ?_⟩
  intro k hk e
  simp only [List.mem_cons, List.not_mem_nil, or_false] at hk
  rcases hk with rfl | rfl <;> revert e <;> decide
def eW (cls : Nat) : Env := ⟨false, cls, 32, 8, 1, false, false, false, false⟩
def eF (cls : Nat) : Env := ⟨true, cls, 32, 8, 4, false, false, false, false⟩
def mw (d b : BitVec 9) (bss : Bool) (order : BitVec 2) (off : BitVec 20) : MemF := ⟨m0, d, b, bss, 0, order, off⟩
def fm (ty : Ty) (r : Rnd) (sat : Bool) (i : BitVec 8) : Fmt := ⟨ty, r, sat, i⟩
def mm (ta tb tacc : Ty) (acc : BitVec 7) : MmaF := ⟨false, ta, tb, tacc, acc, 1, 2, false⟩
/-- R226, R227, R228: the class, the targets and the unit of the clause. -/
theorem test_wf_class :
    (Instr.sadd ⟨m0, 1, 2, 3⟩).wf (eF 0) = true ∧ (Instr.sadd ⟨m0, 1, 2, 3⟩).wf (eF 1) = false ∧ (Instr.nop false).wf (eW 6) = true ∧
    (Instr.bra m0 4).wf (eF 0) = true ∧ (Instr.bra m0 4).wf { eF 0 with targetBad := true } = false ∧
    (Instr.loop m0 1 4).wf { eF 0 with targetBad := true } = false ∧ (Instr.vmov ⟨m0, 1, 2⟩).wf { eW 1 with targetBad := true } = false ∧
    (Instr.wdef m0 1 2 3).wf (eW 2) = false ∧ (Instr.wdef m0 1 2 3).wf (eF 2) = true ∧ (Instr.ofree m0 1 2).wf (eW 2) = false ∧
    (Instr.oalloc m0 1 2 false).wf (eW 2) = false ∧ (Instr.glaunch m0 2).wf (eW 6) = false ∧
    (Instr.meet m0 1 4).wf (eF 4) = false ∧ (Instr.join m0 1).wf (eF 4) = false ∧ (Instr.dqpop m0 1).wf (eF 4) = false ∧
    (Instr.dqpop m0 30).wf (eW 4) = true ∧ (Instr.dqpop m0 31).wf (eW 4) = false ∧ (Instr.meet m0 1 4).wf { eW 4 with targetBad := true } = false ∧
    (Instr.bar m0).wf (eF 4) = false ∧ (Instr.bar m0).wf { eF 4 with bpc := 1 } = true ∧ (Instr.ssync m0).wf (eF 4) = false ∧
    (Instr.ssync m0).wf { eF 4 with boundary := true } = true ∧ (Instr.coll false 1 2).wf { eF 3 with elastic := true } = false ∧
    (Instr.coll false 1 2).wf (eF 3) = true ∧ (Instr.iret m0).wf (eF 6) = false ∧ (Instr.iret m0).wf { eF 6 with handler := true } = true := by
  decide
/-- R36, R224, R225, R285, R292, R317: registers and tiles within the partition. -/
theorem test_wf_registers :
    (Instr.vadd ⟨m0, 31, 1, .vec 2⟩ false false).wf (eW 1) = true ∧ (Instr.vadd ⟨m0, 32, 1, .vec 2⟩ false false).wf (eW 1) = false ∧
    (Instr.vsub ⟨m0, 1, 1, .vec 32⟩ false false).wf (eW 1) = false ∧ (Instr.vand ⟨m0, 1, 32, .vec 2⟩).wf (eW 1) = false ∧
    (Instr.vmax ⟨m0, 32, 1, .sca 200⟩ false).wf (eW 1) = false ∧ (Instr.vaddImm ⟨m0, 1, 32, ⟨false, 3⟩⟩).wf (eW 1) = false ∧
    (Instr.vmov ⟨m0, 1, 32⟩).wf (eW 1) = false ∧ (Instr.vmad ⟨m0, 1, 1, .vec 2⟩ 32).wf (eW 1) = false ∧
    (Instr.vcmp m0 1 32 (.vec 2) .eq).wf (eW 1) = false ∧ (Instr.vmovi m0 32 ⟨false, 3⟩).wf (eW 1) = false ∧
    (Instr.ld (mw 1 2 true 0 0) 2 false).wf (eW 2) = true ∧ (Instr.ld (mw 1 256 true 0 0) 2 false).wf (eW 2) = false ∧
    (Instr.ld (mw 1 31 false 0 0) 2 false).wf (eW 2) = false ∧ (Instr.ld (mw 1 2 false 0 0) 2 false).wf (eF 2) = false ∧
    (Instr.ld (mw 31 2 true 0 0) 3 false).wf (eW 2) = false ∧ (Instr.ld (mw 255 2 true 0 0) 3 false).wf (eF 2) = true ∧
    (Instr.ld (mw 1 2 true 0 0) 2 true).wf (eW 2) = false ∧ (Instr.ld (mw 1 2 true 2 0) 2 false).wf (eW 2) = false ∧
    (Instr.st (mw 1 2 true 1 0) 2).wf (eW 2) = false ∧ (Instr.st (mw 1 2 true 2 0) 2).wf (eW 2) = true ∧
    (Instr.stMc (mw 1 2 true 0 0x10000) 2).wf (eW 2) = false ∧ (Instr.ldh (mw 1 32 false 0 0) 2 false).wf (eW 2) = false ∧
    (Instr.atom (mw 29 2 true 0 0) true .cas).wf (eW 2) = false ∧ (Instr.atom (mw 28 2 true 0 0) true .cas).wf (eW 2) = true ∧
    (Instr.wstate m0 32 1).wf (eW 2) = false ∧ (Instr.phqry m0 32 1).wf (eW 4) = false ∧ (Instr.join m0 32).wf (eW 4) = false ∧
    (Instr.accz false 8).wf (eF 3) = false ∧ (Instr.accz false 7).wf (eF 3) = true ∧ (Instr.accmv false 1 8).wf (eF 3) = false ∧
    (Instr.rand m0 30 1 2 false).wf (eW 5) = false ∧ (Instr.sample m0 1 2 32 4).wf (eW 5) = false ∧ (Instr.tokapp m0 32 (.sca 1)).wf (eW 5) = false ∧
    (Instr.sloew m0 31 (.sca 1) 3).wf (eW 5) = false ∧ (Instr.sloeq m0 1 (.vec 32)).wf (eW 5) = false ∧ (Instr.tokget m0 1 (.vec 32) 3).wf (eW 5) = false ∧
    (Instr.csrr m0 31 3).wf (eW 6) = false ∧ (Instr.csrr m0 255 3).wf (eF 6) = true ∧ (Instr.csrs m0 (.reg 31) 3).wf (eW 6) = false ∧
    (Instr.rdtick m0 31).wf (eW 6) = false ∧ (Instr.sys m0 1 31).wf (eW 6) = false := by
  decide
/-- R245, R250, R263, R276, R279, R284, R291, R322, R334: types, roundings, conditions, orders and modes. -/
theorem test_wf_operands :
    (Instr.scmp m0 1 2 3 .un).wf (eF 0) = false ∧ (Instr.scmpImm m0 1 2 ⟨false, 3⟩ .ord).wf (eF 0) = false ∧ (Instr.vcmpImm m0 1 2 ⟨false, 3⟩ .un).wf (eW 1) = false ∧
    (Instr.vfcmp m0 1 2 (.vec 3) .f32 .ltu).wf (eW 1) = false ∧ (Instr.vfcmp m0 1 2 (.vec 3) .f32 .un).wf (eW 1) = true ∧
    (Instr.vfadd ⟨m0, 1, 2, .vec 3⟩ (fm .e4m3 .rne false 0)).wf (eW 1) = false ∧ (Instr.vfadd ⟨m0, 1, 2, .vec 3⟩ (fm .f32 .rne false 5)).wf (eW 1) = false ∧
    (Instr.vfadd ⟨m0, 1, 2, .vec 3⟩ (fm .f32 .sr false 5)).wf (eW 1) = true ∧ (Instr.vfmin ⟨m0, 1, 2, .vec 3⟩ .i8).wf (eW 1) = false ∧
    (Instr.vfabs ⟨m0, 1, 2⟩ .i32).wf (eW 1) = false ∧ (Instr.vfma ⟨m0, 1, 2, .vec 3⟩ 4 (fm .f32 .sr false 0)).wf (eW 1) = false ∧
    (Instr.vfcvt ⟨m0, 1, 2⟩ .i8 (fm .f32 .rne false 0)).wf (eW 1) = false ∧ (Instr.vfrnd ⟨m0, 1, 2⟩ (fm .f32 .rne true 0)).wf (eW 1) = false ∧
    (Instr.vsqrt ⟨m0, 1, 2⟩ (fm .f16 .rne false 0)).wf (eW 1) = false ∧ (Instr.vvote m0 1 2 3).wf (eW 1) = false ∧
    (Instr.vredx ⟨m0, 1, 2⟩ (.fadd .sr)).wf (eW 1) = false ∧ (Instr.vmxq ⟨m0, 1, 2⟩ (fm .f32 .rne false 0)).wf (eW 1) = false ∧
    (Instr.vmxdq ⟨m0, 1, 2⟩ (fm .f32 .rne false 0)).wf (eW 1) = false ∧ (Instr.vpack ⟨m0, 1, 2⟩ .f32 false).wf (eW 1) = false ∧
    (Instr.red (mw 1 2 true 0 0) false .xchg).wf (eW 2) = false ∧ (Instr.atom (mw 1 2 true 0 0) true .fadd).wf (eW 2) = false ∧
    (Instr.red (mw 1 2 true 1 0) false .add).wf (eW 2) = false ∧ (Instr.fence m0 1 0).wf (eW 2) = false ∧ (Instr.fence m0 1 2).wf (eW 2) = true ∧
    (Instr.mma (mm .e4m3 .e2m1 .f32 1) false false).wf (eF 3) = false ∧ (Instr.mma (mm .i8 .i8 .f32 1) false false).wf (eF 3) = false ∧
    (Instr.mma (mm .i8 .i8 .i32 1) false false).wf (eF 3) = true ∧ (Instr.mma (mm .i8 .i8 .i32 1) true false).wf (eF 3) = false ∧
    (Instr.mmas (mm .i8 .i8 .i32 9) 0 false).wf (eF 3) = false ∧ (Instr.mgath false .f32 1 2 false).wf (eF 3) = false ∧
    (Instr.cmprs false .bf16 1 2 3 false).wf (eF 3) = false ∧ (Instr.accld false .f16 1 2).wf (eF 3) = false ∧
    (Instr.sample m0 1 2 3 255).wf (eW 5) = false ∧ (Instr.tlbinv m0 2 3 0).wf (eF 6) = false := by
  decide
/-! Words written out from the encodings of the spec, one a constructor. -/
def mp : Mods := ⟨true, 3, true⟩
/-- The words of a list decode to their instructions. -/
def dec (l : List (Nat × Instr)) : Bool := l.all fun p => decodeTableWord 64 p.1 == some p.2
/-- R216, R226, R247 to R250. -/
theorem test_decode_scalar1 : dec [
    (0x0000028C8FF00000, .sadd ⟨m0, 10, 100, 255⟩),
    (0x800B82CCAFE00000, .ssub ⟨mp, 11, 101, 254⟩),
    (0x0010030CCFD00000, .sand ⟨m0, 12, 102, 253⟩),
    (0x801B834CEFC00000, .sor ⟨mp, 13, 103, 252⟩),
    (0x0020038D0FB00000, .sxor ⟨m0, 14, 104, 251⟩),
    (0x802B83CD2FA00000, .sandn ⟨mp, 15, 105, 250⟩),
    (0x0030040D4F900000, .sshl ⟨m0, 16, 106, 249⟩),
    (0x803B844D6F800000, .sshr ⟨mp, 17, 107, 248⟩),
    (0x0040048D8F700000, .ssar ⟨m0, 18, 108, 247⟩),
    (0x804B84CDAF600000, .srot ⟨mp, 19, 109, 246⟩),
    (0x0050050DCF500000, .smin ⟨m0, 20, 110, 245⟩),
    (0x805B854DEF400000, .smax ⟨mp, 21, 111, 244⟩),
    (0x0060058E0F300000, .sminu ⟨m0, 22, 112, 243⟩),
    (0x806B85CE2F200000, .smaxu ⟨mp, 23, 113, 242⟩),
    (0x0070024100702800, .ssel ⟨m0, 9, 8, 7⟩ 5),
    (0x0078024100000000, .smov ⟨m0, 9, 8⟩),
    (0x0200024100700000, .smul ⟨m0, 9, 8, 7⟩),
    (0x0208024100700010, .smulh ⟨m0, 9, 8, 7⟩ true),
    (0x0210024100700000, .sdiv ⟨m0, 9, 8, 7⟩),
    (0x0218024100700000, .sdivu ⟨m0, 9, 8, 7⟩)] = true := by decide
/-- R216, R226, R247 to R250. -/
theorem test_decode_scalar2 : dec [
    (0x0220024100700000, .srem ⟨m0, 9, 8, 7⟩),
    (0x0228024100700000, .sremu ⟨m0, 9, 8, 7⟩),
    (0x0300024100000000, .sclz ⟨m0, 9, 8⟩),
    (0x0308024100000000, .spopc ⟨m0, 9, 8⟩),
    (0x0310024100700010, .sbfe ⟨m0, 9, 8, 7⟩ true),
    (0x0400008080501000, .scmp m0 2 4 5 .lt)] = true := by decide
/-- R217, R226, R247, R250, R252. -/
theorem test_decode_scalarImm : dec [
    (0x0100028C80FFFFFF, .saddImm ⟨m0, 10, 100, ⟨false, 0xFFFFFF⟩⟩),
    (0x810B82CCA1FFFFFE, .ssubImm ⟨mp, 11, 101, ⟨true, 0xFFFFFE⟩⟩),
    (0x0110030CC0FFFFFD, .sandImm ⟨m0, 12, 102, ⟨false, 0xFFFFFD⟩⟩),
    (0x811B834CE1FFFFFC, .sorImm ⟨mp, 13, 103, ⟨true, 0xFFFFFC⟩⟩),
    (0x0120038D00FFFFFB, .sxorImm ⟨m0, 14, 104, ⟨false, 0xFFFFFB⟩⟩),
    (0x812B83CD21FFFFFA, .sandnImm ⟨mp, 15, 105, ⟨true, 0xFFFFFA⟩⟩),
    (0x0130040D40FFFFF9, .sshlImm ⟨m0, 16, 106, ⟨false, 0xFFFFF9⟩⟩),
    (0x813B844D61FFFFF8, .sshrImm ⟨mp, 17, 107, ⟨true, 0xFFFFF8⟩⟩),
    (0x0140048D80FFFFF7, .ssarImm ⟨m0, 18, 108, ⟨false, 0xFFFFF7⟩⟩),
    (0x814B84CDA1FFFFF6, .srotImm ⟨mp, 19, 109, ⟨true, 0xFFFFF6⟩⟩),
    (0x0150050DC0FFFFF5, .sminImm ⟨m0, 20, 110, ⟨false, 0xFFFFF5⟩⟩),
    (0x815B854DE1FFFFF4, .smaxImm ⟨mp, 21, 111, ⟨true, 0xFFFFF4⟩⟩),
    (0x0160058E00FFFFF3, .sminuImm ⟨m0, 22, 112, ⟨false, 0xFFFFF3⟩⟩),
    (0x816B85CE21FFFFF2, .smaxuImm ⟨mp, 23, 113, ⟨true, 0xFFFFF2⟩⟩),
    (0x0500008092000064, .scmpImm m0 2 4 ⟨false, 100⟩ .geu),
    (0x0600004000000003, .smovi m0 1 ⟨false, 3⟩),
    (0x0608004000FFFFC0, .smovh m0 1 0xFFFFC0)] = true := by decide
/-- R219, R226, R254, R259. -/
theorem test_decode_control : dec [
    (0x90038000FFFFFFFA, .bra mp 0xFFFFFFFA),
    (0x1008324000000007, .brc m0 201 7),
    (0x1010328000000008, .call m0 202 8),
    (0x102833400000000B, .loop m0 205 11),
    (0x101832C000000000, .ret m0 203),
    (0x1020330000000000, .jmpi m0 204),
    (0x1101000000000006, .brv ⟨false, 1, false⟩ 6),
    (0x1200000420000000, .dqpush m0 33)] = true := by decide
/-- R216, R226, R251, R260 to R262. -/
theorem test_decode_vector1 : dec [
    (0x18004B1904D0071C, .vadd ⟨m0, 300, 200, .sca 77⟩ true true),
    (0x980BCB593F300718, .vsub ⟨mp, 301, 201, .vec 499⟩ true true),
    (0x18104B995F200700, .vand ⟨m0, 302, 202, .vec 498⟩),
    (0x981BCBD964D00704, .vor ⟨mp, 303, 203, .sca 77⟩),
    (0x18204C199F000700, .vxor ⟨m0, 304, 204, .vec 496⟩),
    (0x982BCC59BEF00700, .vandn ⟨mp, 305, 205, .vec 495⟩),
    (0x18304C99C4D00704, .vshl ⟨m0, 306, 206, .sca 77⟩),
    (0x983BCCD9FED00700, .vshr ⟨mp, 307, 207, .vec 493⟩),
    (0x18404D1A1EC00700, .vsar ⟨m0, 308, 208, .vec 492⟩),
    (0x984BCD5A24D00704, .vrot ⟨mp, 309, 209, .sca 77⟩),
    (0x18504D9A5EA00710, .vmin ⟨m0, 310, 210, .vec 490⟩ true),
    (0x985BCDDA7E900710, .vmax ⟨mp, 311, 211, .vec 489⟩ true),
    (0x18604B5946703700, .vsel ⟨m0, 301, 202, .vec 103⟩ 6),
    (0x18684B5940000700, .vmov ⟨m0, 301, 202⟩),
    (0x1A004B5946700700, .vmul ⟨m0, 301, 202, .vec 103⟩),
    (0x1A084B5946700710, .vmulh ⟨m0, 301, 202, .vec 103⟩ true),
    (0x1A104B59467CA700, .vmad ⟨m0, 301, 202, .vec 103⟩ 404),
    (0x1A184B59467CA698, .vdot4 ⟨m0, 301, 202, .vec 103⟩ 404 true true),
    (0x1B004B5940000708, .vabs ⟨m0, 301, 202⟩ true),
    (0x1B084B5940000700, .vclz ⟨m0, 301, 202⟩)] = true := by decide
/-- R216, R226, R251, R260 to R262. -/
theorem test_decode_vector2 : dec [
    (0x1B104B5940000700, .vpopc ⟨m0, 301, 202⟩),
    (0x1B184B5940000700, .vbrev ⟨m0, 301, 202⟩),
    (0x1B204B5946700710, .vbfe ⟨m0, 301, 202, .vec 103⟩ true),
    (0x1B284B59467CA700, .vbfi ⟨m0, 301, 202, .vec 103⟩ 404),
    (0x1B304B59467CA700, .vpermb ⟨m0, 301, 202, .vec 103⟩ 404),
    (0x1C0000C106402F04, .vcmp m0 3 8 (.sca 100) .ge)] = true := by decide
/-- R217, R250, R252, R260. -/
theorem test_decode_vectorImm : dec [
    (0x19004B191CFFFFFE, .vaddImm ⟨m0, 300, 200, ⟨false, 0xFFFFFE⟩⟩),
    (0x990BCB593DFFFFFD, .vsubImm ⟨mp, 301, 201, ⟨true, 0xFFFFFD⟩⟩),
    (0x19104B995CFFFFFC, .vandImm ⟨m0, 302, 202, ⟨false, 0xFFFFFC⟩⟩),
    (0x991BCBD97DFFFFFB, .vorImm ⟨mp, 303, 203, ⟨true, 0xFFFFFB⟩⟩),
    (0x19204C199CFFFFFA, .vxorImm ⟨m0, 304, 204, ⟨false, 0xFFFFFA⟩⟩),
    (0x992BCC59BDFFFFF9, .vandnImm ⟨mp, 305, 205, ⟨true, 0xFFFFF9⟩⟩),
    (0x19304C99DCFFFFF8, .vshlImm ⟨m0, 306, 206, ⟨false, 0xFFFFF8⟩⟩),
    (0x993BCCD9FDFFFFF7, .vshrImm ⟨mp, 307, 207, ⟨true, 0xFFFFF7⟩⟩),
    (0x19404D1A1CFFFFF6, .vsarImm ⟨m0, 308, 208, ⟨false, 0xFFFFF6⟩⟩),
    (0x994BCD5A3DFFFFF5, .vrotImm ⟨mp, 309, 209, ⟨true, 0xFFFFF5⟩⟩),
    (0x19504D9A5CFFFFF4, .vminImm ⟨m0, 310, 210, ⟨false, 0xFFFFF4⟩⟩),
    (0x995BCDDA7DFFFFF3, .vmaxImm ⟨mp, 311, 211, ⟨true, 0xFFFFF3⟩⟩),
    (0x1D0000C10C000064, .vcmpImm m0 3 8 ⟨false, 100⟩ .ltu),
    (0x9E0000401D3F8008, .vmovi ⟨true, 0, false⟩ 1 ⟨true, 0x3F8008⟩),
    (0x1E0804C01CFFFFC0, .vmovh m0 19 0xFFFFC0)] = true := by decide
/-- R216, R263 to R269. -/
theorem test_decode_float1 : dec [
    (0x30004B59467048D8, .vfadd ⟨m0, 301, 202, .vec 103⟩ ⟨.bf16, .sr, true, 9⟩),
    (0x30084B5946700130, .vfsub ⟨m0, 301, 202, .vec 103⟩ ⟨.f16, .rup, false, 0⟩),
    (0x30104B5946700020, .vfmul ⟨m0, 301, 202, .vec 103⟩ ⟨.f32, .rdn, false, 0⟩),
    (0x30184B5946700080, .vfmin ⟨m0, 301, 202, .vec 103⟩ .bf16),
    (0x30204B5946700100, .vfmax ⟨m0, 301, 202, .vec 103⟩ .f16),
    (0x30284B5940000080, .vfabs ⟨m0, 301, 202⟩ .bf16),
    (0x30304B5940000100, .vfneg ⟨m0, 301, 202⟩ .f16),
    (0x31004B59467CA048, .vfma ⟨m0, 301, 202, .vec 103⟩ 404 ⟨.f32, .rna, true, 0⟩),
    (0x31084B59467CA0C8, .vfms ⟨m0, 301, 202, .vec 103⟩ 404 ⟨.bf16, .rna, true, 0⟩),
    (0x31104B59467CA148, .vfnma ⟨m0, 301, 202, .vec 103⟩ 404 ⟨.f16, .rna, true, 0⟩),
    (0x3200004040305000, .vfcmp m0 1 2 (.vec 3) .f32 .un),
    (0x32084B5940000100, .vfclass ⟨m0, 301, 202⟩ .f16),
    (0x33004B5940000188, .vfcvt ⟨m0, 301, 202⟩ .f32 ⟨.e4m3, .rne, true, 0⟩),
    (0x33084B5940000090, .vfrnd ⟨m0, 301, 202⟩ ⟨.bf16, .rtz, false, 0⟩),
    (0x33104B5940103950, .vftoi ⟨m0, 301, 202⟩ true ⟨.f16, .sr, false, 7⟩),
    (0x33184B5940000040, .vitof ⟨m0, 301, 202⟩ false ⟨.f32, .rna, false, 0⟩),
    (0x33204B5946700018, .vfscl ⟨m0, 301, 202, .vec 103⟩ ⟨.f32, .rtz, true, 0⟩),
    (0x34004B5940000000, .vrcp ⟨m0, 301, 202⟩),
    (0x34084B5940000000, .vrsq ⟨m0, 301, 202⟩),
    (0x34104B5940000038, .vsqrt ⟨m0, 301, 202⟩ ⟨.f32, .rup, true, 0⟩)] = true := by decide
/-- R216, R263 to R269. -/
theorem test_decode_float2 : dec [
    (0x34184B5940000000, .vexp2 ⟨m0, 301, 202⟩),
    (0x34204B5940000000, .vlog2 ⟨m0, 301, 202⟩),
    (0x34284B5940000000, .vsin ⟨m0, 301, 202⟩),
    (0x34304B5940000000, .vcos ⟨m0, 301, 202⟩),
    (0x34384B5940000000, .vtanh ⟨m0, 301, 202⟩)] = true := by decide
/-- R271 to R279. -/
theorem test_decode_lane : dec [
    (0x48004B5946701F00, .vshfl ⟨m0, 301, 202, .vec 103⟩ 3),
    (0x48084B5946100700, .vbcast ⟨m0, 301, 202⟩ (.const 97)),
    (0x48104B40A0300700, .vballot m0 301 5 3),
    (0x48180180A0001700, .vvote m0 6 5 2),
    (0x48204B5940000F10, .vredx ⟨m0, 301, 202⟩ (.min true)),
    (0x49004B5940000620, .vmxq ⟨m0, 301, 202⟩ ⟨.mx4, .rdn, false, 0⟩),
    (0x49084B5940000298, .vmxdq ⟨m0, 301, 202⟩ ⟨.e2m3, .rtz, true, 0⟩),
    (0x49104B5940000B00, .vpack ⟨m0, 301, 202⟩ .e3m2 true)] = true := by decide
/-- R218, R284 to R298. -/
theorem test_decode_memory1 : dec [
    (0xD02B8B06E88FFFFE, .ld ⟨mp, 44, 55, false, 4, 1, 0xFFFFE⟩ 1 true),
    (0x51180B06FB07FFFF, .st ⟨m0, 44, 55, true, 5, 2, 0x7FFFF⟩ 3),
    (0x51500B06ED008421, .stMc ⟨m0, 44, 55, false, 6, 2, 0x8421⟩ 2),
    (0x52200B06E0090040, .ldh ⟨m0, 44, 55, false, 0, 0, 0x90040⟩ 0 true),
    (0x5300020120A00000, .wdef m0 8 9 10),
    (0x5308000120000000, .wtouch m0 9),
    (0x53104B4120000000, .wstate m0 301 9),
    (0x5318000120000000, .wdrain m0 9),
    (0x5320000120000000, .wrel m0 9),
    (0x532801C120000000, .hwait m0 7 9),
    (0x60080B06EF800040, .atom ⟨m0, 44, 55, false, 7, 3, 64⟩ true .add),
    (0x60180B06EF800040, .atom ⟨m0, 44, 55, false, 7, 3, 64⟩ true .and),
    (0x60280B06EF800040, .atom ⟨m0, 44, 55, false, 7, 3, 64⟩ true .or),
    (0x60380B06EF800040, .atom ⟨m0, 44, 55, false, 7, 3, 64⟩ true .xor),
    (0x60480B06EF800040, .atom ⟨m0, 44, 55, false, 7, 3, 64⟩ true .minS),
    (0x60580B06EF800040, .atom ⟨m0, 44, 55, false, 7, 3, 64⟩ true .maxS),
    (0x60680B06EF800040, .atom ⟨m0, 44, 55, false, 7, 3, 64⟩ true .minU),
    (0x60780B06EF800040, .atom ⟨m0, 44, 55, false, 7, 3, 64⟩ true .maxU),
    (0x60880B06EF800040, .atom ⟨m0, 44, 55, false, 7, 3, 64⟩ true .xchg),
    (0x60980B06EF800040, .atom ⟨m0, 44, 55, false, 7, 3, 64⟩ true .cas)] = true := by decide
/-- R218, R284 to R298. -/
theorem test_decode_memory2 : dec [
    (0x61A00B06F9000040, .red ⟨m0, 44, 55, true, 4, 2, 64⟩ false .fadd),
    (0x61B00B06F9000040, .red ⟨m0, 44, 55, true, 4, 2, 64⟩ false .fmin),
    (0x61C00B06F9000040, .red ⟨m0, 44, 55, true, 4, 2, 64⟩ false .fmax),
    (0x62000542C0000800, .oalloc m0 21 22 true),
    (0x62080542C0000000, .ofree m0 21 22),
    (0x630000000D800000, .fence m0 6 3)] = true := by decide
/-- R304 to R314. -/
theorem test_decode_sync : dec [
    (0x6800000000000000, .bar m0),
    (0x6808000000000000, .ssync m0),
    (0x6900038320000000, .phreg m0 14 25 .sig),
    (0x6900038320000800, .phreg m0 14 25 .wait),
    (0x6900038320001000, .phreg m0 14 25 .sw),
    (0x69080001C0000000, .phdrop m0 14),
    (0x69100001C0000000, .phsig m0 14),
    (0x69180141C0000000, .phwait m0 5 14),
    (0x69200141C0000000, .phsw m0 5 14),
    (0x69284B41C0000000, .phqry m0 301 14),
    (0x6A00000080000003, .rgn false 0x80000003),
    (0x6B004B400000002A, .meet m0 301 42),
    (0x6B084B4000000000, .join m0 301),
    (0x6C004B4000000000, .dqpop m0 301)] = true := by decide
/-- R220, R316. -/
theorem test_decode_matrix : dec [
    (0xF0890017CF280000, .mma ⟨true, .mx8e4, .mx8e5, .f32, 95, 3, 12, true⟩ false true),
    (0x71DDEE17CF068000, .mmas ⟨false, .i8, .i8, .i32, 95, 3, 12, false⟩ 6 true),
    (0x721000064D800000, .mgath false .bf16 3 77 true),
    (0x72C000278D000000, .cmprs false .mx4 3 12 6 true),
    (0x73000017C0000000, .accz false 95),
    (0x73000037C3800000, .accmv false 95 7),
    (0x7300E057F0000000, .accld false .i32 95 12),
    (0x74000217FFD8E400, .epi ⟨false, .f32, .f16, 95, 3, true, true, 61, 35, .rna, true⟩),
    (0x7400003934000000, .epset false 3 77),
    (0x7500001134000000, .efork false 2 77),
    (0x7500003000000000, .erdv false 2),
    (0x76000004D9000000, .coll false 77 9),
    (0x76000024D9000000, .cwait false 77 9)] = true := by decide
/-- R352 to R357. -/
theorem test_decode_sequence : dec [
    (0x78004B4000226800, .rand m0 301 77 2 true),
    (0x78084B5946726800, .sample m0 301 202 103 77),
    (0x7900001946700000, .tokapp m0 202 (.vec 103)),
    (0x7900001946700804, .tokappD m0 202 (.sca 103)),
    (0x7908001946700000, .tokconf m0 202 (.vec 103)),
    (0x79104B4006703800, .tokget m0 301 (.vec 103) 7),
    (0x7A00001946787800, .sloew m0 202 (.vec 103) 271),
    (0x7A084B4006787804, .sloer m0 301 (.sca 103) 271),
    (0x7A104B4006700000, .sloeq m0 301 (.vec 103))] = true := by decide
/-- R221, R369 to R373. -/
theorem test_decode_system : dec [
    (0x7C004B6404000000, .csrr m0 301 0x901),
    (0xFC0BCB603C000000, .csrw mp 301 0x80F),
    (0x7C10000008018421, .csrs m0 (.imm 0x8421) 2),
    (0x7C184B4008000000, .csrc m0 (.reg 301) 2),
    (0x7C204B4000000000, .rdtick m0 301),
    (0x7D00000000000000, .trapf m0),
    (0x7D0800000000ABCD, .trap m0 0xABCD),
    (0x7D104B4000001234, .sys m0 0x1234 301),
    (0x7D1800000000ABCD, .bkpt m0 0xABCD),
    (0x7D20000000000000, .halt m0),
    (0x7D28000000000000, .iret m0),
    (0x7D304B40000000FD, .tlbinv m0 301 1 63),
    (0x7E00194000000000, .glaunch m0 101),
    (0xFF00000000000000, .nop true)] = true := by decide
def actKind : Act → Nat
  | .inbox .. => 0 | .agenda .. => 1 | .reentry _ => 2 | .turn _ => 3 | .instr _ => 4 | .idle => 5 | .retry _ => 6
def word (s : State) (w : Nat) : State := (s.setBytes (keyCode 0 0) (toBytes 8 0xC500000000000060)).setBytes (keyCode 0 8) (toBytes 8 w)
def noRegion (s : State) : State := s.updIss ⟨0, 0, 16⟩ fun me => { me with regions := [] }
theorem witness_StepRunsDecoded :
    nextAct (word front 0x7D20000000000000) = .instr ⟨0, 0, 16⟩ ∧ (fetchInstr (word front 0x7D20000000000000) ⟨0, 0, 16⟩).toOption = some (.halt m0) ∧
    ((word front 0x7D20000000000000).iss ⟨0, 0, 16⟩).openRegion ≠ none ∧
    nextAct (noRegion (word front 0x7D20000000000000)) = .instr ⟨0, 0, 16⟩ ∧
    (fetchInstr (noRegion (word front 0x7D20000000000000)) ⟨0, 0, 16⟩).toOption = some (.halt m0) ∧
    ((noRegion (word front 0x7D20000000000000)).iss ⟨0, 0, 16⟩).openRegion = none ∧
    nextAct (word front 0x7D38000000000000) = .instr ⟨0, 0, 16⟩ ∧ (match fetchInstr (word front 0x7D38000000000000) ⟨0, 0, 16⟩ with | .error k => k | .ok _ => 0) = 7 ∧
    actKind (nextAct { warp with inbox := [(100, obj 0, .mbstatRead)] }) = 0 ∧ actKind (nextAct State.reset) = 1 ∧
    actKind (nextAct (tst false (fun c => { c with inTurn := false }) fun me => { me with redo := some {}, regions := [] })) = 2 ∧
    actKind (nextAct (tst false (fun c => { c with inTurn := false }) id)) = 3 ∧ actKind (nextAct { State.reset with agenda := [] }) = 5 ∧
    ({ State.reset with powered := false } : State).powered = false ∧ State.reset.powered = true := by
  decide +kernel
theorem witness_DecodeEncode :
    (Instr.halt m0).wf (eF 6) = true ∧ encode (.halt m0) = some 0x7D20000000000000 ∧
    (decode (eF 6) 0x7D20000000000000).toOption = some (.halt m0) := by
  decide +kernel
theorem witness_StepKeepsMemory : State.reset.memWf ∧ (match step State.reset with | .next _ => true | _ => false) = true :=
  ⟨⟨rfl, rfl⟩, by decide +kernel⟩
theorem witness_RegisterReading :
    let p : Pend := { vis := 5, tgt := .v 3, vals := [(0, 9)], rnum := 1, home := noHome, itick := 2 }
    let q : Pend := { p with vals := [(0, 8)] }
    p.tgt = .v 3 ∧ p.vis ≤ 7 ∧ pendVal p 0 = some 9 ∧ (∀ r ∈ [q], r.tgt = .v 3 → r.vis ≤ 7 → pendVal r 0 ≠ none → r.vis < p.vis ∨ r.vis = p.vis ∧ r.itick ≤ p.itick) ∧
      (∀ r ∈ [{ q with itick := 1 }], r.tgt = .v 3 → r.vis ≤ 7 → pendVal r 0 ≠ none → r.vis < p.vis ∨ r.vis = p.vis ∧ r.itick < p.itick) ∧
      (∀ r ∈ [p], r.tgt = .v 3 → r.vis ≤ 7 → pendVal r 1 = none) := by
  decide
/-! One step of an instruction on chosen values; the results are worked out from the rules named. -/
/-- What scalar register 1 holds 20 ticks after an instruction of the front thread with s2 and s3 given. -/
def sca (i : Instr) (a b : DWord) : Option DWord :=
  match exec i (tst true (fun c => { c with sregs := [(2, a), (3, b)] }) id) with
  | .next t => some ((t.coreOf ⟨0, 0, 16⟩).sreg 120 1)
  | _ => none
/-- What lane 0 of vector register 1 holds 30 ticks after an instruction of warp 0 with v2 and v3 given there. -/
def vecR (i : Instr) (a b : Word) : Option Word :=
  match exec i (tst false id fun me => { me with vregs := [(2 * 128, a), (3 * 128, b)] }) with
  | .next t => some ((t.iss ⟨0, 0, 0⟩).v 130 1 0)
  | _ => none
def sc3 : S3 := ⟨m0, 1, 2, 3⟩
def ve3 : V3 := ⟨m0, 1, 2, .vec 3⟩
/-- R247: wrapping, shift counts at and past the width, signed and unsigned order. -/
theorem test_scalar_arithmetic :
    sca (.sadd sc3) 0xFFFFFFFFFFFFFFFF 2 = some 1 ∧ sca (.ssub sc3) 0 1 = some 0xFFFFFFFFFFFFFFFF ∧ sca (.sandn sc3) 0xF 5 = some 0xA ∧
    sca (.sshl sc3) 1 64 = some 0 ∧ sca (.ssar sc3) 0x8000000000000000 100 = some 0xFFFFFFFFFFFFFFFF ∧ sca (.sshr sc3) 0x8000000000000000 63 = some 1 ∧
    sca (.srot sc3) 0x8000000000000001 65 = some 3 ∧ sca (.smin sc3) 0xFFFFFFFFFFFFFFFF 1 = some 0xFFFFFFFFFFFFFFFF ∧
    sca (.sminu sc3) 0xFFFFFFFFFFFFFFFF 1 = some 1 := by
  decide +kernel
/-- R248: division by zero, and of the most negative number by -1. -/
theorem test_scalar_divide :
    sca (.sdiv sc3) 7 0 = some 0xFFFFFFFFFFFFFFFF ∧ sca (.srem sc3) 7 0 = some 7 ∧
    sca (.sdiv sc3) 0x8000000000000000 0xFFFFFFFFFFFFFFFF = some 0x8000000000000000 ∧ sca (.srem sc3) 0x8000000000000000 0xFFFFFFFFFFFFFFFF = some 0 ∧
    sca (.sdiv sc3) 0xFFFFFFFFFFFFFFF9 2 = some 0xFFFFFFFFFFFFFFFD ∧ sca (.srem sc3) 0xFFFFFFFFFFFFFFF9 2 = some 0xFFFFFFFFFFFFFFFF ∧
    sca (.smulh sc3 false) 0xFFFFFFFFFFFFFFFF 2 = some 0xFFFFFFFFFFFFFFFF ∧ sca (.smulh sc3 true) 0xFFFFFFFFFFFFFFFF 2 = some 1 := by
  decide +kernel
/-- R249: a field that passes the top bit, signed and unsigned. -/
theorem test_scalar_field :
    sca (.sbfe sc3 false) 0x8000000000000000 (60 + 8 * 256) = some 0xFFFFFFFFFFFFFFF8 ∧ sca (.sbfe sc3 true) 0x8000000000000000 (60 + 8 * 256) = some 8 ∧
    sca (.sclz ⟨m0, 1, 2⟩) 1 0 = some 63 ∧ sca (.sclz ⟨m0, 1, 2⟩) 0 0 = some 64 ∧ sca (.spopc ⟨m0, 1, 2⟩) 0xF0F 0 = some 8 := by
  decide +kernel
/-- R260 to R262: saturation, wrapping, byte dot product, field insertion, byte permutation. -/
theorem test_vector_arithmetic :
    vecR (.vadd ve3 false true) 0x7FFFFFFF 1 = some 0x7FFFFFFF ∧ vecR (.vadd ve3 false false) 0x7FFFFFFF 1 = some 0x80000000 ∧
    vecR (.vsub ve3 true true) 1 2 = some 0 ∧ vecR (.vmulh ve3 false) 0xFFFFFFFF 2 = some 0xFFFFFFFF ∧ vecR (.vdot4 ve3 3 false false) 0xFF020304 0x01010101 = some 0x01010109 ∧
    vecR (.vabs ⟨m0, 1, 2⟩ true) 0x80000000 0 = some 0x7FFFFFFF ∧ vecR (.vabs ⟨m0, 1, 2⟩ false) 0x80000000 0 = some 0x80000000 ∧
    vecR (.vpermb ve3 2) 0x44332211 0x80030201 = some 0x00443322 ∧ vecR (.vbrev ⟨m0, 1, 2⟩) 1 0 = some 0x80000000 := by
  decide +kernel
/-- R264, R100: rounding of one half unit, signed zero, the exact error of a square as in chapter 10. -/
theorem test_float_arithmetic :
    vecR (.vfadd ve3 ⟨.f32, .rne, false, 0⟩) 0x3F800000 0x33800000 = some 0x3F800000 ∧ vecR (.vfadd ve3 ⟨.f32, .rup, false, 0⟩) 0x3F800000 0x33800000 = some 0x3F800001 ∧
    vecR (.vfsub ve3 ⟨.f32, .rdn, false, 0⟩) 0x3F800000 0x3F800000 = some 0x80000000 ∧ vecR (.vfmul ve3 ⟨.f32, .rne, false, 0⟩) 0x3F800800 0x3F800800 = some 0x3F801000 ∧
    vecR (.vfms ve3 3 ⟨.f32, .rne, false, 0⟩) 0x3F800000 0x40000000 = some 0 ∧ vecR (.vfclass ⟨m0, 1, 2⟩ .f32) 0x7FC00000 0 = some 0x200 := by
  decide +kernel
/-- R268, R278, R279: conversions at their limits, an MX element with its scale. -/
theorem test_conversions :
    vecR (.vfcvt ⟨m0, 1, 2⟩ .f32 ⟨.e4m3, .rne, true, 0⟩) 0x44000000 0 = some 0x7E ∧ vecR (.vftoi ⟨m0, 1, 2⟩ false ⟨.f32, .rtz, false, 0⟩) 0x4F000000 0 = some 0x7FFFFFFF ∧
    vecR (.vitof ⟨m0, 1, 2⟩ false ⟨.f32, .rne, false, 0⟩) 0xFFFFFFFF 0 = some 0xBF800000 ∧ vecR (.vmxdq ⟨m0, 1, 2⟩ ⟨.mx4, .rne, false, 0⟩) 0x00008002 0 = some 0x40000000 := by
  decide +kernel
/-- R269, R270: exact cases of the transcendental functions. -/
theorem test_transcendentals :
    vecR (.vrcp ⟨m0, 1, 2⟩) 0 0 = some 0x7F800000 ∧ vecR (.vsqrt ⟨m0, 1, 2⟩ ⟨.f32, .rne, false, 0⟩) 0x40800000 0 = some 0x40000000 := by
  decide +kernel
end Sys2Proof.Tests
end

/-! ### Frames: when the registers, memory and stamps of SameBut stay -/
namespace Sys2Proof.Machine

/-- Equal memory, stamps, chip and cores: every reading of SameBut stays. -/
theorem SameBut.of_fields {s t : State} {w : Iss} (hm : t.mem = s.mem) (hs : t.stamps = s.stamps)
    (hc : t.chip = s.chip) (hk : t.cores = s.cores) : SameBut s t w id := by
  have hcore : ∀ cl co, t.core cl co = s.core cl co := fun cl co => by simp only [State.core, hk]
  have hiss : ∀ v, t.iss v = s.iss v := fun v => by simp only [State.iss, hcore]
  exact {
    bytes := fun k => by simp only [State.byte, hm]
    stamps := hs
    chip := by rw [hc]
    clusters := fun cl => by rw [hc]
    cores := fun cl co => by rw [hcore]
    others := fun v _ => by rw [hiss]
    own := by rw [hiss]; rfl }

theorem SameBut.refl (s : State) (w : Iss) : SameBut s s w id := .of_fields rfl rfl rfl rfl

theorem SameBut.trans {s t u : State} {w : Iss} (h : SameBut s t w id) (k : SameBut t u w id) :
    SameBut s u w id where
  bytes n := (k.bytes n).trans (h.bytes n)
  stamps := k.stamps.trans h.stamps
  chip := k.chip.trans h.chip
  clusters cl := (k.clusters cl).trans (h.clusters cl)
  cores cl co := (k.cores cl co).trans (h.cores cl co)
  others v hv := (k.others v hv).trans (h.others v hv)
  own := k.own.trans h.own

theorem Issuer.regs_of_kept {a b : Issuer} (h : a.kept = b.kept) : a.regs = b.regs :=
  show a.kept.regs = b.kept.regs by rw [h]
theorem Core.regs_of_kept {a b : Core} (h : a.kept = b.kept) : a.regs = b.regs :=
  show a.kept.regs = b.kept.regs by rw [h]

/-- A change at one issuer that keeps its registers. -/
theorem AtIssuer.sameBut {s t : State} {w : Iss} (h : AtIssuer s t w)
    (hw : (t.iss w).regs = (s.iss w).regs) : SameBut s t w id where
  bytes k := by simp only [State.byte, mem_of_kept h.kept]
  stamps := show t.kept.stamps = s.kept.stamps by rw [h.kept]
  chip := show t.kept.chip.regs = s.kept.chip.regs by rw [h.kept]
  clusters cl := show (t.kept.chip.cluster cl).regs = (s.kept.chip.cluster cl).regs by rw [h.kept]
  cores cl co := by
    by_cases hc : cl = w.cl ∧ co = w.co
    · obtain ⟨rfl, rfl⟩ := hc
      exact Core.regs_of_kept h.core
    · rw [h.cores cl co hc]
  others v hv := by
    by_cases hc : v.cl = w.cl ∧ v.co = w.co
    · have hn : v.n ≠ w.n := fun hn => hv (by
        obtain ⟨cl, co, n⟩ := v
        obtain ⟨cl', co', n'⟩ := w
        simp only at hc hn
        rw [hc.1, hc.2, hn])
      have := h.iss v.n hn
      simp only [State.coreOf, ← hc.1, ← hc.2] at this
      simp only [State.iss, this]
    · simp only [State.iss, h.cores _ _ hc]
  own := hw

/-- Nothing that software reads changes, and of issuer w neither the results in flight nor the PCs. -/
structure KeepsRegs (s t : State) (w : Iss) : Prop where
  same : SameBut s t w id
  mem : t.mem = s.mem
  pend : (t.iss w).pend = (s.iss w).pend
  pcs : (t.iss w).pcs = (s.iss w).pcs

theorem KeepsRegs.refl (s : State) (w : Iss) : KeepsRegs s s w := ⟨.refl s w, rfl, rfl, rfl⟩
theorem KeepsRegs.trans {s t u : State} {w : Iss} (h : KeepsRegs s t w) (k : KeepsRegs t u w) : KeepsRegs s u w :=
  ⟨h.same.trans k.same, k.mem.trans h.mem, k.pend.trans h.pend, k.pcs.trans h.pcs⟩

/-- An update of an issuer's bookkeeping. -/
theorem keepsRegs_updIss (s : State) (w : Iss) (f : Issuer → Issuer) (hs : (f (s.iss w)).slot = w.n)
    (hr : (f (s.iss w)).regs = (s.iss w).regs) (hp : (f (s.iss w)).pend = (s.iss w).pend)
    (hc : (f (s.iss w)).pcs = (s.iss w).pcs) : KeepsRegs s (s.updIss w f) w where
  same := (atIssuer_updIss s w f hs).sameBut (by rw [iss_updIss _ _ _ hs, hr])
  mem := rfl
  pend := by rw [iss_updIss _ _ _ hs, hp]
  pcs := by rw [iss_updIss _ _ _ hs, hc]
theorem keepsRegs_sched (s : State) (w : Iss) (t : Nat) (o : Iss) (i : Instr) : KeepsRegs s (s.sched t o i) w :=
  ⟨.of_fields rfl rfl rfl rfl, rfl, rfl, rfl⟩
theorem keepsRegs_foldCrc (s : State) (w : Iss) (ds : List DWord) : KeepsRegs s (foldCrc s w ds) w := by
  obtain ⟨hat, hkept, hpend, hpcs, -, -⟩ := foldCrc_spec s w ds
  exact ⟨hat.sameBut (Issuer.regs_of_kept hkept), mem_of_kept hat.kept, hpend, hpcs⟩

/-- An instruction's end, after a change that keeps PCs and code: the issuer goes on at the next instruction. -/
theorem finish_advances {s u : State} {m : Mods} (hm : u.mem = s.mem) (hp : (u.iss s.cur).pcs = (s.iss s.cur).pcs) :
    Advances s (finish (s.ctx m) u {}) m := by
  obtain ⟨-, -, -, -, hpcs, hwait⟩ := finish_spec (s.ctx m) u {}
  have hw : (s.ctx m).w = s.cur := rfl
  rw [hw] at hpcs hwait
  refine ⟨?_, hwait⟩
  rw [hpcs]
  simp only [finPcs, hw, hp, nextPc_of_mem hm]
  rfl

theorem finish_sameRegs {s u : State} {m : Mods} (h : KeepsRegs s u s.cur) :
    SameRegs s (finish (s.ctx m) u {}) := by
  obtain ⟨hat, hkept, hpend, -, -, -⟩ := finish_spec (s.ctx m) u {}
  have hw : (s.ctx m).w = s.cur := rfl
  rw [hw] at hat hkept hpend
  exact ⟨h.same.trans (hat.sameBut (Issuer.regs_of_kept hkept)), hpend.trans h.pend⟩
end Sys2Proof.Machine


/-! ### Held effects: what `emit` and `holdOp` do (R120, R177, R281) -/
namespace Sys2Proof.Machine

theorem mapOpen_openRegion_isNone (me : Issuer) (f : Region → Region) (h : ∀ r, (f r).closed = r.closed) :
    (me.mapOpen f).openRegion.isNone = me.openRegion.isNone := by
  simp only [Issuer.openRegion, Issuer.mapOpen, ← List.map_reverse]
  cases me.regions.reverse with
  | nil => rfl
  | cons r l => cases hc : r.closed <;> simp [hc, h]

/-- Folding words into the check of pair mode changes neither which regions are closed nor what they hold. -/
theorem foldCrc_regions (s : State) (w : Iss) (ds : List DWord) :
    ((foldCrc s w ds).iss w).openRegion.isNone = (s.iss w).openRegion.isNone ∧
      ((foldCrc s w ds).iss w).regions.map (fun r => (r.closed, r.held)) =
        (s.iss w).regions.map fun r => (r.closed, r.held) := by
  unfold foldCrc
  split
  · rw [iss_updIss _ _ _ (by simp [Issuer.mapOpen])]
    refine ⟨mapOpen_openRegion_isNone _ _ fun _ => rfl, ?_⟩
    simp only [Issuer.mapOpen, List.map_map]
    refine List.map_congr_left fun r _ => ?_
    simp only [Function.comp]
    split <;> rfl
  · exact ⟨rfl, rfl⟩

/-- What `kickPres` does: the presentation is set, at tick t when none was under way. -/
theorem kickPres_spec (s : State) (w : Iss) (t : Nat) :
    KeepsRegs s (kickPres s w t) w ∧ (kickPres s w t).iss w = { s.iss w with presBusy := true } ∧
      ((s.iss w).presBusy = false → (t, w, Instr.heldEffectPresentation) ∈ (kickPres s w t).agenda) := by
  unfold kickPres
  cases hb : (s.iss w).presBusy with
  | true =>
    refine ⟨.refl _ _, ?_, fun h => by cases h⟩
    rw [if_pos rfl]
    exact congrArg (fun b => { s.iss w with presBusy := b }) hb
  | false =>
    rw [if_neg Bool.false_ne_true]
    have hslot : ({ s.iss w with presBusy := true } : Issuer).slot = w.n := state_iss_slot s w
    exact ⟨(keepsRegs_updIss s w (fun me => { me with presBusy := true }) hslot rfl rfl rfl).trans (keepsRegs_sched _ _ _ _ _),
      iss_updIss s w (fun me => { me with presBusy := true }) hslot,
      fun _ => List.mem_append_right _ (List.mem_singleton.2 rfl)⟩

/-- The held effects of regions after one more in the open region. -/
theorem map_held_mapOpen {me me' : Issuer} (h : Held)
    (e : me'.regions.map (fun r => (r.closed, r.held)) = me.regions.map fun r => (r.closed, r.held)) :
    (me'.mapOpen fun r => { r with held := r.held ++ [h] }).regions.map (·.held) =
      me.regions.map fun r => if r.closed.isNone then r.held ++ [h] else r.held := by
  have hl := congrArg (List.map fun p : Option Nat × List Held => if p.1.isNone then p.2 ++ [h] else p.2) e
  simp only [List.map_map, Function.comp_def] at hl
  rw [← hl]
  simp only [Issuer.mapOpen, List.map_map]
  refine List.map_congr_left fun r _ => ?_
  simp only [Function.comp]
  split <;> rfl

/-- The held effects of regions, from their closing ticks and held effects. -/
theorem map_held_of_pairs {l k : List Region}
    (e : l.map (fun r => (r.closed, r.held)) = k.map fun r => (r.closed, r.held)) :
    l.map (·.held) = k.map (·.held) := by
  have := congrArg (List.map Prod.snd) e
  simpa only [List.map_map, Function.comp_def] using this

/-- Holding an effect (R120, R177) adds it where the issuer's mode and region say, and keeps the registers. -/
theorem emit_spec (s : State) (h : Held) :
    KeepsRegs s (emit s s.cur h) s.cur ∧ HeldAdded s (emit s s.cur h) h := by
  unfold emit
  generalize (h.lanes.map fun l => l.va :: l.ops).flatten ++ h.vals = ds
  obtain ⟨hat, hkept, -, -, -, -⟩ := foldCrc_spec s s.cur ds
  obtain ⟨hopen, hregs⟩ := foldCrc_regions s s.cur ds
  have hfold := keepsRegs_foldCrc s s.cur ds
  have htick : (foldCrc s s.cur ds).tick = s.tick := show (foldCrc s s.cur ds).kept.tick = s.kept.tick by rw [hat.kept]
  have hlean : ((foldCrc s s.cur ds).coreOf s.cur).lean = (s.coreOf s.cur).lean :=
    show ((foldCrc s s.cur ds).coreOf s.cur).kept.lean = (s.coreOf s.cur).kept.lean by rw [hat.core]
  have hpresq : ((foldCrc s s.cur ds).iss s.cur).presq = (s.iss s.cur).presq :=
    show ((foldCrc s s.cur ds).iss s.cur).kept.presq = (s.iss s.cur).kept.presq by rw [hkept]
  have hbusy : ((foldCrc s s.cur ds).iss s.cur).presBusy = (s.iss s.cur).presBusy :=
    show ((foldCrc s s.cur ds).iss s.cur).kept.presBusy = (s.iss s.cur).kept.presBusy by rw [hkept]
  generalize foldCrc s s.cur ds = u at *
  have hslot := state_iss_slot u s.cur
  dsimp only
  by_cases hc : (s.coreOf s.cur).lean = true ∨ (s.iss s.cur).openRegion = none
  · rw [if_pos (by simpa [hlean, hopen] using hc), htick]
    have hq : (u.updIss s.cur fun me => { me with presq := me.presq ++ [h] }).iss s.cur =
      { u.iss s.cur with presq := (u.iss s.cur).presq ++ [h] } := iss_updIss u s.cur _ hslot
    obtain ⟨hk, hi, ha⟩ := kickPres_spec (u.updIss s.cur fun me => { me with presq := me.presq ++ [h] }) s.cur s.tick
    rw [hq] at hi ha
    refine ⟨(hfold.trans (keepsRegs_updIss u s.cur _ hslot rfl rfl rfl)).trans hk, ?_⟩
    rw [HeldAdded, if_pos hc, hi]
    exact ⟨by rw [hpresq], rfl, map_held_of_pairs hregs, fun hb => ha (hbusy.trans hb)⟩
  · rw [if_neg (by simpa [hlean, hopen] using hc)]
    refine ⟨hfold.trans (keepsRegs_updIss u s.cur _ hslot rfl rfl rfl), ?_⟩
    rw [HeldAdded, if_neg hc, iss_updIss _ _ _ hslot]
    exact ⟨hpresq, map_held_mapOpen h hregs⟩

theorem Issuer.presq_of_kept {a b : Issuer} (h : a.kept = b.kept) : a.presq = b.presq :=
  show a.kept.presq = b.kept.presq by rw [h]
theorem Issuer.presBusy_of_kept {a b : Issuer} (h : a.kept = b.kept) : a.presBusy = b.presBusy :=
  show a.kept.presBusy = b.kept.presBusy by rw [h]
theorem Issuer.allHeld_of_kept {a b : Issuer} (h : a.kept = b.kept) (hr : a.regions = b.regions) :
    a.allHeld = b.allHeld := by
  rw [Issuer.allHeld, Issuer.allHeld, presq_of_kept h, hr]

/-- What the end of an instruction keeps of an effect just held. -/
theorem HeldAdded.of_kept {s u t : State} {h : Held} (ha : HeldAdded s u h) (hk : t.kept = u.kept)
    (hi : (t.iss s.cur).kept = (u.iss s.cur).kept) (hr : (t.iss s.cur).regions = (u.iss s.cur).regions) :
    HeldAdded s t h := by
  have hagenda : t.agenda = u.agenda := show t.kept.agenda = u.kept.agenda by rw [hk]
  simpa only [HeldAdded, hagenda, Issuer.presq_of_kept hi, Issuer.presBusy_of_kept hi, hr] using ha

/-- A meaning that is one held effect is a command (R177, R281). -/
theorem heldInstr_of_holdOp {i : Instr} {m : Mods} {s : State} {h : Ctx → Held}
    (he : exec i s = holdOp (s.ctx m) (h (s.ctx m))) (hr : regionCause (s.ctx m) [] = none) : HeldInstr i m s h := by
  by_cases ha : (s.ctx m).act = []
  · obtain ⟨-, hkept, -, hregs, -, -⟩ := finish_spec (s.ctx m) s {}
    refine ⟨finish (s.ctx m) s {}, ?_, ?_, finish_advances rfl rfl, finish_sameRegs (.refl _ _)⟩
    · rw [he, holdOp, hr, ha]
      rfl
    · rw [if_pos ha]
      exact Issuer.allHeld_of_kept hkept hregs
  · obtain ⟨hemit, hadd⟩ := emit_spec s (h (s.ctx m))
    obtain ⟨hat, hkept, -, hregs, -, -⟩ := finish_spec (s.ctx m) (emit s s.cur (h (s.ctx m))) {}
    refine ⟨finish (s.ctx m) (emit s s.cur (h (s.ctx m))) {}, ?_, ?_, finish_advances hemit.mem hemit.pcs,
      finish_sameRegs hemit⟩
    · rw [he, holdOp, hr, if_neg (by rwa [List.isEmpty_iff])]
      rfl
    · rw [if_neg ha]
      exact hadd.of_kept hat.kept hkept hregs
end Sys2Proof.Machine

/-! ### Special registers: their values (R7, R151, R189, R231) -/
namespace Sys2Proof.Machine

/-- An issuer that holds no effects sees the stored word (R177). -/
theorem csrSeen_of_noneHeld {me : Issuer} (h : me.allHeld = []) (n : Nat) : csrSeen me n = csrWord me n := by
  rw [csrSeen, h]
  rfl
theorem csrShow_user {n : Nat} (h : n < 0x800) (x : Ctx) (l : Nat) : csrShow x n l = csrRead x n l := if_pos h
/-- The privileged view of a register that it writes: the stored word, when the issuer holds no effects (R7, R177). -/
theorem csrShow_privileged_of_noneHeld {x : Ctx} {n : Nat} (hn : 0x800 ≤ n) (hm : csrMask n ≠ 0)
    (ha : x.me.allHeld = []) (l : Nat) : csrShow x n l = csrStored x.s x.w n := by
  rw [csrShow, if_neg (Nat.not_lt.2 hn), if_neg hm, ha]
  rfl

theorem bits_zero_toNat (d : DWord) {n : Nat} (hn : n ≤ 64) : (BitVec.ofNat 64 (bits d 0 n)).toNat = d.toNat % 2 ^ n := by
  have hlt : d.toNat % 2 ^ n < 2 ^ 64 :=
    Nat.lt_of_lt_of_le (Nat.mod_lt _ (Nat.two_pow_pos n)) (Nat.pow_le_pow_right (by decide) hn)
  rw [bits, Nat.pow_zero, Nat.div_one, BitVec.toNat_ofNat, Nat.mod_eq_of_lt hlt]

/-- Settles O24: the U numbers by the definition of the view, the written ones through `csrSeen`, and the P numbers
through the stored word, with no held write to apply. -/
theorem specialRegisterValues : Obligations.SpecialRegisterValues := by
  unfold Obligations.SpecialRegisterValues
  intro m s l x
  have hlaunch : x.c.launch % 2 ^ 31 < 2 ^ 64 := by omega
  refine ⟨rfl, bits_zero_toNat s.chip.sstep (by decide), fun hx => ?_, ?_, rfl, rfl, rfl, rfl,
    Nat.mod_eq_of_lt hlaunch, rfl, fun hx => ?_, rfl, bits_zero_toNat s.chip.orchst (by decide),
    bits_zero_toNat (s.chip.cluster s.cur.cl).pairst (by decide)⟩
  · have hseen := csrSeen_of_noneHeld hx
    exact ⟨congrArg (· &&& 0x1F) (hseen 2), hseen 3, hseen 4, hseen 0xC, hseen 0xF⟩
  · show BitVec.ofNat 64 (if s.cur.n == 16 then 0 else l) = _
    by_cases hn : s.cur.n = 16 <;> simp [hn]
  · have hshow : ∀ n, 0x800 ≤ n → csrMask n ≠ 0 → csrShow x n l = csrStored s s.cur n :=
      fun n hn hm => csrShow_privileged_of_noneHeld hn hm hx l
    exact ⟨hshow 0x802 (by decide) (by decide), hshow 0x80C (by decide) (by decide), hshow 0x900 (by decide) (by decide),
      hshow 0x901 (by decide) (by decide), hshow 0x902 (by decide) (by decide), hshow 0x904 (by decide) (by decide),
      hshow 0x903 (by decide) (by decide), hshow 0x80D (by decide) (by decide)⟩
end Sys2Proof.Machine

/-! ### CSR instructions: access checks, reads and held writes (R7, R230, R231, R371) -/
namespace Sys2Proof.Machine

/-- The numbers that R231 assigns, in both views. -/
def csrAssigned (n : Nat) : Prop := n ≤ 0x11 ∨ (0x800 ≤ n ∧ n ≤ 0x811) ∨ (0x900 ≤ n ∧ n ≤ 0x904)
/-- A CSR that a core may name: a U number, or any on a service core (R7, R230). -/
def csrMay (x : Ctx) (n : Nat) : Prop := n < 0x800 ∨ x.c.priv = true

theorem withCsr_of_not_may {x : Ctx} {csr : BitVec 12} (h : ¬csrMay x csr.toNat) (k : Out) :
    withCsr x csr k = .next (raise x { cls := 0x02 }) := by
  rw [csrMay, not_or, Nat.not_lt, Bool.not_eq_true] at h
  exact if_pos ⟨h.1, by rw [h.2]; rfl⟩
/-- The guard of `withCsr` for numbers that are not assigned. -/
theorem csrAssigned_iff (n : Nat) : csrAssigned n ↔ ¬(0x11 < csrIdx n ∧ (n < 0x900 ∨ 0x904 < n)) := by
  unfold csrAssigned csrIdx
  split <;> omega
theorem withCsr_of_may {x : Ctx} {csr : BitVec 12} (h : csrMay x csr.toNat) (k : Out) :
    withCsr x csr k = if 0x11 < csrIdx csr.toNat ∧ (csr.toNat < 0x900 ∨ 0x904 < csr.toNat) then illegal x 16 else k := by
  refine if_neg fun ⟨hn, hp⟩ => ?_
  rcases h with h | h
  · exact absurd h (Nat.not_lt.2 hn)
  · rw [h] at hp
    exact absurd hp (by decide)
theorem withCsr_of_not_assigned {x : Ctx} {csr : BitVec 12} (h : csrMay x csr.toNat) (ha : ¬csrAssigned csr.toNat) (k : Out) :
    withCsr x csr k = .next (raise x { cls := 0x01, sub := 16 }) := by
  rw [withCsr_of_may h, if_pos (not_not.1 (mt (csrAssigned_iff _).2 ha))]
  rfl
theorem withCsr_of_assigned {x : Ctx} {csr : BitVec 12} (h : csrMay x csr.toNat) (ha : csrAssigned csr.toNat) (k : Out) :
    withCsr x csr k = k := by
  rw [withCsr_of_may h, if_neg ((csrAssigned_iff _).1 ha)]

/-- What the four CSR instructions with one number share: the checks stand before their own work. -/
theorem exec_csr_of_withCsr {m : Mods} {r : BitVec 9} {csr : BitVec 12} {s : State} {o : Out}
    (h : ∀ k, withCsr (s.ctx m) csr k = o) :
    exec (.csrr m r csr) s = o ∧ exec (.csrw m r csr) s = o ∧
      ∀ v, exec (.csrs m v csr) s = o ∧ exec (.csrc m v csr) s = o :=
  ⟨h _, h _, fun _ => ⟨h _, h _⟩⟩

/-- The results of a 64-bit instruction of 4 ticks' latency: a scalar register, or a pair on a warp (R160, R351). -/
def pends64 (x : Ctx) (r : Nat) (v : Nat → DWord) : List Pend :=
  if x.act = [] then []
  else if x.w.n = 16 then [⟨x.t + 4, .s r, x.act.map fun l => (l, v l), x.regionNo, noHome, x.t⟩]
  else [⟨x.vis 4 0, .v r, x.act.map fun l => (l, BitVec.ofNat 64 ((v l).toNat % 2 ^ 32)), x.regionNo, noHome, x.t⟩,
    ⟨x.vis 4 0, .v (r + 1), x.act.map fun l => (l, BitVec.ofNat 64 ((v l).toNat / 2 ^ 32)), x.regionNo, noHome, x.t⟩]

theorem bits_low32 (d : DWord) : bits d 0 32 = d.toNat % 2 ^ 32 := by rw [bits, Nat.pow_zero, Nat.div_one]
theorem bits_high32 (d : DWord) : bits d 32 32 = d.toNat / 2 ^ 32 := by
  have := d.isLt
  rw [bits]
  omega

theorem pendsOf_wr64 (s : State) (m : Mods) (r : Nat) (v : Nat → DWord) :
    pendsOf s s.cur ((s.ctx m).vis 4 0) (wr64 (s.ctx m) r ((s.ctx m).act.map fun l => (l, v l)) ++ flagWr 0) =
      pends64 (s.ctx m) r v := by
  have hn : (s.iss s.cur).regionNo = (s.ctx m).regionNo := rfl
  have ht : s.tick = (s.ctx m).t := rfl
  have hw : s.cur = (s.ctx m).w := rfl
  rw [pendsOf, wr64, pends64, flagWr, Ctx.front, hn, ht]
  by_cases ha : (s.ctx m).act = [] <;> by_cases hf : (s.ctx m).w.n = 16
  · simp [ha, hf]
  · simp [ha, hf]
  · simp [ha, hf, Ctx.vis, Core.passes]
  · simp [ha, hf, bits_low32, bits_high32]

theorem tgts64_eq (x : Ctx) (r : Nat) : tgts64 x r = if x.w.n = 16 then [.s r] else [.v r, .v (r + 1)] := by
  simp only [tgts64, Ctx.front, beq_iff_eq]

/-- A meaning that is one 64-bit result (R160, R351). -/
theorem completes_of_op64 {i : Instr} {m : Mods} {s : State} {r : BitVec 9} {v : Nat → DWord}
    (he : exec i s = op64 (s.ctx m) r v)
    (hr : regionCause (s.ctx m) (if s.cur.n = 16 then [.s r.toNat] else [.v r.toNat, .v (r.toNat + 1)]) = none) :
    Completes i s fun t =>
      (t.iss s.cur).pend = (s.iss s.cur).pend ++ pends64 (s.ctx m) r.toNat v ∧ Advances s t m ∧ RegFrame s t := by
  obtain ⟨t, ht, hp, ha, hf⟩ := alu_spec s m 4 (tgts64 (s.ctx m) r.toNat)
    (wr64 (s.ctx m) r.toNat ((s.ctx m).act.map fun l => (l, v l))) 0 (by rw [tgts64_eq]; exact hr)
  exact ⟨t, he.trans ht, by rw [hp, pendsOf_wr64], ha, hf⟩

theorem exec_csrr_of_assigned {m : Mods} {r : BitVec 9} {csr : BitVec 12} {s : State} (h : csrMay (s.ctx m) csr.toNat)
    (ha : csrAssigned csr.toNat) : exec (.csrr m r csr) s = op64 (s.ctx m) r (csrShow (s.ctx m) csr.toNat) :=
  withCsr_of_assigned h ha _

/-! ### A held CSR write at its presentation (R177, R371) -/

/-- The registers of an issuer that both views write whole words of (R231). -/
def issCsrs : List Nat := [2, 3, 4, 0xC, 0xF]

theorem csrStored_of_issCsr {n : Nat} (h : csrIdx n ∈ issCsrs) (s : State) (w : Iss) :
    csrStored s w n = csrWord (s.iss w) (csrIdx n) := by
  simp only [issCsrs, List.mem_cons, List.not_mem_nil, or_false] at h
  rcases h with h | h | h | h | h <;> (simp only [csrStored, h]; rfl)
/-- Storing an issuer's register writes it and none of the others. -/
theorem csrWord_csrStore {n j : Nat} (h : csrIdx n ∈ issCsrs) (hj : j ∈ issCsrs) (s : State) (w : Iss) (v : DWord) :
    csrWord ((csrStore s w n v).iss w) j = if j = csrIdx n then v else csrWord (s.iss w) j := by
  simp only [issCsrs, List.mem_cons, List.not_mem_nil, or_false] at h hj
  rcases h with h | h | h | h | h <;>
    (simp only [csrStore, h]
     rw [iss_updIss _ _ _ (state_iss_slot s w)]
     rcases hj with rfl | rfl | rfl | rfl | rfl <;> rfl)
theorem csrWord_presentCsr {n j : Nat} (h : csrIdx n ∈ issCsrs) (hm : csrMask n ≠ 0) (hj : j ∈ issCsrs) (s : State)
    (w : Iss) {e : Held} (he : csrOf e.i = some n) : csrWord ((presentCsr s w e).iss w) j =
      if j = csrIdx n then csrNew e.i n (csrWord (s.iss w) (csrIdx n)) (nth e.vals 0 0) else csrWord (s.iss w) j := by
  rw [presentCsr, he]
  dsimp only
  rw [if_neg hm, csrWord_csrStore h hj, csrStored_of_issCsr h]

/-- The word of which a write takes the bits that its number's view writes (R371). -/
def csrOperand (i : Instr) (old v : DWord) : DWord :=
  match i with
  | .csrs .. => old ||| v
  | .csrc .. => old &&& ~~~v
  | _ => v
theorem csrNew_bit (i : Instr) (n : Nat) (old v : DWord) {k : Nat} (hk : k < 64) :
    (csrNew i n old v).getLsbD k =
      if (csrMask n).getLsbD k then (csrOperand i old v).getLsbD k else old.getLsbD k := by
  rw [show csrNew i n old v = (old &&& ~~~csrMask n) ||| (csrOperand i old v &&& csrMask n) from rfl]
  simp only [BitVec.getLsbD_or, BitVec.getLsbD_and, BitVec.getLsbD_not, hk, decide_true, Bool.true_and]
  cases (csrMask n).getLsbD k <;> simp

/-- The numbers under which an issuer's own registers are written. -/
theorem issCsr_number : ∀ n ∈ [2, 3, 4, 0xC, 0xF, 0x802, 0x803, 0x804, 0x80C, 0x80F],
    csrIdx n = n % 0x800 ∧ csrIdx n ∈ issCsrs ∧ csrMask n ≠ 0 := by decide

/-- A held CSR write at its presentation gives its own register the new word, and leaves the other ones. -/
theorem heldCsrWrite_spec (s : State) (w : Iss) (h : Held) (i : Instr) {n : Nat} (hi : csrOf i = some n)
    (hn : n ∈ [2, 3, 4, 0xC, 0xF, 0x802, 0x803, 0x804, 0x80C, 0x80F]) :
    csrWord ((presentCsr s w { h with i := i }).iss w) (n % 0x800) =
        csrNew i n (csrWord (s.iss w) (n % 0x800)) (nth h.vals 0 0) ∧
      ∀ j, j ≠ n % 0x800 → j ∈ issCsrs →
        csrWord ((presentCsr s w { h with i := i }).iss w) j = csrWord (s.iss w) j := by
  obtain ⟨hidx, hmem, hmask⟩ := issCsr_number n hn
  have hw := fun {j} (hj : j ∈ issCsrs) => csrWord_presentCsr hmem hmask hj s w (e := { h with i := i }) hi
  rw [hidx] at hmem hw
  exact ⟨by rw [hw hmem, if_pos rfl], fun j hne hj => by rw [hw hj, if_neg hne]⟩

/-- Settles O23: the checks of `withCsr` first; then reads as 64-bit results and writes as held effects; last, each
held write as `csrNew` bit by bit. -/
theorem specialRegisters : Obligations.SpecialRegisters := by
  unfold Obligations.SpecialRegisters
  refine ⟨⟨fun m r csr s => ?_, fun m r s hr => ?_⟩, fun s w m r c h csr k hn hk => ?_⟩
  · refine ⟨fun hp => exec_csr_of_withCsr (withCsr_of_not_may hp),
      fun hp ha => exec_csr_of_withCsr (withCsr_of_not_assigned hp ha), fun hp ha hr => ?_⟩
    have hk := withCsr_of_assigned hp ha
    exact ⟨heldInstr_of_holdOp (hk _) hr, fun _ => heldInstr_of_holdOp (hk _) hr, fun _ => heldInstr_of_holdOp (hk _) hr,
      fun _ => heldInstr_of_holdOp (hk _) hr, fun _ => heldInstr_of_holdOp (hk _) hr⟩
  · refine ⟨completes_of_op64 rfl hr, fun csr => ⟨fun hu => ?_, fun hp ha => ?_⟩⟩
    · have hlt : csr.toNat < 0x800 := by omega
      have he := exec_csrr_of_assigned (m := m) (r := r) (s := s) (.inl hlt) (.inl hu)
      rw [funext (csrShow_user hlt (s.ctx m))] at he
      exact completes_of_op64 he hr
    · exact completes_of_op64 (exec_csrr_of_assigned (.inr hp) (.inr ha)) hr
  · have hW := fun i hi => heldCsrWrite_spec s w h i (n := csr.toNat) hi hn
    have hbit := fun i hi => (congrArg (·.getLsbD k) (hW i hi).1).trans (csrNew_bit i _ _ _ hk)
    refine ⟨hbit (.csrw m r csr) rfl, (hbit (.csrs m c csr) rfl).trans ?_, (hbit (.csrc m c csr) rfl).trans ?_,
      fun i n hne hmem hi => (hW i ?_).2 n hne hmem⟩
    · rw [csrOperand, BitVec.getLsbD_or]
    · rw [csrOperand, BitVec.getLsbD_and, BitVec.getLsbD_not, decide_eq_true hk, Bool.true_and]
    · simp only [List.mem_cons, List.not_mem_nil, or_false] at hi
      rcases hi with rfl | rfl | rfl <;> rfl
end Sys2Proof.Machine

/-! ### Freezes and the time protocol (R4, R436, R452, R453, R455) -/
namespace Sys2Proof.Machine

theorem logEntry_of_off {s : State} (h : s.dbg.rlogOn = false) (port slot : Nat) (ds : List DWord) (ok : Bool)
    (extra : DWord) : logEntry s port slot ds ok extra = s := by
  rw [logEntry, if_neg (by simp [h])]
theorem logBeacon_of_off {s : State} (h : s.dbg.rlogOn = false) (kind t : Nat) : logBeacon s kind t = s :=
  logEntry_of_off h _ _ _ _ _

theorem exec_freeze_early {s : State} {f : Nat} (hs : s.frozen = none) (ht : s.tick < f) (hd : s.dbg.rlogOn = false) :
    exec (.freeze f) s = .next (s.sched f s.cur (.freeze f)) := by
  rw [show exec (.freeze f) s = execFreeze f s from rfl, execFreeze, hs, logBeacon_of_off hd, if_pos ht]
  rfl
theorem exec_freeze_due {s : State} {f : Nat} (hs : s.frozen = none) (ht : f ≤ s.tick) :
    exec (.freeze f) s = .next { s with frozen := some s.tick } := by
  rw [show exec (.freeze f) s = execFreeze f s from rfl, execFreeze, hs, if_neg (Nat.not_lt.2 ht)]
  rfl
theorem exec_freezeResume {s : State} {f : Nat} (hs : s.frozen = some f) (hd : s.dbg.rlogOn = false) :
    exec .freezeResume s = .next (mvState { s with frozen := none } f (s.tick - f)) := by
  have hlog : logBeacon { s with frozen := none } 4 s.tick = { s with frozen := none } :=
    logBeacon_of_off (s := { s with frozen := none }) hd 4 s.tick
  rw [show exec .freezeResume s = execFreezeResume s from rfl, execFreezeResume, hs]
  dsimp only
  rw [hlog]

/-- Loading TICK, and firmware's notes of it, change nothing that SameBut reads. -/
theorem sameBut_loadTick (s : State) (v : Nat) (fw : Fw) (w : Iss) : SameBut s { loadTick s v with fw := fw } w id :=
  .of_fields rfl rfl rfl rfl
theorem exec_ptpTickLoad_other {s : State} (h : chipNo ≠ 0) (v : Nat) : exec (.ptpTickLoad v) s = .next s :=
  if_pos (.inl h)
theorem exec_ptpTickLoad_first {s : State} (h : chipNo = 0) (hl : s.fw.ptpLocked = false)
    (ha : bit s.chip.sstep 32 = false) (v : Nat) : exec (.ptpTickLoad v) s =
      .next { loadTick s v with fw := { s.fw with ptpLocked := true, locked := some v } } :=
  if_neg (by simp [h, hl, actOn, ha])
theorem exec_scheduleBeacon_timeChip {s : State} (h : chipNo = 0) (v : Nat) : exec (.scheduleBeacon v) s = .next s :=
  if_pos h
/-- The time that a beacon takes to this chip from the time chip (R453). -/
def flight : Nat := if groupOf chipNo = 0 then 160 else 640
theorem exec_scheduleBeacon_first {s : State} (h : chipNo ≠ 0) (hl : s.fw.ptpLocked = false)
    (ha : bit s.chip.sstep 32 = false) (v : Nat) : exec (.scheduleBeacon v) s =
      .next { loadTick s (v + flight) with fw := { s.fw with ptpLocked := true, locked := some (v + flight) } } := by
  rw [show exec (.scheduleBeacon v) s = execScheduleBeacon v s from rfl, execScheduleBeacon, if_neg h]
  exact if_pos (by simp [hl, actOn, ha])

theorem ptpTickLoad_spec {s : State} (hl : s.fw.ptpLocked = false) (ha : bit s.chip.sstep 32 = false) (v : Nat) :
    Completes (.ptpTickLoad v) s fun t => SameBut s t s.cur id ∧
      (chipNo = 0 → t.tick = v ∧ t.fw.ptpLocked = true) ∧ (chipNo ≠ 0 → t.tick = s.tick) := by
  by_cases h : chipNo = 0
  · exact ⟨_, exec_ptpTickLoad_first h hl ha v, sameBut_loadTick _ _ _ _, fun _ => ⟨rfl, rfl⟩, fun hn => absurd h hn⟩
  · exact ⟨s, exec_ptpTickLoad_other h v, .refl _ _, fun hn => absurd hn h, fun _ => rfl⟩
theorem scheduleBeacon_spec {s : State} (hl : s.fw.ptpLocked = false) (ha : bit s.chip.sstep 32 = false) (v : Nat) :
    Completes (.scheduleBeacon v) s fun t => SameBut s t s.cur id ∧ (chipNo = 0 → t.tick = s.tick) ∧
      (chipNo ≠ 0 → t.tick = v + flight ∧ t.fw.ptpLocked = true) := by
  by_cases h : chipNo = 0
  · exact ⟨s, exec_scheduleBeacon_timeChip h v, .refl _ _, fun _ => rfl, fun hn => absurd h hn⟩
  · exact ⟨_, exec_scheduleBeacon_first h hl ha v, sameBut_loadTick _ _ _ _, fun hn => absurd hn h, fun _ => ⟨rfl, rfl⟩⟩

theorem ptpMessage_spec (s : State) (o : Int) : Completes (.ptpMessage o) s fun t =>
    t.fw.alarms = s.fw.alarms ++ (if 4000 < o ∨ o < -4000 then [(1, o)] else []) ∧ SameBut s t s.cur id := by
  refine ⟨_, rfl, ?_⟩
  split
  · exact ⟨rfl, .of_fields rfl rfl rfl rfl⟩
  · exact ⟨(List.append_nil _).symm, .of_fields rfl rfl rfl rfl⟩

/-- Settles O38: each event's meaning on the states named is one update of the state, whose fields are read off. -/
theorem timeAndFreezes : Obligations.TimeAndFreezes := by
  unfold Obligations.TimeAndFreezes
  intro s
  refine ⟨fun f hs => ⟨fun ht hd => ?_, exec_freeze_due hs⟩, fun f hs hd => ?_, fun v hl ha => ?_, ptpMessage_spec s,
    fun c => ?_⟩
  · exact ⟨_, exec_freeze_early hs ht hd, List.mem_append_right _ (List.mem_singleton.2 rfl), hs, .of_fields rfl rfl rfl rfl⟩
  · exact ⟨_, exec_freezeResume hs hd, rfl, rfl, rfl, fun _ => rfl⟩
  · exact ⟨ptpTickLoad_spec hl ha v, scheduleBeacon_spec hl ha v⟩
  · exact ⟨_, rfl, rfl, rfl, .of_fields rfl rfl rfl rfl⟩

end Sys2Proof.Machine

/-! ### The state after reset (R26, R451, R452, R456, R458) -/
namespace Sys2Proof.Machine

theorem reset_iss (w : Iss) : State.reset.iss w = { slot := w.n, wait := .ended } := rfl
theorem reset_coreOf (w : Iss) : State.reset.coreOf w = { cl := w.cl, co := w.co } := rfl
theorem reset_cluster (cl : Nat) : State.reset.chip.cluster cl = { cl := cl } := rfl
theorem reset_mbox (fn : Nat) : State.reset.mbox fn = { fn := fn } := rfl
theorem reset_byte (k : Nat) : State.reset.byte k = 0 := rfl
theorem reset_memWf : State.reset.memWf := ⟨rfl, rfl⟩

/-- Settles O55: each reading of the reset state is that of an empty table. -/
theorem resetValues : Obligations.ResetValues := by
  unfold Obligations.ResetValues
  refine ⟨rfl, rfl, rfl, rfl, rfl, reset_memWf, rfl, rfl, rfl, rfl, rfl, rfl, rfl, rfl, rfl, rfl, rfl,
    fun fn => ?_, reset_byte, fun cl => ?_, fun w => ?_⟩
  · rw [reset_mbox]; exact ⟨rfl, rfl⟩
  · rw [reset_cluster]; exact ⟨rfl, rfl⟩
  · rw [reset_iss, reset_coreOf]
    exact ⟨rfl, rfl, rfl, rfl, rfl, rfl, rfl, fun _ _ => rfl, fun _ => rfl, rfl, rfl⟩
end Sys2Proof.Machine

/-! ### What a step runs (R31, R163, R210, R228, R436, R455) -/
namespace Sys2Proof.Machine

/-- Schedule faults reported in turn, each of a stack and cause that may depend on what is reported so far: they stand in
the agenda at the tick of the report. -/
theorem foldl_reportFaultOf (n c : State → Req → Nat) (qs : List Req) (s : State) :
    let t := qs.foldl (fun s q => reportFaultOf s (n s q) (c s q)) s
    t.tick = s.tick ∧ (∀ e ∈ s.agenda, e ∈ t.agenda) ∧
      ∀ q ∈ qs, ∃ k c, (s.tick, obj k, Instr.scheduleFault c) ∈ t.agenda := by
  induction qs generalizing s with
  | nil => exact ⟨rfl, fun _ h => h, fun _ h => absurd h List.not_mem_nil⟩
  | cons q qs ih =>
    obtain ⟨htick, hkeep, hnew⟩ := ih (reportFaultOf s (n s q) (c s q))
    refine ⟨htick, fun e he => hkeep e (List.mem_append_left _ he), fun r hr => ?_⟩
    rcases List.mem_cons.1 hr with rfl | hr
    · exact ⟨_, _, hkeep _ (List.mem_append_right _ (List.mem_singleton.2 rfl))⟩
    · exact hnew r hr
/-- Every access that is reported as late leaves a schedule fault in the agenda (R62, R68). -/
theorem reportLate_agenda (s : State) (qs : List Req) : ∀ q ∈ qs,
    ∃ k c, (s.tick, obj k, Instr.scheduleFault c) ∈ (reportLate s qs).agenda :=
  (foldl_reportFaultOf _ _ qs s).2.2

theorem nextTick_frozen {s : State} (h : s.frozen ≠ none) : nextTick s = { s with tick := s.tick + 1 } := by
  unfold nextTick
  split
  · rfl
  · rename_i hn; exact absurd hn h
theorem nextTick_tick_of_none_overdue {s : State} (h : s.chip.reqs.filter (overdue s) = []) :
    (nextTick s).tick = s.tick + 1 := by
  unfold nextTick
  split
  · rfl
  · rw [h]; rfl
theorem nextTick_overdue {s : State} (hf : s.frozen = none) {q : Req} (hq : q ∈ s.chip.reqs) (ho : overdue s q = true) :
    nextTick s = reportLate s (s.chip.reqs.filter (overdue s)) := by
  have hmem : q ∈ s.chip.reqs.filter (overdue s) := List.mem_filter.2 ⟨hq, ho⟩
  unfold nextTick
  rw [hf]
  cases hl : s.chip.reqs.filter (overdue s) with
  | nil => rw [hl] at hmem; exact absurd hmem List.not_mem_nil
  | cons => rfl
theorem nextTick_reports {s : State} (hf : s.frozen = none) {q : Req} (hq : q ∈ s.chip.reqs) (ho : overdue s q = true) :
    ∃ k c, (s.tick, obj k, Instr.scheduleFault c) ∈ (nextTick s).agenda := by
  rw [nextTick_overdue hf hq ho]
  exact reportLate_agenda s _ q (List.mem_filter.2 ⟨hq, ho⟩)

/-- With a region open, nothing is prepared for an instruction (R175). -/
theorem beginInstr_open {s : State} {w : Iss} (h : (s.iss w).openRegion ≠ none) (i : Instr) :
    beginInstr s w i = { s with cur := w } := by
  unfold beginInstr
  dsimp only
  split
  · rfl
  · rfl
  · rfl
  · rename_i hn; exact absurd hn h
/-- With none open, a new region opens for every instruction but RGN and a load, which open their own again (R175). -/
theorem beginInstr_none {s : State} {w : Iss} (h : (s.iss w).openRegion = none) {i : Instr} (hr : ∀ p k, i ≠ .rgn p k)
    (hl : ∀ o z x, i ≠ .ld o z x) : beginInstr s w i =
      openRegion { s with cur := w } w ((s.iss w).rnum + 1) 0 .block (s.iss w).pcs := by
  unfold beginInstr
  dsimp only
  split
  · exact absurd rfl (hr _ _)
  · exact absurd rfl (hl _ _ _)
  · rename_i ho; exact absurd (h.symm.trans ho) nofun
  · rfl

/-- Counting moves a debugger's counters alone (R439). -/
theorem count_eq (s : State) (ev : Nat) (w : Iss) (n : Nat) :
    ∃ l, s.count ev w n = { s with dbg := { s.dbg with counters := l } } := by
  unfold State.count
  split
  · exact ⟨s.dbg.counters, rfl⟩
  · exact ⟨_, rfl⟩
theorem countPasses_eq (s : State) (w : Iss) :
    ∃ l, countPasses s w = { s with dbg := { s.dbg with counters := l } } := by
  unfold countPasses
  split
  case h_5 => exact count_eq _ _ _ _
  all_goals exact ⟨s.dbg.counters, rfl⟩

theorem step_of_unpowered {s : State} (h : s.powered = false) : step s = .fault .poweredOff := by
  rw [step, h]; rfl
theorem step_of_ok {s : State} (hp : s.powered = true) {w : Iss} (h : nextAct s = .instr w) {i : Instr}
    (hf : fetchInstr s w = .ok i) : step s = afterInstr w (exec i (beginInstr s w i)) := by
  rw [step, hp, h]; simp only [hf]; rfl
theorem step_of_error {s : State} (hp : s.powered = true) {w : Iss} (h : nextAct s = .instr w) {k : Nat}
    (hf : fetchInstr s w = .error k) : step s = .next (illegalWord s w k) := by
  rw [step, hp, h]; simp only [hf]; rfl
theorem step_of_agenda {s : State} (hp : s.powered = true) {k : Nat} {o : Iss} {i : Instr} (h : nextAct s = .agenda k o i) :
    step s = afterHappening (exec i { s with agenda := s.agenda.eraseIdx k, cur := o }) := by
  rw [step, hp, h]; rfl
theorem step_of_inbox {s : State} (hp : s.powered = true) {e : Nat × Iss × Instr} {r : List (Nat × Iss × Instr)}
    (h : nextAct s = .inbox e r) : step s = afterHappening (exec e.2.2 { s with inbox := r, cur := e.2.1 }) := by
  rw [step, hp, h]; rfl
theorem step_of_turn {s : State} (hp : s.powered = true) {w : Iss} (h : nextAct s = .turn w) :
    step s = exec .issueTurn { s with cur := w } := by
  rw [step, hp, h]; rfl
theorem step_of_reentry {s : State} (hp : s.powered = true) {w : Iss} (h : nextAct s = .reentry w) :
    step s = exec .regionReentry { s with cur := w } := by
  rw [step, hp, h]; rfl
theorem step_of_retry {s : State} (hp : s.powered = true) {w : Iss} (h : nextAct s = .retry w) :
    step s = exec .atomicRetry { s with cur := w } := by
  rw [step, hp, h]; rfl
theorem step_of_idle {s : State} (hp : s.powered = true) (h : nextAct s = .idle) : step s = .next (nextTick s) := by
  rw [step, hp, h]; rfl

/-- Settles O56: one equation of `step` for each act, and what `beginInstr`, `countPasses` and `nextTick` add to it. -/
theorem stepRunsDecoded : Obligations.StepRunsDecoded := by
  unfold Obligations.StepRunsDecoded
  intro s
  refine ⟨step_of_unpowered, fun hp => ⟨fun w hw => ⟨rfl, fun i hi => ⟨step_of_ok hp hw hi, fun h => beginInstr_open h i,
    fun h => beginInstr_none h⟩, fun k => step_of_error hp hw⟩, fun w t => ?_, fun k o i => step_of_agenda hp,
    fun e r => step_of_inbox hp, fun w => step_of_turn hp, fun w => step_of_reentry hp, fun w => step_of_retry hp,
    fun hi => ⟨step_of_idle hp hi, ?_, fun hf q => nextTick_reports hf⟩⟩⟩
  · obtain ⟨l, hl⟩ := countPasses_eq t w
    exact ⟨l, congrArg (fun u => (.next u : Out)) hl⟩
  · rintro (hf | hn)
    · rw [nextTick_frozen hf]
    · exact nextTick_tick_of_none_overdue hn
end Sys2Proof.Machine

/-! ### Issue turns (R154 to R157, R210 to R213) -/
namespace Sys2Proof.Machine

theorem AtIssuer.keepsRegs {s t : State} {w : Iss} (h : AtIssuer s t w) (hi : t.iss w = s.iss w) : KeepsRegs s t w :=
  ⟨h.sameBut (by rw [hi]), mem_of_kept h.kept, by rw [hi], by rw [hi]⟩
theorem KeepsRegs.sameRegs {s t : State} (h : KeepsRegs s t s.cur) : SameRegs s t := ⟨h.same, h.pend⟩

/-- What becomes of a core's rotation alone keeps every register. -/
theorem keepsRegs_rotation (s : State) (w : Iss) (f : Core → Core) (hk : KeepsKey f) (hc : ∀ c, (f c).kept = c.kept)
    (hi : ∀ c, (f c).issuers = c.issuers) : KeepsRegs s (s.updCore w.cl w.co f) w :=
  (atIssuer_rot s w f hk hc hi).keepsRegs (iss_updCore_rot s w f hk hi)
theorem coreOf_updCore (s : State) (w : Iss) (f : Core → Core) (hk : KeepsKey f) :
    (s.updCore w.cl w.co f).coreOf w = f (s.coreOf w) := by
  rw [State.coreOf, core_updCore _ _ _ _ _ _ hk, if_pos ⟨rfl, rfl⟩]
  rfl

theorem keepsRegs_count (s : State) (ev : Nat) (w v : Iss) (n : Nat) : KeepsRegs s (s.count ev w n) v :=
  (atIssuer_count s ev w v n).keepsRegs (count_iss s ev w v n)
theorem count_coreOf (s : State) (ev : Nat) (w v : Iss) (n : Nat) : (s.count ev w n).coreOf v = s.coreOf v :=
  count_core s ev w n v.cl v.co

/-- The turn of a slot ends at tick n. -/
theorem endTurn_spec (s : State) (w : Iss) (n : Nat) :
    let t := s.updCore w.cl w.co fun c => c.endTurn n
    KeepsRegs s t w ∧ t.iss w = s.iss w ∧ (t.coreOf w).rotSlot = ((s.coreOf w).rotSlot + 1) % 16 ∧
      (t.coreOf w).rotAt = n ∧ (t.coreOf w).inTurn = false := by
  refine ⟨keepsRegs_rotation s w _ (fun _ => ⟨rfl, rfl⟩) (fun _ => rfl) fun _ => rfl,
    iss_updCore_rot s w _ (fun _ => ⟨rfl, rfl⟩) fun _ => rfl, ?_⟩
  rw [coreOf_updCore s w (fun c => c.endTurn n) fun _ => ⟨rfl, rfl⟩]
  exact ⟨rfl, rfl, rfl⟩

/-- What a bubble tick does to an issuer and its core's rotation (R156, R157). -/
def Bubbled (s t : State) (w : Iss) : Prop :=
  if w.n = 16 then (t.iss w).nextAt = s.tick + 1 else
    (t.coreOf w).rotSlot = ((s.coreOf w).rotSlot + 1) % 16 ∧ (t.coreOf w).rotAt = s.tick + 1 ∧ (t.coreOf w).inTurn = false

theorem bubble_spec (s : State) (w : Iss) :
    KeepsRegs s (bubble s w) w ∧ ((bubble s w).iss w).wait = (s.iss w).wait ∧ Bubbled s (bubble s w) w := by
  unfold bubble Bubbled
  by_cases hn : w.n = 16
  · rw [if_pos hn, if_pos hn]
    have hslot := state_iss_slot s w
    exact ⟨keepsRegs_updIss s w _ hslot rfl rfl rfl, by rw [iss_updIss _ _ _ hslot], by rw [iss_updIss _ _ _ hslot]⟩
  · rw [if_neg hn, if_neg hn]
    obtain ⟨hk, hi, hslot, hat, hturn⟩ := endTurn_spec (s.count 2 w 1) w (s.tick + 1)
    rw [count_coreOf] at hslot
    exact ⟨(keepsRegs_count s 2 w w 1).trans hk, by rw [hi, count_iss], hslot, hat, hturn⟩

/-- A bubble tick after a change of the issuer's wait alone. -/
theorem bubble_after_wait (s : State) (w : Iss) (v : Wait) :
    let t := bubble (s.updIss w fun me => { me with wait := v }) w
    KeepsRegs s t w ∧ (t.iss w).wait = v ∧ Bubbled s t w := by
  have hslot : ({ s.iss w with wait := v } : Issuer).slot = w.n := state_iss_slot s w
  obtain ⟨hk, hw, hb⟩ := bubble_spec (s.updIss w fun me => { me with wait := v }) w
  rw [iss_updIss _ _ _ hslot] at hw
  refine ⟨(keepsRegs_updIss s w (fun me => { me with wait := v }) hslot rfl rfl rfl).trans hk, hw, ?_⟩
  simpa only [Bubbled, coreOf_updIss, Core.setIss, updIss_tick] using hb

/-- What a change leaves for a turn to begin on: the registers, the wait, and whether a turn is under way. -/
structure KeepsTurn (s t : State) (w : Iss) : Prop where
  regs : KeepsRegs s t w
  wait : (t.iss w).wait = (s.iss w).wait
  turn : (t.coreOf w).inTurn = (s.coreOf w).inTurn
theorem KeepsTurn.refl (s : State) (w : Iss) : KeepsTurn s s w := ⟨.refl s w, rfl, rfl⟩
theorem KeepsTurn.trans {s t u : State} {w : Iss} (h : KeepsTurn s t w) (k : KeepsTurn t u w) : KeepsTurn s u w :=
  ⟨h.regs.trans k.regs, k.wait.trans h.wait, k.turn.trans h.turn⟩
theorem keepsTurn_acquire (s : State) (w : Iss) (k : Clock) : KeepsTurn s (acquire s w k) w := by
  have hslot : ({ s.iss w with hb := joinClock s (s.iss w).hb k } : Issuer).slot = w.n := state_iss_slot s w
  exact ⟨keepsRegs_updIss s w _ hslot rfl rfl rfl, by rw [acquire, iss_updIss _ _ _ hslot],
    by rw [acquire, coreOf_updIss]; rfl⟩
/-- The phases that a header awaited bring accesses that happen before, and nothing else (R123, R213). -/
theorem keepsTurn_headerEdges (s : State) (w : Iss) (me : Issuer) (qwm : Nat) : KeepsTurn s (headerEdges s w me qwm) w := by
  unfold headerEdges
  generalize me.phs.filter (fun b => qwm / 2 ^ b.1 % 2 == 1) = l
  induction l generalizing s with
  | nil => exact .refl s w
  | cons b l ih =>
    refine KeepsTurn.trans ?_ (ih _)
    dsimp only
    split
    · split
      · exact keepsTurn_acquire _ _ _
      · exact .refl s w
    · exact .refl s w

/-- Going on in the clause: what the issuer and its core become. -/
def enteredAt (s : State) (w : Iss) (d : Nat) : State :=
  (s.updIss w fun me => { me with entered := true, delay := d }).updCore w.cl w.co fun c =>
    if w.n = 16 then c else { c with inTurn := true }
/-- A turn has begun in a clause with a delay (R212). -/
def TurnBegun (s t : State) (w : Iss) (d : Nat) : Prop :=
  (t.iss w).entered = true ∧ (t.iss w).wait = .run ∧ (t.iss w).pcs = (s.iss w).pcs ∧ (t.iss w).delay = d ∧
    (t.coreOf w).inTurn = if w.n = 16 then (s.coreOf w).inTurn else true

theorem enteredAt_spec {s u : State} {w : Iss} (h : KeepsRegs s u w) (hw : (u.iss w).wait = .run)
    (ht : (u.coreOf w).inTurn = (s.coreOf w).inTurn) (d : Nat) :
    KeepsRegs s (enteredAt u w d) w ∧ TurnBegun s (enteredAt u w d) w d := by
  have hslot : ({ u.iss w with entered := true, delay := d } : Issuer).slot = w.n := state_iss_slot u w
  have hkey : KeepsKey fun c => if w.n = 16 then c else { c with inTurn := true } := fun c => by
    dsimp only; split <;> exact ⟨rfl, rfl⟩
  have hkept : ∀ c : Core, (if w.n = 16 then c else { c with inTurn := true }).kept = c.kept := fun c => by split <;> rfl
  have hissuers : ∀ c : Core, (if w.n = 16 then c else { c with inTurn := true }).issuers = c.issuers := fun c => by
    split <;> rfl
  refine ⟨(h.trans (keepsRegs_updIss u w _ hslot rfl rfl rfl)).trans
    (keepsRegs_rotation _ w _ hkey hkept hissuers), ?_⟩
  have hiss : (enteredAt u w d).iss w = { u.iss w with entered := true, delay := d } :=
    (iss_updCore_rot _ w _ hkey hissuers).trans (iss_updIss u w _ hslot)
  rw [TurnBegun, hiss]
  refine ⟨rfl, hw, h.pcs, rfl, ?_⟩
  rw [enteredAt, coreOf_updCore _ _ _ hkey, coreOf_updIss]
  split
  · exact ht
  · rfl

/-- The running state of an issuer that a turn finds ready (R157). -/
def woken (s : State) (w : Iss) : State := s.updIss w fun me => { me with wait := .run, mark := false }
theorem woken_spec (s : State) (w : Iss) : KeepsRegs s (woken s w) w ∧ ((woken s w).iss w).wait = .run ∧
    ((woken s w).coreOf w).inTurn = (s.coreOf w).inTurn := by
  have hslot : ({ s.iss w with wait := .run, mark := false } : Issuer).slot = w.n := state_iss_slot s w
  exact ⟨keepsRegs_updIss s w _ hslot rfl rfl rfl, by rw [woken, iss_updIss _ _ _ hslot],
    by rw [woken, coreOf_updIss]; rfl⟩

/-- A header that is met is passed, and its delay is taken (R212, R213). -/
theorem enterClause_header {s : State} {w : Iss} (hsel : ((woken s w).ctx ⟨false, 0, false⟩).sel ≠ [])
    (hfault : let x := (woken s w).ctx ⟨false, 0, false⟩; headerFault (woken s w) x.c x.front x.pc = none)
    (hpc : ((woken s w).ctx ⟨false, 0, false⟩).pc % 16 = 0) (hmet : headerWaits ((woken s w).ctx ⟨false, 0, false⟩) = .met) :
    let x := (woken s w).ctx ⟨false, 0, false⟩
    enterClause s w = enteredAt (headerEdges (woken s w) w x.me (bits (s.header w.cl x.pc) 24 16)) w
      (bits (s.header w.cl x.pc) 40 8) := by
  unfold woken at *
  unfold enterClause
  simp only [List.isEmpty_iff, hsel, hfault, hpc, hmet, if_false, if_true]
  rfl
/-- Within a clause there is no header to wait for (R210). -/
theorem enterClause_within {s : State} {w : Iss} (hsel : ((woken s w).ctx ⟨false, 0, false⟩).sel ≠ [])
    (hfault : let x := (woken s w).ctx ⟨false, 0, false⟩; headerFault (woken s w) x.c x.front x.pc = none)
    (hpc : ((woken s w).ctx ⟨false, 0, false⟩).pc % 16 ≠ 0) : enterClause s w = enteredAt (woken s w) w 0 := by
  unfold woken at *
  unfold enterClause
  simp only [List.isEmpty_iff, hsel, hfault, hpc, if_false]
  rfl

/-- A turn begins at a header that lets it (R210 to R213). -/
theorem enterClause_spec {s : State} {w : Iss} (hsel : ((woken s w).ctx ⟨false, 0, false⟩).sel ≠ [])
    (hfault : let x := (woken s w).ctx ⟨false, 0, false⟩; headerFault (woken s w) x.c x.front x.pc = none)
    (hwaits : let x := (woken s w).ctx ⟨false, 0, false⟩; x.pc % 16 ≠ 0 ∨ headerWaits x = .met) :
    let pc := ((woken s w).ctx ⟨false, 0, false⟩).pc
    KeepsRegs s (enterClause s w) w ∧
      TurnBegun s (enterClause s w) w (if pc % 16 = 0 then bits (s.header w.cl pc) 40 8 else 0) := by
  obtain ⟨hk, hrun, hturn⟩ := woken_spec s w
  dsimp only at hfault hwaits ⊢
  by_cases hpc : ((woken s w).ctx ⟨false, 0, false⟩).pc % 16 = 0
  · rw [enterClause_header hsel hfault hpc (hwaits.resolve_left (absurd hpc)), if_pos hpc]
    have he := keepsTurn_headerEdges (woken s w) w
    exact enteredAt_spec (hk.trans (he _ _).regs) ((he _ _).wait.trans hrun) ((he _ _).turn.trans hturn) _
  · rw [enterClause_within hsel hfault hpc, if_neg hpc]
    exact enteredAt_spec hk hrun hturn 0

/-! What an issue turn does, by what the issuer waits for (R155 to R157). -/

theorem exec_issueTurn_over {s : State} (hn : s.cur.n ≠ 16) (ht : (s.coreOf s.cur).inTurn = true) :
    exec .issueTurn s = .next (s.updCore s.cur.cl s.cur.co fun c => c.endTurn s.tick) := if_pos ⟨hn, ht⟩
theorem not_inTurn {s : State} (ht : s.cur.n = 16 ∨ (s.coreOf s.cur).inTurn = false) :
    ¬(s.cur.n ≠ 16 ∧ (s.coreOf s.cur).inTurn = true) := by
  rintro ⟨hn, hi⟩
  rw [hi] at ht
  exact ht.elim hn nofun
theorem exec_issueTurn_held {s : State} (ht : s.cur.n = 16 ∨ (s.coreOf s.cur).inTurn = false)
    (hb : heldBack s s.cur = true ∨ standsBack (s.iss s.cur) = true) : exec .issueTurn s = .next (bubble s s.cur) := by
  exact (if_neg (not_inTurn ht)).trans (if_pos (by simpa using hb))
/-- A blocking point that still waits for its commit has nothing to start unless its regions are gone. -/
theorem startIfDue_eq {s : State} {w : Iss} (h : ∀ i l v k p, (s.iss w).wait ≠ .block i .commit l v k p) :
    startIfDue s w = s := by
  unfold startIfDue
  split
  · rename_i hw _; exact absurd hw (h _ _ _ _ _)
  · rfl
/-- An issuer that nothing holds back looks at its wait. -/
theorem exec_issueTurn_free {s : State} (ht : s.cur.n = 16 ∨ (s.coreOf s.cur).inTurn = false)
    (hh : heldBack s s.cur = false) (hs : standsBack (s.iss s.cur) = false)
    (hb : ∀ i l v k p, (s.iss s.cur).wait ≠ .block i .commit l v k p) (hd : ∀ d l, (s.iss s.cur).wait ≠ .dqpop d l)
    (hl : (s.iss s.cur).wait = .run → lateReply s s.cur = none) :
    exec .issueTurn s = .next (if waitOver s s.cur then enterClause s s.cur else bubble s s.cur) := by
  rw [show exec .issueTurn s = execIssueTurn s from rfl, execIssueTurn]
  dsimp only
  rw [if_neg (not_inTurn ht), hh, hs, startIfDue_eq hb]
  simp only [Bool.or_self, Bool.false_eq_true, if_false]
  split
  · rename_i hw; exact absurd hw (hd _ _)
  · rename_i hw hv; rw [hl hw] at hv; cases hv
  · split <;> rfl
/-- One that lacks a reply at its bound waits for it (R31). -/
theorem exec_issueTurn_late {s : State} (ht : s.cur.n = 16 ∨ (s.coreOf s.cur).inTurn = false)
    (hh : heldBack s s.cur = false) (hs : standsBack (s.iss s.cur) = false) (hr : (s.iss s.cur).wait = .run) {v : Wait}
    (hv : lateReply s s.cur = some v) :
    exec .issueTurn s = .next (bubble (s.updIss s.cur fun me => { me with wait := v }) s.cur) := by
  rw [show exec .issueTurn s = execIssueTurn s from rfl, execIssueTurn]
  dsimp only
  rw [if_neg (not_inTurn ht), hh, hs, startIfDue_eq fun _ _ _ _ _ h => Wait.noConfusion (hr.symm.trans h)]
  simp only [Bool.or_self, Bool.false_eq_true, if_false]
  split
  · rename_i hd; rw [hr] at hd; cases hd
  · rename_i hv'; rw [hv] at hv'; cases hv'; rfl
  · rename_i hn; exact absurd hv (hn v hr)

/-- Settles O26: a turn ends, spends a bubble tick, or begins, and each keeps the registers. -/
theorem issueTurns : Obligations.IssueTurns := by
  unfold Obligations.IssueTurns
  intro s
  refine ⟨fun hn ht => ?_, fun ht hb => ?_, fun ht hh hs hr v hv => ?_, fun ht hh hs hb hd hl => ⟨fun hw => ?_,
    fun hw hsel hfault hwaits => ?_⟩⟩
  · obtain ⟨hk, -, hrot⟩ := endTurn_spec s s.cur s.tick
    exact ⟨_, exec_issueTurn_over hn ht, hk.sameRegs, hrot⟩
  · obtain ⟨hk, -, hbub⟩ := bubble_spec s s.cur
    exact ⟨_, exec_issueTurn_held ht hb, hk.sameRegs, hbub⟩
  · obtain ⟨hk, hwait, hbub⟩ := bubble_after_wait s s.cur v
    exact ⟨_, exec_issueTurn_late ht hh hs hr hv, ⟨hk.sameRegs, hbub⟩, hwait⟩
  · obtain ⟨hk, -, hbub⟩ := bubble_spec s s.cur
    refine ⟨_, exec_issueTurn_free ht hh hs hb hd hl, ?_⟩
    rw [hw]
    exact ⟨hk.sameRegs, hbub⟩
  · obtain ⟨hk, hbegun⟩ := enterClause_spec hsel hfault hwaits
    refine ⟨_, exec_issueTurn_free ht hh hs hb hd hl, ?_⟩
    rw [hw]
    exact ⟨hk.sameRegs, hbegun⟩
end Sys2Proof.Machine

/-! ### The chip's parts: clusters, and what keeps every reading of SameBut -/
namespace Sys2Proof.Machine

theorem cluster_cl (h : Chip) (cl : Nat) : (h.cluster cl).cl = cl := by
  unfold Chip.cluster
  split
  · rename_i c hc; simpa using List.find?_some hc
  · rfl
theorem find?_clusterSet (l : List Cluster) (c : Cluster) (cl : Nat) :
    (clusterSet l c).find? (fun d => d.cl == cl) = if c.cl = cl then some c else l.find? fun d => d.cl == cl := by
  induction l with
  | nil => by_cases h : c.cl = cl <;> simp [clusterSet, h]
  | cons d t ih =>
    by_cases hd : d.cl = c.cl <;> by_cases h : c.cl = cl
    · simp [clusterSet, hd, h]
    · simp [clusterSet, hd, h]
    · have : ¬d.cl = cl := fun e => hd (e.trans h.symm)
      simp [clusterSet, h, ih, this]
    · simp [clusterSet, hd, h, ih, List.find?_cons]
theorem cluster_updCluster (s : State) (cl cl' : Nat) (f : Cluster → Cluster) (h : ∀ c, (f c).cl = c.cl) :
    (s.updCluster cl f).chip.cluster cl' = if cl = cl' then f (s.chip.cluster cl) else s.chip.cluster cl' := by
  have hfind : (s.updCluster cl f).chip.clusters.find? (fun d => d.cl == cl') =
      if cl = cl' then some (f (s.chip.cluster cl)) else s.chip.clusters.find? fun d => d.cl == cl' := by
    refine (find?_clusterSet s.chip.clusters (f (s.chip.cluster cl)) cl').trans ?_
    rw [h, cluster_cl]
  rw [Chip.cluster, hfind]
  by_cases hc : cl = cl'
  · rw [if_pos hc, if_pos hc]
  · rw [if_neg hc, if_neg hc]; rfl
/-- A change of every cluster that keeps its registers. -/
theorem cluster_map_regs (h : Chip) (f : Cluster → Cluster) (hcl : ∀ c, (f c).cl = c.cl) (hr : ∀ c, (f c).regs = c.regs)
    (cl : Nat) : ({ h with clusters := h.clusters.map f }.cluster cl).regs = (h.cluster cl).regs := by
  have hfind : (h.clusters.map f).find? (fun c => c.cl == cl) = (h.clusters.find? fun c => c.cl == cl).map f := by
    rw [List.find?_map]
    simp only [Function.comp_def, hcl]
  simp only [Chip.cluster, hfind]
  cases h.clusters.find? fun c => c.cl == cl with
  | none => rfl
  | some c => exact hr c

/-- What happens in the chip's shared units alone: memory, stamps, cores and the chip's registers stay. -/
structure InChip (s t : State) : Prop where
  mem : t.mem = s.mem
  stamps : t.stamps = s.stamps
  cores : t.cores = s.cores
  chip : t.chip.regs = s.chip.regs
  clusters : ∀ cl, (t.chip.cluster cl).regs = (s.chip.cluster cl).regs

theorem InChip.refl (s : State) : InChip s s := ⟨rfl, rfl, rfl, rfl, fun _ => rfl⟩
theorem InChip.trans {s t u : State} (h : InChip s t) (k : InChip t u) : InChip s u :=
  ⟨k.mem.trans h.mem, k.stamps.trans h.stamps, k.cores.trans h.cores, k.chip.trans h.chip,
    fun cl => (k.clusters cl).trans (h.clusters cl)⟩
theorem InChip.byte {s t : State} (h : InChip s t) (k : Nat) : t.byte k = s.byte k := by rw [State.byte, h.mem, State.byte]
theorem InChip.core {s t : State} (h : InChip s t) (cl co : Nat) : t.core cl co = s.core cl co := by
  rw [State.core, h.cores, State.core]
theorem InChip.iss {s t : State} (h : InChip s t) (w : Iss) : t.iss w = s.iss w := by rw [State.iss, h.core, State.iss]
theorem InChip.sameBut {s t : State} (h : InChip s t) (w : Iss) : SameBut s t w id where
  bytes := h.byte
  stamps := h.stamps
  chip := h.chip
  clusters := h.clusters
  cores cl co := by rw [h.core]
  others v _ := by rw [h.iss]
  own := by rw [h.iss]; rfl

/-- What leaves the chip as it is, but for its agenda and the like. -/
structure Unmoved (s t : State) : Prop where
  mem : t.mem = s.mem
  stamps : t.stamps = s.stamps
  cores : t.cores = s.cores
  chip : t.chip = s.chip
theorem Unmoved.refl (s : State) : Unmoved s s := ⟨rfl, rfl, rfl, rfl⟩
theorem Unmoved.trans {s t u : State} (h : Unmoved s t) (k : Unmoved t u) : Unmoved s u :=
  ⟨k.mem.trans h.mem, k.stamps.trans h.stamps, k.cores.trans h.cores, k.chip.trans h.chip⟩
theorem Unmoved.inChip {s t : State} (h : Unmoved s t) : InChip s t :=
  ⟨h.mem, h.stamps, h.cores, by rw [h.chip], fun _ => by rw [h.chip]⟩
theorem Unmoved.foldl {α : Type} {f : State → α → State} (h : ∀ s a, Unmoved s (f s a)) (l : List α) (s : State) :
    Unmoved s (l.foldl f s) := by
  induction l generalizing s with
  | nil => exact .refl s
  | cons a l ih => exact (h s a).trans (ih _)

end Sys2Proof.Machine

/-! ### Misses, walks and invalidations (R24, R26, R28, R29, R32) -/
namespace Sys2Proof.Machine

theorem unmoved_sendSector (s : State) (q : Req) (sec : Nat) : Unmoved s (sendSector s q sec) := by
  unfold sendSector
  split <;> exact ⟨rfl, rfl, rfl, rfl⟩

/-- Number of walks that are reading (R29). -/
def Chip.reading (h : Chip) : Nat := (h.walks.filter fun j => j.stage == .reads).length
/-- The walks with the stage of the one numbered n set. -/
def withStage (n : Nat) (g : WalkStage) (l : List Walk) : List Walk :=
  l.map fun j => if j.id = n then { j with stage := g } else j
theorem withStage_ids (n : Nat) (g : WalkStage) (l : List Walk) : (withStage n g l).map (·.id) = l.map (·.id) := by
  rw [withStage, List.map_map]
  refine List.map_congr_left fun j _ => ?_
  simp only [Function.comp]
  split <;> rfl
theorem withStage_absent {n : Nat} {g : WalkStage} {l : List Walk} (h : n ∉ l.map (·.id)) : withStage n g l = l := by
  rw [withStage, List.map_congr_left (g := id), List.map_id]
  intro j hj
  have : j.id ≠ n := fun e => h (e ▸ List.mem_map_of_mem hj)
  simp [this]
/-- One walk more may be reading after one has been given a slot; none more after one has been set to wait. -/
theorem reading_withStage {l : List Walk} (hn : (l.map (·.id)).Nodup) (n : Nat) (g : WalkStage) :
    ((withStage n g l).filter fun j => j.stage == .reads).length ≤
      (l.filter fun j => j.stage == .reads).length + if g = .reads then 1 else 0 := by
  induction l with
  | nil => exact Nat.zero_le _
  | cons j l ih =>
    rw [List.map_cons, List.nodup_cons] at hn
    have hcons : withStage n g (j :: l) = (if j.id = n then { j with stage := g } else j) :: withStage n g l := rfl
    rw [hcons]
    by_cases hj : j.id = n
    · rw [withStage_absent (hj ▸ hn.1), if_pos hj]
      cases g <;> cases hs : j.stage <;> simp [hs]
    · rw [if_neg hj]
      have := ih hn.2
      by_cases hs : j.stage = .reads
      · simp only [List.filter_cons, hs, beq_self_eq_true, if_true, List.length_cons]
        omega
      · simpa [hs] using this

/-- Giving out a walk slot sets one walk reading, when fewer than 64 do (R29), and nothing else of the chip. -/
theorem grantWalk_spec (s : State) :
    InChip s (grantWalk s) ∧ ((grantWalk s).chip = s.chip ∨
      ∃ n, s.chip.reading < 64 ∧ (grantWalk s).chip = { s.chip with walks := withStage n .reads s.chip.walks }) := by
  unfold grantWalk
  dsimp only
  split
  · exact ⟨.refl s, .inl rfl⟩
  · split
    · exact ⟨.refl s, .inl rfl⟩
    · rename_i k _ _ hlt
      exact ⟨⟨rfl, rfl, rfl, rfl, fun _ => rfl⟩, .inr ⟨k.id, Nat.lt_of_not_le hlt, rfl⟩⟩
theorem grantWalk_reading {s : State} (hn : (s.chip.walks.map (·.id)).Nodup) (h : s.chip.reading ≤ 64) :
    (grantWalk s).chip.reading ≤ 64 := by
  obtain ⟨-, he | ⟨n, hlt, he⟩⟩ := grantWalk_spec s
  · rwa [he]
  · rw [he]
    have := reading_withStage hn n .reads
    rw [if_pos rfl] at this
    exact Nat.le_trans this hlt
theorem grantWalk_ids (s : State) : (grantWalk s).chip.walks.map (·.id) = s.chip.walks.map (·.id) := by
  obtain ⟨-, he | ⟨n, -, he⟩⟩ := grantWalk_spec s
  · rw [he]
  · rw [he]; exact withStage_ids n _ _
/-- A walk slot given out changes no TLB, no access and no invalidation. -/
theorem grantWalk_rest (s : State) : (grantWalk s).chip.shTlb = s.chip.shTlb ∧ (grantWalk s).chip.clusters = s.chip.clusters ∧
    (grantWalk s).chip.invs = s.chip.invs ∧ (grantWalk s).chip.reqs = s.chip.reqs := by
  obtain ⟨-, he | ⟨n, -, he⟩⟩ := grantWalk_spec s <;> rw [he] <;> exact ⟨rfl, rfl, rfl, rfl⟩

/-- The accesses that wait for a miss no longer do. -/
def unwaited (k : Nat) (q : Req) : Req := { q with walks := q.walks.filter (· != k) }
/-- What a miss has held back goes out, and nothing else of the chip changes (R29). -/
theorem releaseWalk_spec (s : State) (k : Nat) :
    InChip s (releaseWalk s k) ∧ (releaseWalk s k).chip = { s.chip with reqs := s.chip.reqs.map (unwaited k) } := by
  have hset : InChip s (s.updChip fun h => { h with reqs := h.reqs.map (unwaited k) }) :=
    ⟨rfl, rfl, rfl, rfl, fun _ => rfl⟩
  have hgo : Unmoved (s.updChip fun h => { h with reqs := h.reqs.map (unwaited k) }) (releaseWalk s k) :=
    Unmoved.foldl (f := fun s (q : Req) => q.sectors.foldl (fun s sec => sendSector s q sec) s)
      (fun s q => Unmoved.foldl (fun s sec => unmoved_sendSector s q sec) _ _) _ _
  exact ⟨hset.trans hgo.inChip, hgo.chip⟩

theorem mem_fifo {α : Type} (cap : Nat) (l : List α) (x : α) : x ∈ fifo cap l x := by
  unfold fifo
  split <;> exact List.mem_append_right _ (List.mem_singleton.2 rfl)
/-- A cluster's TLB with an entry filled in (R28). -/
def filled (e : TlbE) (c : Cluster) : Cluster := { c with tlb := if c.tlb.contains e then c.tlb else fifo 2048 c.tlb e }
theorem mem_filled (e : TlbE) (c : Cluster) : e ∈ (filled e c).tlb := by
  unfold filled
  dsimp only
  split
  · rename_i h; exact List.contains_iff_mem.1 h
  · exact mem_fifo _ _ _
theorem tlbFillCluster_cluster (s : State) (cl cl' : Nat) (e : TlbE) :
    (tlbFillCluster s cl e).chip.cluster cl' = if cl = cl' then filled e (s.chip.cluster cl) else s.chip.cluster cl' :=
  cluster_updCluster s cl cl' (filled e) fun _ => rfl

/-- What filling TLBs leaves alone. -/
structure FillsTlbs (s t : State) : Prop where
  frame : InChip s t
  walks : t.chip.walks = s.chip.walks
  invs : t.chip.invs = s.chip.invs
  reqs : t.chip.reqs = s.chip.reqs
theorem FillsTlbs.refl (s : State) : FillsTlbs s s := ⟨.refl s, rfl, rfl, rfl⟩
theorem FillsTlbs.trans {s t u : State} (h : FillsTlbs s t) (k : FillsTlbs t u) : FillsTlbs s u :=
  ⟨h.frame.trans k.frame, k.walks.trans h.walks, k.invs.trans h.invs, k.reqs.trans h.reqs⟩
theorem fillsTlbs_cluster (s : State) (cl : Nat) (e : TlbE) : FillsTlbs s (tlbFillCluster s cl e) where
  frame := {
    mem := rfl, stamps := rfl, cores := rfl, chip := rfl
    clusters := fun cl' => by
      rw [tlbFillCluster_cluster]
      split
      · rename_i h; subst h; rfl
      · rfl }
  walks := rfl
  invs := rfl
  reqs := rfl
/-- An entry is filled into the TLB of every cluster named, and the shared TLB stays. -/
theorem tlbFillClusters_spec (cls : List Nat) (s : State) (e : TlbE) :
    let t := cls.foldl (fun s cl => tlbFillCluster s cl e) s
    FillsTlbs s t ∧ t.chip.shTlb = s.chip.shTlb ∧ (∀ cl, e ∈ (s.chip.cluster cl).tlb → e ∈ (t.chip.cluster cl).tlb) ∧
      ∀ cl ∈ cls, e ∈ (t.chip.cluster cl).tlb := by
  induction cls generalizing s with
  | nil => exact ⟨.refl s, rfl, fun _ h => h, fun _ h => absurd h List.not_mem_nil⟩
  | cons c cls ih =>
    obtain ⟨hf, hsh, hkeep, hall⟩ := ih (tlbFillCluster s c e)
    have hstep : ∀ cl, (cl = c ∨ e ∈ (s.chip.cluster cl).tlb) → e ∈ ((tlbFillCluster s c e).chip.cluster cl).tlb := by
      intro cl h
      rw [tlbFillCluster_cluster]
      split
      · exact mem_filled e _
      · rename_i hc; exact h.resolve_left (Ne.symm hc)
    refine ⟨(fillsTlbs_cluster s c e).trans hf, hsh, fun cl h => hkeep cl (hstep cl (.inr h)), fun cl h => ?_⟩
    rcases List.mem_cons.1 h with h | h
    · exact hkeep cl (hstep cl (.inl h))
    · exact hall cl h
theorem tlbFillShared_spec (s : State) (e : TlbE) : FillsTlbs s (tlbFillShared s e) ∧ e ∈ (tlbFillShared s e).chip.shTlb := by
  unfold tlbFillShared State.updChip
  dsimp only
  split
  · rename_i h; exact ⟨.refl s, List.contains_iff_mem.1 h⟩
  · exact ⟨⟨⟨rfl, rfl, rfl, rfl, fun _ => rfl⟩, rfl, rfl, rfl⟩, List.mem_append_right _ (List.mem_singleton.2 rfl)⟩

/-- A miss's entry in the TLBs that it is for (R28, R29). -/
def installed (s : State) (k : Walk) : State :=
  if k.install then k.cls.foldl (fun s cl => tlbFillCluster s cl k.e) (if k.shared then s else tlbFillShared s k.e) else s
theorem installed_spec (s : State) (k : Walk) : FillsTlbs s (installed s k) ∧
    (k.install = true → (k.shared = false → k.e ∈ (installed s k).chip.shTlb) ∧
      ∀ cl ∈ k.cls, k.e ∈ ((installed s k).chip.cluster cl).tlb) ∧
    (k.install = false → installed s k = s) := by
  unfold installed
  cases k.install with
  | false => exact ⟨.refl s, nofun, fun _ => rfl⟩
  | true =>
    rw [if_pos rfl]
    obtain ⟨hf, hsh, -, hall⟩ := tlbFillClusters_spec k.cls (if k.shared then s else tlbFillShared s k.e) k.e
    cases hs : k.shared with
    | true =>
      rw [hs, if_pos rfl] at hf hall
      exact ⟨hf, fun _ => ⟨nofun, hall⟩, nofun⟩
    | false =>
      obtain ⟨hfs, hmem⟩ := tlbFillShared_spec s k.e
      rw [hs, if_neg Bool.false_ne_true] at hf hall hsh
      exact ⟨hfs.trans hf, fun _ => ⟨fun _ => hsh ▸ hmem, hall⟩, nofun⟩

/-- No walk numbered n is under way, and no invalidation waits for it (R32). -/
def withoutWalk (n : Nat) (h : Chip) : Chip := { h with
  walks := h.walks.filter fun j => j.id != n
  invs := h.invs.map fun i => { i with walks := i.walks.filter (· != n) } }
/-- The end of a miss: its entry installed, its walk gone, and no invalidation waits for it (R28, R29, R32). -/
theorem endWalk_spec (s : State) (k : Walk) :
    InChip s (endWalk s k) ∧ (endWalk s k).chip = withoutWalk k.id (installed s k).chip := by
  have hend : Unmoved ((installed s k).updChip (withoutWalk k.id)) (endWalk s k) :=
    Unmoved.foldl (f := fun s (i : Inv) => s.sched s.tick (obj i.id) .tlbInvalidationComplete)
      (fun _ _ => ⟨rfl, rfl, rfl, rfl⟩) _ _
  have hset : InChip (installed s k) ((installed s k).updChip (withoutWalk k.id)) := ⟨rfl, rfl, rfl, rfl, fun _ => rfl⟩
  exact ⟨((installed_spec s k).1.frame.trans hset).trans hend.inChip, hend.chip⟩


/-! PAGE_TABLE_READ_RETURN (R29, R30, R32). -/

theorem exec_pageTableReadReturn_waits {s : State} {k : Walk} (hk : s.chip.walks.find? (fun v => v.id == s.cur.n) = some k)
    (h : k.stage = .waits) : exec .pageTableReadReturn s = .next s := by
  rw [show exec .pageTableReadReturn s = execPageTableReadReturn s from rfl, execPageTableReadReturn, hk]
  simp only [h]
theorem exec_pageTableReadReturn_lookup {s : State} {k : Walk} (hk : s.chip.walks.find? (fun v => v.id == s.cur.n) = some k)
    (h : k.stage = .lookup) (hs : k.shared = false) : exec .pageTableReadReturn s =
      .next (grantWalk (s.updChip fun h => { h with walks := withStage k.id .waits h.walks })) := by
  rw [show exec .pageTableReadReturn s = execPageTableReadReturn s from rfl, execPageTableReadReturn, hk]
  simp only [h, hs]
  rfl
theorem exec_pageTableReadReturn_ends {s : State} {k : Walk} (hk : s.chip.walks.find? (fun v => v.id == s.cur.n) = some k)
    (hw : k.stage ≠ .waits) (hl : ¬(k.stage = .lookup ∧ k.shared = false)) :
    exec .pageTableReadReturn s = .next (grantWalk (releaseWalk (endWalk s k) k.id)) := by
  rw [show exec .pageTableReadReturn s = execPageTableReadReturn s from rfl, execPageTableReadReturn, hk]
  dsimp only
  split
  · rename_i h; exact absurd h hw
  · rename_i h hs; exact absurd ⟨h, hs⟩ hl
  · rfl

/-- A miss that has been looked up in vain waits for a walk slot, and slots are given out (R29). -/
theorem lookedUp_spec (s : State) (n : Nat) :
    let t := grantWalk (s.updChip fun h => { h with walks := withStage n .waits h.walks })
    InChip s t ∧ ((s.chip.walks.map (·.id)).Nodup → s.chip.reading ≤ 64 → t.chip.reading ≤ 64) ∧
      t.chip.walks.map (·.id) = s.chip.walks.map (·.id) ∧ t.chip.shTlb = s.chip.shTlb ∧ t.chip.clusters = s.chip.clusters := by
  have hset : InChip s (s.updChip fun h => { h with walks := withStage n .waits h.walks }) := ⟨rfl, rfl, rfl, rfl, fun _ => rfl⟩
  have hids : (withStage n .waits s.chip.walks).map (·.id) = s.chip.walks.map (·.id) := withStage_ids _ _ _
  obtain ⟨hsh, hcl, -, -⟩ := grantWalk_rest (s.updChip fun h => { h with walks := withStage n .waits h.walks })
  refine ⟨hset.trans (grantWalk_spec _).1, fun hn hr => ?_, (grantWalk_ids _).trans hids, hsh, hcl⟩
  exact grantWalk_reading (hids ▸ hn) (Nat.le_trans (reading_withStage hn n .waits) hr)

/-- The chip after a miss has ended and what it held back has gone out. -/
theorem missEnded_chip (s : State) (k : Walk) : (releaseWalk (endWalk s k) k.id).chip =
    { withoutWalk k.id (installed s k).chip with reqs := s.chip.reqs.map (unwaited k.id) } := by
  rw [(releaseWalk_spec _ _).2, (endWalk_spec s k).2, ← (installed_spec s k).1.reqs]
  rfl
/-- A miss ends: its entry is in the TLBs that missed unless an invalidation has caught it, and nothing waits for it any
more (R28, R29, R32). -/
theorem missEnded_spec (s : State) (k : Walk) :
    let t := grantWalk (releaseWalk (endWalk s k) k.id)
    InChip s t ∧ ((s.chip.walks.map (·.id)).Nodup → s.chip.reading ≤ 64 → t.chip.reading ≤ 64) ∧
      t.chip.walks.map (·.id) = (s.chip.walks.map (·.id)).filter (fun n => n != k.id) ∧
      (k.install = true → (k.shared = false → k.e ∈ t.chip.shTlb) ∧ ∀ cl ∈ k.cls, k.e ∈ (t.chip.cluster cl).tlb) ∧
      (k.install = false → t.chip.shTlb = s.chip.shTlb ∧ t.chip.clusters = s.chip.clusters) ∧
      (∀ i ∈ t.chip.invs, k.id ∉ i.walks) ∧ ∀ q ∈ t.chip.reqs, k.id ∉ q.walks := by
  intro t
  have hchip := missEnded_chip s k
  obtain ⟨hfills, hin, hout⟩ := installed_spec s k
  obtain ⟨hsh, hcl, hinvs, hreqs⟩ := grantWalk_rest (releaseWalk (endWalk s k) k.id)
  have hwalks : (releaseWalk (endWalk s k) k.id).chip.walks = s.chip.walks.filter fun j => j.id != k.id := by
    rw [hchip, ← hfills.walks]
    rfl
  have hids : (s.chip.walks.filter fun j => j.id != k.id).map (·.id) = (s.chip.walks.map (·.id)).filter (fun n => n != k.id) := by
    rw [List.filter_map]
    rfl
  refine ⟨((endWalk_spec s k).1.trans (releaseWalk_spec _ _).1).trans (grantWalk_spec _).1, fun hn hr => ?_, ?_, fun h => ?_,
    fun h => ?_, fun i hi => ?_, fun q hq => ?_⟩
  · refine grantWalk_reading ?_ ?_
    · rw [hwalks, hids]
      exact hn.filter _
    · rw [Chip.reading, hwalks]
      exact Nat.le_trans (List.Sublist.length_le (List.filter_sublist.filter _)) hr
  · exact (grantWalk_ids _).trans (by rw [hwalks, hids])
  · obtain ⟨hshared, hall⟩ := hin h
    refine ⟨fun hs => ?_, fun cl hc => ?_⟩
    · rw [hsh, hchip]; exact hshared hs
    · rw [Chip.cluster, hcl, hchip]; exact hall cl hc
  · rw [hsh, hcl, hchip, hout h]
    exact ⟨rfl, rfl⟩
  · rw [hinvs, hchip] at hi
    obtain ⟨j, -, rfl⟩ := List.mem_map.1 hi
    simp
  · rw [hreqs, hchip] at hq
    obtain ⟨p, -, rfl⟩ := List.mem_map.1 hq
    simp [unwaited]

theorem pageTableReadReturn_spec {s : State} {k : Walk}
    (hk : s.chip.walks.find? (fun v => v.id == s.cur.n) = some k) (hw : k.stage ≠ .waits) :
    Completes .pageTableReadReturn s fun t => InChip s t ∧
      ((s.chip.walks.map (·.id)).Nodup → s.chip.reading ≤ 64 → t.chip.reading ≤ 64) ∧
      if k.stage = .lookup ∧ k.shared = false then
        t.chip.walks.map (·.id) = s.chip.walks.map (·.id) ∧ t.chip.shTlb = s.chip.shTlb ∧ t.chip.clusters = s.chip.clusters
      else
        t.chip.walks.map (·.id) = (s.chip.walks.map (·.id)).filter (fun n => n != s.cur.n) ∧
        (k.install = true → (k.shared = false → k.e ∈ t.chip.shTlb) ∧ ∀ cl ∈ k.cls, k.e ∈ (t.chip.cluster cl).tlb) ∧
        (k.install = false → t.chip.shTlb = s.chip.shTlb ∧ t.chip.clusters = s.chip.clusters) ∧
        (∀ i ∈ t.chip.invs, s.cur.n ∉ i.walks) ∧ ∀ q ∈ t.chip.reqs, s.cur.n ∉ q.walks := by
  have hid : k.id = s.cur.n := by simpa using List.find?_some hk
  by_cases hl : k.stage = .lookup ∧ k.shared = false
  · obtain ⟨hf, hr, hrest⟩ := lookedUp_spec s k.id
    exact ⟨_, exec_pageTableReadReturn_lookup hk hl.1 hl.2, hf, hr, by rw [if_pos hl]; exact hrest⟩
  · obtain ⟨hf, hr, hrest⟩ := missEnded_spec s k
    exact ⟨_, exec_pageTableReadReturn_ends hk hw hl, hf, hr, by rw [if_neg hl, ← hid]; exact hrest⟩

/-! Invalidations and poison (R24, R26, R32). -/

/-- A completed invalidation lets its issuer go on (R32, R369). -/
theorem tlbInvalidationComplete_spec {s : State} {v : Inv} {w : Iss}
    (hv : s.chip.invs.find? (fun i => i.id == s.cur.n) = some v) (hw : v.w = some w) (hi : (s.iss w).wait = .inv s.cur.n) :
    Completes .tlbInvalidationComplete s fun t =>
      t.chip.invs = s.chip.invs.filter (fun i => i.id != s.cur.n) ∧ (t.iss w).wait = .run ∧ SameBut s t w id := by
  let u := v.next.foldl (fun s e => s.sched s.tick e.1 e.2)
    (s.updChip fun h => { h with invs := h.invs.filter fun j => j.id != s.cur.n })
  have hu : Unmoved (s.updChip fun h => { h with invs := h.invs.filter fun j => j.id != s.cur.n }) u :=
    Unmoved.foldl (f := fun s (e : Iss × Instr) => s.sched s.tick e.1 e.2) (fun _ _ => ⟨rfl, rfl, rfl, rfl⟩) _ _
  have hset : InChip s (s.updChip fun h => { h with invs := h.invs.filter fun j => j.id != s.cur.n }) :=
    ⟨rfl, rfl, rfl, rfl, fun _ => rfl⟩
  have hsu : InChip s u := hset.trans hu.inChip
  let f : Issuer → Issuer := fun me => if me.wait = .inv s.cur.n then { me with wait := .run, nextAt := max me.nextAt u.tick } else me
  have hslot : (f (u.iss w)).slot = w.n := by
    dsimp only [f]; split <;> exact state_iss_slot u w
  have hpos : (u.iss w).wait = .inv s.cur.n := by rw [hsu.iss, hi]
  refine ⟨u.updIss w f, ?_, hu.chip ▸ rfl, ?_, (hsu.sameBut w).trans ((atIssuer_updIss u w f hslot).sameBut ?_)⟩
  · rw [show exec .tlbInvalidationComplete s = execTlbInvalidationComplete s from rfl, execTlbInvalidationComplete, hv]
    dsimp only
    rw [hw]
  · rw [iss_updIss _ _ _ hslot]
    dsimp only [f]
    rw [if_pos hpos]
  · rw [iss_updIss _ _ _ hslot]
    dsimp only [f]
    rw [if_pos hpos]
    rfl

theorem covers_mark (e : TlbE) (g h : Nat) (psn : Bool) : (e.mark g psn).covers h = e.covers h := by
  unfold TlbE.mark
  split <;> rfl
/-- The entries of one TLB after a granule's poison bit has changed (R26). -/
def marked (g : Nat) (psn : Bool) (l : List TlbE) : List TlbE :=
  (l.filter fun e => !(e.whole && e.covers g)).map fun e => e.mark g psn
theorem mark_bit (e : TlbE) (g : Nat) (psn : Bool) (hc : e.covers g = true) :
    (e.mark g psn).psn.getLsbD (g % 8) = psn := by
  have h8 : g % 8 < 8 := Nat.mod_lt _ (by omega)
  rw [TlbE.mark, if_pos hc]
  cases psn <;> simp [h8]
theorem mark_of_not_covers {e : TlbE} {g : Nat} {psn : Bool} (hc : e.covers g = false) : e.mark g psn = e := by
  rw [TlbE.mark, if_neg (by simp [hc])]
theorem mark_whole (e : TlbE) (g : Nat) (psn : Bool) : (e.mark g psn).whole = e.whole := by
  unfold TlbE.mark
  split <;> rfl
/-- Every entry that covers the granule has its bit, and is no whole page. -/
theorem marked_covers {g : Nat} {psn : Bool} {l : List TlbE} {e : TlbE} (he : e ∈ marked g psn l) (hc : e.covers g = true) :
    e.whole = false ∧ e.psn.getLsbD (g % 8) = psn := by
  obtain ⟨d, hd, rfl⟩ := List.mem_map.1 he
  have hdc : d.covers g = true := covers_mark d g g psn ▸ hc
  have hnot := (List.mem_filter.1 hd).2
  rw [hdc, Bool.and_true, Bool.not_eq_true'] at hnot
  exact ⟨by rw [mark_whole, hnot], mark_bit d g psn hdc⟩
/-- The entries that do not cover it are those of before. -/
theorem mem_marked_of_not_covers {g : Nat} {psn : Bool} {l : List TlbE} {e : TlbE} (hc : e.covers g = false) :
    e ∈ marked g psn l ↔ e ∈ l := by
  constructor
  · intro he
    obtain ⟨d, hd, rfl⟩ := List.mem_map.1 he
    rw [covers_mark] at hc
    rw [mark_of_not_covers hc]
    exact (List.mem_filter.1 hd).1
  · intro he
    exact List.mem_map.2 ⟨e, List.mem_filter.2 ⟨he, by simp [hc]⟩, mark_of_not_covers hc⟩
theorem poisonUpdate_spec (s : State) (g : Nat) (psn : Bool) : Completes (.poisonUpdate g psn) s fun t =>
    (∀ e ∈ t.chip.shTlb, e.covers g = true → e.whole = false ∧ e.psn.getLsbD (g % 8) = psn) ∧
    (∀ e, e.covers g = false → (e ∈ t.chip.shTlb ↔ e ∈ s.chip.shTlb)) ∧
    (∀ c ∈ t.chip.clusters, ∀ e ∈ c.tlb, e.covers g = true → e.whole = false ∧ e.psn.getLsbD (g % 8) = psn) ∧
    (∀ k ∈ t.chip.walks, k.install = true → k.e.covers g = true → k.e.whole = false ∧ k.e.psn.getLsbD (g % 8) = psn) ∧
    SameBut s t s.cur id := by
  have hframe : InChip s (markTlbs s g psn) := ⟨rfl, rfl, rfl, rfl,
    cluster_map_regs s.chip (fun c => { c with tlb := marked g psn c.tlb }) (fun _ => rfl) fun _ => rfl⟩
  refine ⟨markTlbs s g psn, rfl, fun e he => marked_covers he, fun e => mem_marked_of_not_covers, fun c hc e he => ?_,
    fun k hk hin hcov => ?_, hframe.sameBut _⟩
  · obtain ⟨d, -, rfl⟩ := List.mem_map.1 hc
    exact marked_covers he
  · obtain ⟨j, -, rfl⟩ := List.mem_map.1 hk
    split at hin
    · cases hin
    · rename_i hnot
      rw [if_neg hnot] at hcov ⊢
      have hjc : j.e.covers g = true := covers_mark j.e g g psn ▸ hcov
      rw [hjc, Bool.and_true, Bool.not_eq_true] at hnot
      exact ⟨by rw [mark_whole, hnot], mark_bit j.e g psn hjc⟩

/-- A change by an invalidation: the entries named go, no walk under way is installed, and the new invalidation waits for
them (R32). -/
def invalidated (w : Option Iss) (next : List (Iss × Instr)) (f : TlbE → Bool) (h : Chip) : Chip := { h with
  shTlb := h.shTlb.filter fun e => !f e
  clusters := h.clusters.map fun c => { c with tlb := c.tlb.filter fun e => !f e }
  walks := h.walks.map fun k => { k with install := false }
  ids := h.ids + 1
  invs := h.invs ++ [⟨h.ids, h.walks.map (·.id), w, next⟩] }
theorem invalidateThen_eq (s : State) (w : Option Iss) (next : List (Iss × Instr)) (f : TlbE → Bool) :
    ∃ a, invalidateThen s w next f = { s with agenda := s.agenda ++ a, chip := invalidated w next f s.chip } := by
  have hwalks : ((s.chip.walks.map fun k => { k with install := false }).map (·.id)) = s.chip.walks.map (·.id) := by
    rw [List.map_map]
    rfl
  unfold invalidateThen invalidated
  rw [← hwalks]
  dsimp only
  split
  · exact ⟨_, rfl⟩
  · exact ⟨[], by rw [List.append_nil]; rfl⟩
theorem inChip_invalidateThen (s : State) (w : Option Iss) (next : List (Iss × Instr)) (f : TlbE → Bool) :
    InChip s (invalidateThen s w next f) := by
  obtain ⟨a, h⟩ := invalidateThen_eq s w next f
  rw [h]
  exact ⟨rfl, rfl, rfl, rfl, cluster_map_regs s.chip (fun c => { c with tlb := c.tlb.filter fun e => !f e })
    (fun _ => rfl) fun _ => rfl⟩

/-- Whether an entry of the remote poison table names a granule (R24). -/
def namesGranule (g : Nat) (d : DWord) : Prop := bit d 0 = true ∧ bits d 12 40 = g
theorem not_namesGranule_zero (g : Nat) : ¬namesGranule g 0 := fun h => absurd h.1 (by decide)

/-- The entry at a key is cleared when it names the granule. -/
def clearAt (g key : Nat) (s : State) : State :=
  if bit (s.dword key) 0 && bits (s.dword key) 12 40 == g then s.setBytes key (toBytes 8 0) else s
theorem clearAt_spec (g b k : Nat) {s : State} (hs : Memory.wf s.mem = true) (hk : k < 8) :
    Memory.wf (clearAt g (b + 8 * k) s).mem = true ∧ (clearAt g (b + 8 * k) s).chip = s.chip ∧
      (∀ n, ¬(b ≤ n ∧ n < b + 64) → (clearAt g (b + 8 * k) s).byte n = s.byte n) ∧
      ¬namesGranule g ((clearAt g (b + 8 * k) s).dword (b + 8 * k)) ∧
      ∀ j, j ≠ k → (clearAt g (b + 8 * k) s).dword (b + 8 * j) = s.dword (b + 8 * j) := by
  have hlen : (toBytes 8 0).length = 8 := length_toBytes 8 0
  unfold clearAt
  split
  · refine ⟨Memory.wf_setBytes hs, State.setBytes_chip _ _ _, fun n hn => State.byte_setBytes_other (by omega) hs, ?_,
      fun j hj => State.dword_setBytes_other (by omega) hs⟩
    rw [show toBytes 8 0 = toBytes 8 (0 : DWord).toNat from rfl, State.dword_setBytes 0 hs]
    exact not_namesGranule_zero g
  · rename_i hn
    refine ⟨hs, rfl, fun _ _ => rfl, fun h => hn ?_, fun _ _ => rfl⟩
    rw [Bool.and_eq_true, beq_iff_eq]
    exact h
/-- One entry of a granule's bucket is cleared when it names the granule. -/
def clearEntry (g : Nat) (s : State) (k : Nat) : State := clearAt g (bucketKey s (g * 4096) + 8 * k) s
theorem bucketKey_of_chip {s t : State} (h : t.chip = s.chip) (pa : Nat) : bucketKey t pa = bucketKey s pa := by
  rw [bucketKey, h, bucketKey]
/-- Entries cleared in turn: none of them names the granule any more, nor one that did not before. -/
theorem clearEntries_spec (g : Nat) (l : List Nat) {s : State} (hs : Memory.wf s.mem = true) (hl : ∀ k ∈ l, k < 8) {b : Nat}
    (hb : bucketKey s (g * 4096) = b) :
    let t := l.foldl (clearEntry g) s
    (∀ n, ¬(b ≤ n ∧ n < b + 64) → t.byte n = s.byte n) ∧ (∀ k ∈ l, ¬namesGranule g (t.dword (b + 8 * k))) ∧
      ∀ k, ¬namesGranule g (s.dword (b + 8 * k)) → ¬namesGranule g (t.dword (b + 8 * k)) := by
  induction l generalizing s with
  | nil => exact ⟨fun _ _ => rfl, fun _ h => absurd h List.not_mem_nil, fun _ h => h⟩
  | cons k l ih =>
    have he : clearEntry g s k = clearAt g (b + 8 * k) s := by rw [clearEntry, hb]
    obtain ⟨hwf, hchip, hbytes, hself, hothers⟩ := clearAt_spec g b k hs (hl k List.mem_cons_self)
    rw [← he] at hwf hchip hbytes hself hothers
    obtain ⟨hbytes', hin, hkeep⟩ := ih hwf (fun j hj => hl j (List.mem_cons_of_mem k hj)) ((bucketKey_of_chip hchip _).trans hb)
    refine ⟨fun n hn => (hbytes' n hn).trans (hbytes n hn), fun j hj => ?_, fun j hj => hkeep j ?_⟩
    · rcases List.mem_cons.1 hj with rfl | hj
      · exact hkeep j hself
      · exact hin j hj
    · by_cases h : j = k
      · subst h; exact hself
      · rwa [hothers j h]
theorem remoteClear_eq (s : State) (g : Nat) : remoteClear s (g * 4096) = (List.range 8).foldl (clearEntry g) s := by
  unfold remoteClear clearEntry clearAt
  simp only [Nat.mul_div_cancel g (show 0 < 4096 by omega)]

theorem poisonClearNotice_spec {s : State} (hs : s.memWf) (g : Nat) : Completes (.poisonClearNotice g) s fun t =>
    (∀ e ∈ t.chip.shTlb, e.covers g = false) ∧ (∀ c ∈ t.chip.clusters, ∀ e ∈ c.tlb, e.covers g = false) ∧
    (∀ k, k < 8 → ¬namesGranule g (t.dword (bucketKey s (g * 4096) + 8 * k))) ∧
    ∀ k, ¬(bucketKey s (g * 4096) ≤ k ∧ k < bucketKey s (g * 4096) + 64) → t.byte k = s.byte k := by
  obtain ⟨hbytes, hin, -⟩ := clearEntries_spec g (List.range 8) hs.1 (fun k hk => List.mem_range.1 hk) rfl
  rw [← remoteClear_eq] at hbytes hin
  obtain ⟨a, ha⟩ := invalidateThen_eq (remoteClear s (g * 4096)) none [] fun e => e.covers g
  refine ⟨invalidate (remoteClear s (g * 4096)) none fun e => e.covers g, rfl, ?_⟩
  rw [invalidate, ha]
  refine ⟨fun e he => ?_, fun c hc e he => ?_, fun k hk => hin k (List.mem_range.2 hk), hbytes⟩
  · simpa using (List.mem_filter.1 he).2
  · obtain ⟨d, -, rfl⟩ := List.mem_map.1 hc
    simpa using (List.mem_filter.1 he).2

end Sys2Proof.Machine
/-! ### The checks of a translated access (R17, R19 to R21, R91) -/
namespace Sys2Proof.Machine

/-- An access outside the translated spaces, one of a service core to its own HBM, and one with a malformed address need no TLB
entry (R17, R19, R20). -/
theorem translate_untranslated {s : State} {cl : Nat} {ptw : DWord} {a : Acc} {ad : DWord} (h : 3 < spaceOf ad) :
    (translate s cl ptw a ad).1 = .error { cls := 3, sub := 1, addr := ad } := by
  rw [translate]; simp only [if_pos h]
theorem translate_service {s : State} {cl : Nat} {ptw : DWord} {a : Acc} {ad : DWord} (h : bit ptw 63 = true ∧ spaceOf ad = 0) :
    (translate s cl ptw a ad).1 = if localHbm (ad.toNat % 2 ^ 52) then .ok (ad.toNat % 2 ^ 52, 0xF)
      else .error { cls := 3, sub := 2, addr := ad } := by
  rw [translate]
  simp only [bits, h.1, h.2, Nat.pow_zero, Nat.div_one, beq_self_eq_true, Bool.and_self, if_true, Nat.not_lt_zero, if_false]
  split <;> rfl
theorem translate_malformed {s : State} {cl : Nat} {ptw : DWord} {a : Acc} {ad : DWord} (h3 : ¬3 < spaceOf ad)
    (hs : ¬(bit ptw 63 = true ∧ spaceOf ad = 0)) (h : bits ad 51 9 ≠ 0) :
    (translate s cl ptw a ad).1 = .error { cls := 3, sub := 2, addr := ad } := by
  have hs' : ¬(bit ptw 63 && spaceOf ad == 0) = true := by simpa using hs
  rw [translate]; simp only [if_neg h3, if_neg hs', if_pos h]
/-- What the leaf's checks answer, as the access sees it. -/
def asAccess (ad p : DWord) : Except TrapInfo Nat → Except TrapInfo (Nat × DWord)
  | .error i => .error { i with addr := ad }
  | .ok pa => .ok (pa, p)
/-- Any other goes by the entry that serves it (R20, R28). -/
theorem translate_hit {s : State} {cl : Nat} {ptw : DWord} {a : Acc} {ad : DWord} (h3 : ¬3 < spaceOf ad)
    (hs : ¬(bit ptw 63 = true ∧ spaceOf ad = 0)) (hb : ¬bits ad 51 9 ≠ 0) {e : TlbE}
    (he : (s.chip.cluster cl).tlb.find? (fun e => e.hits (ptw.toNat % 64) (ad.toNat % 2 ^ 51)) = some e) :
    (translate s cl ptw a ad).1 =
      asAccess ad e.pte (leafChecks s (ptw.toNat % 64) (ad.toNat % 2 ^ 51) (spaceOf ad) a e) := by
  have hs' : ¬(bit ptw 63 && spaceOf ad == 0) = true := by simpa using hs
  have hten : bits ptw 0 6 = ptw.toNat % 64 := by rw [bits, Nat.pow_zero, Nat.div_one]; rfl
  have hva : bits ad 0 51 = ad.toNat % 2 ^ 51 := by rw [bits, Nat.pow_zero, Nat.div_one]
  have hlook : lookupTlb s cl ptw (ad.toNat % 2 ^ 51) a = (.ok e, s) := by
    rw [lookupTlb]; simp only [hten, he]
  rw [translate]
  simp only [if_neg h3, if_neg hs', if_neg hb, hva, hlook, hten]
  cases leafChecks s (ptw.toNat % 64) (ad.toNat % 2 ^ 51) (spaceOf ad) a e <;> rfl

/-- Settles O32: the events of the TLBs each by their lemma, and the checks of an access in their order. -/
theorem translation : Obligations.Translation := by
  unfold Obligations.Translation
  refine ⟨fun s => ⟨fun k hk => ⟨fun hw => exec_pageTableReadReturn_waits hk hw, fun hw => ?_⟩,
    fun v w hv hw hi => tlbInvalidationComplete_spec hv hw hi, fun g psn => poisonUpdate_spec s g psn,
    fun g hs => poisonClearNotice_spec hs g⟩, fun s cl ptw a ad => ?_⟩
  · obtain ⟨t, ht, hf, hrest⟩ := pageTableReadReturn_spec hk hw
    exact ⟨t, ht, hf.sameBut _, hrest⟩
  · dsimp only
    by_cases h3 : 3 < spaceOf ad
    · rw [if_pos h3, translate_untranslated h3]
    rw [if_neg h3]
    by_cases hs : bit ptw 63 = true ∧ spaceOf ad = 0
    · rw [if_pos hs, translate_service hs]
      split <;> rfl
    rw [if_neg hs]
    by_cases hb : bits ad 51 9 ≠ 0
    · rw [if_pos hb, translate_malformed h3 hs hb]
    rw [if_neg hb]
    intro e he
    rw [translate_hit h3 hs hb he]
    unfold leafChecks targetChecks
    dsimp only
    by_cases h4 : (!formedOk (leafSpace e.pte) (frame e.pte + ad.toNat % 2 ^ 51 % 2 ^ levelShift e.level)) = true
    · simp only [if_pos h4]; rfl
    simp only [if_neg h4]
    by_cases h5 : bits e.pte 9 6 ≠ ptw.toNat % 64
    · simp only [if_pos h5]; rfl
    simp only [if_neg h5]
    by_cases h6 : leafSpace e.pte ≠ spaceOf ad
    · simp only [if_pos h6]; rfl
    simp only [if_neg h6]
    cases (if leafSpace e.pte = 2 then orchPa s e.pte (frame e.pte + ad.toNat % 2 ^ 51 % 2 ^ levelShift e.level)
      else some (frame e.pte + ad.toNat % 2 ^ 51 % 2 ^ levelShift e.level)) with
    | none => rfl
    | some pa =>
      dsimp only
      by_cases h8 : (!opAllowed s (leafSpace e.pte) a pa) = true
      · simp only [if_pos h8]; rfl
      simp only [if_neg h8]
      cases hp : permOk a e.pte with
      | false =>
        rw [if_pos (by revert hp; cases a <;> simp [permOk, imp_iff_not_or])]
        rfl
      | true =>
        rw [if_neg (by revert hp; cases a <;> simp [permOk])]
        by_cases h10 : a ≠ .fill ∧ e.psn.getLsbD (pa / 4096 % 8) = true
        · have h : (a != .fill && e.psn.getLsbD (pa / 4096 % 8)) = true := by simpa using h10
          rw [if_pos h10]
          simp only [Bool.not_true, Bool.false_eq_true, if_false, if_pos h]
          rfl
        · have h : ¬(a != .fill && e.psn.getLsbD (pa / 4096 % 8)) = true := by simpa using h10
          rw [if_neg h10]
          simp only [Bool.not_true, Bool.false_eq_true, if_false, if_neg h]
          rfl
end Sys2Proof.Machine

/-! ### Firmware's writes of memory (R26, R61, R485) -/
namespace Sys2Proof.Machine

/-- What firmware's writes of memory leave: cores, firmware's own state, the slots and the place where poison is kept; and
memory stays in its canonical form. -/
structure FwTouch (s t : State) : Prop where
  cores : t.cores = s.cores
  fw : t.fw = s.fw
  cur : t.cur = s.cur
  slots : t.chip.slots = s.chip.slots
  wf : Memory.wf s.mem = true → Memory.wf t.mem = true
theorem FwTouch.refl (s : State) : FwTouch s s := ⟨rfl, rfl, rfl, rfl, id⟩
theorem FwTouch.trans {s t u : State} (h : FwTouch s t) (k : FwTouch t u) : FwTouch s u :=
  ⟨k.cores.trans h.cores, k.fw.trans h.fw, k.cur.trans h.cur, k.slots.trans h.slots, k.wf ∘ h.wf⟩
theorem FwTouch.foldl {α : Type} {f : State → α → State} (h : ∀ s a, FwTouch s (f s a)) (l : List α) (s : State) :
    FwTouch s (l.foldl f s) := by
  induction l generalizing s with
  | nil => exact .refl s
  | cons a l ih => exact (h s a).trans (ih _)
theorem FwTouch.iss {s t : State} (h : FwTouch s t) (w : Iss) : t.iss w = s.iss w := by
  rw [State.iss, State.core, h.cores]; rfl

theorem fwTouch_setByte (s : State) (k : Nat) (b : Byte) : FwTouch s (s.setByte k b) :=
  ⟨rfl, rfl, rfl, rfl, Memory.wf_setByte⟩
theorem fwTouch_setBytes (s : State) (k : Nat) (l : List Byte) : FwTouch s (s.setBytes k l) :=
  ⟨State.setBytes_cores _ _ _, State.setBytes_fw _ _ _, State.setBytes_cur _ _ _, by rw [State.setBytes_chip], Memory.wf_setBytes⟩
/-- What is named waits for the new invalidation (R32). -/
theorem invalidateThen_next (s : State) (w : Option Iss) (next : List (Iss × Instr)) (f : TlbE → Bool) :
    ∃ v ∈ (invalidateThen s w next f).chip.invs, v.next = next := by
  obtain ⟨a, h⟩ := invalidateThen_eq s w next f
  rw [h]
  exact ⟨_, List.mem_append_right _ (List.mem_singleton.2 rfl), rfl⟩
theorem fwTouch_invalidateThen (s : State) (w : Option Iss) (next : List (Iss × Instr)) (f : TlbE → Bool) :
    FwTouch s (invalidateThen s w next f) := by
  obtain ⟨a, h⟩ := invalidateThen_eq s w next f
  rw [h]
  exact ⟨rfl, rfl, rfl, rfl, id⟩

/-- What turns bits of memory off and none on: firmware's state stays, and a byte that is zero stays zero. -/
structure TurnsOff (s t : State) : Prop where
  touch : FwTouch s t
  zero : Memory.wf s.mem = true → ∀ k, s.byte k = 0 → t.byte k = 0
theorem TurnsOff.refl (s : State) : TurnsOff s s := ⟨.refl s, fun _ _ h => h⟩
theorem TurnsOff.trans {s t u : State} (h : TurnsOff s t) (k : TurnsOff t u) : TurnsOff s u :=
  ⟨h.touch.trans k.touch, fun hs n hn => k.zero (h.touch.wf hs) n (h.zero hs n hn)⟩
theorem TurnsOff.foldl {α : Type} {f : State → α → State} (h : ∀ s a, TurnsOff s (f s a)) (l : List α) (s : State) :
    TurnsOff s (l.foldl f s) := by
  induction l generalizing s with
  | nil => exact .refl s
  | cons a l ih => exact (h s a).trans (ih _)
theorem turnsOff_mask (s : State) (k : Nat) (m : Byte) : TurnsOff s (s.setByte k (s.byte k &&& m)) where
  touch := fwTouch_setByte s k _
  zero hs n hn := by
    rw [State.byte_setByte n hs]
    split
    · rename_i h; rw [← h, hn]; exact BitVec.zero_and
    · exact hn
/-- Firmware's clearing of poison bits turns bits off (R26). -/
theorem turnsOff_clearGranules (s : State) (pa n : Nat) : TurnsOff s (clearGranules s pa n) := by
  unfold clearGranules
  split
  · exact .refl s
  · extract_lets gs bad s1 clean s2
    split
    · exact .refl s
    · have h1 : TurnsOff s s1 := TurnsOff.foldl (f := fun s g => setGranule s (g * 4096) false)
        (fun s g => turnsOff_mask s _ _) bad s
      have h2 : TurnsOff s1 s2 := TurnsOff.foldl (f := fun s m =>
        s.setByte (keyHbm (frame s.chip.psnbase + 0x1800000 + m / 8))
          (s.byte (keyHbm (frame s.chip.psnbase + 0x1800000 + m / 8)) &&& ~~~((1 : Byte) <<< (m % 8))))
        (fun s m => turnsOff_mask s _ _) clean s1
      refine (h1.trans h2).trans ⟨fwTouch_invalidateThen _ _ _ _, fun _ k hk => ?_⟩
      rwa [invalidate, (inChip_invalidateThen _ _ _ _).byte]
theorem turnsOff_fwWrote (s : State) (pa n : Nat) : TurnsOff s (fwWrote s pa n) := by
  unfold fwWrote
  extract_lets u g
  have hu : TurnsOff s u := ⟨⟨rfl, rfl, rfl, rfl, id⟩, fun _ _ h => h⟩
  split
  · exact hu.trans (turnsOff_clearGranules u _ _)
  · exact hu
/-- A write of less than a granule rewrites none whole: it moves no poison bit, and invalidates nothing (R26). -/
theorem fwWrote_eq {n : Nat} (hn : n < 4096) (s : State) (pa : Nat) : ∃ m, fwWrote s pa n = { s with stamps := m } := by
  have hz : (pa + n) / 4096 - (pa + 4095) / 4096 = 0 := by omega
  refine ⟨s.stamps.filter fun e => !(decide (pa / 64 ≤ e.1) && decide (e.1 * 64 < pa + n)), ?_⟩
  unfold fwWrote
  dsimp only
  split
  · rw [hz, clearGranules]
    split
    · rfl
    · rfl
  · rfl
theorem fwWrote_mem {n : Nat} (hn : n < 4096) (s : State) (pa : Nat) : (fwWrote s pa n).mem = s.mem := by
  obtain ⟨m, h⟩ := fwWrote_eq hn s pa
  rw [h]

theorem fwTouch_fwStore (s : State) (pa : Nat) (bs : List Byte) : FwTouch s (fwStore s pa bs) :=
  (fwTouch_setBytes s _ bs).trans (turnsOff_fwWrote _ pa bs.length).touch
/-- The bytes of memory after firmware has stored less than a granule. -/
theorem byte_fwStore {bs : List Byte} (hl : bs.length < 4096) (s : State) (pa k : Nat) :
    (fwStore s pa bs).byte k = (s.setBytes (keyHbm pa) bs).byte k := by
  rw [fwStore, State.byte, fwWrote_mem hl, State.byte]
theorem dword_of_mem {s t : State} (h : t.mem = s.mem) (k : Nat) : t.dword k = s.dword k := by
  rw [State.dword, bytes_of_mem h, State.dword]
theorem dword_fwStore {s : State} (hs : Memory.wf s.mem = true) (pa : Nat) (v : DWord) :
    (fwStore s pa (toBytes 8 v.toNat)).dword (keyHbm pa) = v := by
  rw [fwStore, dword_of_mem (fwWrote_mem (by rw [length_toBytes]; omega) _ _), State.dword_setBytes v hs]

theorem fwTouch_clearRange (s : State) (k n : Nat) : FwTouch s (clearRange s k n) :=
  ⟨rfl, rfl, rfl, rfl, Sparse.wfFrom_filter _⟩
theorem byte_clearRange {s : State} (hs : Memory.wf s.mem = true) (k n j : Nat) :
    (clearRange s k n).byte j = if k ≤ j ∧ j < k + n then 0 else s.byte j := by
  have h := Sparse.get_filter (d := unlistedByte) (fun j => !(decide (k ≤ j) && decide (j < k + n))) j hs
  refine h.trans ?_
  by_cases hj : k ≤ j ∧ j < k + n
  · rw [if_pos hj, if_neg (by simpa using hj)]; rfl
  · rw [if_neg hj, if_pos (by simpa only [Bool.not_eq_true', Bool.and_eq_false_iff, decide_eq_false_iff_not, not_and_or] using hj)]; rfl
theorem fwTouch_copyRange (s : State) (src dst n : Nat) : FwTouch s (copyRange s src dst n) :=
  (fwTouch_clearRange s dst n).trans (FwTouch.foldl (fun s _ => fwTouch_setByte s _ _) _ _)
theorem fwTouch_fillFrame (s : State) (tenant key src n : Nat) : FwTouch s (fillFrame s tenant key src n) := by
  refine FwTouch.foldl (fun s k => ?_) _ _
  split
  · exact fwTouch_copyRange _ _ _ _
  · exact fwTouch_clearRange _ _ _

end Sys2Proof.Machine

/-! ### Deferred entries (R33, R485) -/
namespace Sys2Proof.Machine

/-- Memory after firmware has given a deferred entry's frame its contents (R485). -/
def frameFilled (s : State) (tenant lv pa : Nat) (p : DWord) : State :=
  let sz := 2 ^ levelShift lv
  let key := memKey (leafSpace p) (frame p)
  let src := (assoc s.fw.deferred pa).getD 0
  let s := if src = 0 then clearRange s key sz else fillFrame s tenant key src (sz / 2 ^ 15)
  if leafSpace p ≤ 1 then fwWrote s (frame p) sz else s
theorem fwTouch_frameFilled (s : State) (tenant lv pa : Nat) (p : DWord) : FwTouch s (frameFilled s tenant lv pa p) := by
  unfold frameFilled
  extract_lets sz key src u
  have hu : FwTouch s u := by
    by_cases h : src = 0
    · rw [show u = clearRange s key sz from if_pos h]; exact fwTouch_clearRange _ _ _
    · rw [show u = fillFrame s tenant key src (sz / 2 ^ 15) from if_neg h]; exact fwTouch_fillFrame _ _ _ _ _
  split
  · exact hu.trans (turnsOff_fwWrote _ _ _).touch
  · exact hu
/-- A frame without a copy source reads as zeros. -/
theorem byte_frameFilled {s : State} (hs : Memory.wf s.mem = true) {tenant lv pa : Nat} {p : DWord}
    (h0 : (assoc s.fw.deferred pa).getD 0 = 0) {o : Nat} (ho : o < 2 ^ levelShift lv) :
    (frameFilled s tenant lv pa p).byte (memKey (leafSpace p) (frame p) + o) = 0 := by
  unfold frameFilled
  dsimp only
  rw [if_pos h0]
  have hz : (clearRange s (memKey (leafSpace p) (frame p)) (2 ^ levelShift lv)).byte (memKey (leafSpace p) (frame p) + o) = 0 := by
    rw [byte_clearRange hs, if_pos ⟨Nat.le_add_right _ _, Nat.add_lt_add_left ho _⟩]
  split
  · exact (turnsOff_fwWrote _ _ _).zero ((fwTouch_clearRange _ _ _).wf hs) _ hz
  · exact hz

/-- The frame filled and the entry valid, before the invalidation (R485). -/
def entryResolved (s : State) (tenant lv pa : Nat) (p : DWord) : State :=
  let u := fwStore (frameFilled s tenant lv pa p) pa (toBytes 8 (p.toNat / 2 * 2 + 1))
  { u with fw := { u.fw with deferred := assocDel u.fw.deferred pa } }
theorem exec_deferredEntryResolve_none {s : State} (hw : (s.iss s.cur).wait = .fault) {va : Nat} (hv : faultVa s s.cur = some va)
    (hd : deferredAt s (s.coreOf s.cur).ptbase va = none) : exec .deferredEntryResolve s =
      .next (s.updIss s.cur fun me => { me with wait := .run, nextAt := max me.nextAt s.tick }) := by
  rw [show exec .deferredEntryResolve s = execDeferredEntryResolve s from rfl, execDeferredEntryResolve]
  simp only [hw, hv, hd, ne_eq, not_true_eq_false, if_false]
theorem exec_deferredEntryResolve_some {s : State} (hw : (s.iss s.cur).wait = .fault) {va : Nat} (hv : faultVa s s.cur = some va)
    {lv pa : Nat} {p : DWord} (hd : deferredAt s (s.coreOf s.cur).ptbase va = some (lv, pa, p)) :
    exec .deferredEntryResolve s = .next (invalidateVa (entryResolved s (s.coreOf s.cur).tenant lv pa p) none
      [(s.cur, .deferredEntryResolve)] (s.coreOf s.cur).tenant va 1) := by
  rw [show exec .deferredEntryResolve s = execDeferredEntryResolve s from rfl, execDeferredEntryResolve]
  simp only [hw, hv, hd, ne_eq, not_true_eq_false, if_false]
  rfl
theorem iss_entryResolved (s : State) (tenant lv pa : Nat) (p : DWord) (w : Iss) :
    (entryResolved s tenant lv pa p).iss w = s.iss w :=
  ((fwTouch_frameFilled s tenant lv pa p).trans (fwTouch_fwStore _ _ _)).iss w
theorem toBytes_ofNat (v : Nat) : toBytes 8 v = toBytes 8 (BitVec.ofNat 64 v).toNat := by
  have hmod : ∀ n v : Nat, toBytes n (v % 256 ^ n) = toBytes n v := by
    intro n
    induction n with
    | zero => exact fun _ => rfl
    | succ n ih =>
      intro v
      rw [toBytes, toBytes, Nat.pow_succ, Nat.mod_mul_left_mod, Nat.mul_comm, Nat.mod_mul_right_div_self, ih]
  exact (hmod 8 v).symm
theorem dword_entryResolved {s : State} (hs : Memory.wf s.mem = true) (tenant lv pa : Nat) (p : DWord) :
    (entryResolved s tenant lv pa p).dword (keyHbm pa) = BitVec.ofNat 64 (p.toNat / 2 * 2 + 1) := by
  refine Eq.trans ?_ (dword_fwStore ((fwTouch_frameFilled s tenant lv pa p).wf hs) pa _)
  rw [← toBytes_ofNat]
  rfl
theorem byte_entryResolved {s : State} (hs : Memory.wf s.mem = true) {tenant lv pa : Nat} {p : DWord}
    (h0 : (assoc s.fw.deferred pa).getD 0 = 0)
    (hd : keyHbm pa + 8 ≤ memKey (leafSpace p) (frame p) ∨ memKey (leafSpace p) (frame p) + 2 ^ levelShift lv ≤ keyHbm pa)
    {o : Nat} (ho : o < 2 ^ levelShift lv) :
    (entryResolved s tenant lv pa p).byte (memKey (leafSpace p) (frame p) + o) = 0 := by
  have hlen : (toBytes 8 (p.toNat / 2 * 2 + 1)).length = 8 := length_toBytes 8 _
  refine (byte_fwStore (by rw [hlen]; omega) (frameFilled s tenant lv pa p) pa _).trans ?_
  rw [State.byte_setBytes_other _ ((fwTouch_frameFilled s tenant lv pa p).wf hs)]
  · exact byte_frameFilled hs h0 ho
  · rw [hlen]
    rcases hd with h | h
    · exact .inr (Nat.le_trans h (Nat.le_add_right _ _))
    · exact .inl (Nat.lt_of_lt_of_le (Nat.add_lt_add_left ho _) h)

end Sys2Proof.Machine

/-! ### Firmware takes a fault's record (R33, R92, R152, R400, R409) -/
namespace Sys2Proof.Machine

/-! Walks read memory alone, and a walk that ends at a leaf meets no deferred entry (R15, R485). -/

theorem walkFrom_of_mem {s t : State} (h : t.mem = s.mem) (va f level base : Nat) :
    walkFrom t va f level base = walkFrom s va f level base := by
  induction f generalizing level base with
  | zero => rfl
  | succ f ih => simp only [walkFrom, dword_of_mem h, ih]
theorem walk_of_mem {s t : State} (h : t.mem = s.mem) (pt : DWord) (va : Nat) : walk t pt va = walk s pt va := by
  simp only [walk, walkFrom_of_mem h]
theorem deferredAt_go_of_mem {s t : State} (h : t.mem = s.mem) (va f level base : Nat) :
    deferredAt.go t va level base f = deferredAt.go s va level base f := by
  induction f generalizing level base with
  | zero => rfl
  | succ f ih => simp only [deferredAt.go, dword_of_mem h, ih]
theorem deferredAt_of_mem {s t : State} (h : t.mem = s.mem) (pt : DWord) (va : Nat) :
    deferredAt t pt va = deferredAt s pt va := deferredAt_go_of_mem h va 3 0 _
/-- One level of the walk to a deferred entry, by the level's shift. -/
theorem deferredAt_go_succ (s : State) (va level base f : Nat) : deferredAt.go s va level base (f + 1) =
    (let pa := base + 8 * (va / 2 ^ levelShift level % 4096)
     let p := s.dword (keyHbm pa)
     if !bit p 0 then (if p.toNat / 2 = 0 then none else some (level, pa, p))
     else if bit p 1 then none
     else deferredAt.go s va (level + 1) (frame p) f) := by
  match level with
  | 0 => rfl
  | 1 => rfl
  | _ + 2 => rfl
theorem deferredAt_go_of_leaf {s : State} {va l : Nat} {p : DWord} {pa : Nat} (f level base : Nat)
    (h : walkFrom s va f level base = .leaf l p pa) : deferredAt.go s va level base f = none := by
  induction f generalizing level base with
  | zero => cases h
  | succ f ih =>
    rw [walkFrom] at h
    rw [deferredAt_go_succ]
    dsimp only at h ⊢
    split at h
    · cases h
    · rename_i hv
      rw [if_neg hv]
      split at h
      · rename_i hl
        rw [if_pos hl]
      · rename_i hl
        rw [if_neg hl]
        split at h
        · cases h
        · split at h
          · exact ih _ _ h
          · cases h
theorem deferredAt_of_leaf {s : State} {pt : DWord} {va l : Nat} {p : DWord} {pa : Nat} (h : walk s pt va = .leaf l p pa) :
    deferredAt s pt va = none := by
  rw [walk] at h
  split at h
  · exact deferredAt_go_of_leaf 3 0 _ h
  · cases h

/-! The end of a grid by firmware (R152, R409). -/

theorem grid_updGrid (s : State) (g k : Nat) (f : Grid → Grid) (hf : ∀ x, (f x).id = x.id) :
    (s.updGrid g f).grid k = if k = g then (s.grid g).map f else s.grid k := by
  have hid : ∀ x : Grid, (if x.id = g then f x else x).id = x.id := fun x => by split; exacts [hf x, rfl]
  have hfind : (s.updGrid g f).grid k = (s.grid k).map fun x => if x.id = g then f x else x := by
    unfold State.grid State.updGrid
    dsimp only
    rw [List.find?_map]
    simp only [Function.comp_def, hid]
  rw [hfind]
  cases hk : s.grid k with
  | none =>
    split
    · rename_i h; rw [← h, hk]; rfl
    · rfl
  | some x =>
    have hx : x.id = k := by simpa using List.find?_some hk
    by_cases h : k = g
    · rw [if_pos h, ← h, hk, Option.map_some, Option.map_some, if_pos hx]
    · rw [if_neg h, Option.map_some, if_neg (by rw [hx]; exact h)]

/-- All issuers of a core have ended. -/
def AllEnded (s : State) (c : Nat × Nat) : Prop := ∀ i ∈ (s.core c.1 c.2).issuers, i.wait = .ended
theorem stopCore_ended (c : Core) (n : Nat) : ∀ i ∈ (stopCore c n).issuers, i.wait = .ended := by
  intro i hi
  obtain ⟨j, -, rfl⟩ := List.mem_map.1 hi
  rfl
theorem core_stopped (s : State) (k c : Nat × Nat) (n : Nat) : (s.updCore k.1 k.2 fun c => stopCore c n).core c.1 c.2 =
    if k.1 = c.1 ∧ k.2 = c.2 then stopCore (s.core k.1 k.2) n else s.core c.1 c.2 :=
  core_updCore s k.1 k.2 c.1 c.2 _ fun _ => ⟨rfl, rfl⟩
/-- Cores stopped in turn: their issuers have all ended, and those that had stay so; firmware's state stays. -/
theorem stopCores_spec (l : List (Nat × Nat)) (s : State) (n : Nat) :
    let t := l.foldl (fun s k => s.updCore k.1 k.2 fun c => stopCore c n) s
    t.fw = s.fw ∧ t.tick = s.tick ∧ t.agenda = s.agenda ∧ (∀ c, AllEnded s c → AllEnded t c) ∧ ∀ c ∈ l, AllEnded t c := by
  induction l generalizing s with
  | nil => exact ⟨rfl, rfl, rfl, fun _ h => h, fun _ h => absurd h List.not_mem_nil⟩
  | cons k l ih =>
    obtain ⟨hfw, htick, hag, hkeep, hall⟩ := ih (s.updCore k.1 k.2 fun c => stopCore c n)
    have hstep : ∀ c, (c = k ∨ AllEnded s c) → AllEnded (s.updCore k.1 k.2 fun c => stopCore c n) c := by
      intro c h
      unfold AllEnded
      rw [core_stopped]
      split
      · exact stopCore_ended _ _
      · rename_i hne
        exact h.resolve_left fun e => hne (e ▸ ⟨rfl, rfl⟩)
    refine ⟨hfw, htick, hag, fun c h => hkeep c (hstep c (.inr h)), fun c h => ?_⟩
    rcases List.mem_cons.1 h with h | h
    · exact hkeep c (hstep c (.inl h))
    · exact hall c h

/-- What firmware's end of a grid does to the rest: other grids, the time, the logs and the records under way stay, happenings
that were set stay set, and what has ended has ended. -/
structure EndsGrids (s t : State) : Prop where
  tick : t.tick = s.tick
  logs : t.fw.logs = s.fw.logs
  faults : t.fw.faults = s.fw.faults
  agenda : ∀ e ∈ s.agenda, e ∈ t.agenda
  ended : ∀ c, AllEnded s c → AllEnded t c
theorem EndsGrids.refl (s : State) : EndsGrids s s := ⟨rfl, rfl, rfl, fun _ h => h, fun _ h => h⟩
theorem EndsGrids.trans {s t u : State} (h : EndsGrids s t) (k : EndsGrids t u) : EndsGrids s u :=
  ⟨k.tick.trans h.tick, k.logs.trans h.logs, k.faults.trans h.faults, fun e he => k.agenda e (h.agenda e he),
    fun c hc => k.ended c (h.ended c hc)⟩

/-- The states of a grid that firmware no longer ends: it has ended, or was refused (R389). -/
def Grid.over (x : Grid) : Prop := x.state = 4 ∨ x.state = 5 ∨ x.state = 6 ∨ (x.state = 0 ∧ x.rstat ≠ 0)
theorem endGrid_over {s : State} {g : Nat} {x : Grid} (hg : s.grid g = some x) (h : x.over) (rstat : Nat) (r : Rec) :
    endGrid s g rstat r = s := by
  rw [endGrid, hg]
  exact if_pos h
theorem endGrid_none {s : State} {g : Nat} (hg : s.grid g = none) (rstat : Nat) (r : Rec) : endGrid s g rstat r = s := by
  rw [endGrid, hg]
/-- A grid that is not over ends: its slot gets the record, its packet retires, and when it ran its cores stop. -/
theorem endGrid_spec {s : State} {g : Nat} {x : Grid} (hg : s.grid g = some x) (h : ¬x.over) (rstat : Nat) (r : Rec) :
    EndsGrids s (endGrid s g rstat r) ∧
      (endGrid s g rstat r).grid g = some { x with state := 5, rstat := rstat, sdwords := r.take 7 } ∧
      (∀ k, k ≠ g → (endGrid s g rstat r).grid k = s.grid k) ∧
      (s.tick, obj g, Instr.packetRetire) ∈ (endGrid s g rstat r).agenda ∧
      (x.state = 2 → ∀ c ∈ x.cores, AllEnded (endGrid s g rstat r) c) := by
  let u := if x.state = 2 then x.cores.foldl (fun s k => s.updCore k.1 k.2 fun c => stopCore c 5) s
    else { s with fw := { s.fw with ctxs := s.fw.ctxs.filter fun c => c.grid != g } }
  have hgrid : ∀ k, u.grid k = s.grid k ∧ u.tick = s.tick ∧ u.fw.logs = s.fw.logs ∧ u.fw.faults = s.fw.faults ∧
      u.agenda = s.agenda ∧ (∀ c, AllEnded s c → AllEnded u c) ∧ (x.state = 2 → ∀ c ∈ x.cores, AllEnded u c) := by
    intro k
    by_cases h2 : x.state = 2
    · obtain ⟨hfw, htick, hag, hkeep, hall⟩ := stopCores_spec x.cores s 5
      rw [show u = x.cores.foldl (fun s k => s.updCore k.1 k.2 fun c => stopCore c 5) s from if_pos h2]
      exact ⟨by rw [State.grid, hfw, State.grid], htick, by rw [hfw], by rw [hfw], hag, hkeep, fun _ => hall⟩
    · rw [show u = { s with fw := { s.fw with ctxs := s.fw.ctxs.filter fun c => c.grid != g } } from if_neg h2]
      exact ⟨rfl, rfl, rfl, rfl, rfl, fun _ h => h, fun h => absurd h h2⟩
  obtain ⟨-, htick, hlogs, hfaults, hag, hended, hall⟩ := hgrid g
  have he : endGrid s g rstat r = (u.updGrid g fun x => { x with state := 5, rstat := rstat, sdwords := r.take 7 }).sched
      u.tick (obj g) .packetRetire := by
    rw [endGrid, hg]
    exact if_neg h
  have hupd := fun k => grid_updGrid u g k (fun x => { x with state := 5, rstat := rstat, sdwords := r.take 7 }) fun _ => rfl
  rw [he, htick]
  refine ⟨⟨htick, hlogs, hfaults, fun e h => ?_, hended⟩, ?_, fun k hk => ?_, ?_, hall⟩
  · exact List.mem_append_left _ (hag ▸ h)
  · refine (hupd g).trans ?_
    rw [if_pos rfl, (hgrid g).1, hg]
    rfl
  · refine (hupd k).trans ?_
    rw [if_neg hk, (hgrid k).1]
  · exact List.mem_append_right _ (List.mem_singleton.2 rfl)
theorem endsGrids_endGrid (s : State) (g rstat : Nat) (r : Rec) : EndsGrids s (endGrid s g rstat r) := by
  cases hg : s.grid g with
  | none => rw [endGrid_none hg]; exact .refl s
  | some x =>
    by_cases h : x.over
    · rw [endGrid_over hg h]; exact .refl s
    · exact (endGrid_spec hg h rstat r).1
/-- The end of one grid leaves another, and one that is over, as it is. -/
theorem endGrid_grid_of_over {s : State} {k : Nat} {x : Grid} (hk : s.grid k = some x) (h : x.over) (g rstat : Nat) (r : Rec) :
    (endGrid s g rstat r).grid k = some x := by
  cases hg : s.grid g with
  | none => rw [endGrid_none hg]; exact hk
  | some y =>
    by_cases hy : y.over
    · rw [endGrid_over hg hy]; exact hk
    · have hne : k ≠ g := fun e => by
        rw [e, hg] at hk
        exact hy (Option.some.inj hk ▸ h)
      rw [(endGrid_spec hg hy rstat r).2.2.1 k hne]
      exact hk
theorem endGrid_grid_other {s : State} {k g : Nat} (h : k ≠ g) (rstat : Nat) (r : Rec) :
    (endGrid s g rstat r).grid k = s.grid k := by
  cases hg : s.grid g with
  | none => rw [endGrid_none hg]
  | some y =>
    by_cases hy : y.over
    · rw [endGrid_over hg hy]
    · exact (endGrid_spec hg hy rstat r).2.2.1 k h

theorem endsGrids_foldl (l : List Nat) (s : State) (r : Rec) :
    EndsGrids s (l.foldl (fun s k => endGrid s k 10 r) s) := by
  induction l generalizing s with
  | nil => exact .refl s
  | cons k l ih => exact (endsGrids_endGrid s k 10 r).trans (ih _)
theorem endGrids_grid_of_over (l : List Nat) {s : State} {g : Nat} {x : Grid} (hg : s.grid g = some x) (h : x.over) (r : Rec) :
    (l.foldl (fun s k => endGrid s k 10 r) s).grid g = some x := by
  induction l generalizing s with
  | nil => exact hg
  | cons k l ih => exact ih (endGrid_grid_of_over hg h k 10 r)
/-- Grids ended in turn: one of them that ran has ended with its record, its packet retires, and its issuers have ended. -/
theorem endGrids_spec {l : List Nat} {s : State} {g : Nat} {x : Grid} (hg : s.grid g = some x) (hx : x.state = 2) (hl : g ∈ l)
    (r : Rec) : let t := l.foldl (fun s k => endGrid s k 10 r) s
    t.grid g = some { x with state := 5, rstat := 10, sdwords := r.take 7 } ∧
      (s.tick, obj g, Instr.packetRetire) ∈ t.agenda ∧ ∀ c ∈ x.cores, AllEnded t c := by
  induction l generalizing s with
  | nil => exact absurd hl List.not_mem_nil
  | cons k l ih =>
    by_cases hk : g = k
    · subst hk
      have hover : ¬x.over := by rw [Grid.over, hx]; omega
      obtain ⟨-, hgrid, -, hret, hall⟩ := endGrid_spec hg hover 10 r
      have hrest := endsGrids_foldl l (endGrid s g 10 r) r
      exact ⟨endGrids_grid_of_over l hgrid (.inr (.inl rfl)) r, hrest.agenda _ hret,
        fun c hc => hrest.ended c (hall hx c hc)⟩
    · have hg' : (endGrid s k 10 r).grid g = some x := (endGrid_grid_other hk 10 r).trans hg
      have htick := (endsGrids_endGrid s k 10 r).tick
      obtain ⟨h1, h2, h3⟩ := ih hg' ((List.mem_cons.1 hl).resolve_left hk)
      exact ⟨h1, htick ▸ h2, h3⟩

/-- A grid that runs is among those that end with it (R152). -/
theorem mem_companions {s : State} {g : Nat} {x : Grid} (hg : s.grid g = some x) (hx : x.state = 2) : g ∈ s.companions g := by
  have hid : x.id = g := by simpa using List.find?_some hg
  rw [State.companions, hg]
  dsimp only
  split
  · exact List.mem_singleton.2 rfl
  · rename_i d hd
    have hin : s.inSubtree d.id x.dom = true := List.any_eq_true.2 ⟨d, List.mem_of_find?_eq_some hd, beq_self_eq_true _⟩
    refine List.mem_map.2 ⟨x, List.mem_filter.2 ⟨List.mem_of_find?_eq_some hg, ?_⟩, hid⟩
    rw [hx, hin]
    rfl
theorem endsGrids_terminateAt (s : State) (cl co : Nat) (r : Rec) : EndsGrids s (terminateAt s cl co r) := by
  unfold terminateAt
  split
  · exact endsGrids_foldl _ s r
  · refine ⟨rfl, rfl, rfl, fun _ h => h, fun c hc => ?_⟩
    unfold AllEnded
    rw [core_stopped s (cl, co) c 5]
    split
    · exact stopCore_ended _ _
    · exact hc
/-- The grid that runs on a core ends, with the record that ends it (R152). -/
theorem terminateAt_spec {s : State} {cl co g : Nat} (h : (s.core cl co).grid = some g) {x : Grid} (hg : s.grid g = some x)
    (hx : x.state = 2) (r : Rec) :
    (terminateAt s cl co r).grid g = some { x with state := 5, rstat := 10, sdwords := r.take 7 } ∧
      (s.tick, obj g, Instr.packetRetire) ∈ (terminateAt s cl co r).agenda ∧ ∀ c ∈ x.cores, AllEnded (terminateAt s cl co r) c := by
  rw [terminateAt, h]
  exact endGrids_spec hg hx (mem_companions hg hx) r

/-! FIRMWARE_FAULT_DELIVERY (R33, R400, R409). -/

/-- The record is logged and no longer under way. -/
def logged (s : State) (k : Nat) (r : Rec) : State := { s with fw := { s.fw with
  faults := s.fw.faults.filter fun f => f.1 != k, logs := s.fw.logs ++ [r] } }
/-- The loss of an Orchard allocation that a record names is logged too (R92). -/
def lossLogged (s : State) (w : Iss) (cls va : Nat) : State :=
  if cls = 0x07 then
    match s.fw.allocs.find? fun a => domTenant s a.dom == (s.coreOf w).tenant && decide (a.va ≤ va) && decide (va < a.va + a.size) with
    | some a => { s with fw := { s.fw with logs := s.fw.logs ++ [[BitVec.ofNat 64 (2 * 2 ^ 60 + a.va)]] } }
    | none => s
  else s
theorem lossLogged_eq (s : State) (w : Iss) (cls va : Nat) :
    ∃ l, lossLogged s w cls va = { s with fw := { s.fw with logs := s.fw.logs ++ l } } := by
  unfold lossLogged
  split
  · split
    · exact ⟨_, rfl⟩
    · exact ⟨[], by rw [List.append_nil]⟩
  · exact ⟨[], by rw [List.append_nil]⟩
/-- The issuer enters again (R33). -/
def reentered (s : State) (w : Iss) : State := s.updIss w fun me => { me with wait := .run, nextAt := max me.nextAt s.tick }
theorem reentered_run (s : State) (w : Iss) : ((reentered s w).iss w).wait = .run := by
  rw [reentered, iss_updIss _ _ _ (state_iss_slot s w)]
/-- The resolution of a deferred entry is set (R33). -/
def resolutionSet (s : State) (w : Iss) : State := (s.free 4000).2.sched ((s.free 4000).2.tick + (s.free 4000).1) w .deferredEntryResolve

section
variable {s : State} {k : Nat} {r : Rec}

theorem exec_firmwareFaultDelivery_logs {ow : Option Iss} (hf : s.fw.faults.find? (fun f => f.1 == s.cur.n) = some (k, r, ow))
    (h : ow = none ∨ bits (nth r 0 0) 0 8 = 0x13 ∨ bits (nth r 0 0) 0 8 = 0x15) :
    exec .firmwareFaultDelivery s = .next (logged s k r) := by
  rw [show exec .firmwareFaultDelivery s = execFirmwareFaultDelivery s from rfl, execFirmwareFaultDelivery, hf]
  dsimp only
  cases ow with
  | none => rfl
  | some w => exact if_pos (h.resolve_left nofun)

/-- The classes that stop nobody are passed over, and so is an issuer that no longer waits (R402). -/
def stopsNobody (s : State) (w : Iss) (r : Rec) : Prop :=
  (bits (nth r 0 0) 0 8 = 0x13 ∨ bits (nth r 0 0) 0 8 = 0x15) ∨ (s.iss w).wait ≠ .fault ∧ bit (nth r 0 0) 17 = false
theorem exec_firmwareFaultDelivery_passed {w : Iss} (hf : s.fw.faults.find? (fun f => f.1 == s.cur.n) = some (k, r, some w))
    (h : stopsNobody s w r) : exec .firmwareFaultDelivery s = .next (logged s k r) := by
  rcases h with h | ⟨hw, h17⟩
  · exact exec_firmwareFaultDelivery_logs hf (.inr h)
  · rw [show exec .firmwareFaultDelivery s = execFirmwareFaultDelivery s from rfl, execFirmwareFaultDelivery, hf]
    dsimp only
    split
    · rfl
    · exact if_pos ⟨hw, by rw [h17]; rfl⟩
/-- The record is of a page that was not present, met by an access (R20, R33). -/
def pageMissing (r : Rec) : Bool := bits (nth r 0 0) 0 8 == 0x04 && !bit (nth r 0 0) 16
/-- What the record of an issuer that is stopped brings, by its class and the walk: the issuer enters again, its entry will be
resolved, or the grid ends (R33, R409). -/
theorem exec_firmwareFaultDelivery_stops {w : Iss} (hf : s.fw.faults.find? (fun f => f.1 == s.cur.n) = some (k, r, some w))
    (h : ¬stopsNobody s w r) :
    let pt := (s.coreOf w).ptbase
    let va := bits (nth r 4 0) 0 51
    (pageMissing r = true ∧ (∃ l p pa, walk s pt va = .leaf l p pa) ∧
      exec .firmwareFaultDelivery s = .next (reentered (logged s k r) w)) ∨
    (pageMissing r = true ∧ (∀ l p pa, walk s pt va ≠ .leaf l p pa) ∧ (deferredAt s pt va).isSome = true ∧
      exec .firmwareFaultDelivery s = .next (resolutionSet (logged s k r) w)) ∨
    ((pageMissing r = false ∨ (∀ l p pa, walk s pt va ≠ .leaf l p pa) ∧ deferredAt s pt va = none) ∧
      exec .firmwareFaultDelivery s = .next (terminateAt (lossLogged (logged s k r) w (bits (nth r 0 0) 0 8) va) w.cl w.co r)) := by
  intro pt va
  rw [stopsNobody, not_or] at h
  have h17 : ¬(((logged s k r).iss w).wait ≠ .fault ∧ (!bit (nth r 0 0) 17) = true) := by
    rw [Bool.not_eq_true']
    exact h.2
  have hwalk : walk (logged s k r) pt va = walk s pt va := walk_of_mem rfl pt va
  have hdef : deferredAt (logged s k r) pt va = deferredAt s pt va := deferredAt_of_mem rfl pt va
  rw [← hwalk, ← hdef, show exec .firmwareFaultDelivery s = execFirmwareFaultDelivery s from rfl, execFirmwareFaultDelivery, hf]
  unfold logged at h17
  dsimp only
  rw [if_neg h.1, if_neg h17]
  split
  · rename_i hp hw
    exact .inl ⟨hp, ⟨_, _, _, hw⟩, rfl⟩
  · rename_i hp hd hn
    exact .inr (.inl ⟨hp, fun l p pa e => hn l p pa e, by rw [show deferredAt (logged s k r) pt va = _ from hd]; rfl, rfl⟩)
  · rename_i hn1 hn2
    refine .inr (.inr ⟨?_, rfl⟩)
    cases hp : pageMissing r with
    | false => exact .inl rfl
    | true =>
      refine .inr ⟨fun l p pa e => hn1 l p pa hp e, ?_⟩
      cases hd : deferredAt (logged s k r) pt va with
      | none => rfl
      | some d => exact absurd hd (hn2 d hp)

/-- The record k is logged, and under way no more. -/
def IsLogged (t : State) (k : Nat) (r : Rec) : Prop := r ∈ t.fw.logs ∧ ∀ f ∈ t.fw.faults, f.1 ≠ k
theorem isLogged_logged (s : State) (k : Nat) (r : Rec) : IsLogged (logged s k r) k r :=
  ⟨List.mem_append_right _ (List.mem_singleton.2 rfl), fun f hf => by simpa using (List.mem_filter.1 hf).2⟩
theorem isLogged_terminateAt {u : State} (h : IsLogged u k r) (w : Iss) (cls va : Nat) (r' : Rec) :
    IsLogged (terminateAt (lossLogged u w cls va) w.cl w.co r') k r := by
  obtain ⟨l, hl⟩ := lossLogged_eq u w cls va
  have he := endsGrids_terminateAt (lossLogged u w cls va) w.cl w.co r'
  refine ⟨?_, ?_⟩
  · rw [he.logs, hl]
    exact List.mem_append_left _ h.1
  · rw [he.faults, hl]
    exact h.2
/-- Every record that firmware receives is logged (R400, R409). -/
theorem firmwareFaultDelivery_logs {ow : Option Iss} (hf : s.fw.faults.find? (fun f => f.1 == s.cur.n) = some (k, r, ow)) :
    Completes .firmwareFaultDelivery s fun t => IsLogged t k r := by
  have hlog := isLogged_logged s k r
  cases ow with
  | none => exact ⟨_, exec_firmwareFaultDelivery_logs hf (.inl rfl), hlog⟩
  | some w =>
    by_cases h : stopsNobody s w r
    · exact ⟨_, exec_firmwareFaultDelivery_passed hf h, hlog⟩
    · rcases exec_firmwareFaultDelivery_stops hf h with ⟨-, -, he⟩ | ⟨-, -, -, he⟩ | ⟨-, he⟩
      · exact ⟨_, he, hlog⟩
      · exact ⟨_, he, hlog⟩
      · exact ⟨_, he, isLogged_terminateAt hlog w _ _ r⟩
/-- A fault of another class ends the grid of the core, with its record (R152, R409). -/
theorem firmwareFaultDelivery_ends {w : Iss} (hf : s.fw.faults.find? (fun f => f.1 == s.cur.n) = some (k, r, some w))
    (h : ¬stopsNobody s w r) (hc : bits (nth r 0 0) 0 8 ≠ 0x04) {g : Nat} {gr : Grid} (hg : (s.coreOf w).grid = some g)
    (hgr : s.grid g = some gr) (h2 : gr.state = 2) : Completes .firmwareFaultDelivery s fun t =>
      (∃ x, t.grid g = some x ∧ x.state = 5 ∧ x.rstat = 10 ∧ x.sdwords = r.take 7) ∧
        (s.tick, obj g, Instr.packetRetire) ∈ t.agenda ∧ ∀ c ∈ gr.cores, AllEnded t c := by
  have hpage : pageMissing r = false := by rw [pageMissing, beq_false_of_ne hc]; rfl
  rcases exec_firmwareFaultDelivery_stops hf h with ⟨hp, -⟩ | ⟨hp, -⟩ | ⟨-, he⟩
  · rw [hpage] at hp; cases hp
  · rw [hpage] at hp; cases hp
  · refine ⟨_, he, ?_⟩
    obtain ⟨l, hl⟩ := lossLogged_eq (logged s k r) w (bits (nth r 0 0) 0 8) (bits (nth r 4 0) 0 51)
    have hcore : ((lossLogged (logged s k r) w (bits (nth r 0 0) 0 8) (bits (nth r 4 0) 0 51)).core w.cl w.co).grid = some g := by
      rw [hl]; exact hg
    have hgrid : (lossLogged (logged s k r) w (bits (nth r 0 0) 0 8) (bits (nth r 4 0) 0 51)).grid g = some gr := by
      rw [hl]; exact hgr
    have htick : (lossLogged (logged s k r) w (bits (nth r 0 0) 0 8) (bits (nth r 4 0) 0 51)).tick = s.tick := by
      rw [hl]; rfl
    obtain ⟨hx, hret, hall⟩ := terminateAt_spec hcore hgrid h2 r
    exact ⟨⟨_, hx, rfl, rfl, rfl⟩, htick ▸ hret, hall⟩
end

/-- Settles O46: what firmware does with a record, case by case, and what it makes of a deferred entry. -/
theorem firmwareTakesFaults : Obligations.FirmwareTakesFaults := by
  unfold Obligations.FirmwareTakesFaults
  intro s
  refine ⟨fun k r ow hf => ⟨firmwareFaultDelivery_logs hf, fun h => ?_, fun w hw h13 h15 hstop => ?_⟩, fun hs hwait va hva =>
    ⟨fun hd => ?_, fun lv pa p hd => ?_⟩⟩
  · exact ⟨_, exec_firmwareFaultDelivery_logs hf h, rfl, .of_fields rfl rfl rfl rfl⟩
  · subst hw
    have hn : ¬stopsNobody s w r := by
      rintro (h | ⟨h, h17⟩)
      · exact h.elim h13 h15
      · rcases hstop with h' | h'
        · exact h h'
        · rw [h17] at h'; cases h'
    refine ⟨fun l p pa hc h16 hl => ?_, fun hc h16 hd => ?_, fun hc g gr hg hgr h2 =>
      firmwareFaultDelivery_ends hf hn hc hg hgr h2⟩
    · have hpage : pageMissing r = true := by rw [pageMissing, hc, h16]; rfl
      rcases exec_firmwareFaultDelivery_stops hf hn with ⟨-, -, he⟩ | ⟨-, hw, -⟩ | ⟨hp | ⟨hw, -⟩, -⟩
      · exact ⟨_, he, reentered_run _ w, fun _ => rfl⟩
      · exact absurd hl (hw _ _ _)
      · rw [hpage] at hp; cases hp
      · exact absurd hl (hw _ _ _)
    · have hpage : pageMissing r = true := by rw [pageMissing, hc, h16]; rfl
      rcases exec_firmwareFaultDelivery_stops hf hn with ⟨-, ⟨l, p, pa, hl⟩, -⟩ | ⟨-, -, -, he⟩ | ⟨hp | ⟨-, hd'⟩, -⟩
      · rw [deferredAt_of_leaf hl] at hd; cases hd
      · exact ⟨_, he, ⟨_, State.free_le _ 4000, List.mem_append_right _ (List.mem_singleton.2 rfl)⟩, rfl⟩
      · rw [hpage] at hp; cases hp
      · rw [hd'] at hd; cases hd
  · exact ⟨_, exec_deferredEntryResolve_none hwait hva hd, reentered_run s s.cur, fun _ => rfl⟩
  · have hinv := inChip_invalidateThen (entryResolved s (s.coreOf s.cur).tenant lv pa p) none [(s.cur, .deferredEntryResolve)]
    refine ⟨_, exec_deferredEntryResolve_some hwait hva hd, ?_, ?_, ?_, fun h0 hdisj o ho => ?_⟩
    · rw [invalidateVa, (hinv _).iss, iss_entryResolved, hwait]
    · rw [invalidateVa, dword_of_mem (hinv _).mem, dword_entryResolved hs.1]
    · exact invalidateThen_next _ _ _ _
    · rw [invalidateVa, (hinv _).byte]
      exact byte_entryResolved hs.1 h0 hdisj ho
end Sys2Proof.Machine


/-! ## Page-table commands (R32, R374, R485) -/
namespace Sys2Proof.Machine

theorem rootOf_some {s : State} {t r : Nat} (h : assoc s.fw.roots t = some r) : rootOf s t = (r, s) := by
  unfold rootOf
  rw [h]
/-- One entry written, in tables that stand. -/
theorem writeEntries_one {s : State} {t r lv va pa : Nat} (hr : assoc s.fw.roots t = some r)
    (he : entryAt s r lv va 3 0 = (some pa, s)) (p : DWord) (step : Bool) :
    writeEntries s t lv va p step 1 = (true, fwStore s pa (toBytes 8 p.toNat)) := by
  simp only [writeEntries, writeEntry, rootOf_some hr, he, Bool.and_true]
/-- A command on pages that writes entries waits for its invalidation with the instruction that its code names (R32, R374). -/
theorem withPages_writes {s u : State} {c : Cmd} {k : Cmd → State → Res × Option (Nat × Nat × Nat)} {r : DWord} {t va n : Nat}
    (hc : Cmded s c) (hr : s.fw.cmdRes = none) (hk : k c s = ((r, u), some (t, va, n))) :
    withPages s k = .next (invalidateVa { u with fw := { u.fw with cmdRes := some r } } none [(u.cur, cmdInstr c.code)] t va n) := by
  unfold withPages
  simp only [hc.1, hr, hc.2, hk]
theorem invalidateVa_invs (s : State) (w : Option Iss) (next : List (Iss × Instr)) (t va n : Nat) :
    (invalidateVa s w next t va n).chip.invs = s.chip.invs ++ [⟨s.chip.ids, s.chip.walks.map (·.id), w, next⟩] := by
  obtain ⟨a, h⟩ := invalidateThen_eq s w next fun e =>
    e.tenant == t && decide (e.vpn * 2 ^ (if e.whole then levelShift e.level else 15) < va + n) &&
      decide (va < (e.vpn + 1) * 2 ^ (if e.whole then levelShift e.level else 15))
  exact congrArg (·.chip.invs) h
theorem fwStore_eq {bs : List Byte} (hl : bs.length < 4096) (s : State) (pa : Nat) :
    ∃ m, fwStore s pa bs = { s.setBytes (keyHbm pa) bs with stamps := m } :=
  fwWrote_eq hl _ _

/-! ### What refutes O50 -/

/-- Firmware performs PTUNMAP of one entry of tenant 0, whose root table stands at 0, for a command whose code, 0, names no
command. -/
def miscodedCmd : Cmd := ⟨.mbox 0, 0, [0, 1, 0, 0]⟩
def miscodedState : State := { cur := obj 0, fw := { cmds := [(0, miscodedCmd)], boot := 6, roots := [(0, 0)] } }

theorem miscoded_cmded : Cmded miscodedState miscodedCmd := ⟨rfl, rfl⟩
/-- The state after the one entry of address 0 has been written, with the result set aside. -/
def miscodedWritten : State :=
  let u := fwStore miscodedState 0 (toBytes 8 0)
  { u with fw := { u.fw with cmdRes := some (resW 0 0 0) } }
theorem exec_ptunmap_miscoded : exec .ptunmap miscodedState =
    .next (invalidateVa miscodedWritten none [(miscodedWritten.cur, .unknownCommand)]
      (cmdTenant miscodedWritten miscodedCmd) 0 (2 ^ 39)) := by
  have hwrite : writeEntries miscodedState (cmdTenant miscodedState miscodedCmd) 0 0 0 false 1 =
      (true, fwStore miscodedState 0 (toBytes 8 0)) := writeEntries_one rfl rfl 0 false
  change execPtunmap miscodedState = _
  unfold execPtunmap
  refine withPages_writes (c := miscodedCmd) (u := fwStore miscodedState 0 (toBytes 8 0)) (r := resW 0 0 0)
    miscoded_cmded rfl ?_
  change (if _ then _ else if _ then _ else _) = _
  rw [if_neg (by decide), if_neg (by decide)]
  exact congrArg (fun p : Bool × State =>
    (if p.1 then doneCmd p.2 else refuseCmd p.2 2, some (cmdTenant p.2 miscodedCmd, 0, 1 * 2 ^ 39))) hwrite
/-- The invalidation lets go on the command that the code names, and not PTUNMAP. -/
theorem miscoded_invs {t : State} (h : exec .ptunmap miscodedState = .next t) :
    ∀ v ∈ t.chip.invs, v.next = [(obj 0, .unknownCommand)] := by
  cases h.symm.trans exec_ptunmap_miscoded
  obtain ⟨m, hm⟩ := fwStore_eq (bs := toBytes 8 0) (by decide) miscodedState 0
  rw [invalidateVa_invs, miscodedWritten, hm]
  intro v hv
  rw [List.mem_singleton.1 hv]
  rfl

/-- Refutes O50: the invalidation of what a page command wrote lets go on the instruction that the command's code names (R374),
and `Cmded` leaves the code free. PTUNMAP performed for a command with code 0 waits with UNKNOWN_COMMAND. -/
theorem not_gridSlotAndPageCommands : ¬ Obligations.GridSlotAndPageCommands := by
  unfold Obligations.GridSlotAndPageCommands
  intro h
  obtain ⟨-, -, -, -, -, hpages, -⟩ := h miscodedState miscodedCmd miscoded_cmded
  obtain ⟨-, hunmap⟩ := hpages 0 0 0 rfl (Nat.zero_le 2) rfl (by decide) rfl rfl ⟨rfl, rfl⟩ rfl
  obtain ⟨t, ht, -, ⟨v, hv, hnext⟩, -⟩ := hunmap rfl rfl
  have hcode := miscoded_invs ht v hv
  rw [hnext] at hcode
  exact absurd hcode (by decide)

end Sys2Proof.Machine


/-! ### What engines and the chip's shared units do: no issuer is touched (R52, R54, R58, R406) -/
namespace Sys2Proof.Machine

/-- What engines, the chip's shared units and a debugger do: every byte, register and issuer stays. -/
structure InEngines (s t : State) : Prop where
  tick : t.tick = s.tick
  mem : t.mem = s.mem
  stamps : t.stamps = s.stamps
  chip : t.chip.regs = s.chip.regs
  clusters : ∀ cl, (t.chip.cluster cl).regs = (s.chip.cluster cl).regs
  issuers : ∀ cl co, (t.core cl co).issuers = (s.core cl co).issuers
  regs : ∀ cl co, (t.core cl co).regs = (s.core cl co).regs

theorem InEngines.refl (s : State) : InEngines s s := ⟨rfl, rfl, rfl, rfl, fun _ => rfl, fun _ _ => rfl, fun _ _ => rfl⟩
theorem InEngines.trans {s t u : State} (h : InEngines s t) (k : InEngines t u) : InEngines s u :=
  ⟨k.tick.trans h.tick, k.mem.trans h.mem, k.stamps.trans h.stamps, k.chip.trans h.chip,
    fun cl => (k.clusters cl).trans (h.clusters cl), fun cl co => (k.issuers cl co).trans (h.issuers cl co),
    fun cl co => (k.regs cl co).trans (h.regs cl co)⟩
theorem InChip.inEngines {s t : State} (h : InChip s t) (ht : t.tick = s.tick) : InEngines s t :=
  ⟨ht, h.mem, h.stamps, h.chip, h.clusters, fun cl co => by rw [h.core], fun cl co => by rw [h.core]⟩
theorem InEngines.iss {s t : State} (h : InEngines s t) (w : Iss) : t.iss w = s.iss w := by
  rw [State.iss, Core.iss, h.issuers, ← Core.iss, ← State.iss]
theorem InEngines.lean {s t : State} (h : InEngines s t) (w : Iss) : (t.coreOf w).lean = (s.coreOf w).lean :=
  show (t.coreOf w).regs.lean = (s.coreOf w).regs.lean from congrArg Core.lean (h.regs w.cl w.co)
theorem InEngines.keepsRegs {s t : State} (h : InEngines s t) (w : Iss) : KeepsRegs s t w where
  same := {
    bytes := fun k => by rw [State.byte, h.mem, State.byte]
    stamps := h.stamps
    chip := h.chip
    clusters := h.clusters
    cores := h.regs
    others := fun v _ => by rw [h.iss]
    own := by rw [h.iss]; rfl }
  mem := h.mem
  pend := by rw [h.iss]
  pcs := by rw [h.iss]

theorem inEngines_updCore (s : State) (cl co : Nat) {f : Core → Core} (hk : KeepsKey f) (hi : ∀ c, (f c).issuers = c.issuers)
    (hr : ∀ c, (f c).regs = c.regs) : InEngines s (s.updCore cl co f) := by
  refine ⟨rfl, rfl, rfl, rfl, fun _ => rfl, fun cl' co' => ?_, fun cl' co' => ?_⟩
  · rw [core_updCore _ _ _ _ _ _ hk]
    split
    · rename_i h; rw [hi, h.1, h.2]
    · rfl
  · rw [core_updCore _ _ _ _ _ _ hk]
    split
    · rename_i h; rw [hr, h.1, h.2]
    · rfl
/-- What the chip's shared units and a debugger do within a tick: every core stays too. -/
structure InUnits (s t : State) : Prop where
  inChip : InChip s t
  tick : t.tick = s.tick
theorem InUnits.refl (s : State) : InUnits s s := ⟨.refl s, rfl⟩
theorem InUnits.trans {s t u : State} (h : InUnits s t) (k : InUnits t u) : InUnits s u :=
  ⟨h.inChip.trans k.inChip, k.tick.trans h.tick⟩
theorem InUnits.foldl {α : Type} {f : State → α → State} (h : ∀ s a, InUnits s (f s a)) (l : List α) (s : State) :
    InUnits s (l.foldl f s) := by
  induction l generalizing s with
  | nil => exact .refl s
  | cons a l ih => exact (h s a).trans (ih _)
theorem InUnits.inEngines {s t : State} (h : InUnits s t) : InEngines s t := h.inChip.inEngines h.tick
theorem InUnits.of_chip {s t : State} (hm : t.mem = s.mem) (hs : t.stamps = s.stamps) (hc : t.cores = s.cores)
    (ht : t.tick = s.tick) (hr : t.chip.regs = s.chip.regs) (hl : t.chip.clusters = s.chip.clusters) : InUnits s t :=
  ⟨⟨hm, hs, hc, hr, fun cl => by simp only [Chip.cluster, hl]⟩, ht⟩
theorem inUnits_updCluster (s : State) (cl : Nat) {f : Cluster → Cluster} (hk : ∀ c, (f c).cl = c.cl)
    (hr : ∀ c, (f c).regs = c.regs) : InUnits s (s.updCluster cl f) := by
  refine ⟨⟨rfl, rfl, rfl, rfl, fun cl' => ?_⟩, rfl⟩
  rw [cluster_updCluster _ _ _ _ hk]
  split
  · rename_i h; rw [hr, h]
  · rfl

theorem inUnits_watchFire (s : State) (r : Nat) (w : Iss) (kind n task rnum pc : Nat) (va data : DWord) :
    InUnits s (watchFire s r w kind n task rnum pc va data) := .of_chip rfl rfl rfl rfl rfl rfl
theorem inUnits_watchEngine (s : State) (h : Held) (w : Iss) (rd : Bool) (task : Nat) (va : DWord) (n : Nat) (data : DWord) :
    InUnits s (watchEngine s h w rd task va n data) := by
  unfold watchEngine
  split
  · exact .refl s
  · refine InUnits.foldl (f := fun s r => watchFire
      { s with dbg := { s.dbg with fired := s.dbg.fired ++ [(r, w, task)] } } r w 2 n task h.rnum h.pc va data) (fun s r => ?_) _ _
    exact .of_chip rfl rfl rfl rfl rfl rfl
theorem inUnits_domPublish (s : State) (w : Iss) : InUnits s (domPublish s w) := by
  unfold domPublish
  split
  · exact .refl s
  · exact inUnits_updCluster s w.cl (fun _ => rfl) fun _ => rfl
theorem inUnits_sendSector (s : State) (q : Req) (sec : Nat) : InUnits s (sendSector s q sec) := by
  refine ⟨(unmoved_sendSector s q sec).inChip, ?_⟩
  unfold sendSector
  split <;> rfl

/-! Translation starts a walk or joins one, and does nothing else (R28 to R30). -/

/-- The shared units at work, and no access more in flight. -/
def InWalks (s t : State) : Prop := InUnits s t ∧ t.chip.reqs = s.chip.reqs
theorem InWalks.refl (s : State) : InWalks s s := ⟨.refl s, rfl⟩
theorem InWalks.trans {s t u : State} (h : InWalks s t) (k : InWalks t u) : InWalks s u := ⟨h.1.trans k.1, k.2.trans h.2⟩
theorem inWalks_startWalk (s : State) (cl key : Nat) (e : TlbE) (shared : Bool) : InWalks s (startWalk s cl key e shared) :=
  ⟨.of_chip rfl rfl rfl rfl rfl rfl, rfl⟩
theorem inWalks_lookupTlb (s : State) (cl : Nat) (pt : DWord) (va : Nat) (a : Acc) : InWalks s (lookupTlb s cl pt va a).2 := by
  unfold lookupTlb
  dsimp only
  split
  · exact .refl s
  · split
    · exact ⟨.of_chip rfl rfl rfl rfl rfl rfl, rfl⟩
    · split
      · exact inWalks_startWalk s cl _ _ _
      · split
        · exact .refl s
        · exact .refl s
        · split
          · exact .refl s
          · exact inWalks_startWalk s cl _ _ _
theorem inWalks_translate (s : State) (cl : Nat) (pt : DWord) (a : Acc) (ad : DWord) : InWalks s (translate s cl pt a ad).2 := by
  have hlookup := inWalks_lookupTlb s cl pt (bits ad 0 51) a
  unfold translate
  dsimp only
  split
  · exact .refl s
  · split
    · split <;> exact .refl s
    · split
      · exact .refl s
      · split
        · rename_i h; rw [h] at hlookup; exact hlookup
        · rename_i h
          rw [h] at hlookup
          split <;> exact hlookup
theorem inWalks_transLanes (cl : Nat) (pt : DWord) (a : Acc) (l : List (Nat × DWord)) (s : State) :
    InWalks s (transLanes s cl pt a l).2 := by
  induction l generalizing s with
  | nil => exact .refl s
  | cons x l ih =>
    have hx := inWalks_translate s cl pt a x.2
    rw [transLanes]
    split
    · rename_i h; rw [h] at hx; exact hx
    · rename_i h
      rw [h] at hx
      have hl := hx.trans (ih _)
      split
      · rename_i h'; rw [h'] at hl; exact hl
      · rename_i h'; rw [h'] at hl; exact hl

/-! A fill carries poison along (R27): its translation meets no fault of class 8. -/

/-- A class that stops the issuer and rolls nothing back outside lean mode (R33, R45). -/
def Stops (i : TrapInfo) : Prop := i.cls % 256 ≠ 8
theorem stops_targetChecks {s : State} {tenant va space : Nat} {a : Acc} {e : TlbE} {i : TrapInfo}
    (h : targetChecks s tenant va space a e = .error i) : Stops i := by
  unfold targetChecks at h
  dsimp only at h
  split at h
  · cases h; exact Nat.ne_of_beq_eq_false rfl
  · split at h
    · cases h; exact Nat.ne_of_beq_eq_false rfl
    · split at h
      · cases h; exact Nat.ne_of_beq_eq_false rfl
      · split at h
        · cases h; exact Nat.ne_of_beq_eq_false rfl
        · split at h
          · cases h; exact Nat.ne_of_beq_eq_false rfl
          · split at h
            · cases h; exact Nat.ne_of_beq_eq_false rfl
            · cases h
theorem stops_leafChecks_fill {s : State} {tenant va space : Nat} {e : TlbE} {i : TrapInfo}
    (h : leafChecks s tenant va space .fill e = .error i) : Stops i := by
  unfold leafChecks at h
  split at h
  · rename_i ht; cases h; exact stops_targetChecks ht
  · rw [if_neg (by simp)] at h; cases h
theorem stops_lookupTlb {s : State} {cl : Nat} {pt : DWord} {va : Nat} {a : Acc} {i : TrapInfo}
    (h : (lookupTlb s cl pt va a).1 = .error i) : Stops i := by
  unfold lookupTlb at h
  dsimp only at h
  split at h
  · cases h
  · split at h
    · cases h
    · split at h
      · cases h
      · split at h
        · cases h; exact Nat.ne_of_beq_eq_false rfl
        · cases h; exact Nat.ne_of_beq_eq_false rfl
        · split at h
          · cases h; exact Nat.ne_of_beq_eq_false rfl
          · cases h
theorem stops_translate_fill {s : State} {cl : Nat} {pt : DWord} {ad : DWord} {i : TrapInfo}
    (h : (translate s cl pt .fill ad).1 = .error i) : Stops i := by
  unfold translate at h
  dsimp only at h
  split at h
  · cases h; exact Nat.ne_of_beq_eq_false rfl
  · split at h
    · split at h
      · cases h
      · cases h; exact Nat.ne_of_beq_eq_false rfl
    · split at h
      · cases h; exact Nat.ne_of_beq_eq_false rfl
      · split at h
        · rename_i hl; cases h; exact (stops_lookupTlb (congrArg (·.1) hl) :)
        · split at h
          · rename_i hl; cases h; exact (stops_leafChecks_fill hl :)
          · cases h



/-! An access starts: it is in flight, and its sectors are on their way (R58, R76). -/

/-- The same access, but for what its start notes of it. -/
def SameAccess (p q : Req) : Prop :=
  p.kind = q.kind ∧ p.w = q.w ∧ p.h = q.h ∧ p.space = q.space ∧ p.bound = q.bound ∧ p.lanes = q.lanes
theorem reqs_domPublish (s : State) (w : Iss) : (domPublish s w).chip.reqs = s.chip.reqs := by
  unfold domPublish
  split <;> rfl
theorem startReqAt_spec (s : State) (q : Req) (vas : List DWord) :
    InUnits s (startReqAt s q vas) ∧ ∃ p, (startReqAt s q vas).chip.reqs = s.chip.reqs ++ [p] ∧ SameAccess p q := by
  unfold startReqAt
  extract_lets ws fabric
  obtain ⟨bad, s1, hs, hin, hreqs⟩ : ∃ bad s1, (if checkCoded q.kind then landCheck s else (false, s)) = (bad, s1) ∧
      InUnits s s1 ∧ s1.chip = s.chip := by
    split
    · exact ⟨_, _, rfl, .of_chip rfl rfl rfl rfl rfl rfl, rfl⟩
    · exact ⟨_, _, rfl, .refl s, rfl⟩
  rw [hs]
  dsimp -zeta only
  extract_lets me p s2
  have hadd : InUnits s1 (s1.updChip fun h => { h with reqs := h.reqs ++ [p] }) := 
    .of_chip rfl rfl rfl rfl rfl rfl
  have hs2 : InUnits s s2 := (hin.trans hadd).trans (inUnits_domPublish _ _)
  have hreqs2 : s2.chip.reqs = s.chip.reqs ++ [p] := (reqs_domPublish _ _).trans (congrArg (fun h : Chip => h.reqs ++ [p]) hreqs)
  have hp : SameAccess p q := ⟨rfl, rfl, rfl, rfl, rfl, rfl⟩
  split
  · have hsend := Unmoved.foldl (fun s sec => unmoved_sendSector s p sec) p.sectors s2
    exact ⟨hs2.trans (InUnits.foldl (fun s sec => inUnits_sendSector s p sec) _ _), p,
      (congrArg (·.reqs) hsend.chip).trans hreqs2, hp⟩
  · exact ⟨hs2, p, hreqs2, hp⟩

end Sys2Proof.Machine

/-! ### A fault of a home fill (R33, R406) -/
namespace Sys2Proof.Machine

/-- No window and no mode of a core changes. -/
def KeepsWindows (s t : State) : Prop :=
  ∀ cl co, (t.core cl co).wins = (s.core cl co).wins ∧ (t.core cl co).modew = (s.core cl co).modew
theorem KeepsWindows.of_cores {s t : State} (h : t.cores = s.cores) : KeepsWindows s t := fun cl co => by
  rw [State.core, h, ← State.core]
  exact ⟨rfl, rfl⟩
theorem InUnits.keepsWindows {s t : State} (h : InUnits s t) : KeepsWindows s t := .of_cores h.inChip.cores
theorem KeepsWindows.trans {s t u : State} (h : KeepsWindows s t) (k : KeepsWindows t u) : KeepsWindows s u :=
  fun cl co => ⟨(k cl co).1.trans (h cl co).1, (k cl co).2.trans (h cl co).2⟩
theorem keepsWindows_updCore (s : State) (cl co : Nat) {f : Core → Core} (hk : KeepsKey f) (hw : ∀ c, (f c).wins = c.wins)
    (hm : ∀ c, (f c).modew = c.modew) : KeepsWindows s (s.updCore cl co f) := fun cl' co' => by
  rw [core_updCore _ _ _ _ _ _ hk]
  split
  · rename_i h; rw [hw, hm, h.1, h.2]; exact ⟨rfl, rfl⟩
  · exact ⟨rfl, rfl⟩
theorem keepsWindows_updIss (s : State) (w : Iss) (f : Issuer → Issuer) : KeepsWindows s (s.updIss w f) :=
  keepsWindows_updCore s w.cl w.co (keeps_setIss _) (fun _ => rfl) fun _ => rfl

theorem keepsWindows_updIss_of {s u : State} (h : u.cores = s.cores) (w : Iss) (f : Issuer → Issuer) :
    KeepsWindows s (u.updIss w f) :=
  (KeepsWindows.of_cores h).trans (keepsWindows_updIss u w f)
theorem keepsWindows_sched (s : State) (t : Nat) (o : Iss) (i : Instr) : KeepsWindows s (s.sched t o i) := .of_cores rfl

theorem keepsWindows_discardAll (s : State) (w : Iss) (adv : Bool) : KeepsWindows s (discardAll s w adv) := by
  unfold discardAll discardFrom
  dsimp only
  split
  · exact .of_cores rfl
  · split
    · refine KeepsWindows.trans ?_ (keepsWindows_updCore _ _ _ (fun _ => ⟨rfl, rfl⟩) (fun _ => rfl) fun _ => rfl)
      exact keepsWindows_updIss_of (count_cores _ _ _ _) _ _
    · exact keepsWindows_updIss_of (count_cores _ _ _ _) _ _
theorem keepsWindows_toFirmware (s : State) (r : Rec) (w : Option Iss) : KeepsWindows s (toFirmware s r w) := .of_cores rfl
theorem keepsWindows_deliver (s : State) (w : Iss) (r : Rec) (at_ : Nat) (sel ret : List Nat) :
    KeepsWindows s (deliver s w r at_ sel ret) := by
  unfold deliver
  dsimp only
  have h := keepsWindows_updIss s w fun me => { me with wait := .fault }
  split
  · split
    · exact h.trans ((keepsWindows_updIss _ _ _).trans (keepsWindows_sched _ _ _ _))
    · exact h.trans ((keepsWindows_discardAll _ _ _).trans (keepsWindows_toFirmware _ _ _))
  · exact h.trans (keepsWindows_toFirmware _ _ _)

/-- No region of an issuer is left once all are discarded (R186). -/
theorem regions_discardAll (s : State) (w : Iss) (adv : Bool) : ((discardAll s w adv).iss w).regions = [] := by
  unfold discardAll discardFrom
  dsimp only
  split
  · rename_i h; simpa using h
  · split
    · rw [iss_updCore_rot, iss_updIss _ _ _ (state_iss_slot _ w)]
      · rfl
      · exact fun _ => ⟨rfl, rfl⟩
      · exact fun _ => rfl
    · rw [iss_updIss _ _ _ (state_iss_slot _ w)]
      rfl
theorem discardAll_of_none {s : State} {w : Iss} (h : (s.iss w).regions = []) (adv : Bool) : discardAll s w adv = s := by
  unfold discardAll discardFrom
  dsimp only
  rw [h]
  rfl

theorem iss_sched (s : State) (t : Nat) (o w : Iss) (i : Instr) : (s.sched t o i).iss w = s.iss w := rfl
/-- A delivery leaves the issuer stopped, when its regions are gone (R409). -/
theorem deliver_stops {s : State} {w : Iss} (h : (s.iss w).regions = []) (r : Rec) (at_ : Nat) (sel ret : List Nat) :
    ((deliver s w r at_ sel ret).iss w).wait = .fault := by
  have hiss : (s.updIss w fun me => { me with wait := .fault }).iss w = { s.iss w with wait := .fault } :=
    iss_updIss _ _ _ (state_iss_slot s w)
  unfold deliver
  dsimp only
  split
  · split
    · rw [iss_sched, iss_updIss _ _ _ (state_iss_slot _ w), hiss]
    · rw [discardAll_of_none (by rw [hiss]; exact h)]
      exact congrArg (·.wait) hiss
  · exact congrArg (·.wait) hiss
theorem mkRec_cls (w : Iss) (pc itick rnum dtick dpc : Nat) (i : TrapInfo) :
    bits (nth (mkRec w pc itick rnum dtick dpc i) 0 0) 0 8 = i.cls % 256 := by
  have hmod : ∀ a b c d e f : Nat,
      (i.cls + a * 2 ^ 8 + b * 2 ^ 16 + c * 2 ^ 17 + d * 2 ^ 18 + e * 2 ^ 19 + w.n * 2 ^ 26 + f * 2 ^ 32) % 2 ^ 64 % 2 ^ 8 =
        i.cls % 256 := by omega
  rw [mkRec]
  change bits (BitVec.ofNat 64 _) 0 8 = _
  rw [bits, BitVec.toNat_ofNat, Nat.pow_zero, Nat.div_one]
  exact hmod _ _ _ _ _ _
/-- Outside lean mode a fault of a home fill stops the issuer that has touched the window, and no window changes (R406). -/
theorem raiseLate_stops {s : State} {w : Iss} (hl : (s.coreOf w).lean = false) {i : TrapInfo} (hi : Stops i) (pc itick rnum : Nat) :
    KeepsWindows s (raiseLate s w pc itick rnum i) ∧ ((raiseLate s w pc itick rnum i).iss w).wait = .fault := by
  unfold raiseLate takeFault
  dsimp only
  rw [mkRec_cls, if_neg hi, hl, Bool.false_and, Bool.false_and, if_neg Bool.false_ne_true, if_neg Bool.false_ne_true]
  exact ⟨(keepsWindows_discardAll _ _ _).trans (keepsWindows_deliver _ _ _ _ _ _),
    deliver_stops (regions_discardAll _ _ _) _ _ _ _⟩

end Sys2Proof.Machine


/-! ### Touches and home fills (R52, R54, R406) -/
namespace Sys2Proof.Machine

/-- What a touch by issuer w of a core outside lean mode does: engines are at work, or w has been stopped (R406). -/
structure Filled (w : Iss) (s t : State) : Prop where
  lean : (t.coreOf w).lean = (s.coreOf w).lean
  frame : InEngines s t ∨ (t.iss w).wait = .fault

theorem InEngines.filled {s t : State} (h : InEngines s t) (w : Iss) : Filled w s t := ⟨h.lean w, .inl h⟩
theorem Filled.trans {w : Iss} {s t u : State} (h : Filled w s t) (k : Filled w t u) : Filled w s u := by
  refine ⟨k.lean.trans h.lean, ?_⟩
  rcases k.frame with hk | hk
  · rcases h.frame with hh | hh
    · exact .inl (hh.trans hk)
    · exact .inr (by rw [hk.iss]; exact hh)
  · exact .inr hk

/-! The window whose home is filled, and who has touched it. -/

theorem assoc_assocSet_same {α : Type} (l : List (Nat × α)) (k : Nat) (v : α) : assoc (assocSet l k v) k = some v := by
  induction l with
  | nil => simp [assocSet, assoc]
  | cons e l ih =>
    rw [assocSet]
    split
    · simp [assoc]
    · rename_i h
      simp [assoc, h, ih]
theorem win_setWin (c : Core) (n : Nat) (e : Win) : (c.setWin n e).win n = e :=
  congrArg (·.getD {}) (assoc_assocSet_same c.wins n e)
theorem inEngines_setWinState (s : State) (cl co n : Nat) (f : Win → Win) : InEngines s (setWinState s cl co n f) :=
  inEngines_updCore s cl co (fun _ => ⟨rfl, rfl⟩) (fun _ => rfl) fun _ => rfl
theorem toucher_setWinState (s : State) (cl co n : Nat) (f : Win → Win) :
    ((setWinState s cl co n f).win cl co n).toucher = (f (s.win cl co n)).toucher := by
  rw [State.win, setWinState, core_updCore, if_pos ⟨rfl, rfl⟩]
  · dsimp only
    rw [win_setWin]
    split <;> rfl
  · exact fun _ => ⟨rfl, rfl⟩
theorem KeepsWindows.win {s t : State} (h : KeepsWindows s t) (cl co n : Nat) : t.win cl co n = s.win cl co n := by
  rw [State.win, Core.win, (h cl co).1, ← Core.win, ← State.win]
theorem KeepsWindows.lean {s t : State} (h : KeepsWindows s t) (w : Iss) : (t.coreOf w).lean = (s.coreOf w).lean :=
  congrArg (bit · 1) (h w.cl w.co).2

/-- The fills of a window dropped. -/
def dropFills (s : State) (cl co n : Nat) : State := s.updCore cl co fun c => { c with fills := c.fills.filter fun f => f.win != n }
theorem inEngines_dropFills (s : State) (cl co n : Nat) : InEngines s (dropFills s cl co n) :=
  inEngines_updCore s cl co (fun _ => ⟨rfl, rfl⟩) (fun _ => rfl) fun _ => rfl
theorem keepsWindows_dropFills (s : State) (cl co n : Nat) : KeepsWindows s (dropFills s cl co n) :=
  keepsWindows_updCore s cl co (fun _ => ⟨rfl, rfl⟩) (fun _ => rfl) fun _ => rfl

/-- Issuer w has touched window n, in region rn and at pc. -/
def TouchedBy (w : Iss) (cl co n : Nat) (s : State) : Prop := ∃ rn pc, (s.win cl co n).toucher = some (w, rn, pc)
theorem KeepsWindows.touchedBy {w : Iss} {cl co n : Nat} {s t : State} (h : KeepsWindows s t) (k : TouchedBy w cl co n s) :
    TouchedBy w cl co n t := by rw [TouchedBy, h.win]; exact k
theorem touchedBy_setWinState {w : Iss} {cl co n : Nat} {s : State} {f : Win → Win} (h : TouchedBy w cl co n s)
    (hf : ∀ e, (f e).toucher = e.toucher) : TouchedBy w cl co n (setWinState s cl co n f) := by
  rw [TouchedBy, toucher_setWinState, hf]; exact h

theorem fillFault_spec {w : Iss} {cl co n : Nat} {s : State} (hl : (s.coreOf w).lean = false) (ht : TouchedBy w cl co n s)
    (itick : Nat) {i : TrapInfo} (hi : Stops i) :
    Filled w s (fillFault s cl co n itick i) ∧ TouchedBy w cl co n (fillFault s cl co n itick i) := by
  obtain ⟨rn, pc, hwin⟩ := id ht
  unfold fillFault
  rw [hwin]
  dsimp only
  split
  · have hin := (inEngines_setWinState s cl co n Win.resetFill).trans (inEngines_dropFills _ cl co n)
    obtain ⟨hkeep, hfault⟩ := raiseLate_stops ((hin.lean w).trans hl) hi pc itick rn
    exact ⟨⟨(hkeep.lean w).trans (hin.lean w), .inr hfault⟩,
      hkeep.touchedBy ((keepsWindows_dropFills _ cl co n).touchedBy (touchedBy_setWinState ht fun _ => rfl))⟩
  · have hin (e : Win → Win) := (inEngines_setWinState s cl co n e).trans (inEngines_dropFills _ cl co n)
    have hkick (u : State) : InEngines u (kickStreams (kickEngines u cl co) cl co) :=
      ⟨rfl, rfl, rfl, rfl, fun _ => rfl, fun _ _ => rfl, fun _ _ => rfl⟩
    have hsame (u : State) : KeepsWindows u (kickStreams (kickEngines u cl co) cl co) := .of_cores rfl
    exact ⟨((hin _).trans (hkick _)).filled w,
      (hsame _).touchedBy ((keepsWindows_dropFills _ cl co n).touchedBy (touchedBy_setWinState ht fun _ => rfl))⟩

theorem InUnits.filling {w : Iss} {cl co n : Nat} {s t : State} (h : InUnits s t) (k : TouchedBy w cl co n s) :
    Filled w s t ∧ TouchedBy w cl co n t := ⟨h.inEngines.filled w, h.keepsWindows.touchedBy k⟩
/-- A fault met after work of the chip's units. -/
theorem InUnits.fillFault {w : Iss} {cl co n : Nat} {s t : State} (h : InUnits s t) (hl : (s.coreOf w).lean = false)
    (ht : TouchedBy w cl co n s) (itick : Nat) {i : TrapInfo} (hi : Stops i) :
    Filled w s (fillFault t cl co n itick i) ∧ TouchedBy w cl co n (fillFault t cl co n itick i) := by
  obtain ⟨hf, hk⟩ := fillFault_spec ((h.inEngines.lean w).trans hl) (h.keepsWindows.touchedBy ht) itick hi
  exact ⟨(h.inEngines.filled w).trans hf, hk⟩

theorem fillSector_spec {w : Iss} {cl co n : Nat} {s : State} (hl : (s.coreOf w).lean = false) (ht : TouchedBy w cl co n s)
    (x : Xfer) (k : Nat) :
    Filled w s (fillSector s cl co n x k) ∧ TouchedBy w cl co n (fillSector s cl co n x k) := by
  unfold fillSector
  extract_lets e c h v
  obtain ⟨addr, off⟩ := e.sector k
  dsimp -zeta only
  extract_lets sp p land mk
  have hpool : Stops { cls := 3, sub := 7, addr := addr } := Nat.ne_of_beq_eq_false rfl
  split
  · split
    · split
      · exact InUnits.filling (.of_chip rfl rfl rfl rfl rfl rfl) ht
      · exact (InUnits.refl s).fillFault hl ht _ hpool
    · exact (InUnits.refl s).fillFault hl ht _ hpool
  · have hwalk : InUnits s (translate (watchEngine s h v true (taskOf 4 n e.seq) addr 64 0) cl c.ptw .fill addr).2 :=
      (inUnits_watchEngine s h v true (taskOf 4 n e.seq) addr 64 0).trans (inWalks_translate _ _ _ _ _).1
    split
    · rename_i pa pte u heq
      have hu : InUnits s u := by rw [heq] at hwalk; exact hwalk
      extract_lets u2
      have hfresh : InUnits u u.fresh.2 := .of_chip rfl rfl rfl rfl rfl rfl
      have hstart : InUnits s u2 := (hu.trans hfresh).trans (startReqAt_spec u.fresh.2 _ _).1
      split
      · refine InUnits.filling (hstart.trans ?_) ht
        exact .of_chip rfl rfl rfl rfl rfl rfl
      · exact hstart.filling ht
    · rename_i i u heq
      rw [heq] at hwalk
      exact hwalk.fillFault hl ht _ (stops_translate_fill (congrArg (·.1) heq))

/-- The sectors of a fill in turn, while it goes on. -/
theorem fillSectors_spec {w : Iss} {cl co n : Nat} {s : State} (hl : (s.coreOf w).lean = false) (ht : TouchedBy w cl co n s)
    (x : Xfer) (l : List Nat) :
    let t := l.foldl (fun s k =>
      if (s.win cl co n).state = .filling ∧ (s.win cl co n).hfs then fillSector s cl co n x k else s) s
    Filled w s t ∧ TouchedBy w cl co n t := by
  induction l generalizing s with
  | nil => exact ⟨(InEngines.refl s).filled w, ht⟩
  | cons k l ih =>
    rw [List.foldl_cons]
    split
    · obtain ⟨hf, hk⟩ := fillSector_spec hl ht x k
      obtain ⟨hf', hk'⟩ := ih (hf.lean.trans hl) hk
      exact ⟨hf.trans hf', hk'⟩
    · exact ih hl ht
theorem startFill_spec {v : Iss} {n : Nat} {s : State} {w : Iss} (hl : (s.coreOf w).lean = false) (h : Held) :
    Filled w s (startFill s v n (some (w, h))) := by
  unfold startFill
  extract_lets e total x s1 s2
  have hset : InEngines s s1 := inEngines_setWinState s v.cl v.co n _
  have hfill : InEngines s1 s2 := inEngines_updCore s1 v.cl v.co (fun _ => ⟨rfl, rfl⟩) (fun _ => rfl) fun _ => rfl
  have htouched : TouchedBy w v.cl v.co n s1 := ⟨h.rnum, h.pc, toucher_setWinState s v.cl v.co n _⟩
  have hkeep : KeepsWindows s1 s2 := keepsWindows_updCore s1 v.cl v.co (fun _ => ⟨rfl, rfl⟩) (fun _ => rfl) fun _ => rfl
  have hin : InEngines s s2 := hset.trans hfill
  refine ((hin.filled w).trans ?_)
  exact (fillSectors_spec ((hin.lean w).trans hl) (hkeep.touchedBy htouched) x _).1
/-- A touch by an issuer outside lean mode (R52). -/
theorem touch_spec {v : Iss} {n : Nat} {s : State} {w : Iss} (hl : (s.coreOf w).lean = false) (h : Held) :
    Filled w s (touch s v n (some (w, h))) := by
  unfold touch
  dsimp only
  split
  · exact startFill_spec hl h
  · split
    · exact (InEngines.refl s).filled w
    · exact startFill_spec hl h
  · split
    · exact (InEngines.refl s).filled w
    · have hclear := inEngines_setWinState s v.cl v.co n fun e => { e with prods := e.prods.map fun p => { p with count := 0 } }
      exact (hclear.filled w).trans (startFill_spec ((hclear.lean w).trans hl) h)
  · exact (InEngines.refl s).filled w
theorem touchAll_spec {x : Ctx} {s : State} (hl : (s.coreOf x.w).lean = false) (i : Instr) (ks : List (Nat × Nat)) :
    Filled x.w s (touchAll x i s ks) := by
  unfold touchAll
  induction ks generalizing s with
  | nil => exact (InEngines.refl s).filled x.w
  | cons k ks ih =>
    rw [List.foldl_cons]
    split
    · have hk : Filled x.w s (touch s ⟨x.w.cl, k.1, x.w.n⟩ k.2 (x.toucher i k.2)) := touch_spec hl _
      exact hk.trans (ih (hk.lean.trans hl))
    · exact ih hl
/-- Touches that have not stopped an issuer that runs leave every issuer as it was (R406). -/
theorem inEngines_touchAll {s : State} {m : Mods} (hl : ((s.ctx m).c).lean = false) (hw : (s.ctx m).me.wait = .run) {i : Instr}
    {ks : List (Nat × Nat)} (hs : (s.ctx m).stands (touchAll (s.ctx m) i s ks) = true) :
    InEngines s (touchAll (s.ctx m) i s ks) := by
  rcases (touchAll_spec (x := s.ctx m) hl i ks).frame with h | h
  · exact h
  · have hwait : ((touchAll (s.ctx m) i s ks).iss s.cur).wait = .run := by
      have := (Bool.and_eq_true_iff.1 hs).1
      exact (eq_of_beq this).trans hw
    exact Wait.noConfusion (hwait.symm.trans h)

end Sys2Proof.Machine


/-! ### Loads that read the scratchpads: the steps between the touch and the instruction's end (R40, R41, R46, R119, R180) -/
namespace Sys2Proof.Machine

/-- Of issuer w's registers only what f says changes; its results in flight, PCs and region, memory and the tick stay. -/
structure OnlyRegs (s t : State) (w : Iss) (f : Issuer → Issuer) : Prop where
  same : SameBut s t w f
  mem : t.mem = s.mem
  tick : t.tick = s.tick
  pend : (t.iss w).pend = (s.iss w).pend
  pcs : (t.iss w).pcs = (s.iss w).pcs
  region : (t.iss w).regionNo = (s.iss w).regionNo
/-- The same, and the registers stay too. -/
abbrev Undisturbed (s t : State) (w : Iss) : Prop := OnlyRegs s t w id
/-- What a change makes of the registers depends on the registers alone. -/
def OfRegs (f : Issuer → Issuer) : Prop := ∀ a b, a.regs = b.regs → (f a).regs = (f b).regs

theorem OnlyRegs.keepsRegs {s t : State} {w : Iss} (h : Undisturbed s t w) : KeepsRegs s t w := ⟨h.same, h.mem, h.pend, h.pcs⟩
theorem OnlyRegs.refl (s : State) (w : Iss) : Undisturbed s s w := ⟨.refl s w, rfl, rfl, rfl, rfl, rfl⟩
/-- A change of registers, and none after it. -/
theorem SameBut.then {s t u : State} {w : Iss} {f : Issuer → Issuer} (h : SameBut s t w f) (k : SameBut t u w id) :
    SameBut s u w f where
  bytes n := (k.bytes n).trans (h.bytes n)
  stamps := k.stamps.trans h.stamps
  chip := k.chip.trans h.chip
  clusters cl := (k.clusters cl).trans (h.clusters cl)
  cores cl co := (k.cores cl co).trans (h.cores cl co)
  others v hv := (k.others v hv).trans (h.others v hv)
  own := k.own.trans h.own
/-- No change of registers, and one after it. -/
theorem SameBut.andThen {s t u : State} {w : Iss} {f : Issuer → Issuer} (h : SameBut s t w id) (k : SameBut t u w f)
    (hf : OfRegs f) : SameBut s u w f where
  bytes n := (k.bytes n).trans (h.bytes n)
  stamps := k.stamps.trans h.stamps
  chip := k.chip.trans h.chip
  clusters cl := (k.clusters cl).trans (h.clusters cl)
  cores cl co := (k.cores cl co).trans (h.cores cl co)
  others v hv := (k.others v hv).trans (h.others v hv)
  own := k.own.trans (hf _ _ h.own)
/-- A change of registers, and what disturbs nothing after it. -/
theorem OnlyRegs.after {s t u : State} {w : Iss} {f : Issuer → Issuer} (h : OnlyRegs s t w f) (k : Undisturbed t u w) :
    OnlyRegs s u w f :=
  ⟨h.same.then k.same, k.mem.trans h.mem, k.tick.trans h.tick, k.pend.trans h.pend, k.pcs.trans h.pcs, k.region.trans h.region⟩
/-- What disturbs nothing, and a change of registers after it. -/
theorem OnlyRegs.before {s t u : State} {w : Iss} {f : Issuer → Issuer} (h : Undisturbed s t w) (k : OnlyRegs t u w f)
    (hf : OfRegs f) : OnlyRegs s u w f :=
  ⟨h.same.andThen k.same hf, k.mem.trans h.mem, k.tick.trans h.tick, k.pend.trans h.pend, k.pcs.trans h.pcs,
    k.region.trans h.region⟩
theorem Undisturbed.trans {s t u : State} {w : Iss} (h : Undisturbed s t w) (k : Undisturbed t u w) : Undisturbed s u w := h.after k
theorem Undisturbed.foldl {α : Type} {w : Iss} {f : State → α → State} (l : List α)
    (h : ∀ a ∈ l, ∀ s, Undisturbed s (f s a) w) (s : State) : Undisturbed s (l.foldl f s) w := by
  induction l generalizing s with
  | nil => exact .refl s w
  | cons a l ih =>
    exact Undisturbed.trans (h a List.mem_cons_self s) (ih (fun b hb => h b (List.mem_cons_of_mem _ hb)) _)

theorem InEngines.undisturbed {s t : State} (h : InEngines s t) (w : Iss) : Undisturbed s t w := by
  obtain ⟨hsame, hmem, hpend, hpcs⟩ := h.keepsRegs w
  exact ⟨hsame, hmem, h.tick, hpend, hpcs, by rw [h.iss]⟩
theorem undisturbed_updCore (s : State) (w : Iss) (cl co : Nat) {f : Core → Core} (hk : KeepsKey f)
    (hi : ∀ c, (f c).issuers = c.issuers) (hr : ∀ c, (f c).regs = c.regs) : Undisturbed s (s.updCore cl co f) w :=
  (inEngines_updCore s cl co hk hi hr).undisturbed w
/-- An update of the issuer's own bookkeeping. -/
theorem undisturbed_updIss (s : State) (w : Iss) {f : Issuer → Issuer} (hs : (f (s.iss w)).slot = w.n)
    (hr : (f (s.iss w)).regs = (s.iss w).regs) (hp : (f (s.iss w)).pend = (s.iss w).pend)
    (hc : (f (s.iss w)).pcs = (s.iss w).pcs) (hn : (f (s.iss w)).regionNo = (s.iss w).regionNo) :
    Undisturbed s (s.updIss w f) w := by
  obtain ⟨hsame, hmem, hpend, hpcs⟩ := keepsRegs_updIss s w f hs hr hp hc
  exact ⟨hsame, hmem, rfl, hpend, hpcs, by rw [iss_updIss _ _ _ hs, hn]⟩
/-- A change at one issuer leaves every other. -/
theorem AtIssuer.iss_other {s t : State} {v w : Iss} (h : AtIssuer s t v) (hv : w ≠ v) : t.iss w = s.iss w := by
  by_cases hc : w.cl = v.cl ∧ w.co = v.co
  · have hn : w.n ≠ v.n := fun hn => hv (by
      obtain ⟨cl, co, n⟩ := v
      obtain ⟨cl', co', n'⟩ := w
      obtain ⟨rfl, rfl⟩ := hc
      exact congrArg _ hn)
    have := h.iss w.n hn
    rwa [State.coreOf, State.coreOf, ← hc.1, ← hc.2] at this
  · rw [State.iss, h.cores _ _ hc, ← State.iss]
/-- A change at one issuer that makes of its registers what f says. -/
theorem AtIssuer.sameBut_of {s t : State} {w : Iss} {f : Issuer → Issuer} (h : AtIssuer s t w)
    (hw : (t.iss w).regs = (f (s.iss w)).regs) : SameBut s t w f where
  bytes k := by rw [State.byte, mem_of_kept h.kept, State.byte]
  stamps := show t.kept.stamps = s.kept.stamps by rw [h.kept]
  chip := show t.kept.chip.regs = s.kept.chip.regs by rw [h.kept]
  clusters cl := show (t.kept.chip.cluster cl).regs = (s.kept.chip.cluster cl).regs by rw [h.kept]
  cores cl co := by
    by_cases hc : cl = w.cl ∧ co = w.co
    · obtain ⟨rfl, rfl⟩ := hc
      exact Core.regs_of_kept h.core
    · rw [h.cores cl co hc]
  others v hv := by rw [h.iss_other hv]
  own := hw
/-- The results in flight and the regions of another issuer are none of its own. -/
theorem undisturbed_other (s : State) {v w : Iss} (hv : v ≠ w) {f : Issuer → Issuer} (hs : (f (s.iss v)).slot = v.n)
    (hr : (f (s.iss v)).regs = (s.iss v).regs) : Undisturbed s (s.updIss v f) w := by
  have hat := atIssuer_updIss s v f hs
  have hown : (s.updIss v f).iss w = s.iss w := hat.iss_other hv.symm
  have hsame : SameBut s (s.updIss v f) v id := hat.sameBut (by rw [iss_updIss _ _ _ hs, hr])
  refine ⟨?_, rfl, rfl, by rw [hown], by rw [hown], by rw [hown]⟩
  refine ⟨hsame.bytes, hsame.stamps, hsame.chip, hsame.clusters, hsame.cores, fun u hu => ?_, by rw [hown]; rfl⟩
  by_cases huv : u = v
  · rw [huv]; exact hsame.own
  · exact hsame.others u huv

/-! Banks (R40, R41). -/

theorem coresGet_map {α : Type} (p : Core → α) {f : Core → Core} (hk : KeepsKey f) (hp : ∀ c, p (f c) = p c)
    (l : List Core) (cl co : Nat) :
    p (coresGet (l.map f) cl co) = p (coresGet l cl co) := by
  induction l with
  | nil => rfl
  | cons c l ih =>
    rw [List.map_cons, coresGet, coresGet, (hk c).1, (hk c).2]
    split
    · exact hp c
    · exact ih
theorem inEngines_mapCores (s : State) {f : Core → Core} (hk : KeepsKey f) (hi : ∀ c, (f c).issuers = c.issuers)
    (hr : ∀ c, (f c).regs = c.regs) : InEngines s { s with cores := s.cores.map f } :=
  ⟨rfl, rfl, rfl, rfl, fun _ => rfl, coresGet_map _ hk hi s.cores, coresGet_map _ hk hr s.cores⟩
theorem undisturbed_delayTurn (s : State) {v w : Iss} (hv : v ≠ w) (n : Nat) : Undisturbed s (delayTurn s v n) w := by
  unfold delayTurn
  split
  · exact undisturbed_other s hv (state_iss_slot s v) rfl
  · exact undisturbed_updCore s w v.cl v.co (fun _ => ⟨rfl, rfl⟩) (fun _ => rfl) fun _ => rfl
/-- Another issuer's result and next instruction come a tick later (R41). -/
theorem undisturbed_bankLater (s : State) {cl : Nat} {a : BankUse} {w : Iss} (hv : (⟨cl, a.src / 32, a.src % 32⟩ : Iss) ≠ w) :
    Undisturbed s (bankLater s cl a) w := by
  unfold bankLater
  extract_lets v s1 s2
  have h1 : Undisturbed s s1 w := undisturbed_other s hv (state_iss_slot s v) rfl
  have h2 : Undisturbed s1 s2 w := by
    unfold s2
    split
    · exact undisturbed_delayTurn s1 hv 1
    · exact .refl s1 w
  refine Undisturbed.trans (h1.trans h2) (InEngines.undisturbed (inEngines_mapCores s2 ?_ ?_ ?_) w)
  · intro c; dsimp only; split <;> exact ⟨rfl, rfl⟩
  · intro c; split <;> rfl
  · intro c; split <;> rfl


theorem mem_of_mem_firsts {l : List BankUse} {b : BankUse} (acc : List BankUse)
    (h : b ∈ l.foldl (fun l b => if l.any fun a => a.src == b.src then l else l ++ [b]) acc) : b ∈ acc ∨ b ∈ l := by
  induction l generalizing acc with
  | nil => exact .inl h
  | cons c l ih =>
    rw [List.foldl_cons] at h
    rcases ih _ h with hb | hb
    · split at hb
      · exact .inl hb
      · rcases List.mem_append.1 hb with hb | hb
        · exact .inl hb
        · exact .inr (List.mem_cons.2 (.inl (List.mem_singleton.1 hb)))
    · exact .inr (List.mem_cons_of_mem _ hb)
/-- An access that waits for another is of another issuer (R41). -/
theorem src_ne_of_before {a b : BankUse} (h : a.before b = true) : b.src ≠ a.src := by
  simp only [BankUse.before, Bool.and_eq_true, bne_iff_ne, ne_eq] at h
  exact fun e => h.1.2 e.symm
theorem iss_of_src {w : Iss} {src : Nat} (h : src ≠ w.co * 32 + w.n) : (⟨w.cl, src / 32, src % 32⟩ : Iss) ≠ w := by
  obtain ⟨cl, co, n⟩ := w
  rintro e
  obtain ⟨-, hco, hn⟩ := Iss.mk.inj e
  simp only at h
  omega
/-- A pass through the banks moves the results of other issuers, and disturbs nothing of its own (R41). -/
theorem undisturbed_bankPass (s : State) (w : Iss) (t passes : Nat) (turn : Bool) (as : List (Nat × DWord)) :
    Undisturbed s (bankPass s w t passes turn as).2 w := by
  unfold bankPass
  extract_lets cross words tcs uses others perPass met e vis later s1
  have huses : ∀ u ∈ uses, u.src = w.co * 32 + w.n := fun u hu => by
    obtain ⟨x, -, rfl⟩ := List.mem_map.1 (List.mem_eraseDups.1 hu)
    rfl
  have hlater : ∀ b ∈ later, b.src ≠ w.co * 32 + w.n := fun b hb => by
    obtain ⟨l, hl, hbl⟩ := List.mem_flatten.1 hb
    obtain ⟨k, -, rfl⟩ := List.mem_map.1 hl
    obtain ⟨-, hany⟩ := List.mem_filter.1 ((mem_of_mem_firsts [] hbl).resolve_left List.not_mem_nil)
    obtain ⟨u, hu, hbefore⟩ := List.any_eq_true.1 hany
    rw [← huses u (List.mem_filter.1 hu).1]
    exact src_ne_of_before hbefore
  have h1 : Undisturbed s s1 w := by
    refine Undisturbed.foldl later (fun b hb u => ?_) s
    exact undisturbed_bankLater u (iss_of_src (hlater b hb))
  refine Undisturbed.trans h1 (Undisturbed.foldl tcs (fun tc _ s => ?_) s1)
  exact undisturbed_updCore s w w.cl tc (fun _ => ⟨rfl, rfl⟩) (fun _ => rfl) fun _ => rfl

end Sys2Proof.Machine


/-! ### The end of a scratchpad load (R46, R119, R160, R180, R286) -/
namespace Sys2Proof.Machine

/-- An issuer's FMASK once lanes have been switched off, if any have (R46). -/
def offRecorded (offs : List (Nat × Nat)) (pc : Nat) (me : Issuer) : Issuer :=
  { me with fmask := recordOff me.fmask offs pc }
theorem ofRegs_id : OfRegs id := fun _ _ h => h
theorem ofRegs_offRecorded (offs : List (Nat × Nat)) (pc : Nat) : OfRegs (offRecorded offs pc) := fun a b h => by
  have hr (c : Issuer) : (offRecorded offs pc c).regs = offRecorded offs pc c.regs := rfl
  rw [hr, hr, h]
theorem switchOff_spec (s : State) (w : Iss) {offs : List (Nat × Nat)} (ho : offs ≠ []) (pc : Nat) :
    OnlyRegs s (switchOff s w offs pc) w (offRecorded offs pc) := by
  rw [switchOff, if_neg (by simpa using ho)]
  have hat := (atIssuer_count s 9 w w offs.length).trans (atIssuer_updIss _ w (offRecorded offs pc) (state_iss_slot _ w))
  have hiss : ((s.count 9 w offs.length).updIss w (offRecorded offs pc)).iss w = offRecorded offs pc (s.iss w) := by
    rw [iss_updIss _ _ _ (state_iss_slot _ w), count_iss]
  exact ⟨hat.sameBut_of (congrArg Issuer.regs hiss), mem_of_kept hat.kept,
    show (State.kept _).tick = s.kept.tick from congrArg State.tick hat.kept, congrArg (·.pend) hiss, congrArg (·.pcs) hiss,
    congrArg (·.regionNo) hiss⟩
theorem insertBy_ne_nil {α : Type} (le : α → α → Bool) (a : α) (l : List α) : insertBy le a l ≠ [] := by
  cases l with
  | nil => exact List.cons_ne_nil _ _
  | cons b l => rw [insertBy]; split <;> exact List.cons_ne_nil _ _
theorem laneOrder_ne_nil {offs : List (Nat × Nat)} (h : offs ≠ []) : laneOrder offs ≠ [] := by
  cases offs with
  | nil => exact absurd rfl h
  | cons a l => exact insertBy_ne_nil _ _ _
theorem undisturbed_filterAdd (s : State) (w : Iss) (keys : List Nat) : Undisturbed s (filterAdd s w keys) w :=
  undisturbed_updIss s w (state_iss_slot s w) rfl rfl rfl (mapOpen_regionNo _ _ (fun _ => rfl) fun _ => rfl)
theorem undisturbed_acquire (s : State) (w : Iss) (k : Clock) : Undisturbed s (acquire s w k) w :=
  undisturbed_updIss s w (f := fun me => { me with hb := joinClock s me.hb k }) (state_iss_slot s w) rfl rfl rfl rfl
theorem undisturbed_poolOrder (s : State) (w : Iss) : Undisturbed s (poolOrder s w) w := by
  have hpublish : Undisturbed s (domPublish s w) w := (inUnits_domPublish s w).inEngines.undisturbed w
  have hacquire := hpublish.trans (undisturbed_acquire (domPublish s w) w ((domPublish s w).chip.cluster w.cl).hb)
  exact hacquire.trans
    (undisturbed_updIss _ w (f := fun me => { me with domAt := max me.domAt s.tick }) (state_iss_slot _ w) rfl rfl rfl rfl)
/-- Results put in flight (R160, R296). -/
theorem addPendFrom_spec (home : Nat) (s : State) (w : Iss) (vis : Nat) (ws : List Wr) :
    let t := addPendFrom home s w vis ws
    SameBut s t w id ∧ t.mem = s.mem ∧ (t.iss w).pcs = (s.iss w).pcs ∧
      (t.iss w).pend = (s.iss w).pend ++ (ws.filter fun e => !e.2.isEmpty).map fun e =>
        ⟨vis, e.1, e.2, (s.iss w).regionNo, home, s.tick⟩ := by
  unfold addPendFrom
  generalize (ws.map fun e => e.2.map (·.2)).flatten = ds
  obtain ⟨hat, hkept, hpend, hpcs, -, -⟩ := foldCrc_spec s w ds
  have hno := foldCrc_regionNo s w ds
  generalize foldCrc s w ds = u at *
  dsimp only
  have hslot := state_iss_slot u w
  rw [iss_updIss u w _ (by exact hslot)]
  refine ⟨?_, mem_of_kept hat.kept, hpcs, ?_⟩
  · refine (hat.trans (atIssuer_updIss u w _ (by exact hslot))).sameBut ?_
    rw [iss_updIss u w _ (by exact hslot)]
    exact Issuer.regs_of_kept hkept
  · dsimp only
    rw [hpend, hno]

/-- The end of an instruction whose results are in flight: it goes on (R160, R210). -/
theorem finish_addPendFrom {s v : State} {m : Mods} {f : Issuer → Issuer} (h : OnlyRegs s v s.cur f) (home vis e : Nat)
    (ws : List Wr) :
    let t := finish (s.ctx m) (addPendFrom home v s.cur vis ws) { e := e }
    (t.iss s.cur).pend = (s.iss s.cur).pend ++ ((ws.filter fun e => !e.2.isEmpty).map fun e =>
        ⟨vis, e.1, e.2, (s.iss s.cur).regionNo, home, s.tick⟩) ∧ Advances s t m ∧ SameBut s t s.cur f := by
  obtain ⟨hsame, hmem, hpcs, hpend⟩ := addPendFrom_spec home v s.cur vis ws
  obtain ⟨hat, hkept, hpend', -, hpcs', hwait⟩ := finish_spec (s.ctx m) (addPendFrom home v s.cur vis ws) { e := e }
  have hw : (s.ctx m).w = s.cur := rfl
  rw [hw] at hat hkept hpend' hpcs' hwait
  rw [h.pend, h.region, h.tick] at hpend
  have hend := hsame.trans (hat.sameBut (Issuer.regs_of_kept hkept))
  refine ⟨hpend'.trans hpend, ⟨?_, hwait⟩, h.same.then hend⟩
  rw [hpcs']
  simp only [finPcs, hw, hpcs, h.pcs, nextPc_of_mem (hmem.trans h.mem)]
  rfl

/-- What the switch-offs of an instruction make of its issuer, none among them (R46). -/
def offsRecorded (offs : List (Nat × Nat)) (pc : Nat) (me : Issuer) : Issuer :=
  if offs = [] then me else { me with fmask := recordOff me.fmask (laneOrder offs) pc }
theorem switchOff_laneOrder (s : State) (w : Iss) (offs : List (Nat × Nat)) (pc : Nat) :
    OnlyRegs s (switchOff s w (laneOrder offs) pc) w (offsRecorded offs pc) ∧ OfRegs (offsRecorded offs pc) := by
  by_cases ho : offs = []
  · have hid : offsRecorded offs pc = id := funext fun me => if_pos ho
    rw [hid, ho]
    exact ⟨.refl s w, ofRegs_id⟩
  · have hrec : offsRecorded offs pc = offRecorded (laneOrder offs) pc := funext fun me => if_neg ho
    rw [hrec]
    exact ⟨switchOff_spec s w (laneOrder_ne_nil ho) pc, ofRegs_offRecorded _ _⟩

/-- A scratchpad load whose touches leave its issuer standing (R286, R289). -/
theorem loadPool_spec {s : State} {m : Mods} {i : Instr} {d n space home : Nat} {sx ldh : Bool} {out : List (Nat × Nat)}
    {as : List (Nat × DWord)} {r : PoolRead} {u : State}
    (hr : poolRead s s.cur.cl s.cur.co (s.ctx m).me s.tick n ldh as = r) (hu : touchAll (s.ctx m) i s r.touched = u)
    (hpsn : r.psn = none) (hin : InEngines s u) (hs : (s.ctx m).stands u = true) :
    let x := s.ctx m
    ∃ t, loadPool x i d n sx ldh space home out as = .next t ∧
      (t.iss s.cur).pend = x.me.pend ++ loadResults x (if space = 5 then 28 else 6)
        (bankPass u s.cur s.tick (x.c.passes s.cur.n) true as).1 home (loadWrites x.front d n sx r.vals) ∧
      Advances s t m ∧ SameBut s t s.cur (offsRecorded (out ++ r.offs) x.pc) := by
  intro x
  have hbank := (hin.undisturbed s.cur).trans (undisturbed_bankPass u s.cur s.tick (x.c.passes s.cur.n) true as)
  obtain ⟨hoff, hof⟩ := switchOff_laneOrder (bankPass u s.cur s.tick (x.c.passes s.cur.n) true as).2 s.cur (out ++ r.offs) x.pc
  have hread := ((hbank.before hoff hof).after (undisturbed_filterAdd _ s.cur r.keys)).after (undisturbed_poolOrder _ s.cur)
  refine ⟨_, ?_, finish_addPendFrom hread home _
    (bankPass u s.cur s.tick (x.c.passes s.cur.n) true as).1 _⟩
  unfold loadPool
  extract_lets s' r'
  have hr' : r' = r := hr
  rw [hr', hpsn]
  dsimp only
  have hu' : touchAll x i s' r.touched = u := hu
  rw [hu', Ctx.ifStands, if_pos hs]
  rfl

/-! Blocking points (R182, R184). -/

theorem closeRegion_none {s : State} {w : Iss} (h : (s.iss w).openRegion = none) : closeRegion s w = s := by
  rw [closeRegion]; simp only [h]
theorem closeRegion_some {s : State} {w : Iss} {r : Region} (h : (s.iss w).openRegion = some r) :
    closeRegion s w = (s.updIss w fun me => me.mapOpen fun r => { r with closed := some s.tick }).sched
      (max s.tick r.lastVis + 320) w .regionCommit := by
  rw [closeRegion]; simp only [h]
/-- An issuer that waits at its PC from the next tick on, its turn over (R155, R157). -/
def waitsAt (x : Ctx) (s : State) (v : Wait) (t : Nat) : State :=
  let s := s.updIss x.w fun me => { me with wait := v, nextAt := x.t + 1 }
  if x.front then s else s.updCore x.w.cl x.w.co fun c => c.endTurn t
theorem waitsAt_spec (x : Ctx) (s : State) (v : Wait) (t : Nat) :
    KeepsRegs s (waitsAt x s v t) x.w ∧ (waitsAt x s v t).iss x.w = { s.iss x.w with wait := v, nextAt := x.t + 1 } ∧
      (waitsAt x s v t).agenda = s.agenda := by
  have hslot : ({ s.iss x.w with wait := v, nextAt := x.t + 1 } : Issuer).slot = x.w.n := state_iss_slot s x.w
  have hset := keepsRegs_updIss s x.w (fun me => { me with wait := v, nextAt := x.t + 1 }) hslot rfl rfl rfl
  have hiss := iss_updIss s x.w (fun me => { me with wait := v, nextAt := x.t + 1 }) hslot
  unfold waitsAt
  dsimp only
  split
  · exact ⟨hset, hiss, rfl⟩
  · obtain ⟨hk, hi, -, -, -⟩ := endTurn_spec (s.updIss x.w fun me => { me with wait := v, nextAt := x.t + 1 }) x.w t
    exact ⟨hset.trans hk, hi.trans hiss, rfl⟩
theorem blockAt_eq (x : Ctx) (i : Instr) (vals : List DWord) : blockAt x i vals =
    waitsAt x (closeRegion x.s x.w) (.block i .commit x.act vals x.t x.pc) (x.t + x.c.passes x.w.n) := rfl
theorem parkHere_eq (x : Ctx) (s : State) (v : Wait) : parkHere x s v = waitsAt x s v (x.t + 1) := rfl

/-- The region that is open closes, and its commit is set; nothing else changes (R182). -/
theorem closeRegion_spec (s : State) (w : Iss) : KeepsRegs s (closeRegion s w) w ∧
    ((closeRegion s w).iss w).regions = (match (s.iss w).openRegion with
      | none => (s.iss w).regions
      | some _ => (s.iss w).regions.map fun r => if r.closed.isNone then { r with closed := some s.tick } else r) ∧
    ∀ r, (s.iss w).openRegion = some r → (max s.tick r.lastVis + 320, w, Instr.regionCommit) ∈ (closeRegion s w).agenda := by
  cases ho : (s.iss w).openRegion with
  | none =>
    rw [closeRegion_none ho]
    exact ⟨.refl s w, rfl, fun r hr => nomatch hr⟩
  | some r =>
    have hslot : ((s.iss w).mapOpen fun r => { r with closed := some s.tick }).slot = w.n := state_iss_slot s w
    rw [closeRegion_some ho]
    refine ⟨(keepsRegs_updIss s w _ hslot rfl rfl rfl).trans (keepsRegs_sched _ w _ _ _), ?_, fun r' hr => ?_⟩
    · rw [iss_sched, iss_updIss _ _ _ hslot]
      rfl
    · cases hr
      exact List.mem_append_right _ (List.mem_singleton.2 rfl)

/-- A blocking point, reached after what engines and shared units have done (R182, R184). -/
theorem blockAt_spec {s u : State} (h : InEngines s u) (m : Mods) (i : Instr) (vals : List DWord) :
    Blocks s (blockAt { s.ctx m with s := u } i vals) m i vals := by
  obtain ⟨hclose, hregs, hcommit⟩ := closeRegion_spec u s.cur
  obtain ⟨hk, hiss, hag⟩ := waitsAt_spec { s.ctx m with s := u } (closeRegion u s.cur)
    (.block i .commit (s.ctx m).act vals s.tick (s.ctx m).pc) (s.tick + (s.ctx m).c.passes s.cur.n)
  rw [h.iss, h.tick] at hregs hcommit
  have hkeep := ((h.keepsRegs s.cur).trans hclose).trans hk
  rw [blockAt_eq]
  change Blocks s (waitsAt { s.ctx m with s := u } (closeRegion u s.cur)
    (.block i .commit (s.ctx m).act vals s.tick (s.ctx m).pc) (s.tick + (s.ctx m).c.passes s.cur.n)) m i vals
  change State.iss _ s.cur = _ at hiss
  generalize waitsAt _ _ _ _ = t at *
  refine ⟨by rw [hiss], hkeep.pcs, ?_, fun r hr => hag ▸ hcommit r hr, hkeep.same, hkeep.pend⟩
  rw [hiss]
  exact hregs

end Sys2Proof.Machine


/-! ### LDH (R289, R290) -/
namespace Sys2Proof.Machine

theorem withHandle_names {x : Ctx} {h : BitVec 4} {chk : Bool} {n : Nat} (hn : Names x h chk n) (ha : x.act ≠ [])
    (k : Nat → Win → Out) : withHandle x h chk k = k n (x.c.win n) := by
  obtain ⟨hregion, hdef, hhandle, hvalid, hfault⟩ := hn
  have hpending : (x.front && defPending x.me h.toNat x.t) = false := by
    cases hf : x.front with
    | false => rfl
    | true => exact hdef hf
  unfold withHandle
  extract_lets inRegion
  have hin : inRegion = false := by
    unfold inRegion
    split
    · rename_i r hr; exact hregion r hr
    · rfl
  rw [hin, hpending, hhandle, if_neg Bool.false_ne_true, if_neg Bool.false_ne_true]
  dsimp only
  rw [hvalid, if_neg (by decide), if_neg (by simpa using ha)]
  split
  · rename_i hst hr; exact absurd (hr.symm.trans (hfault rfl hst)) (Option.some_ne_none _)
  · rfl

/-- The bytes that the active lanes of an LDH name (R289). -/
def ldhLanes (x : Ctx) (o : MemF) (w : Win) : List (Nat × DWord) := x.act.map fun l =>
  (l, BitVec.ofNat 64 (w.sbase + (if o.bss then (x.c.sreg (x.tl l) o.base.toNat).toNat % 2 ^ 32 else (x.v o.base l).toNat) +
    o.off.toNat % 2 ^ 16))

theorem ldh_spec {o : MemF} {sz : BitVec 2} {sx : Bool} {s : State} {k : Nat}
    (hnames : Names (s.ctx o.m) (BitVec.ofNat 4 (o.off.toNat / 2 ^ 16)) true k)
    (hrc : regionCause (s.ctx o.m) (loadTgts (s.ctx o.m).front o.data.toNat (2 ^ sz.toNat)) = none)
    (hact : (s.ctx o.m).act ≠ [])
    (halign : ∀ a ∈ ldhLanes (s.ctx o.m) o ((s.ctx o.m).c.win k), a.2.toNat % 2 ^ sz.toNat = 0) :
    let x := s.ctx o.m
    let w := x.c.win k
    let as := ldhLanes x o w
    ((w.state = .full ∨ w.state = .draining) → exec (.ldh o sz sx) s =
      loadPool x (.ldh o sz sx) o.data.toNat (2 ^ sz.toNat) sx true 4 w.homeSpace
        ((as.filter fun a => !w.holds a.2.toNat).map fun a => (a.1, 1))
        ((as.filter fun a => w.holds a.2.toNat).map fun a => (a.1, a.2 + (4 : DWord) <<< 60))) ∧
    (w.state = .free → w.valid = [] → exec (.ldh o sz sx) s =
      .next (finish x (switchOff s s.cur (as.map fun a => (a.1, 3)) x.pc) {})) ∧
    ((w.state = .absent ∨ w.state = .filling ∨ w.state = .free ∧ w.valid ≠ []) → touchBlocks w = true →
      exec (.ldh o sz sx) s = .next (blockAt x (.ldh o sz sx) [BitVec.ofNat 64 k])) := by
  intro x w as
  obtain ⟨O, hO⟩ : ∃ O, exec (.ldh o sz sx) s = O := ⟨_, rfl⟩
  have hlanes : (x.act.map fun l => (l, BitVec.ofNat 64 (w.sbase +
      (if o.bss then (x.c.sreg (x.tl l) o.base.toNat).setWidth 32 else x.me.v (x.tl l) o.base.toNat l).toNat +
        o.off.toNat % 2 ^ 16))) = as := by
    refine List.map_congr_left fun l _ => ?_
    cases o.bss with
    | true => simp
    | false => rfl
  have hfind : as.find? (fun a => a.2.toNat % 2 ^ sz.toNat != 0) = none :=
    List.find?_eq_none.2 fun a ha => by simpa using halign a ha
  rw [hO]
  change execLdh o sz sx s = O at hO
  unfold execLdh at hO
  dsimp only at hO
  rw [withHandle_names hnames hact] at hO
  rw [hrc] at hO
  dsimp only at hO
  rw [hlanes, hfind] at hO
  rw [← hO]
  refine ⟨fun hst => ?_, fun hst hv => ?_, fun hst hb => ?_⟩
  · rcases hst with hst | hst <;> simp only [w, x] at hst <;> rw [hst]
  · simp only [w, x] at hst hv
    rw [hst, hv]
    rfl
  · simp only [w, x] at hst hb
    rcases hst with hst | hst | ⟨hst, hv⟩
    · rw [hst, if_pos hb]
    · rw [hst, if_pos hb]
    · rw [hst]
      dsimp only
      rw [if_neg (by simpa using hv), if_pos hb]

end Sys2Proof.Machine


/-! ### LD of memory (R129, R184, R283, R286) -/
namespace Sys2Proof.Machine

theorem InWalks.foldl {α : Type} {f : State → α → State} (h : ∀ s a, InWalks s (f s a)) (l : List α) (s : State) :
    InWalks s (l.foldl f s) := by
  induction l generalizing s with
  | nil => exact .refl s
  | cons a l ih => exact (h s a).trans (ih _)
theorem inWalks_watchThread (s : State) (h : Held) (w : Iss) (kind n : Nat) (as : List (DWord × DWord)) :
    InWalks s (watchThread s h w kind n as) := by
  unfold watchThread
  split
  · exact .refl s
  · exact InWalks.foldl (f := fun s (x : Nat × DWord × DWord) => watchFire s x.1 w kind n 0 h.rnum h.pc x.2.1 x.2.2)
      (fun s x => ⟨inUnits_watchFire s x.1 w kind n 0 h.rnum h.pc x.2.1 x.2.2, rfl⟩) _ s
theorem undisturbed_bumpVis (s : State) (w : Iss) (vis : Nat) : Undisturbed s (bumpVis s w vis) w :=
  undisturbed_updIss s w (state_iss_slot s w) rfl rfl rfl (mapOpen_regionNo _ _ (fun _ => rfl) fun _ => rfl)

/-- The request of a load, and what it leaves of the issuer (R286). -/
theorem startLoad_spec {s u : State} {w : Iss} (h : InWalks s u) (keys : List Nat) (vis : Nat) (q : Req) :
    let t := startReq (bumpVis (filterAdd u w keys) w vis) q
    Undisturbed s t w ∧ ∃ p, t.chip.reqs = s.chip.reqs ++ [p] ∧ SameAccess p q := by
  obtain ⟨hunits, p, hreqs, hp⟩ := startReqAt_spec (bumpVis (filterAdd u w keys) w vis) q (q.lanes.map (·.va))
  have hu : Undisturbed s u w := h.1.inEngines.undisturbed w
  have hnote := (hu.trans (undisturbed_filterAdd u w keys)).trans (undisturbed_bumpVis _ w vis)
  exact ⟨hnote.trans (hunits.inEngines.undisturbed w), p, hreqs.trans (congrArg (· ++ [p]) h.2), hp⟩

/-- The addresses of an LD's active lanes (R282). -/
def ldLanes (x : Ctx) (o : MemF) : List (Nat × DWord) := x.act.map fun l => (l, laneAddr x o o.off.toInt l)
/-- Their translation. -/
def ldTrans (s : State) (o : MemF) : Except TrapInfo (List (Nat × DWord × Nat × DWord)) × State :=
  transLanes s s.cur.cl (s.ctx o.m).c.ptw .load (ldLanes (s.ctx o.m) o)

/-- The request of a load whose lanes are translated (R286). -/
def IsLoad (q : Req) (s : State) (i : Instr) (sp bound : Nat) (ls : List (Nat × DWord × Nat × DWord)) : Prop :=
  q.kind = .load ∧ q.w = s.cur ∧ q.h.i = i ∧ q.space = sp ∧ q.bound = bound ∧
    q.lanes.map (fun a => (a.lane, a.va, a.pa)) = ls.map fun l => (l.1, l.2.1, l.2.2.1)
theorem reqLanes_map (cl : Nat) (me : Issuer) (n sp : Nat) (ls : List (Nat × DWord × Nat × DWord)) :
    (reqLanes cl me n sp ls).map (fun a => (a.lane, a.va, a.pa)) = ls.map fun l => (l.1, l.2.1, l.2.2.1) :=
  List.map_map.trans rfl
theorem SameAccess.isLoad {p q : Req} {s : State} {i : Instr} {sp bound : Nat} {ls : List (Nat × DWord × Nat × DWord)}
    (h : SameAccess p q) (hq : IsLoad q s i sp bound ls) : IsLoad p s i sp bound ls := by
  obtain ⟨hkind, hw, hh, hspace, hbound, hlanes⟩ := h
  rw [IsLoad, hkind, hw, hh, hspace, hbound, hlanes]
  exact hq

theorem ld_spec {o : MemF} {sz : BitVec 2} {sx : Bool} {s : State} {sp : Nat} {ls : List (Nat × DWord × Nat × DWord)}
    (hact : (s.ctx o.m).act ≠ []) (hchecks : laneChecks (2 ^ sz.toNat) (ldLanes (s.ctx o.m) o) = .ok sp) (hsp : sp ≤ 3)
    (htrans : (ldTrans s o).1 = .ok ls) :
    let x := s.ctx o.m
    let rc := regionCause x (loadTgts x.front o.data.toNat (2 ^ sz.toNat))
    let u := (ldTrans s o).2
    let bound := x.vis (if sp = 0 then 2400 else 4000) 0
    ((sp = 1 ∨ sp = 3) → rc ≠ some 1 → rc ≠ some 2 →
      exec (.ld o sz sx) s = .next (blockAt { x with s := u } (.ld o sz sx) (packLanes ls))) ∧
    ((sp = 0 ∨ sp = 2) → rc = none → acquirePending u s.cur bound = true →
      exec (.ld o sz sx) s = .next (parkHere x u .retry)) ∧
    ((sp = 0 ∨ sp = 2) → rc = none → acquirePending u s.cur bound = false →
      ∃ v q, exec (.ld o sz sx) s = .next (finish x v {}) ∧ Undisturbed s v s.cur ∧ v.chip.reqs = s.chip.reqs ++ [q] ∧
        IsLoad q s (.ld o sz sx) sp bound ls) := by
  intro x rc u bound
  have hchecks' : laneChecks (2 ^ sz.toNat) (x.act.map fun l => (l, laneAddr x o o.off.toInt l)) = .ok sp := hchecks
  have htrans' : transLanes s x.w.cl x.c.ptw .load (x.act.map fun l => (l, laneAddr x o o.off.toInt l)) = (.ok ls, u) :=
    Prod.ext htrans rfl
  obtain ⟨O, hO⟩ : ∃ O, exec (.ld o sz sx) s = O := ⟨_, rfl⟩
  rw [hO]
  change execLd o sz sx s = O at hO
  unfold execLd at hO
  dsimp only at hO
  rw [hchecks', htrans'] at hO
  have hu : InWalks s u := inWalks_transLanes _ _ _ _ _
  have hempty : ¬(s.ctx o.m).act.isEmpty = true := by simpa using hact
  have h5 : ¬5 < sp := by omega
  have h3 : ¬3 < sp := by omega
  refine ⟨fun hfar h1 h2 => ?_, fun hnear h hacq => ?_, fun hnear h hacq => ?_⟩
  · split at hO
    · rename_i heq; exact absurd heq h1
    · rename_i heq; exact absurd heq h2
    · rename_i hok _ _; cases hok
    · rename_i hok _ _
      cases hok
      rw [if_neg hempty, if_neg h5, if_neg h3] at hO
      dsimp only at hO
      rw [if_pos hfar] at hO
      exact hO.symm
  · have hnot : ¬(sp = 1 ∨ sp = 3) := by omega
    rw [show regionCause (s.ctx o.m) _ = none from h] at hO
    dsimp only at hO
    rw [if_neg hempty, if_neg h5, if_neg h3, if_neg hnot,
      show acquirePending u (s.ctx o.m).w _ = true from hacq, if_pos rfl] at hO
    exact hO.symm
  · have hnot : ¬(sp = 1 ∨ sp = 3) := by omega
    rw [show regionCause (s.ctx o.m) _ = none from h] at hO
    dsimp only at hO
    rw [if_neg hempty, if_neg h5, if_neg h3, if_neg hnot,
      show acquirePending u (s.ctx o.m).w _ = false from hacq, if_neg Bool.false_ne_true] at hO
    have hwatch (h : Held) (n : Nat) (l : List (DWord × DWord)) : InWalks s (watchThread u h s.cur 0 n l).fresh.2 :=
      (hu.trans (inWalks_watchThread u h s.cur 0 n l)).trans ⟨.of_chip rfl rfl rfl rfl rfl rfl, rfl⟩
    exact (startLoad_spec (hwatch _ _ _) _ _ _).elim fun hv ⟨p, hreqs, hp⟩ =>
      ⟨_, p, hO.symm, hv, hreqs, hp.isLoad ⟨rfl, rfl, rfl, rfl, rfl, reqLanes_map _ _ _ _ _⟩⟩

/-! ### O12 -/

theorem stands_self (s : State) (m : Mods) : (s.ctx m).stands s = true := by
  have hx : (s.ctx m).s = s := rfl
  rw [Ctx.stands, hx, beq_self_eq_true, beq_self_eq_true]
  rfl
/-- LDH of a window that is full or draining reads the lanes whose bytes it holds, and switches the others off (R289). -/
theorem ldh_held {o : MemF} {sz : BitVec 2} {sx : Bool} {s : State} {home : Nat} {out : List (Nat × Nat)} {ins : List (Nat × DWord)}
    (hexec : exec (.ldh o sz sx) s =
      loadPool (s.ctx o.m) (.ldh o sz sx) o.data.toNat (2 ^ sz.toNat) sx true 4 home out ins) :
    let x := s.ctx o.m
    let r := poolRead s s.cur.cl s.cur.co x.me s.tick (2 ^ sz.toNat) true ins
    let u := touchAll x (.ldh o sz sx) s r.touched
    r.psn = none → (u = s ∨ x.c.lean = false ∧ x.me.wait = .run ∧ x.stands u = true) →
    Completes (.ldh o sz sx) s fun t =>
      (t.iss s.cur).pend = x.me.pend ++ loadResults x 6 (bankPass u s.cur s.tick (x.c.passes s.cur.n) true ins).1 home
        (loadWrites x.front o.data.toNat (2 ^ sz.toNat) sx r.vals) ∧
      Advances s t o.m ∧ SameBut s t s.cur (offsRecorded (out ++ r.offs) x.pc) := by
  intro x r u hpsn hu
  have hstands : InEngines s u ∧ x.stands u = true := by
    rcases hu with hu | ⟨hl, hw, hs⟩
    · rw [hu]; exact ⟨.refl s, stands_self s o.m⟩
    · exact ⟨inEngines_touchAll hl hw hs, hs⟩
  obtain ⟨t, ht, hpend, hadv, hsame⟩ := loadPool_spec (i := .ldh o sz sx) (d := o.data.toNat) (space := 4) (home := home) (sx := sx)
    (out := out) (r := r) (u := u) rfl rfl hpsn hstands.1 hstands.2
  exact ⟨t, hexec.trans ht, hpend, hadv, hsame⟩
/-- LDH of a free window without producers switches every lane off (R289). -/
theorem ldh_free {i : Instr} {m : Mods} {s : State} {offs : List (Nat × Nat)} (ho : offs ≠ [])
    (hexec : exec i s = .next (finish (s.ctx m) (switchOff s s.cur offs (s.ctx m).pc) {})) :
    Completes i s fun t => (t.iss s.cur).pend = (s.ctx m).me.pend ∧ Advances s t m ∧
      SameBut s t s.cur (offRecorded offs (s.ctx m).pc) := by
  have hoff := switchOff_spec s s.cur ho (s.ctx m).pc
  obtain ⟨hat, hkept, hpend, -, -, -⟩ := finish_spec (s.ctx m) (switchOff s s.cur offs (s.ctx m).pc) {}
  have hw : (s.ctx m).w = s.cur := rfl
  rw [hw] at hat hkept hpend
  exact ⟨_, hexec, hpend.trans hoff.pend, finish_advances hoff.mem hoff.pcs,
    hoff.same.then (hat.sameBut (Issuer.regs_of_kept hkept))⟩

/-- Settles O12: LDH by the state of the window that its handle names, LD by the space of its lanes. -/
theorem handleAndMemoryLoads : Obligations.HandleAndMemoryLoads := by
  unfold Obligations.HandleAndMemoryLoads
  refine ⟨fun o sz sx s k => ?_, fun o sz sx s sp ls => ?_⟩
  · intro x n w as hnames hrc hact halign
    obtain ⟨hheld, hfree, hblocks⟩ := ldh_spec (sx := sx) hnames hrc hact halign
    have hlanes : as.map (fun a => (a.1, 3)) ≠ [] := by simpa [as] using hact
    refine ⟨fun hst => ldh_held (hheld hst), fun hst hv => ldh_free hlanes (hfree hst hv), fun hst hb => ?_⟩
    exact ⟨_, hblocks hst hb, blockAt_spec (.refl s) o.m _ _⟩
  · intro x as rc hact hchecks hsp htrans
    obtain ⟨hfar, hpark, hsend⟩ := ld_spec (sx := sx) hact hchecks hsp htrans
    rw [parkHere_eq] at hpark
    have hu : InEngines s (ldTrans s o).2 := (inWalks_transLanes _ _ _ _ _).1.inEngines
    refine ⟨fun hsp h1 h2 => ⟨_, hfar hsp h1 h2, blockAt_spec hu o.m _ _⟩, fun hsp hrc => ?_⟩
    by_cases hacq : acquirePending (transLanes s s.cur.cl x.c.ptw .load as).2 s.cur
      (x.vis (if sp = 0 then 2400 else 4000) 0) = true
    · rw [if_pos hacq]
      obtain ⟨hkeep, hiss, -⟩ := waitsAt_spec x (ldTrans s o).2 .retry (x.t + 1)
      have hk := (hu.keepsRegs s.cur).trans hkeep
      exact ⟨_, hpark hsp hrc hacq, congrArg (·.wait) hiss, hk.pcs, hk.same, hk.pend⟩
    · rw [if_neg hacq]
      obtain ⟨v, q, hexec, hv, hreqs, hkind, hw, hi, hspace, hbound, hq⟩ := hsend hsp hrc (Bool.eq_false_iff.2 hacq)
      have hchip : (finish x v {}).chip.reqs = v.chip.reqs :=
        show (finish x v {}).kept.chip.reqs = v.kept.chip.reqs by rw [(finish_spec x v {}).1.kept]
      exact ⟨_, hexec, ⟨q, hchip.trans hreqs, hkind, hw, hi, hspace, hbound, hq⟩, finish_advances hv.mem hv.pcs,
        finish_sameRegs hv.keepsRegs⟩

end Sys2Proof.Machine


/-! ### LD of the scratchpads (R44, R46, R121, R184, R286) -/
namespace Sys2Proof.Machine

/-- What a scratchpad read does for one lane, by the check of R44 that it fails, if any (R44, R121). -/
theorem poolRead_lane (s : State) (cl co : Nat) (me : Issuer) (t n : Nat) (ldh : Bool) (l : Nat) (a : DWord) {tc off : Nat}
    (ha : (poolAddr co a).getD (co, 0) = (tc, off)) :
    let r := poolRead s cl co me t n ldh [(l, a)]
    let fw := forwarded cl me (keySp cl tc off) n
    match spCheck (s.core cl tc) t (poolAddr co a) n false ldh with
    | none => if (s.core cl tc).psnAt off then r.psn = some (l, off) ∧ r.vals = [] ∧ r.offs = [] else
        r.vals = [(l, overlay n fw (BitVec.ofNat 64 (leNat (s.bytes (keySp cl tc off) n))))] ∧ r.offs = [] ∧ r.psn = none
    | some 2 => r.vals = [(l, overlay n fw 0)] ∧ r.offs = (if fw.1 = 2 ^ n - 1 then [] else [(l, 2)]) ∧ r.psn = none
    | some k => r.vals = [] ∧ r.offs = [(l, k)] ∧ r.psn = none := by
  intro r fw
  obtain ⟨R, hR⟩ : ∃ R, r = R := ⟨_, rfl⟩
  rw [hR]
  simp only [r, poolRead, List.foldl_cons, List.foldl_nil, ha] at hR
  split
  · rename_i hc
    simp only [hc] at hR
    split
    · rename_i hp
      rw [← hR, if_pos hp]
      exact ⟨rfl, rfl, rfl⟩
    · rename_i hp
      rw [← hR, if_neg hp]
      exact ⟨rfl, rfl, rfl⟩
  · rename_i hc
    simp only [hc] at hR
    rw [← hR]
    exact ⟨rfl, rfl, rfl⟩
  · rename_i k hk hc
    rw [hc] at hR
    split at hR
    · rename_i h; cases h
    · rename_i h; cases h; exact absurd rfl hk
    · rename_i h
      cases h
      rw [← hR]
      exact ⟨rfl, rfl, rfl⟩

/-- A scratchpad LD is a blocking point, or reads its lanes now (R184, R286). -/
theorem ld_pool {o : MemF} {sz : BitVec 2} {sx : Bool} {s : State} {sp : Nat}
    (hrc : regionCause (s.ctx o.m) (loadTgts (s.ctx o.m).front o.data.toNat (2 ^ sz.toNat)) = none)
    (hact : (s.ctx o.m).act ≠ []) (hchecks : laneChecks (2 ^ sz.toNat) (ldLanes (s.ctx o.m) o) = .ok sp)
    (hsp : sp = 4 ∨ sp = 5) :
    let x := s.ctx o.m
    let as := ldLanes x o
    let r := poolRead s s.cur.cl s.cur.co x.me s.tick (2 ^ sz.toNat) false as
    exec (.ld o sz sx) s = if (r.touched.any fun k => touchBlocks ((s.core s.cur.cl k.1).win k.2)) = true then
        .next (blockAt x (.ld o sz sx) (as.map fun a => [BitVec.ofNat 64 a.1, a.2, 0, 0]).flatten)
      else loadPool x (.ld o sz sx) o.data.toNat (2 ^ sz.toNat) sx false sp noHome [] as := by
  intro x as r
  have hchecks' : laneChecks (2 ^ sz.toNat) (x.act.map fun l => (l, laneAddr x o o.off.toInt l)) = .ok sp := hchecks
  obtain ⟨O, hO⟩ : ∃ O, exec (.ld o sz sx) s = O := ⟨_, rfl⟩
  rw [hO]
  change execLd o sz sx s = O at hO
  unfold execLd at hO
  dsimp only at hO
  rw [hrc, hchecks'] at hO
  dsimp only at hO
  rw [if_neg (by simpa using hact), if_neg (by omega), if_pos (by omega)] at hO
  exact hO.symm

/-- Settles O11: one lane by the check that it fails, the load by whether it would start a fill from another chip or the
host. -/
theorem scratchpadAccesses : Obligations.ScratchpadAccesses := by
  unfold Obligations.ScratchpadAccesses
  refine ⟨fun s cl co me t n l ldh a => poolRead_lane s cl co me t n ldh l a rfl, fun o sz sx s sp => ?_⟩
  intro x n as r u e hrc hact hchecks hsp
  have hexec := ld_pool (sx := sx) hrc hact hchecks hsp
  split
  · rename_i hb
    exact ⟨_, hexec.trans (if_pos hb), blockAt_spec (.refl s) o.m _ _⟩
  · rename_i hb
    intro hpsn hu
    have hstands : InEngines s u ∧ x.stands u = true := by
      rcases hu with hu | ⟨hl, hw, hs⟩
      · rw [hu]; exact ⟨.refl s, stands_self s o.m⟩
      · exact ⟨inEngines_touchAll hl hw hs, hs⟩
    obtain ⟨t, ht, hpend, hadv, hsame⟩ := loadPool_spec (i := .ld o sz sx) (d := o.data.toNat) (space := sp) (home := noHome)
      (sx := sx) (out := []) (r := r) (u := u) rfl rfl hpsn hstands.1 hstands.2
    exact ⟨t, (hexec.trans (if_neg hb)).trans ht, hpend, hadv, hsame⟩

end Sys2Proof.Machine


/-! ### Windows: reading an entry after an update of its core (R48, R52) -/
namespace Sys2Proof.Machine

/-- An entry after a change, with the tick at which its state changed (R52). -/
def Win.stamped (e e' : Win) (t : Nat) : Win := if e'.state = e.state then e' else { e' with ftick := t }
theorem coreOf_setWinState (s : State) (cl co n : Nat) (f : Win → Win) : (setWinState s cl co n f).core cl co =
    (s.core cl co).setWin n ((s.win cl co n).stamped (f (s.win cl co n)) s.tick) := by
  refine (core_updCore s cl co cl co _ ?_).trans (if_pos ⟨rfl, rfl⟩)
  exact fun _ => ⟨rfl, rfl⟩
theorem win_setWinState (s : State) (cl co n : Nat) (f : Win → Win) :
    (setWinState s cl co n f).win cl co n = (s.win cl co n).stamped (f (s.win cl co n)) s.tick := by
  rw [State.win, coreOf_setWinState, win_setWin]
/-- A reading of an entry that is not the tick of its last change. -/
theorem Win.stamped_keeps {α : Type} (p : Win → α) (hp : ∀ (e : Win) (t : Nat), p { e with ftick := t } = p e) (e e' : Win)
    (t : Nat) : p (e.stamped e' t) = p e' := by
  rw [Win.stamped]
  split
  · rfl
  · exact hp e' t
end Sys2Proof.Machine


/-! ### Home fills from a scratchpad (R52, R54) -/
namespace Sys2Proof.Machine

/-- The landing of sector k of window n's fill from place q of the cluster's scratchpads, touched at a tick (R54). -/
def poolLanding (s : State) (cl co n at_ k off sp : Nat) (q : Nat × Nat) : Nat × Iss × Instr :=
  (at_ + fillL sp + k, ⟨cl, co, n⟩, .windowLanding ⟨cl, co, off, 0, 0, (s.core cl q.1).psnAt q.2, spSector s cl q.1 q.2⟩)
theorem poolLanding_congr {s t : State} (hm : t.mem = s.mem) (hc : ∀ cl co, (t.core cl co).scPsn = (s.core cl co).scPsn)
    (cl co n at_ k off sp : Nat) (q : Nat × Nat) :
    poolLanding t cl co n at_ k off sp q = poolLanding s cl co n at_ k off sp q := by
  simp only [poolLanding, Core.psnAt, hc, spSector, spRead, bytes_of_mem hm]

/-- What a fill's requests leave: every core and memory, and what is already set. -/
structure FillSets (s t : State) : Prop where
  cores : t.cores = s.cores
  mem : t.mem = s.mem
  agenda : ∀ e ∈ s.agenda, e ∈ t.agenda
theorem FillSets.core {s t : State} (h : FillSets s t) (cl co : Nat) : t.core cl co = s.core cl co := by
  rw [State.core, h.cores]; rfl

/-- One sector of a fill from a scratchpad is read, and lands at its tick (R54). -/
theorem fillSector_pool {s : State} {cl co n k : Nat} (x : Xfer) {q : Nat × Nat}
    (hsp : spaceOf ((s.win cl co n).sector k).1 = 4 ∨ spaceOf ((s.win cl co n).sector k).1 = 5)
    (hq : poolAddr co ((s.win cl co n).sector k).1 = some q) (hroom : q.2 + 64 ≤ (s.core cl q.1).scSize) :
    FillSets s (fillSector s cl co n x k) ∧ poolLanding s cl co n x.next k ((s.win cl co n).sector k).2
      (spaceOf ((s.win cl co n).sector k).1) q ∈ (fillSector s cl co n x k).agenda := by
  obtain ⟨T, hT⟩ : ∃ T, fillSector s cl co n x k = T := ⟨_, rfl⟩
  rw [hT]
  unfold fillSector at hT
  dsimp only at hT
  rw [hq, if_pos (by omega), if_pos hsp] at hT
  dsimp only at hT
  rw [if_pos hroom, Nat.mul_one] at hT
  rw [← hT]
  exact ⟨⟨rfl, rfl, fun e he => List.mem_append_left _ he⟩, List.mem_append_right _ (List.mem_singleton.2 rfl)⟩

/-- A fill's sectors in turn: each of them lands. -/
theorem fillSectors_pool {cl co n sp : Nat} (x : Xfer) (l : List Nat) {s : State} (hst : (s.win cl co n).state = .filling)
    (hhfs : (s.win cl co n).hfs = true) (h45 : sp = 4 ∨ sp = 5)
    (hl : ∀ k ∈ l, spaceOf ((s.win cl co n).sector k).1 = sp ∧ ∃ q, poolAddr co ((s.win cl co n).sector k).1 = some q ∧
      q.2 + 64 ≤ (s.core cl q.1).scSize) :
    let t := l.foldl (fun s k =>
      if (s.win cl co n).state = .filling ∧ (s.win cl co n).hfs then fillSector s cl co n x k else s) s
    FillSets s t ∧ ∀ k ∈ l, ∀ q, poolAddr co ((s.win cl co n).sector k).1 = some q →
      poolLanding s cl co n x.next k ((s.win cl co n).sector k).2 sp q ∈ t.agenda := by
  induction l generalizing s with
  | nil => exact ⟨⟨rfl, rfl, fun _ h => h⟩, fun k hk => absurd hk List.not_mem_nil⟩
  | cons k l ih =>
    obtain ⟨hsp, q, hq, hroom⟩ := hl k List.mem_cons_self
    obtain ⟨hset, hland⟩ := fillSector_pool x (by rw [hsp]; exact h45) hq hroom
    have hwin : (fillSector s cl co n x k).win cl co n = s.win cl co n := by rw [State.win, hset.core, ← State.win]
    have hcore := hset.core cl
    rw [List.foldl_cons, if_pos ⟨hst, hhfs⟩]
    obtain ⟨hset', hlands⟩ := ih (s := fillSector s cl co n x k) (by rwa [hwin]) (by rwa [hwin]) fun j hj => by
      simpa only [hwin, hcore] using hl j (List.mem_cons_of_mem _ hj)
    refine ⟨⟨hset'.cores.trans hset.cores, hset'.mem.trans hset.mem, fun e he => hset'.agenda e (hset.agenda e he)⟩,
      fun j hj p hp => ?_⟩
    rcases List.mem_cons.1 hj with rfl | hj
    · rw [hq] at hp
      cases hp
      rw [hsp] at hland
      exact hset'.agenda _ hland
    · rw [hwin] at hlands
      have := hlands j hj p hp
      rwa [poolLanding_congr hset.mem fun cl co => by rw [hset.core]] at this

/-- The window and the fill of a touch, before its sectors are read (R52). -/
def fillBegun (s : State) (w : Iss) (n : Nat) (x : Xfer) (g : Option (Iss × Nat × Nat)) : State :=
  (setWinState s w.cl w.co n fun e => { e with hfs := true, state := .filling, toucher := g }).updCore w.cl w.co fun c =>
    { c with fills := (c.fills.filter fun f => f.win != n) ++ [x] }
theorem fillBegun_spec (s : State) (w : Iss) (n : Nat) (x : Xfer) (g : Option (Iss × Nat × Nat)) :
    let u := fillBegun s w n x g
    (u.win w.cl w.co n).state = .filling ∧ (u.win w.cl w.co n).hfs = true ∧
      (∀ k, (u.win w.cl w.co n).sector k = (s.win w.cl w.co n).sector k) ∧
      ∀ cl co, (u.core cl co).regs = (s.core cl co).regs := by
  have hin : InEngines s (fillBegun s w n x g) := (inEngines_setWinState s w.cl w.co n _).trans
    (inEngines_updCore _ _ _ (fun _ => ⟨rfl, rfl⟩) (fun _ => rfl) fun _ => rfl)
  have hwin : (fillBegun s w n x g).win w.cl w.co n = (s.win w.cl w.co n).stamped
      { s.win w.cl w.co n with hfs := true, state := .filling, toucher := g } s.tick := by
    rw [← win_setWinState s w.cl w.co n fun e => { e with hfs := true, state := .filling, toucher := g }]
    refine (keepsWindows_updCore _ w.cl w.co ?_ ?_ ?_).win _ _ _
    · exact fun _ => ⟨rfl, rfl⟩
    · exact fun _ => rfl
    · exact fun _ => rfl
  intro u
  simp only [u, hwin]
  exact ⟨Win.stamped_keeps (·.state) (fun _ _ => rfl) _ _ _, Win.stamped_keeps (·.hfs) (fun _ _ => rfl) _ _ _,
    fun k => Win.stamped_keeps (·.sector k) (fun _ _ => rfl) _ _ _, hin.regs⟩

theorem scSize_of_regs {c d : Core} (h : c.regs = d.regs) : c.scSize = d.scSize :=
  show c.regs.scSize = d.regs.scSize by rw [h]
theorem scPsn_of_regs {c d : Core} (h : c.regs = d.regs) : c.scPsn = d.scPsn :=
  show c.regs.scPsn = d.regs.scPsn by rw [h]

/-- A fill from scratchpads of the cluster that have room for every sector (R54). -/
theorem startFill_pool {s : State} {w : Iss} {n sp : Nat} (by_ : Option (Iss × Held)) {p : Prod}
    (hp : (s.win w.cl w.co n).homeProd = some p) (h45 : sp = 4 ∨ sp = 5)
    (hl : ∀ k, k < p.share / 64 → spaceOf ((s.win w.cl w.co n).sector k).1 = sp ∧
      ∃ q, poolAddr w.co ((s.win w.cl w.co n).sector k).1 = some q ∧ q.2 + 64 ≤ (s.core w.cl q.1).scSize) :
    let u := startFill s w n by_
    (u.win w.cl w.co n).state = .filling ∧ (u.win w.cl w.co n).hfs = true ∧ (∀ k, u.byte k = s.byte k) ∧
      ∀ k, k < p.share / 64 → ∀ q, poolAddr w.co ((s.win w.cl w.co n).sector k).1 = some q →
        poolLanding s w.cl w.co n s.tick k ((s.win w.cl w.co n).sector k).2 sp q ∈ u.agenda := by
  let x : Xfer := ⟨n, s.tick, p.share / 64, 0, w.n, by_.map (·.2), none⟩
  let b := fillBegun s w n x (by_.map fun h => (h.1, h.2.rnum, h.2.pc))
  obtain ⟨hst, hhfs, hsec, hregs⟩ := fillBegun_spec s w n x (by_.map fun h => (h.1, h.2.rnum, h.2.pc))
  have hfold : startFill s w n by_ = (List.range (p.share / 64)).foldl (fun s k =>
      if (s.win w.cl w.co n).state = .filling ∧ (s.win w.cl w.co n).hfs then fillSector s w.cl w.co n x k else s) b := by
    rw [startFill]
    simp only [hp]
    rfl
  obtain ⟨hset, hlands⟩ := fillSectors_pool x (List.range (p.share / 64)) hst hhfs h45 fun k hk => by
    obtain ⟨hsp, q, hq, hroom⟩ := hl k (List.mem_range.1 hk)
    rw [hsec]
    exact ⟨hsp, q, hq, by rw [scSize_of_regs (hregs _ _)]; exact hroom⟩
  intro u
  have hu : u = _ := hfold
  rw [← hu] at hset hlands
  have hwin : u.win w.cl w.co n = b.win w.cl w.co n := by rw [State.win, hset.core, ← State.win]
  refine ⟨by rw [hwin]; exact hst, by rw [hwin]; exact hhfs, fun k => by rw [State.byte, hset.mem]; rfl, fun k hk q hq => ?_⟩
  have hland := hlands k (List.mem_range.2 hk) q (by rw [hsec]; exact hq)
  rw [hsec] at hland
  rwa [poolLanding_congr (s := s) (t := b) rfl fun cl co => scPsn_of_regs (hregs cl co)] at hland

/-- A window that is full, draining, faulted, already filling from its home, or has no home is not changed (R52). -/
theorem touch_idle {s : State} {w : Iss} {n : Nat} (by_ : Option (Iss × Held))
    (h : let e := s.win w.cl w.co n; e.state = .full ∨ e.state = .draining ∨ e.state = .faulted ∨
      (e.state = .filling ∧ e.hfs = true) ∨ (e.state = .free ∧ e.valid = [])) : touch s w n by_ = s := by
  simp only [touch]
  rcases h with h | h | h | ⟨h, hh⟩ | ⟨h, hv⟩
  · rw [h]
  · rw [h]
  · rw [h]
  · rw [h, hh]; rfl
  · rw [h, hv]; rfl
/-- The home's fill starts in a free window, and in one that only counts (R52). -/
theorem touch_fills {s : State} {w : Iss} {n : Nat} (by_ : Option (Iss × Held))
    (h : let e := s.win w.cl w.co n; e.state = .absent ∨ (e.state = .filling ∧ e.hfs = false)) :
    touch s w n by_ = startFill s w n by_ := by
  simp only [touch]
  rcases h with h | ⟨h, hh⟩
  · rw [h]
  · rw [h, hh]; rfl

/-- Settles O15: the states in which a touch does nothing, and the fill that it starts in the others. -/
theorem touchEvents : Obligations.TouchEvents := by
  unfold Obligations.TouchEvents
  intro s w n by_ e u
  refine ⟨fun hst => ?_, fun p sp hst hp h45 hl => ?_⟩
  · exact touch_idle by_ hst
  · have hu : u = startFill s w n by_ := touch_fills by_ hst
    obtain ⟨hfill, hhfs, hbytes, hlands⟩ := startFill_pool by_ hp h45 hl
    rw [hu]
    refine ⟨hfill, hhfs, hbytes, fun k hk q hq => ?_⟩
    have hland := hlands k hk q hq
    rcases h45 with rfl | rfl
    · exact hland
    · exact hland

end Sys2Proof.Machine


/-! ### Writes to a scratchpad (R42, R43, R197) -/
namespace Sys2Proof.Machine

theorem core_updCore_same (s : State) (cl co : Nat) {f : Core → Core} (hk : KeepsKey f) :
    (s.updCore cl co f).core cl co = f (s.core cl co) :=
  (core_updCore s cl co cl co f hk).trans (if_pos ⟨rfl, rfl⟩)

/-- Of the cores only what is logged for blocks and the scratchpads' initialised and poison bits differ. -/
def OnlyPool (s t : State) : Prop := ∀ cl co, ∃ b i p, t.core cl co = { s.core cl co with blocks := b, scInit := i, scPsn := p }
theorem OnlyPool.of_cores {s t : State} (h : t.cores = s.cores) : OnlyPool s t := fun cl co =>
  ⟨_, _, _, by rw [State.core, h]; rfl⟩
theorem OnlyPool.trans {s t u : State} (h : OnlyPool s t) (k : OnlyPool t u) : OnlyPool s u := fun cl co => by
  obtain ⟨b, i, p, e⟩ := h cl co
  obtain ⟨b', i', p', e'⟩ := k cl co
  exact ⟨b', i', p', by rw [e', e]⟩
theorem onlyPool_updCore (s : State) (cl co : Nat) {f : Core → Core}
    (h : ∀ c, ∃ b i p, f c = { c with blocks := b, scInit := i, scPsn := p }) : OnlyPool s (s.updCore cl co f) := fun cl' co' => by
  have hk : KeepsKey f := fun c => by obtain ⟨b, i, p, e⟩ := h c; rw [e]; exact ⟨rfl, rfl⟩
  rw [core_updCore _ _ _ _ _ _ hk]
  split
  · rename_i hc; rw [← hc.1, ← hc.2]; exact h _
  · exact ⟨_, _, _, rfl⟩
/-- What is read of a core beside them stays. -/
theorem OnlyPool.reads {α : Type} {s t : State} (h : OnlyPool s t) (r : Core → α)
    (hr : ∀ (c : Core) b i p, r { c with blocks := b, scInit := i, scPsn := p } = r c) (cl co : Nat) :
    r (t.core cl co) = r (s.core cl co) := by
  obtain ⟨b, i, p, e⟩ := h cl co
  rw [e, hr]
theorem OnlyPool.win {s t : State} (h : OnlyPool s t) (cl co n : Nat) : t.win cl co n = s.win cl co n :=
  h.reads (·.win n) (fun _ _ _ _ => rfl) cl co
theorem OnlyPool.iss {s t : State} (h : OnlyPool s t) (v : Iss) : t.iss v = s.iss v :=
  h.reads (·.iss v.n) (fun _ _ _ _ => rfl) v.cl v.co

theorem onlyPool_logSector (s : State) (cl co sec : Nat) : OnlyPool s (logSector s cl co sec) :=
  onlyPool_updCore _ _ _ fun _ => ⟨_, _, _, rfl⟩
theorem onlyPool_spPoison (s : State) (cl co sec : Nat) : OnlyPool s (spPoison s cl co sec) :=
  onlyPool_updCore _ _ _ fun _ => ⟨_, _, _, rfl⟩
theorem onlyPool_spCover (s : State) (cl co n : Nat) (offs : List Nat) : OnlyPool s (spCover s cl co n offs) :=
  onlyPool_updCore _ _ _ fun _ => ⟨_, _, _, rfl⟩

/-- Memory once an uninitialised sector has been cleared for a write (R43). -/
def sectorCleared (s : State) (cl co sec : Nat) : State :=
  if Sparse.get false (s.core cl co).scInit sec then s else s.setBytes (keySp cl co (sec * 64)) (List.replicate 64 0)
theorem sectorCleared_cores (s : State) (cl co sec : Nat) : (sectorCleared s cl co sec).cores = s.cores := by
  unfold sectorCleared
  split
  · rfl
  · exact State.setBytes_cores _ _ _
theorem wf_sectorCleared {s : State} (hs : Memory.wf s.mem = true) (cl co sec : Nat) :
    Memory.wf (sectorCleared s cl co sec).mem = true := by
  unfold sectorCleared
  split
  · exact hs
  · exact Memory.wf_setBytes hs
theorem byte_sectorCleared {s : State} (hs : Memory.wf s.mem = true) (cl co sec : Nat) {k : Nat}
    (hk : k < keySp cl co (sec * 64) ∨ keySp cl co (sec * 64) + 64 ≤ k) : (sectorCleared s cl co sec).byte k = s.byte k := by
  unfold sectorCleared
  split
  · rfl
  · exact State.byte_setBytes_other (by rwa [List.length_replicate]) hs

theorem spWrite_mem (s : State) (cl co off : Nat) (bs : List Byte) : (spWrite s cl co off bs).mem =
    ((sectorCleared (logSector s cl co (off / 64)) cl co (off / 64)).setBytes (keySp cl co off) bs).mem := rfl
theorem onlyPool_spWrite (s : State) (cl co off : Nat) (bs : List Byte) : OnlyPool s (spWrite s cl co off bs) := by
  have hlog := onlyPool_logSector s cl co (off / 64)
  have hmem : OnlyPool (logSector s cl co (off / 64))
      ((sectorCleared (logSector s cl co (off / 64)) cl co (off / 64)).setBytes (keySp cl co off) bs) :=
    .of_cores ((State.setBytes_cores _ _ _).trans (sectorCleared_cores _ _ _ _))
  exact (hlog.trans hmem).trans (onlyPool_updCore _ _ _ fun _ => ⟨_, _, _, rfl⟩)
theorem byte_spWrite_other {s : State} (hs : Memory.wf s.mem = true) {cl co off : Nat} {bs : List Byte}
    (hin : off % 64 + bs.length ≤ 64) {k : Nat}
    (hk : k < keySp cl co (off / 64 * 64) ∨ keySp cl co (off / 64 * 64) + 64 ≤ k) :
    (spWrite s cl co off bs).byte k = s.byte k := by
  have hwf := wf_sectorCleared (s := logSector s cl co (off / 64)) hs cl co (off / 64)
  have hout : k < keySp cl co off ∨ keySp cl co off + bs.length ≤ k := by
    simp only [keySp] at hk ⊢
    omega
  rw [State.byte, spWrite_mem, ← State.byte, State.byte_setBytes_other hout hwf]
  exact byte_sectorCleared (s := logSector s cl co (off / 64)) hs cl co (off / 64) hk
theorem bytes_spWrite {s : State} (hs : Memory.wf s.mem = true) (cl co off : Nat) (bs : List Byte) :
    (spWrite s cl co off bs).bytes (keySp cl co off) bs.length = bs :=
  (bytes_of_mem (spWrite_mem s cl co off bs) _ _).trans
    (State.bytes_setBytes (wf_sectorCleared (s := logSector s cl co (off / 64)) hs cl co (off / 64)))
theorem setBytes_mem_congr {s t : State} (h : t.mem = s.mem) (k : Nat) (bs : List Byte) :
    (t.setBytes k bs).mem = (s.setBytes k bs).mem := by
  induction bs generalizing s t k with
  | nil => exact h
  | cons b bs ih => exact ih (s := s.setByte k b) (t := t.setByte k b) (by simp only [State.setByte_mem, h]) (k + 1)
/-- A write to an initialised sector changes its own bytes alone (R43). -/
theorem byte_spWrite_init {s : State} {cl co off : Nat} (hi : Sparse.get false (s.core cl co).scInit (off / 64) = true)
    (bs : List Byte) (k : Nat) : (spWrite s cl co off bs).byte k = (s.setBytes (keySp cl co off) bs).byte k := by
  have hinit : ((logSector s cl co (off / 64)).core cl co).scInit = (s.core cl co).scInit := by
    refine (congrArg Core.scInit (core_updCore_same s cl co ?_)).trans rfl
    exact fun _ => ⟨rfl, rfl⟩
  have hclear : sectorCleared (logSector s cl co (off / 64)) cl co (off / 64) = logSector s cl co (off / 64) := by
    rw [sectorCleared, hinit]
    exact if_pos hi
  have hmem := setBytes_mem_congr (t := logSector s cl co (off / 64)) (s := s) rfl (keySp cl co off) bs
  rw [State.byte, spWrite_mem, hclear, hmem, State.byte]
theorem Sparse.get_set_same {α : Type} [DecidableEq α] {d x : α} (hx : x ≠ d) (m : Sparse α) (n : Nat) :
    Sparse.get d (Sparse.set d m n x) n = x := by
  induction m with
  | nil => simp [Sparse.set, hx, Sparse.get]
  | cons e t ih =>
    obtain ⟨k, v⟩ := e
    unfold Sparse.set
    split
    · simp [Sparse.get]
    · split
      · simp [Sparse.get]
      · rename_i h h'
        simp [Sparse.get, h, h', ih]
theorem scInit_spWrite (s : State) (cl co off : Nat) (bs : List Byte) :
    Sparse.get false ((spWrite s cl co off bs).core cl co).scInit (off / 64) = true := by
  refine (congrArg (fun c => Sparse.get false c.scInit (off / 64)) (core_updCore_same _ cl co ?_)).trans ?_
  · exact fun _ => ⟨rfl, rfl⟩
  · exact Sparse.get_set_same (by decide) _ _
end Sys2Proof.Machine


/-! ### What the issuers keep while an effect is presented (R41, R120, R123) -/
namespace Sys2Proof.Machine

/-- Every issuer's registers and the effects that wait for their presentation stay. -/
def KeepsHeld (s t : State) : Prop := ∀ v, (t.iss v).regs = (s.iss v).regs ∧ (t.iss v).presq = (s.iss v).presq
theorem KeepsHeld.refl (s : State) : KeepsHeld s s := fun _ => ⟨rfl, rfl⟩
theorem KeepsHeld.trans {s t u : State} (h : KeepsHeld s t) (k : KeepsHeld t u) : KeepsHeld s u :=
  fun v => ⟨(k v).1.trans (h v).1, (k v).2.trans (h v).2⟩
theorem KeepsHeld.foldl {α : Type} {f : State → α → State} (h : ∀ s a, KeepsHeld s (f s a)) (l : List α) (s : State) :
    KeepsHeld s (l.foldl f s) := by
  induction l generalizing s with
  | nil => exact .refl s
  | cons a l ih => exact (h s a).trans (ih _)
theorem OnlyPool.keepsHeld {s t : State} (h : OnlyPool s t) : KeepsHeld s t := fun v => by rw [h.iss]; exact ⟨rfl, rfl⟩
theorem InEngines.keepsHeld {s t : State} (h : InEngines s t) : KeepsHeld s t := fun v => by rw [h.iss]; exact ⟨rfl, rfl⟩
theorem keepsHeld_updIss (s : State) (w : Iss) {f : Issuer → Issuer} (hs : (f (s.iss w)).slot = w.n)
    (hr : (f (s.iss w)).regs = (s.iss w).regs) (hp : (f (s.iss w)).presq = (s.iss w).presq) : KeepsHeld s (s.updIss w f) :=
  fun v => by
    by_cases hv : v = w
    · rw [hv, iss_updIss s w f hs]; exact ⟨hr, hp⟩
    · rw [(atIssuer_updIss s w f hs).iss_other hv]; exact ⟨rfl, rfl⟩

theorem keepsHeld_delayTurn (s : State) (w : Iss) (n : Nat) : KeepsHeld s (delayTurn s w n) := by
  unfold delayTurn
  split
  · exact keepsHeld_updIss s w (state_iss_slot s w) rfl rfl
  · refine InEngines.keepsHeld (inEngines_updCore s w.cl w.co ?_ ?_ ?_)
    · exact fun _ => ⟨rfl, rfl⟩
    · exact fun _ => rfl
    · exact fun _ => rfl
theorem mem_delayTurn (s : State) (w : Iss) (n : Nat) : (delayTurn s w n).mem = s.mem := by
  unfold delayTurn
  split <;> rfl
theorem keepsHeld_bankLater (s : State) (cl : Nat) (a : BankUse) : KeepsHeld s (bankLater s cl a) := by
  unfold bankLater
  extract_lets v s1 s2
  have h1 : KeepsHeld s s1 := keepsHeld_updIss s v (state_iss_slot s v) rfl rfl
  have h2 : KeepsHeld s1 s2 := by
    unfold s2
    split
    · exact keepsHeld_delayTurn s1 v 1
    · exact .refl s1
  refine (h1.trans h2).trans (InEngines.keepsHeld (inEngines_mapCores s2 ?_ ?_ ?_))
  · intro c; dsimp only; split <;> exact ⟨rfl, rfl⟩
  · intro c; split <;> rfl
  · intro c; split <;> rfl
theorem keepsHeld_bankPass (s : State) (w : Iss) (t passes : Nat) (turn : Bool) (as : List (Nat × DWord)) :
    KeepsHeld s (bankPass s w t passes turn as).2 := by
  unfold bankPass
  extract_lets cross words tcs uses others perPass met e vis later s1
  refine KeepsHeld.trans (t := s1) (KeepsHeld.foldl (fun s a => ?_) later s) (KeepsHeld.foldl (fun s tc => ?_) tcs s1)
  · exact keepsHeld_bankLater s w.cl _
  · refine InEngines.keepsHeld (inEngines_updCore s w.cl tc ?_ ?_ ?_)
    · exact fun _ => ⟨rfl, rfl⟩
    · exact fun _ => rfl
    · exact fun _ => rfl
/-- The banks of a presented effect change no memory, and what the issuers hold stays (R41, R120). -/
theorem bankPresent_spec (s : State) (w : Iss) (as : List (Nat × DWord)) :
    KeepsHeld s (bankPresent s w as).2 ∧ (bankPresent s w as).2.mem = s.mem := by
  unfold bankPresent
  extract_lets c
  have hk := keepsHeld_bankPass s w s.tick (c.passes w.n) c.lean as
  have hm := (undisturbed_bankPass s w s.tick (c.passes w.n) c.lean as).mem
  generalize bankPass s w s.tick (c.passes w.n) c.lean as = p at *
  dsimp only
  split
  · exact ⟨hk.trans (keepsHeld_delayTurn _ _ _), (mem_delayTurn _ _ _).trans hm⟩
  · exact ⟨hk, hm⟩
theorem keepsHeld_poolOrder (s : State) (w : Iss) : KeepsHeld s (poolOrder s w) := by
  have hpublish : KeepsHeld s (domPublish s w) := (inUnits_domPublish s w).inEngines.keepsHeld
  have hacquire := hpublish.trans (keepsHeld_updIss (domPublish s w) w
    (f := fun me => { me with hb := joinClock (domPublish s w) me.hb ((domPublish s w).chip.cluster w.cl).hb })
    (state_iss_slot _ w) rfl rfl)
  exact hacquire.trans
    (keepsHeld_updIss _ w (f := fun me => { me with domAt := max me.domAt s.tick }) (state_iss_slot _ w) rfl rfl)

end Sys2Proof.Machine

/-! ### The presentation of a held effect: what is taken from the queue, and what follows (R120, R122) -/
namespace Sys2Proof.Machine

/-- The state in which the oldest effect is presented: it no longer waits, and its block has a record of it (R120, R198). -/
def presTaken (s : State) (w : Iss) (h : Held) (rest : List Held) : State :=
  logEffect (s.updIss w fun me => { me with presq := rest, presented := me.presented + 1 }) w false (effSig h) []
/-- The presentation of the next effect is set, when one waits (R120). -/
def presNext (s : State) (w : Iss) : State :=
  if (s.iss w).presq.isEmpty then s.updIss w fun me => { me with presBusy := false }
  else s.sched (s.tick + 1) w .heldEffectPresentation

theorem exec_heldEffectPresentation_waits {s : State} {h : Held} {rest : List Held} (hq : (s.iss s.cur).presq = h :: rest)
    (hw : releaseWaits s s.cur h = true) :
    exec .heldEffectPresentation s = .next (s.sched (s.tick + 1) s.cur .heldEffectPresentation) := by
  change execHeldEffectPresentation s = _
  rw [execHeldEffectPresentation]
  simp only [hq]
  rw [if_pos hw]
theorem exec_heldEffectPresentation_presents {s : State} {h : Held} {rest : List Held}
    (hq : (s.iss s.cur).presq = h :: rest) (hw : releaseWaits s s.cur h = false)
    (hsup : (s.iss s.cur).suppress.find? heldRecord = none) :
    exec .heldEffectPresentation s = .next (presNext (presentHeld (presTaken s s.cur h rest) s.cur h) s.cur) := by
  have hiss : ((s.updIss s.cur fun me => { me with presq := rest, presented := me.presented + 1 }).iss s.cur).suppress =
      (s.iss s.cur).suppress := by
    refine (congrArg Issuer.suppress (iss_updIss s s.cur _ ?_)).trans rfl
    exact state_iss_slot s s.cur
  change execHeldEffectPresentation s = _
  rw [execHeldEffectPresentation]
  simp only [hq]
  rw [if_neg (by rw [hw]; exact Bool.false_ne_true), hiss, hsup]
  dsimp only
  rw [presNext]
  split
  · rename_i hempty; rw [if_pos (by exact hempty)]; rfl
  · rename_i hsome; rw [if_neg (by exact hsome)]; rfl

theorem core_logEffect (s : State) (w : Iss) (out : Bool) (sig : BitVec 56) (res : List (Nat × DWord)) (cl co : Nat) :
    ∃ b, (logEffect s w out sig res).core cl co = { s.core cl co with blocks := b } := by
  unfold logEffect
  split
  · exact ⟨_, rfl⟩
  · refine (core_updCore s w.cl w.co cl co _ ?_).symm ▸ ?_
    · intro c
      dsimp only
      split <;> exact ⟨rfl, rfl⟩
    · split
      · rename_i hc
        rw [← hc.1, ← hc.2]
        dsimp only
        split <;> exact ⟨_, rfl⟩
      · exact ⟨_, rfl⟩
theorem inEngines_logEffect (s : State) (w : Iss) (out : Bool) (sig : BitVec 56) (res : List (Nat × DWord)) :
    InEngines s (logEffect s w out sig res) := by
  unfold logEffect
  split
  · exact .refl s
  · refine inEngines_updCore s w.cl w.co (fun c => ?_) (fun c => ?_) fun c => ?_
    · dsimp only; split <;> exact ⟨rfl, rfl⟩
    · dsimp only; split <;> rfl
    · dsimp only; split <;> rfl
theorem chip_logEffect (s : State) (w : Iss) (out : Bool) (sig : BitVec 56) (res : List (Nat × DWord)) :
    (logEffect s w out sig res).chip = s.chip := by
  unfold logEffect
  split <;> rfl
theorem undisturbed_presTaken (s : State) (w : Iss) (h : Held) (rest : List Held) : Undisturbed s (presTaken s w h rest) w :=
  (undisturbed_updIss s w (f := fun me => { me with presq := rest, presented := me.presented + 1 })
    (state_iss_slot s w) rfl rfl rfl rfl).trans ((inEngines_logEffect _ w false (effSig h) []).undisturbed w)
theorem presq_presTaken (s : State) (w : Iss) (h : Held) (rest : List Held) : ((presTaken s w h rest).iss w).presq = rest := by
  rw [presTaken, (inEngines_logEffect _ w false (effSig h) []).iss, iss_updIss s w _ (by exact state_iss_slot s w)]
/-- Of a core only its issuers and the records of its blocks differ when an effect has been taken. -/
theorem core_presTaken (s : State) (w : Iss) (h : Held) (rest : List Held) (cl co : Nat) :
    ∃ i b, (presTaken s w h rest).core cl co = { s.core cl co with issuers := i, blocks := b } := by
  obtain ⟨b, hb⟩ := core_logEffect (s.updIss w fun me => { me with presq := rest, presented := me.presented + 1 }) w false
    (effSig h) [] cl co
  rw [core_updIss] at hb
  rw [presTaken, hb]
  split
  · rename_i hc; rw [← hc.1, ← hc.2]; exact ⟨_, _, rfl⟩
  · exact ⟨_, _, rfl⟩

/-- The next effect's presentation is set, and nothing else changes (R120). -/
theorem presNext_spec (s : State) (w : Iss) : Undisturbed s (presNext s w) w ∧ KeepsHeld s (presNext s w) ∧
    (presNext s w).chip = s.chip ∧
    ((s.iss w).presq ≠ [] → (s.tick + 1, w, Instr.heldEffectPresentation) ∈ (presNext s w).agenda) := by
  unfold presNext
  split
  · rename_i hq
    refine ⟨undisturbed_updIss s w (state_iss_slot s w) rfl rfl rfl rfl, keepsHeld_updIss s w (state_iss_slot s w) rfl rfl,
      rfl, fun hne => absurd (List.isEmpty_iff.1 hq) hne⟩
  · have hsched : InEngines s (s.sched (s.tick + 1) w .heldEffectPresentation) :=
      ⟨rfl, rfl, rfl, rfl, fun _ => rfl, fun _ _ => rfl, fun _ _ => rfl⟩
    exact ⟨hsched.undisturbed w, .refl s, rfl, fun _ => List.mem_append_right _ (List.mem_singleton.2 rfl)⟩
end Sys2Proof.Machine

/-! ### A store's presentation (R43, R58, R287) -/
namespace Sys2Proof.Machine

/-- A store to memory sends its access (R58, R287). -/
theorem presentStore_memory {s : State} {w : Iss} {h : Held} {o : MemF} {sz : BitVec 2} {l : LaneAcc} {ls : List LaneAcc}
    (hi : h.i = .st o sz) (hl : h.lanes = l :: ls) (hsp : l.space ≤ 3) :
    InUnits s (presentStore s w h) ∧ ∃ q, (presentStore s w h).chip.reqs = s.chip.reqs ++ [q] ∧ q.kind = .store ∧ q.w = w ∧
      q.h = h ∧ q.space = l.space ∧ q.lanes = h.lanes ∧ q.bound = homeBound s l.space := by
  have hhead : (h.lanes.map (·.space)).headD 0 = l.space := by rw [hl]; rfl
  obtain ⟨u, hu⟩ : ∃ u, watchThread s h w 1 (accSize h.i) (h.lanes.map fun l =>
      (l.va, BitVec.ofNat 64 ((nth l.ops 0 0).toNat * 256 ^ (l.va.toNat % 8)))) = u := ⟨_, rfl⟩
  have hwatch : InWalks s u := hu ▸ inWalks_watchThread s h w 1 _ _
  rw [presentStore, hhead]
  dsimp only
  rw [if_neg (by omega), hu]
  simp only [hi]
  have hfresh : InUnits u u.fresh.2 := .of_chip rfl rfl rfl rfl rfl rfl
  obtain ⟨hin, q, hreqs, hkind, hw, hh, hspace, hbound, hlanes⟩ := startReqAt_spec u.fresh.2
    (heldReq u.fresh.2 w h u.fresh.1 .store l.space (homeBound u.fresh.2 l.space) h.lanes) (h.lanes.map (·.va))
  refine ⟨(hwatch.1.trans hfresh).trans hin, q, hreqs.trans (congrArg (· ++ [q]) hwatch.2), hkind, hw, hh, hspace, hlanes,
    hbound.trans ?_⟩
  exact congrArg (· + _) hwatch.1.inEngines.tick

/-- What is written of a scratchpad's sector that is initialised already, one lane's store (R43, R44). -/
theorem poolWrite_lane {s : State} {w : Iss} {h : Held} {o : MemF} {sz : BitVec 2} {l : LaneAcc} (hi : h.i = .st o sz)
    (hl : h.lanes = [l]) (hpa : l.pa < 2 ^ 32)
    (hck : spCheck (s.core w.cl (l.pa / 2 ^ 24)) s.tick (some (l.pa / 2 ^ 24, l.pa % 2 ^ 24)) (2 ^ sz.toNat) true false = none) :
    ∃ vs, poolWrite s w h = (spCover (spWrite s w.cl (l.pa / 2 ^ 24) (l.pa % 2 ^ 24) (toBytes (2 ^ sz.toNat) (nth l.ops 0 0).toNat))
      w.cl (l.pa / 2 ^ 24) (2 ^ sz.toNat) [l.pa % 2 ^ 24], vs, [], none) := by
  have hplace : l.place = some (l.pa / 2 ^ 24, l.pa % 2 ^ 24) := if_pos hpa
  have hcause : writeCause (s.core w.cl (l.pa / 2 ^ 24)) s.tick (2 ^ sz.toNat) false (some (l.pa / 2 ^ 24, l.pa % 2 ^ 24)) = none := by
    rw [writeCause, hck]; rfl
  rw [poolWrite]
  simp only [hi, hl, accSize, List.foldl_cons, List.foldl_nil, hplace, Option.map_some, Option.getD_some, hcause]
  have hone (p : Nat) : [p].eraseDups = [p] := rfl
  simp only [List.nil_append, List.map_cons, List.map_nil, hone, List.foldl_cons, List.foldl_nil, List.filter_cons,
    beq_self_eq_true, if_true, List.filter_nil]
  exact ⟨_, rfl⟩
/-- A store of one lane is presented at its scratchpad: its bytes change, and nothing else (R43). -/
theorem presentStore_pool {s : State} {w : Iss} {h : Held} {o : MemF} {sz : BitVec 2} {l : LaneAcc} (hi : h.i = .st o sz)
    (hl : h.lanes = [l]) (hsp : 4 ≤ l.space) (hpa : l.pa < 2 ^ 32)
    (hck : spCheck (s.core w.cl (l.pa / 2 ^ 24)) s.tick (some (l.pa / 2 ^ 24, l.pa % 2 ^ 24)) (2 ^ sz.toNat) true false = none)
    (hinit : Sparse.get false (s.core w.cl (l.pa / 2 ^ 24)).scInit (l.pa % 2 ^ 24 / 64) = true) :
    KeepsHeld s (presentStore s w h) ∧ ∀ k, (presentStore s w h).byte k =
      (s.setBytes (keySp w.cl (l.pa / 2 ^ 24) (l.pa % 2 ^ 24)) (toBytes (2 ^ sz.toNat) (nth l.ops 0 0).toNat)).byte k := by
  obtain ⟨vs, hwrite⟩ := poolWrite_lane (w := w) hi hl hpa hck
  obtain ⟨u, hu⟩ : ∃ u, spCover (spWrite s w.cl (l.pa / 2 ^ 24) (l.pa % 2 ^ 24) (toBytes (2 ^ sz.toNat) (nth l.ops 0 0).toNat))
    w.cl (l.pa / 2 ^ 24) (2 ^ sz.toNat) [l.pa % 2 ^ 24] = u := ⟨_, rfl⟩
  have hheld : KeepsHeld s u := hu ▸ ((onlyPool_spWrite s _ _ _ _).trans (onlyPool_spCover _ _ _ _ _)).keepsHeld
  have hbyte (k : Nat) : u.byte k = (s.setBytes (keySp w.cl (l.pa / 2 ^ 24) (l.pa % 2 ^ 24))
      (toBytes (2 ^ sz.toNat) (nth l.ops 0 0).toNat)).byte k := hu ▸ byte_spWrite_init hinit _ k
  have hstore : presentStore s w h = poolOrder (bankPresent u w (h.lanes.map fun l => (l.lane, l.va))).2 w := by
    rw [presentStore, if_pos (by rw [hl]; exact hsp), presentPool]
    simp only [hwrite, hu, hi]
    rfl
  obtain ⟨hbank, hmem⟩ := bankPresent_spec u w (h.lanes.map fun l => (l.lane, l.va))
  have horder := (undisturbed_poolOrder (bankPresent u w (h.lanes.map fun l => (l.lane, l.va))).2 w).mem
  rw [hstore]
  exact ⟨(hheld.trans hbank).trans (keepsHeld_poolOrder _ w), fun k => by
    rw [← hbyte, State.byte, horder, hmem, State.byte]⟩

theorem toBytes_get {n v k : Nat} (hk : k < n) : (toBytes n v)[k]? = some (BitVec.ofNat 8 (v / 256 ^ k % 256)) := by
  induction n generalizing v k with
  | zero => omega
  | succ n ih =>
    cases k with
    | zero => simp [toBytes]
    | succ k => rw [toBytes, List.getElem?_cons_succ, ih (by omega), Nat.div_div_eq_div_mul, Nat.pow_succ']
/-- A byte of a number as it was stored. -/
theorem byte_setBytes_toBytes {s : State} (hs : Memory.wf s.mem = true) (key n v k : Nat) (hk : k < n) :
    (s.setBytes key (toBytes n v)).byte (key + k) = BitVec.ofNat 8 (v / 256 ^ k % 256) := by
  rw [State.byte_setBytes _ hs, if_pos (by omega), Nat.add_sub_cancel_left, toBytes_get hk]
  rfl

/-- Settles O28: the queue's next effect, the access that a store to memory sends, and the bytes that one to a scratchpad
changes. -/
theorem storePresentation : Obligations.StorePresentation := by
  unfold Obligations.StorePresentation
  intro s h rest w me hq
  refine ⟨exec_heldEffectPresentation_waits hq, fun hwait hsup o sz hi => ?_⟩
  have hexec := exec_heldEffectPresentation_presents hq hwait hsup
  have hpres : presentHeld (presTaken s w h rest) w h = presentStore (presTaken s w h rest) w h := by
    rw [presentHeld, hi]
  have htaken := undisturbed_presTaken s w h rest
  have hrest := presq_presTaken s w h rest
  obtain ⟨u, hu⟩ : ∃ u, presentStore (presTaken s w h rest) w h = u := ⟨_, rfl⟩
  obtain ⟨hnext, hkeep, hchip, hagenda⟩ := presNext_spec u w
  rw [hpres, hu] at hexec
  refine ⟨fun l ls hl hsp => ⟨presNext u w, hexec, ?_⟩, fun l hwf hl hsp hpa => ?_⟩
  · obtain ⟨hin, q, hreqs, hkind, hqw, hqh, hspace, hlanes, hbound⟩ := presentStore_memory
      (s := presTaken s w h rest) (w := w) hi hl (by omega)
    rw [hu] at hin hreqs
    have hqueue : (u.iss w).presq = rest := by rw [hin.inEngines.iss, hrest]
    have htick : u.tick = s.tick := hin.inEngines.tick.trans htaken.tick
    have hall := (htaken.trans (hin.inEngines.undisturbed w)).trans hnext
    refine ⟨⟨q, ?_, hkind, hqw, hqh, hspace, hlanes, ?_⟩, (hkeep w).2.trans hqueue, fun hne => ?_, hall.same, hall.pend⟩
    · rw [hchip, hreqs, presTaken, chip_logEffect]
      rfl
    · rw [hbound, homeBound, htaken.tick]
    · rw [← htick]
      exact hagenda (by rwa [hqueue])
  · intro tc off c hck halign hinit
    obtain ⟨i, b, hcore⟩ := core_presTaken s w h rest w.cl tc
    obtain ⟨hheld, hbyte⟩ := presentStore_pool (s := presTaken s w h rest) (w := w) hi hl hsp hpa
      (by rw [hcore, htaken.tick]; exact hck) (by rw [hcore]; exact hinit)
    rw [hu] at hheld hbyte
    have hbytes (k : Nat) : (presNext u w).byte k =
        (s.setBytes (keySp w.cl tc off) (toBytes (2 ^ sz.toNat) (nth l.ops 0 0).toNat)).byte k := by
      rw [State.byte, hnext.mem, ← State.byte, hbyte, State.byte, setBytes_mem_congr htaken.mem, State.byte]
    have hkept := hheld.trans hkeep
    have hregs (v : Iss) : ((presTaken s w h rest).iss v).regs = (s.iss v).regs := by
      by_cases hv : v = w
      · rw [hv]; exact htaken.same.own
      · exact htaken.same.others v hv
    refine ⟨presNext u w, hexec, fun k hk => ?_, fun k hk => ?_, (hkept w).2.trans hrest, fun v => (hkept v).1.trans (hregs v)⟩
    · rw [hbytes]
      exact byte_setBytes_toBytes hwf.1 _ _ _ k hk
    · rw [hbytes]
      exact State.byte_setBytes_other (by rw [length_toBytes]; omega) hwf.1
end Sys2Proof.Machine


/-! ### Deliveries into windows (R42, R51, R52) -/
namespace Sys2Proof.Machine

theorem win_updCore_other (s : State) (cl co n : Nat) {f : Core → Core} (hk : KeepsKey f) (hw : ∀ c, (f c).wins = c.wins) :
    (s.updCore cl co f).win cl co n = s.win cl co n := by
  rw [State.win, core_updCore_same s cl co hk, Core.win, hw, ← Core.win, ← State.win]
/-- A flush does nothing when no command waits for the window (R302). -/
theorem flushWcmds_idle {s : State} {cl co n : Nat} (h : ((s.core cl co).wcmds.all fun x => x.win != n) = true) :
    flushWcmds s cl co n = s := by
  have hnone : ((s.core cl co).wcmds.find? fun x => x.win == n) = none :=
    List.find?_eq_none.2 fun x hx => by simpa using List.all_eq_true.1 h x hx
  rw [flushWcmds, runWcmds, hnone]

/-- A window is set full, and no command waits for it (R52). -/
theorem winFull_idle {s : State} {cl co n : Nat} (h : ((s.core cl co).wcmds.all fun x => x.win != n) = true) :
    (winFull s cl co n).mem = s.mem ∧ (winFull s cl co n).win cl co n =
        (s.win cl co n).stamped { s.win cl co n with state := .full } s.tick ∧
      ((winFull s cl co n).core cl co).scInit = (s.core cl co).scInit := by
  have hset := coreOf_setWinState s cl co n fun e => { e with state := .full }
  have hcore := core_updCore_same (setWinState s cl co n fun e => { e with state := .full }) cl co
    (f := fun c => { c with fills := c.fills.filter fun f => f.win != n }) fun _ => ⟨rfl, rfl⟩
  rw [hset] at hcore
  have hfull : winFull s cl co n = kickStreams (kickEngines ((setWinState s cl co n fun e => { e with state := .full }).updCore
      cl co fun c => { c with fills := c.fills.filter fun f => f.win != n }) cl co) cl co := by
    rw [winFull, flushWcmds_idle (by rw [hcore]; exact h)]
  rw [hfull]
  refine ⟨rfl, ?_, (congrArg Core.scInit hcore).trans rfl⟩
  refine (congrArg (Core.win · n) hcore).trans ?_
  exact win_setWin (s.core cl co) n _

/-- The window is faulted (R52): its producers and memory stay. -/
theorem faultWin_spec (s : State) (cl co n : Nat) (i : TrapInfo) : let t := faultWin s cl co n i
    (t.win cl co n).state = .faulted ∧ (t.win cl co n).fault.isSome = true ∧ (t.win cl co n).prods = (s.win cl co n).prods ∧
      t.mem = s.mem := by
  have hwin : (faultWin s cl co n i).win cl co n = (s.win cl co n).stamped
      { s.win cl co n with state := .faulted, fault := some (winRec s cl co n i) } s.tick := by
    rw [← win_setWinState s cl co n fun e => { e with state := .faulted, fault := some (winRec s cl co n i) }]
    have hkick (u : State) : (kickStreams (kickEngines u cl co) cl co).win cl co n = u.win cl co n := rfl
    refine (hkick _).trans (win_updCore_other _ cl co n ?_ ?_)
    · exact fun _ => ⟨rfl, rfl⟩
    · exact fun _ => rfl
  intro t
  simp only [t, hwin]
  exact ⟨Win.stamped_keeps (·.state) (fun _ _ => rfl) _ _ _,
    (Win.stamped_keeps (fun e => e.fault.isSome) (fun _ _ => rfl) _ _ _).trans rfl,
    Win.stamped_keeps (·.prods) (fun _ _ => rfl) _ _ _, rfl⟩

/-- A delivery that no producer word covers, out of state, or over the share faults the window (R51). -/
theorem deliverTo_faults {s : State} {d : Delivery} {n : Nat}
    (h : ∀ p, ((s.win d.cl d.co n).valid.find? fun p => p.kind == d.kind && p.pid == d.pid) = some p →
      ((s.win d.cl d.co n).state ≠ .absent ∧ (s.win d.cl d.co n).state ≠ .filling) ∨ p.share < p.count + d.data.length) :
    ∃ i, deliverTo s d n = faultWin s d.cl d.co n i := by
  rw [deliverTo]
  dsimp only
  split
  · exact ⟨_, rfl⟩
  · rename_i p hp
    split
    · exact ⟨_, rfl⟩
    · rename_i hst
      rw [if_pos]
      · exact ⟨_, rfl⟩
      · refine (h p hp).resolve_left fun hs => hst ?_
        simpa using hs

/-- An entry once a delivery has been counted (R51). -/
def Win.counted (e : Win) (d : Delivery) : Win :=
  { e with
    state := .filling, psn := e.psn || d.psn
    prods := e.prods.map fun q => if q.valid && q.kind == d.kind && q.pid == d.pid then
      { q with count := q.count + d.data.length } else q }
/-- A delivery's bytes, before it is counted (R42). -/
def written (s : State) (d : Delivery) : State :=
  let s := spWrite s d.cl d.co d.off d.data
  if d.psn then spPoison s d.cl d.co (d.off / 64) else s
theorem onlyPool_written (s : State) (d : Delivery) : OnlyPool s (written s d) := by
  rw [written]
  split
  · exact (onlyPool_spWrite s _ _ _ _).trans (onlyPool_spPoison _ _ _ _)
  · exact onlyPool_spWrite s _ _ _ _
theorem mem_written (s : State) (d : Delivery) : (written s d).mem = (spWrite s d.cl d.co d.off d.data).mem := by
  rw [written]
  split <;> rfl
theorem scInit_written (s : State) (d : Delivery) :
    Sparse.get false ((written s d).core d.cl d.co).scInit (d.off / 64) = true := by
  have hwrite := scInit_spWrite s d.cl d.co d.off d.data
  rw [written]
  split
  · refine (congrArg (fun c => Sparse.get false c.scInit (d.off / 64)) (core_updCore_same _ d.cl d.co ?_)).trans ?_
    · exact fun _ => ⟨rfl, rfl⟩
    · exact hwrite
  · exact hwrite

/-- A delivery that a window awaits is written and counted, and may complete the window (R51, R52). -/
theorem deliverTo_counts {s : State} {d : Delivery} {n : Nat} {p : Prod}
    (hp : ((s.win d.cl d.co n).valid.find? fun p => p.kind == d.kind && p.pid == d.pid) = some p)
    (hst : (s.win d.cl d.co n).state = .absent ∨ (s.win d.cl d.co n).state = .filling)
    (hroom : p.count + d.data.length ≤ p.share)
    (hidle : ((s.core d.cl d.co).wcmds.all fun x => x.win != n) = true) :
    let t := deliverTo s d n
    let e := (s.win d.cl d.co n).counted d
    let e' := t.win d.cl d.co n
    e'.prods = e.prods ∧ e'.psn = e.psn ∧ e'.state = (if e'.valid.all fun q => q.count == q.share then .full else .filling) ∧
      t.mem = (spWrite s d.cl d.co d.off d.data).mem ∧
      Sparse.get false (t.core d.cl d.co).scInit (d.off / 64) = true := by
  have hpool := onlyPool_written s d
  have hwin : (written s d).win d.cl d.co n = s.win d.cl d.co n := hpool.win _ _ _
  obtain ⟨u, hu⟩ : ∃ u, setWinState (written s d) d.cl d.co n (·.counted d) = u := ⟨_, rfl⟩
  have hmem : u.mem = (spWrite s d.cl d.co d.off d.data).mem := hu ▸ mem_written s d
  have hcore := coreOf_setWinState (written s d) d.cl d.co n (·.counted d)
  rw [hu, hwin] at hcore
  have huwin := win_setWinState (written s d) d.cl d.co n (·.counted d)
  rw [hu, hwin] at huwin
  have hinit : Sparse.get false (u.core d.cl d.co).scInit (d.off / 64) = true := by
    rw [hcore]
    exact scInit_written s d
  have hcmds : ((u.core d.cl d.co).wcmds.all fun x => x.win != n) = true := by
    rw [hcore]
    exact (congrArg (fun l : List WCmd => l.all fun x => x.win != n)
      (hpool.reads (·.wcmds) (fun _ _ _ _ => rfl) d.cl d.co)).trans hidle
  have hdeliver : deliverTo s d n =
      if (u.win d.cl d.co n).valid.all (fun q => q.count == q.share) then winFull u d.cl d.co n else u := by
    rw [deliverTo]
    simp only [hp]
    rw [if_neg (by rcases hst with h | h <;> rw [h] <;> decide), if_neg (by omega), ← hu]
    rfl
  have hprods : (u.win d.cl d.co n).prods = ((s.win d.cl d.co n).counted d).prods := by
    rw [huwin]; exact Win.stamped_keeps (·.prods) (fun _ _ => rfl) _ _ _
  have hpsn : (u.win d.cl d.co n).psn = ((s.win d.cl d.co n).counted d).psn := by
    rw [huwin]; exact Win.stamped_keeps (·.psn) (fun _ _ => rfl) _ _ _
  rw [hdeliver]
  split
  · rename_i hall
    obtain ⟨hfmem, hfwin, hfinit⟩ := winFull_idle hcmds
    have hfprods : ((winFull u d.cl d.co n).win d.cl d.co n).prods = (u.win d.cl d.co n).prods := by
      rw [hfwin]; exact Win.stamped_keeps (·.prods) (fun _ _ => rfl) _ _ _
    have hfpsn : ((winFull u d.cl d.co n).win d.cl d.co n).psn = (u.win d.cl d.co n).psn := by
      rw [hfwin]; exact Win.stamped_keeps (·.psn) (fun _ _ => rfl) _ _ _
    refine ⟨hfprods.trans hprods, hfpsn.trans hpsn, ?_, hfmem.trans hmem, by rw [hfinit]; exact hinit⟩
    rw [if_pos (by rw [Win.valid, hfprods]; exact hall), hfwin]
    exact Win.stamped_keeps (·.state) (fun _ _ => rfl) _ _ _
  · rename_i hall
    refine ⟨hprods, hpsn, ?_, hmem, hinit⟩
    rw [if_neg hall, huwin]
    exact Win.stamped_keeps (·.state) (fun _ _ => rfl) _ _ _

/-- A landing of a drain or an epilogue at a window is delivered to it, poisoned when its check code fails (R51, R193). -/
theorem exec_windowLanding {s : State} {d : Delivery} {n : Nat} {e : Win} {rest : List (Nat × Win)} (hk : d.kind = 1)
    (hw : (s.core d.cl d.co).winsAt d.off = (n, e) :: rest) : exec (.windowLanding d) s =
      .next (deliverTo (landCheck s).2 { d with psn := d.psn || (landCheck s).1 } n) := by
  change execWindowLanding d s = _
  have hcore : (landCheck s).2.core d.cl d.co = s.core d.cl d.co := rfl
  rw [execWindowLanding]
  simp only [hk, deliverAt, hcore, hw]

end Sys2Proof.Machine

/-! ### Debug events beside the cores (R440, R441) -/
namespace Sys2Proof.Machine

/-- No core changes, and nothing that is set is taken back. -/
structure BesideCores (s t : State) : Prop where
  cores : t.cores = s.cores
  tick : t.tick = s.tick
  agenda : ∀ e ∈ s.agenda, e ∈ t.agenda
theorem BesideCores.refl (s : State) : BesideCores s s := ⟨rfl, rfl, fun _ h => h⟩
theorem BesideCores.trans {s t u : State} (h : BesideCores s t) (k : BesideCores t u) : BesideCores s u :=
  ⟨k.cores.trans h.cores, k.tick.trans h.tick, fun e he => k.agenda e (h.agenda e he)⟩
theorem BesideCores.core {s t : State} (h : BesideCores s t) (cl co : Nat) : t.core cl co = s.core cl co := by
  rw [State.core, h.cores]; rfl
theorem besideCores_sched (s : State) (t : Nat) (o : Iss) (i : Instr) : BesideCores s (s.sched t o i) :=
  ⟨rfl, rfl, fun _ he => List.mem_append_left _ he⟩
theorem besideCores_lookupTlb (s : State) (cl : Nat) (pt : DWord) (va : Nat) (a : Acc) :
    BesideCores s (lookupTlb s cl pt va a).2 := by
  have hstart (key : Nat) (e : TlbE) (shared : Bool) : BesideCores s (startWalk s cl key e shared) :=
    ⟨rfl, rfl, fun _ he => List.mem_append_left _ he⟩
  unfold lookupTlb
  dsimp only
  split
  · exact .refl s
  · split
    · exact ⟨rfl, rfl, fun _ h => h⟩
    · split
      · exact hstart _ _ _
      · split
        · exact .refl s
        · exact .refl s
        · split
          · exact .refl s
          · exact hstart _ _ _
theorem besideCores_translate (s : State) (cl : Nat) (pt : DWord) (a : Acc) (ad : DWord) :
    BesideCores s (translate s cl pt a ad).2 := by
  have hlookup := besideCores_lookupTlb s cl pt (bits ad 0 51) a
  unfold translate
  dsimp only
  split
  · exact .refl s
  · split
    · split <;> exact .refl s
    · split
      · exact .refl s
      · split
        · rename_i h; rw [h] at hlookup; exact hlookup
        · rename_i h
          rw [h] at hlookup
          split <;> exact hlookup
theorem besideCores_ringKey (s : State) (off : Nat) : BesideCores s (ringKey s off).2 := by
  unfold ringKey
  dsimp only
  split <;> rename_i h
  · exact (congrArg (·.2) h) ▸ besideCores_translate s _ _ _ _
  · exact (congrArg (·.2) h) ▸ besideCores_translate s _ _ _ _
theorem besideCores_setBytes (s : State) (k : Nat) (l : List Byte) : BesideCores s (s.setBytes k l) := by
  rw [State.setBytes_eq]
  exact ⟨rfl, rfl, fun _ h => h⟩
theorem besideCores_ringWords (l : List DWord) (s : State) (off : Nat) : BesideCores s (ringWords s off l) := by
  induction l generalizing s off with
  | nil => exact .refl s
  | cons d l ih =>
    have hkey := besideCores_ringKey s off
    rw [ringWords]
    split
    · rename_i h
      rw [h] at hkey
      exact (hkey.trans (besideCores_setBytes _ _ _)).trans (ih _ _)
    · rename_i h
      rw [h] at hkey
      exact hkey.trans (ih _ _)
theorem besideCores_ringPut (s : State) (rec : List DWord) : BesideCores s (ringPut s rec) := by
  have hkey := besideCores_ringKey s 8
  unfold ringPut
  split
  · exact .refl s
  · extract_lets n w wraps off
    generalize ringKey s 8 = p at *
    obtain ⟨k, u⟩ := p
    dsimp -zeta only
    extract_lets ridx hits
    refine hkey.trans ?_
    split
    · exact ⟨rfl, rfl, fun _ h => h⟩
    · have hset : BesideCores (ringWords u off rec)
          { ringWords u off rec with dbg := { (ringWords u off rec).dbg with widx := off + n } } := ⟨rfl, rfl, fun _ h => h⟩
      exact ((besideCores_ringWords rec u off).trans hset).trans (besideCores_ringWords _ _ _)
theorem besideCores_cmdEvent (s : State) (w : Iss) (ev engine queue seq : Nat) (h : Held) :
    BesideCores s (cmdEvent s w ev engine queue seq h) := by
  unfold cmdEvent
  split
  · exact besideCores_ringPut s _
  · exact .refl s

end Sys2Proof.Machine

/-! ### Drains (R302, R423) -/
namespace Sys2Proof.Machine

/-- The request that starts, as far as a drain's answer reads it (R58). -/
theorem startReqAt_sends (s : State) (q : Req) (vas : List DWord) : ∃ p ∈ (startReqAt s q vas).chip.reqs,
    p.kind = q.kind ∧ p.dest = q.dest ∧ p.sectors = q.sectors ∧ p.data = q.data := by
  unfold startReqAt
  extract_lets ws fabric
  generalize (if checkCoded q.kind then landCheck s else (false, s)) = r
  obtain ⟨bad, s1⟩ := r
  dsimp -zeta only
  extract_lets me p s2
  have hmem : p ∈ s2.chip.reqs := by
    rw [show s2.chip.reqs = s1.chip.reqs ++ [p] from reqs_domPublish _ _]
    exact List.mem_append_right _ (List.mem_singleton.2 rfl)
  refine ⟨p, ?_, rfl, rfl, rfl, rfl⟩
  split
  · rw [(Unmoved.foldl (fun s sec => unmoved_sendSector s p sec) p.sectors s2).chip]
    exact hmem
  · exact hmem

/-- A window's drain has passed on one sector more. -/
def drainStepped (s : State) : State := s.updCore s.cur.cl s.cur.co fun c => { c with drains := c.drains.map fun x =>
  if x.win = s.cur.n then { x with next := x.next + 1 } else x }

/-- A sector stands at the end of a stream's queue (R423). -/
def streamQueued (s : State) (st : Nat) (f : Flit) : State :=
  { s with net := { s.net with sendq := assocSet s.net.sendq st ((assoc s.net.sendq st).getD [] ++ [f]) } }
/-- The sector of a drain as its stream sends it. -/
def drainFlit (s : State) (w : Iss) (d : Xfer) (off : Nat) : Flit :=
  ⟨d.next, !((s.coreOf w).psnAt off),
    (List.range 8).map fun k => BitVec.ofNat 64 (leNat (((spSector s w.cl w.co off).drop (8 * k)).take 8))⟩
/-- A drain's sector goes to the stream that takes it, and the next one follows at once (R423). -/
theorem drainSector_stream {s : State} {d : Xfer} {st k : Nat}
    (hd : ((s.coreOf s.cur).drains.find? fun d => d.win == s.cur.n) = some d)
    (hst : streamOf s s.cur.cl s.cur.co s.cur.n = some (st, k)) : Completes .drainSector s fun t =>
      t.cores = (drainStepped s).cores ∧ (assoc t.net.sendq st).getD [] = (assoc s.net.sendq st).getD [] ++
        [drainFlit s s.cur d (((s.coreOf s.cur).win s.cur.n).sector d.next).2] ∧
      (d.next + 1 < d.total → (s.tick, s.cur, Instr.drainSector) ∈ t.agenda) := by
  have hst' : streamOf (drainStepped s) s.cur.cl s.cur.co s.cur.n = some (st, k) := hst
  let q := streamQueued (drainStepped s) st (drainFlit s s.cur d (((s.coreOf s.cur).win s.cur.n).sector d.next).2)
  let u := if d.next % 4 = 3 ∨ d.next + 1 = d.total then q.sched (q.tick + 5) (obj st) .flitSend else q
  have hexec : exec .drainSector s =
      if d.next + 1 < d.total then .next (u.sched u.tick s.cur .drainSector) else .next u := by
    change execDrainSector s = _
    unfold execDrainSector
    dsimp only
    rw [hd]
    dsimp only
    rw [← drainStepped, hst']
    rfl
  have hsent : (assoc q.net.sendq st).getD [] = (assoc s.net.sendq st).getD [] ++
      [drainFlit s s.cur d (((s.coreOf s.cur).win s.cur.n).sector d.next).2] := by
    simp only [q, streamQueued, assoc_assocSet_same]
    rfl
  have hu : u.cores = q.cores ∧ u.net = q.net ∧ u.tick = q.tick := by
    unfold u
    split <;> exact ⟨rfl, rfl, rfl⟩
  obtain ⟨hcores, hnet, htick⟩ := hu
  by_cases hmore : d.next + 1 < d.total
  · refine ⟨u.sched u.tick s.cur .drainSector, hexec.trans (if_pos hmore), hcores, ?_, fun _ => ?_⟩
    · rw [← hsent, ← hnet]; rfl
    · refine List.mem_append_right _ (List.mem_singleton.2 ?_)
      rw [htick]; rfl
  · exact ⟨u, hexec.trans (if_neg hmore), hcores, by rw [hnet, hsent], fun h => absurd h hmore⟩

/-- A drain's sector goes over the crossbar to a scratchpad of the cluster (R302). -/
theorem drainSector_pool {s : State} {d : Xfer} {tc o : Nat}
    (hd : ((s.coreOf s.cur).drains.find? fun d => d.win == s.cur.n) = some d)
    (hst : streamOf s s.cur.cl s.cur.co s.cur.n = none)
    (hsp : 3 < spaceOf (((s.coreOf s.cur).win s.cur.n).sector d.next).1)
    (hq : poolAddr s.cur.co (((s.coreOf s.cur).win s.cur.n).sector d.next).1 = some (tc, o))
    (hroom : o + 64 ≤ (s.core s.cur.cl tc).scSize) :
    let off := (((s.coreOf s.cur).win s.cur.n).sector d.next).2
    Completes .drainSector s fun t =>
      (s.tick + 28, ⟨s.cur.cl, s.cur.co, 2 ^ 32 + s.cur.n⟩, Instr.windowLanding ⟨s.cur.cl, tc, o, 1, s.cur.co,
        (s.coreOf s.cur).psnAt off, spSector s s.cur.cl s.cur.co off⟩) ∈ t.agenda ∧
      (if d.next + 1 = d.total then (s.tick + 28, s.cur, Instr.drainComplete) ∈ t.agenda
        else d.next + 1 < d.total → (s.tick + (s.coreOf s.cur).fill, s.cur, Instr.drainSector) ∈ t.agenda) := by
  intro off
  have hst' : streamOf (drainStepped s) s.cur.cl s.cur.co s.cur.n = none := hst
  have hsize : ((drainStepped s).core s.cur.cl tc).scSize = (s.core s.cur.cl tc).scSize := by
    refine scSize_of_regs (InEngines.regs (inEngines_updCore s s.cur.cl s.cur.co ?_ ?_ ?_) s.cur.cl tc)
    · exact fun _ => ⟨rfl, rfl⟩
    · exact fun _ => rfl
    · exact fun _ => rfl
  let q := (drainStepped s).sched (s.tick + 28) ⟨s.cur.cl, s.cur.co, 2 ^ 32 + s.cur.n⟩
    (.windowLanding ⟨s.cur.cl, tc, o, 1, s.cur.co, (s.coreOf s.cur).psnAt off, spSector s s.cur.cl s.cur.co off⟩)
  let u := q.updCore s.cur.cl s.cur.co fun c => { c with drains := c.drains.map fun x =>
    if x.win = s.cur.n then { x with done := x.done + 1 } else x }
  have hexec : exec .drainSector s = .next (if d.next + 1 = d.total then u.sched (s.tick + 28) s.cur .drainComplete
      else if d.next + 1 < d.total then u.sched (s.tick + (s.coreOf s.cur).fill) s.cur .drainSector else u) := by
    change execDrainSector s = _
    unfold execDrainSector
    dsimp only
    rw [hd]
    dsimp only
    rw [← drainStepped, hst']
    dsimp only
    rw [if_pos hsp, hq]
    dsimp only
    rw [if_pos (by rw [hsize]; exact hroom)]
    rfl
  have hland : (s.tick + 28, (⟨s.cur.cl, s.cur.co, 2 ^ 32 + s.cur.n⟩ : Iss), Instr.windowLanding ⟨s.cur.cl, tc, o, 1, s.cur.co,
      (s.coreOf s.cur).psnAt off, spSector s s.cur.cl s.cur.co off⟩) ∈ u.agenda :=
    List.mem_append_right _ (List.mem_singleton.2 rfl)
  refine ⟨_, hexec, ?_, ?_⟩
  · split
    · exact (besideCores_sched u _ _ _).agenda _ hland
    · split
      · exact (besideCores_sched u _ _ _).agenda _ hland
      · exact hland
  · split
    · exact List.mem_append_right _ (List.mem_singleton.2 rfl)
    · intro hmore
      rw [if_pos hmore]
      exact List.mem_append_right _ (List.mem_singleton.2 rfl)

/-- A drain's sector is sent to its home in memory, and the next one follows a fill period later (R302). -/
theorem drainSector_memory {s s2 : State} {d : Xfer} {pa : Nat} {pte : DWord}
    (hd : ((s.coreOf s.cur).drains.find? fun d => d.win == s.cur.n) = some d)
    (hst : streamOf (drainStepped s) s.cur.cl s.cur.co s.cur.n = none)
    (hsp : spaceOf (((s.coreOf s.cur).win s.cur.n).sector d.next).1 ≤ 3) (hwatch : s.dbg.watches = [])
    (htrans : translate (drainStepped s) s.cur.cl (s.coreOf s.cur).ptw .write
      (((s.coreOf s.cur).win s.cur.n).sector d.next).1 = (.ok (pa, pte), s2)) :
    Completes .drainSector s fun t =>
      (∃ q ∈ t.chip.reqs, q.kind = .drain ∧ q.dest = [(s.cur.n, d.next)] ∧ q.sectors = [pa / 64] ∧
        q.data = spSector s s.cur.cl s.cur.co (((s.coreOf s.cur).win s.cur.n).sector d.next).2) ∧
      (d.next + 1 < d.total → (s2.tick + (s.coreOf s.cur).fill, s.cur, Instr.drainSector) ∈ t.agenda) := by
  have hquiet (h : Held) (w : Iss) (rd : Bool) (task : Nat) (va : DWord) (n : Nat) (data : DWord) :
      watchEngine (drainStepped s) h w rd task va n data = drainStepped s := by
    have hempty : (drainStepped s).dbg.watches.isEmpty = true := by
      rw [show (drainStepped s).dbg.watches = [] from hwatch]; rfl
    rw [watchEngine, hempty]
    rfl
  have hexec : ∃ q : Req, exec .drainSector s = .next (
      let u := startReqAt s2.fresh.2 q [(((s.coreOf s.cur).win s.cur.n).sector d.next).1]
      if d.next + 1 < d.total then u.sched (u.tick + (s.coreOf s.cur).fill) s.cur .drainSector else u) ∧
      q.kind = .drain ∧ q.dest = [(s.cur.n, d.next)] ∧ q.sectors = [pa / 64] ∧
        q.data = spSector s s.cur.cl s.cur.co (((s.coreOf s.cur).win s.cur.n).sector d.next).2 := by
    obtain ⟨T, hT⟩ : ∃ T, exec .drainSector s = T := ⟨_, rfl⟩
    rw [hT]
    change execDrainSector s = T at hT
    unfold execDrainSector at hT
    dsimp only at hT
    rw [hd] at hT
    dsimp only at hT
    rw [← drainStepped, hst] at hT
    dsimp only at hT
    rw [if_neg (by omega), hquiet, htrans] at hT
    rw [← hT]
    exact ⟨_, rfl, rfl, rfl, rfl, rfl⟩
  obtain ⟨q, hexec, hkind, hdest, hsectors, hdata⟩ := hexec
  obtain ⟨p, hp, hpkind, hpdest, hpsectors, hpdata⟩ := startReqAt_sends s2.fresh.2 q
    [(((s.coreOf s.cur).win s.cur.n).sector d.next).1]
  have htick := (startReqAt_spec s2.fresh.2 q [(((s.coreOf s.cur).win s.cur.n).sector d.next).1]).1.tick
  refine ⟨_, hexec, ⟨p, ?_, hpkind.trans hkind, hpdest.trans hdest, hpsectors.trans hsectors, hpdata.trans hdata⟩,
    fun hmore => ?_⟩
  · dsimp only
    split
    · exact hp
    · exact hp
  · dsimp only
    rw [if_pos hmore]
    refine List.mem_append_right _ (List.mem_singleton.2 ?_)
    rw [htick]
    rfl

/-- What the end of a drain does once its event has been recorded (R52, R302). -/
def drainEnds (s : State) (w : Iss) : State :=
  let s := s.updCore w.cl w.co fun c => { c with drains := c.drains.filter fun x => x.win != w.n }
  if (s.win w.cl w.co w.n).state = .draining then
    let s := setWinState s w.cl w.co w.n fun e => { e with state := .free }
    kickStreams (kickEngines (flushWcmds s w.cl w.co w.n) w.cl w.co) w.cl w.co
  else s
theorem exec_drainComplete (s : State) : ∃ u, BesideCores s u ∧ exec .drainComplete s = .next (drainEnds u s.cur) := by
  obtain ⟨T, hT⟩ : ∃ T, exec .drainComplete s = T := ⟨_, rfl⟩
  rw [hT]
  change execDrainComplete s = T at hT
  unfold execDrainComplete at hT
  dsimp only at hT
  cases hdh : ((s.coreOf s.cur).drains.find? fun d => d.win == s.cur.n).bind (·.h) with
  | none =>
    refine ⟨s, .refl s, ?_⟩
    rw [← hT, hdh, drainEnds]
    dsimp only
    split <;> rfl
  | some h =>
    refine ⟨_, besideCores_cmdEvent s ⟨s.cur.cl, s.cur.co, 16⟩ 2 4 s.cur.n (s.win s.cur.cl s.cur.co s.cur.n).seq h, ?_⟩
    rw [← hT, hdh, drainEnds]
    dsimp only
    split <;> rfl
/-- The end of a drain frees its window when no command waits for it. -/
theorem drainEnds_spec {s : State} {w : Iss} (hst : ((s.coreOf w).win w.n).state = .draining)
    (hidle : ((s.coreOf w).wcmds.all fun x => x.win != w.n) = true) :
    (((drainEnds s w).coreOf w).win w.n).state = .free ∧
      ((drainEnds s w).coreOf w).drains = (s.coreOf w).drains.filter fun d => d.win != w.n := by
  let c := { s.coreOf w with drains := (s.coreOf w).drains.filter fun x => x.win != w.n }
  let v := s.updCore w.cl w.co fun c => { c with drains := c.drains.filter fun x => x.win != w.n }
  have hv : v.core w.cl w.co = c := by
    refine (core_updCore_same s w.cl w.co ?_).trans rfl
    exact fun _ => ⟨rfl, rfl⟩
  let f := setWinState v w.cl w.co w.n fun e => { e with state := .free }
  have hf : f.core w.cl w.co = c.setWin w.n ((c.win w.n).stamped { c.win w.n with state := .free } v.tick) := by
    rw [coreOf_setWinState, State.win, hv]
  have hends : drainEnds s w = kickStreams (kickEngines f w.cl w.co) w.cl w.co := by
    have hflush : flushWcmds f w.cl w.co w.n = f := flushWcmds_idle (by rw [hf]; exact hidle)
    have hdraining : (v.win w.cl w.co w.n).state = .draining := by rw [State.win, hv]; exact hst
    rw [drainEnds]
    dsimp only
    rw [if_pos hdraining, hflush]
  rw [hends]
  refine ⟨?_, (congrArg Core.drains hf).trans rfl⟩
  refine (congrArg (fun c => (Core.win c w.n).state) hf).trans ?_
  rw [win_setWin]
  exact Win.stamped_keeps (·.state) (fun _ _ => rfl) _ _ _

/-- Settles O39: a delivery is counted or faults its window, a drain's sectors leave by one of three ways, and its end frees
the window. -/
theorem windowDeliveries : Obligations.WindowDeliveries := by
  unfold Obligations.WindowDeliveries
  intro s hwf
  refine ⟨?_, ?_, ?_⟩
  · intro d n e0 rest c e who hk hw
    refine ⟨fun p hp hst hroom hin hidle => ?_, fun hbad => ?_⟩
    · obtain ⟨hprods, hpsn, hstate, hmem, hinit⟩ := deliverTo_counts (s := (landCheck s).2)
        (d := { d with psn := d.psn || (landCheck s).1 }) (n := n) hp hst hroom hidle
      have hmem' : (deliverTo (landCheck s).2 { d with psn := d.psn || (landCheck s).1 } n).mem =
        (spWrite (landCheck s).2 d.cl d.co d.off d.data).mem := hmem
      refine ⟨_, exec_windowLanding hk hw, ?_, hpsn, hstate, ?_, hinit, fun k hk => ?_⟩
      · refine hprods.trans (List.map_congr_left fun q _ => ?_)
        simp only [who, Bool.and_assoc]
      · rw [bytes_of_mem hmem']
        exact bytes_spWrite (s := (landCheck s).2) hwf.1 _ _ _ _
      · rw [State.byte, hmem', ← State.byte]
        exact byte_spWrite_other (s := (landCheck s).2) hwf.1 hin hk
    · obtain ⟨i, hi⟩ := deliverTo_faults (s := (landCheck s).2) (d := { d with psn := d.psn || (landCheck s).1 }) (n := n) hbad
      obtain ⟨hstate, hfault, hprods, hmem⟩ := faultWin_spec (landCheck s).2 d.cl d.co n i
      refine ⟨_, (exec_windowLanding hk hw).trans (congrArg _ hi), hstate, hfault, hprods, fun k => ?_⟩
      rw [State.byte, hmem]
      rfl
  · intro d w c a off bs s1 hd
    refine ⟨fun st k hst => ?_, fun hst hsp tc o hq hroom => drainSector_pool hd hst hsp hq hroom,
      fun hst hsp hwatch pa pte s2 htrans => drainSector_memory hd hst hsp hwatch htrans⟩
    obtain ⟨t, hexec, hcores, hsent, hmore⟩ := drainSector_stream hd hst
    exact ⟨t, hexec, hsent, by rw [State.coreOf, State.core, hcores]; rfl, hmore⟩
  · intro w c hst hidle
    obtain ⟨u, hu, hexec⟩ := exec_drainComplete s
    have hcore : u.coreOf w = s.coreOf w := hu.core w.cl w.co
    obtain ⟨hfree, hdrains⟩ := drainEnds_spec (s := u) (w := w) (by rw [hcore]; exact hst) (by rw [hcore]; exact hidle)
    exact ⟨_, hexec, hfree, by rw [hdrains, hcore]⟩
end Sys2Proof.Machine


/-! ### Commands of windows that wait: what they leave of the engines (R52, R302) -/
namespace Sys2Proof.Machine

/-- What a core's matrix engine and gather unit hold, that no window's command touches. -/
def Core.atWork (c : Core) : List Ver × List (Nat × Rec) × Option MCmd := (c.vers, c.tileFault, c.gatRun)
/-- The engines go on as they were. -/
def KeepsWork (s t : State) : Prop := ∀ cl co, (t.core cl co).atWork = (s.core cl co).atWork
theorem KeepsWork.refl (s : State) : KeepsWork s s := fun _ _ => rfl
theorem KeepsWork.trans {s t u : State} (h : KeepsWork s t) (k : KeepsWork t u) : KeepsWork s u :=
  fun cl co => (k cl co).trans (h cl co)
theorem KeepsWork.foldl {α : Type} {f : State → α → State} (h : ∀ s a, KeepsWork s (f s a)) (l : List α) (s : State) :
    KeepsWork s (l.foldl f s) := by
  induction l generalizing s with
  | nil => exact .refl s
  | cons a l ih => exact (h s a).trans (ih _)
theorem keepsWork_updCore (s : State) (cl co : Nat) {f : Core → Core} (hk : KeepsKey f) (hw : ∀ c, (f c).atWork = c.atWork) :
    KeepsWork s (s.updCore cl co f) := fun cl' co' => by
  rw [core_updCore _ _ _ _ _ _ hk]
  split
  · rename_i h; rw [hw, h.1, h.2]
  · rfl
theorem OnlyPool.keepsWork {s t : State} (h : OnlyPool s t) : KeepsWork s t :=
  fun cl co => h.reads (·.atWork) (fun _ _ _ _ => rfl) cl co
theorem BesideCores.keepsWork {s t : State} (h : BesideCores s t) : KeepsWork s t := fun cl co => by rw [h.core]

/-- Memory stays too. -/
structure WindowsOnly (s t : State) : Prop where
  mem : t.mem = s.mem
  work : KeepsWork s t
theorem WindowsOnly.refl (s : State) : WindowsOnly s s := ⟨rfl, .refl s⟩
theorem WindowsOnly.trans {s t u : State} (h : WindowsOnly s t) (k : WindowsOnly t u) : WindowsOnly s u :=
  ⟨k.mem.trans h.mem, h.work.trans k.work⟩
theorem WindowsOnly.foldl {α : Type} {f : State → α → State} (h : ∀ s a, WindowsOnly s (f s a)) (l : List α) (s : State) :
    WindowsOnly s (l.foldl f s) := by
  induction l generalizing s with
  | nil => exact .refl s
  | cons a l ih => exact (h s a).trans (ih _)
theorem windowsOnly_updCore (s : State) (cl co : Nat) {f : Core → Core} (hk : KeepsKey f) (hw : ∀ c, (f c).atWork = c.atWork) :
    WindowsOnly s (s.updCore cl co f) := ⟨rfl, keepsWork_updCore s cl co hk hw⟩
theorem windowsOnly_setWinState (s : State) (cl co n : Nat) (f : Win → Win) : WindowsOnly s (setWinState s cl co n f) := by
  refine windowsOnly_updCore s cl co ?_ ?_
  · exact fun _ => ⟨rfl, rfl⟩
  · exact fun _ => rfl
theorem windowsOnly_startDrain (s : State) (cl co n : Nat) (h : Held) (slot : Nat) (stm : Option Nat) :
    WindowsOnly s (startDrain s cl co n h slot stm) := by
  unfold startDrain
  extract_lets e x s1 s2
  have h1 : WindowsOnly s s1 := windowsOnly_setWinState s cl co n _
  have h2 : WindowsOnly s1 s2 := windowsOnly_updCore s1 cl co (fun _ => ⟨rfl, rfl⟩) fun _ => rfl
  split <;> exact (h1.trans h2).trans ⟨rfl, fun _ _ => rfl⟩
theorem windowsOnly_presentWdef (s : State) (w : Iss) (h : Held) (hd : Nat) : WindowsOnly s (presentWdef s w h hd) := by
  unfold presentWdef
  extract_lets idx ok im r
  have h1 : WindowsOnly s (s.updIss w fun me => { me with defAt := some (hd, s.tick) }) :=
    windowsOnly_updCore s w.cl w.co (keeps_setIss _) fun _ => rfl
  refine h1.trans (windowsOnly_updCore _ w.cl w.co (fun c => ?_) fun c => ?_)
  · split <;> exact ⟨rfl, rfl⟩
  · split <;> rfl
theorem windowsOnly_actWcmd (s : State) (cl co : Nat) (x : WCmd) : WindowsOnly s (actWcmd s cl co x) := by
  unfold actWcmd
  extract_lets w
  split
  · split
    · exact .refl s
    · exact windowsOnly_startDrain s _ _ _ _ _ _
  · split
    · exact .refl s
    · exact windowsOnly_startDrain s _ _ _ _ _ _
  · exact windowsOnly_setWinState s _ _ _ _
  · exact windowsOnly_presentWdef s _ _ _
  · exact .refl s
theorem windowsOnly_runWcmds (cl co n f : Nat) (s : State) : WindowsOnly s (runWcmds s cl co n f) := by
  induction f generalizing s with
  | zero => exact .refl s
  | succ f ih =>
    rw [runWcmds]
    split
    · exact .refl s
    · split
      · rename_i x _ _
        have h1 : WindowsOnly s (s.updCore cl co fun c => { c with wcmds := c.wcmds.erase x }) :=
          windowsOnly_updCore s cl co (fun _ => ⟨rfl, rfl⟩) fun _ => rfl
        exact (h1.trans (windowsOnly_actWcmd _ cl co x)).trans (ih _)
      · exact .refl s
theorem windowsOnly_flushWcmds (s : State) (cl co n : Nat) : WindowsOnly s (flushWcmds s cl co n) :=
  windowsOnly_runWcmds cl co n _ s
theorem windowsOnly_unlock (s : State) (cl co : Nat) (f : Lock → Bool) : WindowsOnly s (unlock s cl co f) := by
  unfold unlock
  refine WindowsOnly.trans (t := s.updCore cl co fun c => { c with locks := c.locks.filter fun l => !f l })
    (windowsOnly_updCore s cl co (fun _ => ⟨rfl, rfl⟩) fun _ => rfl) ?_
  exact WindowsOnly.foldl (f := fun s n => flushWcmds s cl co n) (fun s n => windowsOnly_flushWcmds s cl co n) _ _
theorem windowsOnly_dropCmds (s : State) (cl co : Nat) (f : MCmd → Bool) : WindowsOnly s (dropCmds s cl co f) := by
  unfold dropCmds
  exact (windowsOnly_updCore s cl co (f := fun c => { c with matq := c.matq.filter fun p => !f p })
    (fun _ => ⟨rfl, rfl⟩) fun _ => rfl).trans (windowsOnly_unlock _ cl co _)
/-- Locks that end with no command waiting: nothing else happens (R320). -/
theorem unlock_idle {s : State} {cl co : Nat} (f : Lock → Bool) (h : (s.core cl co).wcmds = []) :
    unlock s cl co f = s.updCore cl co fun c => { c with locks := c.locks.filter fun l => !f l } := by
  have hkeep (l : List Nat) (u : State) (hu : (u.core cl co).wcmds = []) :
      l.foldl (fun s n => flushWcmds s cl co n) u = u := by
    induction l with
    | nil => rfl
    | cons n l ih => rw [List.foldl_cons, flushWcmds_idle (by rw [hu]; rfl), ih]
  refine hkeep _ _ ?_
  refine (congrArg Core.wcmds (core_updCore_same s cl co ?_)).trans h
  exact fun _ => ⟨rfl, rfl⟩
/-- A tile is faulted, and the versions stay (R321). -/
theorem faultTile_spec (s : State) (cl co t : Nat) (r : Rec) : ((faultTile s cl co t r).core cl co).vers = (s.core cl co).vers ∧
    assoc ((faultTile s cl co t r).core cl co).tileFault t = some r := by
  have hset : (s.updCore cl co fun c => { c with tileFault := assocSet c.tileFault t r }).core cl co =
      { s.core cl co with tileFault := assocSet (s.core cl co).tileFault t r } := by
    refine core_updCore_same s cl co ?_
    exact fun _ => ⟨rfl, rfl⟩
  have hdrop := (windowsOnly_dropCmds (s.updCore cl co fun c => { c with tileFault := assocSet c.tileFault t r }) cl co
    fun q => onTile q.h.i == some t).work cl co
  rw [hset] at hdrop
  exact ⟨congrArg (·.1) hdrop, (congrArg (fun p => assoc p.2.1 t) hdrop).trans (assoc_assocSet_same _ _ _)⟩

theorem keepsWork_winFull (s : State) (cl co n : Nat) : KeepsWork s (winFull s cl co n) := by
  unfold winFull
  extract_lets s1 s2
  have h1 : KeepsWork s s1 := (windowsOnly_setWinState s cl co n _).work
  have h2 : KeepsWork s1 s2 := keepsWork_updCore s1 cl co (fun _ => ⟨rfl, rfl⟩) fun _ => rfl
  have h3 : KeepsWork s2 (flushWcmds s2 cl co n) := (windowsOnly_flushWcmds s2 cl co n).work
  exact ((h1.trans h2).trans h3).trans fun _ _ => rfl
theorem keepsWork_faultWin (s : State) (cl co n : Nat) (i : TrapInfo) : KeepsWork s (faultWin s cl co n i) := by
  unfold faultWin faultWinRec
  extract_lets s1
  have h1 : KeepsWork s s1 := (windowsOnly_setWinState s cl co n _).work
  have h2 : KeepsWork s1 (s1.updCore cl co fun c => { c with fills := c.fills.filter fun f => f.win != n }) :=
    keepsWork_updCore s1 cl co (fun _ => ⟨rfl, rfl⟩) fun _ => rfl
  exact (h1.trans h2).trans fun _ _ => rfl
theorem keepsWork_deliverTo (s : State) (d : Delivery) (n : Nat) : KeepsWork s (deliverTo s d n) := by
  unfold deliverTo
  extract_lets e info
  split
  · exact keepsWork_faultWin s _ _ _ _
  · split
    · exact keepsWork_faultWin s _ _ _ _
    · split
      · exact keepsWork_faultWin s _ _ _ _
      · rename_i s1 s2 s3 _ _ _ _ _
        have h12 : KeepsWork s s2 := (onlyPool_written s d).keepsWork
        have h3 : KeepsWork s2 s3 := (windowsOnly_setWinState s2 d.cl d.co n _).work
        split
        · exact (h12.trans h3).trans (keepsWork_winFull s3 _ _ _)
        · exact h12.trans h3
theorem keepsWork_deliverRow (s : State) (cl co n off len : Nat) (bs : List Byte) :
    KeepsWork s (deliverRow s cl co n off len bs) := by
  unfold deliverRow
  refine KeepsWork.foldl (fun s k => ?_) _ s
  dsimp only
  split
  · exact .refl s
  · exact keepsWork_deliverTo s _ n

end Sys2Proof.Machine


/-! ### The start of a matrix command (R318, R325, R331) -/
namespace Sys2Proof.Machine

theorem besideCores_count (s : State) (ev : Nat) (w : Iss) (n : Nat) : BesideCores s (s.count ev w n) := by
  obtain ⟨l, hl⟩ := count_eq s ev w n
  rw [hl]
  exact ⟨rfl, rfl, fun _ h => h⟩
/-- A tile's new words depend on the core and on memory alone. -/
theorem tileResult_congr {s t : State} {cl co : Nat} (hc : t.core cl co = s.core cl co) (hm : t.mem = s.mem) (h : Held) :
    tileResult t cl co h = tileResult s cl co h := by
  simp only [tileResult, readMat, spRead, hc, bytes_of_mem hm]

/-- The array is taken (R318): locks that the command's windows keep, and what is set for its end. -/
def arrayTaken (s : State) (cl co lid occ rel : Nat) (ls : Core → List Lock) : State :=
  let s := s.updCore cl co fun c => { c with matBusy := s.tick + occ, locks := ls c }
  let s := if rel = 0 then s else s.sched (s.tick + rel) ⟨cl, co, lid⟩ .operandRelease
  s.sched (s.tick + occ) ⟨cl, co, 0⟩ .matrixCommandStart
/-- A version of a tile is pending (R331). -/
def versionPending (s : State) (cl co k at_ ret : Nat) (data : Sparse Word) (h : Held) : State :=
  (s.fresh.2.updCore cl co fun c =>
    { c with vers := c.vers ++ [⟨s.fresh.1, k, at_, s.tick, s.tick + ret, false, data, false, h⟩] }).sched
    (s.tick + ret) ⟨cl, co, s.fresh.1⟩ .accRetire

/-- The version that a command writes, when it writes a tile (R330). -/
def versionAdded (s : State) (cl co at_ ret : Nat) (data : Sparse Word) (h : Held) : Option Nat → State
  | none => s
  | some k => versionPending s cl co k at_ ret data h

/-- A command's start is recorded, and a product counted (R441). -/
def cmdCounted (s : State) (cl co seq : Nat) (h : Held) : State :=
  let s := cmdEvent s ⟨cl, co, 16⟩ 1 1 0 seq h
  match h.i with
  | .mma .. | .mmas .. => s.count 3 ⟨cl, co, 16⟩ 1
  | _ => s
theorem besideCores_cmdCounted (s : State) (cl co seq : Nat) (h : Held) : BesideCores s (cmdCounted s cl co seq h) := by
  have hevent := besideCores_cmdEvent s ⟨cl, co, 16⟩ 1 1 0 seq h
  unfold cmdCounted
  dsimp only
  split
  · exact hevent.trans (besideCores_count _ _ _ _)
  · exact hevent.trans (besideCores_count _ _ _ _)
  · exact hevent
/-- A command whose windows fit takes the array (R318). -/
theorem startCmd_fits {s : State} {cl co : Nat} {h : Held} (seq at_ : Nat) (hfit : operandFault (s.core cl co) h.i h.wins = none)
    (hlatch : ∀ o l, h.i ≠ .mma o true l) : ∃ u ls lid, BesideCores s u ∧ startCmd s cl co h seq at_ =
      versionAdded (arrayTaken u cl co lid (cmdTimes h.i).1 (cmdTimes h.i).2.1 ls) cl co at_ (cmdTimes h.i).2.2
        (tileResult s cl co h) h (destTile h.i) := by
  obtain ⟨T, hT⟩ : ∃ T, startCmd s cl co h seq at_ = T := ⟨_, rfl⟩
  rw [hT]
  unfold startCmd at hT
  generalize cmdTimes h.i = times at *
  obtain ⟨occ, rel, ret⟩ := times
  dsimp only at hT ⊢
  rw [hfit] at hT
  dsimp only at hT
  split at hT
  · rename_i hbad
    split at hbad
    · rename_i hi; exact absurd hi (hlatch _ _)
    · cases hbad
  · cases hd : destTile h.i with
    | none =>
      rw [hd] at hT
      exact ⟨cmdCounted s cl co seq h, _, _, besideCores_cmdCounted s cl co seq h, hT.symm⟩
    | some k =>
      rw [hd] at hT
      exact ⟨cmdCounted s cl co seq h, _, _, besideCores_cmdCounted s cl co seq h, hT.symm⟩
end Sys2Proof.Machine


/-! ### The array is taken, and what started stands in the core (R318, R325, R331) -/
namespace Sys2Proof.Machine

/-- What has started of a command in a core as it was: the array's occupancy, and the version of the command's tile. -/
def CmdStarted (c : Core) (tick : Nat) (data : Sparse Word) (t : State) (cl co : Nat) (h : Held) : Prop :=
  (t.core cl co).matBusy = tick + (cmdTimes h.i).1 ∧
  (∀ k, destTile h.i = some k → ∃ v, (t.core cl co).vers = c.vers ++ [v] ∧ v.tile = k ∧ v.h.i = h.i ∧
    v.start = tick ∧ v.retireAt = tick + (cmdTimes h.i).2.2 ∧ v.retired = false ∧
    v.data = data ∧ (v.retireAt, ⟨cl, co, v.id⟩, Instr.accRetire) ∈ t.agenda) ∧
  (destTile h.i = none → (t.core cl co).vers = c.vers)
theorem CmdStarted.beside {c : Core} {tick : Nat} {data : Sparse Word} {t u : State} {cl co : Nat} {h : Held}
    (hs : CmdStarted c tick data t cl co h) (hb : BesideCores t u) : CmdStarted c tick data u cl co h := by
  obtain ⟨hbusy, hver, hnone⟩ := hs
  simp only [CmdStarted, hb.core]
  refine ⟨hbusy, fun k hk => ?_, hnone⟩
  obtain ⟨v, hvers, htile, hi, hstart, hret, hfalse, hdata, hmem⟩ := hver k hk
  exact ⟨v, hvers, htile, hi, hstart, hret, hfalse, hdata, hb.agenda _ hmem⟩

theorem core_arrayTaken (s : State) (cl co lid occ rel : Nat) (ls : Core → List Lock) :
    (arrayTaken s cl co lid occ rel ls).core cl co =
      { s.core cl co with matBusy := s.tick + occ, locks := ls (s.core cl co) } ∧
    (arrayTaken s cl co lid occ rel ls).tick = s.tick := by
  have hcore : (s.updCore cl co fun c => { c with matBusy := s.tick + occ, locks := ls c }).core cl co =
      { s.core cl co with matBusy := s.tick + occ, locks := ls (s.core cl co) } := by
    refine core_updCore_same s cl co ?_
    exact fun _ => ⟨rfl, rfl⟩
  unfold arrayTaken
  dsimp only
  split
  · exact ⟨hcore, rfl⟩
  · exact ⟨hcore, rfl⟩
/-- Of the core only the versions differ when one has been added (R331). -/
theorem core_versionAdded (s : State) (cl co at_ ret : Nat) (data : Sparse Word) (h : Held) (d : Option Nat) :
    ∃ vs, (versionAdded s cl co at_ ret data h d).core cl co = { s.core cl co with vers := vs } ∧
      (d = none → vs = (s.core cl co).vers) ∧ ∀ k, d = some k → ∃ v, vs = (s.core cl co).vers ++ [v] ∧ v.tile = k ∧
        v.h = h ∧
        v.start = s.tick ∧ v.retireAt = s.tick + ret ∧ v.retired = false ∧ v.data = data ∧
        (v.retireAt, ⟨cl, co, v.id⟩, Instr.accRetire) ∈ (versionAdded s cl co at_ ret data h d).agenda := by
  cases d with
  | none => exact ⟨_, rfl, fun _ => rfl, fun k hk => nomatch hk⟩
  | some k =>
    have hadd : (s.fresh.2.updCore cl co fun c => { c with
        vers := c.vers ++ [⟨s.fresh.1, k, at_, s.tick, s.tick + ret, false, data, false, h⟩] }).core cl co =
        { s.core cl co with
          vers := (s.core cl co).vers ++ [⟨s.fresh.1, k, at_, s.tick, s.tick + ret, false, data, false, h⟩] } := by
      refine core_updCore_same s.fresh.2 cl co ?_
      exact fun _ => ⟨rfl, rfl⟩
    refine ⟨_, hadd,
      fun hk => (nomatch hk), fun k' hk => ?_⟩
    cases hk
    exact ⟨_, rfl, rfl, rfl, rfl, rfl, rfl, rfl, List.mem_append_right _ (List.mem_singleton.2 rfl)⟩
/-- A command whose windows fit has started; the queue and the windows stand as before (R318, R325, R331). -/
theorem startCmd_started {s : State} {cl co : Nat} {h : Held} (seq at_ : Nat)
    (hfit : operandFault (s.core cl co) h.i h.wins = none) (hlatch : ∀ o l, h.i ≠ .mma o true l) :
    let t := startCmd s cl co h seq at_
    CmdStarted (s.core cl co) s.tick (tileResult s cl co h) t cl co h ∧ (t.core cl co).wins = (s.core cl co).wins ∧
      (t.core cl co).matq = (s.core cl co).matq := by
  obtain ⟨u, ls, lid, hu, ht⟩ := startCmd_fits seq at_ hfit hlatch
  obtain ⟨hcore, htick⟩ := core_arrayTaken u cl co lid (cmdTimes h.i).1 (cmdTimes h.i).2.1 ls
  obtain ⟨vs, hvcore, hnone, hsome⟩ := core_versionAdded (arrayTaken u cl co lid (cmdTimes h.i).1 (cmdTimes h.i).2.1 ls) cl co
    at_ (cmdTimes h.i).2.2 (tileResult s cl co h) h (destTile h.i)
  rw [hcore, hu.core] at hvcore
  rw [hcore, hu.core, htick, hu.tick] at hsome
  rw [hcore, hu.core] at hnone
  intro t
  rw [show t = _ from ht]
  simp only [CmdStarted, hvcore]
  refine ⟨⟨by rw [hu.tick], fun k hk => ?_, hnone⟩, trivial, trivial⟩
  obtain ⟨v, hvs, htile, hh, hstart, hret, hfalse, hdata, hmem⟩ := hsome k hk
  exact ⟨v, hvs, htile, by rw [hh], hstart, hret, hfalse, hdata, hmem⟩
/-- A command whose windows do not fit faults its tile (R321). -/
theorem startCmd_misfits {s : State} {cl co : Nat} {h : Held} (seq at_ : Nat) {k n : Nat}
    (hbad : operandFault (s.core cl co) h.i h.wins = some (k, n)) :
    let t := startCmd s cl co h seq at_
    (t.core cl co).vers = (s.core cl co).vers ∧ (assoc (t.core cl co).tileFault ((destTile h.i).getD 0)).isSome = true := by
  obtain ⟨u, r, hu, ht⟩ : ∃ u r, KeepsWork s u ∧ startCmd s cl co h seq at_ =
      (faultTile u cl co ((destTile h.i).getD 0) r).sched u.tick ⟨cl, co, 0⟩ .matrixCommandStart := by
    have hevent := besideCores_cmdEvent s ⟨cl, co, 16⟩ 3 1 0 seq h
    obtain ⟨T, hT⟩ : ∃ T, startCmd s cl co h seq at_ = T := ⟨_, rfl⟩
    rw [hT]
    unfold startCmd at hT
    generalize cmdTimes h.i = times at *
    obtain ⟨occ, rel, ret⟩ := times
    dsimp only at hT
    rw [hbad] at hT
    exact ⟨_, _, hevent.keepsWork.trans (windowsOnly_unlock _ cl co fun l => l.of h).work, hT.symm⟩
  obtain ⟨hvers, hfault⟩ := faultTile_spec u cl co ((destTile h.i).getD 0) r
  intro t
  rw [show t = _ from ht]
  refine ⟨hvers.trans (congrArg (·.1) (hu cl co)), ?_⟩
  refine (congrArg Option.isSome hfault).trans rfl

end Sys2Proof.Machine

/-! ### Commands from a window and from the queue (R55, R318) -/
namespace Sys2Proof.Machine

/-- A window's follow-on command may issue (R55). -/
theorem followReady_of {c : Core} {e : Win} (hv : e.v = true) (ha : e.arm = true)
    (hfull : ∀ n ∈ e.followWins, (c.win n).state = .full)
    (hreg : ∀ h, e.armIss = some h → ∀ r ∈ (c.iss 16).regions, r.num ≠ h.rnum) (hroom : c.vers.length < 8) :
    followReady c e = true := by
  have hall : (e.followWins.all fun n => (c.win n).state == .full) = true :=
    List.all_eq_true.2 fun n hn => by rw [hfull n hn]; rfl
  have hany : (e.armIss.any fun h => (c.iss 16).regions.any fun r => r.num == h.rnum) = false := by
    cases harm : e.armIss with
    | none => rfl
    | some h => exact List.any_eq_false.2 fun r hr => by simpa using hreg h harm r hr
  rw [followReady, hv, ha, hall, hany, decide_eq_true hroom]
  rfl
/-- The state in which a follow-on command is looked at: nothing but ARM has changed (R55). -/
def disarmed (s : State) : State := (s.updCore s.cur.cl s.cur.co fun c =>
  c.setWin s.cur.n { (s.coreOf s.cur).win s.cur.n with arm := false }).sched s.tick ⟨s.cur.cl, s.cur.co, 0⟩ .matrixCommandStart
theorem exec_followOnIssue_error {s : State} {k : Nat} (hready : followReady (s.coreOf s.cur) ((s.coreOf s.cur).win s.cur.n) = true)
    (hfree : (s.coreOf s.cur).matBusy ≤ s.tick)
    (hdec : decode (Env.wide true 3) ((s.coreOf s.cur).win s.cur.n).follow = .error k) :
    exec .followOnIssue s = .next (disarmed s) := by
  change execFollowOnIssue s = _
  unfold execFollowOnIssue
  dsimp only
  rw [if_neg (by rw [hready, decide_eq_true hfree]; decide), hdec]
  rfl
theorem exec_followOnIssue_faulted {s : State} {i : Instr} {k : Nat}
    (hready : followReady (s.coreOf s.cur) ((s.coreOf s.cur).win s.cur.n) = true) (hfree : (s.coreOf s.cur).matBusy ≤ s.tick)
    (hdec : decode (Env.wide true 3) ((s.coreOf s.cur).win s.cur.n).follow = .ok i) (hk : destTile i = some k)
    (hbad : (assoc (s.coreOf s.cur).tileFault k).isSome = true) : exec .followOnIssue s = .next (disarmed s) := by
  change execFollowOnIssue s = _
  unfold execFollowOnIssue
  dsimp only
  rw [if_neg (by rw [hready, decide_eq_true hfree]; decide), hdec]
  dsimp only
  rw [if_pos (by rw [hk]; exact hbad)]
  rfl
/-- A window's core when its follow-on command starts: ARM clear, its windows locked, its number taken (R55, R320). -/
def followCore (c : Core) (n : Nat) : Core :=
  { lockWins (c.setWin n { c.win n with arm := false }) (c.win n).followWins with matSeq := c.matSeq + 1 }
/-- A follow-on command as it starts. -/
def followHeld (s : State) (i : Instr) (c : Core) (e : Win) : Held :=
  { e.armIss.getD ⟨i, [], [], [], 0, s.tick, 0⟩ with
    i := i, wins := e.followWins, vals := [BitVec.ofNat 64 c.lockId, 0, e.follow] }
theorem exec_followOnIssue_starts {s : State} {i : Instr}
    (hready : followReady (s.coreOf s.cur) ((s.coreOf s.cur).win s.cur.n) = true) (hfree : (s.coreOf s.cur).matBusy ≤ s.tick)
    (hdec : decode (Env.wide true 3) ((s.coreOf s.cur).win s.cur.n).follow = .ok i)
    (hok : ∀ k, destTile i = some k → assoc (s.coreOf s.cur).tileFault k = none) :
    ∃ u seq, u.core s.cur.cl s.cur.co = followCore (s.coreOf s.cur) s.cur.n ∧ u.mem = s.mem ∧ u.tick = s.tick ∧
      exec .followOnIssue s = .next (startCmd u s.cur.cl s.cur.co
        (followHeld s i (s.coreOf s.cur) ((s.coreOf s.cur).win s.cur.n)) seq s.tick) := by
  let u := s.updCore s.cur.cl s.cur.co fun c =>
    lockWins (c.setWin s.cur.n { (s.coreOf s.cur).win s.cur.n with arm := false }) ((s.coreOf s.cur).win s.cur.n).followWins
  have hu : u.core s.cur.cl s.cur.co = lockWins ((s.coreOf s.cur).setWin s.cur.n
      { (s.coreOf s.cur).win s.cur.n with arm := false }) ((s.coreOf s.cur).win s.cur.n).followWins := by
    refine core_updCore_same s _ _ ?_
    exact fun _ => ⟨rfl, rfl⟩
  refine ⟨u.updCore s.cur.cl s.cur.co fun c => { c with matSeq := c.matSeq + 1 }, (s.coreOf s.cur).matSeq + 1, ?_, rfl, rfl, ?_⟩
  · refine (core_updCore_same u _ _ ?_).trans ?_
    · exact fun _ => ⟨rfl, rfl⟩
    · rw [hu]; rfl
  · have hnot : ¬ ((destTile i).any fun t => (assoc (s.coreOf s.cur).tileFault t).isSome) = true := by
      cases hd : destTile i with
      | none => exact Bool.false_ne_true
      | some k => rw [Option.any_some, hok k hd]; exact Bool.false_ne_true
    change execFollowOnIssue s = _
    unfold execFollowOnIssue
    dsimp only
    rw [if_neg (by rw [hready, decide_eq_true hfree]; decide), hdec]
    dsimp only
    rw [if_neg hnot]
    rfl

/-- The head of the matrix queue starts (R318). -/
theorem exec_matrixCommandStart_head {s : State} {q : MCmd} {rest : List MCmd}
    (hhalt : (s.coreOf s.cur).halt = false) (hdoom : ∀ p ∈ (s.coreOf s.cur).matq, doomed (s.coreOf s.cur) p = none)
    (hfollow : readyFollow (s.coreOf s.cur) = none) (hq : (s.coreOf s.cur).matq = q :: rest)
    (hready : ∀ n ∈ q.h.wins, winReady ((s.coreOf s.cur).win n) = true) (hepi : ∀ e, q.h.i ≠ .epi e)
    (hfree : (s.coreOf s.cur).matBusy ≤ s.tick) (hroom : retireRoom (s.coreOf s.cur) q.h.i = true) :
    exec .matrixCommandStart s = .next (kickStreams (startCmd
      (s.updCore s.cur.cl s.cur.co fun c => { c with matq := c.matq.drop 1 }) s.cur.cl s.cur.co
        q.h q.seq q.at_) s.cur.cl s.cur.co) := by
  have hnone : ((s.coreOf s.cur).matq.findSome? fun q => (doomed (s.coreOf s.cur) q).map fun r => (q, r)) = none :=
    List.findSome?_eq_none_iff.2 fun p hp => by rw [hdoom p hp]; rfl
  have hgo : retireRoom (s.coreOf s.cur) q.h.i = true ∧ (q.h.wins.all fun n => winReady ((s.coreOf s.cur).win n)) = true :=
    ⟨hroom, List.all_eq_true.2 hready⟩
  rw [State.coreOf] at *
  obtain ⟨T, hT⟩ : ∃ T, exec .matrixCommandStart s = T := ⟨_, rfl⟩
  rw [hT]
  change execMatrixCommandStart s = T at hT
  unfold execMatrixCommandStart at hT
  dsimp only at hT
  rw [if_neg (by rw [hhalt]; exact Bool.false_ne_true), hnone] at hT
  dsimp only at hT
  rw [if_neg (by omega), hfollow] at hT
  dsimp only at hT
  rw [hq] at hT
  dsimp only at hT
  split at hT
  · rename_i hi; exact absurd hi (hepi _)
  · rw [if_pos hgo] at hT
    exact hT.symm

end Sys2Proof.Machine


/-! ### Retirement, commit and the gather unit (R320, R328, R331, R333) -/
namespace Sys2Proof.Machine

theorem core_updCore_sched (s : State) (cl co : Nat) {f : Core → Core} (hk : KeepsKey f) (at_ : Nat) (o : Iss) (i : Instr) :
    ((s.updCore cl co f).sched at_ o i).core cl co = f (s.core cl co) := core_updCore_same s cl co hk

/-- The locks that end now go (R320). -/
theorem exec_operandRelease_idle {s : State} (h : (s.coreOf s.cur).wcmds = []) : Completes .operandRelease s fun t =>
    (t.coreOf s.cur).locks = (s.coreOf s.cur).locks.filter (fun l => match l.until_ with
      | some u => decide (s.tick < u) | none => true) ∧ (s.tick, ⟨s.cur.cl, s.cur.co, 0⟩, Instr.gatherStart) ∈ t.agenda := by
  refine ⟨_, rfl, ?_, List.mem_append_right _ (List.mem_singleton.2 ?_)⟩
  · rw [unlock_idle _ h]
    refine (congrArg Core.locks (core_updCore_sched s s.cur.cl s.cur.co ?_ _ _ _)).trans ?_
    · exact fun _ => ⟨rfl, rfl⟩
    · refine List.filter_congr fun l _ => ?_
      cases l.until_ with
      | none => rfl
      | some u => simp only [← decide_not, Nat.not_le]
  · rfl

/-- A started epilogue forms its first row at its tick (R336). -/
theorem startEpi_spec (s : State) (cl co : Nat) (e : EpiF) (p : Port) (t : Nat) (data : Sparse Word) (ver : Option Nat)
    (h : Held) (seq : Nat) : let u := startEpi s cl co e p t data ver h seq
      (u.core cl co).vers = (s.core cl co).vers ∧ (u.core cl co).arms = (s.core cl co).arms ∧
      (∀ x ∈ s.agenda, x ∈ u.agenda) ∧ ∃ j ∈ (u.core cl co).jobs, j.e = e ∧ j.port = p ∧ j.row = 0 ∧
        j.firstRow = max (t + 64) (s.core cl co).epiRowEnd ∧ (j.firstRow, ⟨cl, co, j.id⟩, Instr.epilogueRow) ∈ u.agenda := by
  intro u
  unfold u startEpi
  extract_lets c first job
  refine (core_updCore_sched s cl co (f := fun c => { c with
    jobId := c.jobId + 1, epiRowEnd := first + 64
    jobs := (c.jobs.filter fun j => !(j.row == 64 && (j.stopped || j.sent == j.sends.length) &&
      decide (j.sendBase + 4000 < s.tick))) ++ [job] }) (fun _ => ⟨rfl, rfl⟩) first ⟨cl, co, job.id⟩ .epilogueRow) ▸ ?_
  exact ⟨rfl, rfl, fun x hx => List.mem_append_left _ hx, job, List.mem_append_right _ (List.mem_singleton.2 rfl), rfl, rfl, rfl,
    rfl, List.mem_append_right _ (List.mem_singleton.2 rfl)⟩

/-- The state in which a version has retired and its commit is set (R331). -/
def verRetired (s : State) (v : Ver) : State :=
  cmdEvent ((s.updCore s.cur.cl s.cur.co fun c => { c with
    vers := c.vers.map fun o => if o.id = v.id then { o with retired := true } else o }).sched (s.tick + 320) s.cur
      .versionCommit) ⟨s.cur.cl, s.cur.co, 16⟩ 2 1 0 0 v.h
theorem verRetired_spec (s : State) (v : Ver) : (verRetired s v).coreOf s.cur = { s.coreOf s.cur with
      vers := (s.coreOf s.cur).vers.map fun o => if o.id = v.id then { o with retired := true } else o } ∧
    (verRetired s v).tick = s.tick ∧ (s.tick + 320, s.cur, Instr.versionCommit) ∈ (verRetired s v).agenda := by
  let u := (s.updCore s.cur.cl s.cur.co fun c => { c with
    vers := c.vers.map fun o => if o.id = v.id then { o with retired := true } else o }).sched (s.tick + 320) s.cur .versionCommit
  have hevent : BesideCores u (verRetired s v) := besideCores_cmdEvent u _ _ _ _ _ _
  refine ⟨(hevent.core _ _).trans ?_, hevent.tick, hevent.agenda _ (List.mem_append_right _ (List.mem_singleton.2 rfl))⟩
  refine core_updCore_sched s s.cur.cl s.cur.co ?_ _ _ _
  exact fun _ => ⟨rfl, rfl⟩
/-- The epilogue that a retirement triggers starts (R333). -/
def epiTriggered (s : State) (v : Ver) (a : Arming) : State :=
  let u := (verRetired s v).updCore s.cur.cl s.cur.co fun c => { c with arms := c.arms.filter fun o => o.tile != v.tile }
  let r := (u.core s.cur.cl s.cur.co).tileRetired v.tile
  startEpi u s.cur.cl s.cur.co a.e a.port u.tick r.1 r.2 a.h a.seq
theorem epiTriggered_spec (s : State) (v : Ver) (a : Arming) : let t := epiTriggered s v a
    (t.coreOf s.cur).vers = (s.coreOf s.cur).vers.map (fun o => if o.id = v.id then { o with retired := true } else o) ∧
    (t.coreOf s.cur).arms = (s.coreOf s.cur).arms.filter (fun o => o.tile != v.tile) ∧
    (s.tick + 320, s.cur, Instr.versionCommit) ∈ t.agenda ∧
    ∃ j ∈ (t.coreOf s.cur).jobs, j.e = a.e ∧ j.port = a.port ∧ j.row = 0 ∧
      j.firstRow = max (s.tick + 64) (s.coreOf s.cur).epiRowEnd ∧
      (j.firstRow, ⟨s.cur.cl, s.cur.co, j.id⟩, Instr.epilogueRow) ∈ t.agenda := by
  obtain ⟨hcore, htick, hcommit⟩ := verRetired_spec s v
  obtain ⟨u, hu⟩ : ∃ u, (verRetired s v).updCore s.cur.cl s.cur.co (fun c =>
    { c with arms := c.arms.filter fun o => o.tile != v.tile }) = u := ⟨_, rfl⟩
  have hucore : u.core s.cur.cl s.cur.co = { (verRetired s v).coreOf s.cur with
      arms := ((verRetired s v).coreOf s.cur).arms.filter fun o => o.tile != v.tile } := by
    rw [← hu]
    refine core_updCore_same _ _ _ ?_
    exact fun _ => ⟨rfl, rfl⟩
  have hutick : u.tick = s.tick := hu ▸ htick
  obtain ⟨data, ver, hstart⟩ : ∃ data ver, epiTriggered s v a =
      startEpi u s.cur.cl s.cur.co a.e a.port u.tick data ver a.h a.seq := by
    rw [epiTriggered, hu]
    exact ⟨_, _, rfl⟩
  obtain ⟨hvers, harms, hagenda, hjob⟩ := startEpi_spec u s.cur.cl s.cur.co a.e a.port u.tick data ver a.h a.seq
  rw [hucore, hcore] at hvers harms
  rw [hucore, hcore, hutick] at hjob
  intro t
  rw [show t = _ from hstart, hutick]
  rw [hutick] at hvers harms hagenda
  exact ⟨hvers, harms, hagenda _ (hu ▸ hcommit), hjob⟩

theorem exec_accRetire_plain {s : State} {v : Ver} (hv : ((s.coreOf s.cur).vers.find? fun v => v.id == s.cur.n) = some v)
    (htr : triggers (s.coreOf s.cur) v = none) :
    exec .accRetire s = .next (kickStreams (verRetired s v) s.cur.cl s.cur.co) := by
  rw [State.coreOf] at hv htr
  change execAccRetire s = _
  unfold execAccRetire
  dsimp only
  rw [hv]
  dsimp only
  rw [htr]
  rfl
theorem exec_accRetire_triggers {s : State} {v : Ver} {a : Arming}
    (hv : ((s.coreOf s.cur).vers.find? fun v => v.id == s.cur.n) = some v) (htr : triggers (s.coreOf s.cur) v = some a) :
    exec .accRetire s = .next (kickStreams (epiTriggered s v a) s.cur.cl s.cur.co) := by
  rw [State.coreOf] at hv htr
  change execAccRetire s = _
  unfold execAccRetire
  dsimp only
  rw [hv]
  dsimp only
  rw [htr]
  rfl
/-- A retirement: the version is retired, its commit set, and the epilogue that it triggers starts (R331, R333). -/
theorem accRetire_completes {s : State} {v : Ver} (hv : ((s.coreOf s.cur).vers.find? fun v => v.id == s.cur.n) = some v) :
    Completes .accRetire s fun t =>
      (t.coreOf s.cur).vers = (s.coreOf s.cur).vers.map (fun o => if o.id = v.id then { o with retired := true } else o) ∧
      (s.tick + 320, s.cur, Instr.versionCommit) ∈ t.agenda ∧
      ∀ a, triggers (s.coreOf s.cur) v = some a →
        (∀ b ∈ (t.coreOf s.cur).arms, b.tile ≠ v.tile) ∧ ∃ j ∈ (t.coreOf s.cur).jobs, j.e = a.e ∧ j.port = a.port ∧
          j.row = 0 ∧ j.firstRow = max (s.tick + 64) (s.coreOf s.cur).epiRowEnd ∧
          (j.firstRow, ⟨s.cur.cl, s.cur.co, j.id⟩, Instr.epilogueRow) ∈ t.agenda := by
  have hkick (u : State) : BesideCores u (kickStreams u s.cur.cl s.cur.co) := besideCores_sched u _ _ _
  cases htr : triggers (s.coreOf s.cur) v with
  | none =>
    obtain ⟨hcore, -, hcommit⟩ := verRetired_spec s v
    exact ⟨_, exec_accRetire_plain hv htr, congrArg Core.vers hcore, (hkick _).agenda _ hcommit, fun a ha => nomatch ha⟩
  | some a =>
    obtain ⟨hvers, harms, hcommit, j, hj, he, hport, hrow, hfirst, hsched⟩ := epiTriggered_spec s v a
    refine ⟨_, exec_accRetire_triggers hv htr, hvers, (hkick _).agenda _ hcommit, fun a' ha => ?_⟩
    cases ha
    refine ⟨fun b hb => ?_, j, hj, he, hport, hrow, hfirst, (hkick _).agenda _ hsched⟩
    have hleft : b ∈ (s.coreOf s.cur).arms.filter fun o => o.tile != v.tile := harms ▸ hb
    simpa using (List.mem_filter.1 hleft).2

end Sys2Proof.Machine


/-! ### A version becomes the committed tile (R194, R331) -/
namespace Sys2Proof.Machine

section Maps
variable {α : Type} [DecidableEq α] {d : α}

/-- A listed key lies at or above the bound of its map. -/
theorem Sparse.le_of_mem {lo : Nat} {l : Sparse α} (hl : Sparse.wfFrom d lo l = true) {e : Nat × α} (he : e ∈ l) :
    lo ≤ e.1 := by
  induction l generalizing lo with
  | nil => exact absurd he List.not_mem_nil
  | cons x l ih =>
    obtain ⟨j, y⟩ := x
    simp only [Sparse.wfFrom, Bool.and_eq_true, decide_eq_true_eq] at hl
    rcases List.mem_cons.1 he with rfl | he
    · exact hl.1.1
    · have := ih hl.2 he
      omega
/-- A key that no write of a run names reads as before. -/
theorem Sparse.get_foldl_set_other {base n : Nat} (l : Sparse α) (hn : ∀ e ∈ l, base + e.1 ≠ n) {m : Sparse α}
    (hm : Sparse.wf d m = true) : Sparse.get d (l.foldl (fun m e => Sparse.set d m (base + e.1) e.2) m) n = Sparse.get d m n := by
  induction l generalizing m with
  | nil => rfl
  | cons e l ih =>
    rw [List.foldl_cons, ih (fun x hx => hn x (List.mem_cons_of_mem _ hx)) (Sparse.wf_set hm), Sparse.get_set (lo := 0) n hm,
      if_neg (Ne.symm (hn e List.mem_cons_self))]
/-- A map laid over keys that read as the default reads as the map. -/
theorem Sparse.get_foldl_set {base lo k : Nat} {l : Sparse α} (hl : Sparse.wfFrom d lo l = true) {m : Sparse α}
    (hm : Sparse.wf d m = true) (hk : Sparse.get d m (base + k) = d) :
    Sparse.get d (l.foldl (fun m e => Sparse.set d m (base + e.1) e.2) m) (base + k) = Sparse.get d l k := by
  induction l generalizing lo m with
  | nil => exact hk
  | cons e l ih =>
    obtain ⟨j, x⟩ := e
    simp only [Sparse.wfFrom, Bool.and_eq_true] at hl
    have hset := Sparse.get_set (lo := 0) (n := base + j) (x := x) (base + k) hm
    rw [List.foldl_cons]
    by_cases hj : k = j
    · subst hj
      have hout : ∀ e ∈ l, base + e.1 ≠ base + k := fun e he hek =>
        absurd (Sparse.le_of_mem hl.2 he) (by omega)
      rw [Sparse.get_foldl_set_other l hout (Sparse.wf_set hm), hset, if_pos rfl, Sparse.get, if_pos rfl]
    · rw [ih hl.2 (Sparse.wf_set hm) (by rw [hset, if_neg (by omega)]; exact hk), Sparse.get, if_neg hj]
      split
      · rename_i hlt; exact Sparse.get_below (Nat.lt_succ_of_lt hlt) hl.2
      · rfl
end Maps

/-- The sends that wait for a committed version begin (R331). -/
def sendBegins (cl co : Nat) (s : State) (j : EpJob) : State :=
  let s := s.updCore cl co fun c => { c with jobs := c.jobs.map fun o => if o.id = j.id then { o with verId := none } else o }
  if 0 < j.row then s.sched s.tick ⟨cl, co, j.id⟩ .epilogueSend else s
theorem core_sendBegins (cl co : Nat) (l : List EpJob) (s : State) :
    ∃ js, (l.foldl (sendBegins cl co) s).core cl co = { s.core cl co with jobs := js } := by
  induction l generalizing s with
  | nil => exact ⟨_, rfl⟩
  | cons j l ih =>
    obtain ⟨js, hjs⟩ := ih (sendBegins cl co s j)
    have hone : ∃ js, (sendBegins cl co s j).core cl co = { s.core cl co with jobs := js } := by
      have hcore : (s.updCore cl co fun c => { c with
          jobs := c.jobs.map fun o => if o.id = j.id then { o with verId := none } else o }).core cl co = { s.core cl co with
          jobs := (s.core cl co).jobs.map fun o => if o.id = j.id then { o with verId := none } else o } := by
        refine core_updCore_same s cl co ?_
        exact fun _ => ⟨rfl, rfl⟩
      unfold sendBegins
      dsimp only
      split
      · exact ⟨_, hcore⟩
      · exact ⟨_, hcore⟩
    obtain ⟨js', hjs'⟩ := hone
    exact ⟨js, by rw [List.foldl_cons, hjs, hjs']⟩

/-- A core once a version has been committed (R194, R331). -/
def verCommitted (c : Core) (t : Nat) (v : Ver) : Core :=
  if v.stale then { c with vers := c.vers.filter fun o => o.id != v.id } else
  let c := logTile c t v.tile
  { c with
    vers := leftVers v c.vers
    accC := v.data.foldl (fun m e => Sparse.set (0 : Word) m (v.tile * 4096 + e.1) e.2)
      (c.accC.filter fun e => e.1 / 4096 != v.tile) }
theorem exec_versionCommit {s : State} {v : Ver} (hv : ((s.coreOf s.cur).vers.find? fun v => v.id == s.cur.n) = some v) :
    Completes .versionCommit s fun t => ∃ js, t.coreOf s.cur = { verCommitted (s.coreOf s.cur) s.tick v with jobs := js } := by
  have hkey : KeepsKey fun c => verCommitted c s.tick v := fun c => by
    dsimp only [verCommitted, logTile]
    split
    · exact ⟨rfl, rfl⟩
    · split <;> exact ⟨rfl, rfl⟩
  have hcore := core_updCore_same s s.cur.cl s.cur.co hkey
  obtain ⟨u, hu⟩ : ∃ u, (s.updCore s.cur.cl s.cur.co fun c => verCommitted c s.tick v).sched s.tick
    ⟨s.cur.cl, s.cur.co, 0⟩ .matrixCommandStart = u := ⟨_, rfl⟩
  have hucore : u.core s.cur.cl s.cur.co = verCommitted (s.coreOf s.cur) s.tick v := hu ▸ hcore
  have hexec : exec .versionCommit s = .next (((u.core s.cur.cl s.cur.co).jobs.filter fun j => j.verId == some v.id).foldl
      (sendBegins s.cur.cl s.cur.co) u) := by
    rw [State.coreOf] at hv
    change execVersionCommit s = _
    unfold execVersionCommit
    dsimp only
    rw [hv, ← hu]
    rfl
  obtain ⟨js, hjs⟩ := core_sendBegins s.cur.cl s.cur.co ((u.core s.cur.cl s.cur.co).jobs.filter fun j => j.verId == some v.id) u
  exact ⟨_, hexec, js, hjs.trans (by rw [hucore])⟩
theorem verCommitted_stale {c : Core} {t : Nat} {v : Ver} (h : v.stale = true) :
    verCommitted c t v = { c with vers := c.vers.filter fun o => o.id != v.id } := if_pos h
/-- A version that is not stale becomes the tile; no other tile changes. -/
theorem verCommitted_fresh {c : Core} {t : Nat} {v : Ver} (h : v.stale = false) (hc : Sparse.wf (0 : Word) c.accC = true)
    (hd : Sparse.wf (0 : Word) v.data = true) (hrange : ∀ e ∈ v.data, e.1 < 4096) :
    (verCommitted c t v).vers = leftVers v c.vers ∧
    (∀ k, k < 4096 → Sparse.get (0 : Word) (verCommitted c t v).accC (v.tile * 4096 + k) = Sparse.get 0 v.data k) ∧
    ∀ k, k / 4096 ≠ v.tile → Sparse.get (0 : Word) (verCommitted c t v).accC k = Sparse.get 0 c.accC k := by
  have hlog : (logTile c t v.tile).vers = c.vers ∧ (logTile c t v.tile).accC = c.accC := by
    unfold logTile
    split <;> exact ⟨rfl, rfl⟩
  obtain ⟨hvers, hacc⟩ := hlog
  have hwf : Sparse.wf (0 : Word) (c.accC.filter fun e => e.1 / 4096 != v.tile) = true :=
    Sparse.wfFrom_filter (fun e => e.1 / 4096 != v.tile) hc
  have hget (k : Nat) := Sparse.get_filter (fun n => n / 4096 != v.tile) k (lo := 0) hc
  rw [verCommitted, if_neg (by rw [h]; exact Bool.false_ne_true)]
  dsimp only
  rw [hvers, hacc]
  refine ⟨rfl, fun k hk => ?_, fun k hk => ?_⟩
  · refine Sparse.get_foldl_set hd hwf ?_
    rw [hget, if_neg]
    simpa using (by omega : (v.tile * 4096 + k) / 4096 = v.tile)
  · rw [Sparse.get_foldl_set_other v.data (fun e he hek => hk (by have := hrange e he; omega)) hwf, hget, if_pos (by simpa using hk)]

end Sys2Proof.Machine

/-! ### The gather unit (R328) -/
namespace Sys2Proof.Machine

theorem nth_setNth_same {α : Type} (d : α) (l : List α) (n : Nat) (x : α) : nth (setNth d l n x) n d = x := by
  have hget : (setNth d l n x)[n]? = some x := by
    induction n generalizing l with
    | zero => cases l <;> rfl
    | succ n ih => cases l <;> exact ih _
  rw [nth, hget]
  rfl

/-- The ticks that a command of the gather unit takes (R328, R329). -/
def gatherTime : Instr → Nat
  | .cmprs .. => 128
  | _ => 64
/-- The gather unit's next command starts (R328). -/
theorem exec_gatherStart {s : State} {q : MCmd} {rest : List MCmd} (hrun : (s.coreOf s.cur).gatRun = none)
    (hhalt : (s.coreOf s.cur).halt = false) (hq : (s.coreOf s.cur).gatq = q :: rest)
    (hfault : ∀ p ∈ (s.coreOf s.cur).gatq, faultedWin (s.coreOf s.cur) p = none)
    (hfit : operandFault (s.coreOf s.cur) q.h.i q.h.wins = none)
    (hready : winReady ((s.coreOf s.cur).win (nth q.h.wins 0 0)) = true)
    (hlatch : ∀ pk ty ha sb l, q.h.i = .mgath pk ty ha sb l → latchBusy (s.coreOf s.cur) s.tick q.lock l = false) :
    ∃ ls : Core → List Lock, exec .gatherStart s = .next ((s.updCore s.cur.cl s.cur.co fun c => { c with
      gatq := rest, gatRun := some q, gatBusy := s.tick + gatherTime q.h.i, locks := ls c }).sched
        (s.tick + gatherTime q.h.i) s.cur .gatherComplete) := by
  have hnone : ((s.coreOf s.cur).gatq.findSome? fun q => (faultedWin (s.coreOf s.cur) q).map fun r => (q, r)) = none :=
    List.findSome?_eq_none_iff.2 fun p hp => by rw [hfault p hp]; rfl
  rw [State.coreOf] at *
  obtain ⟨T, hT⟩ : ∃ T, exec .gatherStart s = T := ⟨_, rfl⟩
  rw [hT]
  change execGatherStart s = T at hT
  unfold execGatherStart at hT
  dsimp only at hT
  rw [if_neg (by rw [hhalt]; exact Bool.false_ne_true), hnone] at hT
  dsimp only at hT
  rw [hrun, hq] at hT
  dsimp only at hT
  rw [if_neg, hfit] at hT
  · exact ⟨_, hT.symm⟩
  · rw [hready]
    split
    · rename_i hi
      rw [hlatch _ _ _ _ _ hi]
      decide
    · decide

/-- The row that an index names of a window, zero beyond its rows (R328). -/
def gatheredRow (s : State) (cl co : Nat) (e : Win) (ty : Ty) (n : Nat) : List Byte :=
  if n < e.rows then spRead s cl co (e.sbase + n * e.sstride) (kOf ty * ty.bits / 8)
  else List.replicate (kOf ty * ty.bits / 8) 0
/-- The state in which the gather unit has let go of its command (R320). -/
def gatherEnded (s : State) (q : MCmd) : State :=
  unlock (s.updCore s.cur.cl s.cur.co fun c => { c with gatRun := none }) s.cur.cl s.cur.co fun l => l.id == q.lock
theorem gatherEnded_spec (s : State) (q : MCmd) :
    ((gatherEnded s q).core s.cur.cl s.cur.co).gatRun = none ∧ (gatherEnded s q).mem = s.mem := by
  obtain ⟨hmem, hwork⟩ := windowsOnly_unlock (s.updCore s.cur.cl s.cur.co fun c => { c with gatRun := none }) s.cur.cl s.cur.co
    fun l => l.id == q.lock
  refine ⟨(congrArg (·.2.2) (hwork s.cur.cl s.cur.co)).trans ?_, hmem⟩
  refine (congrArg Core.gatRun (core_updCore_same s s.cur.cl s.cur.co ?_)).trans rfl
  exact fun _ => ⟨rfl, rfl⟩
/-- A gather fills its latch (R328). -/
theorem exec_gatherComplete_gather {s : State} {q : MCmd} (hq : (s.coreOf s.cur).gatRun = some q) {pk : Bool} {ty : Ty}
    {ha : BitVec 4} {sb : BitVec 8} {l : Bool} (hi : q.h.i = .mgath pk ty ha sb l) : ∃ scls,
      exec .gatherComplete s = .next (kickEngines ((gatherEnded s q).updCore s.cur.cl s.cur.co fun c => { c with
        latches := setNth {} c.latches (b2n l) ⟨some ty, (List.range 64).map fun k => gatheredRow s s.cur.cl s.cur.co
          ((s.coreOf s.cur).win (nth q.h.wins 0 0)) ty (nth q.h.vals k 0).toNat, scls, none⟩ }) s.cur.cl s.cur.co) := by
  rw [State.coreOf] at *
  obtain ⟨T, hT⟩ : ∃ T, exec .gatherComplete s = T := ⟨_, rfl⟩
  rw [hT]
  change execGatherComplete s = T at hT
  unfold execGatherComplete at hT
  dsimp only at hT
  rw [hq] at hT
  dsimp only at hT
  rw [hi] at hT
  dsimp only at hT
  rw [List.map_map] at hT
  exact ⟨_, hT.symm⟩
/-- The unit is free again, whatever its command (R325, R328, R329). -/
theorem exec_gatherComplete_frees {s : State} {q : MCmd} (hq : (s.coreOf s.cur).gatRun = some q) :
    Completes .gatherComplete s fun t => (t.coreOf s.cur).gatRun = none := by
  have hend := (gatherEnded_spec s q).1
  have hkick (u : State) (hu : KeepsWork (gatherEnded s q) u) :
      ((kickEngines u s.cur.cl s.cur.co).core s.cur.cl s.cur.co).gatRun = none :=
    (congrArg (·.2.2) (hu s.cur.cl s.cur.co)).trans hend
  obtain ⟨T, hT⟩ : ∃ T, exec .gatherComplete s = T := ⟨_, rfl⟩
  rw [Completes, hT]
  change execGatherComplete s = T at hT
  unfold execGatherComplete at hT
  rw [State.coreOf] at *
  dsimp only at hT
  rw [hq] at hT
  dsimp only at hT
  split at hT
  · refine ⟨_, hT.symm, hkick _ (keepsWork_updCore _ _ _ (fun _ => ⟨rfl, rfl⟩) fun _ => rfl)⟩
  · refine ⟨_, hT.symm, hkick _ ((KeepsWork.foldl (fun s i => ?_) _ _).trans (keepsWork_deliverRow _ _ _ _ _ _ _))⟩
    exact (keepsWork_deliverRow s _ _ _ _ _ _).trans (keepsWork_deliverRow _ _ _ _ _ _ _)
  · exact ⟨_, hT.symm, hkick _ (.refl _)⟩

end Sys2Proof.Machine


/-! ### The matrix pipeline (R53, R55, R318 to R331) -/
namespace Sys2Proof.Machine

/-- The core of a follow-on command in a state where it stands. -/
theorem core_followCore (s : State) (n : Nat) : (s.updCore s.cur.cl s.cur.co fun _ => followCore (s.coreOf s.cur) n).core
    s.cur.cl s.cur.co = followCore (s.coreOf s.cur) n := by
  rw [State.updCore, core_setCore]
  exact if_pos ⟨core_cl _ _ _, core_co _ _ _⟩
/-- A follow-on command of a window that is ready and fits has started (R55). -/
theorem followOn_started {s : State} {i : Instr}
    (hready : followReady (s.coreOf s.cur) ((s.coreOf s.cur).win s.cur.n) = true) (hfree : (s.coreOf s.cur).matBusy ≤ s.tick)
    (hdec : decode (Env.wide true 3) ((s.coreOf s.cur).win s.cur.n).follow = .ok i)
    (hok : ∀ k, destTile i = some k → assoc (s.coreOf s.cur).tileFault k = none)
    (hfit : operandFault (followCore (s.coreOf s.cur) s.cur.n) i ((s.coreOf s.cur).win s.cur.n).followWins = none)
    (hlatch : ∀ o l, i ≠ .mma o true l) : Completes .followOnIssue s fun t =>
      let s1 := s.updCore s.cur.cl s.cur.co fun _ => followCore (s.coreOf s.cur) s.cur.n
      let h := followHeld s i (s.coreOf s.cur) ((s.coreOf s.cur).win s.cur.n)
      (t.coreOf s.cur).win s.cur.n = { (s.coreOf s.cur).win s.cur.n with arm := false } ∧
      CmdStarted (s.coreOf s.cur) s.tick (tileResult s1 s.cur.cl s.cur.co h) t s.cur.cl s.cur.co h := by
  obtain ⟨u, seq, hcore, hmem, htick, hexec⟩ := exec_followOnIssue_starts hready hfree hdec hok
  obtain ⟨hstarted, hwins, -⟩ := startCmd_started (s := u) (cl := s.cur.cl) (co := s.cur.co)
    (h := followHeld s i (s.coreOf s.cur) ((s.coreOf s.cur).win s.cur.n)) seq s.tick (by rw [hcore]; exact hfit) hlatch
  refine ⟨_, hexec, ?_, ?_⟩
  · rw [Core.win, State.coreOf, hwins, hcore]
    exact win_setWin (s.coreOf s.cur) s.cur.n _
  · rw [hcore, htick] at hstarted
    rw [tileResult_congr (s := u) ((core_followCore s s.cur.n).trans hcore.symm) hmem.symm]
    exact hstarted

/-- Settles O40: follow-on and queued commands as they start, the versions' retirement and commit, the end of locks, and the
gather unit. -/
theorem matrixPipeline : Obligations.MatrixPipeline := by
  unfold Obligations.MatrixPipeline
  intro s cl co c noLatch started
  refine ⟨?_, ?_, exec_operandRelease_idle, fun v hv => accRetire_completes hv, fun v hv hst => ?_,
    fun v hv hst hc hd hrange => ?_, fun q rest hrun hhalt hq hfault hfit hready hlatch => ?_, fun q hq => ?_⟩
  · intro e c1 hv ha hfree hfull hreg hroom only
    have hready := followReady_of (c := c) (e := e) hv ha hfull hreg hroom
    refine ⟨fun k hdec => ⟨_, exec_followOnIssue_error hready hfree hdec, rfl⟩, fun i hdec => ⟨fun k hk hbad =>
      ⟨_, exec_followOnIssue_faulted hready hfree hdec hk hbad, rfl⟩, fun hok hfit hlatch => ?_⟩⟩
    obtain ⟨t, hexec, hwin, hstarted⟩ := followOn_started hready hfree hdec hok hfit hlatch
    exact ⟨t, hexec, congrArg Win.arm hwin, (congrArg Win.follow hwin).trans rfl, hstarted⟩
  · intro q rest hhalt hdoom hfollow hq hwins hepi hfree hroom hlatch s1
    have hexec := exec_matrixCommandStart_head hhalt hdoom hfollow hq (fun n hn => (hwins n hn).2) hepi hfree hroom
    have hcore : s1.core cl co = { c with matq := c.matq.drop 1 } := by
      refine core_updCore_same s cl co ?_
      exact fun _ => ⟨rfl, rfl⟩
    refine ⟨fun hfit => ⟨_, hexec, ?_⟩, fun k n hbad => ⟨_, hexec, ?_⟩⟩
    · obtain ⟨hstarted, -, hmatq⟩ := startCmd_started (s := s1) (cl := cl) (co := co) q.seq q.at_
        (by rw [hcore]; exact hfit) hlatch
      rw [hcore] at hstarted hmatq
      exact ⟨hmatq.trans (by rw [hq]; rfl), hstarted.beside (besideCores_sched _ _ _ _)⟩
    · obtain ⟨hvers, hfault⟩ := startCmd_misfits (s := s1) (cl := cl) (co := co) q.seq q.at_ (by rw [hcore]; exact hbad)
      rw [hcore] at hvers
      exact ⟨hvers, hfault⟩
  · obtain ⟨t, hexec, js, ht⟩ := exec_versionCommit hv
    rw [verCommitted_stale hst] at ht
    exact ⟨t, hexec, congrArg Core.vers ht, (congrArg Core.accC ht).trans rfl⟩
  · obtain ⟨t, hexec, js, ht⟩ := exec_versionCommit hv
    obtain ⟨hvers, hdata, hother⟩ := verCommitted_fresh (t := s.tick) hst hc hd hrange
    have hacc : (t.core cl co).accC = (verCommitted c s.tick v).accC := (congrArg Core.accC ht).trans rfl
    refine ⟨t, hexec, (congrArg Core.vers ht).trans hvers, fun k hk => ?_, fun k hk => ?_⟩
    · rw [hacc]; exact hdata k hk
    · rw [hacc]; exact hother k hk
  · obtain ⟨ls, hexec⟩ := exec_gatherStart hrun hhalt hq hfault hfit hready hlatch
    have hcore := core_updCore_sched s cl co (f := fun c => { c with
      gatq := rest, gatRun := some q, gatBusy := s.tick + gatherTime q.h.i, locks := ls c }) (fun _ => ⟨rfl, rfl⟩)
      (s.tick + gatherTime q.h.i) s.cur .gatherComplete
    exact ⟨_, hexec, congrArg Core.gatRun hcore, congrArg Core.gatq hcore, congrArg Core.gatBusy hcore,
      List.mem_append_right _ (List.mem_singleton.2 rfl)⟩
  · obtain ⟨t, hexec, hfree⟩ := exec_gatherComplete_frees hq
    refine ⟨t, hexec, hfree, fun pk ty ha sb l hi => ?_⟩
    obtain ⟨scls, hgather⟩ := exec_gatherComplete_gather hq hi
    have ht := Host.Outcome.next.inj (hexec.symm.trans hgather)
    have hcore := core_updCore_same (gatherEnded s q) cl co (f := fun c => { c with
      latches := setNth {} c.latches (b2n l) ⟨some ty, (List.range 64).map fun k => gatheredRow s cl co
        (s.core cl co |>.win (nth q.h.wins 0 0)) ty (nth q.h.vals k 0).toNat, scls, none⟩ }) fun _ => ⟨rfl, rfl⟩
    have hlatch : nth (t.core cl co).latches (b2n l) {} = ⟨some ty, (List.range 64).map fun k => gatheredRow s cl co
        (s.core cl co |>.win (nth q.h.wins 0 0)) ty (nth q.h.vals k 0).toNat, scls, none⟩ := by
      rw [ht]
      refine (congrArg (fun c => nth (Core.latches c) (b2n l) {}) hcore).trans ?_
      exact nth_setNth_same _ _ _ _
    have hbytes (k : Nat) : t.byte k = s.byte k := by
      have hmem : t.mem = s.mem := ht ▸ (gatherEnded_spec s q).2
      rw [State.byte, hmem, State.byte]
    intro e la
    simp only [la, hlatch]
    refine ⟨trivial, trivial, hbytes, fun k hk => ?_⟩
    rw [nth, List.getElem?_map, List.getElem?_range hk]
    rfl

end Sys2Proof.Machine


/-! ### The memory controllers' state (R65 to R73) -/
namespace Sys2Proof.Machine

theorem assoc_assocSet {α : Type} (l : List (Nat × α)) (k j : Nat) (v : α) :
    assoc (assocSet l k v) j = if k = j then some v else assoc l j := by
  induction l with
  | nil => rfl
  | cons e l ih =>
    rw [assocSet]
    split
    · rename_i he
      rw [assoc, assoc, he]
      split <;> rfl
    · rename_i he
      rw [assoc, assoc, ih]
      by_cases hj : e.1 = j
      · rw [if_pos hj, if_pos hj, if_neg fun hk => he (hj.trans hk.symm)]
      · rw [if_neg hj, if_neg hj]
theorem stack_updStack (s : State) (m n : Nat) (f : Stack → Stack) :
    (s.updStack m f).stack n = if m = n then f (s.stack n) else s.stack n := by
  by_cases hm : m < 16 <;> by_cases hn : n < 16
  · simp only [State.stack, State.updStack, hm, hn, if_true, State.updChip, assoc_assocSet]
    split
    · rename_i h; rw [h]; rfl
    · rfl
  · rw [if_neg (by omega)]
    simp only [State.stack, State.updStack, hm, hn, if_true, if_false, State.updChip]
  · rw [if_neg (by omega)]
    simp only [State.stack, State.updStack, hm, hn, if_true, if_false]
  · simp only [State.stack, State.updStack, hm, hn, if_false, assoc_assocSet]
    split
    · rename_i h; rw [h]; rfl
    · rfl
theorem stack_updStack_same (s : State) (n : Nat) (f : Stack → Stack) : (s.updStack n f).stack n = f (s.stack n) := by
  rw [stack_updStack, if_pos rfl]
theorem inUnits_updStack (s : State) (n : Nat) (f : Stack → Stack) : InUnits s (s.updStack n f) := by
  unfold State.updStack
  split <;> exact .of_chip rfl rfl rfl rfl rfl rfl
theorem inUnits_sched (s : State) (t : Nat) (o : Iss) (i : Instr) : InUnits s (s.sched t o i) :=
  .of_chip rfl rfl rfl rfl rfl rfl

/-- What the maintenance of rows leaves: the tick, whose turn it is, and every bank's refresh backlog (R67). -/
structure KeepsBacklog (s t : State) : Prop where
  tick : t.tick = s.tick
  cur : t.cur = s.cur
  backlog : ∀ n, (t.stack n).backlog = (s.stack n).backlog
theorem KeepsBacklog.trans {s t u : State} (h : KeepsBacklog s t) (k : KeepsBacklog t u) : KeepsBacklog s u :=
  ⟨k.tick.trans h.tick, k.cur.trans h.cur, fun n => (k.backlog n).trans (h.backlog n)⟩
theorem KeepsBacklog.of_fields {s t : State} (ht : t.tick = s.tick) (hw : t.cur = s.cur) (hc : t.chip.hbm = s.chip.hbm)
    (hn : t.net.dram = s.net.dram) : KeepsBacklog s t := ⟨ht, hw, fun n => by rw [State.stack, hc, hn, State.stack]⟩
theorem KeepsBacklog.refl (s : State) : KeepsBacklog s s := .of_fields rfl rfl rfl rfl
theorem KeepsBacklog.foldl {α : Type} {f : State → α → State} (h : ∀ s a, KeepsBacklog s (f s a)) (l : List α) (s : State) :
    KeepsBacklog s (l.foldl f s) := by
  induction l generalizing s with
  | nil => exact .refl s
  | cons a l ih => exact (h s a).trans (ih _)
theorem keepsBacklog_updStack (s : State) (m : Nat) {f : Stack → Stack} (hf : ∀ x, (f x).backlog = x.backlog) :
    KeepsBacklog s (s.updStack m f) :=
  ⟨State.updStack_tick _ _ _, State.updStack_cur _ _ _, fun n => by
    rw [stack_updStack]
    split
    · exact hf _
    · rfl⟩
theorem keepsBacklog_count (s : State) (ev : Nat) (w : Iss) (n : Nat) : KeepsBacklog s (s.count ev w n) := by
  unfold State.count
  split <;> exact .of_fields rfl rfl rfl rfl
theorem keepsBacklog_saveRemap (s : State) : KeepsBacklog s (saveRemap s) := .of_fields rfl rfl rfl rfl
theorem keepsBacklog_assignSpare (s : State) (n id : Nat) : KeepsBacklog s (assignSpare s n id) := by
  unfold assignSpare
  dsimp only
  split
  · refine KeepsBacklog.trans ?_ (keepsBacklog_saveRemap _)
    exact keepsBacklog_updStack s n fun _ => rfl
  · exact (keepsBacklog_updStack s n (f := fun st => { st with exhausted := true }) fun _ => rfl).trans
      (.of_fields rfl rfl rfl rfl)
theorem keepsBacklog_countRow (s : State) (n id : Nat) : KeepsBacklog s (countRow s n id) := by
  unfold countRow
  dsimp only
  split
  · split
    · exact .refl s
    · split
      · refine KeepsBacklog.trans ?_ (keepsBacklog_assignSpare _ n id)
        exact keepsBacklog_updStack s n fun _ => rfl
      · exact keepsBacklog_updStack s n fun _ => rfl
  · exact keepsBacklog_updStack s n fun _ => rfl
theorem keepsBacklog_poisonGranule (s : State) (pa : Nat) : KeepsBacklog s (poisonGranule s pa) := by
  unfold poisonGranule
  dsimp only
  split <;> exact .of_fields rfl rfl rfl rfl
theorem keepsBacklog_noteEcc (s : State) (pa : Nat) (e : Ecc) : KeepsBacklog s (noteEcc s pa e) := by
  cases e with
  | good => exact .refl s
  | corrected =>
    refine KeepsBacklog.trans ?_ (keepsBacklog_countRow _ _ _)
    refine (keepsBacklog_count s 15 s.cur 1).trans ?_
    exact keepsBacklog_updStack _ _ fun _ => rfl
  | bad => exact keepsBacklog_poisonGranule s pa
theorem keepsBacklog_noteRead (s : State) (n id col : Nat) (e : Ecc) : KeepsBacklog s (noteRead s n id col e) := by
  unfold noteRead
  split
  · exact keepsBacklog_noteEcc s _ e
  · cases e with
    | good => exact .refl s
    | corrected => exact keepsBacklog_countRow s n id
    | bad => exact .of_fields rfl rfl rfl rfl

/-- The patrol reads the sectors of one row (R69). -/
def rowRead (s : State) (n id : Nat) : State := (List.range 16).foldl (fun s col => noteRead s.ecc.2 n id col s.ecc.1) s
theorem patrolRow_eq (s : State) (n : Nat) : patrolRow s n =
    (rowRead s n (patrolId n (s.stack n).patrol)).updStack n fun st =>
      { st with patrol := ((s.stack n).patrol + 1) % patrolRows n
                patrolAt := (rowRead s n (patrolId n (s.stack n).patrol)).tick } := rfl
theorem keepsBacklog_rowRead (s : State) (n id : Nat) : KeepsBacklog s (rowRead s n id) :=
  .foldl (f := fun s col => noteRead s.ecc.2 n id col s.ecc.1)
    (fun s col => (KeepsBacklog.of_fields (s := s) (t := s.ecc.2) rfl rfl rfl rfl).trans (keepsBacklog_noteRead _ n id col _)) _ s
/-- The patrol goes on by one row, at this tick (R69). -/
theorem patrolRow_spec (s : State) (n : Nat) : KeepsBacklog s (patrolRow s n) ∧
    ((patrolRow s n).stack n).patrol = ((s.stack n).patrol + 1) % patrolRows n ∧ ((patrolRow s n).stack n).patrolAt = s.tick := by
  have hread := keepsBacklog_rowRead s n (patrolId n (s.stack n).patrol)
  rw [patrolRow_eq, stack_updStack_same]
  refine ⟨hread.trans ?_, rfl, hread.tick⟩
  exact keepsBacklog_updStack _ n fun _ => rfl

end Sys2Proof.Machine

/-! ### Slack windows (R65, R67, R69, R73) -/
namespace Sys2Proof.Machine

/-- The banks that owe refreshes, those with the largest backlog first (R65). -/
def Stack.owing (st : Stack) : List (Nat × Nat) := sortBy (fun a b => decide (b.2 ≤ a.2)) (st.backlog.filter fun e => e.2 != 0)
/-- Pieces of work that refresh takes of those a slack window allows, and that the write-backs take of the rest (R65). -/
def Stack.refreshes (st : Stack) (left : Nat) : Nat := min left st.owing.length
def Stack.writes (st : Stack) (left : Nat) : Nat := min (left - st.refreshes left) st.writebacks.length
/-- A controller after the refreshes and write-backs of a slack window that allows so many pieces of work (R65). -/
def Stack.served (st : Stack) (left : Nat) : Stack := { st with
  backlog := ((st.owing.take (st.refreshes left)).map fun e => (e.1, e.2 - 1)).filter (fun e => e.2 != 0) ++
    st.owing.drop (st.refreshes left)
  writebacks := st.writebacks.drop (st.writes left) }
/-- The patrol takes what is left of a window, and is served in any when it is due (R69, R73). -/
def slackPatrol (s : State) (n left : Nat) : State :=
  if 0 < left ∨ (s.stack n).patrolAt + 3584 ≤ s.tick then patrolRow s n else s
/-- The end of a slack window: banks far behind are refreshed outside (R67), and the pattern's next window is set (R395). -/
def slackEnd (s : State) (n ticks : Nat) : State :=
  let u := ((s.stack n).backlog.filter fun e => decide (8 < e.2)).foldl (fun s e =>
    s.sched (s.tick + ticks) (obj n) (.refreshOutsideSlack e.1)) s
  let (per, len, _) := slackPattern u n
  if u.chip.sched.running ∧ 0 < per ∧ u.tick + per + len ≤ u.chip.sched.frameStart + u.chip.sched.frameLen then
    u.sched (u.tick + per) u.cur (.slackWindow len)
  else u
theorem slackEnd_spec (s : State) (n ticks : Nat) : InUnits s (slackEnd s n ticks) ∧
    ∀ m, (slackEnd s n ticks).stack m = s.stack m := by
  obtain ⟨u, hu⟩ : ∃ u, ((s.stack n).backlog.filter fun e => decide (8 < e.2)).foldl (fun s e =>
    s.sched (s.tick + ticks) (obj n) (.refreshOutsideSlack e.1)) s = u := ⟨_, rfl⟩
  have hin : InUnits s u ∧ u.chip = s.chip ∧ u.net = s.net := by
    rw [← hu]
    generalize ((s.stack n).backlog.filter fun e => decide (8 < e.2)) = l
    clear hu
    induction l generalizing s with
    | nil => exact ⟨.refl s, rfl, rfl⟩
    | cons e l ih =>
      obtain ⟨hin, hc, hn⟩ := ih (s.sched (s.tick + ticks) (obj n) (.refreshOutsideSlack e.1))
      exact ⟨(inUnits_sched s _ _ _).trans hin, hc, hn⟩
  obtain ⟨hin, hc, hn⟩ := hin
  unfold slackEnd
  rw [hu]
  dsimp only
  split
  · exact ⟨hin.trans (inUnits_sched u _ _ _), fun m => by simp only [State.stack, State.sched_chip, State.sched_net, hc, hn]⟩
  · exact ⟨hin, fun m => by simp only [State.stack, hc, hn]⟩

/-- A slack window of a controller that has no transfer to repeat, no row to copy and no granted access: refreshes,
write-backs, patrol (R65). -/
theorem exec_slackWindow_idle {s : State} {ticks : Nat} (ht : 0 < ticks)
    (hr : s.tick < (s.stack s.cur.n).refreshAt + refreshTicks) (hrep : (s.stack s.cur.n).repeats = [])
    (hcop : (s.stack s.cur.n).copies = []) (hag : ∀ e ∈ s.agenda, ∀ k c, e.2.2 ≠ .hbmSectorAccess k c) :
    ∃ u, InUnits s u ∧ u.stack s.cur.n = (s.stack s.cur.n).served (ticks / 8) ∧
      exec (.slackWindow ticks) s = .next (slackEnd (slackPatrol u s.cur.n (ticks / 8 - (s.stack s.cur.n).refreshes (ticks / 8) -
        (s.stack s.cur.n).writes (ticks / 8))) s.cur.n ticks) := by
  have howe : oweRefresh s s.cur.n = s := by
    unfold oweRefresh
    refine if_pos (Nat.div_eq_of_lt ?_)
    rw [refreshTicks] at hr ⊢
    omega
  have hgranted : (s.agenda.filter fun e => decide (e.1 < s.tick + ticks) && (match e.2.2 with
      | .hbmSectorAccess k _ => stackOf (k * 64 % 2 ^ 40) == s.cur.n | _ => false)) = [] := by
    refine List.filter_eq_nil_iff.2 fun e he hcon => ?_
    obtain ⟨-, hm⟩ := Bool.and_eq_true_iff.1 hcon
    split at hm
    · rename_i k c hi; exact hag e he k c hi
    · cases hm
  change ∃ u, _ ∧ _ ∧ execSlackWindow ticks s = _
  unfold execSlackWindow
  extract_lets n sTimer s1 st granted reps s2 left top nref s3 left2 nwb s4 left3 ncopy s5 due s6 s7 q
  rw [if_neg (by omega)]
  have hs1 : s1 = s := howe
  clear_value s1
  subst s1
  have hleft : left = ticks / 8 := by
    have hg : granted = 0 := congrArg List.length hgranted
    have hreps : reps.length = 0 := congrArg (fun l => (List.take 6 l).length) hrep
    simp only [left, hg, hreps]
    rfl
  have hs2 : s2 = s := by
    have hreps : reps = [] := congrArg (List.take 6) hrep
    simp only [s2, hreps]
    rfl
  clear_value s2 left
  subst s2 left
  have hst3 : s3.stack n = { st with backlog := (st.served (ticks / 8)).backlog } := stack_updStack_same _ _ _
  have hnwb : nwb = st.writes (ticks / 8) := by
    simp only [nwb, hst3]
    rfl
  have hst4 : s4.stack n = st.served (ticks / 8) := by
    refine (stack_updStack_same _ _ _).trans ?_
    rw [hst3, hnwb]
    rfl
  have hcopy : ncopy = 0 := by
    have : (s4.stack n).copies = [] := (congrArg Stack.copies hst4).trans hcop
    simp only [ncopy, this]
    exact Nat.min_zero _
  have hs5 : s5 = s4 := by simp only [s5, hcopy]; rfl
  refine ⟨s4, (inUnits_updStack s n _).trans (inUnits_updStack s3 n _), hst4, ?_⟩
  have hs6 : s6 = slackPatrol s4 n (ticks / 8 - st.refreshes (ticks / 8) - st.writes (ticks / 8)) := by
    simp only [s6, due, hs5, hcopy, left3, hnwb, slackPatrol, decide_eq_true_eq]
    rfl
  have hs7 : slackEnd s6 n ticks = (let (per, len, _) := slackPattern s7 n
      if q.running ∧ 0 < per ∧ s7.tick + per + len ≤ q.frameStart + q.frameLen then
        s7.sched (s7.tick + per) s7.cur (.slackWindow len) else s7) := rfl
  rw [← hs6, hs7]
  dsimp only
  split <;> rfl

/-- With no refresh owed, and as many write-backs waiting as the window has room for, nothing is left for the patrol. -/
theorem slackWindow_writes {s : State} {ticks : Nat} (ht : 0 < ticks)
    (hr : s.tick < (s.stack s.cur.n).refreshAt + refreshTicks) (hrep : (s.stack s.cur.n).repeats = [])
    (hcop : (s.stack s.cur.n).copies = []) (hag : ∀ e ∈ s.agenda, ∀ k c, e.2.2 ≠ .hbmSectorAccess k c)
    (hback : (s.stack s.cur.n).backlog = []) (hw : ticks / 8 ≤ (s.stack s.cur.n).writebacks.length)
    (hp : s.tick < (s.stack s.cur.n).patrolAt + 3584) : Completes (.slackWindow ticks) s fun t =>
      (t.stack s.cur.n).writebacks = (s.stack s.cur.n).writebacks.drop (ticks / 8) ∧
      (t.stack s.cur.n).patrol = (s.stack s.cur.n).patrol ∧ SameBut s t s.cur id := by
  obtain ⟨u, hin, hu, hexec⟩ := exec_slackWindow_idle ht hr hrep hcop hag
  have howing : (s.stack s.cur.n).owing = [] := by rw [Stack.owing, hback]; rfl
  have hrefr : (s.stack s.cur.n).refreshes (ticks / 8) = 0 := by rw [Stack.refreshes, howing]; exact Nat.min_zero _
  have hwrites : (s.stack s.cur.n).writes (ticks / 8) = ticks / 8 := by
    rw [Stack.writes, hrefr]
    exact Nat.min_eq_left hw
  have hidle : slackPatrol u s.cur.n (ticks / 8 - (s.stack s.cur.n).refreshes (ticks / 8) -
      (s.stack s.cur.n).writes (ticks / 8)) = u := by
    have hat : (u.stack s.cur.n).patrolAt = (s.stack s.cur.n).patrolAt := by rw [hu, Stack.served]
    refine if_neg ?_
    rw [hrefr, hwrites, hat, hin.tick]
    omega
  rw [hidle] at hexec
  obtain ⟨hend, hstack⟩ := slackEnd_spec u s.cur.n ticks
  refine ⟨_, hexec, ?_, ?_, (hin.trans hend).inChip.sameBut s.cur⟩
  · rw [hstack, hu, Stack.served, hwrites]
  · rw [hstack, hu, Stack.served]
/-- The one bank that owes refreshes is given one (R65). -/
theorem slackWindow_refreshes {s : State} {ticks b k : Nat} (ht : 8 ≤ ticks)
    (hr : s.tick < (s.stack s.cur.n).refreshAt + refreshTicks) (hrep : (s.stack s.cur.n).repeats = [])
    (hcop : (s.stack s.cur.n).copies = []) (hag : ∀ e ∈ s.agenda, ∀ k c, e.2.2 ≠ .hbmSectorAccess k c)
    (hback : (s.stack s.cur.n).backlog = [(b, k)]) : Completes (.slackWindow ticks) s fun t =>
      (t.stack s.cur.n).backlog = if k - 1 = 0 then [] else [(b, k - 1)] := by
  obtain ⟨u, -, hu, hexec⟩ := exec_slackWindow_idle (ticks := ticks) (by omega) hr hrep hcop hag
  have hpatrol (left : Nat) : KeepsBacklog u (slackPatrol u s.cur.n left) := by
    unfold slackPatrol
    split
    · exact (patrolRow_spec u s.cur.n).1
    · exact .refl u
  refine ⟨_, hexec, ?_⟩
  dsimp only
  rw [(slackEnd_spec _ _ _).2, (hpatrol _).backlog, hu]
  have howing : (s.stack s.cur.n).owing = if k = 0 then [] else [(b, k)] := by
    rw [Stack.owing, hback]
    by_cases hk : k = 0
    · subst hk; rfl
    · simp [hk, sortBy, insertBy]
  rw [Stack.served, Stack.refreshes, howing]
  by_cases hk : k = 0
  · simp [hk]
  · have hone : min (ticks / 8) 1 = 1 := by omega
    simp only [hk, if_false, List.length_singleton, hone]
    by_cases hk1 : k - 1 = 0 <;> simp [hk1]

/-- The patrol's timer (R69): a row when the last one was 4,096 ticks ago, and the next time to look. -/
theorem exec_slackWindow_timer (s : State) : exec (.slackWindow 0) s =
    .next (let u := if (s.stack s.cur.n).patrolAt + 4096 ≤ s.tick then patrolRow s s.cur.n else s
      u.sched ((u.stack s.cur.n).patrolAt + 4096) u.cur (.slackWindow 0)) := rfl
theorem slackWindow_timer (s : State) : Completes (.slackWindow 0) s fun t =>
    if (s.stack s.cur.n).patrolAt + 4096 ≤ s.tick then
      (t.stack s.cur.n).patrol = ((s.stack s.cur.n).patrol + 1) % patrolRows s.cur.n ∧ (t.stack s.cur.n).patrolAt = s.tick ∧
        (s.tick + 4096, s.cur, Instr.slackWindow 0) ∈ t.agenda
    else (t.stack s.cur.n).patrol = (s.stack s.cur.n).patrol ∧
      ((s.stack s.cur.n).patrolAt + 4096, s.cur, Instr.slackWindow 0) ∈ t.agenda ∧ SameBut s t s.cur id := by
  refine ⟨_, exec_slackWindow_timer s, ?_⟩
  obtain ⟨hkeep, hrow, hat⟩ := patrolRow_spec s s.cur.n
  split
  · refine ⟨hrow, hat, List.mem_append_right _ (List.mem_singleton.2 ?_)⟩
    rw [hat, hkeep.cur]
  · exact ⟨rfl, List.mem_append_right _ (List.mem_singleton.2 rfl), (inUnits_sched s _ _ _).inChip.sameBut s.cur⟩

end Sys2Proof.Machine

/-! ### Error counters, refresh outside slack and schedule faults (R67, R68, R70, R398) -/
namespace Sys2Proof.Machine

theorem errorCountDecay_spec {s : State} (h : ∀ e ∈ s.chip.hbm, e.2.copies = []) : Completes .errorCountDecay s fun t =>
    t.chip.hbm.map (fun e => (e.1, e.2.errs)) = s.chip.hbm.map (fun e =>
      (e.1, (e.2.errs.map fun r => (r.1, r.2 - 1)).filter fun r => r.2 != 0)) ∧
    t.agenda = s.agenda ++ [(s.tick + 2 ^ 32, obj 0, .errorCountDecay)] ∧ SameBut s t s.cur id := by
  refine ⟨_, rfl, ?_, rfl, InChip.sameBut ?_ s.cur⟩
  · refine List.map_map.trans (List.map_congr_left fun e he => ?_)
    simp only [Function.comp_apply, h e he, List.any_nil, Bool.false_eq_true, and_false, if_false]
  · exact ⟨rfl, rfl, rfl, rfl, fun _ => rfl⟩

theorem refreshOutsideSlack_spec (s : State) (bank : Nat) : Completes (.refreshOutsideSlack bank) s fun t =>
    (t.stack s.cur.n).backlog = ((s.stack s.cur.n).backlog.map fun e => if e.1 = bank then (e.1, e.2 - 1) else e).filter
      (fun e => e.2 != 0) ∧ SameBut s t s.cur id := by
  obtain ⟨u, hu⟩ : ∃ u, s.updStack s.cur.n (fun st => { st with
    backlog := (st.backlog.map fun e => if e.1 = bank then (e.1, e.2 - 1) else e).filter (fun e => e.2 != 0) }) = u := ⟨_, rfl⟩
  have hin : InUnits s u := hu ▸ inUnits_updStack s s.cur.n _
  have hback : (u.stack s.cur.n).backlog = ((s.stack s.cur.n).backlog.map fun e =>
      if e.1 = bank then (e.1, e.2 - 1) else e).filter (fun e => e.2 != 0) := by
    rw [← hu, stack_updStack_same]
  refine ⟨if anyStrict u && u.chip.sched.running then reportFaultOf u u.cur.n 2 else u, by rw [← hu]; rfl, ?_⟩
  split
  · exact ⟨hback, (hin.trans (inUnits_sched u _ _ _)).inChip.sameBut s.cur⟩
  · exact ⟨hback, hin.inChip.sameBut s.cur⟩

theorem inUnits_toFirmware (s : State) (r : Rec) (w : Option Iss) : InUnits s (toFirmware s r w) :=
  .of_chip rfl rfl rfl rfl rfl rfl
/-- A schedule fault, when its record has gone to firmware (R68, R398). -/
def faultedOnce (u : State) (cause : Nat) : State :=
  u.updChip fun h => { h with sched := { h.sched with faulted := true, nocount := cause == 4 } }
theorem exec_scheduleFault (s : State) (cause : Nat) : exec (.scheduleFault cause) s = .next (
    let u := recovery s ⟨0, 0, 16⟩ 7 (bits s.chip.sstep 0 32) 0
    if !s.chip.sched.running ∨ s.chip.sched.faulted then u
    else if cause = 4 then faultedOnce u cause
    else ((faultedOnce u cause).free 1000).2.sched (s.tick + (u.free 1000).1) (obj 0)
      (.resyncBeacon (s.tick + 4000 + (initBytes s + 255) / 256))) := by
  change execScheduleFault cause s = _
  unfold execScheduleFault
  extract_lets u v
  have hu : u.chip = s.chip := rfl
  rw [hu]
  split
  · rfl
  · split
    · rfl
    · rfl
theorem scheduleFault_spec (s : State) (cause : Nat) : Completes (.scheduleFault cause) s fun t =>
    (s.chip.sched.running = true → s.chip.sched.faulted = false →
      t.chip.sched.faulted = true ∧ t.chip.sched.nocount = (cause == 4) ∧
      (cause ≠ 4 → ∃ d, d ≤ 1000 ∧ (s.tick + d, obj 0, Instr.resyncBeacon (s.tick + 4000 + (initBytes s + 255) / 256)) ∈
        t.agenda)) ∧ SameBut s t s.cur id := by
  refine ⟨_, exec_scheduleFault s cause, ?_⟩
  extract_lets u
  have hin : InUnits s u := inUnits_toFirmware s _ none
  have hfault : InUnits u (faultedOnce u cause) := .of_chip rfl rfl rfl rfl rfl rfl
  split
  · rename_i hno
    refine ⟨fun hrun hfresh => ?_, hin.inChip.sameBut s.cur⟩
    rw [hrun, hfresh] at hno
    simp at hno
  · split
    · rename_i h4
      exact ⟨fun _ _ => ⟨rfl, rfl, fun hne => absurd h4 hne⟩, (hin.trans hfault).inChip.sameBut s.cur⟩
    · refine ⟨fun _ _ => ⟨rfl, rfl, fun _ => ⟨_, State.free_le u 1000, List.mem_append_right _ (List.mem_singleton.2 rfl)⟩⟩, ?_⟩
      refine InChip.sameBut (InUnits.inChip ((hin.trans hfault).trans ?_)) s.cur
      exact .of_chip rfl rfl rfl rfl rfl rfl

/-- Settles O35: each event of the controllers by its lemma. -/
theorem memoryMaintenance : Obligations.MemoryMaintenance := by
  unfold Obligations.MemoryMaintenance
  intro s n st
  exact ⟨errorCountDecay_spec, refreshOutsideSlack_spec s, fun ticks ht hr hrep hcop hag =>
    ⟨fun hback hw hp => slackWindow_writes ht hr hrep hcop hag hback hw hp, fun b k hback ht8 =>
      slackWindow_refreshes ht8 hr hrep hcop hag hback⟩, slackWindow_timer s, scheduleFault_spec s⟩

end Sys2Proof.Machine


/-! ### The home of an access (R58, R61, R66, R144, R293, R295) -/
namespace Sys2Proof.Machine

theorem req_id {s : State} {id : Nat} {q : Req} (h : s.req id = some q) : q.id = id :=
  eq_of_beq (List.find?_some (p := fun q : Req => q.id == id) h)
theorem req_updReq {s : State} {q : Req} (h : s.req q.id = some q) {f : Req → Req} (hf : ∀ p, (f p).id = p.id) :
    (s.updReq q.id f).req q.id = some (f q) := by
  have hkey : ((fun p : Req => p.id == q.id) ∘ fun p => if p.id = q.id then f p else p) = fun p => p.id == q.id := by
    funext p
    rw [Function.comp_apply]
    split
    · rw [hf]
    · rfl
  refine (List.find?_map (l := s.chip.reqs)).trans ?_
  rw [hkey]
  refine (congrArg _ h).trans ?_
  exact congrArg some (if_pos rfl)

/-- What an answer, a count and a controller's own bookkeeping leave: memory and stamps, the accesses in flight and the
superstep's number. -/
structure KeepsHome (s t : State) : Prop where
  mem : t.mem = s.mem
  stamps : t.stamps = s.stamps
  sstep : t.chip.sstep = s.chip.sstep
  reqs : t.chip.reqs = s.chip.reqs
theorem KeepsHome.refl (s : State) : KeepsHome s s := ⟨rfl, rfl, rfl, rfl⟩
theorem KeepsHome.trans {s t u : State} (h : KeepsHome s t) (k : KeepsHome t u) : KeepsHome s u :=
  ⟨k.mem.trans h.mem, k.stamps.trans h.stamps, k.sstep.trans h.sstep, k.reqs.trans h.reqs⟩
theorem KeepsHome.byte {s t : State} (h : KeepsHome s t) (k : Nat) : t.byte k = s.byte k := by rw [State.byte, h.mem, State.byte]
theorem KeepsHome.stamp {s t : State} (h : KeepsHome s t) (k : Nat) : t.stamp k = s.stamp k := by
  rw [State.stamp, h.stamps, State.stamp]
theorem KeepsHome.req {s t : State} (h : KeepsHome s t) (id : Nat) : t.req id = s.req id := by rw [State.req, h.reqs, State.req]
theorem keepsHome_count (s : State) (ev : Nat) (w : Iss) (n : Nat) : KeepsHome s (s.count ev w n) := by
  unfold State.count
  split <;> exact ⟨rfl, rfl, rfl, rfl⟩
theorem keepsHome_updStack (s : State) (n : Nat) (f : Stack → Stack) : KeepsHome s (s.updStack n f) := by
  unfold State.updStack
  split <;> exact ⟨rfl, rfl, rfl, rfl⟩
theorem keepsHome_sched (s : State) (t : Nat) (o : Iss) (i : Instr) : KeepsHome s (s.sched t o i) := ⟨rfl, rfl, rfl, rfl⟩
theorem keepsHome_answer (s : State) (q : Req) : KeepsHome s (answer s q) := by
  unfold answer
  split
  · split <;> exact ⟨rfl, rfl, rfl, rfl⟩
  · exact ⟨rfl, rfl, rfl, rfl⟩
  · exact ⟨rfl, rfl, rfl, rfl⟩
  · exact ⟨rfl, rfl, rfl, rfl⟩
  · exact ⟨rfl, rfl, rfl, rfl⟩
  · dsimp only
    split <;> split <;> exact ⟨rfl, rfl, rfl, rfl⟩
theorem keepsHome_answerSector (s : State) (id : Nat) : KeepsHome s (answerSector s id) := by
  unfold answerSector
  split
  · exact .refl s
  · extract_lets each
    split
    · exact keepsHome_answer s _
    · exact .refl s

theorem exec_hbmSectorAccess_waits {s : State} {q : Req} {sec : Nat} (e : Ecc) (hq : s.req s.cur.n = some q)
    (hsec : sec ∈ q.sectors) (hw : mustWait s q sec = true) :
    exec (.hbmSectorAccess sec e) s = .next (s.sched (s.tick + 1) s.cur (.hbmSectorAccess sec e)) := by
  change execHbmSectorAccess sec e s = _
  rw [execHbmSectorAccess, hq]
  dsimp only
  rw [List.contains_iff_mem.2 hsec, hw]
  rfl
/-- The transfer of a sector has failed its check for the first time, and nothing is done (R66). -/
def TransferFails (s t : State) (q : Req) (sec : Nat) : Prop :=
  q.space = 0 ∧ (q.id, sec, 1) ∈ (t.stack (stackOf (sec * 64 % 2 ^ 40))).repeats ∧ KeepsHome s t
/-- A good sector is applied, when the counts of its access are made (R58, R439). -/
theorem hbmApply_good (s : State) (q : Req) (sec : Nat) : ∃ v, KeepsHome s v ∧
    hbmApply s q sec .good = applySector v q sec .good := by
  unfold hbmApply
  extract_lets ev v v'
  have hv' : v' = v := if_neg fun h => Ecc.noConfusion h.2
  rw [hv']
  refine ⟨v, ?_, rfl⟩
  unfold v
  split
  · exact keepsHome_count s ev q.w 1
  · exact .refl s
/-- A sector that need not wait is applied and answered, or its transfer fails (R58, R66). -/
theorem exec_hbmSectorAccess_applies {s : State} {q : Req} {sec : Nat} (hq : s.req s.cur.n = some q)
    (hsec : sec ∈ q.sectors) (hw : mustWait s q sec = false)
    (hrep : ∀ e ∈ (s.stack (stackOf (sec * 64 % 2 ^ 40))).repeats, ¬(e.1 = q.id ∧ e.2.1 = sec)) :
    ∃ t, exec (.hbmSectorAccess sec .good) s = .next t ∧ (TransferFails s t q sec ∨
      ∃ u, KeepsHome s u ∧ t = answerSector (applySector u q sec .good) q.id) := by
  have happly (u : State) (hu : KeepsHome s u) : ∃ v, KeepsHome s v ∧
      answerSector (hbmApply u q sec .good) q.id = answerSector (applySector v q sec .good) q.id := by
    obtain ⟨v, hv, heq⟩ := hbmApply_good u q sec
    exact ⟨v, hu.trans hv, by rw [heq]⟩
  have hnone : (s.stack (stackOf (sec * 64 % 2 ^ 40))).repeats.find? (fun e => e.1 == q.id && e.2.1 == sec) = none := by
    refine List.find?_eq_none.2 fun e he hm => ?_
    obtain ⟨h1, h2⟩ := Bool.and_eq_true_iff.1 hm
    exact hrep e he ⟨eq_of_beq h1, eq_of_beq h2⟩
  change ∃ t, execHbmSectorAccess sec .good s = _ ∧ _
  unfold execHbmSectorAccess
  rw [hq]
  dsimp -zeta only
  rw [List.contains_iff_mem.2 hsec, hw, Bool.not_true, if_neg Bool.false_ne_true, if_neg Bool.false_ne_true]
  by_cases hsp : q.space = 0
  · rw [if_neg (not_not.2 hsp)]
    have hkeep : KeepsHome s (s.free 1).2 := ⟨rfl, rfl, rfl, rfl⟩
    extract_lets n mine fails drop s2
    have hfails : fails = 0 := by
      have : ((s.free 1).2.stack n).repeats.find? mine = none := hnone
      simp only [fails, this]
    split
    · exact ⟨_, rfl, .inr (happly _ (hkeep.trans (keepsHome_updStack _ n _)))⟩
    · rw [if_neg (by rw [hfails]; decide)]
      have hfail : TransferFails s s2 q sec := by
        refine ⟨hsp, ?_, hkeep.trans (keepsHome_updStack _ n _)⟩
        rw [stack_updStack_same, if_pos hfails]
        exact List.mem_append_right _ (List.mem_singleton.2 rfl)
      obtain ⟨-, hmem, hs2⟩ := hfail
      split
      · exact ⟨s2, rfl, .inl ⟨hsp, hmem, hs2⟩⟩
      · exact ⟨_, rfl, .inl ⟨hsp, hmem, hs2.trans ⟨rfl, rfl, rfl, rfl⟩⟩⟩
  · rw [if_pos hsp]
    exact ⟨_, rfl, .inr (happly s (.refl s))⟩

/-! What one step at the home makes of a sector (R58, R144, R293). -/

/-- The lanes of an access in one sector. -/
def Req.lanesIn (q : Req) (sec : Nat) : List LaneAcc := q.lanes.filter fun l => l.pa / 64 == sec
/-- The number behind a lane's place before the access. -/
def State.oldValue (s : State) (q : Req) (l : LaneAcc) : DWord :=
  BitVec.ofNat 64 (leNat (s.bytes (memKey q.space l.pa) (accSize q.h.i)))
theorem KeepsHome.oldValue {s t : State} (h : KeepsHome s t) (q : Req) (l : LaneAcc) : t.oldValue q l = s.oldValue q l := by
  rw [State.oldValue, bytes_of_mem h.mem, State.oldValue]

/-- A load of one lane in the sector: the access has the value read (R58, R286). -/
theorem applySector_load (s : State) {q : Req} {sec : Nat} {l : LaneAcc} (hk : q.kind = .load) (hl : q.lanesIn sec = [l]) :
    ∃ f : Req → Req, (∀ p, (f p).id = p.id) ∧
      (∀ p, (f p).results = p.results ++ [(l.lane, [(applyLane s (memKey q.space l.pa) q.h.i []).2])]) ∧
      applySector s q sec .good = s.updReq q.id f := by
  rw [Req.lanesIn] at hl
  unfold applySector
  have hgood : (Ecc.good == Ecc.bad) = false := rfl
  simp only [hk, hl, hgood, Bool.false_and, Bool.false_eq_true, if_false]
  refine ⟨_, ?_, ?_, rfl⟩ <;> exact fun _ => rfl
/-- A write of one lane in the sector: its bytes, the sector's stamp, and the value before it (R58, R61, R293). -/
theorem applySector_write (s : State) {q : Req} {sec : Nat} {l : LaneAcc}
    (hk : q.kind = .store ∨ q.kind = .red ∨ q.kind = .atom) (hl : q.lanesIn sec = [l]) :
    ∃ f : Req → Req, (∀ p, (f p).id = p.id) ∧
      (∀ p, (f p).results = p.results ++ [(l.lane, [(applyLane s (memKey q.space l.pa) q.h.i l.ops).2])]) ∧
      applySector s q sec .good = (stampWrite (applyLane s (memKey q.space l.pa) q.h.i l.ops).1 q sec).updReq q.id f := by
  rw [Req.lanesIn] at hl
  have hgood : (Ecc.good == Ecc.bad) = false := rfl
  have hserved : ((q.kind == .atom || q.kind == .red) && (q.space == 0 && granulePsn s (sec * 64)) && q.space == 2) = false := by
    by_cases h0 : q.space = 0 <;> simp [h0]
  unfold applySector
  simp only [hl, hgood, Bool.false_and, Bool.false_or, Bool.false_eq_true, if_false]
  rcases hk with hw | hw | hw
  all_goals
    simp only [hw] at hserved ⊢
    simp only [hserved, Bool.false_eq_true, if_false]
    refine ⟨_, ?_, ?_, rfl⟩ <;> exact fun _ => rfl

/-- What an access that writes makes of the stamp of its sector (R61, R144). -/
def stampAfter (s : State) (q : Req) (old : BitVec 16) : BitVec 16 :=
  if q.chk = false then 0xC000 else if q.sync = true ∨ q.kind ≠ .store then old
  else BitVec.ofNat 16 (s.sstep % 256 + q.w.cl % 64 * 2 ^ 8 + (if q.space = 0 then 0 else 2 ^ 14))
theorem stampWrite_spec {s : State} (hs : Sparse.wf unlistedStamp s.stamps = true) {q : Req}
    (hk : q.kind = .store ∨ q.kind = .red ∨ q.kind = .atom) (sec : Nat) :
    (stampWrite s q sec).mem = s.mem ∧ (stampWrite s q sec).chip = s.chip ∧ ∀ k, (stampWrite s q sec).stamp k =
      if k = sec ∧ (q.space = 0 ∨ q.space = 1) then stampAfter s q (s.stamp k) else s.stamp k := by
  have hset (chk : Bool) (cl kind k : Nat) : (s.setStamp sec chk cl kind).stamp k = if k = sec then
      (if chk then BitVec.ofNat 16 (s.sstep % 256 + cl % 64 * 2 ^ 8 + kind * 2 ^ 14) else 0xC000) else s.stamp k :=
    Sparse.get_set k hs
  unfold stampWrite
  by_cases hsp : q.space = 0 ∨ q.space = 1
  · rw [if_neg (by omega)]
    have hstamp (k : Nat) (v : BitVec 16) : (if k = sec ∧ (q.space = 0 ∨ q.space = 1) then v else s.stamp k) =
        if k = sec then v else s.stamp k := by simp [hsp]
    simp only [hstamp, stampAfter]
    by_cases hc : q.chk = false
    · rw [hc]
      exact ⟨rfl, rfl, fun k => hset false q.w.cl 0 k⟩
    · rw [Bool.not_eq_false] at hc
      rw [hc]
      by_cases hsync : q.sync = true ∨ q.kind ≠ .store
      · rw [if_neg (by decide), if_pos]
        · refine ⟨rfl, rfl, fun k => ?_⟩
          simp [hsync]
        · rcases hsync with h | h
          · rw [h]; rfl
          · rcases hk with hk | hk | hk
            · exact absurd hk h
            · simp [hk]
            · simp [hk]
      · obtain ⟨h1, h2⟩ := not_or.1 hsync
        rw [not_not] at h2
        rw [if_neg (by decide), if_neg (by simp [h1, h2])]
        refine ⟨rfl, rfl, fun k => ?_⟩
        refine (hset true _ _ k).trans ?_
        by_cases h0 : q.space = 0 <;> simp [h0, h1, h2]
  · rw [if_pos (by omega)]
    exact ⟨rfl, rfl, fun k => (if_neg fun h => hsp h.2).symm⟩


/-- One lane of the sector now holds v, no other byte differs, and of the stamps only the sector's (R58, R61). -/
structure LaneWritten (s t : State) (q : Req) (sec : Nat) (l : LaneAcc) (v : DWord) : Prop where
  inside : ∀ k, k < accSize q.h.i → t.byte (memKey q.space l.pa + k) = BitVec.ofNat 8 (v.toNat / 256 ^ k % 256)
  outside : ∀ k, ¬(memKey q.space l.pa ≤ k ∧ k < memKey q.space l.pa + accSize q.h.i) → t.byte k = s.byte k
  stamps : ∀ k, t.stamp k = if k = sec ∧ (q.space = 0 ∨ q.space = 1) then stampAfter s q (s.stamp k) else s.stamp k
/-- A write of one lane at the home: its bytes take the new value, and the access has the old one (R58, R61, R293). -/
theorem applySector_written {s u : State} (hs : s.memWf) (hu : KeepsHome s u) {q : Req} {sec : Nat} {l : LaneAcc}
    (hq : s.req q.id = some q) (hk : q.kind = .store ∨ q.kind = .red ∨ q.kind = .atom) (hl : q.lanesIn sec = [l]) {v : DWord}
    (hv : applyLane u (memKey q.space l.pa) q.h.i l.ops =
      (u.setBytes (memKey q.space l.pa) (toBytes (accSize q.h.i) v.toNat), u.oldValue q l)) :
    let t := answerSector (applySector u q sec .good) q.id
    LaneWritten s t q sec l v ∧ ((t.req q.id).map fun r => r.results) = some (q.results ++ [(l.lane, [s.oldValue q l])]) := by
  obtain ⟨f, hid, hres, happly⟩ := applySector_write u (sec := sec) (l := l) hk hl
  rw [hv] at happly hres
  obtain ⟨u1, hu1⟩ : ∃ u1, u.setBytes (memKey q.space l.pa) (toBytes (accSize q.h.i) v.toNat) = u1 := ⟨_, rfl⟩
  rw [hu1] at happly
  have hchip1 : u1.chip = u.chip := hu1 ▸ State.setBytes_chip u _ _
  have hstamps1 : u1.stamps = s.stamps := hu1 ▸ (State.setBytes_stamps u _ _).trans hu.stamps
  obtain ⟨hmem, hchip, hstamp⟩ := stampWrite_spec (s := u1) (hstamps1 ▸ hs.2) hk sec
  have hanswer := keepsHome_answerSector (applySector u q sec .good) q.id
  have hbyte (k : Nat) : (answerSector (applySector u q sec .good) q.id).byte k = u1.byte k := by
    rw [hanswer.byte, happly, State.byte, State.updReq_mem, hmem, State.byte]
  have hwf : Memory.wf u.mem = true := by rw [hu.mem]; exact hs.1
  refine ⟨⟨fun k hk => ?_, fun k hk => ?_, fun k => ?_⟩, ?_⟩
  · rw [hbyte, ← hu1]
    exact byte_setBytes_toBytes hwf _ _ _ k hk
  · rw [hbyte, ← hu1, State.byte_setBytes_other (by rw [length_toBytes]; omega) hwf, hu.byte]
  · have hsame : u1.stamp k = s.stamp k := by rw [State.stamp, hstamps1, State.stamp]
    have hafter (old : BitVec 16) : stampAfter u1 q old = stampAfter s q old := by
      rw [stampAfter, State.sstep, hchip1, hu.sstep, stampAfter, State.sstep]
    rw [hanswer.stamp, happly]
    refine (hstamp k).trans ?_
    rw [hsame, hafter]
  · have hq1 : (stampWrite u1 q sec).req q.id = some q := by
      rw [State.req, hchip, hchip1, hu.reqs]
      exact hq
    rw [hanswer.req, happly, req_updReq hq1 hid, Option.map_some, hres, hu.oldValue]
/-- A load of one lane at the home: no byte and no stamp changes, and the access has the value read (R58, R286). -/
theorem applySector_loaded {s u : State} (hu : KeepsHome s u) {q : Req} {sec : Nat} {l : LaneAcc}
    (hq : s.req q.id = some q) (hk : q.kind = .load) (hl : q.lanesIn sec = [l]) {o : MemF} {sz : BitVec 2} {sx : Bool}
    (hi : q.h.i = .ld o sz sx) :
    let t := answerSector (applySector u q sec .good) q.id
    (∀ k, t.byte k = s.byte k) ∧ t.stamps = s.stamps ∧
      ((t.req q.id).map fun r => r.results) = some (q.results ++ [(l.lane, [s.oldValue q l])]) := by
  obtain ⟨f, hid, hres, happly⟩ := applySector_load u (sec := sec) hk hl
  have hold : (applyLane u (memKey q.space l.pa) q.h.i []).2 = u.oldValue q l := by rw [State.oldValue, hi]; rfl
  have hanswer := keepsHome_answerSector (applySector u q sec .good) q.id
  refine ⟨fun k => ?_, ?_, ?_⟩
  · rw [hanswer.byte, happly, ← hu.byte]
    rfl
  · rw [hanswer.stamps, happly]
    exact hu.stamps
  · rw [hanswer.req, happly, req_updReq ((hu.req _).trans hq) hid, Option.map_some, hres, hold, hu.oldValue]

/-- Settles O29: the wait and the failed transfer, then loads and writes of a lane, the new value by the instruction. -/
theorem homeAccesses : Obligations.HomeAccesses := by
  unfold Obligations.HomeAccesses
  intro s q sec l key n old E stack written fails hs hq hsec hl
  refine ⟨exec_hbmSectorAccess_waits _ hq hsec, fun hw hrep => ?_⟩
  have hqid : s.req q.id = some q := by rw [req_id hq]; exact hq
  obtain ⟨t, hexec, ht⟩ := exec_hbmSectorAccess_applies hq hsec hw hrep
  have hfails : TransferFails s t q sec → fails t := fun ⟨hsp, hmem, hkeep⟩ =>
    ⟨hsp, hmem, hkeep.byte, hkeep.stamps, (hkeep.req _).trans hqid⟩
  have hwritten (v : DWord) (h : LaneWritten s t q sec l v) : written t v := ⟨h.inside, h.outside, h.stamps⟩
  refine ⟨fun hk ⟨o, sz, sx, hi⟩ => ⟨t, hexec, ht.imp hfails ?_⟩, fun hk ⟨o, sz, hi⟩ => ⟨t, hexec, ht.imp hfails ?_⟩,
    fun o b64 fn hk _ => ⟨t, hexec, ht.imp hfails ?_⟩⟩
  · rintro ⟨u, hu, rfl⟩
    exact applySector_loaded hu hqid hk hl hi
  · rintro ⟨u, hu, rfl⟩
    refine hwritten _ (applySector_written hs hu hqid (.inl hk) hl ?_).1
    rw [State.oldValue, hi]
    rfl
  · rintro ⟨u, hu, rfl⟩
    have hold : u.oldValue q l = old := hu.oldValue q l
    have hkind : q.kind = .store ∨ q.kind = .red ∨ q.kind = .atom := hk.elim (.inr <| .inr ·.1) (.inr <| .inl ·.1)
    obtain ⟨hlane, hres⟩ := applySector_written hs hu hqid hkind hl
      (v := newValue fn b64 old (nth l.ops 0 0) (nth l.ops 1 0)) (by
        rw [← hold, State.oldValue]
        rcases hk with ⟨-, hi⟩ | ⟨-, hi⟩ <;> rw [hi] <;> rfl)
    exact ⟨hwritten _ hlane, hres⟩

end Sys2Proof.Machine


/-! ### Replies of loads (R62, R186, R286) -/
namespace Sys2Proof.Machine

theorem logAnswer_local {s : State} {q : Req} (h : s.dbg.rlogOn = true → q.space = 0 ∨ q.space = 3) (word : DWord) :
    logAnswer s q word = s := by
  refine if_neg fun hlog => ?_
  obtain ⟨hon, hsp⟩ := Bool.and_eq_true_iff.1 hlog
  rcases h hon with h0 | h0 <;> rw [h0] at hsp <;> cases hsp
theorem inUnits_delReq (s : State) (id : Nat) : InUnits s (s.delReq id) := .of_chip rfl rfl rfl rfl rfl rfl

/-- An issuer's bookkeeping: its registers, results in flight and PCs stay, what it waits for, and the chip. -/
structure Booked (s t : State) (w : Iss) : Prop where
  keeps : KeepsRegs s t w
  chip : t.chip = s.chip
  wait : (t.iss w).wait = (s.iss w).wait
theorem Booked.refl (s : State) (w : Iss) : Booked s s w := ⟨.refl s w, rfl, rfl⟩
theorem Booked.trans {s t u : State} {w : Iss} (h : Booked s t w) (k : Booked t u w) : Booked s u w :=
  ⟨h.keeps.trans k.keeps, k.chip.trans h.chip, k.wait.trans h.wait⟩
theorem booked_updIss (s : State) (w : Iss) {f : Issuer → Issuer} (hs : (f (s.iss w)).slot = w.n)
    (hr : (f (s.iss w)).regs = (s.iss w).regs) (hp : (f (s.iss w)).pend = (s.iss w).pend)
    (hc : (f (s.iss w)).pcs = (s.iss w).pcs) (hw : (f (s.iss w)).wait = (s.iss w).wait) : Booked s (s.updIss w f) w :=
  ⟨keepsRegs_updIss s w f hs hr hp hc, rfl, by rw [iss_updIss _ _ _ hs, hw]⟩
theorem booked_domJoin (s : State) (w : Iss) (t : Nat) : Booked s (domJoin s w t) w :=
  (booked_updIss s w (f := fun me => { me with hb := joinClock s me.hb (s.chip.cluster w.cl).hb })
    (state_iss_slot s w) rfl rfl rfl rfl).trans
    (booked_updIss _ w (f := fun me => { me with domAt := max me.domAt t }) (state_iss_slot _ w) rfl rfl rfl rfl)
theorem booked_foldLoad (s : State) (w : Iss) (rnum : Nat) (ws : List Wr) : Booked s (foldLoad s w rnum ws) w := by
  unfold foldLoad
  split
  · exact booked_updIss s w (state_iss_slot s w) rfl rfl rfl rfl
  · exact .refl s w

/-- The results of a reply, one a destination register, as they are put in flight (R160, R286). -/
def replyPends (vis rnum home itick : Nat) (ws : List Wr) : List Pend :=
  (ws.filter fun e => !e.2.isEmpty).map fun e => ⟨vis, e.1, e.2, rnum, home, itick⟩
/-- More results in flight change no register. -/
theorem sameBut_pend {s u : State} {w : Iss} (h : Booked s u w) {f : Issuer → Issuer} {ps : List Pend}
    (hs : (f (u.iss w)).slot = w.n) (hr : (f (u.iss w)).regs = (u.iss w).regs) (hp : (f (u.iss w)).pend = (u.iss w).pend ++ ps) :
    SameBut s (u.updIss w f) w id ∧ (u.updIss w f).chip = s.chip ∧
      ((u.updIss w f).iss w).pend = (s.iss w).pend ++ ps := by
  refine ⟨h.keeps.same.trans ((atIssuer_updIss u w f hs).sameBut (by rw [iss_updIss _ _ _ hs, hr])), h.chip, ?_⟩
  rw [iss_updIss _ _ _ hs, hp, h.keeps.pend]
theorem loadResult_spec (s : State) (q : Req) (rnum vis : Nat) (ws : List Wr) :
    let t := loadResult s q rnum vis ws
    SameBut s t q.w id ∧ t.chip = s.chip ∧ (t.iss q.w).wait = (s.iss q.w).wait ∧
      (t.iss q.w).pend = (s.iss q.w).pend ++ replyPends vis rnum q.space q.h.itick ws := by
  have hbook := (booked_foldLoad s q.w rnum ws).trans (booked_domJoin _ q.w vis)
  obtain ⟨hsame, hchip, hpend⟩ := sameBut_pend hbook (ps := replyPends vis rnum q.space q.h.itick ws) (f := fun me => { me with
    regions := me.regions.map fun r => if r.num = rnum then { r with lastVis := max r.lastVis vis } else r
    pend := me.pend ++ (ws.filter fun e => !e.2.isEmpty).map fun e => (⟨vis, e.1, e.2, rnum, q.space, q.h.itick⟩ : Pend) })
    (state_iss_slot _ _) rfl rfl
  refine ⟨hsame, hchip, ?_, hpend⟩
  rw [loadResult, iss_updIss _ _ _ (by exact state_iss_slot _ _)]
  exact hbook.wait

/-- The values that a load's reply brings, under the bytes forwarded to it at issue (R121, R286). -/
def replyValues (q : Req) (n : Nat) : List (Nat × DWord) := q.results.map fun r =>
  (r.1, overlay n (match q.lanes.find? fun a => a.lane == r.1 with
    | some a => ((nth a.ops 0 0).toNat, (nth a.ops 1 0).toNat) | none => (0, 0)) (nth r.2 0 0))
/-- The tick at which a load's reply becomes visible (R31, R286). -/
def replyTick (s : State) (q : Req) : Nat :=
  max q.bound (if (s.coreOf q.w).elastic = true then s.tick + replyLead else s.tick)
theorem exec_loadReply_visible {s : State} {q : Req} (hq : s.req s.cur.n = some q)
    (hlog : s.dbg.rlogOn = true → q.space = 0 ∨ q.space = 3) {o : MemF} {sz : BitVec 2} {sx : Bool} (hk : q.kind = .load)
    (hi : q.h.i = .ld o sz sx) (hpsn : q.psn = false) (hstat : q.stat ≠ 2) (hchk : q.chk = false)
    (hsp : q.space = 0 ∨ q.space = 2) : ∃ late : Issuer → Option (Nat × Nat), exec .loadReply s =
      .next ((loadResult (s.delReq q.id) q q.rnum (replyTick s q)
        (loadWrites (q.w.n == 16) o.data.toNat (2 ^ sz.toNat) sx (replyValues q (2 ^ sz.toNat)))).updIss q.w fun me =>
          { me with wait := if me.wait = .reply q.id then .until_ (replyTick s q) else me.wait, late := late me }) := by
  have hrace : replyRace (s.delReq q.id) q = none := by rw [replyRace, hchk]; rfl
  have hvis : (if ((s.delReq q.id).coreOf q.w).elastic = true then max q.bound ((s.delReq q.id).tick + replyLead)
      else max q.bound (s.delReq q.id).tick) = replyTick s q := (apply_ite (max q.bound) _ _ _).symm
  have hgood : (q.psn || q.stat == 2) = false := by simp [hpsn, hstat]
  have hnear : ¬(q.space = 1 ∨ q.space = 3) := by omega
  change ∃ late, execLoadReply s = _
  unfold execLoadReply
  simp only [hq, hk, reduceCtorEq, if_false, logAnswer_local hlog, hgood, Bool.and_false, Bool.false_eq_true, hrace, hi, hvis, hnear]
  exact ⟨_, rfl⟩
/-- A load's reply that brings its values: they become visible at a tick, and an issuer that waits for it waits until
then (R31, R286). -/
theorem loadReply_visible {s : State} {q : Req} (hq : s.req s.cur.n = some q)
    (hlog : s.dbg.rlogOn = true → q.space = 0 ∨ q.space = 3) {o : MemF} {sz : BitVec 2} {sx : Bool} (hk : q.kind = .load)
    (hi : q.h.i = .ld o sz sx) (hpsn : q.psn = false) (hstat : q.stat ≠ 2) (hchk : q.chk = false)
    (hsp : q.space = 0 ∨ q.space = 2) :
    Completes .loadReply s fun t => t.chip.reqs = (s.chip.reqs.filter fun p => p.id != q.id) ∧
      (t.iss q.w).pend = (s.iss q.w).pend ++ replyPends (replyTick s q) q.rnum q.space q.h.itick
        (loadWrites (q.w.n == 16) o.data.toNat (2 ^ sz.toNat) sx (replyValues q (2 ^ sz.toNat))) ∧
      (t.iss q.w).wait = (if (s.iss q.w).wait = .reply q.id then .until_ (replyTick s q) else (s.iss q.w).wait) ∧
      SameBut s t q.w id := by
  obtain ⟨late, hexec⟩ := exec_loadReply_visible hq hlog hk hi hpsn hstat hchk hsp
  obtain ⟨hsame, hchip, hwait, hpend⟩ := loadResult_spec (s.delReq q.id) q q.rnum (replyTick s q)
    (loadWrites (q.w.n == 16) o.data.toNat (2 ^ sz.toNat) sx (replyValues q (2 ^ sz.toNat)))
  obtain ⟨u, hu⟩ : ∃ u, loadResult (s.delReq q.id) q q.rnum (replyTick s q)
    (loadWrites (q.w.n == 16) o.data.toNat (2 ^ sz.toNat) sx (replyValues q (2 ^ sz.toNat))) = u := ⟨_, rfl⟩
  rw [hu] at hexec hsame hchip hwait hpend
  have hdel : SameBut s (s.delReq q.id) q.w id := (inUnits_delReq s q.id).inChip.sameBut q.w
  have hiss := iss_updIss u q.w (fun me => { me with
    wait := if me.wait = .reply q.id then .until_ (replyTick s q) else me.wait, late := late me }) (state_iss_slot u q.w)
  refine ⟨_, hexec, congrArg Chip.reqs hchip, ?_, ?_, (hdel.trans hsame).trans ?_⟩
  · rw [hiss]
    exact hpend
  · rw [hiss]
    dsimp only
    rw [hwait]
    rfl
  · exact (keepsRegs_updIss u q.w _ (state_iss_slot u q.w) rfl rfl rfl).same

/-! A discard of all regions, and the report of it (R186, R187, R189). -/

theorem chip_count (s : State) (ev : Nat) (w : Iss) (n : Nat) : (s.count ev w n).chip = s.chip := by
  unfold State.count
  split <;> rfl
/-- An issuer whose regions from r on are discarded: it is set to enter r again (R186, R187, R189). -/
def reentering (r : Region) (gone : List Region) (adv : Bool) (me : Issuer) : Issuer := dropPend { me with
  regions := me.regions.take 0
  rnum := (r.num + 2 ^ 32 - 1) % 2 ^ 32
  rcount := if 0 = 0 ∧ adv then me.rcount + 1 else me.rcount
  dqpos := r.dqpos, phs := r.phs, ended := r.ended, fenced := r.fenced
  wait := .run, redo := some r, entered := false, delay := 0 } gone
/-- A discard of an issuer's regions changes no byte and starts no access, and its next entry is at the opener of the oldest
one (R186, R187, R189). -/
theorem discardAll_some {s : State} {w : Iss} {r : Region} {rest : List Region} (h : (s.iss w).regions = r :: rest)
    (adv : Bool) : let t := discardAll s w adv
    t.mem = s.mem ∧ (∀ p ∈ t.chip.reqs, p ∈ s.chip.reqs) ∧ (t.iss w).redo = some r ∧ (t.iss w).wait = .run ∧
      (t.iss w).rcount = (if adv then (s.iss w).rcount + 1 else (s.iss w).rcount) := by
  obtain ⟨T, hT⟩ : ∃ T, discardAll s w adv = T := ⟨_, rfl⟩
  rw [hT]
  unfold discardAll discardFrom at hT
  extract_lets me at hT
  have hdrop : me.regions.drop 0 = r :: rest := h
  rw [hdrop] at hT
  dsimp -zeta only at hT
  extract_lets gone s1 s2 t at hT
  have hiss : s2.iss w = s.iss w := count_iss _ _ _ _ _
  have hmem : t.mem = s.mem := count_mem s1 7 w _
  have hreqs : ∀ p ∈ t.chip.reqs, p ∈ s.chip.reqs := fun p hp => by
    have hchip : t.chip = s1.chip := chip_count s1 7 w gone.length
    rw [hchip] at hp
    exact List.mem_of_mem_filter hp
  have hown : (t.iss w).redo = some r ∧ (t.iss w).wait = .run ∧
      (t.iss w).rcount = (if adv then (s.iss w).rcount + 1 else (s.iss w).rcount) := by
    have ht : t.iss w = reentering r gone adv (s2.iss w) := iss_updIss s2 w (reentering r gone adv) (state_iss_slot s2 w)
    rw [ht, hiss]
    refine ⟨rfl, rfl, ?_⟩
    cases adv <;> rfl
  rw [← hT]
  split
  · refine ⟨hmem, hreqs, ?_⟩
    rw [iss_updCore_rot]
    · exact hown
    · exact fun _ => ⟨rfl, rfl⟩
    · exact fun _ => rfl
  · exact ⟨hmem, hreqs, hown⟩
theorem discardAll_keeps (s : State) (w : Iss) : let t := discardAll s w false
    t.mem = s.mem ∧ (∀ p ∈ t.chip.reqs, p ∈ s.chip.reqs) ∧ (t.iss w).rcount = (s.iss w).rcount := by
  cases h : (s.iss w).regions with
  | nil =>
    rw [discardAll_of_none h]
    exact ⟨rfl, fun _ hp => hp, rfl⟩
  | cons r rest =>
    obtain ⟨hmem, hreqs, -, -, hcount⟩ := discardAll_some h false
    exact ⟨hmem, hreqs, hcount⟩

/-- A recovery cause outside lean mode, within the limit: every region goes, and the issuer is set to enter the oldest one
again (R186, R189). -/
theorem discardBy_all {s : State} {w : Iss} {r : Region} {rest : List Region} (h : (s.iss w).regions = r :: rest)
    (hlean : (s.coreOf w).lean = false) (hlimit : (s.iss w).rcount + 1 ≤ (s.iss w).rlimit) (cause : Nat) :
    let t := discardBy s w 0 cause
    (t.iss w).regions = [] ∧ (t.iss w).redo = some r ∧ (t.iss w).rcount = (s.iss w).rcount + 1 ∧ (t.iss w).wait = .run ∧
      t.mem = s.mem := by
  obtain ⟨hmem, -, hredo, hwait, hcount⟩ := discardAll_some h true
  have hgone := regions_discardAll s w true
  obtain ⟨u, hu⟩ : ∃ u, recovery (discardAll s w true) w (if cause = 1 then 1 else if cause = 3 then 3 else 2) 0 0 = u := ⟨_, rfl⟩
  have hby : discardBy s w 0 cause =
      u.updIss w fun me => if me.wait = .run then { me with nextAt := max me.nextAt u.tick } else me := by
    have hsome : ¬((s.iss w).regions.drop 0 == []) = true := by rw [h]; exact Bool.false_ne_true
    rw [← hu]
    refine (if_neg hsome).trans ((if_neg (by rw [hlean]; exact Bool.false_ne_true)).trans (if_neg fun hover => ?_))
    exact absurd hlimit (not_le.2 hover.2)
  have hiss : u.iss w = (discardAll s w true).iss w := hu ▸ rfl
  have hrun : (u.iss w).wait = .run := hiss ▸ hwait
  have hown : (discardBy s w 0 cause).iss w = { u.iss w with nextAt := max (u.iss w).nextAt u.tick } := by
    rw [hby, iss_updIss u w _ (by split <;> exact state_iss_slot u w), if_pos hrun]
  have hkeep : (discardBy s w 0 cause).mem = s.mem := by
    rw [hby, State.updIss_mem, ← hu]
    exact hmem
  intro t
  refine ⟨?_, ?_, ?_, ?_, hkeep⟩ <;> simp only [t, hown, hiss]
  · exact hgone
  · exact hredo
  · exact hcount
  · exact hwait
/-- A load's reply that is poisoned or lost discards its issuer's regions (R186, R286). -/
theorem loadReply_discards {s : State} {q : Req} (hq : s.req s.cur.n = some q)
    (hlog : s.dbg.rlogOn = true → q.space = 0 ∨ q.space = 3) (hk : q.kind = .load) (hbad : q.psn = true ∨ q.stat = 2)
    (hsp : q.space = 0) (hlean : (s.coreOf q.w).lean = false) (hlimit : (s.iss q.w).rcount + 1 ≤ (s.iss q.w).rlimit)
    {r : Region} {rest : List Region} (h : (s.iss q.w).regions = r :: rest) : Completes .loadReply s fun t =>
      (t.iss q.w).regions = [] ∧ (t.iss q.w).redo = some r ∧ (t.iss q.w).rcount = (s.iss q.w).rcount + 1 ∧
      (t.iss q.w).wait = .run ∧ ∀ k, t.byte k = s.byte k := by
  have hexec : exec .loadReply s = .next (discardBy (s.delReq q.id) q.w 0 (if q.stat = 2 then 4 else 2)) := by
    have hlost : (q.psn || q.stat == 2) = true := by rcases hbad with hb | hb <;> simp [hb]
    have henter : enterRemote (s.delReq q.id) q = s.delReq q.id := if_pos (.inl (by omega))
    change execLoadReply s = _
    unfold execLoadReply
    simp only [hq, hk, reduceCtorEq, if_false, logAnswer_local hlog, beq_self_eq_true, hlost, Bool.true_and, if_true, henter]
  obtain ⟨hgone, hredo, hcount, hrun, hmem⟩ := discardBy_all (s := s.delReq q.id) h hlean hlimit (if q.stat = 2 then 4 else 2)
  exact ⟨_, hexec, hgone, hredo, hcount, hrun, fun k => by rw [State.byte, hmem]; rfl⟩

end Sys2Proof.Machine

/-! ### Replies and retries of returning atomics (R188, R293, R294) -/
namespace Sys2Proof.Machine

theorem inEngines_noteResult (s : State) (w : Iss) (h : Held) (res : List (Nat × DWord)) :
    InEngines s (noteResult s w h res) := by
  unfold noteResult
  split
  · exact .refl s
  · refine inEngines_updCore s w.cl w.co ?_ ?_ ?_
    · exact fun _ => ⟨rfl, rfl⟩
    · exact fun _ => rfl
    · exact fun _ => rfl
theorem booked_noteResult (s : State) (w : Iss) (h : Held) (res : List (Nat × DWord)) : Booked s (noteResult s w h res) w where
  keeps := (inEngines_noteResult s w h res).keepsRegs w
  chip := by
    unfold noteResult
    split <;> rfl
  wait := by rw [(inEngines_noteResult s w h res).iss]
/-- The old values of an atomic go in flight; they belong to no region (R293, R294). -/
theorem atomResult_spec (s : State) (w : Iss) {h : Held} {o : MemF} {b64 : Bool} {fn : AtomFn} (hi : h.i = .atom o b64 fn)
    (vis : Nat) (vs : List (Nat × DWord)) : let t := atomResult s w h vis vs
    SameBut s t w id ∧ t.chip = s.chip ∧ (t.iss w).pend = (s.iss w).pend ++
      replyPends vis (2 ^ 32) ((h.lanes.map (·.space)).headD noHome) h.itick
        (loadWrites (w.n == 16) o.data.toNat (if b64 then 8 else 4) false vs) := by
  rw [atomResult, hi]
  exact sameBut_pend ((booked_noteResult s w h vs).trans (booked_domJoin _ w s.tick)) (state_iss_slot _ _) rfl rfl

theorem exec_atomicReply_good {s : State} {q : Req} (hq : s.req s.cur.n = some q)
    (hlog : s.dbg.rlogOn = true → q.space = 0 ∨ q.space = 3) (hpsn : q.psn = false) (h1 : q.stat ≠ 1) (h2 : q.stat ≠ 2) :
    exec .atomicReply s = .next ((atomResult (s.delReq q.id) q.w q.h q.bound (q.results.map fun r => (r.1, nth r.2 0 0))).updIss
      q.w fun me => { me with
        retry := none, wait := if me.redo.isSome && me.wait == .run then .until_ q.bound else me.wait }) := by
  have hgood : (q.psn || q.stat == 1 || q.stat == 2) = false := by simp [hpsn, h1, h2]
  change execAtomicReply s = _
  unfold execAtomicReply
  simp only [hq, logAnswer_local hlog, hgood, Bool.false_eq_true, if_false]
/-- A reply that brings the old values: they become visible at its bound, and the retry record goes (R293). -/
theorem atomicReply_visible {s : State} {q : Req} (hq : s.req s.cur.n = some q)
    (hlog : s.dbg.rlogOn = true → q.space = 0 ∨ q.space = 3) {o : MemF} {b64 : Bool} {fn : AtomFn} (hi : q.h.i = .atom o b64 fn)
    (hpsn : q.psn = false) (h1 : q.stat ≠ 1) (h2 : q.stat ≠ 2) : Completes .atomicReply s fun t =>
      t.chip.reqs = (s.chip.reqs.filter fun p => p.id != q.id) ∧ (t.iss q.w).retry = none ∧
      (t.iss q.w).pend = (s.iss q.w).pend ++ replyPends q.bound (2 ^ 32) ((q.h.lanes.map (·.space)).headD noHome) q.h.itick
        (loadWrites (q.w.n == 16) o.data.toNat (if b64 then 8 else 4) false (q.results.map fun r => (r.1, nth r.2 0 0))) ∧
      SameBut s t q.w id := by
  obtain ⟨hsame, hchip, hpend⟩ := atomResult_spec (s.delReq q.id) q.w hi q.bound (q.results.map fun r => (r.1, nth r.2 0 0))
  obtain ⟨u, hu⟩ : ∃ u, atomResult (s.delReq q.id) q.w q.h q.bound (q.results.map fun r => (r.1, nth r.2 0 0)) = u := ⟨_, rfl⟩
  have hexec := exec_atomicReply_good hq hlog hpsn h1 h2
  rw [hu] at hexec hsame hchip hpend
  have hdel : SameBut s (s.delReq q.id) q.w id := (inUnits_delReq s q.id).inChip.sameBut q.w
  have hiss := iss_updIss u q.w (fun me => { me with
    retry := none, wait := if me.redo.isSome && me.wait == .run then .until_ q.bound else me.wait }) (state_iss_slot u q.w)
  refine ⟨_, hexec, congrArg Chip.reqs hchip, ?_, ?_, (hdel.trans hsame).trans ?_⟩
  · rw [hiss]
  · rw [hiss]
    exact hpend
  · exact (keepsRegs_updIss u q.w _ (state_iss_slot u q.w) rfl rfl rfl).same

/-- A reply that is poisoned, not performed or lost: the issuer is to send the atomic again (R188). -/
theorem atomicReply_again {s : State} {q : Req} (hq : s.req s.cur.n = some q)
    (hlog : s.dbg.rlogOn = true → q.space = 0 ∨ q.space = 3) (hbad : q.psn = true ∨ q.stat = 1 ∨ q.stat = 2)
    (hsp : q.space = 0) (hlean : (s.coreOf q.w).lean = false) (hlimit : (s.iss q.w).rcount + 1 ≤ (s.iss q.w).rlimit) :
    Completes .atomicReply s fun t => (t.iss q.w).retry = some ⟨q.h, q.id, true⟩ ∧
      (t.iss q.w).rcount = (s.iss q.w).rcount + 1 ∧ (t.iss q.w).regions = [] ∧
      t.chip.reqs.all (fun p => p.id != q.id) = true ∧ ∀ k, t.byte k = s.byte k := by
  obtain ⟨u, hu⟩ : ∃ u, recovery (discardAll (s.delReq q.id) q.w false) q.w 2 0 0 = u := ⟨_, rfl⟩
  have hexec : exec .atomicReply s = .next (u.updIss q.w fun me => { me with
      rcount := me.rcount + 1, retry := some ⟨q.h, q.id, true⟩ }) := by
    have hlost : (q.psn || q.stat == 1 || q.stat == 2) = true := by rcases hbad with hb | hb | hb <;> simp [hb]
    have henter : enterRemote (s.delReq q.id) q = s.delReq q.id := if_pos (.inl (by omega))
    have hmode : ((s.delReq q.id).coreOf q.w).lean = false := hlean
    have hroom : ¬((s.delReq q.id).iss q.w).rlimit < ((s.delReq q.id).iss q.w).rcount + 1 := not_lt.2 hlimit
    change execAtomicReply s = _
    unfold execAtomicReply
    simp only [hq, logAnswer_local hlog, hlost, if_true, henter, hmode, Bool.false_eq_true, if_false, hroom, hu]
  obtain ⟨hmem, hreqs, hcount⟩ := discardAll_keeps (s.delReq q.id) q.w
  have hiss : u.iss q.w = (discardAll (s.delReq q.id) q.w false).iss q.w := hu ▸ rfl
  have hown := iss_updIss u q.w (fun me => { me with rcount := me.rcount + 1, retry := some ⟨q.h, q.id, true⟩ })
    (state_iss_slot u q.w)
  refine ⟨_, hexec, ?_, ?_, ?_, List.all_eq_true.2 fun p hp => ?_, fun k => ?_⟩
  · rw [hown]
  · rw [hown, hiss]
    exact congrArg (· + 1) hcount
  · rw [hown, hiss]
    exact regions_discardAll (s.delReq q.id) q.w false
  · rw [State.updIss_chip, ← hu] at hp
    exact (List.mem_filter.1 (hreqs p hp)).2
  · rw [State.byte, State.updIss_mem, ← hu]
    exact congrArg (Sparse.get unlistedByte · k) hmem

/-- An access that starts is the last in flight: the one that was asked for, but for what its start notes (R58, R76). -/
theorem startReqAt_adds (s : State) (q : Req) (vas : List DWord) : ∃ hm ws ak ps hb da ro,
    (startReqAt s q vas).chip.reqs = s.chip.reqs ++
      [{ q with home := hm, walks := ws, acks := ak, psn := ps, hb := hb, domAt := da, ro := ro }] := by
  unfold startReqAt
  extract_lets ws fabric
  obtain ⟨bad, s1, hs, hchip⟩ : ∃ bad s1, (if checkCoded q.kind then landCheck s else (false, s)) = (bad, s1) ∧
      s1.chip = s.chip := by
    split
    · exact ⟨_, _, rfl, rfl⟩
    · exact ⟨_, _, rfl, rfl⟩
  rw [hs]
  dsimp -zeta only
  extract_lets me p s2
  have hs2 : s2.chip.reqs = s.chip.reqs ++ [p] := (reqs_domPublish _ _).trans (congrArg (fun h : Chip => h.reqs ++ [p]) hchip)
  refine ⟨_, _, _, _, _, _, _, Eq.trans ?_ hs2⟩
  split
  · rw [(Unmoved.foldl (fun s sec => unmoved_sendSector s p sec) p.sectors s2).chip]
  · rfl

/-- The turn of an issuer that has sent its atomic again is over (R188). -/
def retryOver (c : Core) (w : Iss) (s : State) : State :=
  if w.n = 16 then s.updIss w fun me => { me with nextAt := s.tick + 1 }
  else s.updCore w.cl w.co fun k => k.endTurn (s.tick + c.passes w.n)
theorem retryOver_spec (c : Core) (w : Iss) (s : State) : KeepsRegs s (retryOver c w s) w ∧ (retryOver c w s).chip = s.chip ∧
    ((retryOver c w s).iss w).retry = (s.iss w).retry := by
  unfold retryOver
  split
  · refine ⟨keepsRegs_updIss s w _ (state_iss_slot s w) rfl rfl rfl, rfl, ?_⟩
    rw [iss_updIss s w _ (by exact state_iss_slot s w)]
  · obtain ⟨hkeep, hiss, -⟩ := endTurn_spec s w (s.tick + c.passes w.n)
    exact ⟨hkeep, rfl, congrArg Issuer.retry hiss⟩
/-- The request of an atomic that is sent again, with the places that its lanes have now (R188). -/
def retryReq (s : State) (w : Iss) (c : Core) (h : Held) (ls : List (Nat × DWord × Nat × DWord)) : Req :=
  let sp := (h.lanes.map (·.space)).headD 0
  { heldReq s.fresh.2 w h s.fresh.1 .atom sp (homeBound s.fresh.2 sp + (c.passes w.n - 1))
      ((h.lanes.zip ls).map fun p => { p.1 with pa := p.2.2.2.1 }) with stat := 9 }
/-- The state in which it is sent. -/
def retryNoted (s : State) (w : Iss) (h : Held) : State :=
  s.fresh.2.updIss w fun me => { me with retry := some ⟨h, s.fresh.1, true⟩ }
theorem exec_atomicRetry_sends {s u : State} {r : Retry} {ls : List (Nat × DWord × Nat × DWord)}
    (hr : (s.iss s.cur).retry = some r)
    (htrans : transLanes s s.cur.cl (s.coreOf s.cur).ptw .atom (r.h.lanes.map fun l => (l.lane, l.va)) = (.ok ls, u)) :
    exec .atomicRetry s = .next (retryOver (s.coreOf s.cur) s.cur
      (startReq (retryNoted u s.cur r.h) (retryReq u s.cur (s.coreOf s.cur) r.h ls))) := by
  change execAtomicRetry s = _
  unfold execAtomicRetry
  simp only [hr, htrans]
  rfl
/-- An atomic whose lanes translate goes out again under its own record (R188). -/
theorem atomicRetry_sends {s : State} {r : Retry} {ls : List (Nat × DWord × Nat × DWord)} (hr : (s.iss s.cur).retry = some r)
    (htrans : (transLanes s s.cur.cl (s.coreOf s.cur).ptw .atom (r.h.lanes.map fun l => (l.lane, l.va))).1 = .ok ls) :
    Completes .atomicRetry s fun t =>
      (∃ q, t.chip.reqs = s.chip.reqs ++ [q] ∧ q.kind = .atom ∧ q.w = s.cur ∧ q.h = r.h ∧ q.rnum = r.h.rnum ∧
        q.lanes.map (·.pa) = (r.h.lanes.zip ls).map fun p => p.2.2.2.1) ∧
      ((t.iss s.cur).retry.map fun k => (k.h, k.again)) = some (r.h, true) ∧ SameRegs s t := by
  have hwalks := inWalks_transLanes s.cur.cl (s.coreOf s.cur).ptw .atom (r.h.lanes.map fun l => (l.lane, l.va)) s
  obtain ⟨u, hu⟩ : ∃ u, (transLanes s s.cur.cl (s.coreOf s.cur).ptw .atom (r.h.lanes.map fun l => (l.lane, l.va))).2 = u := ⟨_, rfl⟩
  have hexec := exec_atomicRetry_sends (u := u) hr (Prod.ext htrans hu)
  rw [hu] at hwalks
  obtain ⟨hm, ws, ak, ps, hb, da, ro, hadds⟩ := startReqAt_adds (retryNoted u s.cur r.h)
    (retryReq u s.cur (s.coreOf s.cur) r.h ls) ((retryReq u s.cur (s.coreOf s.cur) r.h ls).lanes.map (·.va))
  have hstart := (startReqAt_spec (retryNoted u s.cur r.h) (retryReq u s.cur (s.coreOf s.cur) r.h ls)
    ((retryReq u s.cur (s.coreOf s.cur) r.h ls).lanes.map (·.va))).1
  have hnoted : KeepsRegs u (retryNoted u s.cur r.h) s.cur :=
    ((InUnits.of_chip rfl rfl rfl rfl rfl rfl : InUnits u u.fresh.2).inEngines.keepsRegs s.cur).trans
      (keepsRegs_updIss u.fresh.2 s.cur _ (state_iss_slot _ _) rfl rfl rfl)
  obtain ⟨hover, hchip, hretry⟩ := retryOver_spec (s.coreOf s.cur) s.cur
    (startReq (retryNoted u s.cur r.h) (retryReq u s.cur (s.coreOf s.cur) r.h ls))
  have hreqs := (congrArg Chip.reqs hchip).trans hadds
  rw [show (retryNoted u s.cur r.h).chip.reqs = s.chip.reqs from hwalks.2] at hreqs
  refine ⟨_, hexec, ⟨_, hreqs, rfl, rfl, rfl, rfl, List.map_map⟩, ?_, ?_⟩
  · have hnote : ((retryNoted u s.cur r.h).iss s.cur).retry = some ⟨r.h, u.fresh.1, true⟩ := by
      rw [retryNoted, iss_updIss _ _ _ (by exact state_iss_slot _ _)]
    rw [hretry, startReq, hstart.inEngines.iss, hnote]
    rfl
  · exact (((hwalks.1.inEngines.keepsRegs s.cur).trans hnoted).trans
      ((hstart.inEngines.keepsRegs s.cur).trans hover)).sameRegs

end Sys2Proof.Machine

/-! ### Acknowledgements of writes (R62, R86, R87) -/
namespace Sys2Proof.Machine

/-- The last acknowledgement of a thread's write ends it (R87). -/
theorem acked_write (s : State) {q : Req} (hk : q.kind = .store ∨ q.kind = .red) (ha : q.acks ≤ 1) (word : DWord) :
    acked s q word = if bits word 0 20 = 0 then s.delReq q.id else storeLoss (s.delReq q.id) q word := by
  unfold acked
  rcases hk with hk | hk <;> simp [hk, ha]
theorem exec_writeAck {s : State} {q : Req} (hq : s.req s.cur.n = some q)
    (hlog : s.dbg.rlogOn = true → q.space = 0 ∨ q.space = 3) : exec .writeAck s =
      .next (acked s q (BitVec.ofNat 64 (q.fchip + q.fsw * 2 ^ 16 + q.stat * 2 ^ 18))) := by
  change execWriteAck s = _
  unfold execWriteAck
  simp only [hq, logAnswer_local hlog]
theorem exec_acknowledgementWord {s : State} {q : Req} (hq : s.req s.cur.n = some q)
    (hlog : s.dbg.rlogOn = true → q.space = 0 ∨ q.space = 3) (word : DWord) :
    exec (.acknowledgementWord word) s = .next (acked s q word) := by
  change execAcknowledgementWord word s = _
  unfold execAcknowledgementWord
  simp only [hq, logAnswer_local hlog]

theorem block_setBlock {c : Core} {b d : Block} (h : (c.blocks.find? fun o => o.idx == d.idx) = some b) :
    (c.setBlock d).block d.idx = d := by
  have hkey : ((fun o : Block => o.idx == d.idx) ∘ fun o => if o.idx = d.idx then d else o) = fun o => o.idx == d.idx := by
    funext o
    rw [Function.comp_apply]
    split
    · rename_i ho; rw [ho]
    · rfl
  have hfind : ((c.setBlock d).blocks.find? fun o => o.idx == d.idx) = some d := by
    refine (List.find?_map (l := c.blocks)).trans ?_
    rw [hkey, h]
    exact congrArg some (if_pos (eq_of_beq (List.find?_some (p := fun o : Block => o.idx == d.idx) h)))
  rw [Core.block, hfind]
/-- A block that has lost a write of its threads, with what the acknowledgement word says of it (R87, R414). -/
def Block.lost (b : Block) (word : DWord) : Block := { b with
  sloss := true, fchip := b.fchip ||| BitVec.ofNat 16 (bits word 0 16), fsw := b.fsw ||| BitVec.ofNat 2 (bits word 16 2)
  spsn := b.spsn || bits word 18 2 == 1, slost := b.slost || bits word 18 2 == 2 }
theorem storeLoss_eq {s : State} {q : Req} {bi : Nat} (hbi : (s.coreOf q.w).blockOf q.w.n = some bi) (word : DWord) :
    storeLoss s q word = reportFw (s.updCore q.w.cl q.w.co fun c => c.setBlock ((c.block bi).lost word))
      (mkRec q.w q.h.pc q.h.itick q.rnum s.tick q.h.pc { cls := 0x13, d0 := word }) := by
  rw [storeLoss, hbi]
  rfl
/-- A failed write marks its block, and its loss is reported with the acknowledgement word (R87). -/
theorem storeLoss_spec {s : State} {q : Req} {bi : Nat} {b : Block} (hbi : (s.coreOf q.w).blockOf q.w.n = some bi)
    (hb : ((s.coreOf q.w).blocks.find? fun b => b.idx == bi) = some b) (word : DWord) : let t := storeLoss s q word
    ((t.coreOf q.w).block bi).sloss = true ∧
      ((t.coreOf q.w).block bi).fchip = b.fchip ||| BitVec.ofNat 16 (bits word 0 16) ∧
      (∃ k r, t.fw.faults = s.fw.faults ++ [(k, r, none)] ∧ bits (nth r 0 0) 0 8 = 0x13 ∧ nth r 6 0 = word) ∧ t.mem = s.mem := by
  have hidx : b.idx = bi := eq_of_beq (List.find?_some (p := fun o : Block => o.idx == bi) hb)
  have hblock : (s.coreOf q.w).block bi = b := by rw [Core.block, hb]
  have hcore : (storeLoss s q word).coreOf q.w = (s.coreOf q.w).setBlock (b.lost word) := by
    rw [storeLoss_eq hbi, ← hblock]
    exact coreOf_updCore s q.w (fun c => c.setBlock ((c.block bi).lost word)) fun _ => ⟨rfl, rfl⟩
  have hnew : ((storeLoss s q word).coreOf q.w).block bi = b.lost word := by
    rw [hcore]
    have hset := block_setBlock (c := s.coreOf q.w) (b := b) (d := b.lost word) (by rw [Block.lost, hidx]; exact hb)
    rwa [show (b.lost word).idx = bi from hidx] at hset
  have hrec := mkRec_cls q.w q.h.pc q.h.itick q.rnum s.tick q.h.pc { cls := 0x13, d0 := word }
  intro t
  refine ⟨congrArg Block.sloss hnew, congrArg Block.fchip hnew, ⟨s.fw.nextFault, _, ?_, hrec, rfl⟩, ?_⟩
  · simp only [t, storeLoss_eq hbi]
    rfl
  · simp only [t, storeLoss_eq hbi]
    rfl
/-- An acknowledgement that reports a failure (R87). -/
theorem acknowledgementWord_fails {s : State} {q : Req} (hq : s.req s.cur.n = some q)
    (hlog : s.dbg.rlogOn = true → q.space = 0 ∨ q.space = 3) (hk : q.kind = .store ∨ q.kind = .red) (ha : q.acks ≤ 1)
    {word : DWord} (hw : bits word 0 20 ≠ 0) {bi : Nat} {b : Block} (hbi : (s.coreOf q.w).blockOf q.w.n = some bi)
    (hb : ((s.coreOf q.w).blocks.find? fun b => b.idx == bi) = some b) : Completes (.acknowledgementWord word) s fun t =>
      ((t.coreOf q.w).block bi).sloss = true ∧
      ((t.coreOf q.w).block bi).fchip = b.fchip ||| BitVec.ofNat 16 (bits word 0 16) ∧
      (∃ k r, t.fw.faults = s.fw.faults ++ [(k, r, none)] ∧ bits (nth r 0 0) 0 8 = 0x13 ∧ nth r 6 0 = word) ∧
      ∀ k, t.byte k = s.byte k := by
  have hexec := exec_acknowledgementWord hq hlog word
  rw [acked_write s hk ha, if_neg hw] at hexec
  obtain ⟨hloss, hchip, hrep, hmem⟩ := storeLoss_spec (s := s.delReq q.id) hbi hb word
  exact ⟨_, hexec, hloss, hchip, hrep, fun k => congrArg (Sparse.get unlistedByte · k) hmem⟩

/-- Settles O31: a load's reply that is visible or discards, an atomic's that is visible or sent again, the acknowledgements,
and the atomic that goes out again. -/
theorem repliesAndRetries : Obligations.RepliesAndRetries := by
  unfold Obligations.RepliesAndRetries
  refine ⟨?_, ?_⟩
  case refine_2 =>
    intro s r ls w hr htrans
    exact atomicRetry_sends hr htrans
  intro s q w me gone fw pends hq hlog
  refine ⟨fun o sz sx hk hi hpsn hstat hchk hsp => loadReply_visible hq hlog hk hi hpsn hstat hchk hsp,
    fun hk hbad hsp hlean hlimit r rest h => loadReply_discards hq hlog hk hbad hsp hlean hlimit h,
    fun o b64 fn hi => ⟨fun hpsn h1 h2 => atomicReply_visible hq hlog hi hpsn h1 h2, fun hbad hsp hlean hlimit =>
      atomicReply_again hq hlog hbad hsp hlean hlimit⟩, fun hk ha => ⟨fun hc hs h0 => ?_, fun word => ⟨fun hw => ?_,
      fun hw bi b hbi hb => acknowledgementWord_fails hq hlog hk ha hw hbi hb⟩⟩⟩
  · rw [exec_writeAck hq hlog, hc, hs, h0, acked_write s hk ha]
    rfl
  · rw [exec_acknowledgementWord hq hlog, acked_write s hk ha, if_pos hw]

end Sys2Proof.Machine

/-! ### Blocking points (R83, R184, R304, R305, R345, R348, R369, R370, R372, R412) -/
namespace Sys2Proof.Machine

/-- An instruction whose meaning is a blocking point completes as one (R184). -/
theorem completes_of_blockingOp {i : Instr} {m : Mods} {s : State} {vals : List DWord}
    (h : exec i s = blockingOp (s.ctx m) i vals) (ha : afterAtomic (s.ctx m) = false) :
    Completes i s fun t => Blocks s t m i vals := by
  refine ⟨_, h.trans ?_, blockAt_spec (.refl s) m i vals⟩
  rw [blockingOp, ha]
  rfl

section
variable {m : Mods} {s : State}

theorem exec_bar_blocks (hact : ¬(s.ctx m).act.isEmpty = true) (h : ¬((s.ctx m).front = true ∧ 1 < (s.ctx m).c.bpc)) :
    exec (.bar m) s = blockingOp (s.ctx m) (.bar m) [] := by
  change execBar m s = _
  exact (if_neg h).trans (if_neg hact)
theorem exec_ssync_blocks (hact : ¬(s.ctx m).act.isEmpty = true) (h : bit (s.ctx m).c.modew 2 = true) :
    exec (.ssync m) s = blockingOp (s.ctx m) (.ssync m) [] := by
  change execSsync m s = _
  exact (if_neg (by rw [h]; decide)).trans (if_neg hact)
theorem exec_trap_blocks (hact : ¬(s.ctx m).act.isEmpty = true) (imm : BitVec 16) :
    exec (.trap m imm) s = blockingOp (s.ctx m) (.trap m imm) [imm.setWidth 64] := by
  change execTrap m imm s = _
  exact if_neg hact
theorem exec_sys_blocks (hact : ¬(s.ctx m).act.isEmpty = true) (n : BitVec 16) (r : BitVec 9) :
    exec (.sys m n r) s = blockingOp (s.ctx m) (.sys m n r) [(s.ctx m).low64 r] := by
  change execSys m n r s = _
  exact if_neg hact
theorem exec_bkpt_blocks (hact : ¬(s.ctx m).act.isEmpty = true) (h : dbgSession s s.cur = true) (imm : BitVec 16) :
    exec (.bkpt m imm) s = blockingOp (s.ctx m) (.bkpt m imm) [imm.setWidth 64] := by
  change execBkpt m imm s = _
  refine if_pos ?_
  rw [Bool.and_eq_true, Bool.not_eq_true']
  exact ⟨Bool.eq_false_iff.2 hact, h⟩
theorem exec_iret_blocks (hact : ¬(s.ctx m).act.isEmpty = true) (h : bit (s.ctx m).me.trapvec 48 = true) :
    exec (.iret m) s = blockingOp (s.ctx m) (.iret m) [] := by
  change execIret m s = _
  exact (if_neg (by rw [h]; decide)).trans (if_neg hact)

theorem exec_halt_blocks (hact : ¬(s.ctx m).act.isEmpty = true) (h : (s.ctx m).front = true) :
    exec (.halt m) s = blockingOp (s.ctx m) (.halt m) [] := by
  change execHalt m s = _
  exact (if_neg hact).trans (if_pos h)
theorem exec_oalloc_blocks (hact : ¬(s.ctx m).act.isEmpty = true) (h : (s.ctx m).front = true) (d a : BitVec 8) (mir : Bool) :
    exec (.oalloc m d a mir) s = blockingOp (s.ctx m) (.oalloc m d a mir) [(s.ctx m).sc a 0] := by
  change execOalloc m d a mir s = _
  exact (if_neg (by rw [h]; decide)).trans (if_neg hact)
theorem exec_ofree_blocks (hact : ¬(s.ctx m).act.isEmpty = true) (h : (s.ctx m).front = true) (d a : BitVec 8) :
    exec (.ofree m d a) s = blockingOp (s.ctx m) (.ofree m d a) [(s.ctx m).sc a 0] := by
  change execOfree m d a s = _
  exact (if_neg (by rw [h]; decide)).trans (if_neg hact)
/-- The packet that GLAUNCH reads at issue: none at a place that it may not name (R372). -/
def launchPacket (s : State) (m : Mods) (r : BitVec 9) : List DWord :=
  let x := s.ctx m
  let off := (x.low64 r).toNat % 2 ^ 24
  let ok := bits (x.low64 r) 24 40 == 0 && off % 64 == 0 && decide (off + 64 ≤ x.c.scSize) &&
    Sparse.get false x.c.scInit (off / 64)
  if ok then s.dwords (keySp s.cur.cl s.cur.co off) 8 else []
theorem exec_glaunch_blocks (hact : ¬(s.ctx m).act.isEmpty = true) (h : (s.ctx m).front = true) (r : BitVec 9) :
    exec (.glaunch m r) s = blockingOp (s.ctx m) (.glaunch m r) (launchPacket s m r) := by
  have hoff : bits ((s.ctx m).low64 r) 0 24 = ((s.ctx m).low64 r).toNat % 2 ^ 24 := by
    rw [bits, Nat.pow_zero, Nat.div_one]
  change execGlaunch m r s = _
  refine (if_neg (by rw [h]; decide)).trans ((if_neg hact).trans ?_)
  rw [launchPacket, ← hoff]
  rfl
end

theorem exec_cwait_blocks {park : Bool} {d : BitVec 8} {n : BitVec 4} {s : State}
    (h : (nth (s.ctx ⟨park, 0, false⟩).c.cslots n.toNat {}).fault = none) :
    exec (.cwait park d n) s = blockingOp (s.ctx ⟨park, 0, false⟩) (.cwait park d n) [] := by
  change execCwait park d n s = _
  rw [execCwait, xctx]
  dsimp only
  rw [h]

/-- Settles O20: each instruction's meaning is a blocking point, and a blocking point closes the region. -/
theorem blockingPoints : Obligations.BlockingPoints := by
  unfold Obligations.BlockingPoints
  refine ⟨?_, ?_⟩
  case refine_2 =>
    intro park d n s x ha h
    exact completes_of_blockingOp (exec_cwait_blocks h) ha
  intro m s x B hne ha
  have hact : ¬x.act.isEmpty = true := by rwa [List.isEmpty_iff]
  have blocks {i : Instr} {vals : List DWord} (h : exec i s = blockingOp x i vals) : B i vals := completes_of_blockingOp h ha
  refine ⟨fun h => blocks (exec_bar_blocks hact h), fun h => blocks (exec_ssync_blocks hact h),
    fun imm => blocks (exec_trap_blocks hact imm), fun n r => blocks (exec_sys_blocks hact n r),
    fun imm h => blocks (exec_bkpt_blocks hact h imm), fun h => blocks (exec_iret_blocks hact h), fun h => ?_⟩
  exact ⟨blocks (exec_halt_blocks hact h), fun d a mir => blocks (exec_oalloc_blocks hact h d a mir),
    fun d a => blocks (exec_ofree_blocks hact h d a), fun r => blocks (exec_glaunch_blocks hact h r)⟩

end Sys2Proof.Machine

/-! ### SCHLOAD and PHSET (R90, R396, R446, R453) -/
namespace Sys2Proof.Machine

/-- The command that firmware performs ends with its outcome (R374). -/
theorem withCmd_ends {s : State} {c : Cmd} (hc : Cmded s c) {k : Cmd → State → Res} {o : Res} (hk : k c s = o) :
    withCmd s k = .next (endCmd o.2 s.cur.n o.1) := by
  unfold withCmd
  simp only [hc.1, hc.2, hk]

/-- The table that SCHLOAD names, as its checks read it (R396). -/
def namedTable (s : State) (c : Cmd) : List DWord :=
  (s.free 1).2.dwords (keyHbm (c.arg 0).toNat) ((c.arg 1).toNat / 8)
/-- The lowest reason to refuse that table, zero for none (R396). -/
def namedReason (s : State) (c : Cmd) : Nat :=
  tableReason ((s.free 1).2.free 3).2 (namedTable s c) ((s.free 1).2.free 3).1
/-- What SCHLOAD answers, and the state that it leaves (R396, R453). -/
def schloadOutcome (s : State) (c : Cmd) : Res :=
  if c.pf = false then refuseCmd (s.free 1).2 1
  else if lockedNow s = false ∨ (s.free 1).1 = 1 then refuseCmd (s.free 1).2 5
  else if localHbm (c.arg 0).toNat = false ∨ (c.arg 0).toNat % 2 ^ 15 ≠ 0 then refuseCmd (s.free 1).2 2
  else if namedReason s c ≠ 0 then refuseCmd ((s.free 1).2.free 3).2 2 (namedReason s c)
  else doneCmd (installTable ((s.free 1).2.free 3).2 (c.arg 0).toNat (namedTable s c))
theorem exec_schload {s : State} {c : Cmd} (hc : Cmded s c) :
    exec .schload s = .next (endCmd (schloadOutcome s c).2 s.cur.n (schloadOutcome s c).1) := by
  have hlock : lockedNow (s.free 1).2 = lockedNow s := rfl
  change execSchload s = _
  refine withCmd_ends hc ?_
  unfold schloadOutcome namedReason namedTable
  simp only [Bool.or_eq_true, Bool.not_eq_true', decide_eq_true_eq, hlock]
  split
  · rfl
  split
  · rfl
  split
  · rfl
  split
  · rename_i h
    rw [if_neg (not_not.2 h)]
  · rename_i h
    rw [if_pos h]
/-- A table that becomes current at once when there is none, and else follows the one that is (R396). -/
theorem installTable_spec (s : State) (pa : Nat) (ws : List DWord) : let t := installTable s pa ws
    (frameT ws 0, obj 0, Instr.frameStart) ∈ t.agenda ∧
      if s.chip.sched.loaded = true ∨ s.chip.sched.next.isSome = true then
        t.chip.sched = { s.chip.sched with next := some (frameT ws 0, pa, ws) }
      else t.chip.sched = { words := ws, pa := pa, loaded := true, frameStart := frameT ws 0 } := by
  refine ⟨List.mem_append_right _ (List.mem_singleton.2 rfl), ?_⟩
  unfold installTable
  split
  · rfl
  · rfl
/-- What the PF's SCHLOAD answers, and when it installs the table (R396, R453). -/
theorem schload_answers {s : State} {c : Cmd} (hc : Cmded s c) (hpf : c.pf = true) :
    Answers .schload s (schloadOutcome s c).1 fun u =>
      if lockedNow s = false ∨ (s.free 1).1 = 1 then (schloadOutcome s c).1 = resW 5 0 0 ∧ u.chip = s.chip
      else if localHbm (c.arg 0).toNat = false ∨ (c.arg 0).toNat % 2 ^ 15 ≠ 0 then
        (schloadOutcome s c).1 = resW 2 0 0 ∧ u.chip = s.chip
      else if namedReason s c ≠ 0 then (schloadOutcome s c).1 = resW 2 (namedReason s c) 0 ∧ u.chip = s.chip
      else (schloadOutcome s c).1 = resW 0 0 0 ∧ (frameT (namedTable s c) 0, obj 0, Instr.frameStart) ∈ u.agenda ∧
        if s.chip.sched.loaded = true ∨ s.chip.sched.next.isSome = true then
          u.chip.sched = { s.chip.sched with next := some (frameT (namedTable s c) 0, (c.arg 0).toNat, namedTable s c) }
        else u.chip.sched = { words := namedTable s c, pa := (c.arg 0).toNat, loaded := true
                              frameStart := frameT (namedTable s c) 0 } := by
  refine ⟨_, exec_schload hc, ?_⟩
  have hpf' : ¬c.pf = false := by rw [hpf]; decide
  rw [schloadOutcome, if_neg hpf']
  split
  · exact ⟨rfl, rfl⟩
  split
  · exact ⟨rfl, rfl⟩
  split
  · exact ⟨rfl, rfl⟩
  · exact ⟨rfl, installTable_spec ((s.free 1).2.free 3).2 (c.arg 0).toNat (namedTable s c)⟩

/-- PHSET before its boundary waits for it (R396). -/
theorem exec_phset_waits {s : State} {c : Cmd} (hc : Cmded s c) (hpf : c.pf = true) (ht : s.tick < (c.arg 0).toNat)
    (hb : phbAt s (c.arg 0).toNat = true) : exec .phset s = .next (s.sched (c.arg 0).toNat s.cur .phset) := by
  change execPhset s = _
  unfold execPhset
  simp only [hc.1, hc.2, hpf, hb, ht, Option.isNone_none, Bool.and_self, decide_true, if_true]
/-- The outcome of PHSET when it does not wait (R396). -/
def phsetOutcome (s : State) (c : Cmd) : Res :=
  if c.pf = false then refuseCmd s 1
  else if (c.arg 0).toNat ≠ s.tick ∨ phbAt s (c.arg 0).toNat = false then refuseCmd s 4
  else phsetAct s (c.arg 1).toNat (c.arg 2)
theorem exec_phset {s : State} {c : Cmd} (hc : Cmded s c)
    (h : ¬(c.pf = true ∧ s.tick < (c.arg 0).toNat ∧ phbAt s (c.arg 0).toNat = true)) :
    exec .phset s = .next (endCmd (phsetOutcome s c).2 s.cur.n (phsetOutcome s c).1) := by
  have hstay : (c.pf && (bootGate s c).isNone && decide (s.tick < (c.arg 0).toNat) && phbAt s (c.arg 0).toNat) = false := by
    rw [hc.2]
    simpa [and_assoc] using h
  change execPhset s = _
  unfold execPhset
  simp only [hc.1, hstay, Bool.false_eq_true, if_false]
  refine withCmd_ends hc ?_
  simp only [phsetOutcome, Bool.not_eq_true']
theorem phset_refuses {s : State} {c : Cmd} (hc : Cmded s c) (hpf : c.pf = true)
    (h : phbAt s (c.arg 0).toNat = false ∨ (c.arg 0).toNat < s.tick) : Answers .phset s (resW 4 0 0) fun u => u = s := by
  have hnow : (c.arg 0).toNat ≠ s.tick ∨ phbAt s (c.arg 0).toNat = false := h.elim .inr fun h => .inl (Nat.ne_of_lt h)
  have hout : phsetOutcome s c = refuseCmd s 4 := (if_neg (by rw [hpf]; decide)).trans (if_pos hnow)
  refine ⟨s, ?_, rfl⟩
  rw [exec_phset hc, hout]
  · rfl
  · rintro ⟨-, ht, hb⟩
    rcases h with h | h
    · rw [h] at hb
      exact Bool.noConfusion hb
    · omega
theorem phset_acts {s u : State} {c : Cmd} (hc : Cmded s c) (hpf : c.pf = true) (ht : (c.arg 0).toNat = s.tick)
    (hb : phbAt s (c.arg 0).toNat = true) {k : Nat} (hk : (c.arg 1).toNat = k) {r : DWord}
    (h : phsetAct s k (c.arg 2) = (r, u)) {P : State → Prop} (hP : P u) : Answers .phset s r P := by
  have hnow : ¬((c.arg 0).toNat ≠ s.tick ∨ phbAt s (c.arg 0).toNat = false) := by
    rw [ht] at hb ⊢
    simp [hb]
  have hout : phsetOutcome s c = (r, u) :=
    (if_neg (by rw [hpf]; decide)).trans ((if_neg hnow).trans (by rw [hk, h]))
  refine ⟨u, ?_, hP⟩
  rw [exec_phset hc (by omega), hout]

/-- Pair mode of the cluster that an operand of PHSET names, as its bit 8 says (R203, R396). -/
def pairsSet (s : State) (v : DWord) : State :=
  s.updCluster (bits v 0 6) fun k => { k with pairst := BitVec.ofNat 64 (bits v 8 1 * 2 ^ 32) }
theorem pairst_pairsSet (s : State) (v : DWord) :
    ((pairsSet s v).chip.cluster (bits v 0 6)).pairst = BitVec.ofNat 64 (bits v 8 1 * 2 ^ 32) := by
  rw [pairsSet, cluster_updCluster]
  · rw [if_pos rfl]
  · exact fun _ => rfl
/-- Pair mode changes when no grid that is charged has a core in the cluster (R203). -/
theorem phsetAct_pairs {s : State} {v : DWord} (h : ∀ g ∈ s.fw.grids, g.charged = true → ∀ k ∈ g.cores, k.1 ≠ bits v 0 6) :
    phsetAct s 1 v = doneCmd (pairsSet s v) := by
  refine if_neg fun hany => ?_
  obtain ⟨g, hg, hk⟩ := List.any_eq_true.1 hany
  obtain ⟨hcharged, hk⟩ := Bool.and_eq_true_iff.1 hk
  obtain ⟨k, hk, hcl⟩ := List.any_eq_true.1 hk
  exact h g hg hcharged k hk (eq_of_beq hcl)

/-- Settles O51: the outcomes of SCHLOAD, PHSET's wait and refusal, and what it does at its boundary by kind. -/
theorem scheduleCommands : Obligations.ScheduleCommands := by
  unfold Obligations.ScheduleCommands
  intro s c hc
  refine ⟨fun hpf => ⟨?_, ?_⟩, fun hpf => ⟨_, schload_answers hc hpf⟩, fun hpf => ?_⟩
  · have hout : schloadOutcome s c = refuseCmd (s.free 1).2 1 := if_pos hpf
    refine ⟨_, _, exec_schload hc, ?_, ?_⟩
    · rw [hout]
      rfl
    · rw [hout]
      rfl
  · have hout : phsetOutcome s c = refuseCmd s 1 := if_pos hpf
    refine ⟨s, ?_, rfl⟩
    rw [exec_phset hc (by rw [hpf]; simp), hout]
    rfl
  intro t v kind
  refine ⟨fun ht hb => exec_phset_waits hc hpf ht hb, fun h => phset_refuses hc hpf h, fun ht hb => ⟨?_, ?_, ?_, ?_⟩⟩
  · exact fun hk => phset_acts hc hpf ht hb hk rfl ⟨rfl, rfl, rfl⟩
  · exact fun hk hfree => phset_acts hc hpf ht hb hk (phsetAct_pairs hfree) ⟨pairst_pairsSet s v, rfl⟩
  · intro hk
    have hact : phsetAct s 2 v = if bit v 0 = true then doneCmd (startRlog s) else
      doneCmd { s.updChip fun h => { h with replog := false } with dbg := { s.dbg with rlogOn := false } } := rfl
    by_cases hv : bit v 0 = true
    · rw [if_pos hv] at hact
      exact phset_acts hc hpf ht hb hk hact ⟨hv.symm, hv.symm, fun _ => rfl, rfl⟩
    · rw [if_neg hv] at hact
      exact phset_acts hc hpf ht hb hk hact ⟨(Bool.eq_false_iff.2 hv).symm, (Bool.eq_false_iff.2 hv).symm, fun h => absurd h hv, rfl⟩
  · intro hk
    refine ⟨fun hlost => ?_, fun hup => ?_⟩
    · have hact : phsetAct s 3 v = _ := if_neg (by rw [hlost]; decide)
      exact phset_acts hc hpf ht hb hk hact ⟨rfl, _, List.mem_append_right _ (List.mem_singleton.2 rfl)⟩
    · have hact : phsetAct s 3 v = refuseCmd s 2 := if_pos (by rw [hup]; decide)
      exact phset_acts hc hpf ht hb hk hact rfl

end Sys2Proof.Machine

/-! ### Access slots, switches and the banks of Orchard (R77, R88, R421, R424, R426) -/
namespace Sys2Proof.Machine

theorem answer_net (s : State) (q : Req) : (answer s q).net = s.net := by
  unfold answer
  split
  · split <;> rfl
  · rfl
  · rfl
  · rfl
  · rfl
  · dsimp only
    split <;> split <;> rfl
theorem answerSector_net (s : State) (id : Nat) : (answerSector s id).net = s.net := by
  unfold answerSector
  split
  · rfl
  · extract_lets each
    split
    · exact answer_net s _
    · rfl

/-- What only an access that leaves its chip sets: its sector's arrival at a bank of Orchard, or at a switch (R424, R426). -/
def arrives (i : Instr) : Prop := i = .orchardAccessApply ∨ i = .switchForward
/-- In a replay no access leaves the chip: its answer, where the log holds one, is all that is set (R447). -/
theorem replayAccess_spec (s : State) (q : Req) (sec : Nat) : let t := replayAccess s q sec
    t.mem = s.mem ∧ t.net = s.net ∧ ∀ e ∈ t.agenda, e ∉ s.agenda → ¬arrives e.2.2 := by
  have stays : ∀ e ∈ s.agenda, e ∉ s.agenda → ¬arrives e.2.2 := fun _ he hn => absurd he hn
  have sets {t : Nat} {o : Iss} {i : Instr} (hi : ¬arrives i) :
      ∀ e ∈ s.agenda ++ [(t, o, i)], e ∉ s.agenda → ¬arrives e.2.2 := fun e he hn => by
    rw [List.mem_singleton.1 ((List.mem_append.1 he).resolve_left hn)]
    exact hi
  unfold replayAccess
  split
  · exact ⟨rfl, rfl, stays⟩
  · extract_lets d s1 t bs x mine q' s2 u
    unfold u
    split
    · exact ⟨rfl, rfl, stays⟩
    · split <;> exact ⟨rfl, rfl, sets (by simp [arrives])⟩

/-- The head of a port's queue has been taken, and the slot counted (R424, R439). -/
def slotTaken (s : State) (rest : List (Nat × Nat)) : State :=
  ({ s with net := { s.net with portq := assocSet s.net.portq s.cur.n rest } } : State).count 12 s.cur 1
theorem slotTaken_eq (s : State) (rest : List (Nat × Nat)) : ∃ l, slotTaken s rest = { s with
    net := { s.net with portq := assocSet s.net.portq s.cur.n rest }, dbg := { s.dbg with counters := l } } :=
  count_eq _ _ _ _
/-- What the slot does with the sector: the log of a replay answers it, or it goes to its bank or to the switch (R424, R447). -/
def slotSent (s : State) (q : Req) (id sec sw : Nat) : State :=
  if s.dbg.replaying then replayAccess s q sec
  else if q.space = 2 then s.sched (s.tick + 160) (secObj id sec) .orchardAccessApply
  else ({ s with net := { s.net with swq := assocSet s.net.swq sw ((assoc s.net.swq sw).getD [] ++ [(id, sec)]) } } : State).sched
    (s.tick + 160) (obj sw) .switchForward
theorem exec_accessSlotSend {s : State} {q : Req} {id sec : Nat} {rest : List (Nat × Nat)} (hiso : s.net.isolated = false)
    (hport : assoc s.net.portq s.cur.n = some ((id, sec) :: rest)) (hq : s.req id = some q) :
    exec .accessSlotSend s = .next (slotSent (slotTaken s rest) q id sec s.cur.n) := by
  have hq' : (slotTaken s rest).req id = some q := by
    obtain ⟨l, hl⟩ := slotTaken_eq s rest
    rw [hl]
    exact hq
  have hhead : (if s.net.isolated = true then [] else (assoc s.net.portq s.cur.n).getD []) = (id, sec) :: rest := by
    rw [hiso, hport]
    rfl
  change execAccessSlotSend s = _
  unfold slotTaken at hq' ⊢
  unfold execAccessSlotSend slotSent
  dsimp only at hq' ⊢
  rw [hhead]
  dsimp only
  rw [hq']
  dsimp only
  split
  · rfl
  · split <;> rfl
theorem accessSlotSend_sends {s : State} {q : Req} {id sec : Nat} {rest : List (Nat × Nat)} (hiso : s.net.isolated = false)
    (hport : assoc s.net.portq s.cur.n = some ((id, sec) :: rest)) (hq : s.req id = some q) :
    Completes .accessSlotSend s fun t => assoc t.net.portq s.cur.n = some rest ∧ (∀ k, t.byte k = s.byte k) ∧
      if s.dbg.replaying = true then
        t.net.swq = s.net.swq ∧ ∀ e ∈ t.agenda, e ∉ s.agenda → ¬arrives e.2.2
      else if q.space = 2 then (s.tick + 160, secObj id sec, Instr.orchardAccessApply) ∈ t.agenda
      else assoc t.net.swq s.cur.n = some ((assoc s.net.swq s.cur.n).getD [] ++ [(id, sec)]) ∧
        (s.tick + 160, obj s.cur.n, Instr.switchForward) ∈ t.agenda := by
  refine ⟨_, exec_accessSlotSend hiso hport hq, ?_⟩
  obtain ⟨l, hl⟩ := slotTaken_eq s rest
  have hrest := assoc_assocSet_same s.net.portq s.cur.n rest
  have hlast {e : Nat × Iss × Instr} : e ∈ s.agenda ++ [e] := List.mem_append_right _ (List.mem_singleton.2 rfl)
  rw [hl, slotSent]
  split
  · obtain ⟨hmem, hnet, hset⟩ := replayAccess_spec { s with
      net := { s.net with portq := assocSet s.net.portq s.cur.n rest }, dbg := { s.dbg with counters := l } } q sec
    refine ⟨by rw [hnet]; exact hrest, fun k => ?_, by rw [hnet], hset⟩
    rw [State.byte, hmem, State.byte]
  · split
    · exact ⟨hrest, fun _ => rfl, hlast⟩
    · exact ⟨hrest, fun _ => rfl, assoc_assocSet_same _ _ _, hlast⟩

theorem switchForward_forwards {s : State} {q : Req} {id sec : Nat} {rest : List (Nat × Nat)}
    (hport : assoc s.net.swq s.cur.n = some ((id, sec) :: rest)) (hq : s.req id = some q) :
    Completes .switchForward s fun t => assoc t.net.swq s.cur.n = some rest ∧ (∀ k, t.byte k = s.byte k) ∧
      ∃ d e, d ≤ 640 ∧ (s.tick + d, obj id, Instr.hbmSectorAccess sec e) ∈ t.agenda := by
  obtain ⟨u, hu⟩ : ∃ u : State, { s with net := { s.net with swq := assocSet s.net.swq s.cur.n rest } } = u := ⟨_, rfl⟩
  have hq' : u.req id = some q := hu ▸ hq
  have hexec : exec .switchForward s = .next ((u.free 640).2.ecc.2.sched ((u.free 640).2.ecc.2.tick + (u.free 640).1) (obj id)
      (.hbmSectorAccess sec (u.free 640).2.ecc.1)) := by
    change execSwitchForward s = _
    unfold execSwitchForward
    simp only [hport, Option.getD_some, hu, hq']
  refine ⟨_, hexec, ?_, ?_, (u.free 640).1, (u.free 640).2.ecc.1, ?_, ?_⟩
  · rw [← hu]
    exact assoc_assocSet_same _ _ _
  · rw [← hu]
    exact fun _ => rfl
  · exact Nat.le_of_lt_succ (Nat.mod_lt _ (Nat.succ_pos 640))
  · rw [← hu]
    exact List.mem_append_right _ (List.mem_singleton.2 rfl)

/-! A bank of Orchard (R77, R88). -/

theorem exec_orchardAccessApply_waits {s : State} {q : Req} (hq : s.req s.cur.n = some q) (hsec : s.cur.co ∈ q.sectors)
    (hup : s.net.failed.contains (swOf s.cur.co) = false) (hw : mustWait s q s.cur.co = true) :
    exec .orchardAccessApply s = .next (s.sched (s.tick + 1) s.cur .orchardAccessApply) := by
  change execOrchardAccessApply s = _
  rw [execOrchardAccessApply, hq]
  dsimp only
  rw [List.contains_iff_mem.2 hsec, hup, hw]
  rfl
/-- Whether a bank forwards a sector to the other switch as it then stands (R88, R90). -/
def mirrors (s : State) (q : Req) : Bool := q.mir && s.net.failed.isEmpty && bits s.chip.orchst 0 2 == 0
/-- A bank applies a store's sector, good or poisoned (R77, R79, R88): the replay filter is for atomics. -/
theorem exec_orchardAccessApply_applies {s : State} {q : Req} (hq : s.req s.cur.n = some q) (hsec : s.cur.co ∈ q.sectors)
    (hup : s.net.failed.contains (swOf s.cur.co) = false) (hw : mustWait s q s.cur.co = false) (hk : q.kind = .store) :
    ∃ u e, KeepsHome s u ∧ u.net.mirq = s.net.mirq ∧
      exec .orchardAccessApply s = .next (orchApply u q s.cur.co e (mirrors s q)) := by
  have hnone : replayed s q = [] := if_pos (by rw [hk]; rfl)
  change ∃ u e, _ ∧ _ ∧ execOrchardAccessApply s = _
  unfold execOrchardAccessApply
  rw [hq]
  extract_lets sec net g o
  have hin : q.sectors.contains sec = true := List.contains_iff_mem.2 hsec
  have hup' : s.net.failed.contains (swOf sec) = false := hup
  have hw' : mustWait s q sec = false := hw
  dsimp -zeta only
  rw [hin, hup', hw', hnone, Bool.not_true, if_neg Bool.false_ne_true, if_neg Bool.false_ne_true, if_neg Bool.false_ne_true]
  extract_lets olds mine s1 mir here poisoned net2 u
  have hmine : mine.isEmpty = true := by simp [mine, olds]
  rw [hmine, Bool.not_true, if_neg Bool.false_ne_true]
  refine ⟨u, _, ?_, ?_, rfl⟩
  · unfold u
    split <;> exact ⟨rfl, rfl, rfl, rfl⟩
  · unfold u
    split <;> rfl

/-- The bytes of memory after a store of one lane to Orchard (R77). -/
def stored (s : State) (sz : BitVec 2) (l : LaneAcc) : State :=
  s.setBytes (keyOrch l.pa) (toBytes (2 ^ sz.toNat) (nth l.ops 0 0).toNat)
theorem applySector_store (s : State) {q : Req} {sec : Nat} {l : LaneAcc} (hk : q.kind = .store) (hsp : q.space = 2)
    {o : MemF} {sz : BitVec 2} (hi : q.h.i = .st o sz) (hl : q.lanesIn sec = [l]) (e : Ecc) :
    ∃ f : Req → Req, applySector s q sec e = (stored s sz l).updReq q.id f := by
  have hstamp (u : State) : stampWrite u q sec = u := if_pos (by rw [hsp]; decide)
  rw [Req.lanesIn] at hl
  unfold applySector
  have hsp0 : (q.space == 0) = false := by rw [hsp]; rfl
  have hwrite : ((ReqKind.store == ReqKind.atom) || (ReqKind.store == ReqKind.red)) = false := rfl
  simp only [hk, hl, hi, hsp0, hwrite, Bool.false_and, Bool.and_false, Bool.false_eq_true, if_false, hstamp, List.foldl_cons,
    List.foldl_nil]
  rw [hsp]
  exact ⟨_, rfl⟩
/-- What a bank does with a store: its bytes, and the sector as it then stands on the mirror link (R77, R88). -/
theorem orchApply_store (s : State) {q : Req} {sec : Nat} {l : LaneAcc} (hk : q.kind = .store) (hsp : q.space = 2)
    {o : MemF} {sz : BitVec 2} (hi : q.h.i = .st o sz) (hl : q.lanesIn sec = [l]) (e : Ecc) (mir : Bool) :
    let t := orchApply s q sec e mir
    t.mem = (stored s sz l).mem ∧ (mir = true → assoc t.net.mirq (1 - swOf sec) =
      some ((assoc s.net.mirq (1 - swOf sec)).getD [] ++ [(q.id, sec, t.bytes (keyOrch (sec * 64)) 64)])) := by
  obtain ⟨f, hf⟩ := applySector_store s hk hsp hi hl e
  have hnet : (stored s sz l).net = s.net := State.setBytes_net _ _ _
  unfold orchApply
  rw [hf]
  cases mir with
  | false =>
    refine ⟨?_, nofun⟩
    exact (keepsHome_answerSector ((stored s sz l).updReq q.id f) q.id).mem
  | true =>
    refine ⟨rfl, fun _ => ?_⟩
    refine (assoc_assocSet_same _ _ _).trans ?_
    rw [State.updReq_net, hnet]
    rfl

theorem orchardAccessApply_store {s : State} {q : Req} {l : LaneAcc} (hs : s.memWf) (hq : s.req s.cur.n = some q)
    (hsec : s.cur.co ∈ q.sectors) (hup : s.net.failed.contains (swOf s.cur.co) = false) (hw : mustWait s q s.cur.co = false)
    (hk : q.kind = .store) (hsp : q.space = 2) {o : MemF} {sz : BitVec 2} (hi : q.h.i = .st o sz)
    (hl : q.lanesIn s.cur.co = [l]) : Completes .orchardAccessApply s fun t =>
      (∀ k, k < 2 ^ sz.toNat → t.byte (keyOrch l.pa + k) = BitVec.ofNat 8 ((nth l.ops 0 0).toNat / 256 ^ k % 256)) ∧
      (∀ k, ¬(keyOrch l.pa ≤ k ∧ k < keyOrch l.pa + 2 ^ sz.toNat) → t.byte k = s.byte k) ∧
      (mirrors s q = true → assoc t.net.mirq (1 - swOf s.cur.co) =
        some ((assoc s.net.mirq (1 - swOf s.cur.co)).getD [] ++ [(q.id, s.cur.co, t.bytes (keyOrch (s.cur.co * 64)) 64)])) := by
  obtain ⟨u, e, hu, hmirq, hexec⟩ := exec_orchardAccessApply_applies hq hsec hup hw hk
  obtain ⟨hmem, hlink⟩ := orchApply_store u hk hsp hi hl e (mirrors s q)
  have hwf : Memory.wf u.mem = true := by rw [hu.mem]; exact hs.1
  refine ⟨_, hexec, fun k hk => ?_, fun k hk => ?_, fun hm => ?_⟩
  · rw [State.byte, hmem]
    exact byte_setBytes_toBytes hwf _ _ _ k hk
  · rw [State.byte, hmem, ← hu.byte]
    exact State.byte_setBytes_other (by rw [length_toBytes]; omega) hwf
  · rw [hlink hm, hmirq]

/-! The mirror link (R88). -/

theorem mirrorApply_mem (s : State) (e : Nat × Nat × List Byte) :
    (mirrorApply s e).mem = (s.setBytes (keyOrch (otherSec e.2.1 * 64)) e.2.2).mem := by
  unfold mirrorApply
  dsimp only
  split
  · rfl
  · split <;> rfl
theorem mirrorApply_mirq (s : State) (e : Nat × Nat × List Byte) : (mirrorApply s e).net.mirq = s.net.mirq := by
  have hnet := State.setBytes_net s (keyOrch (otherSec e.2.1 * 64)) e.2.2
  unfold mirrorApply
  dsimp only
  split
  · rw [hnet]
  · split <;> rw [hnet]
/-- The place of a sector's other copy (R75). -/
theorem otherSec_place (sec : Nat) : otherSec sec * 64 =
    if sec * 64 / 2 ^ 42 % 2 = 0 then sec * 64 + 2 ^ 42 else sec * 64 - 2 ^ 42 := by
  unfold otherSec swOf
  split <;> omega

theorem mirrorUpdate_applies {s : State} {id sec : Nat} {bs : List Byte} {link : List (Nat × Nat × List Byte)} (hs : s.memWf)
    (hlink : assoc s.net.mirq s.cur.co = some ((id, sec, bs) :: link)) (hlen : bs.length = 64) :
    Completes .mirrorUpdate s fun t => assoc t.net.mirq s.cur.co = some link ∧
      (∀ k, k < 64 → t.byte (keyOrch (otherSec sec * 64) + k) = nth bs k 0) ∧
      (∀ k, ¬(keyOrch (otherSec sec * 64) ≤ k ∧ k < keyOrch (otherSec sec * 64) + 64) → t.byte k = s.byte k) := by
  obtain ⟨u, hu⟩ : ∃ u : State, { s with net := { s.net with mirq := assocSet s.net.mirq s.cur.co link } } = u := ⟨_, rfl⟩
  have hexec : exec .mirrorUpdate s = .next (answerSector (mirrorApply u (id, sec, bs)) id) := by
    change execMirrorUpdate s = _
    unfold execMirrorUpdate
    simp only [hlink, Option.getD_some, hu]
  have hmem : (answerSector (mirrorApply u (id, sec, bs)) id).mem = (s.setBytes (keyOrch (otherSec sec * 64)) bs).mem := by
    rw [(keepsHome_answerSector _ _).mem, mirrorApply_mem]
    exact setBytes_mem_congr (hu ▸ rfl) _ _
  refine ⟨_, hexec, ?_, fun k hk => ?_, fun k hk => ?_⟩
  · rw [answerSector_net, mirrorApply_mirq, ← hu]
    exact assoc_assocSet_same _ _ _
  · rw [State.byte, hmem, ← State.byte, State.byte_setBytes _ hs.1, if_pos (Nat.le_add_right _ _), Nat.add_sub_cancel_left,
      List.getElem?_eq_getElem (by omega), nth, List.getElem?_eq_getElem (by omega)]
    rfl
  · rw [State.byte, hmem]
    exact State.byte_setBytes_other (by omega) hs.1

/-- Settles O30: the slot's send, the switch's forwarding, a store at its bank, and the mirror link. -/
theorem fabricAccesses : Obligations.FabricAccesses := by
  unfold Obligations.FabricAccesses
  intro s q id sec rest sw
  refine ⟨fun hiso hport hq => ?_, fun hport hq => switchForward_forwards hport hq, fun l o sz hs hq hco hsec hk hsp hi hl hup =>
    ⟨fun hw => ?_, fun hw => ?_⟩, fun bs link hs hlink hlen => ?_⟩
  · obtain ⟨t, hexec, hrest, hbyte, hsent⟩ := accessSlotSend_sends hiso hport hq
    simp only [arrives, not_or] at hsent
    exact ⟨t, hexec, hrest, hbyte, hsent⟩
  · subst hco
    exact exec_orchardAccessApply_waits hq hsec hup hw
  · subst hco
    obtain ⟨t, hexec, hin, hout, hlink⟩ := orchardAccessApply_store hs hq hsec hup hw hk hsp hi hl
    refine ⟨t, hexec, hin, hout, fun hm hf hlost => hlink ?_⟩
    rw [mirrors, hm, hf, hlost]
    rfl
  · intro other
    obtain ⟨t, hexec, hrest, hin, hout⟩ := mirrorUpdate_applies hs hlink hlen
    rw [otherSec_place] at hin hout
    exact ⟨t, hexec, hrest, hin, hout⟩

end Sys2Proof.Machine

/-! ### Orchard allocations: what firmware's page and quota work leaves (R82, R83, R85) -/
namespace Sys2Proof.Machine

/-- What firmware's work on tables, quotas and memory leaves: the cores, and the list of allocations. -/
structure KeepsAllocs (s t : State) : Prop where
  cores : t.cores = s.cores
  allocs : t.fw.allocs = s.fw.allocs
theorem KeepsAllocs.refl (s : State) : KeepsAllocs s s := ⟨rfl, rfl⟩
theorem KeepsAllocs.trans {s t u : State} (h : KeepsAllocs s t) (k : KeepsAllocs t u) : KeepsAllocs s u :=
  ⟨k.cores.trans h.cores, k.allocs.trans h.allocs⟩
theorem FwTouch.keepsAllocs {s t : State} (h : FwTouch s t) : KeepsAllocs s t := ⟨h.cores, by rw [h.fw]⟩
theorem KeepsAllocs.foldl {α : Type} {f : State → α → State} (h : ∀ s a, KeepsAllocs s (f s a)) (l : List α) (s : State) :
    KeepsAllocs s (l.foldl f s) := by
  induction l generalizing s with
  | nil => exact .refl s
  | cons a l ih => exact (h s a).trans (ih _)
theorem KeepsAllocs.iss {s t : State} (h : KeepsAllocs s t) (w : Iss) : t.iss w = s.iss w := by
  rw [State.iss, State.core, h.cores]
  rfl

theorem keepsAllocs_cleared (s : State) (k pa n : Nat) : KeepsAllocs s (fwWrote (clearRange s k n) pa n) :=
  ((fwTouch_clearRange s k n).trans (turnsOff_fwWrote _ pa n).touch).keepsAllocs
theorem keepsAllocs_newTable (s : State) : KeepsAllocs s (newTable s).2 := by
  have hset : KeepsAllocs s { s with fw := { s.fw with tblNext := s.fw.tblNext + 1 } } := ⟨rfl, rfl⟩
  unfold newTable
  dsimp only
  exact hset.trans (keepsAllocs_cleared _ _ _ _)
theorem keepsAllocs_rootOf (s : State) (tenant : Nat) : KeepsAllocs s (rootOf s tenant).2 := by
  have h := keepsAllocs_newTable s
  unfold rootOf
  generalize newTable s = p at h ⊢
  obtain ⟨r, u⟩ := p
  dsimp only at h ⊢
  split
  · exact .refl s
  · exact ⟨h.cores, h.allocs⟩
theorem keepsAllocs_entryAt (level va f : Nat) (s : State) (base l : Nat) : KeepsAllocs s (entryAt s base level va f l).2 := by
  induction f generalizing s base l with
  | zero => exact .refl s
  | succ f ih =>
    rw [entryAt]
    dsimp only
    split
    · exact .refl s
    · split
      · exact .refl s
      · split
        · exact ih _ _ _
        · have h := keepsAllocs_newTable s
          generalize newTable s = p at h ⊢
          obtain ⟨t, u⟩ := p
          dsimp only at h ⊢
          exact (h.trans (fwTouch_fwStore _ _ _).keepsAllocs).trans (ih _ _ _)
theorem keepsAllocs_writeEntry (s : State) (tenant level va : Nat) (p : DWord) :
    KeepsAllocs s (writeEntry s tenant level va p).2 := by
  have h := (keepsAllocs_rootOf s tenant).trans (keepsAllocs_entryAt level va 3 (rootOf s tenant).2 (rootOf s tenant).1 0)
  unfold writeEntry
  dsimp only
  split
  · rename_i he
    rw [he] at h
    exact h.trans (fwTouch_fwStore _ _ _).keepsAllocs
  · rename_i he
    rw [he] at h
    exact h
theorem keepsAllocs_writeEntries (tenant level : Nat) (step : Bool) (n : Nat) (s : State) (va : Nat) (p : DWord) :
    KeepsAllocs s (writeEntries s tenant level va p step n).2 := by
  induction n generalizing s va p with
  | zero => exact .refl s
  | succ n ih =>
    rw [writeEntries]
    exact (keepsAllocs_writeEntry s tenant level va p).trans (ih _ _ _)

theorem keepsAllocs_writeDcb (s : State) (id : Nat) : KeepsAllocs s (writeDcb s id) := by
  unfold writeDcb
  split
  · exact .refl s
  · exact (fwTouch_fwStore _ _ _).keepsAllocs
/-- The use of a limit set at domains, each written to its control block (R375, R376). -/
theorem keepsAllocs_setUse (l : Lim) (g : Dom → Nat) (ds : List Dom) (s : State) :
    KeepsAllocs s (ds.foldl (fun s d => writeDcb (s.updDom d.id fun d => d.setUse l (g d)) d.id) s) := by
  refine KeepsAllocs.foldl (fun s d => ?_) ds s
  have hset : KeepsAllocs s (s.updDom d.id fun d => d.setUse l (g d)) := ⟨rfl, rfl⟩
  exact hset.trans (keepsAllocs_writeDcb _ _)
theorem keepsAllocs_charge {s t : State} {dom : Nat} {l : Lim} {n : Nat} (h : charge s dom l n = some t) : KeepsAllocs s t := by
  unfold charge at h
  extract_lets ds at h
  split at h
  · rw [← Option.some.inj h]
    exact keepsAllocs_setUse l (fun d => d.use l + n) ds s
  · cases h
theorem keepsAllocs_refund (s : State) (dom : Nat) (l : Lim) (n : Nat) : KeepsAllocs s (refund s dom l n) :=
  keepsAllocs_setUse l (fun d => d.use l - n) _ s

/-- Passing a blocking point changes its core alone, and no part of firmware's state (R184, R198). -/
theorem completeBlock_fw (s : State) (w : Iss) (i : Instr) (lanes : List Nat) (pc : Nat) (v : DWord) :
    (completeBlock s w i lanes pc v).fw = s.fw := by
  have hlog (u : State) (sig : BitVec 56) (res : List (Nat × DWord)) : (logEffect u w true sig res).fw = u.fw := by
    unfold logEffect
    split <;> rfl
  have hcrc (u : State) (ds : List DWord) : (foldCrc u w ds).fw = u.fw := by
    unfold foldCrc
    split <;> rfl
  rw [completeBlock, hlog]
  exact hcrc s _

/-! OALLOC and OFREE at firmware (R83, R85). -/

/-- Taking up the next request sets its happening, within 4,000 ticks, and does nothing else (R83). -/
theorem orchServed_keeps (s : State) (w : Iss) : KeepsAllocs s (orchServed s w) := by
  unfold orchServed orchNext
  dsimp only
  split <;> exact ⟨rfl, rfl⟩
/-- What completes the request of an issuer that waits at firmware (R83, R85). -/
def orchReply (s : State) (w : Iss) : Instr :=
  match (s.iss w).wait with
  | .block (.ofree ..) .. => .ofreeComplete
  | _ => .oallocComplete
theorem orchNext_of {s : State} {x : Iss} {r : List Iss} (h : s.fw.orchq = x :: r) :
    orchNext s = (s.free 4000).2.sched (s.tick + (s.free 4000).1) x (orchReply s x) := by
  rw [orchNext, h]
  rfl
theorem orchServed_next {s : State} {w x : Iss} {r : List Iss} (h : s.fw.orchq = w :: x :: r) :
    ∃ d i, d ≤ 4000 ∧ (s.tick + d, x, i) ∈ (orchServed s w).agenda ∧ (i = .oallocComplete ∨ i = .ofreeComplete) := by
  have hq : s.fw.orchq.erase w = x :: r := by simp [h]
  rw [orchServed, orchNext_of hq]
  refine ⟨_, _, Nat.le_of_lt_succ (Nat.mod_lt _ (Nat.succ_pos 4000)), List.mem_append_right _ (List.mem_singleton.2 rfl), ?_⟩
  unfold orchReply
  split
  · exact .inr rfl
  · exact .inl rfl

section
variable {s : State} {m : Mods} {d a : BitVec 8} {lanes : List Nat} {vals : List DWord} {it pc : Nat}

/-- What firmware answers to an OALLOC: zero for a core outside any domain (R83). -/
def orchGiven (s : State) (w : Iss) (n : Nat) (mir : Bool) : DWord × State :=
  match domOfCore s w.cl w.co with
  | some dom => orchAlloc s dom n mir
  | none => (0, s)
theorem exec_oallocComplete {mir : Bool} (hw : (s.iss s.cur).wait = .block (.oalloc m d a mir) .wait lanes vals it pc) :
    exec .oallocComplete s = .next (completeBlock (orchGiven (orchServed s s.cur) s.cur (nth vals 0 0).toNat mir).2 s.cur
      (.oalloc m d a mir) lanes pc (orchGiven (orchServed s s.cur) s.cur (nth vals 0 0).toNat mir).1) := by
  have hw' : ((orchServed s s.cur).iss s.cur).wait = .block (.oalloc m d a mir) .wait lanes vals it pc := by
    rw [(orchServed_keeps s s.cur).iss]
    exact hw
  change execOallocComplete s = _
  unfold execOallocComplete
  dsimp only
  rw [hw']
  rfl
/-- A served request adds one allocation, at the places that were found (R82, R83). -/
theorem orchAlloc_allocs {u : State} {dom n : Nat} {mir : Bool} {dm : Dom} {size level pa va : Nat} (hdm : s.dom dom = some dm)
    (hsize : orchSize n = some (size, level)) (hcharge : charge s dom .orch (size / 2 ^ 15 * (if mir then 2 else 1)) = some u)
    (hplace : orchPlace s size (2 ^ levelShift level) mir = some pa)
    (hfit : lowestFit ((s.fw.allocs.filter fun a => domTenant s a.dom == dm.tenant).map fun a => (a.va, a.size))
      (bits (nth dm.dw 7 0) 27 24 * 2 ^ 27)
      (bits (nth dm.dw 7 0) 27 24 * 2 ^ 27 + bits (nth dm.dw 7 0) 0 24 * 2 ^ 27) size (2 ^ levelShift level) = some va) :
    (orchAlloc s dom n mir).2.fw.allocs = s.fw.allocs ++ [⟨va, size, pa, mir, dom, level, false⟩] := by
  have hused := (keepsAllocs_charge hcharge).allocs
  unfold orchAlloc
  simp only [hdm, hsize, hcharge, hplace, hfit]
  refine congrArg (· ++ _) ((keepsAllocs_writeEntries _ _ _ _ _ _ _).allocs.trans ?_)
  split <;> exact hused

theorem exec_ofreeComplete_unnamed (hw : (s.iss s.cur).wait = .block (.ofree m d a) .wait lanes vals it pc)
    (hnone : ((domOfCore s s.cur.cl s.cur.co).bind fun dom => orchNamed s dom (nth vals 0 0)) = none) :
    exec .ofreeComplete s = .next (completeBlock (orchServed s s.cur) s.cur (.ofree m d a) lanes pc 0) := by
  change execOfreeComplete s = _
  unfold execOfreeComplete
  dsimp only
  rw [hw]
  dsimp only
  rw [hnone]
/-- A release goes on to its next part (R85). -/
def freeing (s : State) (m : Mods) (d a : BitVec 8) (lanes : List Nat) (vals : List DWord) (it pc : Nat) : State :=
  s.updIss s.cur fun me => { me with wait := .block (.ofree m d a) .wait lanes (vals ++ [1]) it pc }
theorem iss_freeing : ((freeing s m d a lanes vals it pc).iss s.cur).wait = .block (.ofree m d a) .wait lanes (vals ++ [1]) it pc := by
  rw [freeing, iss_updIss _ _ _ (state_iss_slot s s.cur)]
/-- The release is done: space and quota are returned (R85). -/
def freed (s : State) (w : Iss) (x : Alloc) : State :=
  let s := refund (orchServed s w) x.dom .orch (x.size / 2 ^ 15 * (if x.mir then 2 else 1))
  { s with fw := { s.fw with allocs := s.fw.allocs.filter fun y => y.va != x.va || y.dom != x.dom } }
theorem exec_ofreeComplete_named {x : Alloc} (hw : (s.iss s.cur).wait = .block (.ofree m d a) .wait lanes vals it pc)
    (hx : ((domOfCore s s.cur.cl s.cur.co).bind fun dom => orchNamed s dom (nth vals 0 0)) = some x) :
    exec .ofreeComplete s = .next (match vals.length with
      | 1 => orchUnmap (freeing s m d a lanes vals it pc) [(s.cur, .ofreeComplete)] x
      | 2 => (freeing s m d a lanes vals it pc).sched (s.tick + 4000) s.cur .ofreeComplete
      | _ => completeBlock (freed (freeing s m d a lanes vals it pc) s.cur x) s.cur (.ofree m d a) lanes pc 1) := by
  change execOfreeComplete s = _
  unfold execOfreeComplete
  dsimp only
  rw [hw]
  dsimp only
  rw [hx]
  dsimp only
  generalize vals.length = n
  match n with
  | 0 => rfl
  | 1 => rfl
  | 2 => rfl
  | n + 3 => rfl

theorem invalidateVa_eq (s : State) (w : Option Iss) (next : List (Iss × Instr)) (t va n : Nat) : ∃ a f,
    invalidateVa s w next t va n = { s with agenda := s.agenda ++ a, chip := invalidated w next f s.chip } := by
  unfold invalidateVa
  obtain ⟨a, h⟩ := invalidateThen_eq s w next _
  exact ⟨a, _, h⟩
/-- Unmapping leaves the cores and the list of allocations; what is named waits for the invalidation, and no granule of the
allocation is poisoned any more (R85). -/
theorem orchUnmap_spec (s : State) (next : List (Iss × Instr)) (x : Alloc) : let t := orchUnmap s next x
    KeepsAllocs s t ∧ (∃ v ∈ t.chip.invs, v.next = next) ∧ ∀ g ∈ t.net.opsn, inOrch x (g * 4096) = false := by
  have hpages := keepsAllocs_writeEntries (domTenant s x.dom) x.level false (x.size / 2 ^ levelShift x.level) s x.va 0
  obtain ⟨t, ht⟩ : ∃ t, orchUnmap s next x = t := ⟨_, rfl⟩
  rw [ht]
  unfold orchUnmap at ht
  extract_lets tenant at ht
  generalize writeEntries s (domTenant s x.dom) x.level x.va 0 false (x.size / 2 ^ levelShift x.level) = p at hpages ht
  obtain ⟨b, u⟩ := p
  dsimp -zeta only at hpages ht
  extract_lets v net2 at ht
  have hv : KeepsAllocs u v := by
    unfold v
    split
    · refine KeepsAllocs.foldl (fun s k => ?_) _ _
      dsimp only
      split
      · exact (fwTouch_setBytes _ _ _).keepsAllocs
      · exact .refl s
    · exact .refl u
  obtain ⟨i, f, hi⟩ := invalidateVa_eq { v with net := { v.net with opsn := v.net.opsn.filter fun g => !(inOrch x (g * 4096)) } }
    none next tenant x.va x.size
  rw [← ht, hi]
  refine ⟨(hpages.trans hv).trans ⟨rfl, rfl⟩, ⟨_, List.mem_append_right _ (List.mem_singleton.2 rfl), rfl⟩, fun g hg => ?_⟩
  exact Bool.not_eq_true' _ ▸ (List.mem_filter.1 hg).2
end

/-- Returned space leaves the list of allocations, and no other allocation does (R85). -/
theorem freed_allocs (s : State) (w : Iss) (x : Alloc) :
    (freed s w x).fw.allocs = s.fw.allocs.filter fun y => y.va != x.va || y.dom != x.dom :=
  congrArg (List.filter _) ((orchServed_keeps s w).trans (keepsAllocs_refund _ _ _ _)).allocs

end Sys2Proof.Machine

/-! ### Loss of a switch (R87, R90, R91) -/
namespace Sys2Proof.Machine

/-- An access in flight after a change to those of one number. -/
theorem req_updReq_map (s : State) (id k : Nat) {f : Req → Req} (hf : ∀ p, (f p).id = p.id) :
    (s.updReq id f).req k = (s.req k).map fun p => if p.id = id then f p else p := by
  have hkey : ((fun p : Req => p.id == k) ∘ fun p => if p.id = id then f p else p) = fun p => p.id == k := by
    funext p
    rw [Function.comp_apply]
    split
    · rw [hf]
    · rfl
  refine (List.find?_map (l := s.chip.reqs)).trans ?_
  rw [hkey]
  rfl

/-- What the answers to lost accesses leave of the switches' state (R87, R91). -/
structure KeepsSwitches (s t : State) : Prop where
  tick : t.tick = s.tick
  failed : t.net.failed = s.net.failed
  orchst : t.chip.orchst = s.chip.orchst
theorem KeepsSwitches.refl (s : State) : KeepsSwitches s s := ⟨rfl, rfl, rfl⟩
theorem KeepsSwitches.trans {s t u : State} (h : KeepsSwitches s t) (k : KeepsSwitches t u) : KeepsSwitches s u :=
  ⟨k.tick.trans h.tick, k.failed.trans h.failed, k.orchst.trans h.orchst⟩
theorem KeepsSwitches.foldl {α : Type} {f : State → α → State} (h : ∀ s a, KeepsSwitches s (f s a)) (l : List α) (s : State) :
    KeepsSwitches s (l.foldl f s) := by
  induction l generalizing s with
  | nil => exact .refl s
  | cons a l ih => exact (h s a).trans (ih _)

/-- The same, and memory, what is set to happen, and of each access in flight its kind and bound. -/
structure AnswersLost (s t : State) : Prop where
  switches : KeepsSwitches s t
  mem : t.mem = s.mem
  agenda : ∀ e ∈ s.agenda, e ∈ t.agenda
  reqs : ∀ k q, s.req k = some q → ∃ p, t.req k = some p ∧ p.kind = q.kind ∧ p.bound = q.bound
theorem AnswersLost.refl (s : State) : AnswersLost s s := ⟨.refl s, rfl, fun _ h => h, fun _ q h => ⟨q, h, rfl, rfl⟩⟩
theorem AnswersLost.trans {s t u : State} (h : AnswersLost s t) (k : AnswersLost t u) : AnswersLost s u where
  switches := h.switches.trans k.switches
  mem := k.mem.trans h.mem
  agenda e he := k.agenda e (h.agenda e he)
  reqs id q hq := by
    obtain ⟨p, hp, hkind, hbound⟩ := h.reqs id q hq
    obtain ⟨r, hr, hkind', hbound'⟩ := k.reqs id p hp
    exact ⟨r, hr, hkind'.trans hkind, hbound'.trans hbound⟩
theorem answersLost_updReq (s : State) (id : Nat) {f : Req → Req} (hf : ∀ p, (f p).id = p.id)
    (hk : ∀ p, (f p).kind = p.kind) (hb : ∀ p, (f p).bound = p.bound) : AnswersLost s (s.updReq id f) where
  switches := ⟨rfl, rfl, rfl⟩
  mem := rfl
  agenda _ h := h
  reqs k q hq := by
    refine ⟨_, by rw [req_updReq_map s id k hf, hq, Option.map_some], ?_⟩
    split
    · exact ⟨hk q, hb q⟩
    · exact ⟨rfl, rfl⟩
theorem answersLost_sched (s : State) (t : Nat) (o : Iss) (i : Instr) : AnswersLost s (s.sched t o i) :=
  ⟨⟨rfl, rfl, rfl⟩, rfl, fun _ h => List.mem_append_left _ h, fun _ q h => ⟨q, h, rfl, rfl⟩⟩
theorem answersLost_free (s : State) (n : Nat) : AnswersLost s (s.free n).2 :=
  ⟨⟨rfl, rfl, rfl⟩, rfl, fun _ h => h, fun _ q h => ⟨q, h, rfl, rfl⟩⟩
theorem AnswersLost.sched {s u : State} (h : AnswersLost s u) (t : Nat) (o : Iss) (i : Instr) : AnswersLost s (u.sched t o i) :=
  h.trans (answersLost_sched u t o i)
theorem answersLost_answer (s : State) (q : Req) : AnswersLost s (answer s q) := by
  have now := AnswersLost.sched (.refl s)
  have late (n : Nat) := AnswersLost.sched (answersLost_free s n)
  unfold answer
  split
  · split
    · exact now _ _ _
    · exact late 4000 _ _ _
  · exact now _ _ _
  · exact now _ _ _
  · exact now _ _ _
  · exact late (q.bound - s.tick) _ _ _
  · have hu := answersLost_free s (q.bound - s.tick)
    generalize s.free (q.bound - s.tick) = p at hu ⊢
    obtain ⟨d, u⟩ := p
    dsimp -zeta only at hu ⊢
    extract_lets v
    have hv : AnswersLost s v := by
      unfold v
      split
      · exact hu.sched _ _ _
      · exact hu
    split
    · exact hv.sched _ _ _
    · exact hv.sched _ _ _
theorem answersLost_answerSector (s : State) (id : Nat) : AnswersLost s (answerSector s id) := by
  unfold answerSector
  split
  · exact .refl s
  · extract_lets each
    split
    · exact answersLost_answer s _
    · exact .refl s
theorem answersLost_loseSector (s : State) (id sec stat : Nat) : AnswersLost s (loseSector s id sec stat) := by
  unfold loseSector
  split
  · exact .refl s
  · extract_lets u
    have hu : AnswersLost s u := answersLost_updReq s id (fun _ => rfl) (fun _ => rfl) fun _ => rfl
    have hpoison : AnswersLost u (u.updReq id fun q => { q with psn := true, data := List.replicate 64 0 }) :=
      answersLost_updReq u id (fun _ => rfl) (fun _ => rfl) fun _ => rfl
    split
    · exact hu.trans (answersLost_sched _ _ _ _)
    · exact hu.trans (answersLost_sched _ _ _ _)
    · exact hu.trans (.trans hpoison (answersLost_answer _ _))
    · exact hu.trans (.trans hpoison (answersLost_answer _ _))
    · exact hu.trans (answersLost_sched _ _ _ _)
/-- A load or a returning atomic that loses a sector is answered at its tick (R91). -/
theorem loseSector_replies {s : State} {id : Nat} {q : Req} (hq : s.req id = some q) (hk : q.kind = .load ∨ q.kind = .atom)
    (sec stat : Nat) : (max s.tick q.bound, obj id, Instr.lostReply) ∈ (loseSector s id sec stat).agenda := by
  unfold loseSector
  rw [hq]
  dsimp only
  rcases hk with hk | hk
  all_goals
    rw [hk]
    exact List.mem_append_right _ (List.mem_singleton.2 rfl)

/-- Sectors that a switch has lost are answered in turn (R91). -/
def sectorsLost (s : State) (l : List (Nat × Nat)) : State := l.foldl (fun s e => loseSector s e.1 e.2 2) s
theorem sectorsLost_answers (l : List (Nat × Nat)) (s : State) : AnswersLost s (sectorsLost s l) := by
  induction l generalizing s with
  | nil => exact .refl s
  | cons e l ih => exact (answersLost_loseSector s e.1 e.2 2).trans (ih _)
theorem sectorsLost_replies {l : List (Nat × Nat)} {s : State} {e : Nat × Nat} (he : e ∈ l) {q : Req} (hq : s.req e.1 = some q)
    (hk : q.kind = .load ∨ q.kind = .atom) : (max s.tick q.bound, obj e.1, Instr.lostReply) ∈ (sectorsLost s l).agenda := by
  induction l generalizing s q with
  | nil => exact absurd he List.not_mem_nil
  | cons x l ih =>
    have hstep := answersLost_loseSector s x.1 x.2 2
    rcases List.mem_cons.1 he with rfl | he
    · exact (sectorsLost_answers l _).agenda _ (loseSector_replies hq hk _ _)
    · obtain ⟨p, hp, hkind, hbound⟩ := hstep.reqs _ _ hq
      have := ih he hp (by rwa [hkind])
      rwa [hstep.switches.tick, hbound] at this

/-! The mirror link at a failure (R87, R88, R91). -/

theorem keepsSwitches_mirrorApply (s : State) (e : Nat × Nat × List Byte) : KeepsSwitches s (mirrorApply s e) := by
  obtain ⟨m, hm⟩ := State.setBytes_keeps s (keyOrch (otherSec e.2.1 * 64)) e.2.2
  unfold mirrorApply
  dsimp only
  rw [hm]
  split
  · exact ⟨rfl, rfl, rfl⟩
  · split <;> exact ⟨rfl, rfl, rfl⟩
theorem keepsSwitches_loseMirror (s : State) (sw : Nat) : KeepsSwitches s (loseMirror s sw) := by
  unfold loseMirror
  extract_lets down up net s1 s2
  have h2 : KeepsSwitches s1 s2 := KeepsSwitches.foldl (fun s e => by
    have hu : KeepsSwitches s (s.updReq e.1 fun q => { q with fsw := q.fsw ||| 2 ^ sw }) := ⟨rfl, rfl, rfl⟩
    exact hu.trans (answersLost_answerSector _ _).switches) down s1
  have h1 : KeepsSwitches s s1 := ⟨rfl, rfl, rfl⟩
  refine (h1.trans h2).trans (KeepsSwitches.foldl (fun s e => ?_) up s2)
  have hf := (answersLost_free s 1).switches
  generalize s.free 1 = p at hf ⊢
  obtain ⟨f, u⟩ := p
  dsimp only at hf ⊢
  refine hf.trans (.trans ?_ (answersLost_loseSector _ _ _ _).switches)
  split
  · exact keepsSwitches_mirrorApply u e
  · exact .refl u

/-- A failure with nothing on the mirror link answers nothing of it (R88). -/
theorem loseMirror_idle {s : State} (h : s.net.mirq = []) (sw : Nat) :
    loseMirror s sw = { s with net := { s.net with mirq := [] } } := by
  unfold loseMirror
  rw [h]
  rfl

/-- The sectors of accesses in flight that a switch holds (R91). -/
def outstanding (s : State) (sw : Nat) : List (Nat × Nat) :=
  ((s.chip.reqs.filter fun q => q.space == 2).map fun q => (q.sectors.filter fun k => swOf k == sw).map fun k => (q.id, k)).flatten
theorem mem_outstanding {s : State} {sw k : Nat} {q : Req} (hq : q ∈ s.chip.reqs) (hsp : q.space = 2) (hk : k ∈ q.sectors)
    (hsw : swOf k = sw) : (q.id, k) ∈ outstanding s sw := by
  refine List.mem_flatten.2 ⟨_, List.mem_map.2 ⟨q, List.mem_filter.2 ⟨hq, ?_⟩, rfl⟩, ?_⟩
  · rw [hsp]
    rfl
  · exact List.mem_map.2 ⟨k, List.mem_filter.2 ⟨hk, beq_iff_eq.2 hsw⟩, rfl⟩
/-- The state at once after a switch has failed: its happenings are gone (R91). -/
def failing (s : State) (sw : Nat) : State :=
  { s with net := { s.net with failed := s.net.failed ++ [sw] }, agenda := s.agenda.filter fun e => !(reqEvent sw e) }
/-- The same with every access outstanding to it answered (R91). -/
def failedOver (s : State) (sw : Nat) : State :=
  sectorsLost (loseMirror (failing s sw) sw) (outstanding (loseMirror (failing s sw) sw) sw)
theorem exec_switchFailure_chip {s : State} (hn : s.cur.n < 2) (hf : s.net.failed.contains (s.cur.n % 2) = false) :
    exec .switchFailure s = .next (((failedOver s (s.cur.n % 2)).free 400).2.sched
      ((failedOver s (s.cur.n % 2)).tick + ((failedOver s (s.cur.n % 2)).free 400).1) (obj (2 + s.cur.n % 2)) .switchFailure) := by
  change execSwitchFailure s = _
  unfold execSwitchFailure
  dsimp only
  rw [if_pos hn, hf]
  rfl
theorem failedOver_keeps (s : State) (sw : Nat) : KeepsSwitches (failing s sw) (failedOver s sw) :=
  (keepsSwitches_loseMirror _ _).trans (sectorsLost_answers _ _).switches

/-- The ports know that a switch has failed (R90, R91). -/
def portsLost (s : State) (sw : Nat) : State :=
  let orchst := s.chip.orchst ||| BitVec.ofNat 64 (2 ^ sw + 4)
  let both := bits orchst 0 2 == 3
  { s.updChip fun h => { h with orchst := orchst } with
    fw := { s.fw with allocs := s.fw.allocs.map fun a =>
      if both || (!a.mir && a.pa / 2 ^ 42 % 2 == sw) then { a with lost := true } else a } }
theorem exec_switchFailure_ports {s : State} (hn : 2 ≤ s.cur.n) (hf : s.net.failed.contains (s.cur.n % 2) = true) :
    exec .switchFailure s = .next (if s.chip.sched.running then reportFault (portsLost s (s.cur.n % 2)) 5
      else portsLost s (s.cur.n % 2)) := by
  change execSwitchFailure s = _
  unfold execSwitchFailure
  dsimp only
  rw [if_neg (Nat.not_lt.2 hn), hf, if_neg (by decide : ¬(!true) = true)]
  rfl
theorem portsLost_lost {s : State} {sw : Nat} {x : Alloc} (hx : x ∈ (portsLost s sw).fw.allocs) (hmir : x.mir = false)
    (hpa : x.pa / 2 ^ 42 % 2 = sw) : x.lost = true := by
  obtain ⟨a, -, ha⟩ := List.mem_map.1 hx
  split at ha
  · rw [← ha]
  · rename_i hkept
    rw [← ha] at hmir hpa
    rw [hmir, hpa] at hkept
    simp at hkept
theorem reportFault_reports (s : State) : ∃ d k, (s.tick + d, obj k, Instr.scheduleFault 5) ∈ (reportFault s 5).agenda :=
  ⟨0, 0, List.mem_append_right _ (List.mem_singleton.2 rfl)⟩

section
variable {s : State}
/-- SWITCH_FAILURE at the switch (R87, R91). -/
theorem switchFailure_chip (hn : s.cur.n < 2) (hf : s.net.failed.contains (s.cur.n % 2) = false) :
    Completes .switchFailure s fun t =>
      t.net.failed = s.net.failed ++ [s.cur.n % 2] ∧ t.chip.orchst = s.chip.orchst ∧
      (∃ d, d ≤ 400 ∧ (s.tick + d, obj (2 + s.cur.n % 2), Instr.switchFailure) ∈ t.agenda) ∧
      (s.net.mirq = [] → (∀ k, t.byte k = s.byte k) ∧
        ∀ q ∈ s.chip.reqs, s.req q.id = some q → q.space = 2 → (q.kind = .load ∨ q.kind = .atom) →
          (∃ k ∈ q.sectors, swOf k = s.cur.n % 2) → (max s.tick q.bound, obj q.id, Instr.lostReply) ∈ t.agenda) := by
  obtain ⟨htick, hfailed, horchst⟩ := failedOver_keeps s (s.cur.n % 2)
  refine ⟨_, exec_switchFailure_chip hn hf, hfailed, horchst, ⟨((failedOver s (s.cur.n % 2)).free 400).1, ?_, ?_⟩,
    fun hidle => ⟨fun k => ?_, ?_⟩⟩
  · exact Nat.le_of_lt_succ (Nat.mod_lt _ (Nat.succ_pos 400))
  · rw [← show (failedOver s (s.cur.n % 2)).tick = s.tick from htick]
    exact List.mem_append_right _ (List.mem_singleton.2 rfl)
  · have hmem : (failedOver s (s.cur.n % 2)).mem = s.mem := by
      rw [failedOver, (sectorsLost_answers _ _).mem, loseMirror_idle (s := failing s (s.cur.n % 2)) hidle]
      rfl
    exact congrArg (fun m => Sparse.get unlistedByte m k) hmem
  · intro q hq hreq hsp hk ⟨k, hk', hsw⟩
    have hlost : loseMirror (failing s (s.cur.n % 2)) (s.cur.n % 2) = _ :=
      loseMirror_idle (s := failing s (s.cur.n % 2)) hidle _
    refine List.mem_append_left _ ?_
    rw [State.free, failedOver, hlost]
    exact sectorsLost_replies (e := (q.id, k)) (mem_outstanding hq hsp hk' hsw) hreq hk
/-- SWITCH_FAILURE at the ports (R90, R91). -/
theorem switchFailure_ports (hn : 2 ≤ s.cur.n) (hf : s.net.failed.contains (s.cur.n % 2) = true) :
    Completes .switchFailure s fun t =>
      t.chip.orchst = s.chip.orchst ||| BitVec.ofNat 64 (2 ^ (s.cur.n % 2) + 4) ∧ t.net.failed = s.net.failed ∧
      (∀ x ∈ t.fw.allocs, x.mir = false → x.pa / 2 ^ 42 % 2 = s.cur.n % 2 → x.lost = true) ∧
      (s.chip.sched.running = true → ∃ d k, (s.tick + d, obj k, Instr.scheduleFault 5) ∈ t.agenda) ∧
      ∀ k, t.byte k = s.byte k := by
  refine ⟨_, exec_switchFailure_ports hn hf, ?_⟩
  split
  · exact ⟨rfl, rfl, fun _ => portsLost_lost (s := s), fun _ => reportFault_reports (portsLost s _), fun _ => rfl⟩
  · rename_i hrun
    exact ⟨rfl, rfl, fun _ => portsLost_lost, fun h => absurd h hrun, fun _ => rfl⟩
end
end Sys2Proof.Machine

/-! ### Replies of lost accesses (R91, R188) -/
namespace Sys2Proof.Machine

/-! What a poisoned sector's entry in the remote table does to the cores (R24, R152): they may stop, their modes stay. -/

theorem KeepsWindows.refl (s : State) : KeepsWindows s s := .of_cores rfl
theorem KeepsWindows.foldl {α : Type} {f : State → α → State} (h : ∀ s a, KeepsWindows s (f s a)) (l : List α) (s : State) :
    KeepsWindows s (l.foldl f s) := by
  induction l generalizing s with
  | nil => exact .refl s
  | cons a l ih => exact (h s a).trans (ih _)
theorem keepsWindows_stopCore (s : State) (cl co n : Nat) : KeepsWindows s (s.updCore cl co fun c => stopCore c n) :=
  keepsWindows_updCore s cl co (fun _ => ⟨rfl, rfl⟩) (fun _ => rfl) fun _ => rfl
theorem keepsWindows_endGrid (s : State) (g rstat : Nat) (r : Rec) : KeepsWindows s (endGrid s g rstat r) := by
  unfold endGrid
  split
  · exact .refl s
  · split
    · exact .refl s
    · extract_lets fw u v
      have hu : KeepsWindows s u := by
        unfold u
        split
        · exact KeepsWindows.foldl (fun s (k : Nat × Nat) => keepsWindows_stopCore s k.1 k.2 5) _ s
        · exact .of_cores rfl
      have hv : KeepsWindows u v := .of_cores rfl
      exact (hu.trans hv).trans (keepsWindows_sched _ _ _ _)
theorem keepsWindows_terminateGrid (s : State) (g : Nat) (r : Rec) : KeepsWindows s (terminateGrid s g r) :=
  KeepsWindows.foldl (fun s k => keepsWindows_endGrid s k 10 r) _ s
theorem keepsWindows_terminateAt (s : State) (cl co : Nat) (r : Rec) : KeepsWindows s (terminateAt s cl co r) := by
  unfold terminateAt
  split
  · exact keepsWindows_terminateGrid s _ r
  · exact keepsWindows_stopCore s cl co 5
theorem cores_remoteEnter {s t : State} {pa : Nat} (h : remoteEnter s pa = some t) : t.cores = s.cores := by
  unfold remoteEnter at h
  dsimp only at h
  split at h
  · rw [Option.some.inj h]
  · split at h
    · rw [← Option.some.inj h]
      exact (fwTouch_setBytes _ _ _).cores
    · cases h
theorem keepsWindows_enterRemote (s : State) (q : Req) : KeepsWindows s (enterRemote s q) := by
  unfold enterRemote
  split
  · exact .refl s
  · refine KeepsWindows.foldl (fun s g => ?_) _ s
    split
    · rename_i u hu
      have hcores : u.cores = s.cores := cores_remoteEnter hu
      exact .of_cores hcores
    · extract_lets r
      have hreport : KeepsWindows s (reportFw s r) := keepsWindows_toFirmware s r none
      split
      · exact hreport.trans (KeepsWindows.foldl (fun s k => keepsWindows_terminateGrid s k r) _ _)
      · exact hreport.trans (keepsWindows_terminateAt _ _ _ r)

/-- An access whose switch is lost, as it is answered: STAT 2 (R91). -/
def Req.asLost (q : Req) : Req := { q with stat := 2 }
/-- The state once its answer is taken up: it is in flight no longer, and its poisoned sectors are in the table (R24, R91). -/
def lostTaken (s : State) (q : Req) : State := enterRemote ((s.updReq q.id Req.asLost).delReq q.id) q.asLost

section
variable {s : State} {q : Req}
theorem req_asLost (hq : s.req s.cur.n = some q) : (s.updReq q.id Req.asLost).req s.cur.n = some q.asLost := by
  have hid := req_id hq
  rw [← hid] at hq ⊢
  exact req_updReq hq fun _ => rfl
theorem logAnswer_asLost (hlog : s.dbg.rlogOn = false) :
    logAnswer (s.updReq q.id Req.asLost) q.asLost 0 = s.updReq q.id Req.asLost :=
  logAnswer_local (s := s.updReq q.id Req.asLost) (fun h => absurd (hlog.symm.trans h) Bool.false_ne_true) 0
/-- A lost load discards by its cause (R91, R188). -/
theorem exec_lostReply_load (hq : s.req s.cur.n = some q) (hlog : s.dbg.rlogOn = false) (hk : q.kind = .load) :
    exec .lostReply s = .next (discardBy (lostTaken s q) q.w 0 4) := by
  have hreq := req_asLost hq
  have hanswer : (if q.asLost.kind = .stamp then s.updReq q.id Req.asLost else logAnswer (s.updReq q.id Req.asLost) q.asLost 0) =
      s.updReq q.id Req.asLost := by
    rw [logAnswer_asLost hlog, ite_self]
  have hlost : (q.asLost.kind == .load && (q.asLost.psn || q.asLost.stat == 2)) = true := by
    simp [Req.asLost, hk]
  change execLostReply s = _
  unfold execLostReply
  rw [hq]
  dsimp only
  rw [if_neg (by rw [hk]; decide)]
  change execLoadReply (s.updReq q.id Req.asLost) = _
  unfold execLoadReply
  rw [show (s.updReq q.id Req.asLost).cur = s.cur from rfl, hreq]
  dsimp only
  rw [hanswer, if_pos hlost]
  rfl
/-- A lost atomic is to be sent again (R91, R188). -/
theorem exec_lostReply_atom (hq : s.req s.cur.n = some q) (hlog : s.dbg.rlogOn = false) (hk : q.kind = .atom)
    (hlean : (s.coreOf q.w).lean = false) (hlimit : ((lostTaken s q).iss q.w).rcount + 1 ≤ ((lostTaken s q).iss q.w).rlimit) :
    exec .lostReply s = .next ((recovery (discardAll (lostTaken s q) q.w false) q.w 2 0 0).updIss q.w fun me => { me with
      rcount := me.rcount + 1, retry := some ⟨q.h, q.id, true⟩ }) := by
  have hreq := req_asLost hq
  have hmode : ((lostTaken s q).coreOf q.w).lean = false := by
    have hkeeps := (keepsWindows_enterRemote ((s.updReq q.id Req.asLost).delReq q.id) q.asLost q.w.cl q.w.co).2
    rw [← hlean]
    exact congrArg (bit · 1) hkeeps
  have hlost : (q.asLost.psn || q.asLost.stat == 1 || q.asLost.stat == 2) = true := by simp [Req.asLost]
  change execLostReply s = _
  unfold execLostReply
  rw [hq]
  dsimp only
  rw [if_pos hk]
  change execAtomicReply (s.updReq q.id Req.asLost) = _
  unfold execAtomicReply
  rw [show (s.updReq q.id Req.asLost).cur = s.cur from rfl, hreq]
  dsimp only
  rw [logAnswer_asLost hlog, if_pos hlost]
  change (if ((lostTaken s q).coreOf q.w).lean = true then _ else _) = _
  rw [if_neg (by rw [hmode]; exact Bool.false_ne_true)]
  exact if_neg (not_lt.2 hlimit)
theorem lostReply_again (hq : s.req s.cur.n = some q) (hlog : s.dbg.rlogOn = false) (hk : q.kind = .atom)
    (hlean : (s.coreOf q.w).lean = false) (hlimit : ((lostTaken s q).iss q.w).rcount + 1 ≤ ((lostTaken s q).iss q.w).rlimit) :
    Completes .lostReply s fun t =>
      (t.iss q.w).retry = some ⟨q.h, q.id, true⟩ ∧ (t.iss q.w).rcount = ((lostTaken s q).iss q.w).rcount + 1 := by
  have hcount := (discardAll_keeps (lostTaken s q) q.w).2.2
  refine ⟨_, exec_lostReply_atom hq hlog hk hlean hlimit, ?_⟩
  dsimp only
  rw [iss_updIss _ _ _ (state_iss_slot _ q.w)]
  exact ⟨rfl, congrArg (· + 1) hcount⟩
end
end Sys2Proof.Machine

/-! ### A returned switch is copied back (R92) -/
namespace Sys2Proof.Machine

section Maps
variable {α : Type} [DecidableEq α] {d : α}

/-- A map whose keys are all at or above a key, moved down by it. -/
def Sparse.down (base : Nat) (l : Sparse α) : Sparse α := l.map fun e => (e.1 - base, e.2)
theorem Sparse.wfFrom_down {base lo : Nat} {l : Sparse α} (hl : Sparse.wfFrom d (base + lo) l = true) :
    Sparse.wfFrom d lo (Sparse.down base l) = true := by
  induction l generalizing lo with
  | nil => rfl
  | cons e l ih =>
    obtain ⟨j, x⟩ := e
    simp only [Sparse.wfFrom, Bool.and_eq_true, decide_eq_true_eq] at hl
    obtain ⟨⟨hlo, hx⟩, hrest⟩ := hl
    simp only [Sparse.down, List.map_cons, Sparse.wfFrom, Bool.and_eq_true, decide_eq_true_eq]
    refine ⟨⟨by omega, hx⟩, ih ?_⟩
    rwa [show base + (j - base + 1) = j + 1 by omega]
theorem Sparse.get_down {base lo : Nat} {l : Sparse α} (hl : Sparse.wfFrom d (base + lo) l = true) (k : Nat) :
    Sparse.get d (Sparse.down base l) k = Sparse.get d l (base + k) := by
  induction l generalizing lo with
  | nil => rfl
  | cons e l ih =>
    obtain ⟨j, x⟩ := e
    simp only [Sparse.wfFrom, Bool.and_eq_true, decide_eq_true_eq] at hl
    obtain ⟨⟨hlo, hx⟩, hrest⟩ := hl
    have hkey : k = j - base ↔ base + k = j := by omega
    have hbelow : k < j - base ↔ base + k < j := by omega
    have htail := ih (lo := j - base + 1) (by rwa [show base + (j - base + 1) = j + 1 by omega])
    rw [Sparse.get, ← htail]
    simp only [Sparse.down, List.map_cons, Sparse.get, hkey, hbelow]
/-- A map in canonical form is so from its lowest key up. -/
theorem Sparse.wfFrom_of_le {base lo : Nat} {l : Sparse α} (hl : Sparse.wfFrom d lo l = true) (hb : ∀ e ∈ l, base ≤ e.1) :
    Sparse.wfFrom d base l = true := by
  cases l with
  | nil => rfl
  | cons e l =>
    obtain ⟨j, x⟩ := e
    simp only [Sparse.wfFrom, Bool.and_eq_true, decide_eq_true_eq] at hl ⊢
    exact ⟨⟨hb _ List.mem_cons_self, hl.1.2⟩, hl.2⟩
end Maps

/-- What is listed of a range of memory. -/
def listedIn (s : State) (k n : Nat) : Sparse Byte := s.mem.filter fun e => decide (k ≤ e.1) && decide (e.1 < k + n)
theorem mem_copyRange (s : State) (src dst n : Nat) : (copyRange s src dst n).mem =
    (Sparse.down src (listedIn s src n)).foldl (fun m e => Sparse.set unlistedByte m (dst + e.1) e.2) (clearRange s dst n).mem := by
  rw [Sparse.down, List.foldl_map]
  exact (List.foldl_hom (g₂ := fun m (e : Nat × Byte) => Sparse.set unlistedByte m (dst + (e.1 - src)) e.2) State.mem fun _ _ => rfl).symm
/-- A copied byte reads as the one that it was copied from did. -/
theorem byte_copyRange {s : State} (hs : Memory.wf s.mem = true) {n o : Nat} (ho : o < n) (src dst : Nat) :
    (copyRange s src dst n).byte (dst + o) = s.byte (src + o) := by
  have hlisted : Sparse.wfFrom unlistedByte (src + 0) (listedIn s src n) = true :=
    Sparse.wfFrom_of_le (Sparse.wfFrom_filter _ hs) fun e he => by
      have := (List.mem_filter.1 he).2
      simp at this
      omega
  have hclear : (clearRange s dst n).byte (dst + o) = 0 := by
    rw [byte_clearRange hs, if_pos (by omega)]
  have hget := Sparse.get_filter (d := unlistedByte) (fun j => decide (src ≤ j) && decide (j < src + n)) (src + o) hs
  have hlaid := Sparse.get_foldl_set (Sparse.wfFrom_down hlisted) ((fwTouch_clearRange s dst n).wf hs) hclear
  rw [State.byte, mem_copyRange]
  exact (hlaid.trans (Sparse.get_down hlisted o)).trans (hget.trans (if_pos (by simp [ho])))

/-! LOST and DEG (R90, R92). -/

theorem toNat_setBits_clear (d : DWord) (k : Nat) : (setBits d k 1 0).toNat = d.toNat - d.toNat / 2 ^ k % 2 * 2 ^ k := by
  have hd := d.isLt
  rw [setBits, BitVec.toNat_ofNat, bits, Nat.pow_one, Nat.zero_mod, Nat.zero_mul, Nat.add_zero]
  exact Nat.mod_eq_of_lt (by omega)
/-- Clearing one of the bits LOST0, LOST1 and DEG clears it alone. -/
theorem bit_setBits_clear (d : DWord) {j k : Nat} (hj : j < 3) (hk : k < 3) :
    bit (setBits d k 1 0) j = (bit d j && j != k) := by
  rw [bit, toNat_setBits_clear, bit]
  generalize d.toNat = x
  rw [Bool.eq_iff_iff]
  interval_cases j <;> interval_cases k <;> simp <;> omega

/-- Both copies of mirrored allocations are in service when neither LOST bit is set. -/
theorem bits_lost_eq_zero {d : DWord} (h0 : bit d 0 = false) (h1 : bit d 1 = false) : bits d 0 2 = 0 := by
  simp [bit] at h0 h1
  simp [bits]
  omega
/-- ORCHST once a switch is copied back (R90, R92). -/
def backInService (d : DWord) (sw : Nat) : DWord :=
  let st := setBits d sw 1 0
  if bits st 0 2 = 0 then setBits st 2 1 0 else st
theorem backInService_spec (d : DWord) {sw : Nat} (hsw : sw < 2) :
    bit (backInService d sw) sw = false ∧ bit (backInService d sw) (1 - sw) = bit d (1 - sw) ∧
      (bit (backInService d sw) (1 - sw) = false → bit (backInService d sw) 2 = false) := by
  have hthis : bit (setBits d sw 1 0) sw = false := by
    rw [bit_setBits_clear d (by omega) (by omega), bne_self_eq_false, Bool.and_false]
  have hother : bit (setBits d sw 1 0) (1 - sw) = bit d (1 - sw) := by
    rw [bit_setBits_clear d (by omega) (by omega), bne_iff_ne.2 (by omega : 1 - sw ≠ sw), Bool.and_true]
  have hdeg (e : DWord) {j : Nat} (hj : j < 2) : bit (setBits e 2 1 0) j = bit e j := by
    rw [bit_setBits_clear e (by omega) (by omega), bne_iff_ne.2 (by omega : j ≠ 2), Bool.and_true]
  unfold backInService
  dsimp only
  split
  · rw [hdeg _ hsw, hdeg _ (by omega), hthis, hother, bit_setBits_clear _ (by omega) (by omega)]
    exact ⟨rfl, rfl, fun _ => Bool.and_false _⟩
  · rename_i hlost
    refine ⟨hthis, hother, fun h => absurd (bits_lost_eq_zero ?_ ?_) hlost⟩
    all_goals
      obtain rfl | rfl : sw = 0 ∨ sw = 1 := by omega
      all_goals assumption

/-- An allocation is copied to the returned switch, with the poison of its granules (R92). -/
def copiedBack (s : State) (sw : Nat) (a : Alloc) : State :=
  let dst := if a.pa / 2 ^ 42 % 2 = sw then a.pa else mirrorOf a.pa
  let src := mirrorOf dst
  let t := copyRange s (keyOrch src) (keyOrch dst) a.size
  let inside := fun lo g : Nat => decide (lo / 4096 ≤ g) && decide (g < (lo + a.size) / 4096)
  { t with net := { t.net with opsn := (t.net.opsn.filter fun g => !(inside dst g)) ++
    (t.net.opsn.filter (inside src)).map fun g => dst / 4096 + (g - src / 4096) } }
theorem chip_copyRange (s : State) (src dst n : Nat) : (copyRange s src dst n).chip = s.chip :=
  List.foldlRecOn (motive := fun t : State => t.chip = s.chip) _ _ rfl fun _ h _ _ => h
theorem chip_copiedBack (l : List Alloc) (s : State) (sw : Nat) :
    (l.foldl (fun s a => copiedBack s sw a) s).chip = s.chip := by
  refine List.foldlRecOn (motive := fun t : State => t.chip = s.chip) _ _ rfl fun t h a _ => ?_
  exact (chip_copyRange t _ _ _).trans h
/-- Every mirrored allocation that is not lost has been copied (R92). -/
def allCopied (s : State) (sw : Nat) : State :=
  (s.fw.allocs.filter fun a => a.mir && !a.lost).foldl (fun s a => copiedBack s sw a) s
theorem exec_mirrorCopyBackComplete (s : State) : let sw := s.cur.n % 2
    let t := allCopied s sw
    exec .mirrorCopyBackComplete s = .next { t.updChip fun h => { h with orchst := backInService t.chip.orchst sw } with
      net := { t.net with failed := t.net.failed.filter (· != sw), copyback := t.net.copyback.filter (· != sw) } } := rfl
theorem mirrorCopyBackComplete_spec (s : State) : let sw := s.cur.n % 2
    Completes .mirrorCopyBackComplete s fun t =>
      bit t.chip.orchst sw = false ∧ bit t.chip.orchst (1 - sw) = bit s.chip.orchst (1 - sw) ∧
      (bit t.chip.orchst (1 - sw) = false → bit t.chip.orchst 2 = false) ∧
      (∀ k ∈ t.net.failed, k ≠ sw) ∧
      (s.memWf → ∀ a, (s.fw.allocs.filter fun a => a.mir && !a.lost) = [a] →
        let dst := if a.pa / 2 ^ 42 % 2 = sw then a.pa else mirrorOf a.pa
        ∀ o, o < a.size → t.byte (keyOrch dst + o) = s.byte (keyOrch (mirrorOf dst) + o)) := by
  intro sw
  have hchip : (allCopied s sw).chip = s.chip := chip_copiedBack _ s sw
  obtain ⟨hthis, hother, hdeg⟩ := backInService_spec s.chip.orchst (Nat.mod_lt s.cur.n (by omega) : sw < 2)
  refine ⟨_, exec_mirrorCopyBackComplete s, ?_⟩
  rw [hchip]
  refine ⟨hthis, hother, hdeg, fun k hk => bne_iff_ne.1 (List.mem_filter.1 hk).2, ?_⟩
  intro ⟨hwf, _⟩ a ha dst o ho
  have hcopied : (allCopied s sw).byte (keyOrch dst + o) = (copyRange s (keyOrch (mirrorOf dst)) (keyOrch dst) a.size).byte
      (keyOrch dst + o) := by
    rw [allCopied, ha]
    rfl
  exact hcopied.trans (byte_copyRange hwf ho _ _)

end Sys2Proof.Machine

/-! ### Token operations: their effects and their traps (R355, R357, R358, R366) -/
namespace Sys2Proof.Machine

theorem slot_setSlot (s : State) (n : Nat) (x : Slot) : (s.setSlot n x).slot n = x :=
  congrArg (·.getD {}) (assoc_assocSet_same s.chip.slots n x)

section
variable {s : State} {q : Req}
theorem exec_sloeOperationComplete_effect {s1 : State} (hq : s.req s.cur.n = some q)
    (hl : sloeLanes s q.w q.h q.issued q.lanes = (none, s1)) : exec .sloeOperationComplete s = .next (s1.delReq q.id) := by
  change execSloeOperationComplete s = _
  unfold execSloeOperationComplete
  rw [hq]
  dsimp only
  rw [hl]
/-- An access of a token operation with the cause of its trap (R366, R405). -/
def Req.withTrap (h : Held) (k : Nat) (l : LaneAcc) (q : Req) : Req :=
  { q with stat := k, aux := l.lane, rnum := h.rnum, data := toBytes 8 (nth l.ops 1 0).toNat }
theorem exec_sloeOperationComplete_trap {s1 : State} {k : Nat} {l : LaneAcc} (hq : s.req s.cur.n = some q)
    (hl : sloeLanes s q.w q.h q.issued q.lanes = (some (k, l), s1)) : exec .sloeOperationComplete s =
      .next ((s1.updReq q.id fun p => p.withTrap p.h k l).sched s1.tick (obj q.id) .sequenceTrapDelivery) := by
  change execSloeOperationComplete s = _
  unfold execSloeOperationComplete
  rw [hq]
  dsimp only
  rw [hl]
  rfl

/-! One lane, whose slot serves the operation (R357). -/
section
variable {l : LaneAcc} {n : Nat}
theorem sloeLanes_one (hlanes : q.lanes = [l]) : sloeLanes s q.w q.h q.issued q.lanes =
    match sloeLane s q.w q.h l q.issued with
    | (some k, s) => (some (k, l), s)
    | (none, s) => (none, s) := by
  rw [hlanes, sloeLanes]
  rfl
theorem Seq.write_sets {x : Seq} {k : Nat} {v : DWord} (hk : k ≤ 271) (hk15 : k ≠ 15) (hlim : slotLimit k v = false)
    (hfrz : x.x.frz = false) : x.write k v = (none, { x with x := slotWrite x.x k v }) := by
  have hopen : ¬(x.x.frz = true ∧ (!(k == 0 && !bit v 1 && bits v 8 5 == x.x.f 0 8 5)) = true) := fun h => by
    rw [hfrz] at h
    exact Bool.false_ne_true h.1
  have hsets : ¬(271 < k ∨ slotLimit k v = true) := fun h => by
    rw [hlim] at h
    exact h.elim (Nat.not_lt.2 hk) Bool.false_ne_true
  unfold Seq.write
  rw [if_neg hopen, if_neg hsets, if_pos hk15]
theorem sloeLane_write {w : Iss} {h : Held} {p : Nat} {m : Mods} {a : BitVec 9} {b : BSrc} {k : BitVec 9}
    (hn : slotNo (nth l.ops 1 0) = some n) (hc : slotCause s (s.coreOf w).tenant (some n) = none) (hi : h.i = .sloew m a b k)
    (hk : k.toNat ≤ 271) (hk15 : k ≠ 15) (hlim : slotLimit k.toNat (nth l.ops 0 0) = false) (hfrz : (s.slot n).frz = false) :
    sloeLane s w h l p = (none, s.setSlot n (slotWrite (s.slot n) k.toNat (nth l.ops 0 0))) := by
  have hk15' : k.toNat ≠ 15 := fun e => hk15 (BitVec.eq_of_toNat_eq e)
  have hwrite := Seq.write_sets (x := ⟨s, w.cl, n, s.slot n, (s.coreOf w).ptbase, false⟩) hk hk15' hlim hfrz
  unfold sloeLane
  simp only [hn, hc, hi, hwrite]
  rfl
theorem sloeLane_frozen {w : Iss} {h : Held} {p : Nat} (hn : slotNo (nth l.ops 1 0) = some n)
    (hc : slotCause s (s.coreOf w).tenant (some n) = none)
    (hi : ∃ m a b, h.i = .tokapp m a b ∨ h.i = .tokappD m a b ∨ h.i = .tokconf m a b) (hfrz : (s.slot n).frz = true) :
    sloeLane s w h l p = (some 9, s.setSlot n (s.slot n)) := by
  unfold sloeLane
  obtain ⟨m, a, b, hi⟩ := hi
  rcases hi with hi | hi | hi
  all_goals
    simp only [hn, hc, hi, hfrz, if_true]
    rfl
/-- A write of a slot's dword takes effect at completion, and no byte of memory changes (R355, R358). -/
theorem sloeOperationComplete_write {m : Mods} {a : BitVec 9} {b : BSrc} {k : BitVec 9} (hq : s.req s.cur.n = some q)
    (hlanes : q.lanes = [l]) (hn : slotNo (nth l.ops 1 0) = some n) (hc : slotCause s (s.coreOf q.w).tenant (some n) = none)
    (hi : q.h.i = .sloew m a b k) (hk : k.toNat ≤ 271) (hk15 : k ≠ 15) (hlim : slotLimit k.toNat (nth l.ops 0 0) = false)
    (hfrz : (s.slot n).frz = false) : Completes .sloeOperationComplete s fun t =>
      t.slot n = slotWrite (s.slot n) k.toNat (nth l.ops 0 0) ∧ ∀ k, t.byte k = s.byte k := by
  have hl := sloeLanes_one (s := s) hlanes
  rw [sloeLane_write hn hc hi hk hk15 hlim hfrz] at hl
  exact ⟨_, exec_sloeOperationComplete_effect hq hl, slot_setSlot _ _ _, fun _ => rfl⟩
/-- An operation on a frozen slot traps with cause 9, and the slot stays (R357, R366). -/
theorem sloeOperationComplete_frozen (hq : s.req s.cur.n = some q) (hlanes : q.lanes = [l])
    (hn : slotNo (nth l.ops 1 0) = some n) (hc : slotCause s (s.coreOf q.w).tenant (some n) = none)
    (hi : ∃ m a b, q.h.i = .tokapp m a b ∨ q.h.i = .tokappD m a b ∨ q.h.i = .tokconf m a b) (hfrz : (s.slot n).frz = true) :
    Completes .sloeOperationComplete s fun t => t.slot n = s.slot n ∧
      (s.tick, obj q.id, Instr.sequenceTrapDelivery) ∈ t.agenda ∧ ∃ r, t.req q.id = some r ∧ r.stat = 9 := by
  have hl := sloeLanes_one (s := s) hlanes
  rw [sloeLane_frozen hn hc hi hfrz] at hl
  have hreq : (s.setSlot n (s.slot n)).req q.id = some q := by rwa [req_id hq]
  exact ⟨_, exec_sloeOperationComplete_trap hq hl, slot_setSlot _ _ _, List.mem_append_right _ (List.mem_singleton.2 rfl),
    _, req_updReq hreq fun _ => rfl, rfl⟩
end

/-! SEQUENCE_TRAP_DELIVERY (R365, R366). -/

theorem presq_dropPend (me : Issuer) (gone : List Region) : (dropPend me gone).presq = me.presq := rfl
theorem presq_discardAll (s : State) (w : Iss) (adv : Bool) : ((discardAll s w adv).iss w).presq = (s.iss w).presq := by
  unfold discardAll discardFrom
  dsimp only
  split
  · rfl
  · split
    · rw [iss_updCore_rot, iss_updIss _ _ _ (state_iss_slot _ w)]
      · rw [presq_dropPend, count_iss]
        rfl
      · exact fun _ => ⟨rfl, rfl⟩
      · exact fun _ => rfl
    · rw [iss_updIss _ _ _ (state_iss_slot _ w), presq_dropPend, count_iss]
      rfl
/-- A delivery to an issuer whose regions are gone leaves the accesses in flight and what it holds (R409). -/
theorem deliver_keeps {s : State} {w : Iss} (h : (s.iss w).regions = []) (r : Rec) (at_ : Nat) (sel ret : List Nat) :
    let t := deliver s w r at_ sel ret
    t.chip = s.chip ∧ (t.iss w).regions = [] ∧ (t.iss w).presq = (s.iss w).presq := by
  have hiss : (s.updIss w fun me => { me with wait := .fault }).iss w = { s.iss w with wait := .fault } :=
    iss_updIss _ _ _ (state_iss_slot s w)
  have hregions : ((s.updIss w fun me => { me with wait := .fault }).iss w).regions = [] := by rw [hiss]; exact h
  have hpresq : ((s.updIss w fun me => { me with wait := .fault }).iss w).presq = (s.iss w).presq := by rw [hiss]
  unfold deliver
  dsimp only
  split
  · split
    · rw [iss_sched, iss_updIss _ _ _ (state_iss_slot _ w)]
      exact ⟨rfl, hregions, hpresq⟩
    · rw [discardAll_of_none hregions]
      exact ⟨rfl, hregions, hpresq⟩
  · exact ⟨rfl, hregions, hpresq⟩

/-- The later operations of a trapping operation's region are dropped, in flight and held (R366). -/
def droppedLater (s : State) (q : Req) : State :=
  (s.updChip fun c => { c with
    reqs := c.reqs.filter fun p => !(p.kind == .ring && p.w == q.w && (p.id == q.id || p.h.rnum == q.h.rnum)) }).updIss q.w
      fun me => { me with presq := me.presq.filter fun h => !(isTokOp h.i && h.rnum == q.h.rnum) }
theorem exec_sequenceTrapDelivery (hq : s.req s.cur.n = some q) : ∃ r at_ sel ret, exec .sequenceTrapDelivery s =
    .next (deliver (discardAll (droppedLater s q) q.w false) q.w r at_ sel ret) := by
  change ∃ r at_ sel ret, execSequenceTrapDelivery s = _
  unfold execSequenceTrapDelivery
  rw [hq]
  exact ⟨_, _, _, _, rfl⟩
theorem sequenceTrapDelivery_spec (hq : s.req s.cur.n = some q) : Completes .sequenceTrapDelivery s fun t =>
    (t.iss q.w).wait = .fault ∧ (t.iss q.w).regions = [] ∧
    (∀ p ∈ t.chip.reqs, p.kind = .ring → p.w = q.w → p.h.rnum ≠ q.h.rnum) ∧
    ∀ h ∈ (t.iss q.w).presq, isTokOp h.i = true → h.rnum ≠ q.h.rnum := by
  obtain ⟨r, at_, sel, ret, hexec⟩ := exec_sequenceTrapDelivery hq
  have hgone := regions_discardAll (droppedLater s q) q.w false
  obtain ⟨hchip, hregions, hpresq⟩ := deliver_keeps hgone r at_ sel ret
  have hreqs := (discardAll_keeps (droppedLater s q) q.w).2.1
  refine ⟨_, hexec, deliver_stops hgone r at_ sel ret, hregions, fun p hp hk hw hnum => ?_, fun h hh htok hnum => ?_⟩
  · rw [hchip] at hp
    have hleft := (List.mem_filter.1 (hreqs p hp)).2
    simp [hk, hw, hnum] at hleft
  · rw [hpresq, presq_discardAll, droppedLater, iss_updIss _ _ _ (state_iss_slot _ q.w)] at hh
    have hleft := (List.mem_filter.1 hh).2
    simp [htok, hnum] at hleft
end
end Sys2Proof.Machine

/-! ### Orchard memory and token operations (R82 to R92, R355 to R366) -/
namespace Sys2Proof.Machine

/-- Settles O44: each act's completion by the lemmas above, of firmware's allocation and release, the loss of a switch at the
switch and at the ports, the answers to lost accesses, the copy back, and token operations with their traps. -/
theorem orchardAndSequences : Obligations.OrchardAndSequences := by
  unfold Obligations.OrchardAndSequences
  intro s w
  refine ⟨?alloc, ?free, ⟨switchFailure_chip, switchFailure_ports⟩, ?lost, mirrorCopyBackComplete_spec s, ?token⟩
  case alloc =>
    intro m d a mir lanes vals it pc hw s0
    have hexec := exec_oallocComplete hw
    refine ⟨fun x r hqueue => orchServed_next hqueue, fun hdom => ?_, fun dom hdom => ?_⟩
    · have hgiven : orchGiven s0 w (nth vals 0 0).toNat mir = (0, s0) := by rw [orchGiven, hdom]
      rwa [hgiven] at hexec
    · have hgiven : orchGiven s0 w (nth vals 0 0).toNat mir = orchAlloc s0 dom (nth vals 0 0).toNat mir := by rw [orchGiven, hdom]
      rw [hgiven] at hexec
      refine ⟨fun v s1 h => ?_, fun dm size level s2 pa va hdm hsize hcharge hplace hfit => ⟨_, hexec, ?_⟩⟩
      · rwa [h] at hexec
      · dsimp only
        rw [completeBlock_fw, orchAlloc_allocs hdm hsize hcharge hplace hfit, (orchServed_keeps s w).allocs]
  case free =>
    intro m d a lanes vals it pc hw named
    refine ⟨exec_ofreeComplete_unnamed hw, fun x hx hlen => ?_, fun x hx hlen => ?_, fun x hx hlen => ?_⟩
    all_goals
      have hexec := exec_ofreeComplete_named hw hx
    · rw [hlen] at hexec
      obtain ⟨hkeeps, hinv, hclean⟩ := orchUnmap_spec (freeing s m d a lanes vals it pc) [(s.cur, .ofreeComplete)] x
      have hwait := iss_freeing (s := s) (m := m) (d := d) (a := a) (lanes := lanes) (vals := vals) (it := it) (pc := pc)
      rw [← hkeeps.iss] at hwait
      exact ⟨orchUnmap (freeing s m d a lanes vals it pc) [(s.cur, .ofreeComplete)] x, hexec, hwait, hinv, hkeeps.allocs, hclean⟩
    · rw [hlen] at hexec
      exact ⟨_, hexec, iss_freeing, List.mem_append_right _ (List.mem_singleton.2 rfl), rfl⟩
    · obtain ⟨n, hn⟩ : ∃ n, vals.length = n + 3 := ⟨vals.length - 3, by omega⟩
      rw [hn] at hexec
      exact ⟨_, hexec, (congrArg Fw.allocs (completeBlock_fw _ _ _ _ _ _)).trans (freed_allocs _ _ _)⟩
  case lost =>
    intro q hq q1 s2 hlog
    exact ⟨exec_lostReply_load hq hlog, lostReply_again hq hlog⟩
  case token =>
    intro q hq
    refine ⟨fun s1 => exec_sloeOperationComplete_effect hq, fun k l s1 hl => ?_, fun l n hlanes hn hc => ⟨?_, ?_⟩,
      sequenceTrapDelivery_spec hq⟩
    · exact ⟨_, exec_sloeOperationComplete_trap hq hl, List.mem_append_right _ (List.mem_singleton.2 rfl), fun _ => rfl⟩
    · exact fun m a b k hi hk hk15 hlim => sloeOperationComplete_write hq hlanes hn hc hi hk hk15 hlim
    · exact fun hfrz hi => sloeOperationComplete_frozen hq hlanes hn hc hi hfrz

end Sys2Proof.Machine


/-! ### Stores, reductions and atomics at issue (R142, R177, R287, R288, R293, R295) -/
namespace Sys2Proof.Machine

/-! An effect is held in the same way whosever turn it is. -/

theorem foldCrc_withCur (s : State) (v w : Iss) (ds : List DWord) :
    foldCrc { s with cur := v } w ds = { foldCrc s w ds with cur := v } := by
  by_cases h : (s.coreOf w).pair = true
  · rw [foldCrc, foldCrc, if_pos h, if_pos (by exact h)]; rfl
  · rw [foldCrc, foldCrc, if_neg h, if_neg (by exact h)]
theorem kickPres_withCur (s : State) (v w : Iss) (t : Nat) :
    kickPres { s with cur := v } w t = { kickPres s w t with cur := v } := by
  by_cases h : (s.iss w).presBusy = true
  · rw [kickPres, kickPres, if_pos h, if_pos (by exact h)]
  · rw [kickPres, kickPres, if_neg h, if_neg (by exact h)]; rfl
theorem emit_withCur (s : State) (v w : Iss) (h : Held) :
    emit { s with cur := v } w h = { emit s w h with cur := v } := by
  unfold emit
  rw [foldCrc_withCur]
  generalize foldCrc s w _ = u
  dsimp only
  by_cases hc : ((u.coreOf w).lean || (u.iss w).openRegion.isNone) = true
  · rw [if_pos hc, if_pos (by exact hc)]
    exact kickPres_withCur (u.updIss w fun me => { me with presq := me.presq ++ [h] }) v w u.tick
  · rw [if_neg hc, if_neg (by exact hc)]; rfl

/-- Holding an effect after the shared units have been at work (R120, R177). -/
theorem emit_after {s u : State} (hu : InEngines s u) (h : Held) :
    KeepsRegs s (emit u s.cur h) s.cur ∧ HeldAdded s (emit u s.cur h) h := by
  obtain ⟨⟨hsame, hmem, hpend, hpcs⟩, hadd⟩ := emit_spec { u with cur := s.cur } h
  rw [emit_withCur] at hsame hmem hpend hpcs hadd
  have hkeep : KeepsRegs u (emit u s.cur h) s.cur :=
    ⟨⟨hsame.bytes, hsame.stamps, hsame.chip, hsame.clusters, hsame.cores, hsame.others, hsame.own⟩, hmem, hpend, hpcs⟩
  refine ⟨(hu.keepsRegs s.cur).trans hkeep, ?_⟩
  have hiss := hu.iss s.cur
  have hlean := hu.lean s.cur
  have htick := hu.tick
  unfold HeldAdded at hadd ⊢
  rw [← hiss, ← hlean, ← htick]
  exact hadd
/-- What leaves the issuer's effects as they are, and of a region what it holds. -/
theorem HeldAdded.updIss {s u : State} {h : Held} (ha : HeldAdded s u h) {f : Issuer → Issuer}
    (hslot : (f (u.iss s.cur)).slot = s.cur.n) (hq : (f (u.iss s.cur)).presq = (u.iss s.cur).presq)
    (hb : (f (u.iss s.cur)).presBusy = (u.iss s.cur).presBusy)
    (hr : (f (u.iss s.cur)).regions.map (·.held) = (u.iss s.cur).regions.map (·.held)) :
    HeldAdded s (u.updIss s.cur f) h := by
  have hagenda : (u.updIss s.cur f).agenda = u.agenda := rfl
  simpa only [HeldAdded, iss_updIss u s.cur f hslot, hq, hb, hr, hagenda] using ha

theorem mapOpen_openRegion (me : Issuer) {f : Region → Region} (h : ∀ r, (f r).closed = r.closed) :
    (me.mapOpen f).openRegion = me.openRegion.map f := by
  simp only [Issuer.openRegion, Issuer.mapOpen, ← List.map_reverse]
  cases me.regions.reverse with
  | nil => rfl
  | cons r l => cases hc : r.closed <;> simp [hc, h]

theorem emit_openRegion_isNone (s : State) (w : Iss) (h : Held) :
    ((emit s w h).iss w).openRegion.isNone = (s.iss w).openRegion.isNone := by
  unfold emit
  generalize (h.lanes.map fun l => l.va :: l.ops).flatten ++ h.vals = ds
  obtain ⟨hopen, -⟩ := foldCrc_regions s w ds
  generalize foldCrc s w ds = u at *
  have hslot := state_iss_slot u w
  dsimp only
  split
  · obtain ⟨-, hi, -⟩ := kickPres_spec (u.updIss w fun me => { me with presq := me.presq ++ [h] }) w u.tick
    rw [hi, iss_updIss u w _ (by exact hslot)]
    exact hopen
  · rw [iss_updIss u w _ (by exact hslot)]
    exact (mapOpen_openRegion_isNone (u.iss w) (fun r => { r with held := r.held ++ [h] }) fun _ => rfl).trans hopen

/-- What an issuer notes of an access that it holds (R118, R142). -/
def Issuer.noteAccess (a : Acc) (me : Issuer) : Issuer := { me with fenced := me.fenced && a != .store, flushed := false }
/-- A region from which a returning atomic has been issued: it takes no instruction but RGN any more (R178). -/
def Region.atomicIssued (r : Region) : Region := { r with atomic := true }
/-- What a returning atomic makes of its issuer's region. -/
def Issuer.atomicIssued (me : Issuer) : Issuer := me.mapOpen Region.atomicIssued
/-- The shared units' part in the issue of a held access: a plain store of a checked page asks for its stamp (R145). -/
def stampsAsked (x : Ctx) (u : State) (i : Instr) (lanes : List LaneAcc) (plain : Bool) (sp : Nat) : State :=
  if plain && sp == 0 then stampReq u x i lanes else u
/-- The issuer's part in it: the effect is held. -/
def accessHeld (x : Ctx) (u : State) (i : Instr) (a : Acc) (lanes : List LaneAcc) (plain atomic : Bool) : State :=
  let v := (emit u x.w (x.hold i lanes [boolD plain] [])).updIss x.w fun me => me.noteAccess a
  if atomic then v.updIss x.w Issuer.atomicIssued else v

theorem inEngines_stampReq (s : State) (x : Ctx) (i : Instr) (lanes : List LaneAcc) : InEngines s (stampReq s x i lanes) := by
  unfold stampReq
  dsimp only
  split
  · exact .refl s
  · have hfresh : InUnits s s.fresh.2 := .of_chip rfl rfl rfl rfl rfl rfl
    exact (hfresh.trans (startReqAt_spec _ _ _).1).inEngines
theorem inEngines_stampsAsked {s u : State} (hu : InEngines s u) (x : Ctx) (i : Instr) (lanes : List LaneAcc) (plain : Bool)
    (sp : Nat) : InEngines s (stampsAsked x u i lanes plain sp) := by
  unfold stampsAsked
  split
  · exact hu.trans (inEngines_stampReq u x i lanes)
  · exact hu

/-- The effect stands where the issuer's mode and region say, and nothing else changes. -/
structure HoldsOnly (s v : State) (h : Held) : Prop where
  keeps : KeepsRegs s v s.cur
  added : HeldAdded s v h
  openRegion : (v.iss s.cur).openRegion.isNone = (s.iss s.cur).openRegion.isNone
theorem holdsOnly_noted {s u : State} (hu : InEngines s u) (h : Held) (a : Acc) :
    HoldsOnly s ((emit u s.cur h).updIss s.cur fun me => me.noteAccess a) h := by
  obtain ⟨hkeep, hadd⟩ := emit_after hu h
  have hopen := emit_openRegion_isNone u s.cur h
  rw [hu.iss] at hopen
  generalize emit u s.cur h = e at *
  have hslot := state_iss_slot e s.cur
  refine ⟨hkeep.trans (keepsRegs_updIss e s.cur _ (by exact hslot) rfl rfl rfl), hadd.updIss (by exact hslot) rfl rfl rfl, ?_⟩
  rw [iss_updIss e s.cur _ (by exact hslot)]
  exact hopen
theorem holdsOnly_atomicIssued {s v : State} {h : Held} (hv : HoldsOnly s v h) :
    let t := v.updIss s.cur Issuer.atomicIssued
    HoldsOnly s t h ∧ ((s.iss s.cur).openRegion ≠ none → (t.iss s.cur).openRegion.map (·.atomic) = some true) := by
  intro t
  have hslot : (v.iss s.cur).atomicIssued.slot = s.cur.n := state_iss_slot v s.cur
  have ht : t.iss s.cur = (v.iss s.cur).mapOpen Region.atomicIssued := iss_updIss v s.cur _ hslot
  refine ⟨⟨hv.keeps.trans (keepsRegs_updIss v s.cur _ hslot rfl rfl rfl),
    hv.added.updIss hslot rfl rfl (mapOpen_held _ _ fun _ => rfl), ?_⟩, fun hne => ?_⟩
  · rw [ht, mapOpen_openRegion_isNone _ _ (by exact fun _ => rfl), hv.openRegion]
  · have hsome : (v.iss s.cur).openRegion ≠ none := fun h => hne (by
      rw [← Option.isNone_iff_eq_none, ← hv.openRegion, h, Option.isNone_none])
    obtain ⟨r, hr⟩ := Option.ne_none_iff_exists'.1 hsome
    rw [ht, mapOpen_openRegion _ (by exact fun _ => rfl), hr]
    rfl
/-- A held access changes nothing but its issuer's held effects; a returning atomic ends its region (R177, R178). -/
theorem accessHeld_spec {s u : State} {m : Mods} (hu : InEngines s u) (i : Instr) (a : Acc) (lanes : List LaneAcc)
    (plain atomic : Bool) :
    let x := s.ctx m
    let t := accessHeld x u i a lanes plain atomic
    HoldsOnly s t (x.hold i lanes [boolD plain] []) ∧
      (atomic = true → x.me.openRegion ≠ none → (t.iss s.cur).openRegion.map (·.atomic) = some true) := by
  have hv := holdsOnly_noted hu ((s.ctx m).hold i lanes [boolD plain] []) a
  cases atomic with
  | false => exact ⟨hv, fun h => nomatch h⟩
  | true => exact ⟨(holdsOnly_atomicIssued hv).1, fun _ => (holdsOnly_atomicIssued hv).2⟩

/-- The place of a scratchpad lane as a held access keeps it: core and offset, or none (R287). -/
def poolPlace (co : Nat) (a : DWord) : Nat :=
  match poolAddr co a with
  | some p => p.1 * 2 ^ 24 + p.2
  | none => 2 ^ 32
/-- The lanes of a held access to the scratchpads. -/
theorem heldLanes_pool {x : Ctx} {sp : Nat} {a : Acc} {as : List (Nat × DWord)} {ops : Nat → List DWord} {lanes : List LaneAcc}
    (hsp : 3 < sp) (h : heldLanes x sp a as ops = some lanes) :
    lanes = (as.map fun l => (l.1, l.2, poolPlace x.w.co l.2, (0 : DWord))).map fun l =>
      ⟨l.1, l.2.1, sp, l.2.2.1, ops l.1 ++ [l.2.2.2]⟩ := by
  rw [heldLanes, if_pos hsp] at h
  rw [List.map_map]
  exact (Option.some.inj h).symm
/-- The lanes of a held access to memory are those of its translation (R283, R287). -/
theorem heldLanes_memory {x : Ctx} {sp : Nat} {a : Acc} {as : List (Nat × DWord)} {ops : Nat → List DWord} {lanes : List LaneAcc}
    (hsp : ¬3 < sp) (h : heldLanes x sp a as ops = some lanes) : ∃ ls, (transLanes x.s x.w.cl x.c.ptw a as).1 = .ok ls ∧
      lanes = ls.map fun l => ⟨l.1, l.2.1, sp, l.2.2.1, ops l.1 ++ [l.2.2.2]⟩ := by
  rw [heldLanes, if_neg hsp] at h
  split at h
  · rename_i ls hls
    exact ⟨ls, hls, (Option.some.inj h).symm⟩
  · cases h

/-- The issue of an access that passes its checks (R142, R177, R179, R287). -/
theorem issueHeld_passes {s : State} {m : Mods} {i : Instr} {n sp : Nat} {a : Acc} {tgts : List Tgt} {plain atomic : Bool}
    {as : List (Nat × DWord)} {ops : Nat → List DWord} {lanes : List LaneAcc} (hact : (s.ctx m).act ≠ [])
    (hchecks : laneChecks n as = .ok sp) (hsp : sp ≤ 5) (hlanes : heldLanes (s.ctx m) sp a as ops = some lanes)
    (hcause : storeCause (s.ctx m) tgts (!atomic) (lanes.map fun l => l.key s.cur.cl / 64)
      ((lanes.map fun l => l.keys s.cur.cl i).flatten.map (· / 64)) = none) :
    let x := s.ctx m
    ∃ u e, InEngines s u ∧ issueHeld x i n a tgts plain atomic as ops =
      if sysRelease x i = true then .next (blockAt { x with s := u } i [])
      else if (!atomic && bufFull x (lanes.map fun l => l.key s.cur.cl / 64)) = true then .next (parkHere x u .retry)
      else .next (finish x (accessHeld x (stampsAsked x u i lanes plain sp) i a lanes plain atomic) { e := e }) := by
  intro x
  have hempty : ¬(s.ctx m).act.isEmpty = true := by simpa using hact
  have h5 : ¬5 < sp := by omega
  obtain ⟨O, hO⟩ : ∃ O, issueHeld x i n a tgts plain atomic as ops = O := ⟨_, rfl⟩
  rw [hO]
  unfold issueHeld at hO
  dsimp only at hO
  rw [hchecks] at hO
  dsimp only at hO
  rw [if_neg hempty, if_neg h5] at hO
  by_cases h3 : 3 < sp
  · rw [if_pos h3] at hO
    dsimp only at hO
    obtain rfl := heldLanes_pool h3 hlanes
    split at hO
    · rename_i hk; exact nomatch hk.symm.trans hcause
    · exact ⟨s, _, .refl s, hO.symm⟩
  · obtain ⟨ls, hls, rfl⟩ := heldLanes_memory h3 hlanes
    rw [if_neg h3] at hO
    have hu : InEngines s (transLanes s s.cur.cl (s.ctx m).c.ptw a as).2 := (inWalks_transLanes _ _ _ _ _).1.inEngines
    rw [show transLanes (s.ctx m).s (s.ctx m).w.cl (s.ctx m).c.ptw a as = (.ok ls, (transLanes s s.cur.cl (s.ctx m).c.ptw a as).2)
      from Prod.ext hls rfl] at hO
    dsimp only at hO
    split at hO
    · rename_i hk; exact nomatch hk.symm.trans hcause
    · exact ⟨_, _, hu, hO.symm⟩

/-- The end of an instruction that has added a held effect, with its bank passes E (R41, R120, R210). -/
theorem HoldsOnly.finish {s v : State} {m : Mods} {h : Held} (hv : HoldsOnly s v h) (e : Nat) :
    let t := finish (s.ctx m) v { e := e }
    HeldAdded s t h ∧ Advances s t m ∧ SameRegs s t ∧ (t.iss s.cur).regions = (v.iss s.cur).regions := by
  obtain ⟨hat, hkept, hpend, hregs, hpcs, hwait⟩ := finish_spec (s.ctx m) v { e := e }
  have hw : (s.ctx m).w = s.cur := rfl
  rw [hw] at hat hkept hpend hregs hpcs hwait
  refine ⟨hv.added.of_kept hat.kept hkept hregs, ⟨?_, hwait⟩,
    ⟨hv.keeps.same.trans (hat.sameBut (Issuer.regs_of_kept hkept)), hpend.trans hv.keeps.pend⟩, hregs⟩
  rw [hpcs]
  simp only [finPcs, hw, hv.keeps.pcs, nextPc_of_mem hv.keeps.mem]
  rfl

/-- An instruction that issues a held access, which passes its checks (R142, R177, R179). -/
theorem completes_of_issueHeld {s : State} {m : Mods} {i : Instr} {n sp : Nat} {a : Acc} {tgts : List Tgt} {plain atomic : Bool}
    {as : List (Nat × DWord)} {ops : Nat → List DWord} {lanes : List LaneAcc}
    (hexec : exec i s = issueHeld (s.ctx m) i n a tgts plain atomic as ops) (hact : (s.ctx m).act ≠ [])
    (hchecks : laneChecks n as = .ok sp) (hsp : sp ≤ 5) (hlanes : heldLanes (s.ctx m) sp a as ops = some lanes)
    (hcause : storeCause (s.ctx m) tgts (!atomic) (lanes.map fun l => l.key s.cur.cl / 64)
      ((lanes.map fun l => l.keys s.cur.cl i).flatten.map (· / 64)) = none) :
    let x := s.ctx m
    if sysRelease x i = true then Completes i s fun t => Blocks s t m i []
    else ((!atomic) = true → bufFull x (lanes.map fun l => l.key s.cur.cl / 64) = false) → Completes i s fun t =>
      HeldAdded s t (x.hold i lanes [boolD plain] []) ∧ Advances s t m ∧ SameRegs s t ∧
        ((!atomic) = false → x.me.openRegion ≠ none → ((t.iss s.cur).openRegion.map (·.atomic)) = some true) := by
  intro x
  obtain ⟨u, e, hu, hissue⟩ := issueHeld_passes hact hchecks hsp hlanes hcause
  rw [hissue] at hexec
  split
  · rename_i hrel
    exact ⟨_, hexec.trans (if_pos hrel), blockAt_spec hu m i []⟩
  · rename_i hrel
    intro hbuf
    have hroom : ¬(!atomic && bufFull x (lanes.map fun l => l.key s.cur.cl / 64)) = true := fun h => by
      obtain ⟨ha, hf⟩ := Bool.and_eq_true_iff.1 h
      exact Bool.false_ne_true ((hbuf ha).symm.trans hf)
    obtain ⟨hheld, hclosed⟩ := accessHeld_spec (m := m) (inEngines_stampsAsked hu x i lanes plain sp) i a lanes plain atomic
    obtain ⟨hadd, hadv, hsame, hregs⟩ := hheld.finish (m := m) e
    refine ⟨_, (hexec.trans (if_neg hrel)).trans (if_neg hroom), hadd, hadv, hsame, fun ha hopen => ?_⟩
    have hlast := hclosed (by simpa using ha) hopen
    rw [Issuer.openRegion] at hlast ⊢
    rw [hregs]
    exact hlast

/-- The active lanes with their addresses (R282). -/
def accLanes (x : Ctx) (o : MemF) (off : Int) : List (Nat × DWord) := x.act.map fun l => (l, laneAddr x o off l)
theorem exec_st (o : MemF) (sz : BitVec 2) (s : State) : exec (.st o sz) s =
    issueHeld (s.ctx o.m) (.st o sz) (2 ^ sz.toNat) .store [] (plainStore (s.ctx o.m) o) false (accLanes (s.ctx o.m) o o.off.toInt)
      fun l => [dataVal (s.ctx o.m) o.data (sz == 3) 0 l] := rfl
theorem exec_red (o : MemF) (b64 : Bool) (fn : AtomFn) (s : State) : exec (.red o b64 fn) s =
    issueHeld (s.ctx o.m) (.red o b64 fn) (if b64 then 8 else 4) .red [] false false (accLanes (s.ctx o.m) o o.off.toInt)
      (atomOps (s.ctx o.m) o b64 fn) := rfl
theorem exec_atom_of_unmarked {o : MemF} (h : o.m.park = false) (b64 : Bool) (fn : AtomFn) (s : State) :
    exec (.atom o b64 fn) s = issueHeld (s.ctx o.m) (.atom o b64 fn) (if b64 then 8 else 4) .atom
      (loadTgts (s.ctx o.m).front o.data.toNat (if b64 then 8 else 4)) false true (accLanes (s.ctx o.m) o o.off.toInt)
      (atomOps (s.ctx o.m) o b64 fn) := by
  change execAtom o b64 fn s = _
  unfold execAtom
  dsimp only
  rw [if_neg (by simp [h])]
  rfl
/-- ST.mc of lanes that name chips of the group (R288). -/
theorem exec_stMc_of_group {o : MemF} {sz : BitVec 2} {s : State} {ops : Nat → List DWord} {lanes : List LaneAcc}
    (hact : (s.ctx o.m).act ≠ [])
    (hchecks : laneChecks (2 ^ sz.toNat) (accLanes (s.ctx o.m) o 0) = .ok 1)
    (hlanes : heldLanes (s.ctx o.m) 1 .store (accLanes (s.ctx o.m) o 0) ops = some lanes)
    (hgroup : ∀ l ∈ lanes, groupOf (l.pa / 2 ^ 42) = groupOf chipNo) :
    exec (.stMc o sz) s = issueHeld (s.ctx o.m) (.stMc o sz) (2 ^ sz.toNat) .store [] (plainStore (s.ctx o.m) o) false
      (accLanes (s.ctx o.m) o 0)
      fun l => [dataVal (s.ctx o.m) o.data (sz == 3) 0 l] := by
  obtain ⟨ls, hls, rfl⟩ := heldLanes_memory (by omega) hlanes
  obtain ⟨O, hO⟩ : ∃ O, exec (.stMc o sz) s = O := ⟨_, rfl⟩
  rw [hO]
  change execStMc o sz s = O at hO
  unfold execStMc at hO
  dsimp only at hO
  change (match laneChecks (2 ^ sz.toNat) (accLanes (s.ctx o.m) o 0) with | .error _ => _ | .ok sp => _) = O at hO
  rw [hchecks] at hO
  dsimp only at hO
  rw [if_neg (by simpa using hact), if_neg (by simp)] at hO
  split at hO
  · exact hO.symm
  · rename_i ls' u htrans
    obtain rfl : ls' = ls := Except.ok.inj ((congrArg (·.1) htrans).symm.trans hls)
    have hnone : ls'.find? (fun l => groupOf (l.2.2.1 / 2 ^ 42) != groupOf chipNo) = none := by
      refine List.find?_eq_none.2 fun l hl => ?_
      simpa using hgroup _ (List.mem_map_of_mem hl)
    rw [hnone] at hO
    exact hO.symm

/-- Settles O13: each instruction's meaning is the issue of a held access, which passes its checks. -/
theorem heldAccesses : Obligations.HeldAccesses := by
  unfold Obligations.HeldAccesses
  intro o s sp lanes x at_ keys held
  refine ⟨fun sz => ⟨?store, fun hsp hgroup => ?multicast⟩, fun b64 fn => ⟨?reduction, fun hpark => ?atomic⟩⟩
  case store =>
    intro hact hchecks hsp hlanes hcause
    exact completes_of_issueHeld (exec_st o sz s) hact hchecks hsp hlanes hcause
  case multicast =>
    intro hact hchecks hle hlanes hcause
    subst hsp
    exact completes_of_issueHeld (exec_stMc_of_group hact hchecks hlanes hgroup) hact hchecks hle hlanes hcause
  case reduction =>
    intro hact hchecks hsp hlanes hcause
    exact completes_of_issueHeld (exec_red o b64 fn s) hact hchecks hsp hlanes hcause
  case atomic =>
    intro hact hchecks hsp hlanes hcause
    exact completes_of_issueHeld (exec_atom_of_unmarked hpark b64 fn s) hact hchecks hsp hlanes hcause

end Sys2Proof.Machine

/-! ### A region's commit, and its re-entry (R120, R167, R182, R187) -/
namespace Sys2Proof.Machine

/-- The region that `openRegion` adds (R175). -/
def regionOpened (s : State) (w : Iss) (num : Nat) (mask : BitVec 32) (opener : Opener) (pcs : List Nat) : Region := {
  num := num % 2 ^ 32, opened := s.tick, lastVis := s.tick, mask := mask, opener := opener, pcs := pcs
  dqpos := (s.iss w).dqpos, lc := (s.coreOf w).lc, phs := (s.iss w).phs, ended := (s.iss w).ended
  fenced := (s.iss w).fenced }
/-- An issuer in a region that has been opened. -/
def Issuer.inRegion (r : Region) (me : Issuer) : Issuer := { me with regions := me.regions ++ [r], rnum := r.num }
theorem openRegion_spec (s : State) (w : Iss) (num : Nat) (mask : BitVec 32) (opener : Opener) (pcs : List Nat) :
    let t := openRegion s w num mask opener pcs
    AtIssuer s t w ∧ t.iss w = (s.iss w).inRegion (regionOpened s w num mask opener pcs) := by
  have hslot : ((s.iss w).inRegion (regionOpened s w num mask opener pcs)).slot = w.n := state_iss_slot s w
  exact ⟨atIssuer_updIss s w _ hslot, iss_updIss s w _ hslot⟩

/-! The commit (R120, R182). -/

/-- Recording a commit's DQPOPs changes, of the issuer, only what it has still to replay (R167, R198, R200). -/
structure PopsLogged (s t : State) (w : Iss) : Prop where
  keeps : Undisturbed s t w
  iss : ∃ l, t.iss w = { s.iss w with suppress := l }
theorem PopsLogged.foldl {w : Iss} {f : State → Nat → State} (h : ∀ s k, PopsLogged s (f s k) w) (l : List Nat) (s : State) :
    PopsLogged s (l.foldl f s) w := by
  induction l generalizing s with
  | nil => exact ⟨.refl s w, _, rfl⟩
  | cons k l ih =>
    obtain ⟨hkeep, e, he⟩ := h s k
    obtain ⟨hkeep', e', he'⟩ := ih (f s k)
    exact ⟨hkeep.trans hkeep', e', by rw [List.foldl_cons, he', he]⟩
theorem popsLogged_logPops (s : State) (w : Iss) (r : Region) : PopsLogged s (logPops s w r) w := by
  unfold logPops
  refine PopsLogged.foldl (fun s k => ?_) _ s
  dsimp only
  split
  · have hslot := state_iss_slot s w
    exact ⟨undisturbed_updIss s w (by exact hslot) rfl rfl rfl rfl, _, iss_updIss s w _ (by exact hslot)⟩
  · have hlog := inEngines_logEffect s w false
    exact ⟨(hlog _ _).undisturbed w, (s.iss w).suppress, (hlog _ _).iss w⟩

/-- An issuer whose oldest region commits at tick t: its held effects wait for presentation, and its re-entries are over. -/
def Issuer.committed (r : Region) (t : Nat) (me : Issuer) : Issuer := { me with
  regions := me.regions.drop 1, rcount := 0, lastCommit := t, presq := me.presq ++ r.held }
/-- What a commit makes of the registers (R189). -/
def Issuer.rcountCleared (me : Issuer) : Issuer := { me with rcount := 0 }
theorem ofRegs_rcountCleared : OfRegs Issuer.rcountCleared := fun a b h => by
  have hr (c : Issuer) : c.rcountCleared.regs = c.regs.rcountCleared := rfl
  rw [hr, hr, h]

/-- The region has left its issuer's list. -/
def regionTaken (s : State) (w : Iss) (r : Region) : State := ((logPops s w r).updIss w (Issuer.committed r s.tick)).count 6 w 1
theorem regionTaken_spec (s : State) (w : Iss) (r : Region) : let t := regionTaken s w r
    SameBut s t w Issuer.rcountCleared ∧ t.tick = s.tick ∧
      ∃ l, t.iss w = { (s.iss w).committed r s.tick with suppress := l } := by
  intro t
  obtain ⟨hlog, l, hl⟩ := popsLogged_logPops s w r
  have hslot : ((logPops s w r).iss w |>.committed r s.tick).slot = w.n := state_iss_slot (logPops s w r) w
  have hiss : t.iss w = ((logPops s w r).iss w).committed r s.tick := (count_iss _ 6 w w 1).trans (iss_updIss _ w _ hslot)
  have hat : AtIssuer (logPops s w r) t w := (atIssuer_updIss _ w _ hslot).trans (atIssuer_count _ 6 w w 1)
  refine ⟨hlog.same.andThen (hat.sameBut_of ?_) ofRegs_rcountCleared, ?_, l, ?_⟩
  · rw [hiss]; rfl
  · exact (show t.kept.tick = (logPops s w r).kept.tick by rw [hat.kept]).trans hlog.tick
  · rw [hiss, hl]; rfl

/-- The presentation of a committed region's effects is set, if it held any (R120). -/
def effectsKicked (s : State) (w : Iss) (r : Region) : State := if r.held.isEmpty then s else kickPres s w s.tick
theorem effectsKicked_spec (s : State) (w : Iss) (r : Region) : let t := effectsKicked s w r
    SameBut s t w id ∧ ∃ b, t.iss w = { s.iss w with presBusy := b } ∧ (r.held ≠ [] → b = true ∧
      ((s.iss w).presBusy = false → (s.tick, w, Instr.heldEffectPresentation) ∈ t.agenda)) := by
  unfold effectsKicked
  split
  · rename_i h
    exact ⟨.refl s w, (s.iss w).presBusy, rfl, fun hne => absurd (List.isEmpty_iff.1 h) hne⟩
  · obtain ⟨hkeep, hiss, hag⟩ := kickPres_spec s w s.tick
    exact ⟨hkeep.same, true, hiss, fun _ => ⟨rfl, hag⟩⟩

/-- The queue's entries that every warp has popped go, and the engines are looked at (R55, R166). -/
def queueFreed (s : State) (w : Iss) : State :=
  let s := s.updCore w.cl w.co freeDq
  if w.n = 16 then kickEngines s w.cl w.co else s
theorem queueFreed_spec (s : State) (w : Iss) : InEngines s (queueFreed s w) ∧ ∀ e ∈ s.agenda, e ∈ (queueFreed s w).agenda := by
  have hfree : InEngines s (s.updCore w.cl w.co freeDq) :=
    inEngines_updCore s w.cl w.co (fun _ => ⟨rfl, rfl⟩) (fun _ => rfl) fun _ => rfl
  unfold queueFreed
  dsimp only
  split
  · exact ⟨hfree.trans ((inUnits_sched _ _ _ _).trans (inUnits_sched _ _ _ _)).inEngines,
      fun e he => List.mem_append_left _ (List.mem_append_left _ he)⟩
  · exact ⟨hfree, fun e he => he⟩

theorem startWait_run {s : State} {w : Iss} (h : (s.iss w).wait = .run) : startWait s w = s := by
  rw [startWait, h]
theorem commitRegion_eq (s : State) (w : Iss) (r : Region) : commitRegion s w r =
    let t := queueFreed (effectsKicked (regionTaken s w r) w r) w
    if (t.iss w).regions.isEmpty then startWait t w else t := rfl

theorem commitRegion_spec {s : State} {w : Iss} {r : Region} {rest : List Region} (hr : (s.iss w).regions = r :: rest)
    (hwait : rest ≠ [] ∨ (s.iss w).wait = .run) : let t := commitRegion s w r
    SameBut s t w Issuer.rcountCleared ∧ (∃ l b, t.iss w = { (s.iss w).committed r s.tick with suppress := l, presBusy := b } ∧
      (r.held ≠ [] → b = true ∧
        ((s.iss w).presBusy = false → (s.tick, w, Instr.heldEffectPresentation) ∈ t.agenda))) := by
  obtain ⟨htaken, htick, l, hl⟩ := regionTaken_spec s w r
  obtain ⟨hkick, b, hb, hag⟩ := effectsKicked_spec (regionTaken s w r) w r
  obtain ⟨hfree, hset⟩ := queueFreed_spec (effectsKicked (regionTaken s w r) w r) w
  have hiss := (hfree.iss w).trans hb
  rw [hl] at hiss hag
  rw [htick] at hag
  have hwhole : commitRegion s w r = queueFreed (effectsKicked (regionTaken s w r) w r) w := by
    rw [commitRegion_eq]
    dsimp only
    split
    · rename_i hempty
      refine startWait_run ?_
      rw [hiss] at hempty ⊢
      refine hwait.resolve_left fun hne => hne ?_
      simpa [Issuer.committed, hr] using hempty
    · rfl
  rw [hwhole]
  exact ⟨(htaken.then hkick).then (hfree.keepsRegs w).same, l, b, hiss,
    fun hne => ⟨(hag hne).1, fun hp => hset _ ((hag hne).2 hp)⟩⟩

theorem exec_regionCommit_waits {s : State} {r : Region} {rest : List Region} (hr : (s.iss s.cur).regions = r :: rest)
    (hc : r.closed ≠ none) (hready : regionReady s s.cur r = false) :
    exec .regionCommit s = .next (s.sched (max (s.tick + 1) r.due) s.cur .regionCommit) := by
  change execRegionCommit s = _
  rw [execRegionCommit]
  simp only [hr]
  rw [if_neg (by simpa using hc), hready]
  rfl
theorem regionCommit_spec {s : State} {r : Region} {rest : List Region} (hr : (s.iss s.cur).regions = r :: rest)
    (hc : r.closed ≠ none) (hready : regionReady s s.cur r = true)
    (hpair : (s.coreOf s.cur).pair = false ∨ bit (s.chip.cluster s.cur.cl).pairst s.cur.co = true)
    (hwait : rest ≠ [] ∨ (s.iss s.cur).wait = .run) : Completes .regionCommit s fun t =>
      (t.iss s.cur).regions = rest ∧ (t.iss s.cur).presq = (s.iss s.cur).presq ++ r.held ∧ (t.iss s.cur).rcount = 0 ∧
      (t.iss s.cur).lastCommit = s.tick ∧ (r.held ≠ [] → (t.iss s.cur).presBusy = true ∧
        ((s.iss s.cur).presBusy = false → (s.tick, s.cur, Instr.heldEffectPresentation) ∈ t.agenda)) ∧
      (t.iss s.cur).pend = (s.iss s.cur).pend ∧ SameBut s t s.cur Issuer.rcountCleared := by
  have hexec : exec .regionCommit s = .next (commitRegion s s.cur r) := by
    change execRegionCommit s = _
    rw [execRegionCommit]
    simp only [hr]
    have halone : ((s.coreOf s.cur).pair && !bit (s.chip.cluster s.cur.cl).pairst s.cur.co) = false := by
      rcases hpair with h | h <;> simp [h]
    rw [if_neg (by simpa using hc), hready, halone]
    rfl
  obtain ⟨hsame, l, b, hiss, hpres⟩ := commitRegion_spec hr hwait
  generalize commitRegion s s.cur r = t at *
  refine ⟨t, hexec, ?_⟩
  dsimp only
  rw [hiss]
  exact ⟨congrArg (List.drop 1) hr, rfl, rfl, rfl, hpres, rfl, hsame⟩

/-! The re-entry (R187). -/

/-- An issuer that stands again where its discarded region was opened. -/
def Issuer.reentered (r : Region) (me : Issuer) : Issuer := { me with
  redo := none, pcs := r.pcs, wait := .run, entered := false, delay := 0, rnum := (r.num + 2 ^ 32 - 1) % 2 ^ 32 }
theorem exec_regionReentry {s : State} {r : Region} (h : (s.iss s.cur).redo = some r) : exec .regionReentry s =
    match r.opener with
    | .rgn | .again => .next (s.updIss s.cur (Issuer.reentered r))
    | .start | .block => .next (openRegion (s.updIss s.cur (Issuer.reentered r)) s.cur r.num 0 r.opener r.pcs) := by
  change execRegionReentry s = _
  rw [execRegionReentry]
  simp only [h]
  rfl

theorem regionReentry_spec {s : State} {r : Region} (h : (s.iss s.cur).redo = some r) :
    Completes .regionReentry s fun t =>
      (t.iss s.cur).redo = none ∧ (t.iss s.cur).pcs = r.pcs ∧ (t.iss s.cur).wait = .run ∧ SameRegs s t ∧
      match r.opener with
      | .rgn | .again => (t.iss s.cur).regions = (s.iss s.cur).regions
      | .start | .block => ∃ n, (t.iss s.cur).regions = (s.iss s.cur).regions ++ [n] ∧ n.num = r.num % 2 ^ 32 ∧ n.mask = 0 ∧
          n.held = [] ∧ n.closed = none ∧ n.pcs = r.pcs := by
  have hexec := exec_regionReentry h
  have hslot : ((s.iss s.cur).reentered r).slot = s.cur.n := state_iss_slot s s.cur
  have hat := atIssuer_updIss s s.cur (Issuer.reentered r) hslot
  have hiss := iss_updIss s s.cur (Issuer.reentered r) hslot
  generalize s.updIss s.cur (Issuer.reentered r) = u at *
  have hsame : SameRegs s u := ⟨hat.sameBut (by rw [hiss]; rfl), by rw [hiss]; rfl⟩
  obtain ⟨hat', hiss'⟩ := openRegion_spec u s.cur r.num 0 r.opener r.pcs
  rw [hiss] at hiss'
  generalize openRegion u s.cur r.num 0 r.opener r.pcs = v at *
  have hsame' : SameRegs s v := ⟨(hat.trans hat').sameBut (by rw [hiss']; rfl), by rw [hiss']; rfl⟩
  cases ho : r.opener <;> rw [ho] at hexec
  case rgn | again => exact ⟨u, hexec, by rw [hiss]; rfl, by rw [hiss]; rfl, by rw [hiss]; rfl, hsame, by rw [hiss]; rfl⟩
  case start | block =>
    exact ⟨v, hexec, by rw [hiss']; rfl, by rw [hiss']; rfl, by rw [hiss']; rfl, hsame', _,
      congrArg Issuer.regions hiss', rfl, rfl, rfl, rfl, rfl⟩

/-- Settles O27: a commit by the conditions of R182, and the re-entry by what opened the region. -/
theorem regionCommitAndReentry : Obligations.RegionCommitAndReentry := by
  unfold Obligations.RegionCommitAndReentry
  intro s r rest w me
  exact ⟨fun hr hc => ⟨exec_regionCommit_waits hr hc, regionCommit_spec hr hc⟩, regionReentry_spec⟩

end Sys2Proof.Machine

/-! ### What firmware's writes leave of the clusters' cover registers (R26, R146, R197) -/
namespace Sys2Proof.Machine

/-- STEP and every cluster's registers stay, those of the listed clusters in their places. -/
structure KeepsCover (s t : State) : Prop where
  sstep : t.chip.sstep = s.chip.sstep
  cluster : ∀ cl, (t.chip.cluster cl).regs = (s.chip.cluster cl).regs
  listed : t.chip.clusters.map (·.regs) = s.chip.clusters.map (·.regs)
theorem KeepsCover.refl (s : State) : KeepsCover s s := ⟨rfl, fun _ => rfl, rfl⟩
theorem KeepsCover.trans {s t u : State} (h : KeepsCover s t) (k : KeepsCover t u) : KeepsCover s u :=
  ⟨k.sstep.trans h.sstep, fun cl => (k.cluster cl).trans (h.cluster cl), k.listed.trans h.listed⟩
theorem KeepsCover.of_chip {s t : State} (h : t.chip = s.chip) : KeepsCover s t :=
  ⟨by rw [h], fun _ => by rw [h], by rw [h]⟩
theorem KeepsCover.foldl {α : Type} {f : State → α → State} (h : ∀ s a, KeepsCover s (f s a)) (l : List α) (s : State) :
    KeepsCover s (l.foldl f s) := by
  induction l generalizing s with
  | nil => exact .refl s
  | cons a l ih => exact (h s a).trans (ih _)

/-- What leaves the cores and the cover registers, though it writes memory and may invalidate entries of the TLBs. -/
structure RindWrites (s t : State) : Prop where
  cores : t.cores = s.cores
  cover : KeepsCover s t
theorem RindWrites.refl (s : State) : RindWrites s s := ⟨rfl, .refl s⟩
theorem RindWrites.trans {s t u : State} (h : RindWrites s t) (k : RindWrites t u) : RindWrites s u :=
  ⟨k.cores.trans h.cores, h.cover.trans k.cover⟩
theorem RindWrites.foldl {α : Type} {f : State → α → State} (h : ∀ s a, RindWrites s (f s a)) (l : List α) (s : State) :
    RindWrites s (l.foldl f s) := by
  induction l generalizing s with
  | nil => exact .refl s
  | cons a l ih => exact (h s a).trans (ih _)

theorem keepsCover_invalidateThen (s : State) (w : Option Iss) (next : List (Iss × Instr)) (f : TlbE → Bool) :
    KeepsCover s (invalidateThen s w next f) := by
  obtain ⟨a, h⟩ := invalidateThen_eq s w next f
  refine ⟨by rw [h]; rfl, (inChip_invalidateThen s w next f).clusters, ?_⟩
  rw [h]
  exact List.map_map.trans rfl
theorem keepsCover_clearGranules (s : State) (pa n : Nat) : KeepsCover s (clearGranules s pa n) := by
  unfold clearGranules
  split
  · exact .refl s
  · extract_lets gs bad s1 clean s2
    split
    · exact .refl s
    · have h1 : KeepsCover s s1 := KeepsCover.foldl (f := fun s g => setGranule s (g * 4096) false)
        (fun s g => .of_chip rfl) bad s
      have h2 : KeepsCover s1 s2 := KeepsCover.foldl (f := fun s m =>
        s.setByte (keyHbm (frame s.chip.psnbase + 0x1800000 + m / 8))
          (s.byte (keyHbm (frame s.chip.psnbase + 0x1800000 + m / 8)) &&& ~~~((1 : Byte) <<< (m % 8))))
        (fun s m => .of_chip rfl) clean s1
      exact (h1.trans h2).trans (keepsCover_invalidateThen _ _ _ _)
theorem rindWrites_fwStore (s : State) (pa : Nat) (bs : List Byte) : RindWrites s (fwStore s pa bs) := by
  refine ⟨(fwTouch_fwStore s pa bs).cores, ?_⟩
  have hbytes : KeepsCover s (s.setBytes (keyHbm pa) bs) := .of_chip (State.setBytes_chip _ _ _)
  unfold fwStore fwWrote
  extract_lets u g
  have hu : KeepsCover s u := hbytes.trans (.of_chip rfl)
  split
  · exact hu.trans (keepsCover_clearGranules u _ _)
  · exact hu
theorem rindWrites_putRind (s : State) (c : Core) (part : Nat) (e : Nat × RindItem) : RindWrites s (putRind s c part e) := by
  unfold putRind
  dsimp only
  split
  · exact RindWrites.foldl (f := fun s (x : (Nat × List Byte) × Nat) => fwStore (fwStore s _ x.1.2) _ _)
      (fun s x => (rindWrites_fwStore _ _ _).trans (rindWrites_fwStore _ _ _)) _ s
  · have hfree : RindWrites s (s.free 255).2 := ⟨rfl, .of_chip rfl⟩
    exact (hfree.trans (rindWrites_fwStore _ _ _)).trans (rindWrites_fwStore _ _ _)
  · exact (rindWrites_fwStore _ _ _).trans (RindWrites.foldl (f := fun s k => fwStore s _ _)
      (fun s k => rindWrites_fwStore _ _ _) _ _)

/-- What the blocks of a core have logged is written where their Rind areas lie (R197). -/
def rindPut (s : State) (c : Core) : State := c.blocks.foldl (fun s b => b.ivals.foldl (fun s iv =>
  match b.area with
  | some a => iv.sent.foldl (fun s e => putRind s c (a + iv.part * 0x2A000) e) s
  | none => s) s) s
theorem rindWrites_rindPut (s : State) (c : Core) : RindWrites s (rindPut s c) := by
  refine RindWrites.foldl (fun s b => RindWrites.foldl (fun s iv => ?_) b.ivals s) c.blocks s
  split
  · exact RindWrites.foldl (fun s e => rindWrites_putRind s c _ e) _ s
  · exact .refl s

/-- No block of a core has a Rind area in HBM. -/
def NoArea (c : Core) : Prop := ∀ b ∈ c.blocks, b.area = none
theorem rindPut_of_noArea {c : Core} (h : NoArea c) (s : State) : rindPut s c = s := by
  rw [rindPut]
  generalize hl : c.blocks = l
  rw [NoArea, hl] at h
  clear hl
  induction l with
  | nil => rfl
  | cons b l ih =>
    rw [List.foldl_cons, List.foldl_fixed' (fun iv : Ival => by rw [h b List.mem_cons_self]) b.ivals]
    exact ih fun o ho => h o (List.mem_cons_of_mem b ho)
theorem flushRind_eq (s : State) (cl co : Nat) : flushRind s cl co =
    if ((s.core cl co).blocks.all fun b => b.ivals.all fun iv => iv.sent.isEmpty) = true then s
    else (rindPut s (s.core cl co)).updCore cl co fun c => { c with blocks := c.blocks.map fun b => { b with
      ivals := b.ivals.map fun iv => { iv with sent := [] } } } := rfl

/-- Every issuer and the cover registers stay, and memory where no block of core cl, co has a Rind area. -/
structure OpensInterval (s t : State) (cl co : Nat) : Prop where
  iss : ∀ v, t.iss v = s.iss v
  cover : KeepsCover s t
  mem : NoArea (s.core cl co) → t.mem = s.mem
theorem opensInterval_updCore (s : State) (cl co : Nat) {f : Core → Core} (hk : KeepsKey f) (hi : ∀ c, (f c).issuers = c.issuers)
    (hr : ∀ c, (f c).regs = c.regs) : OpensInterval s (s.updCore cl co f) cl co :=
  ⟨(inEngines_updCore s cl co hk hi hr).iss, .of_chip rfl, fun _ => rfl⟩
theorem opensInterval_flushRind (s : State) (cl co : Nat) : OpensInterval s (flushRind s cl co) cl co := by
  rw [flushRind_eq]
  split
  · exact ⟨fun _ => rfl, .refl s, fun _ => rfl⟩
  · have hput := rindWrites_rindPut s (s.core cl co)
    have hcore (cl' co' : Nat) : (rindPut s (s.core cl co)).core cl' co' = s.core cl' co' := by
      rw [State.core, hput.cores, State.core]
    obtain ⟨hiss, hcover, hmem⟩ := opensInterval_updCore (rindPut s (s.core cl co)) cl co (f := fun c => { c with
      blocks := c.blocks.map fun b => { b with ivals := b.ivals.map fun iv => { iv with sent := [] } } })
      (fun _ => ⟨rfl, rfl⟩) (fun _ => rfl) fun _ => rfl
    refine ⟨fun v => (hiss v).trans ?_, hput.cover.trans hcover, fun h => (hmem ?_).trans ?_⟩
    · rw [State.iss, hcore, State.iss]
    · rwa [hcore]
    · rw [rindPut_of_noArea h]
/-- An interval opens (R197): what the last ones have logged goes to HBM, and the snapshot is taken. -/
theorem openInterval_spec (s : State) (cl co bi : Nat) (sup : Bool) : OpensInterval s (openInterval s cl co bi sup) cl co := by
  obtain ⟨hiss, hcover, hmem⟩ := opensInterval_flushRind s cl co
  have hopen : InEngines (flushRind s cl co) (openInterval s cl co bi sup) :=
    inEngines_updCore _ cl co (fun _ => ⟨rfl, rfl⟩) (fun _ => rfl) fun _ => rfl
  exact ⟨fun v => (hopen.iss v).trans (hiss v), hcover.trans (.of_chip rfl), fun h => hopen.mem.trans (hmem h)⟩

end Sys2Proof.Machine

/-! ### Parties go on (R123, R184, R198, R304) -/
namespace Sys2Proof.Machine

theorem block_noArea {c : Core} (h : NoArea c) (bi : Nat) : (c.block bi).area = none := by
  unfold Core.block
  split
  · rename_i b hb; exact h b (List.mem_of_find?_eq_some hb)
  · rfl
theorem noArea_setBlock {c : Core} (h : NoArea c) {b : Block} (hb : b.area = none) : NoArea (c.setBlock b) := fun o ho => by
  obtain ⟨p, hp, rfl⟩ := List.mem_map.1 ho
  split
  · exact hb
  · exact h p hp
theorem noArea_logEffect {s : State} {cl co : Nat} (h : NoArea (s.core cl co)) (w : Iss) (out : Bool) (sig : BitVec 56)
    (res : List (Nat × DWord)) : NoArea ((logEffect s w out sig res).core cl co) := by
  unfold logEffect
  split
  · exact h
  · rename_i bi hbi
    rw [core_updCore _ _ _ _ _ _ (by intro c; dsimp only; split <;> exact ⟨rfl, rfl⟩)]
    split
    · rename_i hc
      obtain ⟨rfl, rfl⟩ := hc
      dsimp only
      split
      · exact h
      · exact noArea_setBlock h (block_noArea h bi)
    · exact h

/-- An issuer that has passed a blocking point at tick t (R163, R184). -/
def Issuer.passed (pcs : List Nat) (v : Wait) (t : Nat) (entered : Bool) (me : Issuer) : Issuer :=
  { me with pcs := pcs, wait := v, nextAt := t, entered := entered, delay := 0 }
theorem unblock_eq (s : State) (w : Iss) (pc : Nat) : ∃ p v e,
    unblock s w pc = openRegion (s.updIss w (Issuer.passed p v s.tick e)) w ((s.iss w).rnum + 1) 0 .block p ∧
      (v = .run ∨ v = .marker) := by
  obtain ⟨e, he⟩ : ∃ e, e = ((s.iss w).entered && !(pc % 16 == hdrCnt (s.header w.cl pc))) := ⟨_, rfl⟩
  obtain ⟨v, hv⟩ : ∃ v, v = (if bit (s.instWord w.cl pc) 63 then Wait.marker else Wait.run) := ⟨_, rfl⟩
  refine ⟨pcsAfter s w pc, v, e, ?_, ?_⟩
  · have hslot : ((s.iss w).passed (pcsAfter s w pc) v s.tick e).slot = w.n := state_iss_slot s w
    have hiss := iss_updIss s w (Issuer.passed (pcsAfter s w pc) v s.tick e) hslot
    have hunblock : unblock s w pc = let u := s.updIss w (Issuer.passed (pcsAfter s w pc) v s.tick e)
        openRegion u w ((u.iss w).rnum + 1) 0 .block (u.iss w).pcs := by rw [he, hv]; rfl
    rw [hunblock]
    dsimp only
    rw [hiss]
    rfl
  · rw [hv]
    split
    · exact .inr rfl
    · exact .inl rfl
/-- An issuer that goes on after its blocking point, in a new region with an empty mask (R184). -/
theorem unblock_spec (s : State) (w : Iss) (pc : Nat) : let t := unblock s w pc
    AtIssuer s t w ∧ ∃ r, (t.iss w).regions = (s.iss w).regions ++ [r] ∧ r.held = [] ∧ r.mask = 0 ∧
      ((t.iss w).wait = .run ∨ (t.iss w).wait = .marker) := by
  intro t
  obtain ⟨p, v, e, ht, hv⟩ := unblock_eq s w pc
  have hslot : ((s.iss w).passed p v s.tick e).slot = w.n := state_iss_slot s w
  have hat := atIssuer_updIss s w (Issuer.passed p v s.tick e) hslot
  have hiss := iss_updIss s w (Issuer.passed p v s.tick e) hslot
  obtain ⟨hat', hiss'⟩ := openRegion_spec (s.updIss w (Issuer.passed p v s.tick e)) w ((s.iss w).rnum + 1) 0 .block p
  rw [← ht] at hat' hiss'
  rw [hiss] at hiss'
  refine ⟨hat.trans hat', _, congrArg Issuer.regions hiss', rfl, rfl, ?_⟩
  rw [show (t.iss w).wait = v from congrArg Issuer.wait hiss']
  exact hv

/-- What happens in the cores: the chip and memory stay, and no block gets a Rind area. -/
structure InCores (s t : State) : Prop where
  chip : t.chip = s.chip
  mem : t.mem = s.mem
  noArea : ∀ cl co, NoArea (s.core cl co) → NoArea (t.core cl co)
theorem InCores.refl (s : State) : InCores s s := ⟨rfl, rfl, fun _ _ h => h⟩
theorem InCores.trans {s t u : State} (h : InCores s t) (k : InCores t u) : InCores s u :=
  ⟨k.chip.trans h.chip, k.mem.trans h.mem, fun cl co hc => k.noArea cl co (h.noArea cl co hc)⟩
theorem InCores.foldl {α : Type} {f : State → α → State} (h : ∀ s a, InCores s (f s a)) (l : List α) (s : State) :
    InCores s (l.foldl f s) := by
  induction l generalizing s with
  | nil => exact .refl s
  | cons a l ih => exact (h s a).trans (ih _)
/-- What becomes of issuer w alone: every other one stays. -/
structure OfIssuer (s t : State) (w : Iss) : Prop where
  inCores : InCores s t
  others : ∀ v, v ≠ w → t.iss v = s.iss v
theorem OfIssuer.refl (s : State) (w : Iss) : OfIssuer s s w := ⟨.refl s, fun _ _ => rfl⟩
theorem OfIssuer.trans {s t u : State} {w : Iss} (h : OfIssuer s t w) (k : OfIssuer t u w) : OfIssuer s u w :=
  ⟨h.inCores.trans k.inCores, fun v hv => (k.others v hv).trans (h.others v hv)⟩
theorem AtIssuer.ofIssuer {s t : State} {w : Iss} (h : AtIssuer s t w) : OfIssuer s t w := by
  refine ⟨⟨show t.kept.chip = s.kept.chip by rw [h.kept], mem_of_kept h.kept, fun cl co hc => ?_⟩, fun _ hv => h.iss_other hv⟩
  by_cases hw : cl = w.cl ∧ co = w.co
  · obtain ⟨rfl, rfl⟩ := hw
    have hblocks : (t.coreOf w).blocks = (s.coreOf w).blocks :=
      show (t.coreOf w).kept.blocks = (s.coreOf w).kept.blocks by rw [h.core]
    rw [NoArea, ← State.coreOf, hblocks]
    exact hc
  · rwa [h.cores cl co hw]
theorem ofIssuer_logEffect (s : State) (w : Iss) (out : Bool) (sig : BitVec 56) (res : List (Nat × DWord)) :
    OfIssuer s (logEffect s w out sig res) w :=
  ⟨⟨chip_logEffect s w out sig res, (inEngines_logEffect s w out sig res).mem, fun _ _ h => noArea_logEffect h w out sig res⟩,
    fun v _ => (inEngines_logEffect s w out sig res).iss v⟩
theorem ofIssuer_completeBlock (s : State) (w : Iss) (i : Instr) (lanes : List Nat) (pc : Nat) (v : DWord) :
    OfIssuer s (completeBlock s w i lanes pc v) w := by
  obtain ⟨hpend, -⟩ := addPend_spec s w (s.tick + (outcome (w.n == 16) i lanes v).1) (outcome (w.n == 16) i lanes v).2
  exact (hpend.trans (unblock_spec _ w pc).1).ofIssuer.trans (ofIssuer_logEffect _ w true _ _)

/-! Each party of a list goes on by itself. -/
section
variable {cl co : Nat} {f : State → Nat → State}

theorem foldl_party_others (hf : ∀ s n, OfIssuer s (f s n) ⟨cl, co, n⟩) {v : Iss} {l : List Nat}
    (hv : ∀ n ∈ l, v ≠ ⟨cl, co, n⟩) (s : State) : (l.foldl f s).iss v = s.iss v := by
  induction l generalizing s with
  | nil => rfl
  | cons a l ih =>
    exact (ih (fun n hn => hv n (List.mem_cons_of_mem a hn)) _).trans ((hf s a).others v (hv a List.mem_cons_self))
theorem foldl_party (hf : ∀ s n, OfIssuer s (f s n) ⟨cl, co, n⟩) {l : List Nat} {n : Nat} (hn : n ∈ l) (hl : l.Nodup)
    (s : State) : ∃ u, u.iss ⟨cl, co, n⟩ = s.iss ⟨cl, co, n⟩ ∧
      (l.foldl f s).iss ⟨cl, co, n⟩ = (f u n).iss ⟨cl, co, n⟩ := by
  have hne {a b : Nat} (h : a ≠ b) : (⟨cl, co, a⟩ : Iss) ≠ ⟨cl, co, b⟩ := fun e => h (congrArg Iss.n e)
  induction l generalizing s with
  | nil => cases hn
  | cons a l ih =>
    obtain ⟨ha, hl⟩ := List.nodup_cons.1 hl
    rcases List.mem_cons.1 hn with h | hn
    · rw [h]
      exact ⟨s, rfl, foldl_party_others hf (fun m hm => hne (a := a) (b := m) fun e => ha (by rwa [e])) _⟩
    · obtain ⟨u, hu, hfold⟩ := ih hn hl (f s a)
      exact ⟨u, hu.trans ((hf s a).others _ (hne fun e => ha (e ▸ hn))), hfold⟩

end

end Sys2Proof.Machine

/-! ### Barriers (R123, R146, R195, R304) -/
namespace Sys2Proof.Machine

/-- A party that waits at the BAR goes on, after what every party has issued before it (R123, R198, R304). -/
def partyPassed (cl co : Nat) (hb : Clock) (s : State) (n : Nat) : State :=
  match waitsBar (s.iss ⟨cl, co, n⟩) with
  | some pc => logEffect (unblock (acquire s ⟨cl, co, n⟩ hb) ⟨cl, co, n⟩ pc) ⟨cl, co, n⟩ true
      (effSig ⟨.bar ⟨false, 0, false⟩, [], [], [], 0, 0, 0⟩) []
  | none => s
theorem acquire_spec (s : State) (w : Iss) (k : Clock) :
    AtIssuer s (acquire s w k) w ∧ ((acquire s w k).iss w).regions = (s.iss w).regions := by
  have hslot : ({ s.iss w with hb := joinClock s (s.iss w).hb k } : Issuer).slot = w.n := state_iss_slot s w
  exact ⟨atIssuer_updIss s w (fun me => { me with hb := joinClock s me.hb k }) hslot,
    (congrArg Issuer.regions (iss_updIss s w (fun me => { me with hb := joinClock s me.hb k }) hslot)).trans rfl⟩
theorem ofIssuer_partyPassed (cl co : Nat) (hb : Clock) (s : State) (n : Nat) :
    OfIssuer s (partyPassed cl co hb s n) ⟨cl, co, n⟩ := by
  unfold partyPassed
  split
  · exact ((acquire_spec s _ hb).1.trans (unblock_spec _ _ _).1).ofIssuer.trans (ofIssuer_logEffect _ _ true _ _)
  · exact .refl s _
theorem partyPassed_waiting {cl co n pc : Nat} {s : State} (h : waitsBar (s.iss ⟨cl, co, n⟩) = some pc) (hb : Clock) :
    let t := partyPassed cl co hb s n
    ∃ r, (t.iss ⟨cl, co, n⟩).regions = (s.iss ⟨cl, co, n⟩).regions ++ [r] ∧ r.held = [] ∧ r.mask = 0 ∧
      ((t.iss ⟨cl, co, n⟩).wait = .run ∨ (t.iss ⟨cl, co, n⟩).wait = .marker) := by
  intro t
  have ht : t = partyPassed cl co hb s n := rfl
  rw [partyPassed, h] at ht
  have hlog := (inEngines_logEffect (unblock (acquire s ⟨cl, co, n⟩ hb) ⟨cl, co, n⟩ pc) ⟨cl, co, n⟩ true
    (effSig ⟨.bar ⟨false, 0, false⟩, [], [], [], 0, 0, 0⟩) []).iss ⟨cl, co, n⟩
  rw [ht, hlog, ← (acquire_spec s ⟨cl, co, n⟩ hb).2]
  exact (unblock_spec _ _ _).2

/-- A core whose block bi has left the barrier that it stood at as b says: one arrival of each party is taken back (R304). -/
def Core.leaveBarrier (b : Block) (bi : Nat) (c : Core) : Core := c.setBlock { c.block bi with
  doneAt := none, arrived := b.arrived.map fun a => (a.1, a.2 - 1)
  hb := if b.arrived.any fun a => decide (1 < a.2) then b.hb else [] }
/-- The barrier has been left, and its cluster's mask covers the cluster (R146, R304). -/
def barrierLeft (s : State) (cl co bi : Nat) : State :=
  (s.updCore cl co (Core.leaveBarrier ((s.core cl co).block bi) bi)).updCluster cl fun k =>
    { k with mask := k.mask ||| (1 : DWord) <<< cl }
theorem barrierLeft_spec (s : State) (cl co bi : Nat) : let t := barrierLeft s cl co bi
    (∀ v, t.iss v = s.iss v) ∧ (t.chip.cluster cl).mask = (s.chip.cluster cl).mask ||| (1 : DWord) <<< cl ∧ t.mem = s.mem ∧
      (NoArea (s.core cl co) → NoArea (t.core cl co)) := by
  have hkey : KeepsKey (Core.leaveBarrier ((s.core cl co).block bi) bi) := fun _ => ⟨rfl, rfl⟩
  refine ⟨(inEngines_updCore s cl co hkey (fun _ => rfl) fun _ => rfl).iss, ?_, rfl, fun h => ?_⟩
  · exact congrArg Cluster.mask ((cluster_updCluster _ cl cl (fun k => { k with mask := k.mask ||| (1 : DWord) <<< cl })
      fun _ => rfl).trans (if_pos rfl))
  · have hcore := (core_updCore s cl co cl co _ hkey).trans (if_pos ⟨rfl, rfl⟩)
    change NoArea ((s.updCore cl co _).core cl co)
    rw [hcore]
    exact noArea_setBlock h (block_noArea h bi)

/-- The parties of a barrier go on, and an interval opens (R195, R304). -/
def barrierPassed (s : State) (cl co bi : Nat) : State :=
  openInterval (((s.core cl co).liveParties bi).foldl (partyPassed cl co ((s.core cl co).block bi).hb)
    (barrierLeft s cl co bi)) cl co bi false
/-- The barrier completes a tick later (R122, R123). -/
def barrierPutOff (s : State) (cl co bi : Nat) : State :=
  (s.updCore cl co fun c => c.setBlock { c.block bi with doneAt := some (s.tick + 1) }).sched (s.tick + 1) ⟨cl, co, bi⟩
    .barrierComplete

section
variable {s : State} (hdone : ((s.core s.cur.cl s.cur.co).block s.cur.n).doneAt = some s.tick)
include hdone

theorem exec_barrierComplete : exec .barrierComplete s =
    if ((s.core s.cur.cl s.cur.co).liveParties s.cur.n).any
      (fun n => releasesQueued ((s.core s.cur.cl s.cur.co).iss n)) = true then
      .next (barrierPutOff s s.cur.cl s.cur.co s.cur.n)
    else .next (barrierPassed s s.cur.cl s.cur.co s.cur.n) := by
  change execBarrierComplete s = _
  unfold execBarrierComplete
  dsimp only
  rw [if_neg fun hne => hne hdone]
  rfl
theorem barrierComplete_waits
    (hkeeps : ((s.core s.cur.cl s.cur.co).liveParties s.cur.n).any
      (fun n => releasesQueued ((s.core s.cur.cl s.cur.co).iss n)) = true) :
    Completes .barrierComplete s fun t => (s.tick + 1, s.cur, Instr.barrierComplete) ∈ t.agenda ∧ SameRegs s t ∧
      ∀ n, (t.iss ⟨s.cur.cl, s.cur.co, n⟩).wait = ((s.core s.cur.cl s.cur.co).iss n).wait := by
  have hset : InEngines s (s.updCore s.cur.cl s.cur.co fun c =>
      c.setBlock { c.block s.cur.n with doneAt := some (s.tick + 1) }) :=
    inEngines_updCore s _ _ (fun _ => ⟨rfl, rfl⟩) (fun _ => rfl) fun _ => rfl
  have hoff : InEngines s (barrierPutOff s s.cur.cl s.cur.co s.cur.n) := hset.trans (inUnits_sched _ _ _ _).inEngines
  exact ⟨_, (exec_barrierComplete hdone).trans (if_pos hkeeps), List.mem_append_right _ (List.mem_singleton.2 rfl),
    (hoff.keepsRegs s.cur).sameRegs, fun n => congrArg Issuer.wait (hoff.iss _)⟩
theorem barrierComplete_passes
    (hkeeps : ((s.core s.cur.cl s.cur.co).liveParties s.cur.n).any
      (fun n => releasesQueued ((s.core s.cur.cl s.cur.co).iss n)) = false) :
    let c := s.core s.cur.cl s.cur.co
    Completes .barrierComplete s fun t =>
      (∀ n ∈ c.liveParties s.cur.n, (c.liveParties s.cur.n).Nodup → ∀ pc, waitsBar (c.iss n) = some pc → ∃ r,
        (t.iss ⟨s.cur.cl, s.cur.co, n⟩).regions = (c.iss n).regions ++ [r] ∧ r.held = [] ∧ r.mask = 0 ∧
        ((t.iss ⟨s.cur.cl, s.cur.co, n⟩).wait = .run ∨ (t.iss ⟨s.cur.cl, s.cur.co, n⟩).wait = .marker)) ∧
      (t.chip.cluster s.cur.cl).mask = (s.chip.cluster s.cur.cl).mask ||| (1 : DWord) <<< s.cur.cl ∧
      (NoArea c → ∀ k, t.byte k = s.byte k) := by
  intro c
  obtain ⟨hiss, hmask, hmem, harea⟩ := barrierLeft_spec s s.cur.cl s.cur.co s.cur.n
  have hparty := ofIssuer_partyPassed s.cur.cl s.cur.co (c.block s.cur.n).hb
  have hpass := InCores.foldl (fun s n => (hparty s n).inCores) (c.liveParties s.cur.n)
    (barrierLeft s s.cur.cl s.cur.co s.cur.n)
  obtain ⟨hopen, hcover, hput⟩ := openInterval_spec ((c.liveParties s.cur.n).foldl
    (partyPassed s.cur.cl s.cur.co (c.block s.cur.n).hb) (barrierLeft s s.cur.cl s.cur.co s.cur.n))
    s.cur.cl s.cur.co s.cur.n false
  refine ⟨_, (exec_barrierComplete hdone).trans (if_neg (by rw [hkeeps]; exact Bool.false_ne_true)), fun n hn hd pc hpc => ?_,
    ?_, fun h k => ?_⟩
  · obtain ⟨u, hu, hfold⟩ := foldl_party hparty hn hd (barrierLeft s s.cur.cl s.cur.co s.cur.n)
    have hus : u.iss ⟨s.cur.cl, s.cur.co, n⟩ = c.iss n := hu.trans (hiss _)
    rw [barrierPassed, hopen, hfold, ← hus]
    exact partyPassed_waiting (hus ▸ hpc) _
  · exact (congrArg Cluster.mask (hcover.cluster s.cur.cl)).trans
      ((congrArg (fun h : Chip => (h.cluster s.cur.cl).mask) hpass.chip).trans hmask)
  · have hall : (barrierPassed s s.cur.cl s.cur.co s.cur.n).mem = s.mem :=
      (hput (hpass.noArea _ _ (harea h))).trans (hpass.mem.trans hmem)
    rw [State.byte, hall, State.byte]

end

end Sys2Proof.Machine

/-! ### The end of a phase (R309) -/
namespace Sys2Proof.Machine

theorem phaser_setPhaser (s : State) (n : Nat) (p : Phaser) : (s.setPhaser n p).phaser n = p :=
  congrArg (·.getD {}) (assoc_assocSet_same s.chip.phasers n p)
/-- Judging a phaser changes only when its phase is due (R309). -/
theorem phaser_phaserJudge (s : State) (n : Nat) : ∃ d, (phaserJudge s n).phaser n = { s.phaser n with due := d } := by
  unfold phaserJudge
  dsimp only
  split
  · split
    · exact ⟨(s.phaser n).due, rfl⟩
    · exact ⟨_, phaser_setPhaser s n _⟩
  · exact ⟨_, phaser_setPhaser s n _⟩
/-- A phase's end at tick t, before members come and go (R309). -/
def Phaser.advanced (p : Phaser) (t : Nat) (k : Clock) : Phaser := { p with
  due := none, lastDone := t, lastSig := p.lastSig1, lastSig1 := 0, mclh := (p.mcl :: p.mclh).take 4
  hb := p.hb1, hb1 := [], hbh := (k :: p.hbh).take 4
  phist := BitVec.ofNat 4 (p.phist.toNat * 2 + b2n p.psn)
  phase := (p.phase + 1) % 2 ^ 32, arr := p.arr1, psn := p.psn1, arr1 := 0, psn1 := false }
/-- No member joins or leaves at a phase's end when each is in effect and none has dropped (R308, R311). -/
theorem complete_settled {p : Phaser} (h : (p.members.all fun m => m.inEffect && !m.drop) = true) (t : Nat) (k : Clock) :
    p.complete t k = (p.advanced t k).refreshMcl := by
  have hin : ∀ m ∈ p.members, m.inEffect = true ∧ m.drop = false := by simpa using h
  have hleave : p.members.filter (fun m => m.drop && m.inEffect) = [] :=
    List.filter_eq_nil_iff.2 fun m hm => by simp [(hin m hm).2]
  have hjoin : p.members.filter (fun m => !m.inEffect) = [] :=
    List.filter_eq_nil_iff.2 fun m hm => by simp [(hin m hm).1]
  unfold Phaser.complete
  dsimp only
  rw [hleave]
  exact congrArg (fun l => l.foldl Phaser.enter (p.advanced t k).refreshMcl) hjoin
theorem phaseComplete_spec {s : State} (hdue : ∃ d, (s.phaser s.cur.n).due = some d ∧ d ≤ s.tick)
    (hmem : ((s.phaser s.cur.n).members.all fun m => m.inEffect && !m.drop) = true) : Completes .phaseComplete s fun t =>
      ∃ k d, t.phaser s.cur.n = { ((s.phaser s.cur.n).advanced s.tick k).refreshMcl with due := d } := by
  obtain ⟨d, hd, hle⟩ := hdue
  let k := joinClock s (s.phaser s.cur.n).hb []
  obtain ⟨d', hjudge⟩ := phaser_phaserJudge (s.setPhaser s.cur.n ((s.phaser s.cur.n).advanced s.tick k).refreshMcl) s.cur.n
  rw [phaser_setPhaser] at hjudge
  let u := phaserJudge (s.setPhaser s.cur.n ((s.phaser s.cur.n).advanced s.tick k).refreshMcl) s.cur.n
  have hexec : exec .phaseComplete s = .next ((u.cores.filter (·.active)).foldl (fun s c => kickStreams s c.cl c.co) u) := by
    change execPhaseComplete s = _
    unfold execPhaseComplete
    dsimp only
    rw [hd, complete_settled hmem]
    exact if_neg (by simpa using hle)
  have hkick : Unmoved u ((u.cores.filter (·.active)).foldl (fun s c => kickStreams s c.cl c.co) u) :=
    Unmoved.foldl (f := fun s (c : Core) => kickStreams s c.cl c.co) (fun _ _ => ⟨rfl, rfl, rfl, rfl⟩) _ u
  exact ⟨_, hexec, k, d', (congrArg (fun h : Chip => (assoc h.phasers s.cur.n).getD {}) hkick.chip).trans hjudge⟩

end Sys2Proof.Machine

/-! ### Superstep boundaries (R138, R146, R305, R397, R434) -/
namespace Sys2Proof.Machine

/-- Whether the superstep has sent something that is not done: a write that is not acknowledged, or a held effect that is not
presented (R138). -/
def ssUnsent (s : State) : Bool :=
  !(ssOpen s).isEmpty || (ssgCores s).any fun c => c.issuers.any fun i => !i.presq.isEmpty
/-- Whether a drain or a collective has not ended, or an issuer is not at its SSYNC (R305, R434). -/
def ssLate (s : State) : Bool :=
  (ssgCores s).any (fun c => !c.drains.isEmpty || c.issuers.any fun i => i.wait != .ended && (waitsSsync i).isNone) ||
    s.chip.colls.any fun c => c.started && !c.ended
theorem ssUnsent_iff (s : State) : ssUnsent s = false ↔
    ssOpen s = [] ∧ ∀ c ∈ ssgCores s, ∀ i ∈ c.issuers, i.presq = [] := by
  simp [ssUnsent]
theorem ssLate_iff (s : State) : ssLate s = false ↔
    (∀ c ∈ ssgCores s, c.drains = [] ∧ ∀ i ∈ c.issuers, i.wait = .ended ∨ (waitsSsync i).isSome = true) ∧
      ∀ c ∈ s.chip.colls, c.started = true → c.ended = true := by
  simp [ssLate, or_iff_not_imp_left, Option.isSome_iff_ne_none]

/-- A boundary that comes too early: the fault is reported before the next frame starts (R397, R398). -/
def boundaryFaulted (s : State) : State :=
  let evs := s.agenda.filter fun e => e.1 == s.tick && frameEvent e.2.2
  let u := reportFault { s with agenda := s.agenda.filter fun e => !(e.1 == s.tick && frameEvent e.2.2) } 3
  { u with agenda := u.agenda ++ evs }
/-- The superstep is over: its number advances, the masks and ranges clear, and ended collectives go (R146, R397). -/
def superstepOver (s : State) : State := s.updChip fun h => { h with
  sstep := setBits h.sstep 0 32 (bits h.sstep 0 32 + 1)
  clusters := h.clusters.map fun k => { k with mask := 0, ranges := [], allcov := false }
  colls := h.colls.filter fun c => !c.ended
  sched := { h.sched with resyncs := 0 } }
/-- The issuers of a core that wait at their SSYNC go on, and their blocks' intervals open (R195, R305). -/
def ssyncPassed (s : State) (c : Core) : State :=
  let s := c.issuers.foldl (fun s i =>
    match i.wait with
    | .block (.ssync m) .wait lanes _ it pc => completeBlock s ⟨c.cl, c.co, i.slot⟩ (.ssync m) lanes pc (BitVec.ofNat 64 it)
    | _ => s) s
  (List.range c.bpc).foldl (fun s j => openInterval s c.cl c.co j true) s
/-- The boundary passes, and grids that are to be pre-empted at it stop (R391). -/
def boundaryPassed (s : State) : State :=
  let u := (ssgCores s).foldl ssyncPassed (superstepOver s)
  (u.fw.grids.filter fun g => g.state == 2 && g.preq.isSome && decide (g.preqAt + 4000 ≤ u.tick) &&
    (ownCores u g).any fun c => bit c.modew 2).foldl parkAll u

section
variable {s : State} (hrun : s.chip.sched.running = true) (hfault : s.chip.sched.faulted = false)
  (hsync : s.chip.sched.resync = none)
include hrun hfault hsync

theorem exec_superstepBoundary : exec .superstepBoundary s =
    match if ssUnsent s then settleSuperstep s else none with
    | some u => .next u
    | none => if ssUnsent s || ssLate s then .next (boundaryFaulted s) else .next (boundaryPassed s) := by
  change execSuperstepBoundary s = _
  unfold execSuperstepBoundary
  dsimp only
  rw [if_neg (by simp [hrun, hfault, hsync])]
  have hlate : (ssUnsent s || ssLate s) = (ssUnsent s || (ssgCores s).any (fun c => !c.drains.isEmpty ||
      c.issuers.any fun i => i.wait != .ended && (waitsSsync i).isNone) || s.chip.colls.any fun c => c.started && !c.ended) :=
    (Bool.or_assoc _ _ _).symm
  rw [hlate]
  rfl

end

theorem boundaryFaulted_spec (s : State) : let t := boundaryFaulted s
    t.sstep = s.sstep ∧ (∃ d k, (s.tick + d, obj k, Instr.scheduleFault 3) ∈ t.agenda) ∧ ∀ k, t.byte k = s.byte k :=
  ⟨rfl, ⟨0, 0, List.mem_append_left _ (List.mem_append_right _ (List.mem_singleton.2 rfl))⟩, fun _ => rfl⟩

/-! The boundary's effect on STEP and the cover registers. -/

theorem toNat_setBits_low (d : DWord) (v : Nat) : (setBits d 0 32 v).toNat = d.toNat / 2 ^ 32 * 2 ^ 32 + v % 2 ^ 32 := by
  have hd := d.isLt
  rw [setBits, BitVec.toNat_ofNat, bits, Nat.pow_zero, Nat.div_one, Nat.mul_one, Nat.mul_one]
  omega
theorem bits_setBits_low (d : DWord) (v : Nat) : bits (setBits d 0 32 v) 0 32 = v % 2 ^ 32 := by
  rw [bits, toNat_setBits_low, Nat.pow_zero, Nat.div_one]
  omega
theorem bit_setBits_low (d : DWord) (v : Nat) : bit (setBits d 0 32 v) 32 = bit d 32 := by
  have hdiv : (d.toNat / 2 ^ 32 * 2 ^ 32 + v % 2 ^ 32) / 2 ^ 32 = d.toNat / 2 ^ 32 := by omega
  rw [bit, toNat_setBits_low, hdiv, bit]

theorem keepsCover_ssyncPassed (s : State) (c : Core) : KeepsCover s (ssyncPassed s c) := by
  refine (KeepsCover.foldl (fun s i => ?_) c.issuers s).trans
    (KeepsCover.foldl (fun s j => (openInterval_spec s c.cl c.co j true).cover) _ _)
  split
  · exact .of_chip (ofIssuer_completeBlock s _ _ _ _ _).inCores.chip
  · exact .refl s
theorem keepsCover_parkAll (s : State) (g : Grid) : KeepsCover s (parkAll s g) :=
  (KeepsCover.foldl (f := fun s (k : Nat × Nat) => s.updCore k.1 k.2 fun c => { c with parked := List.range 18 })
    (fun _ _ => .of_chip rfl) g.cores s).trans (.of_chip rfl)
theorem keepsCover_boundaryPassed (s : State) : KeepsCover (superstepOver s) (boundaryPassed s) :=
  (KeepsCover.foldl keepsCover_ssyncPassed _ _).trans (KeepsCover.foldl keepsCover_parkAll _ _)
theorem boundaryPassed_spec (s : State) : let t := boundaryPassed s
    t.sstep = (s.sstep + 1) % 2 ^ 32 ∧ bit t.chip.sstep 32 = bit s.chip.sstep 32 ∧
      ∀ k ∈ t.chip.clusters, k.mask = 0 ∧ k.ranges = [] ∧ k.allcov = false := by
  intro t
  obtain ⟨hstep, -, hlisted⟩ := keepsCover_boundaryPassed s
  have hstep' : t.chip.sstep = setBits s.chip.sstep 0 32 (s.sstep + 1) := hstep
  refine ⟨?_, ?_, fun k hk => ?_⟩
  · rw [State.sstep, hstep', bits_setBits_low]
  · rw [hstep', bit_setBits_low]
  · have hregs : k.regs ∈ (superstepOver s).chip.clusters.map (·.regs) := hlisted ▸ List.mem_map_of_mem hk
    obtain ⟨j, hj, hjk⟩ := List.mem_map.1 hregs
    obtain ⟨i, -, rfl⟩ := List.mem_map.1 hj
    exact ⟨(congrArg Cluster.mask hjk).symm, (congrArg Cluster.ranges hjk).symm, (congrArg Cluster.allcov hjk).symm⟩

/-- Settles O36: a barrier's completion by whether a release is still to be presented, a phase's end by the members that
stand, and a boundary by what the superstep has sent and who is late. -/
theorem phasesAndBoundaries : Obligations.PhasesAndBoundaries := by
  unfold Obligations.PhasesAndBoundaries
  intro s
  refine ⟨?barrier, ?phase, ?boundary⟩
  case barrier =>
    intro cl co bi c keeps hdone _
    exact ⟨barrierComplete_waits hdone, barrierComplete_passes hdone⟩
  case phase =>
    intro p hdue hmem
    obtain ⟨t, hexec, k, d, hq⟩ := phaseComplete_spec hdue hmem
    refine ⟨t, hexec, ?_⟩
    dsimp only
    rw [hq]
    exact ⟨rfl, rfl, rfl, rfl, rfl, rfl, rfl, rfl, rfl, rfl⟩
  case boundary =>
    intro hrun hfault hsync sent ended
    have hexec := exec_superstepBoundary hrun hfault hsync
    have hsent : ssUnsent s = false ↔ sent := ssUnsent_iff s
    have hended : ssLate s = false ↔ ended := ssLate_iff s
    refine ⟨fun h1 h2 => ?_, fun h1 u hu => ?_, fun h => ?_⟩
    · rw [hsent.2 h1, hended.2 h2] at hexec
      exact ⟨_, hexec, boundaryPassed_spec s⟩
    · rw [Bool.eq_true_of_not_eq_false (mt hsent.1 h1), if_pos rfl, hu] at hexec
      exact hexec
    · refine ⟨_, ?_, boundaryFaulted_spec s⟩
      rcases h with ⟨h1, h2⟩ | ⟨h1, hu⟩
      · rw [hsent.2 h1, Bool.eq_true_of_not_eq_false (mt hended.1 h2)] at hexec
        exact hexec
      · rw [Bool.eq_true_of_not_eq_false (mt hsent.1 h1), if_pos rfl, hu] at hexec
        exact hexec

end Sys2Proof.Machine
